-- ==== Sys2Proof/Word.lean ====
section
/-! DEFINITION. The words of the G4: bits, bytes, 32-bit registers, 64-bit addresses, lane masks (00_scope R5, 03_registers R42). -/

namespace Sys2Proof

/-- A byte of memory; memory is little-endian (R5). -/
abbrev Byte := BitVec 8

/-- A 32-bit register (R42). -/
abbrev Word := BitVec 32

/-- A 64-bit value: an instruction word, an address, an even-aligned register pair (R42). -/
abbrev DWord := BitVec 64

/-- A set of lanes of one warp, bit `l` for lane `l` (R46 `%members`). -/
abbrev Mask := BitVec 32

end Sys2Proof
end

