-- ==== Sys2Proof/Syntax.lean ====
section
/-! DEFINITION. The syntax of the G4: the fields of the seven instruction formats (04_encoding R68 to R77), the
types the codes of a field stand for, the arguments of the device's own events, and ONE constructor of `Instr`
for every row of the opcode table. -/

namespace Sys2Proof

/-- The TYPE field (R68); codes 13 to 15 are reserved and never decode (R69). -/
inductive Ty where
  | i32 | n32 | i64 | n64 | f32 | f16 | bf16 | f16x2 | bf16x2 | i16x2 | i8x4 | b32 | b64
  deriving DecidableEq, Repr

/-- The KIND field (R68): what source B is; the literal of KIND 3 is the slot that follows (R63). -/
inductive Kind where
  | vec | scal | imm | lit (x : DWord)
  deriving DecidableEq, Repr

/-- SPACE of the M format (R73). -/
inductive Space where
  | glob | blk | clu | sealed
  deriving DecidableEq, Repr

/-- WIDTH of the M format (R73): 8, 16, 32, 64 bits, 2×32, 4×32, 8×32. -/
inductive Width where
  | w8 | w16 | w32 | w64 | x2 | x4 | x8
  deriving DecidableEq, Repr

/-- ORDER of the M and K formats (R73). -/
inductive MemOrder where
  | relaxed | acq | rel | acqrel | region | ahead
  deriving DecidableEq, Repr

/-- SCOPE (R73, R200). -/
inductive MemScope where
  | block | cluster | device | system
  deriving DecidableEq, Repr

/-- The V format (R68); the S form uses the same fields with scalar registers, RA, RB, RC and F being 0 (R70). -/
structure VFields where
  d : BitVec 9
  a : BitVec 9
  b : BitVec 9
  c : BitVec 9
  ra : BitVec 2
  rb : BitVec 2
  rc : BitVec 2
  gp : BitVec 3
  gn : Bool
  ty : Ty
  own : Bool
  kind : Kind
  mod : BitVec 3
  deriving DecidableEq, Repr

/-- The P format: the pair word (R71). -/
structure PFields where
  opa : BitVec 6
  da : BitVec 9
  aa : BitVec 9
  bs : BitVec 9
  opb : BitVec 6
  db : BitVec 9
  ab : BitVec 9
  ptype : BitVec 2
  gp : BitVec 3
  gn : Bool
  deriving DecidableEq, Repr

/-- The M format (R73). -/
structure MFields where
  d : BitVec 9
  a : BitVec 9
  e : BitVec 9
  ofs : BitVec 11
  ak : Bool
  rd : BitVec 2
  gp : BitVec 3
  gn : Bool
  space : Space
  width : Width
  order : MemOrder
  scope : MemScope
  deriving DecidableEq, Repr

/-- The K format (R75). -/
structure KFields where
  a : BitVec 9
  b : BitVec 9
  c : BitVec 9
  tag : BitVec 6
  aux : BitVec 8
  gp : BitVec 3
  gn : Bool
  mode : BitVec 3
  order : MemOrder
  scope : MemScope
  deriving DecidableEq, Repr

/-- The X format (R76). -/
structure XFields where
  a : BitVec 9
  fw : BitVec 9
  g : BitVec 9
  h : BitVec 9
  tag : BitVec 6
  gp : BitVec 3
  gn : Bool
  xmod : BitVec 10
  deriving DecidableEq, Repr

/-- The C format (R77). -/
structure CFields where
  disp : BitVec 24
  a : BitVec 9
  b : BitVec 9
  c : BitVec 9
  gp : BitVec 3
  gn : Bool
  deriving DecidableEq, Repr

/-- A logical thread name (R6): an ordinary thread, or a lane given work by `refill` (R36). -/
inductive ThreadName where
  | ordinary (launch block thread : Nat)
  | refilled (launch queue seq : Nat)
  deriving DecidableEq, Repr

/-- Why an engine operation fails after issue (R231; SEAL by R237 and R273). -/
inductive FailCause where
  | xlate | prot | dataerr | sealed
  deriving DecidableEq, Repr

/-- The port a management command arrives on (R417). -/
inductive Port where
  | i3c | mailbox
  deriving DecidableEq, Repr

/-- Where the scheduler puts one block (R13, R44, R344): the block's number B, its cores in increasing number,
the warp slot it takes for each warp, and the addresses of the trap record slots it assigns (R385). The choices
are the device's, and the event that carries them checks them. -/
structure BlockPlace where
  b : Nat
  cores : List Nat
  slots : List Nat
  records : List DWord
  deriving DecidableEq, Repr

/-- Inputs of CTX_CREATE (R417): the partitions the context may run in stand here too (R338, R419). -/
structure CtxArgs where
  ctx : Nat
  root : DWord
  save : DWord
  diag : DWord
  launchQuota : Nat
  queueQuota : Nat
  hostTier : Bool
  peerTier : Bool
  secure : Bool
  inSession : Bool
  parts : List Nat
  deriving DecidableEq, Repr

/-- Inputs of PART_SET (R417): physical ranges (base, length), the core mask and the reserved cores (R346). -/
structure PartArgs where
  part : Nat
  ranges : List (Nat × Nat)
  cores : List Nat
  reserved : List Nat
  touchesSecure : Bool
  inSession : Bool
  deriving DecidableEq, Repr

/-- Inputs of QUEUE_CREATE (R417, R358). -/
structure QueueArgs where
  part : Nat
  queue : Nat
  ctx : Nat
  ring : DWord
  size : Nat
  deriving DecidableEq, Repr

/-- A start or stop condition of the trace unit (R425): PC comparators (PC, mask), event counters (counter, value)
and a pennant set. -/
structure TraceCond where
  pcs : List (DWord × DWord)
  counts : List (Nat × Nat)
  pennants : BitVec 8
  deriving DecidableEq, Repr

/-- Inputs of TRACE_CFG (R425). -/
structure TraceArgs where
  buffer : DWord
  start : TraceCond
  stop : TraceCond
  deriving DecidableEq, Repr

/-- Inputs of SAMPLE_CFG (R423). -/
structure SampleArgs where
  cores : List Nat
  period : Nat
  buffer : DWord
  deriving DecidableEq, Repr

/-- What one stall sample saw in its slot (R423, R424): the issued or first strand, the producer PC, the reason. -/
structure SampleTaken where
  w : Nat
  st : Nat
  producer : DWord
  reason : Nat
  full : Bool
  deriving DecidableEq, Repr

/-- What bring-up finds (R420, R428): whether Kazzer verifies, the good cores of each die, whether a Buryx port is cabled. -/
structure BootOutcome where
  verified : Bool
  goodCores : List Nat
  cabled : Bool
  deriving DecidableEq, Repr

/-- An error source of R401. -/
inductive ErrSource where
  | subcore (core sub : Nat)
  | dramRow (die row : Nat)
  | l2Slice (die slice loc : Nat)
  | columnStore (core col : Nat)
  deriving DecidableEq, Repr

/-- A request from a peer device over Buryx (R193, R422): the physical address in this device's memory. -/
inductive PeerAccess where
  | load (pa size : Nat)
  | store (pa : Nat) (bytes : List Byte)
  | atom (pa : Nat) (sop : BitVec 5) (wide : Bool) (e e2 : DWord)
  deriving DecidableEq, Repr

/-- One constructor for every row of the opcode table: the instructions with the fields of their format, and the
device's own steps (events) with the arguments that say which occurrence it is. -/
inductive Instr where
  /-- NOP (R100): No operation: has no effect, whatever its guard. -/
  | nop (f : VFields)
  /-- ADD (R101): Vector add of A and B in each guarded member lane, with integer wrap or saturation, or with float rounding. -/
  | add (f : VFields)
  /-- ADD_S (R70): Scalar-form add (OP 0x41), computed once for the warp on s-registers. -/
  | addS (f : VFields)
  /-- SUB (R101): Vector subtract of B from A in each guarded member lane. -/
  | sub (f : VFields)
  /-- SUB_S (R70): Scalar-form subtract (OP 0x42). -/
  | subS (f : VFields)
  /-- MUL (R101): Vector multiply, giving the low bits for integers or one rounding for floats. -/
  | mul (f : VFields)
  /-- MUL_S (R70): Scalar-form multiply (OP 0x43). -/
  | mulS (f : VFields)
  /-- MAD (R101): Vector multiply-add a*b+c with a single rounding or saturation. -/
  | mad (f : VFields)
  /-- MAD_S (R70): Scalar-form multiply-add (OP 0x44). -/
  | madS (f : VFields)
  /-- MIN (R101): Vector minimum, with the integer and float rules for choosing an operand. -/
  | minOp (f : VFields)
  /-- MIN_S (R70): Scalar-form minimum (OP 0x45). -/
  | minS (f : VFields)
  /-- MAX (R101): Vector maximum, with the integer and float rules for choosing an operand. -/
  | maxOp (f : VFields)
  /-- MAX_S (R70): Scalar-form maximum (OP 0x46). -/
  | maxS (f : VFields)
  /-- NEG (R102): Negates the single source, or inverts its float sign bit. -/
  | neg (f : VFields)
  /-- NEG_S (R70): Scalar-form negate (OP 0x47). -/
  | negS (f : VFields)
  /-- ABS (R102): Absolute value of the single source, or clears its float sign bit. -/
  | absOp (f : VFields)
  /-- ABS_S (R70): Scalar-form absolute value (OP 0x48). -/
  | absS (f : VFields)
  /-- CMP (R103): Compares A with B under the relation in MOD and writes a lane predicate. -/
  | cmp (f : VFields)
  /-- CMP_S (R103): Scalar-form compare (OP 0x49), writing a scalar predicate. -/
  | cmpS (f : VFields)
  /-- SEL (R104): Selects A or B per lane by the lane predicate named in field C. -/
  | sel (f : VFields)
  /-- SEL_S (R104): Scalar-form select (OP 0x4A), by a scalar predicate. -/
  | selS (f : VFields)
  /-- MOV (R105): Copies the single source, possibly routed, to D bit for bit. -/
  | mov (f : VFields)
  /-- MOV_S (R70): Scalar-form move (OP 0x4B). -/
  | movS (f : VFields)
  /-- MOVI (R105): Writes an 18-bit sign-extended immediate or a literal to D. -/
  | movi (f : VFields)
  /-- MOVI_S (R70): Scalar-form immediate move (OP 0x4C). -/
  | moviS (f : VFields)
  /-- CVT (R106): Converts the source from type ts to type td, with rounding, clamping and pennants. -/
  | cvt (f : VFields)
  /-- CVT_S (R106): Scalar-form conversion (OP 0x4D). -/
  | cvtS (f : VFields)
  /-- MULHI (R107): Writes the high half of the exact product. -/
  | mulhi (f : VFields)
  /-- MULHI_S (R70): Scalar-form high multiply (OP 0x4E). -/
  | mulhiS (f : VFields)
  /-- MADW (R107): Wide multiply-add of two 32-bit values into a 64-bit pair. -/
  | madw (f : VFields)
  /-- MADW_S (R70): Scalar-form wide multiply-add (OP 0x4F). -/
  | madwS (f : VFields)
  /-- AND (R108): Bitwise AND on b32 or b64. -/
  | andOp (f : VFields)
  /-- AND_S (R70): Scalar-form AND (OP 0x50). -/
  | andS (f : VFields)
  /-- OR (R108): Bitwise OR on b32 or b64. -/
  | orOp (f : VFields)
  /-- OR_S (R70): Scalar-form OR (OP 0x51). -/
  | orS (f : VFields)
  /-- XOR (R108): Bitwise XOR on b32 or b64. -/
  | xorOp (f : VFields)
  /-- XOR_S (R70): Scalar-form XOR (OP 0x52). -/
  | xorS (f : VFields)
  /-- NOT (R108): Bitwise NOT of the single source. -/
  | notOp (f : VFields)
  /-- NOT_S (R70): Scalar-form NOT (OP 0x53). -/
  | notS (f : VFields)
  /-- SHL (R109): Shifts left with zero fill; the result is 0 when the count is at least the width. -/
  | shl (f : VFields)
  /-- SHL_S (R70): Scalar-form shift left (OP 0x54). -/
  | shlS (f : VFields)
  /-- SHR (R109): Logical shift right with zero fill. -/
  | shr (f : VFields)
  /-- SHR_S (R70): Scalar-form logical shift right (OP 0x55). -/
  | shrS (f : VFields)
  /-- SAR (R109): Arithmetic shift right, filling with the sign bit. -/
  | sar (f : VFields)
  /-- SAR_S (R70): Scalar-form arithmetic shift right (OP 0x56). -/
  | sarS (f : VFields)
  /-- POPC (R110): Counts the 1 bits of the source. -/
  | popc (f : VFields)
  /-- POPC_S (R70): Scalar-form population count (OP 0x57). -/
  | popcS (f : VFields)
  /-- CLZ (R110): Counts the leading zero bits of the source. -/
  | clz (f : VFields)
  /-- CLZ_S (R70): Scalar-form leading-zero count (OP 0x58). -/
  | clzS (f : VFields)
  /-- BREV (R110): Reverses the bit order of the source. -/
  | brev (f : VFields)
  /-- BREV_S (R70): Scalar-form bit reverse (OP 0x59). -/
  | brevS (f : VFields)
  /-- BFE (R111): Extracts a bit field given by a start and width control, sign- or zero-extended. -/
  | bfe (f : VFields)
  /-- BFE_S (R70): Scalar-form bit-field extract (OP 0x5A). -/
  | bfeS (f : VFields)
  /-- BFI (R111): Inserts the low bits of A into a field of base C. -/
  | bfi (f : VFields)
  /-- BFI_S (R70): Scalar-form bit-field insert (OP 0x5B). -/
  | bfiS (f : VFields)
  /-- LEA (R112): Forms a 64-bit address from a base plus an index shifted by MOD. -/
  | lea (f : VFields)
  /-- LEA_S (R112): Scalar-form address computation (OP 0x5C). -/
  | leaS (f : VFields)
  /-- PSET (R113): Combines two predicates into a third by the operation in MOD. -/
  | pset (f : VFields)
  /-- PSET_S (R113): Scalar-form predicate combine (OP 0x5D) on scalar predicates. -/
  | psetS (f : VFields)
  /-- PMOV (R114): MOD 0: writes the eight lane predicates into bits 7:0 of a vector register. -/
  | pmov (f : VFields)
  /-- PMOV_SET (R114): MOD 1: sets p0 to p6 from bits 6:0 of the source. -/
  | pmovSet (f : VFields)
  /-- PMOV_S (R114): Scalar-form predicate move (OP 0x5E) of the scalar predicates to or from an s-register. -/
  | pmovS (f : VFields)
  /-- DIV (R156): Correctly rounded float quotient a/b, with the special cases laid down for it. -/
  | div (f : VFields)
  /-- DIV_S (R153): Scalar-form division (OP 0x5F). -/
  | divS (f : VFields)
  /-- RCP (R157): Correctly rounded reciprocal. -/
  | rcp (f : VFields)
  /-- RCP_S (R153): Scalar-form reciprocal (OP 0x60). -/
  | rcpS (f : VFields)
  /-- RSQRT (R157): Approximate reciprocal square root, within 1 ulp. -/
  | rsqrt (f : VFields)
  /-- RSQRT_S (R153): Scalar-form reciprocal square root (OP 0x61). -/
  | rsqrtS (f : VFields)
  /-- SQRT (R157): Correctly rounded square root. -/
  | sqrt (f : VFields)
  /-- SQRT_S (R153): Scalar-form square root (OP 0x62). -/
  | sqrtS (f : VFields)
  /-- EXP2 (R157): Approximate 2^b. -/
  | exp2 (f : VFields)
  /-- EXP2_S (R153): Scalar-form exp2 (OP 0x63). -/
  | exp2S (f : VFields)
  /-- LOG2 (R157): Approximate base-2 logarithm. -/
  | log2 (f : VFields)
  /-- LOG2_S (R153): Scalar-form log2 (OP 0x64). -/
  | log2S (f : VFields)
  /-- SINPI (R157): Approximate sin(pi b), with exact argument reduction. -/
  | sinpi (f : VFields)
  /-- SINPI_S (R153): Scalar-form sinpi (OP 0x65). -/
  | sinpiS (f : VFields)
  /-- COSPI (R157): Approximate cos(pi b). -/
  | cospi (f : VFields)
  /-- COSPI_S (R153): Scalar-form cospi (OP 0x66). -/
  | cospiS (f : VFields)
  /-- TANH (R157): Approximate hyperbolic tangent. -/
  | tanh (f : VFields)
  /-- TANH_S (R153): Scalar-form tanh (OP 0x67). -/
  | tanhS (f : VFields)
  /-- LDEXP (R159): Scales a float by 2^k with a single rounding. -/
  | ldexp (f : VFields)
  /-- LDEXP_S (R153): Scalar-form ldexp (OP 0x68). -/
  | ldexpS (f : VFields)
  /-- FRND (R160): Rounds a float to an integral value in the same format. -/
  | frnd (f : VFields)
  /-- FRND_S (R153): Scalar-form frnd (OP 0x69). -/
  | frndS (f : VFields)
  /-- FCLS (R161): Writes a one-hot class code of the float source. -/
  | fcls (f : VFields)
  /-- FCLS_S (R153): Scalar-form fcls (OP 0x6A). -/
  | fclsS (f : VFields)
  /-- DOT2 (R162): Two-element f16 or bf16 dot product plus c, rounded once to f32. -/
  | dot2 (f : VFields)
  /-- DOT2_S (R153): Scalar-form dot2 (OP 0x6B). -/
  | dot2S (f : VFields)
  /-- DOT4 (R288): Four-element FP8 or INT8 dot product plus c. -/
  | dot4 (f : VFields)
  /-- DOT4_S (R287): Scalar-form dot4 (OP 0x6C). -/
  | dot4S (f : VFields)
  /-- PK (R289): Converts two values to a narrow format and inserts them into D at the chosen position. -/
  | pk (f : VFields)
  /-- PK_S (R287): Scalar-form pk (OP 0x6D). -/
  | pkS (f : VFields)
  /-- UPK (R290): Reads narrow elements and writes them widened to f32 or bf16x2. -/
  | upk (f : VFields)
  /-- UPK_S (R287): Scalar-form upk (OP 0x6E). -/
  | upkS (f : VFields)
  /-- PAIR_WORD (R72): A P-format slot that performs two vector sub-operations sharing their second source. -/
  | pairWord (f : PFields)
  /-- VOTE (R164): Ballot, any, all or uniformity vote over the contributors' predicate, with an absent-lane bitmap. -/
  | vote (f : VFields)
  /-- ELECT (R165): Sets a predicate true in the lowest contributor and false in the other contributors. -/
  | elect (f : VFields)
  /-- VGET (R166): Copies one lane's value into an s-register. -/
  | vget (f : VFields)
  /-- VPUT (R166): Copies a scalar value into one lane. -/
  | vput (f : VFields)
  /-- REDW (R167): Reduces a source over the 32 lane positions in a fixed tree, with an absent-lane bitmap. -/
  | redw (f : VFields)
  /-- LANES (R169): Rank, count, first or match over the contributors. -/
  | lanes (f : VFields)
  /-- BRA (R115): Branches the whole strand to H + 8 x DISP under a scalar guard. -/
  | bra (f : CFields)
  /-- BRX (R115): Branches to an s-pair base plus a displacement. -/
  | brx (f : CFields)
  /-- CALL (R115): Direct call: writes the link pair and branches by DISP. -/
  | call (f : CFields)
  /-- CALL_INDIRECT (R115): Indirect call (C = 1): branches through an s pair and writes the link pair. -/
  | callIndirect (f : CFields)
  /-- RET (R115): Returns through an s-pair target. -/
  | ret (f : CFields)
  /-- FORK (R19): Splits a strand by a lane predicate into then and else arms and a continuation, or serialises the fork. -/
  | fork (f : CFields)
  /-- JOIN (R23): Writes vD per lane from the then-arm or else-arm register, once both arms have published it. -/
  | join (f : VFields)
  /-- JOINP (R23): Per-arm select for lane predicates. -/
  | joinp (f : VFields)
  /-- HOIST (R22): Publishes one to four registers of an arm early. -/
  | hoist (f : VFields)
  /-- ARMEND (R21): Publishes the arm's writes and retires the strand, or moves a serialised fork to its next phase. -/
  | armend (f : CFields)
  /-- EXIT (R29): Removes every member of the strand from the warp; the lanes become vacant. -/
  | exit (f : CFields)
  /-- WAITC (R119): Waits until the warp's outstanding counters reach the given bounds. -/
  | waitc (f : CFields)
  /-- YIELD (R120): Ends the clause and offers the warp's active-set place to a pending ready warp. -/
  | yield (f : CFields)
  /-- LD (R217): Loads from global, scratch or sealed space into registers, relaxed, acquire or ahead. -/
  | ld (f : MFields)
  /-- ST (R218): Stores possibly routed data to memory, relaxed or release. -/
  | st (f : MFields)
  /-- ST_RGN (R302): Region store (ORDER 4): buffers a concrete or symbolic value in the lane's open region. -/
  | stRgn (f : MFields)
  /-- ATOM (R221): Atomic read-modify-write at the home, returning the old value unless NR is set. -/
  | atom (f : MFields)
  /-- RED (R221): Atomic reduction at the home with no returned value. -/
  | red (f : MFields)
  /-- FENCE (R222): Acquire, release or full fence at a scope. -/
  | fence (f : MFields)
  /-- PREFETCH (R223): Asks the home for a span and places it in L1; never faults. -/
  | prefetch (f : MFields)
  /-- SEAL (R192): Seals a global range read-only across every agent of the context. -/
  | sealRange (f : MFields)
  /-- UNSEAL (R194): Ends a sealed region once every replica has been dropped. -/
  | unsealRange (f : MFields)
  /-- WAITM (R226): Waits until each guarded lane's memory word meets a relation. -/
  | waitm (f : MFields)
  /-- WAITM_MET (R226): A changed word is read afresh and meets the relation, releasing the waiting lanes. -/
  | waitmMet (w st : Nat)
  /-- ALD (R318): Loads a word into a new region slot, or returns a slot or buffered value. -/
  | ald (f : MFields)
  /-- ABEG (R319): Opens an empty atomic region for each guarded lane, with a fallback label. -/
  | abeg (f : MFields)
  /-- AEND (R320): Commits each lane's region and writes success predicates and the re-apply count. -/
  | aend (f : MFields)
  /-- REGION_COMMIT (R304): The commit units lock the words in address order, compare the slots, and write, re-apply or abort. -/
  | regionCommit (w st lane : Nat)
  /-- AABORT (R321): Aborts the region of each guarded lane that has one. -/
  | aabort (f : MFields)
  /-- CPG (R233): Copies a global tensor box into block scratch. -/
  | cpg (f : KFields)
  /-- CPS (R233): Copies block scratch to a global tensor box, optionally adding atomically. -/
  | cps (f : KFields)
  /-- CPB (R233): Copies a global tensor box into the B store's column stores. -/
  | cpb (f : KFields)
  /-- CPV (R233): Copies a global tensor box into vector registers. -/
  | cpv (f : KFields)
  /-- CPM (R234): Multicasts a global box into the scratch of the cluster blocks that the mask names. -/
  | cpm (f : KFields)
  /-- CPX (R235): Copies bytes from block scratch to a peer block's cluster scratch. -/
  | cpx (f : KFields)
  /-- COPY_COMPLETE (R232): An engine copy or drain completes; its locks drop, the cp counter and the tag count fall, and the tag is set at 0. -/
  | copyComplete (op : Nat)
  /-- COPY_FAIL (R231): An engine operation stops on a failure after issue and completes as failed, its trap pending. -/
  | copyFail (op : Nat) (why : FailCause) (addr : DWord)
  /-- DEFERRED_TRAP_DELIVER (R383): A pending MNAN or failed-operation trap is delivered at its delivery point. -/
  | deferredTrapDeliver (w st : Nat)
  /-- WAITANY (R236): Waits until any masked tag is set and returns the lowest set one. -/
  | waitany (f : KFields)
  /-- WAITALL (R236): Waits until every masked tag is set. -/
  | waitall (f : KFields)
  /-- FFRDY (R236): Returns the lowest set masked tag without waiting. -/
  | ffrdy (f : KFields)
  /-- TAGREL (R236): Clears each masked tag that has no pending operation. -/
  | tagrel (f : KFields)
  /-- TSHAPE (R277): Requests a tile shape and writes the grant to %tshape. -/
  | tshape (f : XFields)
  /-- MMA (R278): Checks and snapshots a matrix multiply-accumulate and enters it in the matrix queue. -/
  | mma (f : XFields)
  /-- MMA_PERFORM (R267): At its queue turn the engine computes the segments of an mma into the accumulator and retires it. -/
  | mmaPerform (core : Nat)
  /-- TZERO (R279): Queues the zeroing of a tile. -/
  | tzero (f : XFields)
  /-- TLOAD (R279): Queues a load of a tile from block scratch into the accumulator. -/
  | tload (f : XFields)
  /-- TREAD (R280): Queues a move of accumulator elements into vector registers. -/
  | tread (f : XFields)
  /-- TWRITE (R280): Queues a move of vector registers into accumulator elements. -/
  | twrite (f : XFields)
  /-- TDRAIN (R282): Drains a tile through the conversion chain to global memory, counted on cp. -/
  | tdrain (f : XFields)
  /-- TSAVE (R283): Drains a tile through the conversion chain to block scratch, counted on tl. -/
  | tsave (f : XFields)
  /-- QUEUED_TILE_OP_PERFORM (R261): At its queue turn the engine performs a queued tile, drain-read or pinned-pool operation and retires it. -/
  | queuedTileOpPerform (core : Nat)
  /-- GPIN (R284): Reserves a pinned region bound to a backing range and returns its id. -/
  | gpin (f : XFields)
  /-- GACC (R285): Queues the addition of a tile into a pinned region. -/
  | gacc (f : XFields)
  /-- GFLUSH (R285): Queues the write of the region's resident pages to the backing range. -/
  | gflush (f : XFields)
  /-- GFREE (R285): Waits for the region's pending operations, then releases its pages and its id. -/
  | gfree (f : XFields)
  /-- TSTAT (R286): Writes a tile slot's saturation and first-NaN record to eight s-registers. -/
  | tstat (f : XFields)
  /-- TCLR (R286): Clears a tile slot's statistics. -/
  | tclr (f : XFields)
  /-- BAR (R366): Arrives at a block barrier and waits for its phase to complete. -/
  | bar (f : CFields)
  /-- BARR (R366): Arrives at a block barrier without waiting. -/
  | barr (f : CFields)
  /-- BARW (R366): Waits for the phase of the lane's latest barr arrival to complete. -/
  | barw (f : CFields)
  /-- CBAR (R366): Arrives at a cluster barrier and waits. -/
  | cbar (f : CFields)
  /-- LAUNCH (R331): Submits launch records from device code into the pending-launch queue or the ring. -/
  | launch (f : MFields)
  /-- FOPEN (R330): Allocates an open finish scope, optionally under a parent. -/
  | fopen (f : CFields)
  /-- FCLOSE (R333): Ends registration on a scope and releases its held records. -/
  | fclose (f : CFields)
  /-- FWAIT (R333): Waits until a scope is complete, becoming a continuation record when the warp is a single strand. -/
  | fwait (f : CFields)
  /-- TAPE_PUSH (R371): Snapshots a launch record onto the context's tape stack. -/
  | tapePush (f : CFields)
  /-- TAPE_RUN (R356): Starts a run that pops and launches tape records under a scope. -/
  | tapeRun (f : CFields)
  /-- TAPE_POP (R356): After the previous popped launch completes, the run pops the next record and makes it ready. -/
  | tapePop (ctx : Nat)
  /-- AWAIT_TAG (R373): Yields as a continuation record until masked tags are set. -/
  | awaitTag (f : CFields)
  /-- AWAIT_MEM (R373): Yields until a memory word meets a relation. -/
  | awaitMem (f : CFields)
  /-- AWAIT_QUEUE (R373): Yields until a queue holds an entry. -/
  | awaitQueue (f : CFields)
  /-- AWAIT_SCOPE (R373): Yields until a scope is complete. -/
  | awaitScope (f : CFields)
  /-- AWAIT_RED (R373): Yields until a reduction group's result or correction tag is set. -/
  | awaitRed (f : CFields)
  /-- CONT_RECORD_RESUME (R354): A continuation record whose condition holds resumes on its claim's sub-core. -/
  | contRecordResume (w core sub : Nat)
  /-- QPUT (R375): Pushes one 16-byte entry per guarded lane to a hardware queue. -/
  | qput (f : MFields)
  /-- QGET (R375): Pops consecutive entries from a hardware queue into the guarded lanes. -/
  | qget (f : MFields)
  /-- QUEUE_BLOCKED_SERVE (R360): A blocking qput or qget that waited is served once room or entries appear. -/
  | queueBlockedServe (w st : Nat)
  /-- QSTAT (R376): Reads a queue's occupancy, spill count and high-water mark. -/
  | qstat (f : MFields)
  /-- QSTAT_LAUNCH (R334): Reads the context's launch-queue statistics. -/
  | qstatLaunch (f : MFields)
  /-- REFILL (R377): Gives vacant lanes new work items from the launch's refill queue. -/
  | refill (f : CFields)
  /-- RGROW (R52): Grows the warp's vector register allocation, waiting for free registers. -/
  | rgrow (f : CFields)
  /-- RSHRINK (R52): Shrinks the warp's vector register allocation. -/
  | rshrink (f : CFields)
  /-- RGROW_DEADLOCK_SAVE (R53): With every resident warp waiting in rgrow, the youngest is saved and its registers are granted to the others. -/
  | rgrowDeadlockSave (core sub : Nat)
  /-- SAVED_WARP_RESTORE (R53): A warp saved by the deadlock rule is restored once its sub-core has room. -/
  | savedWarpRestore (w : Nat)
  /-- DGRP (R325): Defines a reduction group and registers the block as a participant. -/
  | dgrp (f : KFields)
  /-- DGRP_FREE (R325): Waits for the round to finish, then releases the group. -/
  | dgrpFree (f : KFields)
  /-- DRED (R326): Contributes a payload with an index and a deadline to the die's router. -/
  | dred (f : KFields)
  /-- DFIX (R315): Merges a result area and a correction area exactly into a destination area. -/
  | dfix (f : KFields)
  /-- DRED_ARRIVE (R309): A partial covering a contribution reaches the root; the first arrival starts the deadline count. -/
  | dredArrive (ctx group index : Nat)
  /-- DEADLINE_EXPIRE (R310): The root's deadline count expires and the round's first phase ends. -/
  | deadlineExpire (ctx group : Nat)
  /-- TRAP (R405): Takes the software trap SWTRAP with the given code. -/
  | trap (f : CFields)
  /-- RFT (R406): Returns from the handler and resumes the faulting strand at DPC. -/
  | rft (f : CFields)
  /-- RFT_NEXT (R387): Returns from the handler and resumes after DPC. -/
  | rftNext (f : CFields)
  /-- SRD (R407): Reads a special register into an s-register or s pair. -/
  | srd (f : CFields)
  /-- SWR (R408): Writes %nstat, ORs set pennants into %bstat and reseeds the stochastic states. -/
  | swr (f : CFields)
  /-- BRK (R409): Breakpoint: traps BRK, or parks the strand under debug stop. -/
  | brk (f : CFields)
  /-- MARK (R410): Writes a marker record to the trace stream when tracing is on. -/
  | mark (f : CFields)
  /-- NCLR (R411): Clears pennants in the warp's %nstat. -/
  | nclr (f : CFields)
  /-- LOAD_RETURN (R54): A load's value is written to its destination and the ld counter falls. -/
  | loadReturn (op unit : Nat)
  /-- STORE_COMMIT (R183): Once every sharer has acknowledged delivery, the home commits the write and acknowledges it to its issuer. -/
  | storeCommit (op unit : Nat)
  /-- FAULT_SHADOW_REEXECUTE (R34): Once the fault is resolved, the parked part re-executes up to the waiting point and merges. -/
  | faultShadowReexecute (w st : Nat)
  /-- ARBITER_ENTER (R343): A ready record enters the global arbiter's ready list when room frees, releasing its entry or slot. -/
  | arbiterEnter (launch : Nat)
  /-- BLOCK_DISPATCH (R344): The scheduler places a block, or a cluster group, on cores with free resources. -/
  | blockDispatch (launch : Nat) (place : List BlockPlace)
  /-- BLOCK_COMPLETE (R15): A block with no live lane and all its operations complete completes and frees its resources. -/
  | blockComplete (block : Nat)
  /-- WARP_LEAVE_ACTIVE (R351): A warp whose strands all wait leaves the active set, and the oldest ready pending warp takes its place. -/
  | warpLeaveActive (w : Nat)
  /-- ACTIVE_SET_FORCED_LEAVE (R351): After a ready warp has waited 2,048 cycles, the youngest active warp leaves at its next header. -/
  | activeSetForcedLeave (core sub : Nat)
  /-- SUBCORE_SLEEP (R51): After 65,536 cycles with no issue, a sub-core sleeps at retention voltage. -/
  | subcoreSleep (core sub : Nat)
  /-- SUBCORE_WAKE (R51): A sub-core wakes on an event and runs a 256-cycle check sweep. -/
  | subcoreWake (core sub : Nat)
  /-- PREEMPT_SAVE (R396): A core's warps stop, drain and are written to the save area. -/
  | preemptSave (core : Nat)
  /-- BLOCK_RESTORE (R398): A saved block is restored on cores of its partition, each warp on its serving sub-core. -/
  | blockRestore (block : Nat) (place : List BlockPlace)
  /-- WDOG_EXPIRE (R368): A barrier phase stays incomplete for 2^WDOG cycles and the watchdog fires. -/
  | wdogExpire (block : Nat) (cluster : Bool) (bid : Nat)
  /-- PAGE_FAULT_RECORD (R416): The device writes a fault record to the host fault ring and advances FPI. -/
  | pageFaultRecord (fault : Nat)
  /-- SEM_TIMEOUT (R418): A holder silent for 2^34 cycles loses the semaphore. -/
  | semTimeout
  /-- SEAL_COMPLETE (R192): A seal completes once every agent serving the context has acknowledged the mark and prior writes have committed, and its directory entries are dropped. -/
  | sealComplete (w st : Nat)
  /-- UNSEAL_COMPLETE (R194): An unseal completes when every replica has been dropped and every agent has cleared the mark, after which stores to the region stop raising SEAL. -/
  | unsealComplete (w st : Nat)
  /-- DGRP_REGISTRATION_RECORDED (R325): The root records a block's registration, releasing the dgrp that waits for it. -/
  | dgrpRegistrationRecorded (w st : Nat)
  /-- DRED_ROUTER_ACCEPT (R326): The die's reduction router accepts a contribution (index, deadline, payload), releasing the waiting dred. -/
  | dredRouterAccept (w st : Nat)
  /-- GPIN_RESERVATION_RECORDED (R284): The die's pool records a gpin reservation, and the pending region-id register becomes ready. -/
  | gpinReservationRecorded (op : Nat)
  /-- L1_EVICT_DROP (R184): A sharer evicts words and sends a drop to the home. -/
  | l1EvictDrop (core line : Nat) (words : Mask)
  /-- DIR_ENTRY_EVICT (R182): A slice frees a directory entry by invalidating its sharers' words. -/
  | dirEntryEvict (line : Nat)
  /-- HOST_SUBMIT (R341): A write to SUBMIT snapshots a launch record, assigns an id and places it in the ring, or refuses it. -/
  | hostSubmit (ctx : Nat) (addr : DWord)
  /-- REFUSED_CLEAR (R341): A write of 0 to REFUSED clears the refusal count. -/
  | refusedClear (ctx : Nat) (v : DWord)
  /-- SCRUB_VISIT (R50): The background scrubber visits register words, correcting and counting errors. -/
  | scrubVisit (core sub : Nat)
  /-- FAULT_RETRY (R394): An FRESP with FAIL clear walks the page again for every waiter of the fault id. -/
  | faultRetry (fault : Nat)
  /-- FAULT_FAIL (R394): An FRESP with FAIL set turns every waiter of the fault id into XLATE. -/
  | faultFail (fault : Nat)
  /-- FCI_WRITE (R416): System software advances the fault-ring consumer index, freeing slots. -/
  | fciWrite (v : Word)
  /-- HOST_MEM_READ (R415): A host CXL.mem read at a home slice, recording the host as a sharer. -/
  | hostMemRead (pa : Nat)
  /-- HOST_MEM_WRITE (R415): A host CXL.mem write event at the home, refused for sealed or secure memory. -/
  | hostMemWrite (pa : Nat) (bytes : List Byte)
  /-- HOST_SNOOP (R414): A host snoop takes a line from a proxy slice, which invalidates its L1 sharers. -/
  | hostSnoop (line : Nat)
  /-- PEER_WORD_POLL (R422): A waitm or await on a peer word reads it again at least every 2,048 cycles. -/
  | peerWordPoll (w st : Nat)
  /-- BURYX_LINK_DOWN (R399): After 16 failed retries of one flit, a Buryx link goes down. -/
  | buryxLinkDown (dev : Nat) (routeLeft : Bool)
  /-- RESOURCE_RETIRE (R401): A source past its error threshold is retired or remapped at an idle point. -/
  | resourceRetire (src : ErrSource)
  /-- CTX_CREATE (R417): Creates a context with its page table, save and diagnostic areas, quotas, tiers and world. -/
  | ctxCreate (port : Port) (x : CtxArgs)
  /-- CTX_DESTROY (R417): Terminates a live context under R380, with status 2 for every launch. -/
  | ctxDestroy (port : Port) (ctx : Nat)
  /-- PART_SET (R417): Sets a partition's memory ranges, cores and reserved cores. -/
  | partSet (port : Port) (x : PartArgs)
  /-- CORE_MOVE (R347): Saves a core's blocks, cleans the core and moves it to another partition. -/
  | coreMove (port : Port) (core part : Nat)
  /-- QUEUE_CREATE (R358): Creates a hardware queue for a context with its memory ring. -/
  | queueCreate (port : Port) (x : QueueArgs)
  /-- XLATE_INV (R395): Invalidates translations of a context over a range. -/
  | xlateInv (port : Port) (ctx : Nat) (base len : DWord)
  /-- FAULT_RING (R416): Names the host fault ring, or returns Busy while records are unconsumed. -/
  | faultRing (port : Port) (base : DWord) (count : Nat)
  /-- DEBUG_STOP (R409): Sets or clears a context's debug-stop setting. -/
  | debugStop (port : Port) (ctx : Nat) (on : Bool)
  /-- DEBUG_RESUME (R409): Resumes a strand stopped at brk. -/
  | debugResume (port : Port) (ctx : Nat) (name : ThreadName)
  /-- TRACE_CFG (R425): Configures a core's trace buffer and its start and stop conditions. -/
  | traceCfg (port : Port) (core : Nat) (x : TraceArgs)
  /-- TRACE_CONDITION (R425): A start or stop condition turns tracing on or off, with stop taking priority. -/
  | traceCondition (core : Nat) (start stop : Bool)
  /-- SAMPLE_CFG (R423): Configures the stall samplers of cores. -/
  | sampleCfg (port : Port) (x : SampleArgs)
  /-- STALL_SAMPLE (R423): Every 2^n cycles the sampler writes a 48-byte sample for one issue slot. -/
  | stallSample (core : Nat) (x : SampleTaken)
  /-- POWER_STEP (R426): Sets the power step, lowering the matrix array clock. -/
  | powerStep (port : Port) (step : Nat)
  /-- POWER_STEP_DOWN_AUTO (R427): Over-power for 1 ms or a junction at 105 C moves one step down. -/
  | powerStepDownAuto
  /-- POWER_STEP_BACK (R427): After 100 ms below the limits, the step returns to the one POWER_STEP set. -/
  | powerStepBack
  /-- THERMAL_STEP4 (R427): At 115 C the device goes to step 4 at once. -/
  | thermalStep4
  /-- THERMAL_TRIP (R427): At 125 C every core and engine stops, the links drop and every context is lost. -/
  | thermalTrip (die temp : Nat)
  /-- THERMAL_RESET (R427): After every junction stays below 95 C for 1 s, the module resets. -/
  | thermalReset (x : BootOutcome)
  /-- BURYX_ROUTE (R417): Sets this device's fabric number and Buryx route table. -/
  | buryxRoute (port : Port) (dev : Nat) (routes : List (Nat × Nat))
  /-- ERR_LOG (R417): Reads the error and retirement log. -/
  | errLog (port : Port)
  /-- SEM_ACQUIRE (R418): Acquires the management semaphore, or returns Busy. -/
  | semAcquire (port : Port)
  /-- SEM_RELEASE (R418): Releases the semaphore held by the issuing port. -/
  | semRelease (port : Port)
  /-- RESET (R428): After reset the device runs bring-up through its STATE stages to ready. -/
  | reset (x : BootOutcome)
  /-- GET_VERSION (R421): SPDM request for supported versions. -/
  | getVersion (port : Port)
  /-- GET_CAPABILITIES (R421): SPDM request for capabilities. -/
  | getCapabilities (port : Port)
  /-- NEGOTIATE_ALGORITHMS (R421): SPDM algorithm negotiation. -/
  | negotiateAlgorithms (port : Port)
  /-- GET_DIGESTS (R421): SPDM request for certificate digests. -/
  | getDigests (port : Port)
  /-- GET_CERTIFICATE (R421): SPDM request for a certificate chain. -/
  | getCertificate (port : Port)
  /-- CHALLENGE (R421): SPDM challenge signed with the device identity key. -/
  | challenge (port : Port)
  /-- GET_MEASUREMENTS (R421): SPDM request for the SHA3-256 measurements. -/
  | getMeasurements (port : Port)
  /-- KEY_EXCHANGE (R421): SPDM key exchange to open a secured session. -/
  | keyExchange (port : Port)
  /-- FINISH (R421): SPDM finish completing the secured session. -/
  | finish (port : Port)
  /-- OTHER_REGISTER_WRITE (R413): A write to a window register with no behaviour of its own is ignored. -/
  | otherRegisterWrite (doorbell : Bool) (offset : Nat) (v : DWord)
  /-- ERROR_COUNT_WINDOW_END (R401): An error source's 2^32-cycle counting window ends, and its corrected-error count restarts. -/
  | errorCountWindowEnd (src : ErrSource)
  /-- FIRMWARE_UPDATE (R420): A firmware-update command over the I3C port, answered in recovery state 0xF1. -/
  | firmwareUpdate (port : Port) (x : BootOutcome)
  /-- BURYX_PEER_ACCESS (R193): A load, store or atomic request from a peer device arrives over Buryx and is performed at this device's home slice, or refused with SEAL for a sealed range. -/
  | buryxPeerAccess (dev : Nat) (x : PeerAccess)
  deriving DecidableEq, Repr

end Sys2Proof
end

