-- ==== Sys2Proof/Decode.lean ====
section
/-! DEFINITION. Decoding and encoding (04_encoding): the bits of the seven formats, the opcode map, and the static rules
whose breaking raises ILLOP, ILLENC or ILLPAIR (R80). What depends on the clause (CLAUSE) is checked where a slot issues,
and what depends on the warp (ILLOPND, a reserved route mode) where the instruction's meaning begins. -/

namespace Sys2Proof

/-- The decode fates that a word alone decides (R80). -/
inductive DecodeFate where
  | illop | illenc | illpair
  deriving DecidableEq, Repr

/-- Bits `lo + n - 1 : lo` of a word. -/
def bitsAt (w : DWord) (lo n : Nat) : BitVec n := w.extractLsb' lo n

/-! ### Codes of the fields -/

/-- TYPE codes (R68). -/
def Ty.ofCode (c : BitVec 4) : Option Ty :=
  match c.toNat with
  | 0 => some .i32 | 1 => some .n32 | 2 => some .i64 | 3 => some .n64 | 4 => some .f32 | 5 => some .f16 | 6 => some .bf16
  | 7 => some .f16x2 | 8 => some .bf16x2 | 9 => some .i16x2 | 10 => some .i8x4 | 11 => some .b32 | 12 => some .b64
  | _ => none

/-- The code of a TYPE (R68). -/
def Ty.code : Ty → BitVec 4
  | .i32 => 0 | .n32 => 1 | .i64 => 2 | .n64 => 3 | .f32 => 4 | .f16 => 5 | .bf16 => 6
  | .f16x2 => 7 | .bf16x2 => 8 | .i16x2 => 9 | .i8x4 => 10 | .b32 => 11 | .b64 => 12

/-- KIND codes (R68); KIND 3 takes the literal of the next slot (R63). -/
def Kind.ofCode (c : BitVec 2) (lit : DWord) : Kind :=
  match c.toNat with
  | 0 => .vec | 1 => .scal | 2 => .imm | _ => .lit lit

/-- The code of a KIND. -/
def Kind.code : Kind → BitVec 2
  | .vec => 0 | .scal => 1 | .imm => 2 | .lit _ => 3

/-- SPACE codes (R73). -/
def Space.ofCode (c : BitVec 3) : Option Space :=
  match c.toNat with
  | 0 => some .glob | 1 => some .blk | 2 => some .clu | 3 => some .sealed | _ => none

/-- The code of a SPACE. -/
def Space.code : Space → BitVec 3
  | .glob => 0 | .blk => 1 | .clu => 2 | .sealed => 3

/-- WIDTH codes (R73). -/
def Width.ofCode (c : BitVec 3) : Option Width :=
  match c.toNat with
  | 0 => some .w8 | 1 => some .w16 | 2 => some .w32 | 3 => some .w64 | 4 => some .x2 | 5 => some .x4 | 6 => some .x8 | _ => none

/-- The code of a WIDTH. -/
def Width.code : Width → BitVec 3
  | .w8 => 0 | .w16 => 1 | .w32 => 2 | .w64 => 3 | .x2 => 4 | .x4 => 5 | .x8 => 6

/-- ORDER codes (R73). -/
def MemOrder.ofCode (c : BitVec 3) : Option MemOrder :=
  match c.toNat with
  | 0 => some .relaxed | 1 => some .acq | 2 => some .rel | 3 => some .acqrel | 4 => some .region | 5 => some .ahead | _ => none

/-- The code of an ORDER. -/
def MemOrder.code : MemOrder → BitVec 3
  | .relaxed => 0 | .acq => 1 | .rel => 2 | .acqrel => 3 | .region => 4 | .ahead => 5

/-- SCOPE codes (R73). -/
def MemScope.ofCode (c : BitVec 2) : MemScope :=
  match c.toNat with
  | 0 => .block | 1 => .cluster | 2 => .device | _ => .system

/-- The code of a SCOPE. -/
def MemScope.code : MemScope → BitVec 2
  | .block => 0 | .cluster => 1 | .device => 2 | .system => 3

/-! ### The formats, to the bit -/

/-- One bit as a vector of width 1. -/
def bit (b : Bool) : BitVec 1 := if b then 1 else 0

/-- The V fields of a word (R68), or none where TYPE is reserved. -/
def vFields (w lit : DWord) : Option VFields :=
  (Ty.ofCode (bitsAt w 6 4)).map fun ty =>
    { d := bitsAt w 47 9, a := bitsAt w 38 9, b := bitsAt w 29 9, c := bitsAt w 20 9,
      ra := bitsAt w 18 2, rb := bitsAt w 16 2, rc := bitsAt w 14 2, gp := bitsAt w 11 3, gn := w.getLsbD 10,
      ty := ty, own := w.getLsbD 5, kind := Kind.ofCode (bitsAt w 3 2) lit, mod := bitsAt w 0 3 }

/-- The word of V fields under an opcode (R68). -/
def vWord (op : Nat) (f : VFields) : DWord :=
  BitVec.ofNat 8 op ++ f.d ++ f.a ++ f.b ++ f.c ++ f.ra ++ f.rb ++ f.rc ++ f.gp ++ bit f.gn ++ f.ty.code ++ bit f.own
    ++ f.kind.code ++ f.mod

/-- The P fields of a word (R71). -/
def pFields (w : DWord) : PFields :=
  { opa := bitsAt w 58 6, da := bitsAt w 49 9, aa := bitsAt w 40 9, bs := bitsAt w 31 9, opb := bitsAt w 25 6,
    db := bitsAt w 16 9, ab := bitsAt w 7 9, ptype := bitsAt w 5 2, gp := bitsAt w 2 3, gn := w.getLsbD 1 }

/-- The word of P fields (R71). -/
def pWord (f : PFields) : DWord :=
  f.opa ++ f.da ++ f.aa ++ f.bs ++ f.opb ++ f.db ++ f.ab ++ f.ptype ++ f.gp ++ bit f.gn ++ (0 : BitVec 1)

/-- The M fields of a word (R73), or none where SPACE, WIDTH or ORDER is reserved (R74). -/
def mFields (w : DWord) : Option MFields :=
  match Space.ofCode (bitsAt w 8 3), Width.ofCode (bitsAt w 5 3), MemOrder.ofCode (bitsAt w 2 3) with
  | some sp, some wd, some od =>
    some { d := bitsAt w 47 9, a := bitsAt w 38 9, e := bitsAt w 29 9, ofs := bitsAt w 18 11, ak := w.getLsbD 17,
           rd := bitsAt w 15 2, gp := bitsAt w 12 3, gn := w.getLsbD 11, space := sp, width := wd, order := od,
           scope := MemScope.ofCode (bitsAt w 0 2) }
  | _, _, _ => none

/-- The word of M fields under an opcode (R73). -/
def mWord (op : Nat) (f : MFields) : DWord :=
  BitVec.ofNat 8 op ++ f.d ++ f.a ++ f.e ++ f.ofs ++ bit f.ak ++ f.rd ++ f.gp ++ bit f.gn ++ f.space.code ++ f.width.code
    ++ f.order.code ++ f.scope.code

/-- The K fields of a word (R75), or none where ORDER is reserved or bits 2:0 are not 0. -/
def kFields (w : DWord) : Option KFields :=
  if bitsAt w 0 3 = 0 then
    (MemOrder.ofCode (bitsAt w 5 3)).map fun od =>
      { a := bitsAt w 47 9, b := bitsAt w 38 9, c := bitsAt w 29 9, tag := bitsAt w 23 6, aux := bitsAt w 15 8,
        gp := bitsAt w 12 3, gn := w.getLsbD 11, mode := bitsAt w 8 3, order := od, scope := MemScope.ofCode (bitsAt w 3 2) }
  else none

/-- The word of K fields under an opcode (R75). -/
def kWord (op : Nat) (f : KFields) : DWord :=
  BitVec.ofNat 8 op ++ f.a ++ f.b ++ f.c ++ f.tag ++ f.aux ++ f.gp ++ bit f.gn ++ f.mode ++ f.order.code ++ f.scope.code
    ++ (0 : BitVec 3)

/-- The X fields of a word (R76). -/
def xFields (w : DWord) : XFields :=
  { a := bitsAt w 47 9, fw := bitsAt w 38 9, g := bitsAt w 29 9, h := bitsAt w 20 9, tag := bitsAt w 14 6,
    gp := bitsAt w 11 3, gn := w.getLsbD 10, xmod := bitsAt w 0 10 }

/-- The word of X fields under an opcode (R76). -/
def xWord (op : Nat) (f : XFields) : DWord :=
  BitVec.ofNat 8 op ++ f.a ++ f.fw ++ f.g ++ f.h ++ f.tag ++ f.gp ++ bit f.gn ++ f.xmod

/-- The C fields of a word (R77), or none where bit 0 is not 0. -/
def cFields (w : DWord) : Option CFields :=
  if w.getLsbD 0 then none
  else some { disp := bitsAt w 32 24, a := bitsAt w 23 9, b := bitsAt w 14 9, c := bitsAt w 5 9, gp := bitsAt w 2 3, gn := w.getLsbD 1 }

/-- The word of C fields under an opcode (R77). -/
def cWord (op : Nat) (f : CFields) : DWord :=
  BitVec.ofNat 8 op ++ f.disp ++ f.a ++ f.b ++ f.c ++ f.gp ++ bit f.gn ++ (0 : BitVec 1)

/-! ### The opcode map -/

/-- The V and S instruction of an opcode (R79); `pmov` divides by MOD (R114). -/
def vOf (op : Nat) (f : VFields) : Option Instr :=
  match op with
  | 0x00 => some (.nop f)
  | 0x01 => some (.add f)
  | 0x02 => some (.sub f)
  | 0x03 => some (.mul f)
  | 0x04 => some (.mad f)
  | 0x05 => some (.minOp f)
  | 0x06 => some (.maxOp f)
  | 0x07 => some (.neg f)
  | 0x08 => some (.absOp f)
  | 0x09 => some (.cmp f)
  | 0x0A => some (.sel f)
  | 0x0B => some (.mov f)
  | 0x0C => some (.movi f)
  | 0x0D => some (.cvt f)
  | 0x0E => some (.mulhi f)
  | 0x0F => some (.madw f)
  | 0x10 => some (.andOp f)
  | 0x11 => some (.orOp f)
  | 0x12 => some (.xorOp f)
  | 0x13 => some (.notOp f)
  | 0x14 => some (.shl f)
  | 0x15 => some (.shr f)
  | 0x16 => some (.sar f)
  | 0x17 => some (.popc f)
  | 0x18 => some (.clz f)
  | 0x19 => some (.brev f)
  | 0x1A => some (.bfe f)
  | 0x1B => some (.bfi f)
  | 0x1C => some (.lea f)
  | 0x1D => some (.pset f)
  | 0x1E => some (if f.mod = 1 then .pmovSet f else .pmov f)
  | 0x1F => some (.div f)
  | 0x20 => some (.rcp f)
  | 0x21 => some (.rsqrt f)
  | 0x22 => some (.sqrt f)
  | 0x23 => some (.exp2 f)
  | 0x24 => some (.log2 f)
  | 0x25 => some (.sinpi f)
  | 0x26 => some (.cospi f)
  | 0x27 => some (.tanh f)
  | 0x28 => some (.ldexp f)
  | 0x29 => some (.frnd f)
  | 0x2A => some (.fcls f)
  | 0x2B => some (.dot2 f)
  | 0x2C => some (.dot4 f)
  | 0x2D => some (.pk f)
  | 0x2E => some (.upk f)
  | 0x41 => some (.addS f)
  | 0x42 => some (.subS f)
  | 0x43 => some (.mulS f)
  | 0x44 => some (.madS f)
  | 0x45 => some (.minS f)
  | 0x46 => some (.maxS f)
  | 0x47 => some (.negS f)
  | 0x48 => some (.absS f)
  | 0x49 => some (.cmpS f)
  | 0x4A => some (.selS f)
  | 0x4B => some (.movS f)
  | 0x4C => some (.moviS f)
  | 0x4D => some (.cvtS f)
  | 0x4E => some (.mulhiS f)
  | 0x4F => some (.madwS f)
  | 0x50 => some (.andS f)
  | 0x51 => some (.orS f)
  | 0x52 => some (.xorS f)
  | 0x53 => some (.notS f)
  | 0x54 => some (.shlS f)
  | 0x55 => some (.shrS f)
  | 0x56 => some (.sarS f)
  | 0x57 => some (.popcS f)
  | 0x58 => some (.clzS f)
  | 0x59 => some (.brevS f)
  | 0x5A => some (.bfeS f)
  | 0x5B => some (.bfiS f)
  | 0x5C => some (.leaS f)
  | 0x5D => some (.psetS f)
  | 0x5E => some (.pmovS f)
  | 0x5F => some (.divS f)
  | 0x60 => some (.rcpS f)
  | 0x61 => some (.rsqrtS f)
  | 0x62 => some (.sqrtS f)
  | 0x63 => some (.exp2S f)
  | 0x64 => some (.log2S f)
  | 0x65 => some (.sinpiS f)
  | 0x66 => some (.cospiS f)
  | 0x67 => some (.tanhS f)
  | 0x68 => some (.ldexpS f)
  | 0x69 => some (.frndS f)
  | 0x6A => some (.fclsS f)
  | 0x6B => some (.dot2S f)
  | 0x6C => some (.dot4S f)
  | 0x6D => some (.pkS f)
  | 0x6E => some (.upkS f)
  | 0x80 => some (.vote f)
  | 0x81 => some (.elect f)
  | 0x82 => some (.vget f)
  | 0x83 => some (.vput f)
  | 0x84 => some (.redw f)
  | 0x85 => some (.lanes f)
  | 0x95 => some (.join f)
  | 0x96 => some (.joinp f)
  | 0x97 => some (.hoist f)
  | _ => none

/-- The opcode and fields of a V or S instruction. -/
def toV : Instr → Option (Nat × VFields)
  | .nop f => some (0x00, f)
  | .add f => some (0x01, f)
  | .sub f => some (0x02, f)
  | .mul f => some (0x03, f)
  | .mad f => some (0x04, f)
  | .minOp f => some (0x05, f)
  | .maxOp f => some (0x06, f)
  | .neg f => some (0x07, f)
  | .absOp f => some (0x08, f)
  | .cmp f => some (0x09, f)
  | .sel f => some (0x0A, f)
  | .mov f => some (0x0B, f)
  | .movi f => some (0x0C, f)
  | .cvt f => some (0x0D, f)
  | .mulhi f => some (0x0E, f)
  | .madw f => some (0x0F, f)
  | .andOp f => some (0x10, f)
  | .orOp f => some (0x11, f)
  | .xorOp f => some (0x12, f)
  | .notOp f => some (0x13, f)
  | .shl f => some (0x14, f)
  | .shr f => some (0x15, f)
  | .sar f => some (0x16, f)
  | .popc f => some (0x17, f)
  | .clz f => some (0x18, f)
  | .brev f => some (0x19, f)
  | .bfe f => some (0x1A, f)
  | .bfi f => some (0x1B, f)
  | .lea f => some (0x1C, f)
  | .pset f => some (0x1D, f)
  | .pmov f => some (0x1E, f)
  | .pmovSet f => some (0x1E, f)
  | .div f => some (0x1F, f)
  | .rcp f => some (0x20, f)
  | .rsqrt f => some (0x21, f)
  | .sqrt f => some (0x22, f)
  | .exp2 f => some (0x23, f)
  | .log2 f => some (0x24, f)
  | .sinpi f => some (0x25, f)
  | .cospi f => some (0x26, f)
  | .tanh f => some (0x27, f)
  | .ldexp f => some (0x28, f)
  | .frnd f => some (0x29, f)
  | .fcls f => some (0x2A, f)
  | .dot2 f => some (0x2B, f)
  | .dot4 f => some (0x2C, f)
  | .pk f => some (0x2D, f)
  | .upk f => some (0x2E, f)
  | .addS f => some (0x41, f)
  | .subS f => some (0x42, f)
  | .mulS f => some (0x43, f)
  | .madS f => some (0x44, f)
  | .minS f => some (0x45, f)
  | .maxS f => some (0x46, f)
  | .negS f => some (0x47, f)
  | .absS f => some (0x48, f)
  | .cmpS f => some (0x49, f)
  | .selS f => some (0x4A, f)
  | .movS f => some (0x4B, f)
  | .moviS f => some (0x4C, f)
  | .cvtS f => some (0x4D, f)
  | .mulhiS f => some (0x4E, f)
  | .madwS f => some (0x4F, f)
  | .andS f => some (0x50, f)
  | .orS f => some (0x51, f)
  | .xorS f => some (0x52, f)
  | .notS f => some (0x53, f)
  | .shlS f => some (0x54, f)
  | .shrS f => some (0x55, f)
  | .sarS f => some (0x56, f)
  | .popcS f => some (0x57, f)
  | .clzS f => some (0x58, f)
  | .brevS f => some (0x59, f)
  | .bfeS f => some (0x5A, f)
  | .bfiS f => some (0x5B, f)
  | .leaS f => some (0x5C, f)
  | .psetS f => some (0x5D, f)
  | .pmovS f => some (0x5E, f)
  | .divS f => some (0x5F, f)
  | .rcpS f => some (0x60, f)
  | .rsqrtS f => some (0x61, f)
  | .sqrtS f => some (0x62, f)
  | .exp2S f => some (0x63, f)
  | .log2S f => some (0x64, f)
  | .sinpiS f => some (0x65, f)
  | .cospiS f => some (0x66, f)
  | .tanhS f => some (0x67, f)
  | .ldexpS f => some (0x68, f)
  | .frndS f => some (0x69, f)
  | .fclsS f => some (0x6A, f)
  | .dot2S f => some (0x6B, f)
  | .dot4S f => some (0x6C, f)
  | .pkS f => some (0x6D, f)
  | .upkS f => some (0x6E, f)
  | .vote f => some (0x80, f)
  | .elect f => some (0x81, f)
  | .vget f => some (0x82, f)
  | .vput f => some (0x83, f)
  | .redw f => some (0x84, f)
  | .lanes f => some (0x85, f)
  | .join f => some (0x95, f)
  | .joinp f => some (0x96, f)
  | .hoist f => some (0x97, f)
  | _ => none

/-- The M-format instruction of an opcode (R79). -/
def mOf (op : Nat) (f : MFields) : Option Instr :=
  match op with
  | 0xA0 => some (.ld f)
  | 0xA1 => some (if f.order = .region then .stRgn f else .st f)
  | 0xA2 => some (.atom f)
  | 0xA3 => some (.red f)
  | 0xA4 => some (.fence f)
  | 0xA5 => some (.prefetch f)
  | 0xA6 => some (.sealRange f)
  | 0xA7 => some (.unsealRange f)
  | 0xA8 => some (.waitm f)
  | 0xA9 => some (.ald f)
  | 0xAA => some (.abeg f)
  | 0xAB => some (.aend f)
  | 0xAC => some (.aabort f)
  | 0xD4 => some (.launch f)
  | 0xDA => some (.qput f)
  | 0xDB => some (.qget f)
  | 0xDC => some (if f.ofs = 0x7FF then .qstatLaunch f else .qstat f)
  | _ => none

/-- The opcode and fields of a M-format instruction. -/
def toM : Instr → Option (Nat × MFields)
  | .ld f => some (0xA0, f)
  | .st f => some (0xA1, f)
  | .stRgn f => some (0xA1, f)
  | .atom f => some (0xA2, f)
  | .red f => some (0xA3, f)
  | .fence f => some (0xA4, f)
  | .prefetch f => some (0xA5, f)
  | .sealRange f => some (0xA6, f)
  | .unsealRange f => some (0xA7, f)
  | .waitm f => some (0xA8, f)
  | .ald f => some (0xA9, f)
  | .abeg f => some (0xAA, f)
  | .aend f => some (0xAB, f)
  | .aabort f => some (0xAC, f)
  | .launch f => some (0xD4, f)
  | .qput f => some (0xDA, f)
  | .qget f => some (0xDB, f)
  | .qstat f => some (0xDC, f)
  | .qstatLaunch f => some (0xDC, f)
  | _ => none

/-- The K-format instruction of an opcode (R79). -/
def kOf (op : Nat) (f : KFields) : Option Instr :=
  match op with
  | 0xB0 => some (.cpg f)
  | 0xB1 => some (.cps f)
  | 0xB2 => some (.cpb f)
  | 0xB3 => some (.cpv f)
  | 0xB4 => some (.cpm f)
  | 0xB5 => some (.cpx f)
  | 0xB6 => some (.waitany f)
  | 0xB7 => some (.waitall f)
  | 0xB8 => some (.ffrdy f)
  | 0xB9 => some (.tagrel f)
  | 0xE0 => some (if f.mode = 1 then .dgrpFree f else .dgrp f)
  | 0xE1 => some (.dred f)
  | 0xE2 => some (.dfix f)
  | _ => none

/-- The opcode and fields of a K-format instruction. -/
def toK : Instr → Option (Nat × KFields)
  | .cpg f => some (0xB0, f)
  | .cps f => some (0xB1, f)
  | .cpb f => some (0xB2, f)
  | .cpv f => some (0xB3, f)
  | .cpm f => some (0xB4, f)
  | .cpx f => some (0xB5, f)
  | .waitany f => some (0xB6, f)
  | .waitall f => some (0xB7, f)
  | .ffrdy f => some (0xB8, f)
  | .tagrel f => some (0xB9, f)
  | .dgrp f => some (0xE0, f)
  | .dgrpFree f => some (0xE0, f)
  | .dred f => some (0xE1, f)
  | .dfix f => some (0xE2, f)
  | _ => none

/-- The X-format instruction of an opcode (R79). -/
def xOf (op : Nat) (f : XFields) : Option Instr :=
  match op with
  | 0xC0 => some (.tshape f)
  | 0xC1 => some (.mma f)
  | 0xC2 => some (.tzero f)
  | 0xC3 => some (.tload f)
  | 0xC4 => some (.tread f)
  | 0xC5 => some (.twrite f)
  | 0xC6 => some (.tdrain f)
  | 0xC7 => some (.tsave f)
  | 0xC8 => some (.gpin f)
  | 0xC9 => some (.gacc f)
  | 0xCA => some (.gflush f)
  | 0xCB => some (.gfree f)
  | 0xCC => some (.tstat f)
  | 0xCD => some (.tclr f)
  | _ => none

/-- The opcode and fields of a X-format instruction. -/
def toX : Instr → Option (Nat × XFields)
  | .tshape f => some (0xC0, f)
  | .mma f => some (0xC1, f)
  | .tzero f => some (0xC2, f)
  | .tload f => some (0xC3, f)
  | .tread f => some (0xC4, f)
  | .twrite f => some (0xC5, f)
  | .tdrain f => some (0xC6, f)
  | .tsave f => some (0xC7, f)
  | .gpin f => some (0xC8, f)
  | .gacc f => some (0xC9, f)
  | .gflush f => some (0xCA, f)
  | .gfree f => some (0xCB, f)
  | .tstat f => some (0xCC, f)
  | .tclr f => some (0xCD, f)
  | _ => none

/-- The C-format instruction of an opcode (R79). -/
def cOf (op : Nat) (f : CFields) : Option Instr :=
  match op with
  | 0x90 => some (.bra f)
  | 0x91 => some (.brx f)
  | 0x92 => some (if f.c = 0 then .call f else .callIndirect f)
  | 0x93 => some (.ret f)
  | 0x94 => some (.fork f)
  | 0x98 => some (.armend f)
  | 0x99 => some (.exit f)
  | 0x9A => some (.waitc f)
  | 0x9B => some (.yield f)
  | 0xD0 => some (.bar f)
  | 0xD1 => some (.barr f)
  | 0xD2 => some (.barw f)
  | 0xD3 => some (.cbar f)
  | 0xD5 => some (.fopen f)
  | 0xD6 => some (.fclose f)
  | 0xD7 => some (.fwait f)
  | 0xD8 => some (if f.disp.getLsbD 0 then .tapeRun f else .tapePush f)
  | 0xD9 => match (f.disp.extractLsb' 0 4).toNat with
    | 0 => some (.awaitTag f)
    | 1 => some (.awaitMem f)
    | 2 => some (.awaitQueue f)
    | 3 => some (.awaitScope f)
    | _ => some (.awaitRed f)
  | 0xDD => some (.refill f)
  | 0xDE => some (.rgrow f)
  | 0xDF => some (.rshrink f)
  | 0xE8 => some (.trap f)
  | 0xE9 => some (if f.disp.getLsbD 0 then .rftNext f else .rft f)
  | 0xEA => some (.srd f)
  | 0xEB => some (.swr f)
  | 0xEC => some (.brk f)
  | 0xED => some (.mark f)
  | 0xEE => some (.nclr f)
  | _ => none

/-- The opcode and fields of a C-format instruction. -/
def toC : Instr → Option (Nat × CFields)
  | .bra f => some (0x90, f)
  | .brx f => some (0x91, f)
  | .call f => some (0x92, f)
  | .callIndirect f => some (0x92, f)
  | .ret f => some (0x93, f)
  | .fork f => some (0x94, f)
  | .armend f => some (0x98, f)
  | .exit f => some (0x99, f)
  | .waitc f => some (0x9A, f)
  | .yield f => some (0x9B, f)
  | .bar f => some (0xD0, f)
  | .barr f => some (0xD1, f)
  | .barw f => some (0xD2, f)
  | .cbar f => some (0xD3, f)
  | .fopen f => some (0xD5, f)
  | .fclose f => some (0xD6, f)
  | .fwait f => some (0xD7, f)
  | .tapePush f => some (0xD8, f)
  | .tapeRun f => some (0xD8, f)
  | .awaitTag f => some (0xD9, f)
  | .awaitMem f => some (0xD9, f)
  | .awaitQueue f => some (0xD9, f)
  | .awaitScope f => some (0xD9, f)
  | .awaitRed f => some (0xD9, f)
  | .refill f => some (0xDD, f)
  | .rgrow f => some (0xDE, f)
  | .rshrink f => some (0xDF, f)
  | .trap f => some (0xE8, f)
  | .rft f => some (0xE9, f)
  | .rftNext f => some (0xE9, f)
  | .srd f => some (0xEA, f)
  | .swr f => some (0xEB, f)
  | .brk f => some (0xEC, f)
  | .mark f => some (0xED, f)
  | .nclr f => some (0xEE, f)
  | _ => none

/-! ### The static rules of V and S words (R69, R70 and the entries) -/

/-- The integer and bit TYPEs (R69). -/
def Ty.isInt (t : Ty) : Bool :=
  match t with
  | .f32 | .f16 | .bf16 | .f16x2 | .bf16x2 => false
  | _ => true

/-- The float TYPEs (R69). -/
def Ty.isFloat (t : Ty) : Bool := !t.isInt

/-- What a source field of an instruction is. -/
inductive SrcUse where
  | none | reg | pred | ctl
  deriving DecidableEq, Repr

/-- The row of an opcode 0x01 to 0x2E: its TYPEs, what A and C are, whether B is a predicate, the KINDs it takes
(0, 1, 2, 3 in that order) and the MOD codes it takes for a TYPE. -/
structure VRule where
  tys : List Ty
  a : SrcUse
  b : SrcUse
  c : SrcUse
  kinds : List Nat
  mods : Ty → List Nat

/-- MOD 0 to 6 on float TYPEs, 0 and 6 on integer TYPEs (R69). -/
def modsArith (t : Ty) : List Nat := if t.isFloat then [0, 1, 2, 3, 4, 5, 6] else [0, 6]

/-- No rounding and no saturation: MOD is 0 (R69). -/
def modsNone (_ : Ty) : List Nat := [0]

/-- Every TYPE but the bit TYPEs (R101). -/
def tysNum : List Ty := [.i32, .n32, .i64, .n64, .f32, .f16, .bf16, .f16x2, .bf16x2, .i16x2, .i8x4]
def tysFloat : List Ty := [.f32, .f16, .bf16, .f16x2, .bf16x2]
def tysBit : List Ty := [.b32, .b64]
def tysInt : List Ty := [.i32, .n32, .i64, .n64]
def tysAll : List Ty := tysNum ++ tysBit

/-- The relations `cmp` takes for a TYPE (R103). -/
def modsCmp (t : Ty) : List Nat :=
  match t with
  | .b32 | .b64 => [0, 1]
  | .f32 | .f16 | .bf16 => [0, 1, 2, 3, 4, 5, 6, 7]
  | _ => [0, 1, 2, 3, 4, 5]

/-- The rows of 0x01 to 0x2E (R101 to R114, R153 to R162, R287 to R290). -/
def vRule (op : Nat) : Option VRule :=
  match op with
  | 0x01 | 0x02 | 0x03 => some ⟨tysNum, .reg, .reg, .none, [0, 1, 2, 3], modsArith⟩
  | 0x04 => some ⟨tysNum, .reg, .reg, .reg, [0, 1, 3], modsArith⟩
  | 0x05 | 0x06 => some ⟨tysNum, .reg, .reg, .none, [0, 1, 2, 3], modsNone⟩
  | 0x07 | 0x08 => some ⟨[.i32, .i64, .i16x2, .i8x4, .f32, .f16, .bf16, .f16x2, .bf16x2], .none, .reg, .none, [0, 1, 2, 3],
      fun t => if t.isFloat then [0] else [0, 6]⟩
  | 0x09 => some ⟨[.i32, .n32, .i64, .n64, .f32, .f16, .bf16, .b32, .b64], .reg, .reg, .none, [0, 1, 2, 3], modsCmp⟩
  | 0x0A => some ⟨tysBit, .reg, .reg, .pred, [0, 1, 3], modsNone⟩
  | 0x0B => some ⟨tysAll, .none, .reg, .none, [0, 1], modsNone⟩
  | 0x0C => some ⟨tysAll, .none, .reg, .none, [2, 3], modsNone⟩
  | 0x0D => some ⟨[.i32, .n32, .i64, .n64, .f32, .f16, .bf16], .none, .reg, .ctl, [0, 1, 3], fun _ => [0, 1, 2, 3, 4, 5, 6]⟩
  | 0x0E => some ⟨tysInt, .reg, .reg, .none, [0, 1, 2, 3], modsNone⟩
  | 0x0F => some ⟨[.i32, .n32], .reg, .reg, .reg, [0, 1, 3], modsArith⟩
  | 0x10 | 0x11 | 0x12 => some ⟨tysBit, .reg, .reg, .none, [0, 1, 2, 3], modsNone⟩
  | 0x13 => some ⟨tysBit, .none, .reg, .none, [0, 1, 2, 3], modsNone⟩
  | 0x14 | 0x15 | 0x16 => some ⟨tysBit, .reg, .reg, .none, [0, 1, 2, 3], modsNone⟩
  | 0x17 | 0x18 | 0x19 => some ⟨tysBit, .none, .reg, .none, [0, 1, 2, 3], modsNone⟩
  | 0x1A => some ⟨tysInt, .reg, .reg, .none, [0, 1, 2, 3], modsNone⟩
  | 0x1B => some ⟨tysBit, .reg, .reg, .reg, [0, 1, 3], modsNone⟩
  | 0x1C => some ⟨[.i32, .n32], .reg, .reg, .none, [0, 1, 2, 3], fun _ => [0, 1, 2, 3, 4, 5, 6, 7]⟩
  | 0x1D => some ⟨[.b32], .pred, .pred, .none, [0], fun _ => [0, 1, 2, 3, 4, 5, 6, 7]⟩
  | 0x1F => some ⟨tysFloat, .reg, .reg, .none, [0, 1, 3], modsArith⟩
  | 0x20 | 0x22 => some ⟨tysFloat, .none, .reg, .none, [0, 1, 3], modsArith⟩
  | 0x21 | 0x23 | 0x24 | 0x25 | 0x26 | 0x27 => some ⟨tysFloat, .none, .reg, .none, [0, 1, 3], fun _ => [0, 6]⟩
  | 0x28 => some ⟨tysFloat, .reg, .reg, .none, [0, 1, 2, 3], modsArith⟩
  | 0x29 => some ⟨tysFloat, .none, .reg, .none, [0, 1, 3], fun _ => [0, 1, 2, 3, 4]⟩
  | 0x2A => some ⟨tysFloat, .none, .reg, .none, [0, 1, 3], modsNone⟩
  | 0x2B => some ⟨[.f16x2, .bf16x2], .reg, .reg, .reg, [0, 1, 3], modsArith⟩
  | 0x2C => some ⟨[.f32, .i8x4], .reg, .reg, .reg, [0, 1, 3], fun t => if t = .f32 then [0, 1, 2, 3] else [0, 6]⟩
  | 0x2D => some ⟨[.f32, .bf16], .reg, .reg, .ctl, [0, 1, 3], fun _ => [0, 1, 2, 3, 4, 5]⟩
  | 0x2E => some ⟨[.f32, .bf16x2], .reg, .reg, .ctl, [0, 1, 3], modsNone⟩
  | _ => none

/-- Element width of a narrow FORMAT code (R227, R289): 8, 6 or 4 bits; 14 is E8M0. -/
def narrowBits (fmt : Nat) : Option Nat :=
  match fmt with
  | 0 | 1 | 8 | 14 => some 8
  | 2 | 3 | 5 => some 6
  | 4 => some 4
  | _ => none

/-- The control word of `cvt`, `pk` and `upk` in field C (R106, R289, R290). -/
def ctlLegal (op : Nat) (f : VFields) : Bool :=
  let c := f.c.toNat
  match op with
  | 0x0D =>
    (match Ty.ofCode (f.c.extractLsb' 0 4) with
      | some ts => c < 16 && ts != f.ty && [Ty.i32, .n32, .i64, .n64, .f32, .f16, .bf16].contains ts &&
          (!(ts.isInt && f.ty.isInt) || f.mod == 0 || f.mod == 6)
      | none => false)
  | 0x2D =>
    let fmt := c % 16
    let pos := c / 16 % 8
    (match narrowBits fmt with
      | none => false
      | some n => (if n = 8 then pos < 2 else pos < 4) && (c / 128 % 2 == 0 || n == 6) && (c / 256 == 0 || fmt == 1) &&
          (fmt != 14 || f.mod == 0))
  | 0x2E =>
    let fmt := c % 16
    let i := c / 16 % 8
    (match narrowBits fmt with
      | none => false
      | some n => c < 128 && (if n = 8 then i < 4 else true) && (f.ty != .bf16x2 || i % 2 == 0) && (n == 6 || (f.a == 0 && f.ra == 0)))
  | _ => true

/-- R69 on one V word, or R70 where `scal` marks the S form. -/
def aluLegal (scal : Bool) (op : Nat) (r : VRule) (f : VFields) : Bool :=
  let k := f.kind.code.toNat
  r.tys.contains f.ty && r.kinds.contains k && (r.mods f.ty).contains f.mod.toNat &&
  -- KIND 2: integer and bit TYPEs only, but for `ldexp` (R69, R159)
  (k != 2 || f.ty.isInt || op == 0x28) &&
  -- a source field the instruction does not read, and its route, are 0
  (r.a != .none || f.a == 0) && (r.a == .reg || f.ra == 0) &&
  (r.c != .none || k == 2 || f.c == 0) && (r.c == .reg || f.rc == 0) &&
  (k == 0 && r.b == .reg || f.rb == 0) && (k != 3 || f.b == 0) &&
  ctlLegal op f &&
  (!scal || (f.ra == 0 && f.rb == 0 && f.rc == 0 && !f.own && k != 1))

/-- `pmov` and `pmov.set` (R114). -/
def pmovLegal (scal : Bool) (f : VFields) : Bool :=
  let k := f.kind.code.toNat
  f.ty == .b32 && f.ra == 0 && f.rb == 0 && f.rc == 0 && f.a == 0 &&
  (match f.mod.toNat with
    | 0 => f.b == 0 && f.c == 0 && k == 0
    | 1 => f.d == 0 && (k == 2 || f.c == 0) && (k != 3 || f.b == 0)
    | _ => false) &&
  (!scal || (!f.own && k != 1))

/-- The TYPEs `redw` takes for an operation (R167). -/
def redwTys (m : Nat) : List Ty :=
  if m < 3 then [.i32, .n32, .i64, .n64, .f32] else if m < 6 then [.b32, .b64] else []

/-- The lane instructions 0x80 to 0x85 (R163 to R169) and `join`, `joinp`, `hoist` (R24). -/
def laneLegal (op : Nat) (f : VFields) : Bool :=
  let k := f.kind.code.toNat
  let m := f.mod.toNat
  let r0 := f.ra == 0 && f.rc == 0
  let plain := r0 && f.rb == 0
  match op with
  | 0x80 => f.ty == .b32 && f.a == 0 && !f.own && plain && k == 0 && m < 4
  | 0x81 => f.ty == .b32 && f.a == 0 && f.b == 0 && f.c == 0 && m == 0 && k == 0 && !f.own && plain
  | 0x82 => tysBit.contains f.ty && f.a == 0 && !f.own && r0 && k == 0 && (m == 1 || (m == 0 && f.c.toNat < 32))
  | 0x83 => tysBit.contains f.ty && f.a == 0 && !f.own && plain && (k == 1 || (k == 3 && f.b == 0)) &&
      (m == 1 || (m == 0 && f.c.toNat < 32))
  | 0x84 => (redwTys m).contains f.ty && f.a == 0 && r0 && k == 0
  | 0x85 => f.a == 0 && f.c == 0 && k == 0 && r0 && !f.own &&
      (if m == 3 then tysBit.contains f.ty else m < 3 && f.ty == .b32 && f.rb == 0)
  | 0x95 => tysBit.contains f.ty && k == 0 && m == 0 && plain && !f.own && f.c == 0
  | 0x96 => f.ty == .b32 && k == 0 && m == 0 && plain && !f.own && f.c == 0
  | 0x97 => f.ty == .b32 && k < 2 && m < 4 && plain && !f.own &&
      (1 ≤ m || f.a == 0) && (2 ≤ m || f.b == 0) && (3 ≤ m || f.c == 0)
  | _ => false

/-- The static rules of a word of V format under its opcode. -/
def vLegal (op : Nat) (f : VFields) : Bool :=
  if op = 0 then
    f.d == 0 && f.a == 0 && f.b == 0 && f.c == 0 && f.ra == 0 && f.rb == 0 && f.rc == 0 && f.ty == .i32 && !f.own &&
      f.kind == .vec && f.mod == 0
  else if op = 0x1E then pmovLegal false f
  else if op = 0x5E then pmovLegal true f
  else if op < 0x2F then (match vRule op with | some r => aluLegal false op r f | none => false)
  else if op < 0x80 then (match vRule (op - 0x40) with | some r => aluLegal true (op - 0x40) r f | none => false)
  else laneLegal op f

/-! ### The static rules of the other formats -/

/-- The fields an M instruction fixes (R213, R317, R329, R374). -/
def mLegal (op : Nat) (f : MFields) : Bool :=
  let w23 := f.width == .w32 || f.width == .w64
  let plainScope := f.scope == .block
  let z := f.space == .glob && f.width == .w8 && f.order == .relaxed && plainScope
  match op with
  | 0xA0 => f.e == 0 && f.rd == 0 && (f.order == .relaxed || f.order == .acq || f.order == .ahead)
  | 0xA1 => f.e == 0 && (f.order == .relaxed || f.order == .rel || (f.order == .region && plainScope))
  | 0xA2 => f.rd == 0 && f.space != .sealed && w23 && f.order.code.toNat < 4 && f.ofs.extractLsb' 6 5 == 0 &&
      (f.ofs.extractLsb' 0 5).toNat < 16 && (!(f.ofs.getLsbD 5) || f.d == 0) &&
      ((f.ofs.extractLsb' 0 5).toNat < 12 || f.width == .w32)
  | 0xA3 => f.e == 0 && f.space != .sealed && w23 && (f.order == .relaxed || f.order == .rel) && f.ofs.extractLsb' 5 6 == 0 &&
      (f.ofs.extractLsb' 0 5).toNat < 16 && f.ofs.extractLsb' 0 5 != 8 && f.ofs.extractLsb' 0 5 != 9 &&
      ((f.ofs.extractLsb' 0 5).toNat < 12 || f.width == .w32)
  | 0xA4 => f.d == 0 && f.a == 0 && f.e == 0 && f.ofs == 0 && !f.ak && f.rd == 0 && f.space == .glob && f.width == .w8 &&
      (f.order == .acq || f.order == .rel || f.order == .acqrel)
  | 0xA5 => f.d == 0 && f.e == 0 && f.rd == 0 && (f.space == .glob || f.space == .sealed) && f.order == .relaxed && plainScope
  | 0xA6 | 0xA7 => f.d == 0 && f.ofs == 0 && f.ak && f.rd == 0 && z
  | 0xA8 => f.d.toNat < 10 && f.rd == 0 && w23 && (f.order == .relaxed || f.order == .acq)
  | 0xA9 => f.e == 0 && f.rd == 0 && f.space == .glob && w23 && f.order == .relaxed && plainScope
  | 0xAA => f.d == 0 && f.a == 0 && !f.ak && f.rd == 0 && z
  | 0xAB => f.a == 0 && f.ofs == 0 && f.rd == 0 && z && (f.ak || f.e == 0)
  | 0xAC => f.d == 0 && f.a == 0 && f.e == 0 && f.ofs == 0 && !f.ak && f.rd == 0 && z
  | 0xD4 => f.ofs == 0 && f.rd == 0 && z
  | 0xDA | 0xDB => f.width == .x4 && f.rd == 0 && f.space == .glob && f.order == .relaxed && plainScope &&
      (if f.ak then f.ofs == 0 else f.a == 0 && !(f.ofs.getLsbD 10)) &&
      f.e.toNat < 16 && (f.e.getLsbD 3 || f.e == 0)
  | 0xDC => f.width == .x4 && f.rd == 0 && f.space == .glob && f.order == .relaxed && plainScope && !f.ak && f.a == 0 && f.e == 0
  | _ => false

/-- The fields a K instruction fixes (R229, R236, R323). -/
def kLegal (op : Nat) (f : KFields) : Bool :=
  let copyOrd := f.order == .relaxed || f.order == .rel
  let nt := f.aux.toNat < 2 && (f.aux == 0 || f.tag == 0)
  let z := f.mode == 0 && f.order == .relaxed && f.scope == .block
  match op with
  | 0xB0 | 0xB2 | 0xB3 => nt && f.mode.toNat < 2 && copyOrd
  | 0xB1 => nt && f.mode.toNat < 3 && copyOrd
  | 0xB4 => f.aux != 0 && (f.mode.toNat % 4 < 2) && copyOrd
  | 0xB5 => nt && f.mode == 0 && copyOrd
  | 0xB6 | 0xB8 => f.c == 0 && f.tag == 0 && f.aux == 0 && z
  | 0xB7 | 0xB9 => f.b == 0 && f.c == 0 && f.tag == 0 && f.aux == 0 && z
  | 0xE0 => f.b == 0 && f.c == 0 && f.aux.toNat < 64 && f.order == .relaxed && f.scope == .block &&
      (f.mode == 0 || (f.mode == 1 && f.tag == 0 && f.aux == 0))
  | 0xE1 | 0xE2 => f.tag == 0 && f.aux == 0 && z
  | _ => false

/-- The fields an X instruction fixes (R275, R281). -/
def xLegal (op : Nat) (f : XFields) : Bool :=
  let tg (bitNo : Nat) := f.xmod.getLsbD bitNo || f.tag == 0
  match op with
  | 0xC0 => f.a == 0 && f.fw == 0 && f.h == 0 && f.tag == 0 && f.xmod == 0
  | 0xC1 => f.h == 0 && f.xmod.toNat < 2 && tg 0
  | 0xC2 => f.a == 0 && f.fw == 0 && f.g == 0 && f.xmod.toNat < 2 && tg 0
  | 0xC3 => f.fw == 0 && f.g == 0 && f.xmod.toNat < 2 && tg 0
  | 0xC4 | 0xC5 => f.a == 0 && f.g == 0 && f.xmod.toNat < 32 && f.tag == 0
  | 0xC6 => f.fw.toNat < 32 && (f.fw.getLsbD 2 || f.g == 0) && (!(f.xmod.getLsbD 9) || f.tag == 0)
  | 0xC7 => f.fw.toNat < 32 && !(f.fw.getLsbD 3) && (f.fw.getLsbD 2 || f.g == 0) && tg 9
  | 0xC8 => f.fw == 0 && f.tag == 0 && f.xmod == 0
  | 0xC9 => f.fw == 0 && f.xmod.toNat < 2 && tg 0
  | 0xCA => f.a == 0 && f.fw == 0 && f.g == 0 && f.xmod.toNat < 2 && tg 0
  | 0xCB => f.a == 0 && f.fw == 0 && f.g == 0 && f.tag == 0 && f.xmod == 0
  | 0xCC => f.a == 0 && f.fw == 0 && f.tag == 0 && f.xmod == 0
  | 0xCD => f.a == 0 && f.fw == 0 && f.h == 0 && f.tag == 0 && f.xmod == 0
  | _ => false

/-- Whether a number is one of the 64-bit special registers (R46). -/
def specialWide (n : Nat) : Bool := n == 448 || n == 458 || n == 461 || n == 463

/-- The fields a C instruction fixes (R24, R115, R119, R120, R329, R364, R371, R372, R377, R378, R404). -/
def cLegal (op : Nat) (f : CFields) : Bool :=
  let d := f.disp.toNat
  let z := f.a == 0 && f.b == 0 && f.c == 0
  match op with
  | 0x90 => z
  | 0x91 => f.b == 0 && f.c == 0
  | 0x92 => (f.c == 0 && f.b == 0) || (f.c == 1 && f.disp == 0)
  | 0x93 => f.disp == 0 && f.b == 0 && f.c == 0
  | 0x94 => true
  | 0x98 | 0x99 | 0x9B => f.disp == 0 && z
  | 0x9A => d < 0x10000 && z
  | 0xD0 | 0xD1 | 0xD3 => d < 0x100000 && f.c == 0 && (f.disp.getLsbD 18 || f.a == 0) && (f.disp.getLsbD 19 || f.b == 0) &&
      (!(f.disp.getLsbD 18) || d % 16 == 0) && (!(f.disp.getLsbD 19) || d / 16 % 16384 == 0)
  | 0xD2 => d < 0x100000 && f.c == 0 && f.b == 0 && !(f.disp.getLsbD 19) && d / 16 % 16384 == 0 &&
      (f.disp.getLsbD 18 || f.a == 0) && (!(f.disp.getLsbD 18) || d % 16 == 0)
  | 0xD5 => f.disp == 0 && ((f.c == 0 && f.b == 0) || f.c == 1)
  | 0xD6 => f.disp == 0 && f.b == 0 && f.c == 0
  | 0xD7 => f.disp == 0 && (f.c != 0 || f.b == 0)
  | 0xD8 => d < 2 && f.b == 0 && f.c == 0
  | 0xD9 =>
    let kind := d % 16
    let rel := d / 16 % 16
    d < 0x8000 && !(f.disp.getLsbD 9) && kind < 5 && (if kind == 1 then rel < 10 else rel == 0 && f.c == 0) &&
      (!(f.disp.getLsbD 8) || (kind != 2 && kind != 3)) && (d / 1024 % 32 != 0 || f.b == 0)
  | 0xDD => d < 0x800 && f.a == 0
  | 0xDE | 0xDF => d < 0x400 && z
  | 0xE8 => z
  | 0xE9 => d < 2 && z
  | 0xEA => d < 2 && f.c == 0 && (d == 0 || specialWide f.a.toNat || f.a.toNat < 448 || 464 ≤ f.a.toNat)
  | 0xEB => d == 0 && f.c == 0
  | 0xEC => d == 0 && z
  | 0xED => d < 0x20000 && f.b == 0 && f.c == 0 && (f.disp.getLsbD 16 || f.a == 0)
  | 0xEE => d < 0x200 && f.b == 0 && f.c == 0 && (if f.disp.getLsbD 8 then d % 256 == 0 else f.a == 0)
  | _ => false

/-! ### The pair word -/

/-- A logic, shift or `mov` sub-op (R72). -/
def pairBitOp (o : BitVec 6) : Bool := 5 ≤ o.toNat

/-- The ILLENC rules of a pair word but for bit 0, which the encoding fixes (R72). -/
def pEnc (f : PFields) : Bool :=
  (!(pairBitOp f.opa || pairBitOp f.opb) || f.ptype == 0) && (f.opa != 11 || f.aa == 0) && (f.opb != 11 || f.ab == 0)

/-- The ILLPAIR rules of a pair word (R72). -/
def pPair (f : PFields) : Bool :=
  (f.opa == 11 || f.opb == 11 || f.aa.toNat % 4 != f.ab.toNat % 4) && f.da.toNat % 4 != f.db.toNat % 4 &&
    f.ab != f.da && f.bs != f.da

/-- A pair word decoded (R72, R80). -/
def decodePair (w : DWord) : Except DecodeFate Instr :=
  let f := pFields w
  if 12 ≤ f.opa.toNat || 12 ≤ f.opb.toNat then .error .illop
  else if !pEnc f || w.getLsbD 0 then .error .illenc
  else if !pPair f then .error .illpair
  else .ok (.pairWord f)

/-! ### Decoding and encoding -/

/-- Whether an opcode is reserved (R79): a word that holds it raises ILLOP. -/
def opAssigned (op : Nat) : Bool :=
  op < 0x2F || (0x41 ≤ op && op < 0x6F) || (0x80 ≤ op && op < 0x86) || (0x90 ≤ op && op < 0x9C) || (0xA0 ≤ op && op < 0xAD) ||
  (0xB0 ≤ op && op < 0xBA) || (0xC0 ≤ op && op < 0xCE) || (0xD0 ≤ op && op < 0xE3) || (0xE8 ≤ op && op < 0xEF)

/-- The opcode of a slot word. -/
def opcodeOf (w : DWord) : Nat := (bitsAt w 56 8).toNat

/-- A slot that is not a pair word, with the word of the slot that follows for a literal (R63, R68 to R80). -/
def decodeSlot (w lit : DWord) : Except DecodeFate Instr :=
  let op := opcodeOf w
  if !opAssigned op then .error .illop
  else
    match (vFields w lit).bind fun f => (vOf op f).bind fun i => if vLegal op f then some i else none with
    | some i => .ok i
    | none =>
    match (mFields w).bind fun f => (mOf op f).bind fun i => if mLegal op f then some i else none with
    | some i => .ok i
    | none =>
    match (kFields w).bind fun f => (kOf op f).bind fun i => if kLegal op f then some i else none with
    | some i => .ok i
    | none =>
    match (xOf op (xFields w)).bind fun i => if xLegal op (xFields w) then some i else none with
    | some i => .ok i
    | none =>
    match (cFields w).bind fun f => (cOf op f).bind fun i => if cLegal op f then some i else none with
    | some i => .ok i
    | none => .error .illenc

/-- Whether an instruction takes the slot that follows as its literal. -/
def Instr.literal (i : Instr) : Option DWord :=
  match toV i with
  | some (_, f) => (match f.kind with | .lit x => some x | _ => none)
  | none => none

/-- The words of an encodable instruction: its slot word and its literal, if any; an event of the device has none. -/
def encode (i : Instr) : Option (DWord × Option DWord) :=
  match i with
  | .pairWord f => some (pWord f, none)
  | _ =>
    match toV i, toM i, toK i, toX i, toC i with
    | some (op, f), _, _, _, _ => some (vWord op f, i.literal)
    | none, some (op, f), _, _, _ => some (mWord op f, none)
    | none, none, some (op, f), _, _ => some (kWord op f, none)
    | none, none, none, some (op, f), _ => some (xWord op f, none)
    | none, none, none, none, some (op, f) => some (cWord op f, none)
    | none, none, none, none, none => none

/-- The static rules on an instruction: exactly those the decoder checks on its word, and that the fields belong to this
constructor and not to a neighbour that shares its opcode. -/
def Instr.legal (i : Instr) : Bool :=
  match i with
  | .pairWord f => f.opa.toNat < 12 && f.opb.toNat < 12 && pEnc f && pPair f
  | _ =>
    match toV i, toM i, toK i, toX i, toC i with
    | some (op, f), _, _, _, _ => vLegal op f && vOf op f == some i
    | none, some (op, f), _, _, _ => mLegal op f && mOf op f == some i
    | none, none, some (op, f), _, _ => kLegal op f && kOf op f == some i
    | none, none, none, some (op, f), _ => xLegal op f && xOf op f == some i
    | none, none, none, none, some (op, f) => cLegal op f && cOf op f == some i
    | none, none, none, none, none => false

/-- Eight bytes, lowest address first, as a word (R5). -/
def wordOfBytes (bs : List Byte) : DWord :=
  (bs.take 8).foldr (fun b acc => (acc <<< 8) ||| b.zeroExtend 64) 0

/-- The bytes of a number, lowest first: `n` of them (R5). -/
def bytesOfNat (n x : Nat) : List Byte :=
  match n with
  | 0 => []
  | k + 1 => BitVec.ofNat 8 x :: bytesOfNat k (x / 256)

/-- The decoder on bytes as they stand in memory: a slot and the slot after it (R63). -/
def decodeBytes (bs : List Byte) : Except DecodeFate Instr :=
  decodeSlot (wordOfBytes bs) (wordOfBytes (bs.drop 8))

/-- What the decoder reads from an instruction whose bits are `w` in the opcode table's numbering: the first word
in bits 63:0, a literal in bits 127:64. A pair word is told from other words by its clause header only, so this
reads a slot whose PAIRS bit is clear. -/
def decodeTableWord (nbits w : Nat) : Option Instr :=
  match decodeBytes (bytesOfNat 16 (w % 2 ^ nbits)) with
  | .ok i => some i
  | .error _ => none

end Sys2Proof
end

