-- ==== Sys2Proof/Config.lean ====
section
/-! DEFINITION. What an implementation of the G4 fixes, and the free values: constants with no body, so that no
proof can see what they are and a statement holds whatever they are (log entries 3 to 6). -/

namespace Sys2Proof

/-- FREE VALUE (log entry 3): which of the possible next events the device lets happen, by the step's number.
The manual fixes no order between independent agents (12_ordering R198, R205; 22_scheduling R344). -/
opaque Config.choose : Nat → Nat

/-- FREE VALUE (log entry 4): the deviation an approximate function (09 R154, R157) shows from the correctly rounded
result, by opcode, format code and operand bits; the model keeps it inside the bound the manual states. -/
opaque Config.approx (op fmt x : Nat) : Nat

/-- FREE VALUE (log entry 5): the word a fetch sees while stores change it (04_encoding R67), by step number. -/
opaque Config.mixedFetch : Nat → Bool

/-- FREE VALUE (log entry 6): the body of an SPDM answer (27_system_interfaces R421), by message and step number. -/
opaque Config.spdmBody (message tick : Nat) : Nat

/-- The SHA3-256 measurements of R421 by index and world assignment; each implementation decides (log entry 6). -/
opaque Config.measurement (index worlds : Nat) : Nat

/-- FREE VALUE (log entry 22): the exponent E by which a `tsave` with BSCALE lowers the scale of a block whose target
is BF16, FP16 or F32, for which the table of R256 states none. -/
opaque Config.scaleExponent (fmt : Nat) : Nat

/-- FREE VALUE (log entry 23): the 16 bits of EXPECTED or ARRIVED in a watchdog record (24 R381) for a count of 65,536
lanes or more, for which the layout states none. -/
opaque Config.wideCount : Nat → Nat

/-- The home slice of a 128-byte block of LPDDR, of the device's 192 (11_memory_hierarchy R181), and the directory set
that holds a block, with its slice (R182): each is fixed for a device and not stated (log entry 79). -/
opaque Config.homeSlice : Nat → Nat
opaque Config.dirSet : Nat → Nat

/-- FREE VALUE (log entry 79): whether a sharer record of a core falls with the granules that a dispatch or a restore
reclaims from its L1 (R179), by step number and record. -/
opaque Config.reclaimed (tick key : Nat) : Bool

/-- Words that a core's L1 instruction cache holds: 128 KiB (00_scope R1). -/
def Config.icacheWords : Nat := 16384
/-- Ways of a set of a slice's directory (R182). -/
def Config.dirWays : Nat := 16
/-- Buryx ports (R1). -/
def Config.ports : Nat := 12
/-- Cores of a device (00_scope R1). -/
def Config.cores : Nat := 192
/-- Cores of one compute die (R2, R3). -/
def Config.coresPerDie : Nat := 48
/-- Cores a compute die carries, enabled or not (R2). -/
def Config.builtCores : Nat := 50
/-- L2 slices of one compute die (R2). -/
def Config.slicesPerDie : Nat := 48
/-- Sub-cores of a core (R1). -/
def Config.subcores : Nat := 16
/-- Warp slots of a sub-core (R1). -/
def Config.warpSlots : Nat := 32
/-- Active-set places of a sub-core (R1). -/
def Config.activeSet : Nat := 8
/-- Vector registers of a sub-core's file (03_registers R44). -/
def Config.fileRegs : Nat := 1024
/-- Strand-table entries of a sub-core (R1). -/
def Config.strandEntries : Nat := 64
/-- Strands of a warp (R1, 02 R19). -/
def Config.strandsPerWarp : Nat := 16
/-- Nesting depth of strands (R1, 02 R19). -/
def Config.maxDepth : Nat := 8

end Sys2Proof
end

