-- ==== Sys2Proof/Machine/Maps.lean ====
section
/-! DEFINITION. Finite maps in one canonical form: a list of (key, value) pairs, keys strictly rising. A map with a
default value lists no key at its default, so that equal maps are equal data. -/

namespace Sys2Proof.Machine

/-- A finite map from `Nat`. -/
abbrev Map (α : Type) := List (Nat × α)

/-- The value at key `k`, if listed. -/
def mLook {α : Type} : Map α → Nat → Option α
  | [], _ => none
  | (j, a) :: m, k => if k = j then some a else mLook m k

/-- Lists `a` at key `k`. -/
def mIns {α : Type} : Map α → Nat → α → Map α
  | [], k, a => [(k, a)]
  | (j, b) :: m, k, a =>
    if k = j then (k, a) :: m else if k < j then (k, a) :: (j, b) :: m else (j, b) :: mIns m k a

/-- Removes key `k`. -/
def mDel {α : Type} (m : Map α) (k : Nat) : Map α := m.filter fun x => decide (x.1 ≠ k)

/-- The value at `k`; `d` where the map lists none. -/
def mGet {α : Type} (d : α) (m : Map α) (k : Nat) : α := (mLook m k).getD d

/-- Sets the value at `k`; the default removes the entry. -/
def mPut {α : Type} [DecidableEq α] (d : α) (m : Map α) (k : Nat) (a : α) : Map α :=
  if a = d then mDel m k else mIns m k a

/-- Keys strictly rising, all at or above `lo`. -/
def mFrom {α : Type} : Nat → Map α → Bool
  | _, [] => true
  | lo, (j, _) :: m => decide (lo ≤ j) && mFrom (j + 1) m

/-- The canonical form of a map. -/
def mSorted {α : Type} (m : Map α) : Bool := mFrom 0 m

/-- The canonical form of a map with default `d`. -/
def mCanon {α : Type} [DecidableEq α] (d : α) (m : Map α) : Bool :=
  mSorted m && m.all (fun x => decide (x.2 ≠ d))

/-- Values in key order. -/
def mVals {α : Type} (m : Map α) : List α := m.map (·.2)

/-- The least key at or above `lo` that a map does not list, looking at most `fuel` keys. -/
def mFree {α : Type} (m : Map α) : Nat → Nat → Nat
  | 0, lo => lo
  | fuel + 1, lo => if (mLook m lo).isSome then mFree m fuel (lo + 1) else lo

/-- `n` bytes at `k`, `k + 1`, …, little-endian, as one number (00_scope R5). -/
def bytesAt (m : Map Byte) (k : Nat) : Nat → Nat
  | 0 => 0
  | n + 1 => (mGet 0 m k).toNat + 256 * bytesAt m (k + 1) n

/-- Writes the low `n` bytes of `x` at `k`, little-endian. -/
def putBytes (m : Map Byte) (k : Nat) : Nat → Nat → Map Byte
  | 0, _ => m
  | n + 1, x => putBytes (mPut 0 m k (BitVec.ofNat 8 x)) (k + 1) n (x / 256)

/-- Writes a list of bytes at `k`. -/
def putList (m : Map Byte) (k : Nat) : List Byte → Map Byte
  | [] => m
  | b :: bs => putList (mPut 0 m k b) (k + 1) bs

/-- The list of `n` bytes at `k`. -/
def listAt (m : Map Byte) (k : Nat) : Nat → List Byte
  | 0 => []
  | n + 1 => mGet 0 m k :: listAt m (k + 1) n

end Sys2Proof.Machine
end

