-- ==== Sys2Proof/Machine/State.lean ====
section
/-! DEFINITION. The state of the G4: every piece of state the manual gives the machine, as plain data, with the state
right after reset; the reasons a step can stop; and `Effect`, the one-field writes that every meaning is made of. -/

namespace Sys2Proof.Machine

/-- The trap causes of R382. -/
inductive Cause where
  | illop | illenc | illpair | illopnd | clause | misalign | prot | sealed | rlock | swconf | fmtdiv | mnan | vinv
  | region | wdog | dataerr | swtrap | brk | cont | xlate | double
  deriving DecidableEq, Repr

/-- One trap: the fields of its record (R384) and the device's own copy of the resume point (R387): the header of the
clause of DPC and the slot within it, `none` for the header itself. -/
structure Trap where
  cause : Cause
  deferred : Bool := false
  header : Bool := false
  engine : Bool := false
  tag : Nat := 0
  pc : DWord := 0
  dpc : DWord := 0
  hdrAt : DWord := 0
  slot : Option Nat := none
  members : Mask := 0
  lanes : Mask := 0
  addr : DWord := 0
  extra : DWord := 0
  name : ThreadName := .ordinary 0 0 0
  seq : Nat := 0
  elected : Option Nat := none
  deriving DecidableEq, Repr

/-- A load slot of an open region (R298): physical key, width, recorded value, its page's virtual address, and the
access that has still to bring the value. -/
structure RSlot where
  key : Nat
  n : Nat
  val : Nat
  va : Nat
  pend : Option Nat := none
  deriving DecidableEq, Repr

/-- A symbolic tag (R298): register, width in bytes, slot and offset. -/
structure RTag where
  reg : Nat
  n : Nat
  slot : Nat
  ofs : Nat
  deriving DecidableEq, Repr

/-- A constraint (R301): slot, offset, relation code, TYPE, the concrete value, on which side it stands, the outcome. -/
structure RCon where
  slot : Nat
  ofs : Nat
  rel : Nat
  ty : Ty
  val : Nat
  left : Bool
  outcome : Bool
  deriving DecidableEq, Repr

/-- A buffered store (R302): physical key, width, concrete value, or the tag it carries, and its page's virtual address. -/
structure RStore where
  key : Nat
  n : Nat
  val : Nat
  sym : Option (Nat × Nat)
  va : Nat
  deriving DecidableEq, Repr

/-- The open region of one lane (R298). -/
structure Region where
  fallback : DWord
  slots : List RSlot := []
  tags : List RTag := []
  cons : List RCon := []
  stores : List RStore := []
  dep : BitVec 8 := 0
  deriving DecidableEq, Repr

/-- One arm of a fork (R18, R22): its lanes, those still running in it, and what it has hoisted for which lanes. -/
structure Arm where
  lanes : Mask
  left : Mask
  hoistV : Map Mask := []
  hoistP : Map Mask := []
  deriving DecidableEq, Repr

/-- Where a serialised or one-sided fork stands (R20); a split fork has its three strands in the table. -/
inductive Phase where
  | split | runThen | runElse | only | joined
  deriving DecidableEq, Repr

/-- A fork: the record (Ljoin, T, E) of R19, the arm its forking strand carried, and the lanes of its continuation. -/
structure Fork where
  ljoin : DWord
  lelse : DWord
  t : Arm
  e : Arm
  phase : Phase
  outer : Option (Nat × Bool)
  alive : Mask
  deriving DecidableEq, Repr

/-- What an `await` or `fwait` waits for (R333, R352, R372); queues by key `partition × 1024 + number`. -/
inductive Cond where
  | tags (mask : DWord) (any : Bool)
  | mem (va n : Nat) (rel : Nat) (val : Nat)
  | queue (q : Nat)
  | scope (n : Nat)
  | fwait (n : Nat)
  deriving DecidableEq, Repr

/-- What a strand waits on at its instruction. `stall` re-executes; its number is the reason code of R424. -/
inductive Wait where
  | none
  | stall (reason : Nat)
  | barrier (cluster : Bool) (bid phase : Nat)
  | met (lanes : Mask)
  | commit (left ok again aborted : Mask)
  | sealing (base len : Nat)
  | unsealing (base len : Nat)
  | registering (group rtag ctag : Nat)
  /-- A `dgrp.free` whose group's round has not finished (R325). -/
  | releasing (group : Nat)
  /-- A `dred` that waits for the writes before it (R326): group, index, deadline, payload offset and words. -/
  | promised (group index deadline ofs words : Nat)
  | contributing (group index deadline : Nat) (payload : List Word)
  /-- A `launch`: the lanes placed, and the records read and not yet placed, with their scopes (R331). -/
  | placed (lanes : Mask) (rest : List (Nat × List Byte × Option Nat))
  /-- A condition, the tags a record adds to it, and whether the warp has more than one strand and stays (R353). -/
  | cond (c : Cond) (tags : DWord) (stay : Bool)
  /-- A pop in arrival order: `need` entries, or with `once` at least one of them (`refill`), and those reserved. -/
  | getting (q arrival need : Nat) (once : Bool) (got : List (Nat × List Word))
  | putting (q arrival : Nat)
  | freed (pin : Nat)
  /-- A `gacc` or `gflush` past its check that waits for room (R285). -/
  | counted (pin : Nat)
  | debugStop
  deriving DecidableEq, Repr

/-- A part of a strand parked by a page fault (R33): its lanes, where it stands, the pages they met, those answered
FAIL, the routed data a store there sends, as it read it (key lane × 8 + part), and, of a running part, what it waits
on and the page that holds it. -/
structure Part where
  lanes : Mask
  pc : DWord
  slot : Option Nat
  hdr : DWord
  ctx : Nat
  pages : List Nat
  failed : List Nat := []
  sent : Map Nat := []
  wait : Wait := .none
  held : Option (Nat × Bool) := none
  deriving DecidableEq, Repr

/-- A strand-table entry (R18): members, the clause header it stands in (`pc`), the slot (`none`: at the header) and
the header word, depth and age; the arm it carries; for a continuation its fork and written-mask (R26). -/
structure Strand where
  members : Mask
  pc : DWord
  slot : Option Nat := none
  hdr : DWord := 0
  /-- The header is read again before the slot issues (R66, R387). -/
  reread : Bool := false
  depth : Nat := 0
  age : Nat := 0
  arm : Option (Nat × Bool) := none
  cont : Option Nat := none
  wrV : BitVec 512 := 0
  wrP : BitVec 8 := 0
  handler : Bool := false
  wait : Wait := .none
  idleAt : Nat := 0
  /-- Of a wait on registers: those it waits for, a scalar one as 512 + r (R350). -/
  needs : List Nat := []
  /-- Since which cycle of its core the scheduler has found it ready without a break, while it has (R31). -/
  readyAt : Option Nat := none
  /-- Parked lanes of the fault shadow, newest split first (R33, R34). -/
  shadow : List Part := []
  /-- Where the other part waits while the parked part re-executes (R34). -/
  target : Option Part := none
  /-- A trap raised while a handler runs, pending (R385). -/
  trap : Option Trap := none
  /-- A page fault that holds the whole strand (R394): page, and FAIL when answered so. -/
  held : Option (Nat × Bool) := none
  /-- The step in which the strand was held for want of an entry (R306). -/
  heldAt : Nat := 0
  /-- Of a re-executing part, at the instruction it was parked at: the pages answered FAIL, and its routed data (R34). -/
  failed : List Nat := []
  sent : Map Nat := []
  deriving DecidableEq, Repr

/-- The running handler of a warp (R386): the parked strand, its table entry, the trap being handled. -/
structure Handler where
  strand : Strand
  entry : Nat
  trap : Trap
  deriving DecidableEq, Repr

/-- Where a warp is: on its sub-core, saved with its block, saved by R53, or a continuation record (R352). -/
inductive Place where
  | resident | saved | regSaved | record | gone
  deriving DecidableEq, Repr

/-- A warp (R42, R45, R46, R54): registers by key `register × 32 + lane`, predicates, `%nstat`, counters, strands,
fork records, open regions, stochastic states, names of refilled lanes, trap slot, and its place. -/
structure Warp where
  block : Nat
  num : Nat
  core : Nat
  sub : Nat
  slotNo : Nat := 0
  alloc : Nat
  place : Place := .resident
  active : Bool := false
  v : Map Word := []
  s : Map Word := []
  p : Map Mask := []
  q : BitVec 8 := 0
  nstat : Word := 0
  tshape : Word := 0
  ld : Nat := 0
  st : Nat := 0
  cp : Nat := 0
  tl : Nat := 0
  live : Mask := 0
  strands : Map Strand := []
  nextAge : Nat := 0
  forks : Map Fork := []
  nextFork : Nat := 0
  /-- Strands F held on the fork-record stack for want of an entry, oldest first (R306). -/
  heldStrands : List Strand := []
  regions : Map Region := []
  lanesRand : Map Word := []
  warpRand : Word := 0
  names : Map ThreadName := []
  seq : Nat := 0
  drains : Nat := 0
  recAt : DWord := 0
  handler : Option Handler := none
  deferred : List Trap := []
  /-- Latest `barr` arrival of each lane: key `barrier × 32 + lane`, value phase + 1 (R366). -/
  barr : Map Nat := []
  cond : Option Cond := none
  condTags : DWord := 0
  /-- Of a continuation record (R352): its 2,240 bytes as written, where they lie in the context's memory, and its
  strand (depth, age, arm and written-masks), kept beside it. -/
  record : List Byte := []
  recordAt : DWord := 0
  kept : Option Strand := none
  growTo : Nat := 0
  /-- Since which cycle of its core the scheduler has found a strand of it ready without a break, while it has (R349,
  R351); of an active warp, since its last issue at the earliest. -/
  readySince : Option Nat := none
  /-- The strand that has executed `yield` and whose next header has not issued (R120). -/
  yielding : Option Nat := none
  activeSince : Nat := 0
  lastIssue : Nat := 0
  age : Nat := 0
  deriving DecidableEq, Repr

/-- A barrier's current phase (R365): the count (`none`: unset; `some 0`: default), arrived lanes by warp, the cycle of
the first arrival (while the block is saved, the cycles counted so far, R368). -/
structure Barrier where
  phase : Nat := 0
  count : Option Nat := none
  arrived : Map Mask := []
  first : Nat := 0
  pc : DWord := 0
  deriving DecidableEq, Repr

/-- Statistics of one tile slot (R241, R262). -/
structure TileStat where
  sat : Word := 0
  nan : Bool := false
  pc : DWord := 0
  seq : Word := 0
  kstart : Word := 0
  pos : Word := 0
  deriving DecidableEq, Repr

/-- A dispatched block (R11, R45): cores in increasing number, warps, scratch, accumulator positions by key
`(core index × 512 + row) × 512 + column`, slot statistics by key `core index × 16 + place`, tags, barriers. -/
structure Block where
  launch : Nat
  ctx : Nat
  b : Nat
  cores : List Nat
  warps : List Nat := []
  place : Place := .resident
  group : Nat := 0
  rect : List (Nat × List Nat) := []
  scratch : Map Byte := []
  acc : Map Word := []
  stats : Map TileStat := []
  pending : Map Nat := []
  cdone : DWord := 0
  bars : Map Barrier := []
  bstat : Byte := 0
  savedAt : Nat := 0
  /-- It has been asked to leave its cores: its warps stop at their next header or where they wait (R396). -/
  stopping : Bool := false
  /-- Asked to leave by the rule of R39, alone with the blocks it is saved with. -/
  forced : Bool := false
  /-- The B store of each of its cores as a save kept it (R189), in the order of `cores`, and its pages. -/
  bsave : List (Map Byte × List Nat) := []
  completed : Bool := false
  deriving DecidableEq, Repr

/-- A cluster group (R177): its blocks and its cluster barriers. -/
structure Group where
  blocks : List Nat
  base : Nat
  bars : Map Barrier := []
  deriving DecidableEq, Repr

/-- How far a launch has come (R339, R343). -/
inductive LaunchState where
  | held | ready | entered | running | finished
  deriving DecidableEq, Repr

/-- A launch: the snapshot of its record (R337), its scope, and its progress. -/
structure Launch where
  ctx : Nat
  bytes : List Byte
  scope : Option Nat
  stage : LaunchState
  nextB : Nat := 0
  doneBlocks : Nat := 0
  penn : Byte := 0
  tape : Bool := false
  order : Nat := 0
  /-- The core whose pending-launch queue holds the record, or `none` for the context's ring (R332). -/
  queue : Option Nat := none
  placed : Bool := false
  /-- Of a finished launch whose completion record lacks byte +0 (R340): STATUS, and the physical key of that byte
  (`none`: the record is written nowhere). -/
  status : Nat := 0
  doneKey : Option Nat := none
  deriving DecidableEq, Repr

/-- A finish scope (R330). -/
structure Scope where
  opened : Bool := true
  count : Nat := 0
  parent : Option Nat := none
  waited : Bool := false
  deriving DecidableEq, Repr

/-- A pinned region of a context (R272). -/
structure Pin where
  die : Nat
  base : Nat
  len : Nat
  ready : Bool := false
  freed : Bool := false
  deriving DecidableEq, Repr

/-- A page of the pinned pool (R272, R273): words of a resident page, or spilled; the order of its last `gacc`. -/
structure PoolPage where
  die : Nat
  spilled : Bool := false
  last : Nat := 0
  words : Map Word := []
  deriving DecidableEq, Repr

/-- One contribution (R309): index, deadline field, payload words. -/
structure Contribution where
  index : Nat
  deadline : Nat
  payload : List Word
  deriving DecidableEq, Repr

/-- An area on its way to a participant (R311 to R313, R212): the block, the tag it sets at its end, the tags the round's
result clears before it, and the words left by scratch offset. -/
structure Delivery where
  blk : Nat
  tag : Nat
  clears : List Nat
  left : List (Nat × Word)
  deriving DecidableEq, Repr

/-- A reduction group (R308 to R314). -/
structure RedGroup where
  op : Nat
  words : Nat
  count : Nat
  flags : Nat
  result : Nat
  corr : Nat
  rootDie : Nat
  /-- Participants: block, result tag, correction tag. -/
  parts : List (Nat × Nat × Nat) := []
  /-- Contributions accepted by a router and not yet at the root. -/
  flight : List Contribution := []
  present : List Contribution := []
  late : List Contribution := []
  waiting : List Contribution := []
  /-- Cycle of the root's die at which the deadline expires, counting from the first arrival. -/
  expires : Option Nat := none
  phaseOne : Bool := true
  began : Bool := false
  /-- The round's correction has been decided; the round finishes when it is delivered (R314). -/
  closed : Bool := false
  /-- Areas decided and not yet delivered, in their order. -/
  sending : List Delivery := []
  /-- A `dgrp.free` waits for the round (R325). -/
  freeing : Bool := false
  lastResult : Option (List Word) := none
  lastCorr : Option (List Word) := none
  deriving DecidableEq, Repr

/-- A hardware queue (R358): entries with their 64-bit pop index. -/
structure Queue where
  ctx : Nat
  part : Nat
  ring : DWord
  size : Nat
  entries : List (Nat × List Word) := []
  next : Nat := 0
  spills : Nat := 0
  high : Nat := 0
  secure : Bool := false
  deriving DecidableEq, Repr

/-- A context (R14, R341, R342, R417). -/
structure Context where
  root : DWord := 0
  save : DWord := 0
  diag : DWord := 0
  launchQuota : Nat := 64
  queueQuota : Nat := 0
  hostTier : Bool := false
  peerTier : Bool := false
  secure : Bool := false
  parts : List Nat := []
  lastId : Word := 0
  refused : Nat := 0
  /-- Contributions of other devices to groups not yet defined here (R324). -/
  early : Map (List Contribution) := []
  spills : Nat := 0
  high : Nat := 0
  scopes : Map Scope := []
  tape : List (List Byte) := []
  tapeRun : Option (Nat × Option Nat) := none
  /-- Sealed regions (base, length), and ranges marked by a `seal` that has not completed (R192). -/
  sealed : List (Nat × Nat) := []
  marks : List (Nat × Nat) := []
  pins : Map Pin := []
  groups : Map RedGroup := []
  debugStop : Bool := false
  /-- Its termination (R380) has taken place: nothing of it runs or is accepted, and its doorbell page still stands. -/
  terminated : Bool := false
  deriving DecidableEq, Repr

/-- A tenant partition (R186, R346). -/
structure Partition where
  ranges : List (Nat × Nat) := []
  cores : List Nat := []
  reserved : List Nat := []
  deriving DecidableEq, Repr

/-- The stall sampler of a core (R423). -/
structure Sampler where
  period : Nat
  buffer : DWord
  since : Nat
  turn : Nat := 0
  samples : List (List Byte) := []
  dropped : Nat := 0
  deriving DecidableEq, Repr

/-- A record of the trace stream (R410, R425). -/
inductive TraceRecord where
  | marker (id : Nat) (val : Word) (pc : DWord) (cycle : Nat) (name : ThreadName)
  | dispatch (block : Nat) (name : ThreadName)
  | trap (w : Nat) (cause : Cause) (name : ThreadName)
  | swap (leaving entering : Nat) (leavingName enteringName : ThreadName)
  deriving DecidableEq, Repr

/-- The trace unit of a core (R425). -/
structure Tracer where
  args : TraceArgs
  on : Bool := false
  stream : List TraceRecord := []
  deriving DecidableEq, Repr

/-- A core (R2, R189, R208, R261, R332): its cycle counter stands `extra` above the device's time. -/
structure Core where
  part : Option Nat := none
  /-- The partition it joins when it falls idle (R347). -/
  next : Option Nat := none
  ctx : Option Nat := none
  extra : Nat := 0
  forkEvents : Nat := 0
  bstore : Map Byte := []
  bpages : List Nat := []
  /-- L1 instruction cache: words by address key (R67). -/
  icache : Map DWord := []
  /-- Translations: key `context × 2^52 + page number`, value the entry and the page's size in bytes (R393). -/
  tlb : Map (DWord × Nat) := []
  retiredSubs : List Nat := []
  /-- Sub-cores whose retirement waits for the idle point of their partner, which is full (R403). -/
  retiring : List Nat := []
  outOfService : Bool := false
  asleep : List Nat := []
  lastIssue : Map Nat := []
  /-- When the scrubber last visited each sub-core (R50). -/
  scrubbed : Map Nat := []
  secure : Bool := false
  sampler : Option Sampler := none
  tracer : Option Tracer := none
  deriving DecidableEq, Repr

/-- A byte's place as threads and engines name it: physical memory by key `tag × 2^64 + offset` (tag 0 to 3 DRAM of a
die, 4 LPDDR, 5 host, 6 + n peer device n), or a block's scratch. -/
inductive Loc where
  | glob (k : Nat)
  | scr (blk ofs : Nat)
  deriving DecidableEq, Repr

/-- What an operation in flight does (R198). -/
inductive MKind where
  | load | store | atom (sop : Nat) (ret : Bool) | red (sop : Nat) | ald | fence
  deriving DecidableEq, Repr

/-- One event of an operation (R198): a lane's access, or one aligned word of it. -/
structure MUnit where
  lane : Nat
  loc : Loc
  n : Nat
  reg : Nat := 0
  data : Nat := 0
  data2 : Nat := 0
  done : Bool := false
  deriving DecidableEq, Repr

/-- A load, store, atomic or fence that has issued, in issue order (R197, R199). -/
structure MemOp where
  w : Nat
  blk : Nat
  ctx : Nat
  core : Nat
  kind : MKind
  acq : Bool := false
  rel : Bool := false
  scope : MemScope := .block
  /-- The forks whose arms the issuing strand carried, innermost first (R204). -/
  chain : List Nat := []
  ahead : Option Nat := none
  lanes : Mask := 0
  /-- Lanes of a load that name the same bytes are served by one read (R216). -/
  shared : Bool := false
  units : List MUnit := []
  /-- The cycle of its core at which it issued (R350). -/
  since : Nat := 0
  deriving DecidableEq, Repr

/-- A fixed side of an engine operation. -/
inductive Side where
  | virt (va : Nat)
  | scr (blk ofs : Nat)
  | bst (core ofs : Nat)
  | reg (w byte : Nat)
  deriving DecidableEq, Repr

/-- A tensor shape record (R227). -/
structure Shape where
  base : Nat
  rank : Nat
  fmt : Nat
  scaled : Bool
  dims : List Nat
  strides : List Nat
  box : List Nat
  /-- Of its scale record (R251): SBASE and SSTRIDES. -/
  sbase : Nat := 0
  sstrides : List Nat := []
  deriving DecidableEq, Repr

/-- What a drain does to each element (R270, R281): origin, size, exponent, multiplier, target format, and the control
bits; for a stochastic drain SEED and the drain count D (R271). -/
structure DrainCtl where
  row : Nat
  col : Nat
  m : Nat
  n : Nat
  e : Int
  g : Option Word
  fmt : Nat
  i32 : Bool
  noclip : Bool
  stoch : Bool
  bscale : Bool
  seed : Word
  count : Nat
  deriving DecidableEq, Repr

/-- What an `mma` snapshots at issue (R264): the fields of the parameter block, the block that holds A, the format
word, G, the shape, TRAPNAN and the elected lane. -/
structure MmaParams where
  abase : Nat
  astride : Nat
  ascale : Nat
  asstride : Nat
  boff : Nat
  bscale : Nat
  bsstride : Nat
  row0 : Nat
  col0 : Nat
  ablock : Nat
  fw : Word
  g : Word
  m : Nat
  n : Nat
  k : Nat
  trapnan : Bool
  /-- `none` once that lane's thread has exited (R269). -/
  elected : Option Nat
  deriving DecidableEq, Repr

/-- An engine operation with the operands it snapshotted (R205, R230, R261, R264). -/
inductive EKind where
  | load (sh : Shape) (cs : List Int) (mode : Nat) (dest : List Side)
  | store (sh : Shape) (cs : List Int) (mode : Nat) (frm : Side) (addIt : Bool)
  | move (frm dest : Side) (n : Nat)
  | mma (p : MmaParams)
  | zero (row col m n : Nat)
  | tload (row col m n ofs stride : Nat)
  | tread (row col nreg : Nat) (r16 : Bool) (reg : Nat)
  | twrite (row col nreg : Nat) (r16 : Bool) (vals : List Word)
  | drain (sh : Shape) (cs : List Int) (c : DrainCtl) (addIt : Bool)
  | tsave (ofs stride : Nat) (c : DrainCtl)
  | gacc (pin : Nat) (row col m n ofs stride : Nat)
  | gflush (pin : Nat)
  /-- `tstat` and `tclr` act in queue order without taking an entry (R286). -/
  | stat (row col reg : Nat)
  | clr (row col : Nat)
  /-- A `gpin` whose reservation the die's pool has not recorded (R284). -/
  | pin (id reg : Nat)
  deriving DecidableEq, Repr

/-- A locked range (R208): the bytes `lo` to `lo + n - 1` of a side. -/
structure Lock where
  core : Nat
  ctx : Nat
  side : Side
  n : Nat
  write : Bool
  op : Nat
  deriving DecidableEq, Repr

/-- An engine operation in flight (R205, R231, R232). -/
structure EngOp where
  w : Nat
  blk : Nat
  ctx : Nat
  core : Nat
  pc : DWord
  tag : Option Nat
  /-- In the core's matrix queue, its turn not taken (R261). -/
  queued : Bool := false
  /-- The tl-counted operations its warp had issued before it (R241). -/
  seq : Nat := 0
  kind : EKind
  /-- Transfers already made (for a `gflush`, words written); for a pinned-pool operation, how many elements are. -/
  done : List Nat := []
  pos : Nat := 0
  /-- What it has read and not yet used: by transfer, or, of a tile operation, by word of its operands (R198, R205). -/
  got : Map Nat := []
  /-- The codes a drain read from the accumulator, by element, then its block scales (R270). -/
  vals : List Nat := []
  /-- Pages it asked for, as (context, page), and those whose fault was answered FAIL (R394). -/
  asked : List (Nat × Nat) := []
  failed : List (Nat × Nat) := []
  /-- The cycle of its core at which it issued (R350). -/
  since : Nat := 0
  deriving DecidableEq, Repr

/-- A page fault (R394, R416). -/
structure PageFault where
  ctx : Nat
  page : Nat
  kind : Nat
  die : Nat
  reported : Bool := false
  deriving DecidableEq, Repr

/-- A word with an uncorrectable error (R49, R399, R400). -/
inductive BadWord where
  | reg (w key : Nat) | sreg (w r : Nat) | glob (k : Nat) | scr (blk ofs : Nat) | bst (core ofs : Nat)
  | acc (blk key : Nat) | pool (page word : Nat)
  deriving DecidableEq, Repr

/-- An entry of the error and retirement log (R401, R427). -/
inductive LogEntry where
  | retired (s : ErrSource) | powerMove (step : Nat) | trip (die temp : Nat)
  deriving DecidableEq, Repr

/-- The reply a management port last received (R417): success with words or with the
error log, Busy, Invalid Input, or no answer. -/
inductive Reply where
  | ok (ws : List Nat) | log (es : List LogEntry) | busy | invalid | silent
  deriving DecidableEq, Repr

/-- What a peer's request was answered: refused, a trap at the peer's instruction, or done with the bytes read. -/
inductive PeerReply where
  | refused | trap (c : Cause) | data (bs : List Byte)
  deriving DecidableEq, Repr

/-- The management controller, the security block, the links and the power state (27_system_interfaces). -/
structure Mgmt where
  stage : Nat := 0
  /-- In state 0x00: what the boot ROM that runs will find of the image (R420). -/
  booting : Option Bool := none
  holder : Option Port := none
  acquisitions : Nat := 0
  heardAt : Nat := 0
  mailbox : Reply := .silent
  i3c : Reply := .silent
  doe : List (Nat × Nat) := []
  keyed : Bool := false
  session : Bool := false
  stepSet : Nat := 0
  step : Nat := 0
  fabricNo : Nat := 0
  routes : List (Nat × Nat) := []
  linksDown : List Nat := []
  errLog : List LogEntry := []
  /-- Corrected errors, and uncorrectable ones, of each source in its window (R50, R401). -/
  errCount : List (ErrSource × Nat) := []
  badCount : List (ErrSource × Nat) := []
  /-- The window of 2^32 cycles in which the counts of a source stand. -/
  errWindow : List (ErrSource × Nat) := []
  /-- Sources with a lasting fault, to be retired (R401). -/
  lasting : List ErrSource := []
  stops : List (List Byte) := []
  msi : Map Nat := []
  secureRanges : List Nat := []
  ringBase : Option DWord := none
  ringCount : Nat := 0
  fpi : Word := 0
  fci : Word := 0
  nextFault : Nat := 0
  peerReply : PeerReply := .refused
  hostReply : Option (List Byte) := none
  cabled : Bool := false
  goodCores : List Nat := []
  deriving DecidableEq, Repr

/-- What the security block assigns a world to (R419). -/
inductive World where
  | core (c : Nat) | range (r : Nat) | queue (q : Nat)
  deriving DecidableEq, Repr

/-- What the outside world does next, or which of the device's own next events comes next: plain data that the step
takes first (log entry 2). -/
inductive Input where
  | issue (w k : Nat)
  | event (i : Instr)
  | tick (n : Nat)
  /-- A core's own cycle counter runs ahead (R4). -/
  | tickCore (core n : Nat)
  | tlbEvict (core key : Nat)
  | icacheEvict (core key : Nat)
  | element (op k : Nat)
  | badWord (x : BadWord)
  | corrected (src : ErrSource)
  | activate (w : Nat)
  /-- The scheduler finds a warp outside the active set ready, or no longer ready (R351). -/
  | noteReady (w : Nat)
  /-- Byte +0 of a finished launch's completion record is written (R340). -/
  | finishLaunch (id : Nat)
  /-- The dispatched block of the highest B makes room for a saved block of its launch (R39). -/
  | preemptBlock (b : Nat)
  /-- What a `yield` leaves to the scheduler (R120). -/
  | yieldTurn (w : Nat)
  | uncorrected (src : ErrSource)
  /-- An L2 slice would hold a ninth uncorrectable line (R400). -/
  | ninthLine (k : Nat) (src : ErrSource)
  /-- The host or a peer device writes its own memory. -/
  | outside (k : Nat) (bs : List Byte)
  | world (x : World) (secure : Bool)
  /-- The device enters its next bring-up state (R428). -/
  | bringUp
  /-- A sampler takes the sample that is due (R423). -/
  | sample (core : Nat) (x : SampleTaken)
  /-- A word of an area reaches a participant; the area's tag follows (R212). -/
  | areaWord (ctx group blk j : Nat)
  | areaDone (ctx group blk : Nat)
  /-- Of a fabric group (R309, R324): a contribution of another device reaches the root here; one of this device leaves
  for the root's device; an area decided there comes here. -/
  | fabricArrive (ctx group : Nat) (c : Contribution)
  | fabricLeave (ctx group index : Nat)
  | fabricArea (ctx group : Nat) (corr : Bool) (ws : List Word)
  deriving DecidableEq, Repr

/-- The G4. -/
structure State where
  /-- Physical memory: bytes by key, nothing listed at 0 (R428 writes every word zero). -/
  mem : List Host.Cell
  warps : Map Warp
  blocks : Map Block
  groups : Map Group
  launches : Map Launch
  ctxs : Map Context
  cores : Map Core
  parts : Map Partition
  queues : Map Queue
  pool : Map PoolPage
  /-- Directory (R182): sharers by key `line × 1024 + agent`, agent a core, or 1000 for the host. -/
  dir : Map Mask
  ops : Map MemOp
  engs : Map EngOp
  locks : List Lock
  faults : Map PageFault
  bad : List BadWord
  mgmt : Mgmt
  /-- The hub's cycle counter. No clock is the machine's (R4): each core counts its own cycles, and its counter is kept
  as what it stands above this one (`Core.extra`); a die's router counts with the die's cores. -/
  now : Nat
  /-- Progress counter: a strand that waited at this value is not tried again until it moves. -/
  epoch : Nat
  /-- The number of steps taken; the model's own field, the argument of the free choices (log entry 3). -/
  tick : Nat
  nextId : Nat
  nextLaunch : Word
  /-- The strand whose instruction issues in this step: warp and table entry. -/
  cur : Option (Nat × Nat)
  agenda : List Input
  deriving DecidableEq, Repr

/-- The state right after reset (R428: STATE 0x00, the boot ROM runs; R14: no context exists). Memory lists nothing. -/
def State.reset : State :=
  { mem := [], warps := [], blocks := [], groups := [], launches := [], ctxs := [], cores := [], parts := [],
    queues := [], pool := [], dir := [], ops := [], engs := [], locks := [], faults := [], bad := [], mgmt := {},
    now := 0, epoch := 1, tick := 0, nextId := 1, nextLaunch := 1, cur := none, agenda := [] }

/-- Why a step stops the machine. -/
inductive Fault where
  /-- Raised by the meaning of an instruction word when no strand issues it (`cur` is `none` or names no strand):
  never on a step, since the step sets `cur`. Safe: the machine stops. -/
  | noStrand
  deriving DecidableEq, Repr

/-- Why an instruction has no meaning. -/
inductive Refusal where
  /-- Raised by an arm of `exec` that is not modelled yet. Safe: the machine stops. -/
  | notModelled (mnemonic : String)
  deriving DecidableEq, Repr

/-- One write to one field or one table entry of the state. Every meaning is a list of effects. -/
inductive Effect where
  | bytes (k : Nat) (bs : List Byte)
  | wipe (tags : Nat)
  | warp (id : Nat) (x : Warp)
  | dropWarp (id : Nat)
  | block (id : Nat) (x : Block)
  | dropBlock (id : Nat)
  | group (id : Nat) (x : Group)
  | dropGroup (id : Nat)
  | launch (id : Nat) (x : Launch)
  | dropLaunch (id : Nat)
  | ctx (id : Nat) (x : Context)
  | dropCtx (id : Nat)
  | core (id : Nat) (x : Core)
  | part (id : Nat) (x : Partition)
  | dropPart (id : Nat)
  | queue (id : Nat) (x : Queue)
  | dropQueue (id : Nat)
  | page (id : Nat) (x : PoolPage)
  | dropPage (id : Nat)
  | share (key : Nat) (m : Mask)
  | op (id : Nat) (x : MemOp)
  | dropOp (id : Nat)
  | eng (id : Nat) (x : EngOp)
  | dropEng (id : Nat)
  | locks (l : List Lock)
  | fault (id : Nat) (x : PageFault)
  | dropFault (id : Nat)
  | bad (l : List BadWord)
  | mgmt (x : Mgmt)
  | now (n : Nat)
  | bump
  | ids (next : Nat)
  | launchIds (next : Word)
  deriving DecidableEq, Repr

/-- Memory in its canonical form: addresses strictly rising, no entry at 0, what an unlisted address reads as. -/
def Memory.wf (m : List Host.Cell) : Bool := mCanon 0 m

end Sys2Proof.Machine
end

