-- ==== Sys2Proof/Machine/Ops.lean ====
section
/-! DEFINITION. The named operations over the state: effects and how they compose, looking things up, addresses and
translation (25_traps_faults R390 to R394), records written to memory, TAKING A TRAP (R383 to R388) and termination
(24 R380). Everything that changes the state is an `Effect`; `applyEffect` is the one place that writes a field. -/

namespace Sys2Proof.Machine

/-! ## Effects -/

/-- The address keys of memory that bring-up writes zero: device DRAM and LPDDR (tags 0 to 4). -/
def deviceKeys : Nat := 5 * 2 ^ 64
/-- The bytes lie in memory the device has (R1): 64 GiB of DRAM on each of four dies, 1 TiB of LPDDR. -/
def deviceRange (k n : Nat) : Bool :=
  if k < 4 * 2 ^ 64 then decide (k % 2 ^ 64 + n ≤ 2 ^ 36) else decide (k < deviceKeys) && decide (k % 2 ^ 64 + n ≤ 2 ^ 40)

/-- Carries out one effect. -/
def applyEffect (s : State) : Effect → State
  | .bytes k bs => { s with mem := putList s.mem k bs }
  | .wipe lim => { s with mem := s.mem.filter (fun c => decide (lim ≤ c.1)) }
  | .warp id x => { s with warps := mIns s.warps id x }
  | .dropWarp id => { s with warps := mDel s.warps id }
  | .block id x => { s with blocks := mIns s.blocks id x }
  | .dropBlock id => { s with blocks := mDel s.blocks id }
  | .group id x => { s with groups := mIns s.groups id x }
  | .dropGroup id => { s with groups := mDel s.groups id }
  | .launch id x => { s with launches := mIns s.launches id x }
  | .dropLaunch id => { s with launches := mDel s.launches id }
  | .ctx id x => { s with ctxs := mIns s.ctxs id x }
  | .dropCtx id => { s with ctxs := mDel s.ctxs id }
  | .core id x => { s with cores := mIns s.cores id x }
  | .part id x => { s with parts := mIns s.parts id x }
  | .dropPart id => { s with parts := mDel s.parts id }
  | .queue id x => { s with queues := mIns s.queues id x }
  | .dropQueue id => { s with queues := mDel s.queues id }
  | .page id x => { s with pool := mIns s.pool id x }
  | .dropPage id => { s with pool := mDel s.pool id }
  | .share k m => { s with dir := mPut 0 s.dir k m }
  | .op id x => { s with ops := mIns s.ops id x }
  | .dropOp id => { s with ops := mDel s.ops id }
  | .eng id x => { s with engs := mIns s.engs id x }
  | .dropEng id => { s with engs := mDel s.engs id }
  | .locks l => { s with locks := l }
  | .fault id x => { s with faults := mIns s.faults id x }
  | .dropFault id => { s with faults := mDel s.faults id }
  | .bad l => { s with bad := l }
  | .mgmt x => { s with mgmt := x }
  | .now n => { s with now := n }
  | .bump => { s with epoch := s.epoch + 1 }
  | .ids n => { s with nextId := n }
  | .launchIds n => { s with nextLaunch := n }

/-- Carries out effects in order. -/
def applyAll (es : List Effect) (s : State) : State := es.foldl applyEffect s

/-- What a meaning does to a state, as the list of its effects. -/
abbrev Act := State → List Effect

/-- The state an act leaves. -/
def after (a : Act) (s : State) : State := applyAll (a s) s

/-- No effect. -/
def skip : Act := fun _ => []

/-- One effect. -/
def eff (e : Effect) : Act := fun _ => [e]

/-- First `a`, then `b` in the state that `a` leaves. -/
def andThen (a b : Act) : Act := fun s => a s ++ b (after a s)

/-- An act chosen by looking at the state. -/
def look (f : State → Act) : Act := fun s => f s s

/-- `f x` for each `x` of a list, in order. -/
def forAll {α : Type} (f : α → Act) : List α → Act
  | [] => skip
  | x :: xs => andThen (f x) (forAll f xs)

/-- `a` when `b` holds. -/
def whenA (b : Bool) (a : Act) : Act := if b then a else skip

/-- The outcome of a meaning that goes on. -/
def finish (s : State) (a : Act) : Host.Outcome State Fault Refusal := .next (after a s)

/-! ## Looking up and updating table entries -/

def updWarp (id : Nat) (f : Warp → Warp) : Act := fun s =>
  match mLook s.warps id with | some x => [.warp id (f x)] | none => []
def updBlock (id : Nat) (f : Block → Block) : Act := fun s =>
  match mLook s.blocks id with | some x => [.block id (f x)] | none => []
def updGroup (id : Nat) (f : Group → Group) : Act := fun s =>
  match mLook s.groups id with | some x => [.group id (f x)] | none => []
def updLaunch (id : Nat) (f : Launch → Launch) : Act := fun s =>
  match mLook s.launches id with | some x => [.launch id (f x)] | none => []
def updCtx (id : Nat) (f : Context → Context) : Act := fun s =>
  match mLook s.ctxs id with | some x => [.ctx id (f x)] | none => []
/-- A core has an entry from the first write on; before it, the entry of an idle core. -/
def coreOf (s : State) (id : Nat) : Core := mGet {} s.cores id
def updCore (id : Nat) (f : Core → Core) : Act := fun s => [.core id (f (coreOf s id))]
def updEng (id : Nat) (f : EngOp → EngOp) : Act := fun s =>
  match mLook s.engs id with | some x => [.eng id (f x)] | none => []
def updQueue (id : Nat) (f : Queue → Queue) : Act := fun s =>
  match mLook s.queues id with | some x => [.queue id (f x)] | none => []
def updMgmt (f : Mgmt → Mgmt) : Act := fun s => [.mgmt (f s.mgmt)]
/-- A warp with one of its strand-table entries changed. -/
def onStrand (k : Nat) (f : Strand → Strand) (x : Warp) : Warp :=
  match mLook x.strands k with | some t => { x with strands := mIns x.strands k (f t) } | none => x
def updStrand (w k : Nat) (f : Strand → Strand) : Act := updWarp w (onStrand k f)
def bump : Act := eff .bump

/-! ## Lanes and masks -/

/-- Lane `l` is in the set. -/
def hasLane (m : Mask) (l : Nat) : Bool := m.getLsbD l
/-- The set of one lane. -/
def laneBit (l : Nat) : Mask := (1 : Mask) <<< l
/-- The lanes of a set, lowest first. -/
def lanesIn (m : Mask) : List Nat := (List.range 32).filter (hasLane m)
/-- The set of the lanes that satisfy `f`. -/
def maskOf (f : Nat → Bool) : Mask := (List.range 32).foldl (fun m l => if f l then m ||| laneBit l else m) 0
/-- How many lanes. -/
def laneCount (m : Mask) : Nat := (lanesIn m).length
/-- The lowest lane. -/
def lowLane (m : Mask) : Nat := (lanesIn m).headD 0

/-- The lanes of the part of a strand that issues (R33): all members but those parked, or waiting for the other part. -/
def issuing (t : Strand) : Mask :=
  let parked := t.shadow.foldl (fun m p => m ||| p.lanes) 0
  t.members &&& ~~~parked &&& ~~~((t.target.map (·.lanes)).getD 0)

/-! ## The issuing strand -/

/-- The issue point of an instruction: its warp, strand, block, launch, context and core. -/
structure Iss where
  w : Nat
  k : Nat
  warp : Warp
  st : Strand
  blk : Block
  lau : Launch
  ctx : Context
  deriving DecidableEq, Repr

/-- Strand `k` of warp `w` with all that stands over it. -/
def issAt (s : State) (w k : Nat) : Option Iss :=
  match mLook s.warps w with
  | none => none
  | some x =>
    match mLook x.strands k, mLook s.blocks x.block with
    | some t, some b =>
      match mLook s.launches b.launch, mLook s.ctxs b.ctx with
      | some l, some c => some ⟨w, k, x, t, b, l, c⟩
      | _, _ => none
    | _, _ => none

/-- The strand that `cur` names. -/
def issuer (s : State) : Option Iss :=
  match s.cur with
  | none => none
  | some (w, k) => issAt s w k

/-- The core of the issuing warp. -/
def Iss.core (i : Iss) : Nat := i.warp.core
/-- The context of the issuing warp. -/
def Iss.cid (i : Iss) : Nat := i.blk.ctx
/-- The lanes that issue. -/
def Iss.lanes (i : Iss) : Mask := issuing i.st

/-- COUNT of a clause header (R59). -/
def hdrCount (h : DWord) : Nat := (bitsAt h 56 4).toNat
/-- The address of the next header (R60). -/
def nextHeader (pc h : DWord) : DWord := pc + BitVec.ofNat 64 (8 * (hdrCount h + 2))
/-- The address of a strand's instruction: its slot, or the header (R60). -/
def pcOf (t : Strand) : DWord :=
  match t.slot with | none => t.pc | some n => t.pc + BitVec.ofNat 64 (8 * (n + 1))

/-- Where a strand stands after `n` slots from its current one (R60). -/
def stepSlots (n : Nat) (t : Strand) : Strand :=
  let j := t.slot.getD 0 + n
  let u : Strand := { t with wait := .none, held := none, failed := [], sent := [] }
  if j ≤ hdrCount t.hdr then { u with slot := some j } else { u with pc := nextHeader t.pc t.hdr, slot := none }

/-- Moving to a header. -/
def goto (pc : DWord) (t : Strand) : Strand :=
  { t with pc := pc, slot := none, wait := .none, held := none, failed := [], sent := [] }

/-- Merges the parts of a split strand when the re-executing part reaches the other's waiting point (R34); the lanes
that a `waitm` there has met stay met. -/
def mergeShadow (t : Strand) : Strand :=
  match t.target with
  | some p =>
    if p.pc = t.pc ∧ p.slot = t.slot then
      { t with target := none, wait := match p.wait with | .met m => .met m | _ => .none, held := p.held, failed := [],
               sent := [] }
    else t
  | none => t

/-- A strand whose re-executing part has parked whole again stands where its other part waits (R34). -/
def standBack (q : Part) (t : Strand) : Strand :=
  { t with pc := q.pc, slot := q.slot, hdr := q.hdr, wait := q.wait, held := q.held, failed := [], sent := [],
           target := none, idleAt := 0 }

/-- A strand of a warp, in the table or out of it, changed alike: held records (R306) and the parked one (R386). -/
def onEvery (f : Strand → Strand) (x : Warp) : Warp :=
  { x with strands := x.strands.map fun e => (e.1, f e.2)
           heldStrands := x.heldStrands.map f
           handler := x.handler.map fun h => { h with strand := f h.strand } }

/-- Continues the issuing strand past its instruction, which took `n` slots. -/
def advance (i : Iss) (n : Nat) : Act :=
  andThen (updStrand i.w i.k (fun t => mergeShadow (stepSlots n t))) bump

/-- Continues the issuing strand at a header. -/
def jump (i : Iss) (pc : DWord) : Act := andThen (updStrand i.w i.k (fun t => mergeShadow (goto pc t))) bump

/-- Continues a control transfer that is not taken at the next header (R61). -/
def fallThrough (i : Iss) : Act := jump i (nextHeader i.st.pc i.st.hdr)

/-- The strand waits at its instruction, for the reason R424 numbers and the registers `rs`, until something moves. -/
def stallOn (i : Iss) (reason : Nat) (rs : List Nat) : Act := look fun s =>
  updStrand i.w i.k (fun t => { t with idleAt := s.epoch, needs := rs, wait := match t.wait with
    | .none => .stall reason | .stall _ => .stall reason | x => x })
/-- The same, for no register. -/
def stall (i : Iss) (reason : Nat) : Act := stallOn i reason []

/-- The strand waits at its instruction and keeps what it has done so far. -/
def waitWith (i : Iss) (x : Wait) : Act := look fun s =>
  updStrand i.w i.k (fun t => { t with idleAt := s.epoch, wait := x })

/-! ## Names (R6) -/

/-- The logical thread name of a lane. -/
def nameOf (x : Warp) (launch b l : Nat) : ThreadName :=
  (mLook x.names l).getD (.ordinary launch b (32 * x.num + l))

/-- The 16-byte form of a name at +48 of a trap record (R384). -/
def nameBytes : ThreadName → List Byte
  | .ordinary la b t => bytesOfNat 4 la ++ bytesOfNat 2 0 ++ bytesOfNat 2 0 ++ bytesOfNat 4 b ++ bytesOfNat 4 t
  | .refilled la q n => bytesOfNat 4 la ++ bytesOfNat 2 1 ++ bytesOfNat 2 q ++ bytesOfNat 8 n

/-! ## Launch record fields (R337) -/

/-- `n` bytes of a record at offset `o`, little-endian. -/
def recAt (bs : List Byte) (o n : Nat) : Nat := ((bs.drop o).take n).foldr (fun b x => b.toNat + 256 * x) 0

def Launch.entry (l : Launch) : Nat := recAt l.bytes 0 8
def Launch.args (l : Launch) : Nat := recAt l.bytes 8 8
def Launch.width (l : Launch) (j : Nat) : Nat := recAt l.bytes (16 + j) 1
def Launch.flags (l : Launch) : Nat := recAt l.bytes 22 2
def Launch.blocksN (l : Launch) : Nat := recAt l.bytes 24 4
def Launch.threads (l : Launch) : Nat := recAt l.bytes 28 2
def Launch.cluster (l : Launch) : Nat := recAt l.bytes 30 1
def Launch.prio (l : Launch) : Nat := recAt l.bytes 31 1
def Launch.vregs (l : Launch) : Nat := recAt l.bytes 32 2
def Launch.sregs (l : Launch) : Nat := recAt l.bytes 34 2
def Launch.scratch (l : Launch) : Nat := recAt l.bytes 36 4
def Launch.arows (l : Launch) : Nat := recAt l.bytes 40 2
def Launch.acols (l : Launch) : Nat := recAt l.bytes 42 2
def Launch.tags (l : Launch) : Nat := recAt l.bytes 44 1
def Launch.wdog (l : Launch) : Nat := recAt l.bytes 45 1
def Launch.nstat0 (l : Launch) : Nat := recAt l.bytes 46 2
def Launch.scopeN (l : Launch) : Nat := recAt l.bytes 48 2
def Launch.part (l : Launch) : Nat := recAt l.bytes 50 1
def Launch.doneAt (l : Launch) : Nat := recAt l.bytes 56 8
def Launch.trap (l : Launch) : Nat := recAt l.bytes 64 8
def Launch.refillQ (l : Launch) : Nat := recAt l.bytes 72 2 % 1024
def Launch.hold (l : Launch) : Bool := l.flags % 2 == 1
def Launch.isSecure (l : Launch) : Bool := l.flags / 4 % 2 == 1
def Launch.trapnan (l : Launch) : Bool := l.flags / 8 % 2 == 1
def Launch.coop (l : Launch) : Bool := l.flags / 16 % 2 == 1
/-- Warps of a block (R11). -/
def Launch.warpsN (l : Launch) : Nat := (l.threads + 31) / 32

/-! ## Addresses and translation -/

/-- Bits 63:57 all equal bit 56 (R174). -/
def canonical (va : Nat) : Bool := decide (va < 2 ^ 56) || (decide (2 ^ 64 - 2 ^ 56 ≤ va) && decide (va < 2 ^ 64))

/-- The key of a frame of a tier (R391): DRAM of a die, LPDDR, host, peer device. -/
def tierKey (tier die peer frame : Nat) : Nat :=
  (if tier = 0 then die else if tier = 1 then 4 else if tier = 2 then 5 else 6 + peer) * 2 ^ 64 + frame

/-- Fields of a page-table entry (R391). -/
def pteV (e : DWord) : Bool := e.getLsbD 0
def pteLeaf (e : DWord) : Bool := e.getLsbD 1
def pteW (e : DWord) : Bool := e.getLsbD 2
def pteX (e : DWord) : Bool := e.getLsbD 3
def pteSec (e : DWord) : Bool := e.getLsbD 4
def pteUcs (e : DWord) : Bool := e.getLsbD 5
def pteC64 (e : DWord) : Bool := e.getLsbD 6
def pteDie (e : DWord) : Nat := (bitsAt e 7 2).toNat
def pteTier (e : DWord) : Nat := (bitsAt e 9 3).toNat
def pteFrame (e : DWord) : Nat := (bitsAt e 12 40).toNat * 4096
def ptePeer (e : DWord) : Nat := (bitsAt e 52 12).toNat
/-- The key of the frame an entry names. -/
def pteKey (e : DWord) : Nat := tierKey (pteTier e) (pteDie e) (ptePeer e) (pteFrame e)

/-- Bytes a leaf maps at a level (R390). -/
def pageBytes (level : Nat) : Nat := if level = 2 then 2 ^ 30 else if level = 1 then 2 ^ 21 else 4096

/-- A leaf's own fields keep R391 and R392 (the group rule of C64 stands in `c64Ok`). -/
def leafOk (e : DWord) (level : Nat) : Bool :=
  decide (level ≤ 2) && decide (pteTier e ≤ 3) && (decide (pteTier e = 3) || decide (ptePeer e = 0)) &&
  (decide (pteTier e = 0) || decide (pteDie e = 0)) && decide (pteFrame e % pageBytes level = 0) &&
  (!pteC64 e || decide (level = 0)) &&
  (if pteTier e = 0 then decide (pteFrame e + pageBytes level ≤ 2 ^ 36)
   else if pteTier e = 1 then decide (pteFrame e + pageBytes level ≤ 2 ^ 40) else true)

/-- A table entry's other fields are zero (R391). -/
def tableOk (e : DWord) (level : Nat) : Bool :=
  decide (0 < level) && decide (e &&& 0xFFF0000000000FFC = 0)

/-- A C64 entry stands in a whole group of 16 (R392). -/
def c64Ok (mem : List Host.Cell) (at_ : Nat) (e : DWord) : Bool :=
  let first := at_ / 128 * 128
  let e0 := BitVec.ofNat 64 (bytesAt mem first 8)
  decide (pteFrame e0 % 65536 = 0) &&
  (List.range 16).all fun j =>
    let x := BitVec.ofNat 64 (bytesAt mem (first + 8 * j) 8)
    decide (pteFrame x = pteFrame e0 + 4096 * j) &&
    decide (x &&& 0xFFF0000000000FFF = e &&& 0xFFF0000000000FFF)

/-- The end of a walk (R390 to R394). -/
inductive Walk where
  | leaf (e : DWord) (bytes : Nat)
  | absent
  | malformed (level : Nat)
  deriving DecidableEq, Repr

/-- The walk from level `n - 1` down; tables lie in the tier of the root (log entry 12). -/
def walkFrom (mem : List Host.Cell) (va : Nat) : Nat → Nat → Walk
  | 0, _ => .absent
  | n + 1, table =>
    let k := table + va / 2 ^ (12 + 9 * n) % 512 * 8
    let e := BitVec.ofNat 64 (bytesAt mem k 8)
    if !pteV e then .absent
    else if pteLeaf e then
      if leafOk e n && (!pteC64 e || c64Ok mem k e) then .leaf e (pageBytes n) else .malformed n
    else if tableOk e n then walkFrom mem va n (table / 2 ^ 64 * 2 ^ 64 + pteFrame e)
    else .malformed n

/-- The page table of a context, walked for a canonical address. -/
def walk (s : State) (c : Context) (va : Nat) : Walk := walkFrom s.mem va 5 (pteKey c.root)

/-- The TLB key of a page. -/
def tlbKey (cid va : Nat) : Nat := cid * 2 ^ 52 + va % 2 ^ 57 / 4096

/-- Translation on a core: its TLB first, then the walk (R393). -/
def translate (s : State) (core cid : Nat) (c : Context) (va : Nat) : Walk :=
  match mLook (coreOf s core).tlb (tlbKey cid va) with
  | some (e, n) => .leaf e n
  | none => walk s c va

/-- The physical key of an address under a leaf. -/
def keyUnder (e : DWord) (bytes va : Nat) : Nat := pteKey e + va % bytes

/-- Fills the TLB of a core (R393). -/
def fillTlb (core cid va : Nat) (e : DWord) (bytes : Nat) : Act :=
  updCore core fun x => { x with tlb := mIns x.tlb (tlbKey cid va) (e, bytes) }

/-- The kinds of access a page is checked for (R393). -/
inductive Access where
  | read | write | fetch
  deriving DecidableEq, Repr

/-- The ranges overlap. -/
def rangeHit (a n b m : Nat) : Bool := decide (a < b + m) && decide (b < a + n)
/-- Some byte lies in a region of a list. -/
def touchesAny (l : List (Nat × Nat)) (va n : Nat) : Bool := l.any fun r => rangeHit va n r.1 r.2

/-- A leaf is open to the context for an access (R393). -/
def leafAllowed (c : Context) (e : DWord) (a : Access) : Bool :=
  (match a with | .read => true | .write => pteW e | .fetch => pteX e) &&
  (c.secure || !pteSec e) && (decide (pteTier e ≠ 2) || c.hostTier) && (decide (pteTier e ≠ 3) || c.peerTier)

/-- The page allows a core's access of `n` bytes at the physical key `k`: R393, and none of the bytes belongs to another
partition (R186). -/
def permits (s : State) (core : Nat) (c : Context) (e : DWord) (k n : Nat) (a : Access) : Bool :=
  leafAllowed c e a &&
  (pteUcs e || decide (2 ≤ pteTier e) ||
    (match (coreOf s core).part with
     | none => true
     | some p => (mVals (s.parts.filter (fun x => decide (x.1 ≠ p)))).all fun q => !touchesAny q.ranges k n))

/-- The device's own access to a context's memory (records, save and diagnostic areas): the physical key, when mapped. -/
def ownKey (s : State) (c : Context) (va : Nat) : Option Nat :=
  if canonical va then
    match walk s c va with | .leaf e n => some (keyUnder e n va) | _ => none
  else none

/-- The leaf over an address allows the device's access for the context. -/
def ownAllowed (s : State) (c : Context) (va : Nat) (a : Access) : Bool :=
  canonical va && (match walk s c va with | .leaf e _ => leafAllowed c e a | _ => false)

/-- The device may write there: the page allows it, and no seal stands or is marked on it (R192, R193, R393). -/
def ownWritable (s : State) (c : Context) (va : Nat) : Bool :=
  ownAllowed s c va .write && !touchesAny (c.sealed ++ c.marks) va 1

/-- Where the device writes a byte: nowhere when it may not. -/
def writeKey (s : State) (c : Context) (va : Nat) : Option Nat := if ownWritable s c va then ownKey s c va else none
/-- Where the device reads a byte. -/
def readKey (s : State) (c : Context) (va : Nat) : Option Nat := if ownAllowed s c va .read then ownKey s c va else none

/-- Writes bytes of the device one by one at a virtual address; a byte that cannot be written is dropped. -/
def virtBytes (c : Context) (va : Nat) : List Byte → Act
  | [] => skip
  | b :: bs => andThen (fun s => match writeKey s c va with | some k => [.bytes k [b]] | none => [])
      (virtBytes c (va + 1) bs)

/-- Writes a record of the device at a virtual address; it replaces the uncorrectable words it covers (R400). -/
def writeVirt (c : Context) (va : Nat) (bs : List Byte) : Act :=
  andThen (virtBytes c va bs) fun s =>
    if s.bad.isEmpty then [] else
      [.bad (s.bad.filter fun y => match y with
        | .glob j => !((List.range bs.length).any fun q =>
            decide (q + 4 ≤ bs.length) && decide (writeKey s c (va + q) = some j))
        | _ => true)]

/-! ## Locations -/

/-- `n` bytes at a location, as one number. -/
def readLoc (s : State) (l : Loc) (n : Nat) : Nat :=
  match l with
  | .glob k => bytesAt s.mem k n
  | .scr b o => match mLook s.blocks b with | some x => bytesAt x.scratch o n | none => 0

/-- A write at a location; it clears the error mark of each word it replaces (R49, R400). -/
def writeLoc (l : Loc) (n x : Nat) : Act :=
  match l with
  | .glob k => fun s => .bytes k (bytesOfNat n x) ::
      (if s.bad.isEmpty then [] else [.bad (s.bad.filter (fun y => match y with
        | .glob j => !(decide (k ≤ j) && decide (j + 4 ≤ k + n)) | _ => true))])
  | .scr b o => andThen (updBlock b fun y => { y with scratch := putBytes y.scratch o n x }) (fun s =>
      if s.bad.isEmpty then [] else [.bad (s.bad.filter (fun y => match y with
        | .scr c j => !(decide (c = b) && decide (o ≤ j) && decide (j + 4 ≤ o + n)) | _ => true))])

/-- The bytes of two accesses overlap. -/
def locOverlap (a : Loc) (n : Nat) (b : Loc) (m : Nat) : Bool :=
  match a, b with
  | .glob x, .glob y => decide (x < y + m) && decide (y < x + n)
  | .scr c x, .scr d y => decide (c = d) && decide (x < y + m) && decide (y < x + n)
  | _, _ => false

/-- A location holds an uncorrectable word (R400). -/
def locBad (s : State) (l : Loc) (n : Nat) : Bool :=
  s.bad.any fun y => match y, l with
    | .glob j, .glob k => decide (j < k + n) && decide (k < j + 4)
    | .scr c j, .scr b o => decide (c = b) && decide (j < o + n) && decide (o < j + 4)
    | _, _ => false

/-- The device may write `n` bytes of the save area at `va`: the pages at both ends allow it, and no word there is
uncorrectable (R397). -/
def areaWritable (s : State) (c : Context) (va n : Nat) : Bool :=
  ownWritable s c va && ownWritable s c (va + n - 1) &&
    (s.bad.isEmpty || (List.range ((n + 3) / 4)).all fun q => (ownKey s c (va + 4 * q)).all fun k => !locBad s (.glob k) 4)

/-- Reads `n` bytes at a virtual address for the device; `none` where one cannot be read (R393, R400). -/
def readVirt (s : State) (c : Context) (va : Nat) : Nat → Option (List Byte)
  | 0 => some []
  | n + 1 => match readKey s c va, readVirt s c (va + 1) n with
    | some k, some bs => if locBad s (.glob k) 1 then none else some (mGet 0 s.mem k :: bs)
    | _, _ => none

/-! ## The trace stream (R425) -/

/-- Adds a record to the stream of a core whose trace unit is on. -/
def traceNote (core : Nat) (r : TraceRecord) : Act := fun s =>
  match (coreOf s core).tracer with
  | some t => if t.on then [.core core { coreOf s core with tracer := some { t with stream := t.stream ++ [r] } }] else []
  | none => []

/-- Start and stop conditions of a core's trace unit, as found in one cycle: stop has priority (R425). -/
def traceTurn (core : Nat) (start stop : Bool) : Act := fun s =>
  match (coreOf s core).tracer with
  | some t =>
    let on := if stop then false else start || t.on
    if on = t.on then [] else [.core core { coreOf s core with tracer := some { t with on := on } }]
  | none => []

/-- What `f` finds in the two conditions of a core's trace unit. -/
def traceTest (core : Nat) (f : TraceCond → Bool) : Act := look fun s =>
  match (coreOf s core).tracer with
  | some t => traceTurn core (f t.args.start) (f t.args.stop)
  | none => skip

/-- A PC comparator of a condition matches. -/
def pcHit (pc : DWord) (c : TraceCond) : Bool := c.pcs.any fun p => decide (pc &&& p.2 = p.1 &&& p.2)

/-! ## Pennants -/

/-- Raises pennants in `%nstat` of the warp and in `%bstat` of its block (R148, R151). -/
def raisePennants (w : Nat) (p : Byte) : Act :=
  if p = 0 then skip else look fun s =>
    match mLook s.warps w with
    | none => skip
    | some x =>
      andThen (traceTest x.core fun c => decide (c.pennants &&& p ≠ 0)) <|
      andThen (eff (.warp w { x with nstat := x.nstat ||| p.zeroExtend 32 }))
        (updBlock x.block fun b => { b with bstat := b.bstat ||| p })

/-! ## Completion records and termination -/

/-- The completion record of R339. -/
def completionBytes (status penn blocks : Nat) (fpc : DWord) : List Byte :=
  bytesOfNat 1 status ++ bytesOfNat 1 penn ++ bytesOfNat 2 0 ++ bytesOfNat 4 blocks ++ bytesOfNat 8 fpc.toNat

/-- DONE keeps R337 and lies in a page that can be written (R338). -/
def doneOk (s : State) (c : Context) (bs : List Byte) : Bool :=
  let d := recAt bs 56 8
  canonical d && decide (d % 16 = 0) && ownWritable s c d

/-- Bytes +1 to +15 of a completion record (R340). -/
def completionTail (status penn blocks : Nat) (fpc : DWord) : List Byte := (completionBytes status penn blocks fpc).drop 1

/-- A launch ends: bytes +1 to +15 of its completion record are committed, where DONE can be written; byte +0 and what
follows from it come with `finishLaunch` (R338, R340). -/
def beginRecord (c : Context) (id : Nat) (l : Launch) (status penn blocks : Nat) (fpc : DWord) : Act := look fun s =>
  andThen (if doneOk s c l.bytes then writeVirt c (l.doneAt + 1) (completionTail status penn blocks fpc) else skip)
    (eff (.launch id { l with stage := .finished, status := status,
                              doneKey := if doneOk s c l.bytes then ownKey s c l.doneAt else none }))

/-- The code of a cause (R382). -/
def Cause.code : Cause → Nat
  | .illop => 1 | .illenc => 2 | .illpair => 3 | .illopnd => 4 | .clause => 5 | .misalign => 6 | .prot => 7
  | .sealed => 8 | .rlock => 9 | .swconf => 10 | .fmtdiv => 11 | .mnan => 12 | .vinv => 13 | .region => 14
  | .wdog => 15 | .dataerr => 16 | .swtrap => 17 | .brk => 18 | .cont => 19 | .xlate => 20 | .double => 21

/-- The 64 bytes of a trap record (R384). -/
def trapBytes (t : Trap) : List Byte :=
  bytesOfNat 1 t.cause.code ++
  bytesOfNat 1 ((if t.deferred then 1 else 0) + (if t.header then 2 else 0) + (if t.engine then 4 else 0)) ++
  bytesOfNat 1 t.tag ++ bytesOfNat 5 0 ++ bytesOfNat 8 t.pc.toNat ++ bytesOfNat 8 t.dpc.toNat ++
  bytesOfNat 4 t.members.toNat ++ bytesOfNat 4 t.lanes.toNat ++ bytesOfNat 8 t.addr.toNat ++
  bytesOfNat 8 t.extra.toNat ++ nameBytes t.name

/-- A core made clean for its next work (R188): L1 and sharer records withdrawn, B store zeroed. -/
def cleanCore (id : Nat) : Act :=
  andThen (updCore id fun x => { x with ctx := none, bstore := [], bpages := [], icache := [], tlb := [] }) <|
  andThen (fun s => (s.dir.filter (fun e => decide (e.1 % 1024 = id))).map fun e => .share e.1 0) fun s =>
    if s.bad.isEmpty then [] else [.bad (s.bad.filter fun y => match y with | .bst c _ => decide (c ≠ id) | _ => true)]

/-- The pending launches of a core move to the rings of their contexts, in their order (R332). -/
def toRings (core : Nat) : Act := fun s =>
  (s.launches.filter fun e => decide (e.2.queue = some core)).map fun e => .launch e.1 { e.2 with queue := none }

/-- A core that falls idle joins the partition it has been told to, cleaned (R347, R188). -/
def joinIdle (id : Nat) : Act := look fun s =>
  match (coreOf s id).next with
  | none => skip
  | some p =>
    if s.blocks.any fun e => decide (e.2.place = .resident) && e.2.cores.contains id then skip
    else
      andThen (toRings id) <|
      andThen (cleanCore id) <|
      andThen (updCore id fun x => { x with part := some p, next := none }) <|
      andThen (fun s => s.parts.map fun e => .part e.1 { e.2 with cores := e.2.cores.filter (· ≠ id) }) fun s =>
        let y := (mLook s.parts p).getD {}
        [.part p { y with cores := y.cores ++ [id] }]

/-- The launches of a context that its end reports (R340). -/
def openLaunches (s : State) (cid : Nat) : List (Nat × Launch) :=
  s.launches.filter fun e => decide (e.2.ctx = cid) && decide (e.2.stage ≠ .finished)

/-- What runs of a context goes: the warps of its blocks `bs`, and its accesses in flight, discarded whole (log entry
13). -/
def stopRunning (cid : Nat) (bs : List (Nat × Block)) : Act := fun s =>
  (s.warps.filter (fun e => bs.any (fun b => decide (b.1 = e.2.block)))).map (fun e => .dropWarp e.1) ++
  (s.ops.filter (fun e => decide (e.2.ctx = cid))).map (fun e => .dropOp e.1) ++
  (s.engs.filter (fun e => decide (e.2.ctx = cid))).map (fun e => .dropEng e.1) ++
  [.locks (s.locks.filter fun l => decide (l.ctx ≠ cid))]

/-- The pennants a launch's completion record carries when its context ends: those of its blocks, ended or not. -/
def endPennants (bs : List (Nat × Block)) (e : Nat × Launch) : Byte :=
  bs.foldl (fun p b => if b.2.launch = e.1 then p ||| b.2.bstat else p) e.2.penn

/-- The completion record of one open launch of a context that ends, and the end of the launch (R340). -/
def cutLaunch (c : Context) (bs : List (Nat × Block)) (culprit : Option Nat) (fpc : DWord) (status : Nat)
    (e : Nat × Launch) : Act :=
  beginRecord c e.1 e.2 (if culprit = some e.1 then status else 2) (endPennants bs e).toNat e.2.doneBlocks
    (if culprit = some e.1 then fpc else 0)

/-- What a context held goes: its blocks, queues, page-pool pages and reported faults. -/
def freeHeld (cid : Nat) (bs : List (Nat × Block)) : Act := fun s =>
  bs.map (fun b => .dropBlock b.1) ++
  (s.queues.filter (fun q => decide (q.2.ctx = cid))).map (fun q => .dropQueue q.1) ++
  (s.pool.filter (fun p => decide (p.1 / 2 ^ 26 = cid))).map (fun p => .dropPage p.1) ++
  (s.faults.filter (fun f => decide (f.2.ctx = cid))).map (fun f => .dropFault f.1)

/-- The cores of a context's resident blocks fall idle, cleaned. -/
def freeCores (bs : List (Nat × Block)) : Act :=
  forAll (fun k => andThen (cleanCore k) (joinIdle k))
    ((bs.filter fun b => decide (b.2.place = .resident)).flatMap fun b => b.2.cores)

/-- What stays of a context that has been terminated: its page tables and its doorbell page (R341, R380). -/
def endedContext (c : Context) : Context :=
  { c with terminated := true, scopes := [], tape := [], tapeRun := none, sealed := [], marks := [], pins := [], groups := [] }

/-- The blocks of a context. -/
def blocksOf (s : State) (cid : Nat) : List (Nat × Block) := s.blocks.filter fun e => decide (e.2.ctx = cid)

/-- Ends a context, once (R380, R340): its warps stop, its writes in flight are discarded, the diagnostic record and the
completion records are written, and what it held is freed. `culprit` is the launch whose warp took the trap, with its
FPC; `status` is 3 for WDOG and 2 otherwise. -/
def terminate (cid : Nat) (diag : List Byte) (culprit : Option Nat) (fpc : DWord) (status : Nat) : Act := look fun s =>
  match (mLook s.ctxs cid).filter fun c => !c.terminated with
  | none => skip
  | some c =>
    let bs := blocksOf s cid
    andThen (stopRunning cid bs) <|
    andThen (writeVirt c c.diag.toNat diag) <|
    andThen (forAll (cutLaunch c bs culprit fpc status) (openLaunches s cid)) <|
    andThen (freeHeld cid bs) <|
    andThen (freeCores bs) <|
    andThen (updCtx cid endedContext) <|
    andThen (updMgmt fun m => { m with msi := mIns m.msi 3 (mGet 0 m.msi 3 + 1) }) bump

/-! ## Taking a trap -/

/-- The trap of a cause at the issuing strand's instruction, before the fields its rule names; LANES equals MEMBERS, as
for every trap that no guard of lanes bounds (R384). -/
def trapHere (i : Iss) (c : Cause) : Trap :=
  { cause := c, pc := pcOf i.st, dpc := pcOf i.st, hdrAt := i.st.pc, slot := i.st.slot,
    members := i.st.members, lanes := i.st.members, header := i.st.slot.isNone,
    name := nameOf i.warp i.blk.launch i.blk.b (lowLane i.st.members) }

/-- The warp with its handler strand in entry `k` at `trap`, and the strand it takes the place of parked (R385, R386). -/
def enterHandler (k : Nat) (st : Strand) (trap : Nat) (t : Trap) (y : Warp) : Warp :=
  { y with strands := mIns y.strands k { members := st.members, pc := BitVec.ofNat 64 trap, age := st.age, handler := true },
           handler := some ⟨{ st with wait := .none, trap := none, held := none }, k, t⟩ }

/-- Starts the handler strand for trap `t` of strand `k` (R385, R386): the record is written to the warp's slot, the
strand is parked, and H takes its entry at TRAP with its members, depth 0 and its age. -/
def deliver (w k : Nat) (t : Trap) : Act := look fun s =>
  match issAt s w k with
  | none => skip
  | some i =>
    if !areaWritable s i.ctx i.warp.recAt.toNat 64 then
      terminate i.cid (trapBytes { t with cause := .cont, addr := i.warp.recAt }) (some i.blk.launch) t.dpc 2
    else
      andThen (writeVirt i.ctx i.warp.recAt.toNat (trapBytes t)) <|
      andThen (traceNote i.core (.trap w t.cause t.name)) <|
      andThen (updWarp w (enterHandler k i.st i.lau.trap t)) bump

/-- Ends the context with DOUBLE (R388, R389): the second trap, then the record of the trap being handled. -/
def doubleTrap (i : Iss) (t : Trap) : Act :=
  terminate i.cid (trapBytes { t with cause := .double } ++ trapBytes ((i.warp.handler.map (·.trap)).getD t))
    (some i.blk.launch) t.pc 2

/-- TAKES A TRAP (R383, R385, R388): in a handler strand or one descended from it the context ends with DOUBLE; with
no handler it ends with the trap's own cause; while another handler of the warp runs the strand parks with the trap
pending; else the handler starts. A part of a split strand first waits for the other part (R34). -/
def takeTrap (i : Iss) (t : Trap) : Act :=
  if !i.st.shadow.isEmpty && i.st.target.isNone then stall i 11
  else if i.st.handler then doubleTrap i t
  else if i.lau.trap = 0 then terminate i.cid (trapBytes t) (some i.blk.launch) t.pc 2
  else if i.warp.handler.isSome then
    andThen (updStrand i.w i.k fun x => { x with trap := some t, wait := .none, held := none }) bump
  else deliver i.w i.k t

/-- Takes a trap of a decode rule: LANES equals MEMBERS (R81, R384). -/
def trapDecode (i : Iss) (c : Cause) (extra : Nat) : Act :=
  takeTrap i { trapHere i c with extra := BitVec.ofNat 64 extra }

/-- Takes a trap for some lanes, with their lowest lane's address (R382, R384). -/
def trapLanes (i : Iss) (c : Cause) (lanes : Mask) (addr extra : Nat) : Act :=
  takeTrap i
    { trapHere i c with
      lanes := lanes
      addr := BitVec.ofNat 64 addr
      extra := BitVec.ofNat 64 extra
      name := nameOf i.warp i.blk.launch i.blk.b (lowLane lanes) }

/-! ## Returning from a trap -/

/-- Where the parked strand stands after DPC (R387): past a KIND 3 instruction's literal; at the next header after a
last slot, a header or a control transfer, which a slot beyond every COUNT stands for until the header is read again
(R66). `n` is the number of slots of the instruction at DPC, 0 for a transfer. -/
def afterDpc (t : Trap) (n : Nat) (st : Strand) : Strand :=
  { st with pc := t.hdrAt, reread := true, wait := .none,
            slot := match t.slot with
              | none => some 16
              | some j => if n = 0 then some 16 else some (j + n) }

/-- Where the parked strand stands at DPC (R387). -/
def atDpc (t : Trap) (st : Strand) : Strand :=
  { st with pc := t.hdrAt, slot := t.slot, reread := t.slot.isSome, wait := .none }

/-- The strand-table entries in use on a sub-core (R18). -/
def usedEntries (s : State) (core sub : Nat) : List Nat :=
  s.warps.flatMap fun e =>
    if e.2.core = core ∧ e.2.sub = sub ∧ e.2.place = .resident then e.2.strands.map (·.1) else []
/-- The free entries of a sub-core. -/
def freeEntries (s : State) (core sub : Nat) : List Nat :=
  (List.range Config.strandEntries).filter fun k => !(usedEntries s core sub).contains k
/-- The `j`-th free choice of this step (log entry 3); `j = 0` is the step's own. -/
def choice (s : State) (j : Nat) : Nat := Config.choose (8 * s.tick + j)
/-- A member of a list, by a free choice. -/
def pick {α : Type} (xs : List α) (c : Nat) : Option α := xs[c % xs.length]?

/-- The first pending trap of a warp: the oldest strand that holds one (R385). -/
def pendingTrap (x : Warp) : Option (Nat × Trap) :=
  (x.strands.foldl (fun (b : Option (Nat × Nat × Trap)) e => match e.2.trap with
    | none => b
    | some t => match b with
      | some (_, age, _) => if e.2.age < age then some (e.1, e.2.age, t) else b
      | none => some (e.1, e.2.age, t)) none).map fun y => (y.1, y.2.2)

/-- Delivers the next pending trap of a warp in which no handler runs, with the members that its strand has by then
(R384, R385). -/
def nextTrap (w : Nat) : Act := look fun s =>
  match mLook s.warps w with
  | none => skip
  | some x => if x.handler.isSome then skip else
    match pendingTrap x with
    | some (k, t) =>
      let ms := ((mLook x.strands k).map (·.members)).getD t.members
      andThen (updStrand w k fun y => { y with trap := none }) (deliver w k { t with members := ms, lanes := t.lanes &&& ms })
    | none => skip

/-- RETURNS FROM A TRAP (R387, R406): the parked strand takes back its entry (or the returning strand's, where another
strand has taken its own since) with H's remaining lanes and stands where `f` puts it; then the next pending trap of
the warp is delivered. -/
def returnFromTrap (i : Iss) (h : Handler) (f : Strand → Strand) : Act :=
  andThen (fun s => updWarp i.w (fun x =>
    let free := decide (h.entry = i.k) || !(usedEntries s i.core i.warp.sub).contains h.entry
    { x with handler := none,
             strands := mIns (mDel x.strands i.k) (if free then h.entry else i.k)
               (f { h.strand with members := i.st.members }) }) s) <|
  andThen bump (nextTrap i.w)

end Sys2Proof.Machine
end

