-- ==== Sys2Proof/Machine/Flags.lean ====
section
/-! DEFINITION. The numeric status: pennants (08_arithmetic R148), rounding modes (R137), integer saturation (R98). -/

namespace Sys2Proof.Machine

/-- The pennants of R148. -/
def pIV : Byte := 0x01
def pDZ : Byte := 0x02
def pOV : Byte := 0x04
def pUF : Byte := 0x08
def pNX : Byte := 0x10
def pSAT : Byte := 0x20
def pMNAN : Byte := 0x40
def pMSAT : Byte := 0x80

/-- Raises `p` when `b` holds. -/
def pIf (b : Bool) (p : Byte) : Byte := if b then p else 0

/-- The rounding modes (R137). -/
inductive RMode where
  | rne | rz | rup | rdn | sr
  deriving DecidableEq, Repr

/-- Fields of `%nstat` (R147). -/
def nsRnd (w : Word) : RMode :=
  if w.getLsbD 9 then (if w.getLsbD 8 then .rdn else .rup) else (if w.getLsbD 8 then .rz else .rne)
def nsDaz (w : Word) : Bool := w.getLsbD 10
def nsFtz (w : Word) : Bool := w.getLsbD 11
def nsTrapNan (w : Word) : Bool := w.getLsbD 12
def nsTrapIv (w : Word) : Bool := w.getLsbD 13
def nsSeed (w : Word) : Word := w >>> 16

/-- The rounding mode of a float instruction (R68, R137): MOD 0 and 6 take `%nstat`. -/
def modeOf (md : Nat) (ns : Word) : RMode :=
  if md = 1 then .rne else if md = 2 then .rz else if md = 3 then .rup else if md = 4 then .rdn
  else if md = 5 then .sr else nsRnd ns

/-- What a float operation needs of `%nstat` and MOD (R137, R139, R143, R144). -/
structure FEnv where
  mode : RMode
  sat : Bool
  daz : Bool
  ftz : Bool
  deriving DecidableEq, Repr

def fEnv (md : Nat) (ns : Word) : FEnv := ⟨modeOf md ns, decide (md = 6), nsDaz ns, nsFtz ns⟩

/-- Whether an integer TYPE is signed (R97, R98). -/
def tySigned (t : Ty) : Bool :=
  match t with | .n32 => false | .n64 => false | .b32 => false | .b64 => false | _ => true

/-- Element width in bits of a TYPE (R97). -/
def tyBits (t : Ty) : Nat :=
  match t with
  | .i64 | .n64 | .b64 => 64 | .f16 | .bf16 | .f16x2 | .bf16x2 | .i16x2 => 16 | .i8x4 => 8 | _ => 32

/-- Elements of a TYPE in its register or pair (R97). -/
def tyElems (t : Ty) : Nat :=
  match t with | .f16x2 | .bf16x2 | .i16x2 => 2 | .i8x4 => 4 | _ => 1

/-- Values of a TYPE take a register pair (R97). -/
def tyWide (t : Ty) : Bool :=
  match t with | .i64 | .n64 | .b64 => true | _ => false

/-- The `n`-bit pattern `x` read as a number of the signedness. -/
def toInt (signed : Bool) (n x : Nat) : Int :=
  let y := x % 2 ^ n
  if signed && decide (2 ^ (n - 1) ≤ y) then (y : Int) - 2 ^ n else y

/-- The low `n` bits of a number. -/
def ofInt (n : Nat) (x : Int) : Nat := (x % (2 ^ n : Int)).toNat

/-- A result with the pennants its element raises. -/
structure Res where
  val : Nat
  pen : Byte := 0
  deriving DecidableEq, Repr

/-- R98: the exact result wrapped, or clamped to the range with SAT. -/
def intResult (sat signed : Bool) (n : Nat) (x : Int) : Res :=
  let lo : Int := if signed then -(2 ^ (n - 1) : Int) else 0
  let hi : Int := if signed then (2 ^ (n - 1) : Int) - 1 else (2 ^ n : Int) - 1
  if sat then
    if x < lo then ⟨ofInt n lo, pSAT⟩ else if hi < x then ⟨ofInt n hi, pSAT⟩ else ⟨ofInt n x, 0⟩
  else ⟨ofInt n x, 0⟩

end Sys2Proof.Machine
end

