-- ==== Sys2Proof/Machine/Float.lean ====
section
/-! DEFINITION. Float arithmetic (08_arithmetic R134 to R145, 09_ref_float_lane R154 to R162): formats, exact values,
ONE rounding, sums and products, quotient and root, comparison, conversion, and the approximate functions. -/

namespace Sys2Proof.Machine

/-- A binary format: exponent bits and fraction bits (R134). -/
structure Fmt where
  eb : Nat
  fb : Nat
  deriving DecidableEq, Repr

def fF32 : Fmt := ⟨8, 23⟩
def fF16 : Fmt := ⟨5, 10⟩
def fBF16 : Fmt := ⟨8, 7⟩

/-- The format of the elements of a float TYPE. -/
def tyFmt (t : Ty) : Fmt :=
  match t with | .f16 | .f16x2 => fF16 | .bf16 | .bf16x2 => fBF16 | _ => fF32

def Fmt.width (f : Fmt) : Nat := 1 + f.eb + f.fb
def Fmt.bias (f : Fmt) : Int := 2 ^ (f.eb - 1) - 1
/-- The exponent of the minimum subnormal. -/
def Fmt.emin (f : Fmt) : Int := 1 - f.bias - f.fb
/-- The weight exponent of the last bit of the largest binade. -/
def Fmt.qmax (f : Fmt) : Int := f.bias - f.fb
def Fmt.infBits (f : Fmt) : Nat := (2 ^ f.eb - 1) * 2 ^ f.fb
def Fmt.maxBits (f : Fmt) : Nat := f.infBits - 1
/-- The default NaN (R134, R135). -/
def Fmt.nanBits (f : Fmt) : Nat := f.infBits + 2 ^ (f.fb - 1)
def Fmt.signBit (f : Fmt) : Nat := 2 ^ (f.eb + f.fb)
def Fmt.signed (f : Fmt) (neg : Bool) (x : Nat) : Nat := if neg then f.signBit + x else x

/-- An exact value: NaN (signalling or quiet), infinity, or ± m × 2^e. -/
inductive FV where
  | nan (signalling : Bool)
  | inf (neg : Bool)
  | fin (neg : Bool) (m : Nat) (e : Int)
  deriving DecidableEq, Repr

/-- The value a pattern encodes; with DAZ a subnormal reads as a zero of its sign (R134, R143). -/
def fDecode (f : Fmt) (daz : Bool) (x : Nat) : FV :=
  let neg := decide (x / f.signBit % 2 = 1)
  let ex := x / 2 ^ f.fb % 2 ^ f.eb
  let fr := x % 2 ^ f.fb
  if ex = 2 ^ f.eb - 1 then (if fr = 0 then .inf neg else .nan (decide (fr < 2 ^ (f.fb - 1))))
  else if ex = 0 then (if daz then .fin neg 0 0 else .fin neg fr f.emin)
  else .fin neg (2 ^ f.fb + fr) (f.emin + ex - 1)

/-- The number of bits of `m` (0 for 0). -/
def bitLen (m : Nat) : Nat := if m = 0 then 0 else Nat.log2 m + 1

/-- `m × 2^e` cut at weight 2^q: the whole part, the remainder and its modulus `2^d` (`d = 0` when exact). -/
def cutAt (m : Nat) (e q : Int) : Nat × Nat × Nat :=
  if q ≤ e then (m * 2 ^ (e - q).toNat, 0, 0)
  else let d := (q - e).toNat; (m / 2 ^ d, m % 2 ^ d, d)

/-- Whether a cut magnitude rounds up (R137, R140); `more` says the exact value lies above the given digits. -/
def roundsUp (mode : RMode) (r : Nat) (neg : Bool) (c : Nat × Nat × Nat) (more : Bool) : Bool :=
  let (w, rem, d) := c
  match mode with
  | .rz => false
  | .rup => !neg && (decide (rem ≠ 0) || more)
  | .rdn => neg && (decide (rem ≠ 0) || more)
  | .rne => decide (d ≠ 0) && (decide (2 ^ d < 2 * rem) || (decide (2 ^ d = 2 * rem) && (more || decide (w % 2 = 1))))
  | .sr => decide (2 ^ (d + 32) ≤ rem * 2 ^ 32 + r * 2 ^ d)

/-- A magnitude `w × 2^q` with at most fb + 1 bits, encoded. -/
def fEncode (f : Fmt) (neg : Bool) (w : Nat) (q : Int) : Nat :=
  let (w, q) := if 2 ^ (f.fb + 1) ≤ w then (w / 2, q + 1) else (w, q)
  f.signed neg (if w < 2 ^ f.fb then w else (q - f.emin + 1).toNat * 2 ^ f.fb + (w - 2 ^ f.fb))

/-- What overflow delivers (R138). -/
def overflowBits (f : Fmt) (mode : RMode) (neg : Bool) : Nat :=
  f.signed neg (match mode with
    | .rz => f.maxBits | .rup => if neg then f.maxBits else f.infBits
    | .rdn => if neg then f.infBits else f.maxBits | _ => f.infBits)

/-- THE ONE ROUNDING (R137, R138, R140, R144): a nonzero magnitude m × 2^e (and a little more, when `more`) to the
format. `r` is the step of a stochastic rounding. -/
def fRound (f : Fmt) (mode : RMode) (ftz : Bool) (r : Nat) (neg : Bool) (m : Nat) (e : Int) (more : Bool) : Res :=
  let top := e + bitLen m - 1
  let q := max (top - f.fb) f.emin
  let c := cutAt m e q
  let w := c.1 + (if roundsUp mode r neg c more then 1 else 0)
  let inexact := decide (c.2.1 ≠ 0) || more
  let c2 := cutAt m e (top - f.fb)
  let w2 := c2.1 + (if roundsUp mode r neg c2 more then 1 else 0)
  let tiny := decide (top - f.fb < f.emin) &&
    decide (w2 < 2 ^ (f.emin + f.fb - (top - f.fb)).toNat)
  if decide (q > f.qmax) || (decide (q = f.qmax) && decide (2 ^ (f.fb + 1) ≤ w)) then
    ⟨overflowBits f mode neg, pOV ||| pNX⟩
  else if tiny && ftz then ⟨f.signed neg 0, pUF ||| pNX⟩
  else ⟨fEncode f neg w q, pIf (tiny && inexact) pUF ||| pIf inexact pNX⟩

/-- MOD 6 on a float result (R139). -/
def fSaturate (f : Fmt) (sat : Bool) (x : Res) : Res :=
  let isInf := decide (x.val % f.signBit = f.infBits)
  if sat && (isInf || decide (x.pen &&& pOV ≠ 0)) then
    ⟨if isInf then x.val / f.signBit * f.signBit + f.maxBits else x.val, (x.pen &&& ~~~pOV) ||| pSAT⟩
  else x

/-- A value delivered in a format: NaN as the default NaN, an infinity exact, a finite value rounded. -/
def fDeliver (f : Fmt) (v : FEnv) (r : Nat) (iv : Bool) (x : FV) : Res :=
  match x with
  | .nan _ => ⟨f.nanBits, pIf iv pIV⟩
  | .inf neg => fSaturate f v.sat ⟨f.signed neg f.infBits, pIf iv pIV⟩
  | .fin neg m e =>
    if m = 0 then ⟨f.signed neg 0, pIf iv pIV⟩ else fSaturate f v.sat (fRound f v.mode v.ftz r neg m e false)

/-- The exact product, and whether it is invalid (R136). -/
def fMul (a b : FV) : FV × Bool :=
  match a, b with
  | .nan s, .nan t => (.nan false, s || t)
  | .nan s, _ => (.nan false, s)
  | _, .nan t => (.nan false, t)
  | .inf p, .inf q => (.inf (p != q), false)
  | .inf p, .fin q m _ => if m = 0 then (.nan false, true) else (.inf (p != q), false)
  | .fin p m _, .inf q => if m = 0 then (.nan false, true) else (.inf (p != q), false)
  | .fin p m e, .fin q n d => (.fin (p != q) (m * n) (e + d), false)

/-- A finite value as an integer multiple of 2^g. -/
def scaledInt (neg : Bool) (m : Nat) (e g : Int) : Int :=
  let x : Int := m * 2 ^ (e - g).toNat
  if neg then -x else x

def FV.isNan : FV → Bool | .nan _ => true | _ => false
def FV.isSnan : FV → Bool | .nan s => s | _ => false
def FV.isInf (n : Bool) : FV → Bool | .inf m => m == n | _ => false
def FV.neg? : FV → Bool | .fin n _ _ => n | .inf n => n | .nan _ => false
def FV.flip : FV → FV | .fin n m e => .fin (!n) m e | .inf n => .inf (!n) | x => x
def FV.expOf : FV → Int | .fin _ m e => if m = 0 then 0 else e | _ => 0
def FV.intAt (g : Int) : FV → Int | .fin n m e => if m = 0 then 0 else scaledInt n m e g | _ => 0

/-- The exact sum of terms, and whether it is invalid. An exact zero takes the common sign of its terms; else it is
−0 toward −∞ and +0 otherwise (IEEE 754-2019; R140). -/
def fSum (mode : RMode) (ts : List FV) : FV × Bool :=
  let opposite := ts.any (FV.isInf true) && ts.any (FV.isInf false)
  if ts.any FV.isNan || opposite then (.nan false, ts.any FV.isSnan || opposite)
  else if ts.any (FV.isInf true) then (.inf true, false)
  else if ts.any (FV.isInf false) then (.inf false, false)
  else
    let g := ts.foldl (fun a t => min a t.expOf) 0
    let x := ts.foldl (fun a t => a + t.intAt g) (0 : Int)
    if x = 0 then
      (.fin (if ts.all FV.neg? then true else if ts.any FV.neg? then decide (mode = .rdn) else false) 0 0, false)
    else (.fin (decide (x < 0)) x.natAbs g, false)

/-- `round(exact(Σ aᵢ bᵢ + Σ c))` with the invalid cases of R136. -/
def fDot (f : Fmt) (v : FEnv) (r : Nat) (prods : List (FV × FV)) (adds : List FV) : Res :=
  let ps := prods.map fun p => fMul p.1 p.2
  let y := fSum v.mode (ps.map (·.1) ++ adds)
  fDeliver f v r (y.2 || ps.any (·.2)) y.1

/-- The exact quotient's leading digits, enough for any rounding: magnitude, exponent, and whether more follows. -/
def quotient (m : Nat) (e : Int) (n : Nat) (d : Int) : Nat × Int × Bool :=
  let k := bitLen n + 96
  (m * 2 ^ k / n, e - d - k, decide (m * 2 ^ k % n ≠ 0))

/-- `div` (R156). -/
def fDiv (f : Fmt) (v : FEnv) (r : Nat) (a b : FV) : Res :=
  match a, b with
  | .nan s, .nan t => ⟨f.nanBits, pIf (s || t) pIV⟩
  | .nan s, _ => ⟨f.nanBits, pIf s pIV⟩
  | _, .nan t => ⟨f.nanBits, pIf t pIV⟩
  | .inf _, .inf _ => ⟨f.nanBits, pIV⟩
  | .inf p, .fin q _ _ => fSaturate f v.sat ⟨f.signed (p != q) f.infBits, 0⟩
  | .fin p _ _, .inf q => ⟨f.signed (p != q) 0, 0⟩
  | .fin p m e, .fin q n d =>
    if n = 0 then (if m = 0 then ⟨f.nanBits, pIV⟩ else fSaturate f v.sat ⟨f.signed (p != q) f.infBits, pDZ⟩)
    else if m = 0 then ⟨f.signed (p != q) 0, 0⟩
    else let x := quotient m e n d
         fSaturate f v.sat (fRound f v.mode v.ftz r (p != q) x.1 x.2.1 x.2.2)

/-- The integer square root, bit by bit from bit `n - 1`. -/
def isqrtFrom (x : Nat) : Nat → Nat → Nat
  | 0, r => r
  | n + 1, r => isqrtFrom x n (if (r + 2 ^ n) * (r + 2 ^ n) ≤ x then r + 2 ^ n else r)
def isqrt (x : Nat) : Nat := isqrtFrom x (bitLen x / 2 + 1) 0

/-- Leading digits of √(m × 2^e). -/
def rootDigits (m : Nat) (e : Int) : Nat × Int × Bool :=
  let k : Nat := if (e % 2 = 0) then 200 else 201
  let x := m * 2 ^ k
  let r := isqrt x
  (r, (e - k) / 2, decide (r * r ≠ x))

/-- `sqrt` (R157, R158). -/
def fSqrt (f : Fmt) (v : FEnv) (r : Nat) (b : FV) : Res :=
  match b with
  | .nan s => ⟨f.nanBits, pIf s pIV⟩
  | .inf n => if n then ⟨f.nanBits, pIV⟩ else fSaturate f v.sat ⟨f.infBits, 0⟩
  | .fin n m e =>
    if m = 0 then ⟨f.signed n 0, 0⟩ else if n then ⟨f.nanBits, pIV⟩
    else let x := rootDigits m e; fSaturate f v.sat (fRound f v.mode v.ftz r false x.1 x.2.1 x.2.2)

/-- `rcp` (R157, R158). -/
def fRcp (f : Fmt) (v : FEnv) (r : Nat) (b : FV) : Res :=
  match b with
  | .fin n m _ => if m = 0 then fSaturate f v.sat ⟨f.signed n f.infBits, pDZ⟩ else fDiv f v r (.fin false 1 0) b
  | _ => fDiv f v r (.fin false 1 0) b

/-! ## Order -/

/-- Exact comparison of two values that are not NaN: `a < b`, with −0 = +0. -/
def fLess (a b : FV) : Bool :=
  match a, b with
  | .inf n, .inf m => n && !m
  | .inf n, _ => n
  | _, .inf m => !m
  | _, _ => let g := min a.expOf b.expOf; decide (a.intAt g < b.intAt g)

def fEqual (a b : FV) : Bool := !a.isNan && !b.isNan && !fLess a b && !fLess b a

/-- Float `min` and `max` (R101): the chosen operand bit for bit, −0 below +0, one NaN gives the other operand. -/
def fMinMax (f : Fmt) (wantMax daz : Bool) (x y : Nat) : Res :=
  let a := fDecode f daz x
  let b := fDecode f daz y
  let keep (v : FV) (z : Nat) : Nat := match v with
    | .fin n m _ => if m = 0 then f.signed n 0 else z % 2 ^ f.width | _ => z % 2 ^ f.width
  let iv := pIf (a.isSnan || b.isSnan) pIV
  if a.isNan && b.isNan then ⟨f.nanBits, iv⟩
  else if a.isNan then ⟨keep b y, iv⟩
  else if b.isNan then ⟨keep a x, iv⟩
  else
    let less := fLess a b || (fEqual a b && a.neg? && !b.neg?)
    if less != wantMax then ⟨keep a x, 0⟩ else ⟨keep b y, 0⟩

/-- Float `cmp` (R103): the outcome and IV. -/
def fCmp (rel : Nat) (a b : FV) : Bool × Bool :=
  let nan := a.isNan || b.isNan
  let sn := a.isSnan || b.isSnan
  match rel with
  | 0 => (fEqual a b, sn)
  | 1 => (!fEqual a b, sn)
  | 2 => (!nan && fLess a b, nan)
  | 3 => (!nan && !fLess b a, nan)
  | 4 => (!nan && fLess b a, nan)
  | 5 => (!nan && !fLess a b, nan)
  | 6 => (!nan, sn)
  | _ => (nan, sn)

/-! ## Conversions -/

/-- A finite magnitude rounded to an integer. -/
def roundInt (mode : RMode) (r : Nat) (neg : Bool) (m : Nat) (e : Int) : Nat × Bool :=
  let c := cutAt m e 0
  (c.1 + (if roundsUp mode r neg c false then 1 else 0), decide (c.2.1 ≠ 0))

/-- Float to integer (R106). -/
def fToInt (mode : RMode) (r : Nat) (signed : Bool) (n : Nat) (x : FV) : Res :=
  match x with
  | .nan _ => ⟨0, pIV⟩
  | .inf neg => intResult true signed n (if neg then -(2 ^ 70 : Int) else 2 ^ 70)
  | .fin neg m e =>
    let y := roundInt mode r neg m e
    let z := intResult true signed n (if neg then -(y.1 : Int) else y.1)
    ⟨z.val, z.pen ||| pIf (y.2 || decide (z.pen ≠ 0)) pNX⟩

/-- Integer to float (R106). -/
def intToF (f : Fmt) (v : FEnv) (r : Nat) (x : Int) : Res :=
  if x = 0 then ⟨0, 0⟩ else fSaturate f v.sat (fRound f v.mode v.ftz r (decide (x < 0)) x.natAbs 0 false)

/-- Float to float (R106): MOD 6 clips. -/
def fToF (f : Fmt) (v : FEnv) (r : Nat) (x : FV) : Res := fDeliver f v r x.isSnan x

/-- `ldexp` (R159). -/
def fLdexp (f : Fmt) (v : FEnv) (r : Nat) (x : FV) (k : Int) : Res :=
  match x with
  | .fin n m e => fDeliver f v r false (.fin n m (e + k))
  | _ => fDeliver f v r x.isSnan x

/-- `frnd` (R160): an integral value of the same format, with no pennant but IV. -/
def fIntegral (f : Fmt) (mode : RMode) (x : FV) : Res :=
  match x with
  | .nan s => ⟨f.nanBits, pIf s pIV⟩
  | .inf n => ⟨f.signed n f.infBits, 0⟩
  | .fin n m e =>
    let y := (roundInt mode 0 n m e).1
    if y = 0 then ⟨f.signed n 0, 0⟩ else ⟨(fRound f .rz false 0 n y 0 false).val, 0⟩

/-- `fcls` (R161): one-hot class of a pattern. -/
def fClass (f : Fmt) (x : Nat) : Nat :=
  match fDecode f false x with
  | .nan s => if s then 1 else 2
  | .inf n => if n then 4 else 512
  | .fin n m _ =>
    if m = 0 then (if n then 32 else 64)
    else if m < 2 ^ f.fb then (if n then 16 else 128) else (if n then 8 else 256)

/-! ## The approximate functions (R154, R157, R158)

Each is computed to far more digits than the format holds; the delivered value is that, or a neighbour chosen by the
free value `Config.approx`, never outside the bound of R157. -/

/-- Fraction bits of the working precision. -/
def wp : Nat := 256
/-- ln 2 and π to `wp` fraction bits: ln 2 = Σ 1/(k 2^k); π by Machin's formula. -/
def ln2Sum : Nat → Nat → Nat
  | 0, _ => 0
  | n + 1, k => 2 ^ wp / (k * 2 ^ k) + ln2Sum n (k + 1)
def ln2W : Nat := ln2Sum 260 1
/-- arctan(1/x) × 2^wp, `n` terms from the k-th. -/
def arctanInv (x : Nat) : Nat → Nat → Int
  | 0, _ => 0
  | n + 1, k => (if k % 2 = 0 then (1 : Int) else -1) * ((2 ^ wp / ((2 * k + 1) * x ^ (2 * k + 1)) : Nat) : Int) +
      arctanInv x n (k + 1)
def piW : Nat := (16 * arctanInv 5 60 0 - 4 * arctanInv 239 20 0).toNat

/-- Σ tₖ with t₀ = 1 and tₖ₊₁ = tₖ × x / ((a k + b)(a k + c)), in fixed point; `alt` alternates the signs. -/
def series (x : Nat) (alt : Bool) (d : Nat → Nat) : Nat → Nat → Nat → Int
  | 0, _, _ => 0
  | n + 1, k, t =>
    (if alt && decide (k % 2 = 1) then -(t : Int) else t) + series x alt d n (k + 1) (t * x / 2 ^ wp / d k)

/-- 2^f for f in [0, 1) in fixed point. -/
def exp2Frac (x : Nat) : Nat := (series (x * ln2W / 2 ^ wp) false (fun k => k + 1) 64 0 (2 ^ wp)).toNat

/-- Binary digits of log₂ y, y in [1, 2) in fixed point: `n` of them. -/
def log2Digits : Nat → Nat → Nat
  | 0, _ => 0
  | n + 1, y =>
    let z := y * y / 2 ^ wp
    if 2 ^ (wp + 1) ≤ z then 2 ^ n + log2Digits n (z / 2) else log2Digits n z

/-- A fixed-point value times m × 2^e. -/
def scaleFix (x : Nat) (m : Nat) (e : Int) : Nat × Int := (x * m, e - wp)

/-- m × 2^e in fixed point, cut. -/
def toFix (m : Nat) (e : Int) : Nat := (cutAt m e (-(wp : Int))).1

/-- sin(π x) for 0 < x ≤ 1/2 as digits and exponent, keeping relative precision. -/
def sinDigits (m : Nat) (e : Int) : Nat × Int :=
  let y := toFix m e * piW / 2 ^ wp
  let s := (series (y * y / 2 ^ wp) true (fun k => (2 * k + 2) * (2 * k + 3)) 48 0 (2 ^ wp)).toNat
  scaleFix (s * piW / 2 ^ wp) m e

/-- tanh x for x > 0 as digits and exponent. -/
def tanhDigits (m : Nat) (e : Int) : Nat × Int :=
  if 20 * 2 ^ wp ≤ toFix m e then (2 ^ 60 - 1, -60)
  else
    let y := toFix m e
    let z := y * y / 2 ^ wp
    let sh := (series z false (fun k => (2 * k + 2) * (2 * k + 3)) 90 0 (2 ^ wp)).toNat
    let ch := (series z false (fun k => (2 * k + 1) * (2 * k + 2)) 90 0 (2 ^ wp)).toNat
    scaleFix (sh * 2 ^ wp / ch) m e

/-- Delivers an approximation of ± m × 2^e: the nearest value, or by the free value a neighbour within `ulps` of the
exact one; NX, and UF when tiny (R157). `one` keeps the magnitude at most 1 (`tanh`, `sinpi`, `cospi`). -/
def fApprox (f : Fmt) (v : FEnv) (op bits ulps : Nat) (one neg : Bool) (m : Nat) (e : Int) : Res :=
  let top := e + bitLen m - 1
  let q := max (top - f.fb) f.emin
  let near := fRound f .rne false 0 neg m e true
  if near.pen &&& pOV ≠ 0 then fSaturate f v.sat near
  else
    let w := near.val % f.signBit
    let pick := Config.approx op (f.eb * 64 + f.fb) bits % (2 * ulps + 1)
    let w' := w + pick - ulps
    let dist := match fDecode f false w' with
      | .fin _ n d => let g := min d e; (scaledInt false n d g - scaledInt false m e g).natAbs
      | _ => 0
    let g := match fDecode f false w' with | .fin _ _ d => min d e | _ => e
    let ok := decide (w' < f.infBits) && decide (ulps ≤ w + pick) && decide (dist < ulps * 2 ^ (q - g).toNat) &&
      (!one || decide (w' ≤ f.bias.toNat * 2 ^ f.fb))
    let z := if ok then w' else w
    let tiny := decide (z < 2 ^ f.fb)
    fSaturate f v.sat (if tiny && v.ftz then ⟨f.signed neg 0, pUF ||| pNX⟩
      else ⟨f.signed neg z, pNX ||| pIf tiny pUF⟩)

/-- `rsqrt`. -/
def fRsqrt (f : Fmt) (v : FEnv) (bits : Nat) (b : FV) : Res :=
  match b with
  | .nan s => ⟨f.nanBits, pIf s pIV⟩
  | .inf n => if n then ⟨f.nanBits, pIV⟩ else ⟨0, 0⟩
  | .fin n m e =>
    if m = 0 then fSaturate f v.sat ⟨f.signed n f.infBits, pDZ⟩
    else if n then ⟨f.nanBits, pIV⟩
    else
      let x := rootDigits m e
      let y := quotient 1 0 x.1 x.2.1
      if !x.2.2 && !y.2.2 && decide (x.1 = 2 ^ Nat.log2 x.1) then fDeliver f v 0 false (.fin false y.1 y.2.1)
      else fApprox f v 0x21 bits 1 false false y.1 y.2.1

/-- `exp2`. -/
def fExp2 (f : Fmt) (v : FEnv) (bits ulps : Nat) (b : FV) : Res :=
  match b with
  | .nan s => ⟨f.nanBits, pIf s pIV⟩
  | .inf n => if n then ⟨0, 0⟩ else fSaturate f v.sat ⟨f.infBits, 0⟩
  | .fin n m e =>
    if m = 0 then ⟨f.bias.toNat * 2 ^ f.fb, 0⟩
    else
      let c := cutAt m e 0
      if 12 < bitLen c.1 then
        (if n then fRound f .rne v.ftz 0 false 1 (-4096) true
         else fSaturate f v.sat ⟨f.infBits, pOV ||| pNX⟩)
      else if c.2.1 = 0 then
        fSaturate f v.sat (fRound f .rne v.ftz 0 false 1 (if n then -(c.1 : Int) else c.1) false)
      else
        let fr := c.2.1 * 2 ^ wp / 2 ^ c.2.2
        let k : Int := if n then -(c.1 : Int) - 1 else c.1
        let y := exp2Frac (if n then 2 ^ wp - fr else fr)
        fApprox f v 0x23 bits ulps false false y (k - wp)

/-- `log2`. -/
def fLog2 (f : Fmt) (v : FEnv) (bits ulps : Nat) (b : FV) : Res :=
  match b with
  | .nan s => ⟨f.nanBits, pIf s pIV⟩
  | .inf n => if n then ⟨f.nanBits, pIV⟩ else fSaturate f v.sat ⟨f.infBits, 0⟩
  | .fin n m e =>
    if m = 0 then fSaturate f v.sat ⟨f.signed true f.infBits, pDZ⟩
    else if n then ⟨f.nanBits, pIV⟩
    else
      let k := e + bitLen m - 1
      if m = 2 ^ (bitLen m - 1) then
        (if k = 0 then ⟨0, 0⟩ else fDeliver f v 0 false (.fin (decide (k < 0)) k.natAbs 0))
      else
        let y := (cutAt m (-(bitLen m : Int) + 1) (-(wp : Int))).1
        let x : Int := k * 2 ^ 112 + log2Digits 112 y
        fApprox f v 0x24 bits ulps false (decide (x < 0)) x.natAbs (-112)

/-- `sinpi` and `cospi`: reduction to a quarter turn is exact. -/
def fTrig (f : Fmt) (v : FEnv) (op bits ulps : Nat) (cosine : Bool) (b : FV) : Res :=
  match b with
  | .nan s => ⟨f.nanBits, pIf s pIV⟩
  | .inf _ => ⟨f.nanBits, pIV⟩
  | .fin n m e =>
    let oneB := f.bias.toNat * 2 ^ f.fb
    if m = 0 then (if cosine then ⟨oneB, 0⟩ else ⟨f.signed n 0, 0⟩)
    else
      let c := cutAt m e 0                       -- |b| = c.1 + c.2.1 / 2^d
      let d := c.2.2
      let odd := decide (c.1 % 2 = 1)
      if c.2.1 = 0 then (if cosine then ⟨f.signed odd oneB, 0⟩ else ⟨f.signed n 0, 0⟩)
      else if 2 * c.2.1 = 2 ^ d then (if cosine then ⟨0, 0⟩ else ⟨f.signed (odd != n) oneB, 0⟩)
      else
        let upper := decide (2 ^ d < 2 * c.2.1)
        -- sin(π t) for t in (0,1): fold to (0, 1/2); cos(π t) = sin(π (1/2 − t))
        let t := if cosine then (if upper then 2 * c.2.1 - 2 ^ d else 2 ^ d - 2 * c.2.1)
                 else (if upper then 2 * (2 ^ d - c.2.1) else 2 * c.2.1)
        let x := sinDigits t (-(d : Int) - 1)
        let neg := if cosine then odd != upper else odd != n
        fApprox f v op bits ulps true neg x.1 x.2

/-- `tanh`. -/
def fTanh (f : Fmt) (v : FEnv) (bits ulps : Nat) (b : FV) : Res :=
  match b with
  | .nan s => ⟨f.nanBits, pIf s pIV⟩
  | .inf n => ⟨f.signed n (f.bias.toNat * 2 ^ f.fb), 0⟩
  | .fin n m e =>
    if m = 0 then ⟨f.signed n 0, 0⟩
    else let x := tanhDigits m e; fApprox f v 0x27 bits ulps true n x.1 x.2

/-! ## The stochastic source (R141, R142) -/

/-- One Galois step. -/
def srNext (st : Word) : Word := (st >>> 1) ^^^ (if st.getLsbD 0 then 0x80200003 else 0)

/-- The seeding function. -/
def srSeed (w : DWord) (seed k : Word) : Word :=
  let hi : Word := (w >>> 32).truncate 32
  let h : Word := w.truncate 32 ^^^ hi.rotateLeft 16 ^^^ (seed * 0x00010001) ^^^ k
  let h := h * 0x9E3779B1
  let h := h ^^^ (h >>> 16)
  if h = 0 then 1 else h

end Sys2Proof.Machine
end

