-- ==== Sys2Proof/Machine/Operands.lean ====
section
/-! DEFINITION. Operands: registers, predicates and special registers (03_registers R42 to R47), guards, the four
kinds of source B (04_encoding R68), routed sources (07_lane_routing R124 to R128), the operand checks (R42, R69,
R78), the scoreboard and the rules of continuations (02 R22 to R27), and what an open region tracks (19 R300). -/

namespace Sys2Proof.Machine

/-! ## Registers -/

def vR (x : Warp) (r l : Nat) : Word := mGet 0 x.v (32 * r + l)
def sR (x : Warp) (r : Nat) : Word := mGet 0 x.s r
/-- p7 and q7 read true (R43). -/
def pR (x : Warp) (n l : Nat) : Bool := decide (n = 7) || hasLane (mGet 0 x.p n) l
def qR (x : Warp) (n : Nat) : Bool := decide (n = 7) || x.q.getLsbD n
def setV (x : Warp) (r l : Nat) (a : Word) : Warp := { x with v := mPut 0 x.v (32 * r + l) a }
def setS (x : Warp) (r : Nat) (a : Word) : Warp := { x with s := mPut 0 x.s r a }
/-- A write of p7 or q7 is discarded (R43). -/
def setP (x : Warp) (n l : Nat) (b : Bool) : Warp :=
  if n = 7 then x else
    { x with p := mPut 0 x.p n (if b then mGet 0 x.p n ||| laneBit l else mGet 0 x.p n &&& ~~~laneBit l) }
def setQ (x : Warp) (n : Nat) (b : Bool) : Warp :=
  if n = 7 then x else { x with q := if b then x.q ||| (1 : BitVec 8) <<< n else x.q &&& ~~~((1 : BitVec 8) <<< n) }

/-- A register or even pair as one value (R57: the first register holds the low word). -/
def vVal (x : Warp) (wide : Bool) (r l : Nat) : Nat :=
  if wide then (vR x r l).toNat + 2 ^ 32 * (vR x (r + 1) l).toNat else (vR x r l).toNat
def sVal (x : Warp) (wide : Bool) (r : Nat) : Nat :=
  if wide then (sR x r).toNat + 2 ^ 32 * (sR x (r + 1)).toNat else (sR x r).toNat
def setVal (x : Warp) (wide : Bool) (r l n : Nat) : Warp :=
  if wide then setV (setV x r l (BitVec.ofNat 32 n)) (r + 1) l (BitVec.ofNat 32 (n / 2 ^ 32))
  else setV x r l (BitVec.ofNat 32 n)
def setSVal (x : Warp) (wide : Bool) (r n : Nat) : Warp :=
  if wide then setS (setS x r (BitVec.ofNat 32 n)) (r + 1) (BitVec.ofNat 32 (n / 2 ^ 32))
  else setS x r (BitVec.ofNat 32 n)

/-! ## Special registers (R46, R47) -/

/-- W of a lane (R16). -/
def workId (lau : Launch) (b num l : Nat) : Nat := (l ||| num <<< 5 ||| b <<< (5 + lau.width 1)) % 2 ^ 64

/-- The outstanding counters as `%ctr` packs them. -/
def ctrWord (x : Warp) : Nat := x.ld + x.st * 2 ^ 6 + x.cp * 2 ^ 12 + x.tl * 2 ^ 18

/-- `%cycle` of a core. -/
def cycleOf (s : State) (core : Nat) : Nat := (s.now + (coreOf s core).extra) % 2 ^ 64

/-- The value of special register `n` for a lane. -/
def special (s : State) (i : Iss) (n l : Nat) : Nat :=
  match n with
  | 448 => workId i.lau i.blk.b i.warp.num l
  | 449 => l
  | 450 => i.warp.num
  | 451 => i.blk.b
  | 452 => i.core
  | 453 => i.core / Config.coresPerDie
  | 454 => i.k
  | 455 => i.st.members.toNat
  | 456 => i.warp.nstat.toNat
  | 457 => i.blk.bstat.toNat
  | 458 => i.blk.cdone.toNat
  | 459 => ctrWord i.warp
  | 460 => i.warp.tshape.toNat
  | 461 => cycleOf s i.core
  | 462 => i.blk.launch % 2 ^ 32
  | _ => if i.st.handler then i.warp.recAt.toNat else 0

/-- The special registers of 64 bits. -/
def specialIs64 (n : Nat) : Bool := n == 448 || n == 458 || n == 461 || n == 463

/-! ## Guards -/

/-- The issuing lanes whose lane guard is true (R57). -/
def guardMask (i : Iss) (gp : BitVec 3) (gn : Bool) : Mask :=
  i.lanes &&& maskOf (fun l => pR i.warp gp.toNat l != gn)
/-- The scalar guard. -/
def guardScalar (i : Iss) (gp : BitVec 3) (gn : Bool) : Bool := qR i.warp gp.toNat != gn

/-! ## Routes -/

/-- Route entry `e` of the clause header (R59). -/
def routeByte (i : Iss) (e : Nat) : Nat := (bitsAt i.st.hdr (40 - 8 * e) 8).toNat
/-- A selected entry is legal (R130). -/
def routeOk (i : Iss) (e : BitVec 2) : Bool :=
  decide (e = 0) ||
    (let y := routeByte i e.toNat
     decide (y / 32 ≠ 7) && !(decide (y / 32 = 6) && decide (y % 32 ≠ 0)))
/-- The source lane of a reading lane (R125). -/
def routeLane (i : Iss) (e l : Nat) : Option Nat :=
  let y := routeByte i e
  let a := y % 32
  match y / 32 with
  | 0 => some ((l + a) % 32)
  | 1 => if l + a ≤ 31 then some (l + a) else none
  | 2 => if a ≤ l then some (l - a) else none
  | 3 => some a
  | 4 => some (l ^^^ a)
  | 5 => some ((vR i.warp a l).toNat % 32)
  | _ => some (31 - l)
/-- route(X, e, L) (R126). -/
def routed (i : Iss) (e : BitVec 2) (own wide : Bool) (r l : Nat) : Nat :=
  if e = 0 then vVal i.warp wide r l
  else
    let fill := if own then vVal i.warp wide r l else 0
    match routeLane i e.toNat l with
    | some j => if hasLane i.st.members j then vVal i.warp wide r j else fill
    | none => fill
/-- The member lanes whose words the lanes `g` read through an entry (R129). -/
def routeLanes (i : Iss) (e : BitVec 2) (own : Bool) (g : Mask) : Mask :=
  if e = 0 then g
  else (lanesIn g).foldl (fun m l =>
    let fill := if own then laneBit l else 0
    m ||| (match routeLane i e.toNat l with
      | some j => if hasLane i.st.members j then laneBit j else fill
      | none => fill)) 0
/-- The index register a route reads (R126). -/
def routeReads (i : Iss) (e : BitVec 2) : List Nat :=
  if e = 0 then [] else let y := routeByte i e.toNat; if y / 32 = 5 then [y % 32] else []

/-! ## The checks of register fields (R42, R70, R78) -/

/-- `n` vector registers from `r`: a multiple of `n`, within the allocation. -/
def vOk (i : Iss) (r n : Nat) : Bool := decide (r % n = 0) && decide (r + n ≤ i.warp.alloc)
/-- `n` scalar registers from `r`: a multiple of `n`, within SREGS. -/
def sOk (i : Iss) (r n : Nat) : Bool := decide (r % n = 0) && decide (r + n ≤ i.lau.sregs) && decide (r < 384)
/-- A predicate field (R69). -/
def pOk (r : Nat) : Bool := decide (r < 8)
/-- Source B of the V form under KIND 1 (R47). -/
def specOk (i : Iss) (r : Nat) (wide : Bool) : Bool :=
  if r < 384 then sOk i r (if wide then 2 else 1) else decide (448 ≤ r) && decide (r ≤ 463)
def span (wide : Bool) : Nat := if wide then 2 else 1

/-- Source B of a V-form instruction for a lane. -/
def srcB (s : State) (i : Iss) (f : VFields) (wide : Bool) (l : Nat) : Nat :=
  match f.kind with
  | .vec => routed i f.rb f.own wide f.b.toNat l
  | .scal =>
    if f.b.toNat < 384 then sVal i.warp wide f.b.toNat
    else let x := special s i f.b.toNat l; if wide then x else x % 2 ^ 32
  | .imm => ((f.b ++ f.c).signExtend 64).toNat % (if wide then 2 ^ 64 else 2 ^ 32)
  | .lit x => if wide then x.toNat else x.toNat % 2 ^ 32

/-- Source B of an S-form instruction. -/
def srcS (i : Iss) (f : VFields) (wide : Bool) : Nat :=
  match f.kind with
  | .imm => ((f.b ++ f.c).signExtend 64).toNat % (if wide then 2 ^ 64 else 2 ^ 32)
  | .lit x => if wide then x.toNat else x.toNat % 2 ^ 32
  | _ => sVal i.warp wide f.b.toNat

/-- Slots an instruction takes (R63). -/
def kindSlots (k : Kind) : Nat := match k with | .lit _ => 2 | _ => 1

/-! ## What an instruction reads and writes -/

/-- The registers an instruction names, whether it takes a place in the lane's memory order (R27), and whether the
running part of a split strand waits before it (R33). -/
structure Uses where
  vr : List Nat := []
  vw : List Nat := []
  pr : List Nat := []
  pw : List Nat := []
  sr : List Nat := []
  sw : List Nat := []
  mem : Bool := false
  shadow : Bool := false
  /-- `join` and `joinp` wait for each source by its own arm (R23), not under R25. -/
  byArm : Bool := false
  /-- The lanes in which each register of `vr` is read, where they are not the lanes the guard names (R129). -/
  vm : List (Nat × Mask) := []
  /-- Predicates of `pr` that are read as operands only, in the guarded lanes: the rest are guards, read in every lane. -/
  po : List Nat := []
  /-- The scalar guard is true; a lane-guarded instruction, which acts where some lane's guard is true, has it false. -/
  act : Bool := true
  deriving DecidableEq, Repr

/-- Uses of an instruction with a scalar guard, which reads its registers only where the guard is true (R43). -/
def Uses.on (u : Uses) (b : Bool) : Uses := { u with act := b }
def regs (r : Nat) (wide : Bool) : List Nat := if wide then [r, r + 1] else [r]
def spanRegs (r n : Nat) : List Nat := (List.range n).map (r + ·)
/-- The guard predicate of a lane guard is read (p7 needs no reading). -/
def guardReads (gp : BitVec 3) : List Nat := if gp = 7 then [] else [gp.toNat]
/-- Operand predicates that are not the guard as well. -/
def onlyOperands (gp : BitVec 3) (ps : List Nat) : List Nat := ps.filter fun n => !(guardReads gp).contains n

/-! ## The scoreboard -/

/-- Width of an element of a tensor FORMAT in bits (R227), 14 being E8M0. -/
def nBits (fmt : Nat) : Nat :=
  match fmt with | 2 | 3 | 5 => 6 | 4 => 4 | 6 | 7 | 11 => 16 | 9 | 12 => 32 | 13 => 64 | _ => 8

/-- The box sizes below RANK. -/
def Shape.ext (sh : Shape) : List Nat := sh.box.take sh.rank
/-- Bytes of a box in its local layout (R228). -/
def dataBytes (sh : Shape) : Nat := (sh.ext.foldl (· * ·) 1 * nBits sh.fmt + 7) / 8
/-- The box counted in scale blocks (R249). -/
def scaleBox (sh : Shape) : List Nat :=
  match sh.ext with
  | a :: b :: r => a / 32 :: b / 32 :: r
  | a :: r => a / 32 :: r
  | [] => []
/-- Scale bytes a copy moves with its box (R252). -/
def scaleBytes (sh : Shape) : Nat := if sh.scaled then (scaleBox sh).foldl (· * ·) 1 else 0
/-- The least multiple of `n` at or above `x`. -/
def roundUp (x n : Nat) : Nat := (x + n - 1) / n * n
/-- Where the scales of a box at local offset `o` begin (R252). -/
def scaleStart (sh : Shape) (o : Nat) : Nat := roundUp (o + dataBytes sh) 16
/-- Bytes of the local range of a copy at offset `o`. -/
def localBytes (sh : Shape) (o : Nat) : Nat :=
  if sh.scaled then scaleStart sh o + scaleBytes sh - o else dataBytes sh

/-- Lanes of vector register `r` of a warp with a write in flight (R54, R233, R280). -/
def pendingV (s : State) (w r : Nat) : Mask :=
  let fromOps := s.ops.foldl (fun m e =>
    if e.2.w = w then
      match e.2.kind with
      | .load | .atom _ true | .ald =>
        e.2.units.foldl (fun m u => if !u.done && (decide (u.reg = r) || (decide (u.n = 8) && decide (u.reg + 1 = r)))
          then m ||| laneBit u.lane else m) m
      | _ => m
    else m) (0 : Mask)
  s.engs.foldl (fun m e =>
    if e.2.w = w then
      match e.2.kind with
      | .load sh _ _ dest => if dest.any (fun d => match d with
          | .reg v o => decide (v = w) && decide (o / 128 ≤ r) && decide (r < o / 128 + (localBytes sh o + 127) / 128) | _ => false)
          then ~~~(0 : Mask) else m
      | .tread _ _ n _ reg => if decide (reg ≤ r) && decide (r < reg + n) then ~~~(0 : Mask) else m
      | _ => m
    else m) fromOps

/-- Scalar register `r` of a warp has a write in flight (R284, R286). -/
def pendingS (s : State) (w r : Nat) : Bool :=
  s.engs.any fun e => decide (e.2.w = w) && (match e.2.kind with
    | .stat _ _ reg => decide (reg ≤ r) && decide (r < reg + 8)
    | .pin _ reg => decide (reg = r)
    | _ => false)

/-! ## Arms and continuations -/

/-- The arms a strand carries, innermost first (R21): at most as many as there are forks. -/
def armChain (x : Warp) : Nat → Option (Nat × Bool) → List (Nat × Bool)
  | 0, _ => []
  | _ + 1, none => []
  | n + 1, some a => a :: (match mLook x.forks a.1 with | some f => armChain x n f.outer | none => [])
def armsOf (x : Warp) (t : Strand) : List (Nat × Bool) := armChain x (x.forks.length + 1) t.arm

def armAt (f : Fork) (side : Bool) : Arm := if side then f.e else f.t
def setArm (f : Fork) (side : Bool) (a : Arm) : Fork := if side then { f with e := a } else { f with t := a }

/-- An arm has retired (R21, R29). -/
def armDone (a : Arm) : Bool := decide (a.left = 0)
/-- An arm has hoisted register `r` (R22): every lane is covered by a hoist, by its end or by exit, and no write to it
is in flight for a lane still running. -/
def hoistedV (s : State) (w : Nat) (a : Arm) (r : Nat) : Bool :=
  decide (a.left &&& ~~~(mGet 0 a.hoistV r) = 0) && decide (pendingV s w r &&& a.left = 0)
def hoistedP (a : Arm) (r : Nat) : Bool := decide (a.left &&& ~~~(mGet 0 a.hoistP r) = 0)

/-- The fork whose continuation a strand is, if any. -/
def contFork (i : Iss) : Option Fork := i.st.cont.bind (mLook i.warp.forks)

/-- R25: a read by a continuation may issue. -/
def readyV (s : State) (i : Iss) (f : Fork) (r : Nat) : Bool :=
  i.st.wrV.getLsbD r || ((armDone f.t || hoistedV s i.w f.t r) && (armDone f.e || hoistedV s i.w f.e r))
def readyP (i : Iss) (f : Fork) (r : Nat) : Bool :=
  i.st.wrP.getLsbD r || ((armDone f.t || hoistedP f.t r) && (armDone f.e || hoistedP f.e r))

/-- The strands of a warp, with those that hold no entry: held records (R306), and the one parked under the handler. -/
def everyStrand (x : Warp) : List Strand :=
  mVals x.strands ++ x.heldStrands ++ (match x.handler with | some h => [h.strand] | none => [])
/-- The continuations of a fork. -/
def contsOf (x : Warp) (f : Nat) : List Strand := (everyStrand x).filter fun t => decide (t.cont = some f)

/-- The lanes in which an instruction reads vector register `r`, for one that acts in the lanes `g`. -/
def readsV (u : Uses) (g : Mask) (r : Nat) : Mask :=
  if u.vm.isEmpty then g else u.vm.foldl (fun m x => if x.1 = r then m ||| x.2 else m) 0
/-- The lanes in which it reads lane predicate `n`. -/
def readsP (i : Iss) (u : Uses) (g : Mask) (n : Nat) : Mask :=
  if u.po.contains n then g ||| (if u.act then i.lanes else 0) else i.lanes

/-- R22, R26: the lanes and register of the first race of an instruction that writes in lanes `g`. -/
def raceOf (i : Iss) (u : Uses) (g : Mask) : Option (Mask × Nat) :=
  let arms := armsOf i.warp i.st
  if arms.isEmpty then none else
  let held := i.lanes
  arms.findSome? fun a =>
    match mLook i.warp.forks a.1 with
    | none => none
    | some f =>
      let cs := contsOf i.warp a.1
      let arm := armAt f a.2
      let wr (n : Nat) : Bool := cs.any fun t => t.wrV.getLsbD n
      let wp (n : Nat) : Bool := cs.any fun t => t.wrP.getLsbD n
      let rd (n : Nat) : Mask :=
        cs.foldl (fun m t => if t.wrV.getLsbD n then m ||| (held &&& readsV u g n &&& t.members) else m) 0
      let rp (n : Nat) : Mask :=
        cs.foldl (fun m t => if t.wrP.getLsbD n then m ||| (held &&& readsP i u g n &&& t.members) else m) 0
      ((u.vw.findSome? fun r => if wr r && decide (g ≠ 0) then some (g, r) else none) <|>
       (u.pw.findSome? fun r => if wp r && decide (g ≠ 0) then some (g, 512 + r) else none) <|>
       (u.vr.findSome? fun r => if rd r ≠ 0 then some (rd r, r) else none) <|>
       (u.pr.findSome? fun r => if rp r ≠ 0 then some (rp r, 512 + r) else none) <|>
       (u.vw.findSome? fun r => let m := mGet 0 arm.hoistV r &&& g; if m ≠ 0 then some (m, r) else none) <|>
       (u.pw.findSome? fun r => let m := mGet 0 arm.hoistP r &&& g; if m ≠ 0 then some (m, 512 + r) else none))

/-- A register read by the lanes `g` meets an uncorrectable word (R49, R129): register and lane. -/
def badRead (s : State) (i : Iss) (u : Uses) (g : Mask) : Option (Nat × Nat) :=
  let rd := if u.vm.isEmpty then u.vr.map fun r => (r, g) else u.vm
  s.bad.findSome? fun y => match y with
    | .reg w key => if w = i.w ∧ rd.any (fun x => x.1 == key / 32 && hasLane x.2 (key % 32)) then some (key / 32, key % 32) else none
    | .sreg w r => if w = i.w ∧ u.sr.contains r ∧ (u.act ∨ g ≠ 0) then some (r, 0) else none
    | _ => none

/-- Whether an instruction may issue. -/
inductive Gate where
  | go
  | wait (reason : Nat) (rs : List Nat)
  | trap (c : Cause) (lanes : Mask) (extra : Nat)
  deriving DecidableEq, Repr

/-- The rules that hold an instruction back or trap it after its decode checks, for one that writes in lanes `g`:
fault shadow (R33), scoreboard, readiness (R25), memory position (R27), register errors (R49), races (R22, R26). -/
def gate (s : State) (i : Iss) (u : Uses) (g : Mask) : Gate :=
  let late := (u.vr ++ u.vw).filter (fun r => decide (pendingV s i.w r &&& i.st.members ≠ 0)) ++
    ((u.sr ++ u.sw).filter (pendingS s i.w)).map (512 + ·)
  if u.shadow && !i.st.shadow.isEmpty && i.st.target.isNone then .wait 11 []
  else if !late.isEmpty then .wait 1 late
  else match contFork i with
    | some f =>
      if u.mem && !(armDone f.t && armDone f.e) then .wait 4 []
      else if !u.byArm && !(u.vr.all (readyV s i f) && u.pr.all (readyP i f)) then .wait 3 []
      else gateTraps s i u g
    | none => gateTraps s i u g
where
  gateTraps (s : State) (i : Iss) (u : Uses) (g : Mask) : Gate :=
    match badRead s i u g with
    | some (r, l) => .trap .dataerr (laneBit l) (4 * r + 2048 * l)
    | none => match raceOf i u g with
      | some (m, r) => .trap .swconf m r
      | none => .go

/-- A continuation's writes enter its written-mask (R26). -/
def noteWrites (i : Iss) (u : Uses) (g : Mask) : Act :=
  if i.st.cont.isNone || decide (g = 0) then skip
  else updStrand i.w i.k fun t =>
    { t with wrV := u.vw.foldl (fun m r => m ||| ((1 : BitVec 512) <<< r)) t.wrV,
             wrP := u.pw.foldl (fun m r => if r < 7 then m ||| ((1 : BitVec 8) <<< r) else m) t.wrP }

/-- A written register's error mark clears (R49). -/
def clearBad (w : Nat) (rs : List Nat) (lanes : Mask) : Act := fun s =>
  if s.bad.isEmpty then [] else
    [.bad (s.bad.filter fun y => match y with
      | .reg v key => !(decide (v = w) && rs.contains (key / 32) && hasLane lanes (key % 32)) | _ => true)]

/-- The same of a scalar register. -/
def clearBadS (w : Nat) (rs : List Nat) : Act := fun s =>
  if s.bad.isEmpty then [] else
    [.bad (s.bad.filter fun y => match y with | .sreg v r => !(decide (v = w) && rs.contains r) | _ => true)]

/-- Writes a scalar register or even pair. -/
def putScalar (i : Iss) (wide : Bool) (r n : Nat) : Act :=
  andThen (updWarp i.w fun x => setSVal x wide r n) (clearBadS i.w (regs r wide))

/-- What every register write of an instruction brings with it, in the lanes `g`. -/
def wrote (i : Iss) (u : Uses) (g : Mask) : Act :=
  andThen (noteWrites i u g) (clearBad i.w (if g = 0 then [] else u.vw) g)

/-- An instruction with its decode-time operand checks (`chk`), its uses, the lanes it writes, and its effect. -/
def gated (s : State) (i : Iss) (chk : Option (Cause × Nat)) (u : Uses) (g : Mask) (a : Act) : Act :=
  match chk with
  | some (c, x) => trapDecode i c x
  | none =>
    match gate s i u g with
    | .wait r rs => stallOn i r rs
    | .trap c m x => trapLanes i c m 0 x
    | .go => a

/-- Runs a meaning at the issuing strand. -/
def atIssue (s : State) (f : Iss → Act) : Host.Outcome State Fault Refusal :=
  match issuer s with
  | none => .fault .noStrand
  | some i => finish s (f i)

/-- The first failing check, in the order ILLENC before ILLOPND (R81). -/
def chkAll (enc opnd : Bool) : Option (Cause × Nat) :=
  if !enc then some (.illenc, 0) else if !opnd then some (.illopnd, 0) else none

/-! ## Open regions (R298 to R303) -/

/-- Issuing lanes with an open region. -/
def regionLanes (i : Iss) : Mask := i.lanes &&& maskOf (fun l => (mLook i.warp.regions l).isSome)

/-- The tag of a register or pair in a lane's region. -/
def tagAt (g : Region) (r : Nat) : Option RTag :=
  g.tags.find? fun t => decide (t.reg = r) || (decide (t.n = 8) && decide (t.reg + 1 = r))
/-- Slots named by a register. -/
def slotsOf (g : Region) (r : Nat) : List Nat := match tagAt g r with | some t => [t.slot] | none => []
/-- The tag of a whole operand of `n` bytes at register `r`. -/
def exactTag (g : Region) (r n : Nat) : Option RTag := g.tags.find? fun t => decide (t.reg = r) && decide (t.n = n)
/-- Removes the tags a write of `n` bytes at `r` overwrites. -/
def untag (g : Region) (r n : Nat) : Region :=
  { g with tags := g.tags.filter fun t =>
      !(decide (t.reg < r + n / 4) && decide (r < t.reg + t.n / 4)) }
/-- Adds slots to the dependent set. -/
def addDep (g : Region) (ks : List Nat) : Region :=
  { g with dep := ks.foldl (fun d k => d ||| ((1 : BitVec 8) <<< k)) g.dep }

/-- What an instruction does to a lane's region when it writes `n` bytes at register `d` (`n = 0`: no vector
register): the tag the result takes, if any, and else the slots its sources name join the dependent set (R300). -/
def regionNote (g : Region) (d n : Nat) (keep : Option (Nat × Nat)) (reads : List Nat) : Region := noteIn g g d n keep reads
where
  /-- The same, the sources' tags being those of the region `before`. -/
  noteIn (before g : Region) (d n : Nat) (keep : Option (Nat × Nat)) (reads : List Nat) : Region :=
    match keep with
    | some (k, o) =>
      let h := untag g d n
      { h with tags := h.tags ++ [⟨d, n, k, o⟩] }
    | none => let h := addDep g (reads.flatMap (slotsOf before)); if n = 0 then h else untag h d n

/-- The source lanes, among registers with the lanes they are read in, in which a register is symbolic. -/
def symbolicLanes (i : Iss) (rs : List (Nat × Mask)) : Mask :=
  if i.warp.regions.isEmpty then 0
  else maskOf fun l => match mLook i.warp.regions l with
    | some g => rs.any fun r => hasLane r.2 l && (tagAt g r.1).isSome
    | none => false

/-- The lanes that take REGION when a source lane of a routed read or of a lane instruction is symbolic (R300): those of
`g` with an open region, or else the source lanes. -/
def symbolicStop (i : Iss) (g : Mask) (rs : List (Nat × Mask)) : Mask :=
  let src := symbolicLanes i rs
  if src = 0 then 0 else if regionLanes i &&& g ≠ 0 then regionLanes i &&& g else src

/-- Updates the regions of the lanes `m`. -/
def updRegions (w : Nat) (m : Mask) (f : Nat → Region → Region) : Act := updWarp w fun x =>
  if x.regions.isEmpty then x else
  { x with regions := x.regions.map fun e => if hasLane m e.1 then (e.1, f e.1 e.2) else e }

/-- A REGION trap (R303): it closes the regions of the lanes it names. -/
def trapRegion (i : Iss) (lanes : Mask) (addr : Nat) : Act :=
  if !i.st.shadow.isEmpty && i.st.target.isNone then stall i 11 else
  andThen (updWarp i.w fun x => { x with regions := x.regions.filter fun e => !hasLane lanes e.1 })
    (look fun s => match issuer s with
      | some j => trapLanes j .region lanes addr 0
      | none => skip)

/-- An instruction that R303 forbids in a region: REGION for the lanes of `g` with an open one, else `a`. -/
def noRegion (i : Iss) (g : Mask) (addr : Nat) (a : Act) : Act :=
  if regionLanes i &&& g ≠ 0 then trapRegion i (regionLanes i &&& g) addr else a

end Sys2Proof.Machine
end

