-- ==== Sys2Proof/Machine/Alu.lean ====
section
/-! DEFINITION. The ALU instructions 0x00 to 0x2B in their V and S forms (05_ref_integer_control R96 to R114,
09_ref_float_lane R153 to R162) and the pair word (04_encoding R72): one shared operation per form over the element
functions of their TYPEs, and one meaning per instruction. -/

namespace Sys2Proof.Machine

/-- A lane's element function: sources, the state of the stochastic source; the result and the state after. -/
abbrev ElemFn := Nat → Nat → Nat → Word → Res × Word

/-- The operand shape of an ALU instruction: which sources it reads and which operands are pairs (R97). -/
structure AluShape where
  useA : Bool := true
  useC : Bool := false
  wa : Bool
  wb : Bool
  wc : Bool
  wd : Bool
  deriving DecidableEq, Repr

/-- All operands of TYPE width. -/
def plainShape (t : Ty) : AluShape := ⟨true, false, tyWide t, tyWide t, tyWide t, tyWide t⟩

/-- `f` on each element of packed operands, element 0 first (R97, R141). -/
def onElems (bits : Nat) (f : ElemFn) : Nat → ElemFn
  | 0, _, _, _, st => (⟨0, 0⟩, st)
  | n + 1, a, b, c, st =>
    let x := f (a % 2 ^ bits) (b % 2 ^ bits) (c % 2 ^ bits) st
    let y := onElems bits f n (a / 2 ^ bits) (b / 2 ^ bits) (c / 2 ^ bits) x.2
    (⟨x.1.val % 2 ^ bits + 2 ^ bits * y.1.val, x.1.pen ||| y.1.pen⟩, y.2)

/-- An element function applied under a TYPE. -/
def byType (t : Ty) (f : ElemFn) : ElemFn := onElems (tyBits t) f (tyElems t)

/-- An element function that draws no stochastic step. -/
def pureFn (f : Nat → Nat → Nat → Res) : ElemFn := fun a b c st => (f a b c, st)

/-- A float element function under MOD: with MOD 5 it draws one step, unless the result is a NaN or an infinity that is
exact, since R140 rounds finite results (log entry 21). -/
def stochFn (fm : Fmt) (md : Nat) (f : Nat → Nat → Nat → Nat → Res) : ElemFn := fun a b c st =>
  if md = 5 then
    let st' := srNext st
    let x := f a b c st'.toNat
    let special := decide (x.val % fm.signBit ≥ fm.infBits) && decide (x.pen &&& pOV = 0)
    (x, if special then st else st')
  else (f a b c 0, st)

/-- The integer form: the exact result through R98. -/
def intFn (t : Ty) (md : Nat) (f : Int → Int → Int → Int) : ElemFn := byType t <| pureFn fun a b c =>
  let rd := toInt (tySigned t) (tyBits t)
  intResult (md == 6) (tySigned t) (tyBits t) (f (rd a) (rd b) (rd c))

/-- The float form: a function of decoded values. -/
def floatFn (t : Ty) (md : Nat) (ns : Word) (f : Fmt → FEnv → Nat → FV → FV → FV → Res) : ElemFn :=
  let fm := tyFmt t
  let v := fEnv md ns
  byType t <| stochFn fm md fun a b c r => f fm v r (fDecode fm v.daz a) (fDecode fm v.daz b) (fDecode fm v.daz c)

/-- The one definition of `add` to `mad` on both kinds of TYPE. -/
def arithFn (t : Ty) (md : Nat) (ns : Word) (fi : Int → Int → Int → Int)
    (ff : Fmt → FEnv → Nat → FV → FV → FV → Res) : ElemFn :=
  if t.isFloat then floatFn t md ns ff else intFn t md fi

/-- The tag a result keeps in an open region, from the lane's region and the other operand's value (R300). -/
abbrev KeepFn := Region → Nat → Option (Nat × Nat)
def noKeep : KeepFn := fun _ _ => none

/-- The uses of a V-form instruction that writes a vector register. -/
def vUses (i : Iss) (f : VFields) (sh : AluShape) : Uses :=
  { vr := (if sh.useA then regs f.a.toNat sh.wa ++ routeReads i f.ra else []) ++
      (match f.kind with | .vec => regs f.b.toNat sh.wb ++ routeReads i f.rb | _ => []) ++
      (if sh.useC then regs f.c.toNat sh.wc ++ routeReads i f.rc else []),
    vw := regs f.d.toNat sh.wd,
    pr := guardReads f.gp,
    sr := (match f.kind with | .scal => if f.b.toNat < 384 then regs f.b.toNat sh.wb else [] | _ => []),
    shadow := decide (f.ra ≠ 0) || decide (f.rb ≠ 0) || decide (f.rc ≠ 0),
    act := false,
    vm := if f.ra = 0 ∧ f.rb = 0 ∧ f.rc = 0 then [] else
      let g := guardMask i f.gp f.gn
      let one (r : Nat) (w : Bool) (e : BitVec 2) : List (Nat × Mask) :=
        (regs r w).map (fun q => (q, routeLanes i e f.own g)) ++ (routeReads i e).map (fun q => (q, g))
      (if sh.useA then one f.a.toNat sh.wa f.ra else []) ++
        (match f.kind with | .vec => one f.b.toNat sh.wb f.rb | _ => []) ++
        (if sh.useC then one f.c.toNat sh.wc f.rc else []) }

/-- The registers a V-form instruction reads through a route, with their source lanes. -/
def routedReads (i : Iss) (f : VFields) (sh : AluShape) (g : Mask) : List (Nat × Mask) :=
  let one (r : Nat) (w : Bool) (e : BitVec 2) : List (Nat × Mask) :=
    if e = 0 then [] else (regs r w).map fun q => (q, routeLanes i e f.own g)
  (if sh.useA then one f.a.toNat sh.wa f.ra else []) ++
    (match f.kind with | .vec => one f.b.toNat sh.wb f.rb | _ => []) ++
    (if sh.useC then one f.c.toNat sh.wc f.rc else [])
/-- The registers it reads in the lane itself: unrouted sources and the index registers of routes. -/
def laneReads (i : Iss) (f : VFields) (sh : AluShape) : List Nat :=
  let one (r : Nat) (w : Bool) (e : BitVec 2) : List Nat := if e = 0 then regs r w else routeReads i e
  (if sh.useA then one f.a.toNat sh.wa f.ra else []) ++
    (match f.kind with | .vec => one f.b.toNat sh.wb f.rb | _ => []) ++
    (if sh.useC then one f.c.toNat sh.wc f.rc else [])

/-- The selected route entries are legal (R130). -/
def vEnc (i : Iss) (f : VFields) : Bool := routeOk i f.ra && routeOk i f.rb && routeOk i f.rc

/-- Source B's register is legal (R42, R47, R78, R97). DESIGN CHOICE (log entry 84): the 64-bit base of a
`lea` takes a 64-bit special register whole under KIND 1, and no 32-bit one. -/
def bOk (i : Iss) (f : VFields) (wide : Bool) : Bool :=
  match f.kind with
  | .vec => vOk i f.b.toNat (span wide)
  | .scal => specOk i f.b.toNat wide && (!wide || decide (f.b.toNat < 384) || specialIs64 f.b.toNat)
  | _ => true

def vOpnd (i : Iss) (f : VFields) (sh : AluShape) : Bool :=
  (!sh.useA || vOk i f.a.toNat (span sh.wa)) && bOk i f sh.wb && (!sh.useC || vOk i f.c.toNat (span sh.wc))

/-- The sources of a lane. -/
def srcA (i : Iss) (f : VFields) (sh : AluShape) (l : Nat) : Nat :=
  if sh.useA then routed i f.ra f.own sh.wa f.a.toNat l else 0
def srcC (i : Iss) (f : VFields) (sh : AluShape) (l : Nat) : Nat :=
  if sh.useC then routed i f.rc f.own sh.wc f.c.toNat l else 0

/-- What an instruction computes in each guarded lane: lane, result, stochastic state. -/
def laneResults (s : State) (i : Iss) (f : VFields) (sh : AluShape) (fn : ElemFn) (g : Mask) :
    List (Nat × Res × Word) :=
  (lanesIn g).map fun l =>
    let x := fn (srcA i f sh l) (srcB s i f sh.wb l) (srcC i f sh l) (mGet 0 i.warp.lanesRand l)
    (l, x.1, x.2)

/-- The pennants of all lanes. -/
def allPen (outs : List (Nat × Res × Word)) : Byte := outs.foldl (fun p o => p ||| o.2.1.pen) 0
/-- The lanes that raise IV (R150). -/
def ivLanes (outs : List (Nat × Res × Word)) : Mask :=
  outs.foldl (fun m o => if o.2.1.pen &&& pIV ≠ 0 then m ||| laneBit o.1 else m) 0

/-- R150: with TRAPIV set, an IV takes VINV and nothing else happens. -/
def unlessIv (i : Iss) (iv : Mask) (a : Act) : Act :=
  if nsTrapIv i.warp.nstat && decide (iv ≠ 0) then trapLanes i .vinv iv 0 0 else a

/-- Writes the results of the lanes. -/
def putResults (x : Warp) (wide : Bool) (d : Nat) (outs : List (Nat × Res × Word)) : Warp :=
  outs.foldl (fun y o =>
    let z := setVal y wide d o.1 o.2.1.val
    if mGet 0 z.lanesRand o.1 = o.2.2 then z else { z with lanesRand := mPut 0 z.lanesRand o.1 o.2.2 }) x

/-- The lanes whose region a write would give more than 8 symbolic tags (R298). -/
def tagOverflow (i : Iss) (g : Mask) (note : Nat → Region → Region) : Mask :=
  maskOf fun l => hasLane g l && (match mLook i.warp.regions l with
    | some r => decide (8 < (note l r).tags.length) | none => false)

/-- What a V-form instruction does to a guarded lane's region (R300). -/
def vecNote (i : Iss) (f : VFields) (sh : AluShape) (keep : KeepFn) (l : Nat) (r : Region) : Region :=
  regionNote r f.d.toNat (4 * span sh.wd) (keep r l) (laneReads i f sh)

/-- A V-form instruction with a vector destination (R96), continuing after `n` slots. -/
def vecOp (s : State) (i : Iss) (f : VFields) (sh : AluShape) (n : Nat) (fn : ElemFn) (keep : KeepFn) : Act :=
  let u := vUses i f sh
  let g := guardMask i f.gp f.gn
  let outs := laneResults s i f sh fn g
  let note := vecNote i f sh keep
  gated s i (chkAll (vEnc i f) (vOpnd i f sh && vOk i f.d.toNat (span sh.wd))) u g <|
    if symbolicStop i g (routedReads i f sh g) ≠ 0 then trapRegion i (symbolicStop i g (routedReads i f sh g)) 0
    else if tagOverflow i g note ≠ 0 then trapRegion i (tagOverflow i g note) 0
    else unlessIv i (ivLanes outs) <|
      andThen (updWarp i.w fun x => putResults x sh.wd f.d.toNat outs) <|
      andThen (updRegions i.w g note) <|
      andThen (wrote i u g) <|
      andThen (raisePennants i.w (allPen outs)) (advance i n)

/-- The uses of an S-form instruction. -/
def sUses (f : VFields) (sh : AluShape) (dst : Bool) : Uses :=
  { sr := (if sh.useA then regs f.a.toNat sh.wa else []) ++
      (match f.kind with | .vec => regs f.b.toNat sh.wb | _ => []) ++ (if sh.useC then regs f.c.toNat sh.wc else []),
    sw := if dst then regs f.d.toNat sh.wd else [],
    shadow := true }

def sOpnd (i : Iss) (f : VFields) (sh : AluShape) : Bool :=
  (!sh.useA || sOk i f.a.toNat (span sh.wa)) &&
  (match f.kind with | .vec => sOk i f.b.toNat (span sh.wb) | _ => true) &&
  (!sh.useC || sOk i f.c.toNat (span sh.wc))

/-- The scalar result with the warp's stochastic state. -/
def scalResult (i : Iss) (f : VFields) (sh : AluShape) (fn : ElemFn) : Res × Word :=
  fn (if sh.useA then sVal i.warp sh.wa f.a.toNat else 0) (srcS i f sh.wb)
    (if sh.useC then sVal i.warp sh.wc f.c.toNat else 0) i.warp.warpRand

/-- An S-form instruction (R70): one result for the warp, written by `put`. -/
def scalWith (s : State) (i : Iss) (f : VFields) (sh : AluShape) (dst : Bool) (ok : Bool) (n : Nat) (fn : ElemFn)
    (put : Warp → Nat → Warp) : Act :=
  let x := scalResult i f sh fn
  gated s i (chkAll true (sOpnd i f sh && ok)) ((sUses f sh dst).on (guardScalar i f.gp f.gn)) 0 <|
    if guardScalar i f.gp f.gn then
      unlessIv i (if x.1.pen &&& pIV ≠ 0 then i.lanes else 0) <|
        andThen (updWarp i.w fun y => { put y x.1.val with warpRand := x.2 }) <|
        andThen (clearBadS i.w (sUses f sh dst).sw) <|
        andThen (raisePennants i.w x.1.pen) (advance i n)
    else advance i n

/-- With an s-register destination. -/
def scalOp (s : State) (i : Iss) (f : VFields) (sh : AluShape) (n : Nat) (fn : ElemFn) : Act :=
  scalWith s i f sh true (sOk i f.d.toNat (span sh.wd)) n fn (fun x v => setSVal x sh.wd f.d.toNat v)

/-- The meanings below run `vecOp` or `scalOp` at the issuing strand. -/
def vMeans (f : VFields) (s : State) (sh : AluShape) (fn : Word → ElemFn) (keep : Iss → KeepFn) :
    Host.Outcome State Fault Refusal :=
  atIssue s fun i => vecOp s i f sh (kindSlots f.kind) (fn i.warp.nstat) (keep i)
def sMeans (f : VFields) (s : State) (sh : AluShape) (fn : Word → ElemFn) : Host.Outcome State Fault Refusal :=
  atIssue s fun i => scalOp s i f sh (kindSlots f.kind) (fn i.warp.nstat)

/-! ## 0x00 to 0x08 -/

/-- `nop` (R100): no effect, whatever its guard. -/
def execNop (_ : VFields) (s : State) : Host.Outcome State Fault Refusal :=
  atIssue s fun i => advance i 1

/-- R300: `add` and `sub` of one symbolic source, which is read unrouted, and a concrete one keep the tag. -/
def keepSum (s : State) (f : VFields) (minus : Bool) (i : Iss) : KeepFn := fun g l =>
  let w := tyWide f.ty
  let n := if w then 8 else 4
  let bits := 8 * n
  let sym (rs : List Nat) : Bool := rs.any fun r => (tagAt g r).isSome
  let symA := if f.ra = 0 then sym (regs f.a.toNat w) else sym (routeReads i f.ra)
  let symB : Bool := match f.kind with
    | .vec => if f.rb = 0 then sym (regs f.b.toNat w) else sym (routeReads i f.rb)
    | _ => false
  if !(f.ty = .i32 || f.ty = .n32 || f.ty = .i64 || f.ty = .n64) || f.mod != 0 || (symA && symB) then none
  else if symA then
    if f.ra ≠ 0 then none
    else (exactTag g f.a.toNat n).map fun t =>
      let b := srcB s i f w l
      (t.slot, (if minus then t.ofs + 2 ^ bits - b else t.ofs + b) % 2 ^ bits)
  else if symB && !minus && decide (f.rb = 0) then
    (exactTag g f.b.toNat n).map fun t => (t.slot, (t.ofs + routed i f.ra f.own w f.a.toNat l) % 2 ^ bits)
  else none

def addFn (f : VFields) (ns : Word) : ElemFn :=
  arithFn f.ty f.mod.toNat ns (fun a b _ => a + b) (fun m v r a b _ => fDot m v r [] [a, b])
def subFn (f : VFields) (ns : Word) : ElemFn :=
  arithFn f.ty f.mod.toNat ns (fun a b _ => a - b) (fun m v r a b _ => fDot m v r [] [a, b.flip])
def mulFn (f : VFields) (ns : Word) : ElemFn :=
  arithFn f.ty f.mod.toNat ns (fun a b _ => a * b) (fun m v r a b _ => fDot m v r [(a, b)] [])
def madFn (f : VFields) (ns : Word) : ElemFn :=
  arithFn f.ty f.mod.toNat ns (fun a b c => a * b + c) (fun m v r a b c => fDot m v r [(a, b)] [c])
/-- `min` and `max` (R101) deliver the chosen operand. -/
def minMaxFn (wantMax : Bool) (f : VFields) (ns : Word) : ElemFn :=
  if f.ty.isFloat then byType f.ty (pureFn fun a b _ => fMinMax (tyFmt f.ty) wantMax (nsDaz ns) a b)
  else intFn f.ty 0 fun a b _ => if wantMax then (if a < b then b else a) else (if b < a then b else a)
/-- `neg` and `abs` (R102): float forms touch the sign bit alone. -/
def negFn (f : VFields) (_ : Word) : ElemFn :=
  if f.ty.isFloat then byType f.ty (pureFn fun _ b _ => ⟨b ^^^ (tyFmt f.ty).signBit, 0⟩)
  else intFn f.ty f.mod.toNat fun _ b _ => -b
def absFn (f : VFields) (_ : Word) : ElemFn :=
  if f.ty.isFloat then byType f.ty (pureFn fun _ b _ => ⟨b % (tyFmt f.ty).signBit, 0⟩)
  else intFn f.ty f.mod.toNat fun _ b _ => (b.natAbs : Int)

def oneShape (t : Ty) : AluShape := { plainShape t with useA := false }
def threeShape (t : Ty) : AluShape := { plainShape t with useC := true }

def execAdd (f : VFields) (s : State) := vMeans f s (plainShape f.ty) (addFn f) (keepSum s f false)
def execAddS (f : VFields) (s : State) := sMeans f s (plainShape f.ty) (addFn f)
def execSub (f : VFields) (s : State) := vMeans f s (plainShape f.ty) (subFn f) (keepSum s f true)
def execSubS (f : VFields) (s : State) := sMeans f s (plainShape f.ty) (subFn f)
def execMul (f : VFields) (s : State) := vMeans f s (plainShape f.ty) (mulFn f) (fun _ => noKeep)
def execMulS (f : VFields) (s : State) := sMeans f s (plainShape f.ty) (mulFn f)
def execMad (f : VFields) (s : State) := vMeans f s (threeShape f.ty) (madFn f) (fun _ => noKeep)
def execMadS (f : VFields) (s : State) := sMeans f s (threeShape f.ty) (madFn f)
def execMin (f : VFields) (s : State) := vMeans f s (plainShape f.ty) (minMaxFn false f) (fun _ => noKeep)
def execMinS (f : VFields) (s : State) := sMeans f s (plainShape f.ty) (minMaxFn false f)
def execMax (f : VFields) (s : State) := vMeans f s (plainShape f.ty) (minMaxFn true f) (fun _ => noKeep)
def execMaxS (f : VFields) (s : State) := sMeans f s (plainShape f.ty) (minMaxFn true f)
def execNeg (f : VFields) (s : State) := vMeans f s (oneShape f.ty) (negFn f) (fun _ => noKeep)
def execNegS (f : VFields) (s : State) := sMeans f s (oneShape f.ty) (negFn f)
def execAbs (f : VFields) (s : State) := vMeans f s (oneShape f.ty) (absFn f) (fun _ => noKeep)
def execAbsS (f : VFields) (s : State) := sMeans f s (oneShape f.ty) (absFn f)

/-! ## 0x09 `cmp` (R103) -/

/-- The relation on numbers. -/
def intRel (rel : Nat) (a b : Int) : Bool :=
  match rel with
  | 0 => decide (a = b) | 1 => decide (a ≠ b) | 2 => decide (a < b)
  | 3 => decide (a ≤ b) | 4 => decide (b < a) | _ => decide (b ≤ a)

/-- The outcome of `cmp` on two values, and IV. -/
def cmpOut (t : Ty) (rel : Nat) (ns : Word) (a b : Nat) : Bool × Bool :=
  if t.isFloat then
    fCmp rel (fDecode (tyFmt t) (nsDaz ns) (a % 2 ^ tyBits t)) (fDecode (tyFmt t) (nsDaz ns) (b % 2 ^ tyBits t))
  else (intRel rel (toInt (tySigned t) (tyBits t) a) (toInt (tySigned t) (tyBits t) b), false)

def cmpFn (f : VFields) (ns : Word) : ElemFn := pureFn fun a b _ =>
  let x := cmpOut f.ty f.mod.toNat ns a b
  ⟨if x.1 then 1 else 0, pIf x.2 pIV⟩

/-- The constraint a `cmp` records in a lane's region, or the slots it makes dependent (R301). -/
def cmpNote (s : State) (i : Iss) (f : VFields) (g : Region) (l : Nat) (outcome : Bool) : Option Region :=
  let w := tyWide f.ty
  let n := if w then 8 else 4
  let any (r : Nat) (e : BitVec 2) : Bool := (if e = 0 then regs r w else routeReads i e).any fun q => (tagAt g q).isSome
  let symA := any f.a.toNat f.ra
  let symB := match f.kind with | .vec => any f.b.toNat f.rb | _ => false
  let dep := addDep g ((laneReads i f (plainShape f.ty)).flatMap (slotsOf g))
  let con (t : RTag) (v : Nat) (left : Bool) : Option Region :=
    if g.cons.length < 16 then some { g with cons := g.cons ++ [⟨t.slot, t.ofs, f.mod.toNat, f.ty, v, left, outcome⟩] }
    else none
  if !symA && !symB then some g
  else if f.ty.isFloat || (symA && symB) || (symA && f.ra != 0) || (symB && f.rb != 0) then some dep
  else if symA then match exactTag g f.a.toNat n with
    | some t => con t (srcB s i f w l) true
    | none => some dep
  else match exactTag g f.b.toNat n with
    | some t => con t (routed i f.ra f.own w f.a.toNat l) false
    | none => some dep

def cmpUses (i : Iss) (f : VFields) : Uses := { vUses i f (plainShape f.ty) with vw := [], pw := [f.d.toNat] }
/-- The lanes of `g` whose region holds no room for the constraint (R301). -/
def cmpFull (s : State) (i : Iss) (f : VFields) (g : Mask) : Mask :=
  maskOf fun l => hasLane g l && (match mLook i.warp.regions l with
    | some r => (cmpNote s i f r l false).isNone | none => false)

def execCmp (f : VFields) (s : State) : Host.Outcome State Fault Refusal := atIssue s fun i =>
  let sh := plainShape f.ty
  let u := cmpUses i f
  let g := guardMask i f.gp f.gn
  let outs := laneResults s i f sh (cmpFn f i.warp.nstat) g
  let full := cmpFull s i f g
  gated s i (chkAll (vEnc i f) (vOpnd i f sh && pOk f.d.toNat)) u g <|
    if symbolicStop i g (routedReads i f sh g) ≠ 0 then trapRegion i (symbolicStop i g (routedReads i f sh g)) 0
    else if full ≠ 0 then trapRegion i full 0
    else unlessIv i (ivLanes outs) <|
      andThen (updWarp i.w fun x => outs.foldl (fun y o => setP y f.d.toNat o.1 (decide (o.2.1.val = 1))) x) <|
      andThen (updRegions i.w g fun l r => (cmpNote s i f r l
        (decide (((outs.find? fun o => decide (o.1 = l)).map fun o => o.2.1.val) = some 1))).getD r) <|
      andThen (wrote i u g) <|
      andThen (raisePennants i.w (allPen outs)) (advance i (kindSlots f.kind))

def execCmpS (f : VFields) (s : State) : Host.Outcome State Fault Refusal := atIssue s fun i =>
  scalWith s i f (plainShape f.ty) false (pOk f.d.toNat) (kindSlots f.kind) (cmpFn f i.warp.nstat)
    (fun x v => setQ x f.d.toNat (decide (v = 1)))

/-! ## 0x0A to 0x0F -/

/-- `sel` (R104): C names a predicate; what it reads and writes. -/
def selUses (i : Iss) (f : VFields) : Uses :=
  { vUses i f (plainShape f.ty) with pr := guardReads f.gp ++ [f.c.toNat], po := onlyOperands f.gp [f.c.toNat] }

def execSel (f : VFields) (s : State) : Host.Outcome State Fault Refusal := atIssue s fun i =>
  let sh := plainShape f.ty
  let u := selUses i f
  let g := guardMask i f.gp f.gn
  let outs := (lanesIn g).map fun l =>
    (l, ⟨if pR i.warp f.c.toNat l then srcA i f sh l else srcB s i f sh.wb l, 0⟩, mGet 0 i.warp.lanesRand l)
  gated s i (chkAll (vEnc i f) (vOpnd i f sh && vOk i f.d.toNat (span sh.wd) && pOk f.c.toNat)) u g <|
    if symbolicStop i g (routedReads i f sh g) ≠ 0 then trapRegion i (symbolicStop i g (routedReads i f sh g)) 0
    else andThen (updWarp i.w fun x => putResults x sh.wd f.d.toNat outs) <|
      andThen (updRegions i.w g fun _ r => regionNote r f.d.toNat (4 * span sh.wd) none (laneReads i f sh)) <|
      andThen (wrote i u g) (advance i (kindSlots f.kind))

def execSelS (f : VFields) (s : State) : Host.Outcome State Fault Refusal := atIssue s fun i =>
  scalWith s i f (plainShape f.ty) true (sOk i f.d.toNat (span (tyWide f.ty)) && pOk f.c.toNat) (kindSlots f.kind)
    (pureFn fun a b _ => ⟨if qR i.warp f.c.toNat then a else b, 0⟩)
    (fun x v => setSVal x (tyWide f.ty) f.d.toNat v)

/-- Copies source B. -/
def copyFn (_ : Word) : ElemFn := pureFn fun _ b _ => ⟨b, 0⟩

/-- R300: an unrouted `mov` of the same width keeps the tag. -/
def keepMov (f : VFields) (_ : Iss) : KeepFn := fun g _ =>
  match f.kind with
  | .vec => if f.rb = 0 then (exactTag g f.b.toNat (4 * span (tyWide f.ty))).map fun t => (t.slot, t.ofs) else none
  | _ => none

def execMov (f : VFields) (s : State) := vMeans f s (oneShape f.ty) copyFn (keepMov f)
def execMovS (f : VFields) (s : State) := sMeans f s (oneShape f.ty) copyFn
def execMovi (f : VFields) (s : State) := vMeans f s (oneShape f.ty) copyFn (fun _ => noKeep)
def execMoviS (f : VFields) (s : State) := sMeans f s (oneShape f.ty) copyFn

/-- The source TYPE of `cvt`, in field C (R106). -/
def cvtFrom (f : VFields) : Ty := (Ty.ofCode (f.c.truncate 4)).getD .i32
def cvtShape (f : VFields) : AluShape := ⟨false, false, false, tyWide (cvtFrom f), false, tyWide f.ty⟩

/-- `cvt` (R106). A step of MOD 5 is drawn for a finite source. -/
def cvtFn (f : VFields) (ns : Word) : ElemFn := fun _ b _ st =>
  let ts := cvtFrom f
  let v := fEnv f.mod.toNat ns
  let st' := if f.mod = 5 then srNext st else st
  let r := st'.toNat
  let b := b % 2 ^ tyBits ts
  if ts.isFloat then
    let x := fDecode (tyFmt ts) v.daz b
    let st'' := match x with | .fin _ _ _ => st' | _ => st
    if f.ty.isFloat then (fToF (tyFmt f.ty) v r x, st'')
    else (fToInt v.mode r (tySigned f.ty) (tyBits f.ty) x, st'')
  else
    let x := toInt (tySigned ts) (tyBits ts) b
    if f.ty.isFloat then (intToF (tyFmt f.ty) v r x, st')
    else (intResult (f.mod == 6) (tySigned f.ty) (tyBits f.ty) x, st)

def execCvt (f : VFields) (s : State) := vMeans f s (cvtShape f) (cvtFn f) (fun _ => noKeep)
def execCvtS (f : VFields) (s : State) := sMeans f s (cvtShape f) (cvtFn f)

/-- `mulhi` (R107). -/
def mulhiFn (f : VFields) (_ : Word) : ElemFn := pureFn fun a b _ =>
  let n := tyBits f.ty
  ⟨ofInt n (toInt (tySigned f.ty) n a * toInt (tySigned f.ty) n b / 2 ^ n), 0⟩
def execMulhi (f : VFields) (s : State) := vMeans f s (plainShape f.ty) (mulhiFn f) (fun _ => noKeep)
def execMulhiS (f : VFields) (s : State) := sMeans f s (plainShape f.ty) (mulhiFn f)

/-- `madw` (R107): 32-bit sources, 64-bit addend and result. -/
def madwShape : AluShape := ⟨true, true, false, false, true, true⟩
def madwFn (f : VFields) (_ : Word) : ElemFn := pureFn fun a b c =>
  let sg := tySigned f.ty
  intResult (f.mod == 6) sg 64 (toInt sg 32 a * toInt sg 32 b + toInt sg 64 c)
def execMadw (f : VFields) (s : State) := vMeans f s madwShape (madwFn f) (fun _ => noKeep)
def execMadwS (f : VFields) (s : State) := sMeans f s madwShape (madwFn f)

/-! ## 0x10 to 0x1E -/

def logicFn (g : Nat → Nat → Nat) (_ : Word) : ElemFn := pureFn fun a b _ => ⟨g a b, 0⟩
def execAnd (f : VFields) (s : State) := vMeans f s (plainShape f.ty) (logicFn (· &&& ·)) (fun _ => noKeep)
def execAndS (f : VFields) (s : State) := sMeans f s (plainShape f.ty) (logicFn (· &&& ·))
def execOr (f : VFields) (s : State) := vMeans f s (plainShape f.ty) (logicFn (· ||| ·)) (fun _ => noKeep)
def execOrS (f : VFields) (s : State) := sMeans f s (plainShape f.ty) (logicFn (· ||| ·))
def execXor (f : VFields) (s : State) := vMeans f s (plainShape f.ty) (logicFn (· ^^^ ·)) (fun _ => noKeep)
def execXorS (f : VFields) (s : State) := sMeans f s (plainShape f.ty) (logicFn (· ^^^ ·))
def notFn (f : VFields) (_ : Word) : ElemFn := pureFn fun _ b _ => ⟨2 ^ tyBits f.ty - 1 - b % 2 ^ tyBits f.ty, 0⟩
def execNot (f : VFields) (s : State) := vMeans f s (oneShape f.ty) (notFn f) (fun _ => noKeep)
def execNotS (f : VFields) (s : State) := sMeans f s (oneShape f.ty) (notFn f)

/-- The shifts (R109): the count is a 32-bit register. -/
def shiftShape (t : Ty) : AluShape := ⟨true, false, tyWide t, false, false, tyWide t⟩
def shlFn (f : VFields) (_ : Word) : ElemFn := pureFn fun a b _ =>
  ⟨if tyBits f.ty ≤ b then 0 else a * 2 ^ b % 2 ^ tyBits f.ty, 0⟩
def shrFn (f : VFields) (_ : Word) : ElemFn := pureFn fun a b _ => ⟨if tyBits f.ty ≤ b then 0 else a / 2 ^ b, 0⟩
def sarFn (f : VFields) (_ : Word) : ElemFn := pureFn fun a b _ =>
  ⟨ofInt (tyBits f.ty) (toInt true (tyBits f.ty) a / 2 ^ (min b (tyBits f.ty))), 0⟩
def execShl (f : VFields) (s : State) := vMeans f s (shiftShape f.ty) (shlFn f) (fun _ => noKeep)
def execShlS (f : VFields) (s : State) := sMeans f s (shiftShape f.ty) (shlFn f)
def execShr (f : VFields) (s : State) := vMeans f s (shiftShape f.ty) (shrFn f) (fun _ => noKeep)
def execShrS (f : VFields) (s : State) := sMeans f s (shiftShape f.ty) (shrFn f)
def execSar (f : VFields) (s : State) := vMeans f s (shiftShape f.ty) (sarFn f) (fun _ => noKeep)
def execSarS (f : VFields) (s : State) := sMeans f s (shiftShape f.ty) (sarFn f)

/-- Bit counts and reversal (R110). -/
def countBits (x : Nat) : Nat → Nat
  | 0 => 0
  | n + 1 => x / 2 ^ n % 2 + countBits x n
def reverseBits (x : Nat) : Nat → Nat
  | 0 => 0
  | n + 1 => x % 2 * 2 ^ n + reverseBits (x / 2) n
def countShape (t : Ty) : AluShape := ⟨false, false, false, tyWide t, false, false⟩
def popcFn (f : VFields) (_ : Word) : ElemFn := pureFn fun _ b _ => ⟨countBits b (tyBits f.ty), 0⟩
def clzFn (f : VFields) (_ : Word) : ElemFn := pureFn fun _ b _ => ⟨tyBits f.ty - bitLen (b % 2 ^ tyBits f.ty), 0⟩
def brevFn (f : VFields) (_ : Word) : ElemFn := pureFn fun _ b _ => ⟨reverseBits b (tyBits f.ty), 0⟩
def execPopc (f : VFields) (s : State) := vMeans f s (countShape f.ty) (popcFn f) (fun _ => noKeep)
def execPopcS (f : VFields) (s : State) := sMeans f s (countShape f.ty) (popcFn f)
def execClz (f : VFields) (s : State) := vMeans f s (countShape f.ty) (clzFn f) (fun _ => noKeep)
def execClzS (f : VFields) (s : State) := sMeans f s (countShape f.ty) (clzFn f)
def execBrev (f : VFields) (s : State) := vMeans f s (oneShape f.ty) (brevFn f) (fun _ => noKeep)
def execBrevS (f : VFields) (s : State) := sMeans f s (oneShape f.ty) (brevFn f)

/-- Bit fields (R111): start s′ and width w′ from the control word. -/
def fieldStart (n b : Nat) : Nat := min (b % 256) n
def fieldWidth (n b : Nat) : Nat := min (b / 256 % 256) (n - fieldStart n b)
def bfeFn (f : VFields) (_ : Word) : ElemFn := pureFn fun a b _ =>
  let n := tyBits f.ty
  let w := fieldWidth n b
  if w = 0 then ⟨0, 0⟩ else ⟨ofInt n (toInt (tySigned f.ty) w (a / 2 ^ fieldStart n b)), 0⟩
def bfiFn (f : VFields) (_ : Word) : ElemFn := pureFn fun a b c =>
  let n := tyBits f.ty
  let st := fieldStart n b
  let w := fieldWidth n b
  ⟨c / 2 ^ (st + w) * 2 ^ (st + w) + a % 2 ^ w * 2 ^ st + c % 2 ^ st, 0⟩
def bfiShape (t : Ty) : AluShape := ⟨true, true, tyWide t, false, tyWide t, tyWide t⟩
def execBfe (f : VFields) (s : State) := vMeans f s (shiftShape f.ty) (bfeFn f) (fun _ => noKeep)
def execBfeS (f : VFields) (s : State) := sMeans f s (shiftShape f.ty) (bfeFn f)
def execBfi (f : VFields) (s : State) := vMeans f s (bfiShape f.ty) (bfiFn f) (fun _ => noKeep)
def execBfiS (f : VFields) (s : State) := sMeans f s (bfiShape f.ty) (bfiFn f)

/-- `lea` (R112): 32-bit index, 64-bit base. -/
def leaShape : AluShape := ⟨true, false, false, true, false, true⟩
def leaFn (f : VFields) (_ : Word) : ElemFn := pureFn fun a b _ =>
  ⟨ofInt 64 (b + toInt (f.ty == .i32) 32 a * 2 ^ f.mod.toNat), 0⟩
def execLea (f : VFields) (s : State) := vMeans f s leaShape (leaFn f) (fun _ => noKeep)
def execLeaS (f : VFields) (s : State) := sMeans f s leaShape (leaFn f)

/-- `pset` (R113). -/
def psetOut (op : Nat) (a b : Bool) : Bool :=
  match op with
  | 0 => a && b | 1 => a || b | 2 => a != b | 3 => a && !b
  | 4 => a || !b | 5 => !(a && b) | 6 => !(a || b) | _ => a == b

def psetUses (f : VFields) : Uses := 
  { pr := guardReads f.gp ++ [f.a.toNat, f.b.toNat], pw := [f.d.toNat], act := false,
    po := onlyOperands f.gp [f.a.toNat, f.b.toNat] }

def execPset (f : VFields) (s : State) : Host.Outcome State Fault Refusal := atIssue s fun i =>
  let u := psetUses f
  let g := guardMask i f.gp f.gn
  gated s i (chkAll true (pOk f.d.toNat && pOk f.a.toNat && pOk f.b.toNat)) u g <|
    andThen (updWarp i.w fun x => (lanesIn g).foldl (fun y l =>
      setP y f.d.toNat l (psetOut f.mod.toNat (pR x f.a.toNat l) (pR x f.b.toNat l))) x) <|
    andThen (wrote i u g) (advance i 1)

def execPsetS (f : VFields) (s : State) : Host.Outcome State Fault Refusal := atIssue s fun i =>
  gated s i (chkAll true (pOk f.d.toNat && pOk f.a.toNat && pOk f.b.toNat)) { shadow := true } 0 <|
    andThen (whenA (guardScalar i f.gp f.gn) (updWarp i.w fun x =>
      setQ x f.d.toNat (psetOut f.mod.toNat (qR x f.a.toNat) (qR x f.b.toNat)))) (advance i 1)

/-- The eight predicates of a lane as a number, p0 lowest (R114). -/
def predBits (p : Nat → Bool) : Nat := (List.range 8).foldl (fun n j => if p j then n + 2 ^ j else n) 0

def pmovUses (f : VFields) : Uses :=
  { pr := guardReads f.gp ++ [0, 1, 2, 3, 4, 5, 6], vw := [f.d.toNat], act := false,
    po := onlyOperands f.gp [0, 1, 2, 3, 4, 5, 6] }

/-- `pmov vD` (R114). -/
def execPmov (f : VFields) (s : State) : Host.Outcome State Fault Refusal := atIssue s fun i =>
  let u := pmovUses f
  let g := guardMask i f.gp f.gn
  gated s i (chkAll true (vOk i f.d.toNat 1)) u g <|
    andThen (updWarp i.w fun x => (lanesIn g).foldl (fun y l =>
      setV y f.d.toNat l (BitVec.ofNat 32 (predBits fun j => pR x j l))) x) <|
    andThen (updRegions i.w g fun _ r => untag r f.d.toNat 4) <|
    andThen (wrote i u g) (advance i 1)

def pmovSetUses (i : Iss) (f : VFields) : Uses :=
  { vUses i f (oneShape .b32) with vw := [], pw := [0, 1, 2, 3, 4, 5, 6] }

/-- `pmov.set B` (R114). -/
def execPmovSet (f : VFields) (s : State) : Host.Outcome State Fault Refusal := atIssue s fun i =>
  let u := pmovSetUses i f
  let g := guardMask i f.gp f.gn
  gated s i (chkAll true (bOk i f false)) u g <|
    andThen (updWarp i.w fun x => (lanesIn g).foldl (fun y l =>
      (List.range 7).foldl (fun z j => setP z j l ((srcB s i f false l).testBit j)) y) x) <|
    andThen (updRegions i.w g fun _ r => regionNote r 0 0 none (laneReads i f (oneShape .b32))) <|
    andThen (wrote i u g) (advance i (kindSlots f.kind))

/-- The S form of both directions (R114): MOD 0 reads q0 to q7 into an s-register, MOD 1 sets q0 to q6. -/
def execPmovS (f : VFields) (s : State) : Host.Outcome State Fault Refusal := atIssue s fun i =>
  if f.mod = 0 then
    gated s i (chkAll true (sOk i f.d.toNat 1)) { sw := [f.d.toNat], shadow := true } 0 <|
      andThen (whenA (guardScalar i f.gp f.gn) (putScalar i false f.d.toNat (predBits (qR i.warp)))) (advance i 1)
  else
    gated s i (chkAll true (sOpnd i f (oneShape .b32))) 
        ((sUses f (oneShape .b32) false).on (guardScalar i f.gp f.gn)) 0 <|
      andThen (whenA (guardScalar i f.gp f.gn) (updWarp i.w fun x =>
        (List.range 7).foldl (fun y j => setQ y j ((srcS i f false).testBit j)) x)) (advance i (kindSlots f.kind))

/-! ## 0x1F to 0x2B: float only -/

def binFn (f : VFields) (g : Fmt → FEnv → Nat → FV → FV → Res) (ns : Word) : ElemFn :=
  floatFn f.ty f.mod.toNat ns fun m v r a b _ => g m v r a b
def unFn (f : VFields) (g : Fmt → FEnv → Nat → FV → Res) (ns : Word) : ElemFn :=
  floatFn f.ty f.mod.toNat ns fun m v r _ b _ => g m v r b
/-- An approximate function sees the operand's bits, as DAZ leaves them (R154). -/
def approxFn (f : VFields) (g : Fmt → FEnv → Nat → Nat → FV → Res) (ns : Word) : ElemFn :=
  let m := tyFmt f.ty
  let v := fEnv f.mod.toNat ns
  byType f.ty (pureFn fun _ b _ => g m v b (if f.ty = .f32 then 2 else 1) (fDecode m v.daz b))

def execDiv (f : VFields) (s : State) := vMeans f s (plainShape f.ty) (binFn f fDiv) (fun _ => noKeep)
def execDivS (f : VFields) (s : State) := sMeans f s (plainShape f.ty) (binFn f fDiv)
def execRcp (f : VFields) (s : State) := vMeans f s (oneShape f.ty) (unFn f fRcp) (fun _ => noKeep)
def execRcpS (f : VFields) (s : State) := sMeans f s (oneShape f.ty) (unFn f fRcp)
def rsqrtFn (f : VFields) : Word → ElemFn := approxFn f fun m v b _ x => fRsqrt m v b x
def execRsqrt (f : VFields) (s : State) := vMeans f s (oneShape f.ty) (rsqrtFn f) (fun _ => noKeep)
def execRsqrtS (f : VFields) (s : State) := sMeans f s (oneShape f.ty) (rsqrtFn f)
def execSqrt (f : VFields) (s : State) := vMeans f s (oneShape f.ty) (unFn f fSqrt) (fun _ => noKeep)
def execSqrtS (f : VFields) (s : State) := sMeans f s (oneShape f.ty) (unFn f fSqrt)
def execExp2 (f : VFields) (s : State) := vMeans f s (oneShape f.ty) (approxFn f fExp2) (fun _ => noKeep)
def execExp2S (f : VFields) (s : State) := sMeans f s (oneShape f.ty) (approxFn f fExp2)
def execLog2 (f : VFields) (s : State) := vMeans f s (oneShape f.ty) (approxFn f fLog2) (fun _ => noKeep)
def execLog2S (f : VFields) (s : State) := sMeans f s (oneShape f.ty) (approxFn f fLog2)
def trigFn (op : Nat) (cosine : Bool) (f : VFields) : Word → ElemFn :=
  approxFn f fun m v b u x => fTrig m v op b u cosine x
def execSinpi (f : VFields) (s : State) := vMeans f s (oneShape f.ty) (trigFn 0x25 false f) (fun _ => noKeep)
def execSinpiS (f : VFields) (s : State) := sMeans f s (oneShape f.ty) (trigFn 0x25 false f)
def execCospi (f : VFields) (s : State) := vMeans f s (oneShape f.ty) (trigFn 0x26 true f) (fun _ => noKeep)
def execCospiS (f : VFields) (s : State) := sMeans f s (oneShape f.ty) (trigFn 0x26 true f)
def execTanh (f : VFields) (s : State) := vMeans f s (oneShape f.ty) (approxFn f fTanh) (fun _ => noKeep)
def execTanhS (f : VFields) (s : State) := sMeans f s (oneShape f.ty) (approxFn f fTanh)

/-- `ldexp` (R159): the exponent is a signed 32-bit value, or an i16x2 element for a packed TYPE. -/
def ldexpFn (f : VFields) (ns : Word) : ElemFn :=
  let m := tyFmt f.ty
  let v := fEnv f.mod.toNat ns
  let one (k : Nat) : ElemFn := stochFn m f.mod.toNat fun a b _ r =>
    fLdexp m v r (fDecode m v.daz a) (toInt true k b)
  if tyElems f.ty = 2 then onElems 16 (one 16) 2
  else fun a b c st => one 32 (a % 2 ^ m.width) (b % 2 ^ 32) c st
def execLdexp (f : VFields) (s : State) := vMeans f s (plainShape f.ty) (ldexpFn f) (fun _ => noKeep)
def execLdexpS (f : VFields) (s : State) := sMeans f s (plainShape f.ty) (ldexpFn f)

def frndFn (f : VFields) (ns : Word) : ElemFn :=
  let m := tyFmt f.ty
  byType f.ty (pureFn fun _ b _ => fIntegral m (modeOf f.mod.toNat ns) (fDecode m (nsDaz ns) b))
def execFrnd (f : VFields) (s : State) := vMeans f s (oneShape f.ty) (frndFn f) (fun _ => noKeep)
def execFrndS (f : VFields) (s : State) := sMeans f s (oneShape f.ty) (frndFn f)

def fclsFn (f : VFields) (_ : Word) : ElemFn := byType f.ty (pureFn fun _ b _ => ⟨fClass (tyFmt f.ty) b, 0⟩)
def execFcls (f : VFields) (s : State) := vMeans f s (oneShape f.ty) (fclsFn f) (fun _ => noKeep)
def execFclsS (f : VFields) (s : State) := sMeans f s (oneShape f.ty) (fclsFn f)

/-- `dot2` (R162). -/
def dot2Fn (f : VFields) (ns : Word) : ElemFn :=
  let m := tyFmt f.ty
  let v := fEnv f.mod.toNat ns
  let d (x : Nat) : FV := fDecode m v.daz x
  stochFn fF32 f.mod.toNat fun a b c r =>
    fDot fF32 v r [(d (a % 65536), d (b % 65536)), (d (a / 65536), d (b / 65536))] [fDecode fF32 v.daz c]
def execDot2 (f : VFields) (s : State) := vMeans f s (threeShape f.ty) (dot2Fn f) (fun _ => noKeep)
def execDot2S (f : VFields) (s : State) := sMeans f s (threeShape f.ty) (dot2Fn f)

/-! ## The pair word (R72) -/

/-- The V fields a sub-op stands for. -/
def pairFields (f : PFields) (op : Nat) (d a : BitVec 9) : VFields :=
  let t : Ty := if f.ptype = 0 then (if 5 ≤ op then .b32 else .i32)
    else if f.ptype = 1 then .f32 else if f.ptype = 2 then .f16x2 else .bf16x2
  ⟨d, a, f.bs, 0, 0, 0, 0, f.gp, f.gn, t, false, .vec, 0⟩
def pairFn (op : Nat) (f : VFields) (ns : Word) : ElemFn :=
  match op with
  | 0 => addFn f ns | 1 => subFn f ns | 2 => mulFn f ns | 3 => minMaxFn false f ns | 4 => minMaxFn true f ns
  | 5 => logicFn (· &&& ·) ns | 6 => logicFn (· ||| ·) ns | 7 => logicFn (· ^^^ ·) ns
  | 8 => shlFn f ns | 9 => shrFn f ns | 10 => sarFn f ns | _ => copyFn ns
/-- The tag a half of a pair word keeps, as its V form would (R300). -/
def pairKeep (s : State) (op : Nat) (f : VFields) (i : Iss) : KeepFn :=
  match op with | 0 => keepSum s f false i | 1 => keepSum s f true i | 11 => keepMov f i | _ => noKeep

/-- The first and the second half of a pair word as V fields. -/
def pairFst (f : PFields) : VFields := pairFields f f.opa.toNat f.da f.aa
def pairSnd (f : PFields) : VFields := pairFields f f.opb.toNat f.db f.ab
/-- The operand shape of a half: sub-op 11, `mov`, reads B alone. -/
def pairShape (op : BitVec 6) (t : Ty) : AluShape := if op = 11 then oneShape t else plainShape t
/-- What both halves read and write. -/
def pairUses (i : Iss) (f : PFields) : Uses :=
  let ua := vUses i (pairFst f) (pairShape f.opa (pairFst f).ty)
  let ub := vUses i (pairSnd f) (pairShape f.opb (pairSnd f).ty)
  { ua with vr := ua.vr ++ ub.vr, vw := ua.vw ++ ub.vw }
/-- The results of each half; both read the registers as they were (R72). -/
def pairOutA (s : State) (i : Iss) (f : PFields) : List (Nat × Res × Word) :=
  laneResults s i (pairFst f) (pairShape f.opa (pairFst f).ty) (pairFn f.opa.toNat (pairFst f) i.warp.nstat) (guardMask i f.gp f.gn)
def pairOutB (s : State) (i : Iss) (f : PFields) : List (Nat × Res × Word) :=
  laneResults s i (pairSnd f) (pairShape f.opb (pairSnd f).ty) (pairFn f.opb.toNat (pairSnd f) i.warp.nstat) (guardMask i f.gp f.gn)
/-- What a pair word does to a lane's region: both halves see the tags as they were. -/
def pairNote (s : State) (i : Iss) (f : PFields) (l : Nat) (r : Region) : Region :=
  regionNote.noteIn r (regionNote r f.da.toNat 4 (pairKeep s f.opa.toNat (pairFst f) i r l)
      (vUses i (pairFst f) (pairShape f.opa (pairFst f).ty)).vr)
    f.db.toNat 4 (pairKeep s f.opb.toNat (pairSnd f) i r l) (vUses i (pairSnd f) (pairShape f.opb (pairSnd f).ty)).vr
/-- Its operand checks. -/
def pairChk (i : Iss) (f : PFields) : Option (Cause × Nat) :=
  chkAll true (vOpnd i (pairFst f) (pairShape f.opa (pairFst f).ty) && vOpnd i (pairSnd f) (pairShape f.opb (pairSnd f).ty) &&
    vOk i f.da.toNat 1 && vOk i f.db.toNat 1)

def execPair (f : PFields) (s : State) : Host.Outcome State Fault Refusal := atIssue s fun i =>
  let u := pairUses i f
  let g := guardMask i f.gp f.gn
  let outA := pairOutA s i f
  let outB := pairOutB s i f
  let note := pairNote s i f
  gated s i (pairChk i f) u g <|
    if tagOverflow i g note ≠ 0 then trapRegion i (tagOverflow i g note) 0
    else unlessIv i (ivLanes outA ||| ivLanes outB) <|
      andThen (updWarp i.w fun x => putResults (putResults x false f.da.toNat outA) false f.db.toNat outB) <|
      andThen (updRegions i.w g note) <|
      andThen (wrote i u g) <|
      andThen (raisePennants i.w (allPen outA ||| allPen outB)) (advance i 1)

end Sys2Proof.Machine
end

