-- ==== Sys2Proof/Machine/Fetch.lean ====
section
/-! DEFINITION. Fetching instruction words (04_encoding R67, 25_traps_faults R393, R394), the checks of a header
(R64), page faults (R394), and the delivery of deferred traps (R231, R240, R269, R383). -/

namespace Sys2Proof.Machine

/-! ## Page faults -/

/-- The open fault of a context on a page. -/
def openFault (s : State) (cid page : Nat) : Option Nat :=
  (s.faults.find? fun e => decide (e.2.ctx = cid) && decide (e.2.page = page)).map (·.1)

/-- The number of the next page fault: beyond every fault listed. -/
def faultId (s : State) : Nat := s.faults.foldl (fun n e => max n (e.1 + 1)) s.mgmt.nextFault

/-- Raises a page fault, or joins the open one on the same page (R394). `kind` is 0 read, 1 write, 2 fetch, 3 engine
(R416). -/
def raiseFault (cid page kind die : Nat) : Act := look fun s =>
  if (openFault s cid page).isSome then skip
  else andThen (eff (.fault (faultId s) ⟨cid, page, kind, die, false⟩))
    (updMgmt fun m => { m with nextFault := faultId s + 1 })

/-! ## Words -/

/-- What fetching one word gives. -/
inductive Fetched where
  | word (w : DWord) (key : Nat)
  | absent
  | stop (c : Cause) (extra : Nat)
  deriving DecidableEq, Repr

/-- The word at an address, for the issuing strand (R67, R393, R400). A word in the instruction cache stands, unless
memory has changed since and the fetch sees the change (log entry 5). -/
def fetch (s : State) (i : Iss) (va : Nat) : Fetched :=
  if !canonical va then .stop .xlate 0
  else
    match translate s i.core i.cid i.ctx va with
    | .absent => .absent
    | .malformed l => .stop .xlate (0x100 + l)
    | .leaf e n =>
      if !permits s i.core i.ctx e (keyUnder e n va) 8 .fetch then .stop .prot 0
      else
        let k := keyUnder e n va
        let m := BitVec.ofNat 64 (bytesAt s.mem k 8)
        match (if pteUcs e then none else mLook (coreOf s i.core).icache k) with
        | some w => if w ≠ m && Config.mixedFetch s.tick && !locBad s (.glob k) 8 then .word m k else .word w k
        | none => if locBad s (.glob k) 8 then .stop .dataerr 1 else .word m k

/-- The page of an address is cached nowhere but at its home (R187). -/
def uncached (s : State) (i : Iss) (va : Nat) : Bool :=
  match translate s i.core i.cid i.ctx va with | .leaf e _ => pteUcs e | _ => false

/-- The core keeps the word fetched at `va`, in place of another where its instruction cache is full (R1, R67), unless
the page is uncached-shared (R187). -/
def cacheWord (i : Iss) (va k : Nat) (w : DWord) : Act := fun s =>
  if mLook (coreOf s i.core).icache k = some w || uncached s i va then []
  else updCore i.core (fun x =>
    let m := if x.icache.length < Config.icacheWords then x.icache
      else match pick x.icache (choice s 3) with | some e => mDel x.icache e.1 | none => x.icache
    { x with icache := mIns m k w }) s

/-- The strand is held at its place by a page fault on the page of `va` (R394). -/
def holdAt (i : Iss) (va kind : Nat) : Act :=
  andThen (raiseFault i.cid (va / 4096) kind (i.core / Config.coresPerDie)) <|
  andThen (updStrand i.w i.k fun t => { t with held := some (va / 4096, false) }) (stall i 14)

/-- A fetch that gives no word: the strand waits for the page, or takes the trap; a page answered FAIL is XLATE. -/
def fetchFails (i : Iss) (va : Nat) : Fetched → Act
  | .word _ _ => skip
  | .absent => if i.st.held = some (va / 4096, true) then trapLanes i .xlate i.lanes va 0 else holdAt i va 2
  | .stop c x => trapLanes i c i.lanes va x

/-! ## Headers -/

def hdrClass (h : DWord) : Nat := (bitsAt h 60 4).toNat
def hdrPairs (h : DWord) : Nat := (bitsAt h 0 16).toNat
/-- The faults of a header (R64). -/
def hdrBad (h : DWord) : Bool :=
  decide (6 ≤ hdrClass h) || decide (2 ^ (hdrCount h + 1) ≤ hdrPairs h) ||
    (decide (hdrPairs h ≠ 0) && decide (hdrClass h ≠ 0))
/-- The bounds of a header, in the order ld, st, cp, tl (R59). -/
def hdrBounds (h : DWord) : List Nat :=
  [(bitsAt h 52 4).toNat, (bitsAt h 48 4).toNat, (bitsAt h 44 4).toNat, (bitsAt h 40 4).toNat]
/-- The four counters stand within bounds, 15 being none (R55). -/
def boundsMet (x : Warp) (b : List Nat) : Bool :=
  (List.zip b [x.ld, x.st, x.cp, x.tl]).all fun y => decide (y.1 = 15) || decide (y.2 ≤ y.1)

/-! ## Deferred traps -/

/-- A point at which deferred traps are delivered (R231, R240): a clause boundary, a wait on tl or on cp, or an
instruction that observes tags. -/
structure DeliveryPoint where
  edge : Bool := false
  tl : Bool := false
  cp : Bool := false
  tags : DWord := 0
  deriving DecidableEq, Repr

/-- The deferred trap due for the strand at a point: MNAN traps in SEQ order to the strand that holds the elected lane
(R269), failed-operation traps to the warp's strand that reaches the point (R231). -/
def dueTrap (x : Warp) (t : Strand) (p : DeliveryPoint) : Option Trap :=
  if x.handler.isSome then none
  else
    x.deferred.find? fun d => if d.cause = .mnan then
        (p.edge || p.tl) && hasLane t.members (d.elected.getD 0) &&
          !(x.deferred.any fun y => decide (y.cause = .mnan) && decide (y.seq < d.seq) && hasLane x.live (y.elected.getD 0))
      else p.edge || p.cp || (decide (d.tag < 64) && p.tags.getLsbD d.tag)

/-- Takes a deferred trap at the strand's place; what raised it has a scalar guard, so LANES equals MEMBERS (R384). -/
def takeDeferred (i : Iss) (d : Trap) : Act :=
  if !i.st.shadow.isEmpty && i.st.target.isNone then stall i 11
  else
    let t : Trap :=
      { d with deferred := true, dpc := pcOf i.st, hdrAt := i.st.pc, slot := i.st.slot, members := i.st.members,
               lanes := i.st.members, name := nameOf i.warp i.blk.launch i.blk.b (lowLane i.st.members) }
    andThen (updWarp i.w fun x => { x with deferred := x.deferred.erase d }) <|
    if i.lau.trap = 0 then terminate i.cid (trapBytes t) (some i.blk.launch) t.pc 2 else deliver i.w i.k t

/-- `a`, unless a deferred trap is due first. -/
def unlessDue (i : Iss) (p : DeliveryPoint) (a : Act) : Act :=
  match dueTrap i.warp i.st p with
  | some d => takeDeferred i d
  | none => a

end Sys2Proof.Machine
end

