-- ==== Sys2Proof/Machine/Barriers.lean ====
section
/-! DEFINITION. Barriers (23_ref_sync_launch R364 to R368): when a phase completes, and the four barrier instructions. -/

namespace Sys2Proof.Machine

/-- Lanes of a warp that are live. -/
def liveOf (s : State) (w : Nat) : Mask := match mLook s.warps w with | some x => x.live | none => 0

/-- A phase completes, the barrier covering the warps `ws` (R365). -/
def phaseDone (s : State) (ws : List Nat) (b : Barrier) : Bool :=
  match b.count with
  | none => false
  | some 0 => ws.all fun w => decide (liveOf s w &&& ~~~(mGet 0 b.arrived w) = 0)
  | some n => decide (n ≤ (b.arrived.map fun e => laneCount e.2).sum)

/-- A barrier entering its next phase. -/
def nextPhase (b : Barrier) : Barrier := { phase := b.phase + 1 }

/-- Every barrier of a table whose phase completes enters the next one. -/
def settled (s : State) (ws : List Nat) (bars : Map Barrier) : Map Barrier :=
  bars.map fun e => (e.1, if phaseDone s ws e.2 then nextPhase e.2 else e.2)

/-- The warps of the blocks of a group that have not completed. -/
def groupWarps (s : State) (g : Group) : List Nat :=
  g.blocks.flatMap fun b => match mLook s.blocks b with | some x => if x.completed then [] else x.warps | none => []

/-- After an arrival or an exit: the barriers of a block and of its cluster group (R365). -/
def settleBars (blk : Nat) : Act := look fun s =>
  match mLook s.blocks blk with
  | none => skip
  | some b =>
    andThen (updBlock blk fun y => { y with bars := settled s b.warps y.bars }) <|
    andThen (updGroup b.group fun g => { g with bars := settled s (groupWarps s g) g.bars }) bump

/-- No access of the lanes `m` of a warp is in flight: what a release waits for (R199, R367). -/
def quiet (s : State) (w : Nat) (m : Mask) : Bool :=
  s.ops.all fun e => decide (e.2.w ≠ w) || decide (e.2.kind = .fence) ||
    e.2.units.all fun u => u.done || !hasLane m u.lane

/-- The barrier id an instruction names, and the count, 0 being the default (R364). -/
def barId (i : Iss) (f : CFields) : Nat :=
  if f.disp.getLsbD 18 then (sR i.warp f.a.toNat).toNat else f.disp.toNat % 16
def barCount (i : Iss) (f : CFields) : Nat :=
  if f.disp.getLsbD 19 then (sR i.warp f.b.toNat).toNat else f.disp.toNat / 16 % 16384
def barReads (f : CFields) : List Nat :=
  (if f.disp.getLsbD 18 then [f.a.toNat] else []) ++ (if f.disp.getLsbD 19 then [f.b.toNat] else [])
def barOpnd (i : Iss) (f : CFields) : Bool :=
  (!f.disp.getLsbD 18 || sOk i f.a.toNat 1) && (!f.disp.getLsbD 19 || sOk i f.b.toNat 1)
/-- A CNT above 8,192 (R364). -/
def barCnt (f : CFields) : Bool := f.disp.getLsbD 19 || decide (f.disp.toNat / 16 % 16384 ≤ 8192)
/-- The values that registers give (R364). -/
def barValues (i : Iss) (f : CFields) : Bool := decide (barId i f < 16) && decide (barCount i f ≤ 8192)
/-- `a` when the guard is true and the values are legal and no lane has a region; the next slot when it is false. -/
def barGo (i : Iss) (f : CFields) (a : Act) : Act :=
  if !guardScalar i f.gp f.gn then advance i 1
  else if !barValues i f then trapLanes i .illopnd i.st.members 0 0
  else noRegion i i.lanes 0 a

/-- The barrier an instruction of the strand names. -/
def barAt (s : State) (i : Iss) (cluster : Bool) (bid : Nat) : Barrier :=
  if cluster then (match mLook s.groups i.blk.group with | some g => mGet {} g.bars bid | none => {})
  else mGet {} i.blk.bars bid

/-- The lowest warp number that has arrived at a barrier. -/
def lowestArrived (s : State) (b : Barrier) : Option Nat :=
  b.arrived.foldl (fun m e => match mLook s.warps e.1 with
    | some x => some (match m with | some n => min n x.num | none => x.num)
    | none => m) none

/-- The core that counts a barrier's cycles (R368): the block's first, or that of the group's lowest-numbered block. -/
def countingCore (s : State) (blk : Block) (cluster : Bool) : Nat :=
  let own := blk.cores.headD 0
  if cluster then match (mLook s.groups blk.group).bind fun g => g.blocks.head?.bind fun b => mLook s.blocks b with
    | some x => x.cores.headD own
    | none => own
  else own

/-- The barrier with the strand's lanes arrived. -/
def arrive (s : State) (i : Iss) (cluster : Bool) (n : Nat) (b : Barrier) : Barrier :=
  let low := match lowestArrived s b with | some m => decide (i.warp.num ≤ m) | none => true
  { b with
    count := some n
    arrived := mIns b.arrived i.w (mGet 0 b.arrived i.w ||| i.lanes)
    first := if b.count.isNone then cycleOf s (countingCore s i.blk cluster) else b.first
    pc := if low then pcOf i.st else b.pc }

/-- Sets a barrier. -/
def putBar (i : Iss) (cluster : Bool) (bid : Nat) (b : Barrier) : Act :=
  if cluster then updGroup i.blk.group fun g => { g with bars := mIns g.bars bid b }
  else updBlock i.warp.block fun y => { y with bars := mIns y.bars bid b }

/-- An arrival of the strand's lanes, then `a` (R365, R367): it waits for the lanes' earlier accesses, and for the
current phase when one of its lanes has arrived in it already; another count raises ILLOPND. -/
def arriveThen (s : State) (i : Iss) (cluster : Bool) (bid n : Nat) (a : Act) : Act :=
  let b := barAt s i cluster bid
  if !quiet s i.w i.lanes then stall i 5
  else if mGet 0 b.arrived i.w &&& i.lanes ≠ 0 then stall i 5
  else if b.count.isSome && decide (b.count ≠ some n) then trapLanes i .illopnd i.st.members 0 0x40
  else andThen (putBar i cluster bid (arrive s i cluster n b)) (andThen a (settleBars i.warp.block))

/-- `bar` and `cbar`: arrive, then wait for the phase of the arrival. -/
def barMeans (cluster : Bool) (f : CFields) (s : State) (i : Iss) : Act :=
  let u : Uses := { sr := barReads f, mem := true, shadow := true, act := guardScalar i f.gp f.gn }
  match i.st.wait with
  | .barrier cl bid p =>
    gated s i none {} 0 <|
      if p < (barAt s i cl bid).phase then advance i 1 else waitWith i (.barrier cl bid p)
  | _ =>
    gated s i (chkAll true (barOpnd i f && barCnt f)) u 0 <|
      barGo i f <|
        arriveThen s i cluster (barId i f) (barCount i f)
          (waitWith i (.barrier cluster (barId i f) (barAt s i cluster (barId i f)).phase))

def execBar (f : CFields) (s : State) : Host.Outcome State Fault Refusal := atIssue s fun i => barMeans false f s i
def execCbar (f : CFields) (s : State) : Host.Outcome State Fault Refusal := atIssue s fun i => barMeans true f s i

/-- `barr`: arrive and go on; the lanes keep the phase they arrived in. -/
def execBarr (f : CFields) (s : State) : Host.Outcome State Fault Refusal := atIssue s fun i =>
  gated s i (chkAll true (barOpnd i f && barCnt f))
      { sr := barReads f, mem := true, shadow := true, act := guardScalar i f.gp f.gn } 0 <|
    barGo i f <|
      let bid := barId i f
      let p := (barAt s i false bid).phase
      arriveThen s i false bid (barCount i f) <|
        andThen (updWarp i.w fun x =>
          { x with barr := (lanesIn i.lanes).foldl (fun m l => mIns m (32 * bid + l) (p + 1)) x.barr }) (advance i 1)

/-- The last phase `barw` waits for: each lane's latest `barr` arrival, or the current phase. -/
def barwPhase (i : Iss) (bid cur : Nat) : Nat :=
  (lanesIn i.lanes).foldl (fun m l => max m (match mLook i.warp.barr (32 * bid + l) with | some p => p - 1 | none => cur)) 0

def execBarw (f : CFields) (s : State) : Host.Outcome State Fault Refusal := atIssue s fun i =>
  match i.st.wait with
  | .barrier cl bid p =>
    gated s i none {} 0 <|
      if p < (barAt s i cl bid).phase then advance i 1 else waitWith i (.barrier cl bid p)
  | _ =>
    gated s i (chkAll true (barOpnd i f && barCnt f))
        { sr := barReads f, mem := true, shadow := true, act := guardScalar i f.gp f.gn } 0 <|
      barGo i f <|
        let bid := barId i f
        let cur := (barAt s i false bid).phase
        let p := barwPhase i bid cur
        if p < cur then advance i 1 else waitWith i (.barrier false bid p)

end Sys2Proof.Machine
end

