-- ==== Sys2Proof/Machine/Strands.lean ====
section
/-! DEFINITION. Control transfers, waits and the strand instructions 0x90 to 0x9B (02_execution_model R19 to R32,
05_ref_integer_control R115 to R120, R303 of 19_regions_and_deadlines): forks in their three forms, arms, joins,
hoists and exits. -/

namespace Sys2Proof.Machine

/-! ## Control transfers (R115) -/

/-- A displacement in 8-byte units from the header of the clause (R60). -/
def labelAt (i : Iss) (d : Int) : DWord := i.st.pc + BitVec.ofInt 64 (8 * d)

/-- An even pair of scalar registers. -/
def sPair (i : Iss) (r : BitVec 9) : Bool := sOk i r.toNat 2

/-- A control transfer through its scalar guard: to `target`, after `put`; through a register target that is no header
address it takes MISALIGN (R65). -/
def transfer (s : State) (i : Iss) (f : CFields) (opnd : Bool) (u : Uses) (direct : Bool) (target : DWord)
    (put : Warp → Warp) : Act :=
  gated s i (chkAll true opnd) { u with shadow := true, act := guardScalar i f.gp f.gn } 0 <|
    if guardScalar i f.gp f.gn then
      if !direct && decide (target.toNat % 8 ≠ 0) then trapLanes i .misalign i.st.members target.toNat 0
      else andThen (updWarp i.w put) (andThen (clearBadS i.w u.sw) (jump i target))
    else fallThrough i

def execBra (f : CFields) (s : State) : Host.Outcome State Fault Refusal := atIssue s fun i =>
  transfer s i f true {} true (labelAt i f.disp.toInt) id

def execBrx (f : CFields) (s : State) : Host.Outcome State Fault Refusal := atIssue s fun i =>
  transfer s i f (sPair i f.a) { sr := regs f.a.toNat true } false
    (BitVec.ofNat 64 (sVal i.warp true f.a.toNat) + BitVec.ofInt 64 (8 * f.disp.toInt)) id

/-- The link pair takes the address of the next header. -/
def putLink (i : Iss) (r : BitVec 9) (x : Warp) : Warp := setSVal x true r.toNat (nextHeader i.st.pc i.st.hdr).toNat

def execCall (f : CFields) (s : State) : Host.Outcome State Fault Refusal := atIssue s fun i =>
  transfer s i f (sPair i f.a) { sw := regs f.a.toNat true } true (labelAt i f.disp.toInt) (putLink i f.a)

def execCallIndirect (f : CFields) (s : State) : Host.Outcome State Fault Refusal := atIssue s fun i =>
  transfer s i f (sPair i f.a && sPair i f.b) { sr := regs f.b.toNat true, sw := regs f.a.toNat true } false
    (BitVec.ofNat 64 (sVal i.warp true f.b.toNat)) (putLink i f.a)

def execRet (f : CFields) (s : State) : Host.Outcome State Fault Refusal := atIssue s fun i =>
  transfer s i f (sPair i f.a) { sr := regs f.a.toNat true } false (BitVec.ofNat 64 (sVal i.warp true f.a.toNat)) id

/-! ## Entries of the strand table -/

/-- A strand that takes up lanes at a header, keeping depth, age and handler status. -/
def renewed (t : Strand) (members : Mask) (pc : DWord) (arm : Option (Nat × Bool)) (cont : Option Nat) : Strand :=
  { members := members, pc := pc, depth := t.depth, age := t.age, arm := arm, cont := cont, handler := t.handler }

/-- What takes up the entry of strand `t` when the arm it carried has no lane left: the next phase of a serialised or
one-sided fork (R20), else nothing. A continuation without lanes hands on to the arm it carried (R29). -/
def takeUp (x : Warp) (t : Strand) : Nat → Option (Nat × Bool) → Warp × Option Strand
  | 0, _ => (x, none)
  | _ + 1, none => (x, none)
  | n + 1, some (fid, side) =>
    match mLook x.forks fid with
    | none => (x, none)
    | some f =>
      let toC : Warp × Option Strand :=
        let y := { x with forks := mIns x.forks fid { f with phase := .joined } }
        if f.alive = 0 then takeUp y t n f.outer
        else (y, some (renewed t f.alive f.ljoin f.outer (some fid)))
      if (armAt f side).left ≠ 0 then (x, none)
      else match f.phase, side with
        | .runThen, false =>
          if f.e.left ≠ 0 then
            ({ x with forks := mIns x.forks fid { f with phase := .runElse } },
              some (renewed t f.e.left f.lelse (some (fid, true)) none))
          else toC
        | .runElse, true => toC
        | .only, _ => toC
        | _, _ => (x, none)

/-- The fork records that a strand, or another record, still names. -/
def prune (x : Warp) : Warp :=
  let ts := mVals x.strands ++ x.heldStrands ++ (match x.handler with | some h => [h.strand] | none => [])
  { x with forks := x.forks.filter fun e =>
      ts.any (fun t => decide (t.cont = some e.1) || decide (t.arm.map (·.1) = some e.1)) ||
        x.forks.any (fun g => decide (g.2.outer.map (·.1) = some e.1)) }

/-- Puts what takes up an entry in it, or frees the entry, which passes to the warp's oldest held record (R306). -/
def reenter (x : Warp) (k : Nat) (r : Option Strand) : Warp :=
  match r with
  | some t => { x with strands := mIns x.strands k t }
  | none => match x.heldStrands with
    | h :: hs => { x with strands := mIns x.strands k h, heldStrands := hs }
    | [] => { x with strands := mDel x.strands k }

/-- A strand ends its part of its arm. -/
def endStrand (x : Warp) (k : Nat) (t : Strand) (a : Option (Nat × Bool)) : Warp :=
  let r := takeUp x t (x.forks.length + 1) a
  reenter r.1 k r.2

/-- The warp of a sub-core with the oldest held record that may take an entry (R306). -/
def nextHeld (s : State) (core sub : Nat) : Option (Nat × Warp) :=
  (s.warps.filter fun e => decide (e.2.core = core) && decide (e.2.sub = sub) && decide (e.2.place = .resident) &&
      !e.2.heldStrands.isEmpty && decide (e.2.strands.length < Config.strandsPerWarp)).foldl
    (fun b e => match b with
      | some y => if (e.2.heldStrands.map (·.heldAt)).headD 0 < (y.2.heldStrands.map (·.heldAt)).headD 0 then some e else b
      | none => some e) none

/-- The oldest held record of the sub-core's warps takes an entry that is free (R306). -/
def seatOne (core sub : Nat) : Act := look fun s =>
  match nextHeld s core sub, freeEntries s core sub with
  | some (w, x), k :: _ => (match x.heldStrands with
    | h :: hs => eff (.warp w { x with strands := mIns x.strands k h, heldStrands := hs })
    | [] => skip)
  | _, _ => skip
/-- Held records take the entries that are free. -/
def seatHeld (core sub : Nat) : Act := look fun s =>
  forAll (fun _ => seatOne core sub) (s.warps.flatMap fun e => if e.2.core = core ∧ e.2.sub = sub then e.2.heldStrands else [])

/-! ## Arms -/

/-- Lanes leave one arm. -/
def leaveArm (x : Warp) (fid : Nat) (side : Bool) (m : Mask) : Warp :=
  match mLook x.forks fid with
  | some f => { x with forks := mIns x.forks fid (setArm f side { armAt f side with left := (armAt f side).left &&& ~~~m }) }
  | none => x

/-- `armend` (R21): the strand's lanes leave its arm and the strand retires, or moves to the fork's next phase. -/
def execArmend (f : CFields) (s : State) : Host.Outcome State Fault Refusal := atIssue s fun i =>
  gated s i none { mem := true, shadow := true } 0 <|
    if !guardScalar i f.gp f.gn then fallThrough i
    else noRegion i i.lanes 0 <|
      match i.st.arm with
      | none => trapLanes i .clause i.st.members 0 0
      | some (fid, side) =>
        andThen (updWarp i.w fun x =>
          prune (endStrand (leaveArm x fid side i.st.members) i.k i.st (some (fid, side)))) <|
        andThen (seatHeld i.core i.warp.sub) bump

/-! ## `fork` (R19, R20) -/

/-- Records on a warp's fork-record stack: serialised and one-sided forks under way, and held strands (R306). -/
def stackDepth (x : Warp) : Nat :=
  ((mVals x.forks).filter fun f => decide (f.phase ≠ .split) && decide (f.phase ≠ .joined)).length + x.heldStrands.length

/-- The displacement of Ljoin (R24): B:C, signed. -/
def joinDisp (f : CFields) : Int := (f.b ++ f.c).toInt

/-- Pushes the record of a fork whose arms run in the strand's own entry: the strand becomes the arm `side`. -/
def forkInPlace (i : Iss) (f : Fork) (phase : Phase) (side : Bool) (pc : DWord) : Act :=
  andThen (updWarp i.w fun x =>
    prune { x with
            forks := mIns x.forks x.nextFork { f with phase := phase }
            nextFork := x.nextFork + 1
            strands := mIns x.strands i.k
              (renewed i.st (armAt f side).lanes pc (some (x.nextFork, side)) none) }) bump

/-- The serialised-fork counter of a core counts one (R19), and its trace unit sees it (R425): the counter is number 0
(log entry 62). -/
def countFork (core : Nat) : Act :=
  andThen (updCore core fun c => { c with forkEvents := c.forkEvents + 1 }) <|
  look fun s => traceTest core fun c => c.counts.contains (0, (coreOf s core).forkEvents)

def execFork (f : CFields) (s : State) : Host.Outcome State Fault Refusal := atIssue s fun i =>
  let m := i.lanes
  let t := m &&& maskOf (pR i.warp f.a.toNat)
  let e := m &&& ~~~t
  let lelse := labelAt i f.disp.toInt
  let ljoin := labelAt i (joinDisp f)
  let next := nextHeader i.st.pc i.st.hdr
  let fk : Fork := ⟨ljoin, lelse, ⟨t, t, [], []⟩, ⟨e, e, [], []⟩, .split, i.st.arm, m⟩
  let free := freeEntries s i.core i.warp.sub
  let spill (a : Act) : Act :=
    if 64 ≤ stackDepth i.warp && !areaWritable s i.ctx i.ctx.save.toNat 4 then trapLanes i .cont m i.ctx.save.toNat 0 else a
  gated s i (chkAll true (pOk f.a.toNat)) 
      { pr := [f.a.toNat], po := [f.a.toNat], mem := true, shadow := true, act := guardScalar i f.gp f.gn } 0 <|
    if !guardScalar i f.gp f.gn then fallThrough i
    else noRegion i m 0 <|
      if e = 0 then spill (forkInPlace i fk .only false next)
      else if t = 0 then spill (forkInPlace i fk .only true lelse)
      else
        let serial := andThen (forkInPlace i fk .runThen false next)
          (countFork i.core)
        match pick free (choice s 1) with
        | none => spill serial
        | some k1 => match pick (free.erase k1) (choice s 2) with
          | none => spill serial
          | some k2 =>
            if Config.strandsPerWarp < i.warp.strands.length + 2 || decide (i.st.depth = Config.maxDepth) then spill serial
            else
              andThen (updWarp i.w fun x =>
                let n := x.nextFork
                let a := x.nextAge
                let st (ms : Mask) (pc : DWord) (d age : Nat) (arm : Option (Nat × Bool)) (c : Option Nat) : Strand :=
                  { renewed i.st ms pc arm c with depth := d, age := age }
                prune { x with
                        forks := mIns x.forks n fk
                        nextFork := n + 1
                        nextAge := a + 3
                        strands := mIns (mIns (mIns x.strands i.k (st t next (i.st.depth + 1) a (some (n, false)) none))
                          k1 (st e lelse (i.st.depth + 1) (a + 1) (some (n, true)) none))
                          k2 (st m ljoin i.st.depth (a + 2) i.st.arm (some n)) }) bump

/-! ## `join`, `joinp` and `hoist` (R22, R23) -/

/-- The side of a fork that a lane ran on. -/
def sideOf (f : Fork) (l : Nat) : Option Bool :=
  if hasLane f.t.lanes l then some false else if hasLane f.e.lanes l then some true else none

/-- The lanes of `g` in each arm. -/
def armReads (f : Fork) (rt re : List Nat) (g : Mask) : List (Nat × Mask) :=
  rt.map (fun r => (r, g &&& f.t.lanes)) ++ re.map (fun r => (r, g &&& f.e.lanes))

/-- What a `join` of the continuation of fork `k` reads and writes. -/
def joinUses (i : Iss) (f : VFields) (k : Fork) : Uses :=
  let w := tyWide f.ty
  let a := regs f.a.toNat w
  let b := regs f.b.toNat w
  { vr := a ++ b, pr := guardReads f.gp, vw := regs f.d.toNat w, shadow := true, byArm := true,
    vm := armReads k a b (guardMask i f.gp f.gn) }
/-- Each source of a `join`, and its guard, is ready (R23). -/
def joinReady (s : State) (i : Iss) (f : VFields) (k : Fork) : Bool :=
  (guardReads f.gp).all (readyP i k) &&
    ((regs f.a.toNat (tyWide f.ty)).all (fun r => armDone k.t || hoistedV s i.w k.t r) &&
      (regs f.b.toNat (tyWide f.ty)).all (fun r => armDone k.e || hoistedV s i.w k.e r))

def execJoin (f : VFields) (s : State) : Host.Outcome State Fault Refusal := atIssue s fun i =>
  let w := tyWide f.ty
  let g := guardMask i f.gp f.gn
  match contFork i with
  | none => gated s i (chkAll true (vOk i f.d.toNat (span w) && vOk i f.a.toNat (span w) && vOk i f.b.toNat (span w)))
      { pr := guardReads f.gp, shadow := true } 0 (noRegion i g 0 (trapLanes i .clause i.lanes 0 0))
  | some k =>
    gated s i (chkAll true (vOk i f.d.toNat (span w) && vOk i f.a.toNat (span w) && vOk i f.b.toNat (span w)))
        (joinUses i f k) g <|
      if !joinReady s i f k then stall i 3
      else noRegion i g 0 <|
        andThen (updWarp i.w fun x => (lanesIn g).foldl (fun y l =>
          match sideOf k l with
          | some sd => setVal y w f.d.toNat l (vVal i.warp w (if sd then f.b.toNat else f.a.toNat) l)
          | none => y) x) <|
        andThen (wrote i (joinUses i f k) g) (advance i 1)

def joinpUses (f : VFields) : Uses :=
  { pr := guardReads f.gp ++ [f.a.toNat, f.b.toNat], pw := [f.d.toNat], shadow := true, byArm := true, act := false,
    po := onlyOperands f.gp [f.a.toNat, f.b.toNat] }
def joinpReady (i : Iss) (f : VFields) (k : Fork) : Bool :=
  (guardReads f.gp).all (readyP i k) &&
    ((armDone k.t || hoistedP k.t f.a.toNat) && (armDone k.e || hoistedP k.e f.b.toNat))

def execJoinp (f : VFields) (s : State) : Host.Outcome State Fault Refusal := atIssue s fun i =>
  let g := guardMask i f.gp f.gn
  match contFork i with
  | none => gated s i (chkAll true (pOk f.d.toNat && pOk f.a.toNat && pOk f.b.toNat)) { pr := guardReads f.gp, shadow := true } 0
      (noRegion i g 0 (trapLanes i .clause i.lanes 0 0))
  | some k =>
    gated s i (chkAll true (pOk f.d.toNat && pOk f.a.toNat && pOk f.b.toNat)) (joinpUses f) g <|
      if !joinpReady i f k then stall i 3
      else noRegion i g 0 <|
        andThen (updWarp i.w fun x => (lanesIn g).foldl (fun y l =>
          match sideOf k l with
          | some sd => setP y f.d.toNat l (pR i.warp (if sd then f.b.toNat else f.a.toNat) l)
          | none => y) x) <|
        andThen (wrote i (joinpUses f) g) (advance i 1)

/-- The registers a `hoist` names (R24). -/
def hoistNames (f : VFields) : List Nat := [f.d.toNat, f.a.toNat, f.b.toNat, f.c.toNat].take (f.mod.toNat + 1)

/-- An arm has `rs` covered for the lanes `g`. -/
def cover (preds : Bool) (rs : List Nat) (g : Mask) (a : Arm) : Arm :=
  let add (m : Map Mask) : Map Mask := rs.foldl (fun y r => mPut 0 y r (mGet 0 y r ||| g)) m
  if preds then { a with hoistP := add a.hoistP } else { a with hoistV := add a.hoistV }

def execHoist (f : VFields) (s : State) : Host.Outcome State Fault Refusal := atIssue s fun i =>
  let g := guardMask i f.gp f.gn
  let preds := decide (f.kind ≠ .vec)
  let rs := hoistNames f
  gated s i (chkAll true (rs.all fun r => if preds then pOk r else vOk i r 1))
      { pr := guardReads f.gp, shadow := true } 0 <|
    noRegion i g 0 <|
      andThen (updWarp i.w fun x => (armsOf i.warp i.st).foldl (fun y a =>
        match mLook y.forks a.1 with
        | some k => { y with forks := mIns y.forks a.1 (setArm k a.2 (cover preds rs g (armAt k a.2))) }
        | none => y) x) (advance i 1)

/-! ## `exit` (R29) -/

/-- Lanes leave every arm and every continuation of the warp, and become vacant. -/
def removeLanes (x : Warp) (m : Mask) : Warp :=
  let cut (a : Arm) : Arm := { a with left := a.left &&& ~~~m }
  { x with
    live := x.live &&& ~~~m
    forks := x.forks.map fun e => (e.1, { e.2 with t := cut e.2.t, e := cut e.2.e, alive := e.2.alive &&& ~~~m })
    strands := x.strands.map fun e => (e.1, { e.2 with members := e.2.members &&& ~~~m })
    heldStrands := (x.heldStrands.map fun t => { t with members := t.members &&& ~~~m }).filter fun t => decide (t.members ≠ 0)
    handler := x.handler.map fun h => { h with strand := { h.strand with members := h.strand.members &&& ~~~m } }
    regions := x.regions.filter fun e => !hasLane m e.1
    deferred := x.deferred.filter fun d => match d.elected with | some l => !hasLane m l | none => true }

/-- Strands that have lost every lane retire; a serialised fork whose running arm has none left moves on. When the
handler has lost every lane, the parked strand retires with it (R386). -/
def retireEmpty (x : Warp) : Warp :=
  (x.strands.filter fun e => decide (e.2.members = 0)).foldl (fun (y : Warp) e =>
    match y.handler with
    | some h =>
      if h.strand.members = 0 then
        let z := { y with handler := none }
        if e.2.handler then endStrand z e.1 h.strand h.strand.arm else endStrand z e.1 e.2 e.2.arm
      else endStrand y e.1 e.2 e.2.arm
    | none => endStrand y e.1 e.2 e.2.arm) x

/-- An `mma` whose elected lane exits has no strand left to trap (R269). -/
def forgetElected (w : Nat) (m : Mask) : Act := fun s =>
  s.engs.filterMap fun e => match e.2.kind with
    | .mma p => if e.2.w = w ∧ p.elected.any (hasLane m) then some (.eng e.1 { e.2 with kind := .mma { p with elected := none } }) else none
    | _ => none

/-- A contribution whose strand loses its last lane while the router has not taken it still goes out (R326, R15). -/
def leaveContribution (w : Nat) (m : Mask) : Act := look fun s =>
  match mLook s.warps w, (mLook s.warps w).bind fun x => mLook s.blocks x.block with
  | some x, some b => forAll (fun (e : Nat × Strand) => match e.2.wait with
    | .contributing n idx dl ws =>
      if e.2.members &&& ~~~m ≠ 0 then skip
      else updCtx b.ctx fun c => match mLook c.groups n with
        | some g => { c with groups := mIns c.groups n { g with flight := g.flight ++ [⟨idx, dl, ws⟩] } }
        | none => c
    | _ => skip) x.strands
  | _, _ => skip

/-- The lanes `m` of a warp exit. -/
def exitLanes (w : Nat) (m : Mask) : Act := andThen (forgetElected w m) <| andThen (leaveContribution w m) <| look fun s =>
  match mLook s.warps w with
  | none => skip
  | some x =>
    andThen (updWarp w fun y => prune (retireEmpty (removeLanes y m))) <|
    andThen (seatHeld x.core x.sub) <|
    andThen (settleBars x.block) (nextTrap w)

def execExit (f : CFields) (s : State) : Host.Outcome State Fault Refusal := atIssue s fun i =>
  gated s i none { shadow := true } 0 <|
    if guardScalar i f.gp f.gn then exitLanes i.w i.st.members else fallThrough i

/-! ## `waitc` and `yield` (R119, R120) -/

/-- The bounds in DISP. -/
def waitBounds (f : CFields) : List Nat :=
  [(f.disp.extractLsb' 12 4).toNat, (f.disp.extractLsb' 8 4).toNat, (f.disp.extractLsb' 4 4).toNat,
    (f.disp.extractLsb' 0 4).toNat]

/-- The delivery point that bounds make (R231, R240). -/
def pointOfBounds (b : List Nat) : DeliveryPoint :=
  { tl := decide (b.getD 3 15 < 15), cp := decide (b.getD 2 15 < 15) }

def execWaitc (f : CFields) (s : State) : Host.Outcome State Fault Refusal := atIssue s fun i =>
  gated s i none {} 0 <|
    if !guardScalar i f.gp f.gn then advance i 1
    else unlessDue i (pointOfBounds (waitBounds f)) <|
      if boundsMet i.warp (waitBounds f) then advance i 1 else stall i 2

/-- The oldest of some warps (R348). -/
def oldest (l : List (Nat × Warp)) : Option (Nat × Warp) :=
  l.foldl (fun b e => match b with
    | none => some e
    | some y => if e.2.age < y.2.age then some e else b) none

/-- A page whose fault is not answered holds the strand (R394). -/
def pageHeld (t : Strand) : Bool := t.held.any fun h => !h.2
/-- A strand may be tried: no trap or page holds it, and it waits for nothing, or waited before the last change. -/
def strandReady (s : State) (t : Strand) : Bool :=
  (decide (t.wait = .none) || (decide (t.idleAt < s.epoch) && decide (t.wait ≠ .debugStop))) && t.trap.isNone &&
    !pageHeld t && decide (issuing t ≠ 0)
/-- A strand of a warp may be tried. -/
def warpReady (s : State) (x : Warp) : Bool := (mVals x.strands).any (strandReady s)

/-- The resident warps of a sub-core. -/
def residents (s : State) (core sub : Nat) : List (Nat × Warp) :=
  s.warps.filter fun e => decide (e.2.core = core) && decide (e.2.sub = sub) && decide (e.2.place = .resident)

/-- A warp as it leaves the active set: a strand that stands at a slot reads its header again before the slot issues
(R66). -/
def leaveActive (x : Warp) : Warp :=
  { x with active := false
           strands := x.strands.map fun e => (e.1, if e.2.slot.isSome then { e.2 with reread := true } else e.2) }

/-- The name a record of the device gives a warp: its lowest live lane's (R6). -/
def warpName (s : State) (x : Warp) : ThreadName :=
  match mLook s.blocks x.block with
  | some b => nameOf x b.launch b.b (lowLane x.live)
  | none => .ordinary 0 0 0

/-- The warp leaves the active set and the oldest ready pending warp of its sub-core takes the place (R351). -/
def swapOut (w : Nat) (p : Nat) : Act := look fun s =>
  andThen (updWarp w fun x => { leaveActive x with readySince := none }) <|
  andThen (updWarp p fun x => { x with active := true, activeSince := cycleOf s x.core, readySince := none }) <|
  andThen (match mLook s.warps w, mLook s.warps p with
    | some x, some y => traceNote x.core (.swap w p (warpName s x) (warpName s y))
    | _, _ => skip) bump

/-- `yield` (R120): the strand goes on at the next header, and before that header issues the scheduler decides whether
the warp keeps its place (`yieldTurn`). -/
def execYield (f : CFields) (s : State) : Host.Outcome State Fault Refusal := atIssue s fun i =>
  gated s i none { shadow := true } 0 <|
    andThen (whenA (guardScalar i f.gp f.gn) (updWarp i.w fun x => { x with yielding := some i.k })) (fallThrough i)

end Sys2Proof.Machine
end

