-- ==== Sys2Proof/Machine/Access.lean ====
section
/-! DEFINITION. Memory accesses of threads: addresses and their checks (04_encoding R74, 11_memory_hierarchy R174 to
R177, 13_ref_memory_copy R214), the split of a strand by a page fault (02 R33), accesses in flight and the order in
which they are performed (12_ordering R197 to R204), and atomic operations (R220). -/

namespace Sys2Proof.Machine

/-! ## Widths and addresses -/

/-- Access size in bytes (R74). -/
def widthBytes : Width → Nat
  | .w8 => 1 | .w16 => 2 | .w32 => 4 | .w64 => 8 | .x2 => 8 | .x4 => 16 | .x8 => 32
/-- Registers of the data span (R213). -/
def widthRegs : Width → Nat
  | .w8 => 1 | .w16 => 1 | .w32 => 1 | .w64 => 2 | .x2 => 2 | .x4 => 4 | .x8 => 8
/-- The words of one access (R198): how many, and the bytes of each. -/
def widthParts : Width → Nat × Nat
  | .w8 => (1, 1) | .w16 => (1, 2) | .w32 => (1, 4) | .w64 => (1, 8) | .x2 => (2, 4) | .x4 => (4, 4) | .x8 => (8, 4)

/-- The base of a lane's address. -/
def baseAt (i : Iss) (f : MFields) (l : Nat) : Nat :=
  if f.ak then sVal i.warp true f.a.toNat else vVal i.warp true f.a.toNat l
/-- The address of a lane (R74). -/
def addrAt (i : Iss) (f : MFields) (l : Nat) : Nat :=
  ofInt 64 (baseAt i f l + f.ofs.toInt * widthBytes f.width)
/-- Without an offset (R219, R331). -/
def plainAt (i : Iss) (f : MFields) (l : Nat) : Nat := baseAt i f l

/-- The base registers. -/
def addrV (f : MFields) : List Nat := if f.ak then [] else regs f.a.toNat true
def addrS (f : MFields) : List Nat := if f.ak then regs f.a.toNat true else []
def addrOk (i : Iss) (f : MFields) : Bool := if f.ak then sOk i f.a.toNat 2 else vOk i f.a.toNat 2

/-! ## Checks (R214) -/

/-- What the checks say of one lane's access: its place, a trap with its rank in the order of R214, or a page that is
not resident. -/
inductive Fate where
  | ok (loc : Loc) (leaf : Option DWord)
  | stop (rank : Nat) (c : Cause) (extra : Nat)
  | absent
  deriving DecidableEq, Repr

/-- Every byte lies in one region of a list. -/
def insideAny (l : List (Nat × Nat)) (va n : Nat) : Bool := l.any fun r => decide (r.1 ≤ va) && decide (va + n ≤ r.1 + r.2)

/-- A side overlaps a range lock's side. -/
def sideHit (a : Side) (n : Nat) (b : Side) (m : Nat) : Bool :=
  match a, b with
  | .virt x, .virt y => rangeHit x n y m
  | .scr c x, .scr d y => decide (c = d) && rangeHit x n y m
  | .bst c x, .bst d y => decide (c = d) && rangeHit x n y m
  | _, _ => false

/-- A thread's access meets a lock of its core and context (R208). -/
def lockHit (s : State) (core cid : Nat) (side : Side) (n : Nat) (writes : Bool) : Bool :=
  s.locks.any fun l => decide (l.core = core) && decide (l.ctx = cid) && (writes || l.write) && sideHit side n l.side l.n

/-- The block of the caller's cluster group that cluster core index `k` names (R177). -/
def clusterBlock (s : State) (i : Iss) (k : Nat) : Option Nat :=
  match mLook s.groups i.blk.group with
  | none => none
  | some g => g.blocks.find? fun b => match mLook s.blocks b with
    | some x => if i.lau.cluster ≤ 1 then decide (k = 0) && decide (b = i.warp.block)
      else decide (x.cores.headD 0 = g.base + k)
    | none => false

/-- A peer device that no route reaches any more (R399). -/
def peerLost (s : State) (key : Nat) : Bool := decide (6 * 2 ^ 64 ≤ key) && s.mgmt.linksDown.contains (key / 2 ^ 64 - 6)

/-- The last checks of an access whose place is known: locks, then uncorrectable words. -/
def placed (s : State) (i : Iss) (loc : Loc) (leaf : Option DWord) (side : Side) (n : Nat) (reads writes : Bool) : Fate :=
  if lockHit s i.core i.cid side n writes then .stop 5 .rlock 0
  else if reads && locBad s loc n then .stop 6 .dataerr 1
  else match loc with
    | .glob k => if peerLost s k then .stop 6 .dataerr 2 else .ok loc leaf
    | .scr _ _ => .ok loc leaf

/-- The checks of one lane's access of `n` bytes (R174, R193, R208, R214, R393, R400). -/
def fateOf (s : State) (i : Iss) (space : Space) (va n : Nat) (reads writes : Bool) : Fate :=
  if va % n ≠ 0 then .stop 0 .misalign 0
  else match space with
  | .glob | .sealed =>
    if space = .sealed && (writes || !insideAny i.ctx.sealed va n) then .stop 1 .prot 0
    else if !canonical va then .stop 1 .xlate 0
    else match translate s i.core i.cid i.ctx va with
      | .absent => if i.st.held = some (va / 4096, true) ∨ i.st.failed.contains (va / 4096) then .stop 2 .xlate 0 else .absent
      | .malformed l => .stop 2 .xlate (0x100 + l)
      | .leaf e sz =>
        if !permits s i.core i.ctx e (keyUnder e sz va) n (if writes then .write else .read) then .stop 3 .prot 0
        else if writes && touchesAny (i.ctx.sealed ++ i.ctx.marks) va n then .stop 4 .sealed 0
        else placed s i (.glob (keyUnder e sz va)) (some e) (.virt va) n reads writes
  | .blk =>
    if va + n ≤ 2 ^ 25 ∧ va + n ≤ i.lau.scratch then
      placed s i (.scr i.warp.block va) none (.scr i.warp.block va) n reads writes
    else .stop 1 .prot 0
  | .clu =>
    let o := va % 2 ^ 32
    if va < 2 ^ 36 ∧ o < 2 ^ 25 ∧ o + n ≤ i.lau.scratch then
      match clusterBlock s i (va / 2 ^ 32) with
      | some b => placed s i (.scr b o) none (.scr b o) n reads writes
      | none => .stop 1 .prot 0
    else .stop 1 .prot 0

/-- A lane with its address and fate. -/
abbrev LaneFate := Nat × Nat × Fate

/-- The first trap of R214: its cause, the lanes with that cause, the address and EXTRA of the lowest of them. -/
def firstStop (fs : List LaneFate) : Option (Cause × Mask × Nat × Nat) :=
  let best := fs.foldl (fun (b : Option (Nat × Cause)) x => match x.2.2 with
    | .stop r c _ => (match b with | some y => if r < y.1 then some (r, c) else b | none => some (r, c))
    | _ => b) none
  match best with
  | none => none
  | some (_, c) =>
    let hit := fs.filter fun x => match x.2.2 with | .stop _ d _ => decide (d = c) | _ => false
    match hit with
    | [] => none
    | x :: _ => some (c, hit.foldl (fun m y => m ||| laneBit y.1) 0, x.2.1, match x.2.2 with | .stop _ _ e => e | _ => 0)

/-- The lanes whose page is not resident, with their addresses. -/
def absentLanesOf (fs : List LaneFate) : List (Nat × Nat) :=
  fs.filterMap fun x => match x.2.2 with | .absent => some (x.1, x.2.1) | _ => none
/-- The lanes that are performed: place and leaf entry. -/
def okLanes (fs : List LaneFate) : List (Nat × Nat × Loc × Option DWord) :=
  fs.filterMap fun x => match x.2.2 with | .ok p e => some (x.1, x.2.1, p, e) | _ => none

/-- The TLB of the core keeps the translations used (R393). -/
def fillFor (i : Iss) (oks : List (Nat × Nat × Loc × Option DWord)) : Act :=
  forAll (fun (x : Nat × Nat × Loc × Option DWord) => look fun s =>
    if (mLook (coreOf s i.core).tlb (tlbKey i.cid x.2.1)).isSome then skip
    else match x.2.2.2 with
      | none => skip
      | some _ => match walk s i.ctx x.2.1 with
        | .leaf e n => fillTlb i.core i.cid x.2.1 e n
        | _ => skip) oks

/-- The blocks that have a directory entry. -/
def dirBlocks (s : State) : List Nat := (s.dir.map fun e => e.1 / 1024).eraseDups
/-- The directory forgets a block: every sharer loses its words (R182). -/
def dropEntry (line : Nat) : Act := fun s => (s.dir.filter fun e => decide (e.1 / 1024 = line)).map fun e => .share e.1 0

/-- The directory records words of a block for a sharer; a block that finds its set full has one of it freed first
(R182). -/
def recordShare (line agent : Nat) (m : Mask) : Act := look fun s =>
  let set := if s.dir.length < Config.dirWays then [] else (dirBlocks s).filter fun b => decide (Config.dirSet b = Config.dirSet line)
  andThen (if set.contains line || decide (set.length < Config.dirWays) then skip
    else match pick set (choice s 2) with | some b => dropEntry b | none => skip) fun s =>
    [.share (line * 1024 + agent) (mGet 0 s.dir (line * 1024 + agent) ||| m)]

/-- The sharer that an L2 slice of a die is at a home of another die (R185). -/
def dieAgent (die : Nat) : Nat := 1001 + die
/-- The die of a block's home, for DRAM and LPDDR (R181). -/
def homeDie (k : Nat) : Nat :=
  if k < 4 * 2 ^ 64 then k / 2 ^ 64 else Config.homeSlice (k / 128) / Config.coresPerDie

/-- A core becomes a sharer of words of a block; where the home is on another die, so does the L2 slice of the core's own
die, with the union of what it grants (R182, R185). -/
def shareWords (core k : Nat) (m : Mask) : Act :=
  andThen (recordShare (k / 128) core m) <|
    if decide (k < deviceKeys) && decide (homeDie k ≠ core / Config.coresPerDie) then
      recordShare (k / 128) (dieAgent (core / Config.coresPerDie)) m else skip

/-- The home records the issuing core as a sharer of the words of a load, and of no others (R182: log entry 79), unless
the page is uncached-shared (R187), sealed (R193) or on a peer (R181). -/
def shareFor (i : Iss) (n : Nat) (oks : List (Nat × Nat × Loc × Option DWord)) : Act :=
  forAll (fun (x : Nat × Nat × Loc × Option DWord) => match x.2.2.1, x.2.2.2 with
    | .glob k, some e =>
      if pteUcs e || decide (3 ≤ pteTier e) || touchesAny i.ctx.sealed x.2.1 n then skip
      else shareWords i.core k (maskOf fun j => decide (k % 128 / 4 ≤ j) && decide (4 * j < k % 128 + n))
    | _, _ => skip) oks

/-- A strand with some lanes parked at its instruction (R33): the rest go on as `go` says; where none of a re-executing
part is left, the strand stands where its other part waits (R34). -/
def parkLanes (p : Part) (go : Strand → Strand) (t : Strand) : Strand :=
  let u := { t with shadow := p :: t.shadow }
  match u.target with
  | some q => if issuing u = 0 then standBack q u else go u
  | none => go u

/-- Parks the lanes whose pages are not resident, each page raising its fault; `sent` is the routed data they send, and
`go` says where the rest of the strand goes on (R33). -/
def splitOff (i : Iss) (ab : List (Nat × Nat)) (kind : Nat) (sent : Map Nat) (go : Strand → Strand) : Act :=
  andThen (forAll (fun (x : Nat × Nat) => raiseFault i.cid (x.2 / 4096) kind (i.core / Config.coresPerDie)) ab) <|
  andThen (updStrand i.w i.k fun t => parkLanes
    { lanes := ab.foldl (fun m x => m ||| laneBit x.1) 0, pc := t.pc, slot := t.slot, hdr := t.hdr, ctx := i.cid,
      pages := (ab.map fun x => x.2 / 4096).eraseDups, sent := sent } go t) bump

/-- The rest of a strand goes on after an instruction of `n` slots. -/
def goOn (n : Nat) (t : Strand) : Strand := mergeShadow (stepSlots n t)

/-! ## Accesses in flight -/

/-- Reads something (R198). -/
def MKind.isRead : MKind → Bool
  | .load | .atom _ _ | .ald => true
  | _ => false
/-- Writes something. -/
def MKind.isWrite : MKind → Bool
  | .store | .red _ | .atom _ _ => true
  | _ => false
/-- Counts on ld, else on st (R54, R215). -/
def MKind.onLd : MKind → Bool
  | .load | .ald | .atom _ true => true
  | _ => false

/-- The pair of an `.ahead` load of a fork's continuation and an access of that fork's arm, in one lane (R204). -/
def aheadPair (x y : MemOp) : Bool :=
  (match y.ahead with | some f => x.chain.contains f | none => false) ||
  (match x.ahead with | some f => y.chain.contains f | none => false)

/-- A fence between two accesses of lane `l` keeps them in order (R199 rows 4 to 6). -/
def fenceKeeps (s : State) (a b : Nat) (x y : MemOp) (l : Nat) : Bool :=
  s.ops.any fun e => decide (a < e.1) && decide (e.1 < b) && decide (e.2.w = y.w) && decide (e.2.kind = .fence) &&
    hasLane e.2.lanes l && ((e.2.acq && e.2.rel) || (e.2.acq && x.kind.isRead) || (e.2.rel && y.kind.isWrite))

/-- The earlier access `x` (numbered `a`) holds back unit `u` of the access `y` (numbered `b`) of the same warp: rows 1
to 6 of R199 for one lane, and a load behind an unacknowledged store of its warp (R184). -/
def holdsBack (s : State) (a b : Nat) (x y : MemOp) (u : MUnit) : Bool :=
  x.units.any fun v => !v.done &&
    ((decide (v.lane = u.lane) && !aheadPair x y &&
        (locOverlap v.loc v.n u.loc u.n || x.acq || y.rel || fenceKeeps s a b x y u.lane)) ||
     (x.kind.isWrite && (decide (y.kind = .load) || decide (y.kind = .ald)) && locOverlap v.loc v.n u.loc u.n &&
        !(decide (v.lane = u.lane) && aheadPair x y)))

/-- Whether a unit may be performed now; writes of lanes of one instruction to overlapping bytes go in increasing lane
number (R197). -/
def mayPerform (s : State) (id : Nat) (y : MemOp) (u : MUnit) : Bool :=
  !u.done &&
  (s.ops.all fun e => decide (id ≤ e.1) || decide (e.2.w ≠ y.w) || !holdsBack s e.1 id e.2 y u) &&
  (!y.kind.isWrite || y.units.all fun v => v.done || decide (u.lane ≤ v.lane) || !locOverlap v.loc v.n u.loc u.n)

/-- Fences with nothing left to hold are dropped. -/
def dropFences (w : Nat) : Act := fun s =>
  (s.ops.filter fun e => decide (e.2.w = w) && decide (e.2.kind = .fence) &&
    s.ops.all fun x => decide (e.1 ≤ x.1) || decide (x.2.w ≠ w) ||
      x.2.units.all fun v => v.done || !hasLane e.2.lanes v.lane).map fun e => .dropOp e.1

/-! ## Atomic operations (R220) -/

def atomEnv : FEnv := ⟨.rne, false, false, false⟩

/-- The value an atomic operation writes; `none` for a compare that fails. -/
def atomNew (sop n old e e2 : Nat) : Option Nat :=
  let bits := 8 * n
  let sg (x : Nat) : Int := toInt true bits x
  match sop with
  | 0 => some ((old + e) % 2 ^ bits)
  | 1 => some (if sg e < sg old then e else old)
  | 2 => some (if sg old < sg e then e else old)
  | 3 => some (min old e)
  | 4 => some (max old e)
  | 5 => some (old &&& e)
  | 6 => some (old ||| e)
  | 7 => some (old ^^^ e)
  | 8 => some e
  | 9 => if old = e then some e2 else none
  | 10 => some (if e ≤ old then 0 else old + 1)
  | 11 => some (if old = 0 ∨ e < old then e else old - 1)
  | 12 => some (fDot fF32 atomEnv 0 [] [fDecode fF32 false old, fDecode fF32 false e]).val
  | 13 =>
    let add (a b : Nat) : Nat := (fDot fBF16 atomEnv 0 [] [fDecode fBF16 false a, fDecode fBF16 false b]).val
    some (add (old / 65536) (e / 65536) * 65536 + add (old % 65536) (e % 65536))
  | 14 => some (fMinMax fF32 false false old e).val
  | _ => some (fMinMax fF32 true false old e).val

/-! ## Performing (R183, R198, R201) -/

/-- Puts a loaded value of `n` bytes in its register or pair. -/
def putLoaded (w : Nat) (u : MUnit) (v : Nat) : Act :=
  andThen (updWarp w fun x => setVal x (decide (u.n = 8)) u.reg u.lane v)
    (clearBad w (regs u.reg (decide (u.n = 8))) (laneBit u.lane))

/-- The load slot that access `id` fills takes its value (R299). -/
def fillSlot (w id : Nat) (u : MUnit) (v : Nat) : Act := updRegions w (laneBit u.lane) fun _ g =>
  { g with slots := g.slots.map fun k => if k.pend = some id then { k with val := v, pend := none } else k }

/-- The effect of one unit of access `id` on memory and registers. -/
def unitEffect (w id : Nat) (kind : MKind) (u : MUnit) : Act := look fun s =>
  let old := readLoc s u.loc u.n
  match kind with
  | .load => putLoaded w u old
  | .ald => andThen (putLoaded w u old) (fillSlot w id u old)
  | .store => writeLoc u.loc u.n u.data
  | .atom sop ret =>
    andThen (match atomNew sop u.n old u.data u.data2 with | some v => writeLoc u.loc u.n v | none => skip)
      (if ret then putLoaded w u old else skip)
  | .red sop => match atomNew sop u.n old u.data u.data2 with | some v => writeLoc u.loc u.n v | none => skip
  | .fence => skip

/-- An access of which every unit is done leaves, and its counter falls (R54). -/
def retireOp (id : Nat) (o : MemOp) : Act :=
  if o.units.all (·.done) then
    andThen (eff (.dropOp id)) <|
    andThen (updWarp o.w fun x => if o.kind.onLd then { x with ld := x.ld - 1 } else { x with st := x.st - 1 }) (dropFences o.w)
  else eff (.op id o)

/-- The units that one read serves with unit `u` of an access: those of a load through one base that name the same
bytes (R216); else `u` alone. -/
def served (o : MemOp) (u v : MUnit) : Bool :=
  decide (v = u) || (o.shared && !v.done && decide (v.loc = u.loc) && decide (v.n = u.n))

/-- Performs unit `k` of an access, with those it is served with, when they may be performed now. -/
def performUnit (id k : Nat) (want : MKind → Bool) : Act := look fun s =>
  match mLook s.ops id with
  | none => skip
  | some o => match o.units[k]? with
    | none => skip
    | some u =>
      let us := o.units.filter (served o u)
      if want o.kind && mayPerform s id o u && us.all (mayPerform s id o) then
        andThen (forAll (unitEffect o.w id o.kind) us) <|
        andThen (retireOp id { o with units := o.units.map fun v => if served o u v then { v with done := true } else v }) bump
      else skip

/-! ## Issuing -/

/-- A new access in flight with its counter raised. -/
def issueOp (i : Iss) (o : MemOp) : Act := look fun s =>
  andThen (eff (.op s.nextId { o with since := cycleOf s i.core })) <|
  andThen (eff (.ids (s.nextId + 1)))
    (updWarp i.w fun x => if o.kind.onLd then { x with ld := x.ld + 1 } else { x with st := x.st + 1 })

/-- The counter an access would raise stands at 63 (R55). -/
def counterFull (x : Warp) (k : MKind) : Bool := if k.onLd then decide (x.ld = 63) else decide (x.st = 63)

/-- An access of the strand's lanes with the fields an instruction gives it. -/
def opOf (i : Iss) (f : MFields) (kind : MKind) (units : List MUnit) : MemOp :=
  { w := i.w
    blk := i.warp.block
    ctx := i.cid
    core := i.core
    kind := kind
    acq := f.order = .acq || f.order = .acqrel
    rel := f.order = .rel || f.order = .acqrel
    scope := f.scope
    chain := (armsOf i.warp i.st).map (·.1)
    ahead := if f.order = .ahead then i.st.cont else none
    shared := f.ak && (match kind with | .load => true | _ => false)
    units := units }

/-- The data that some lanes send through a route, as they read it (key lane × 8 + part). -/
def routedData (units : Nat → Loc → List MUnit) (ab : List (Nat × Nat)) : Map Nat :=
  ab.foldl (fun m x => (units x.1 (.glob 0)).zipIdx.foldl (fun y u => mIns y (8 * x.1 + u.2) u.1.data) m) []
/-- Part `j` of the data that lane `l` sends: as it read it when it parked, if it did (R34), else `x`. -/
def sentOr (i : Iss) (l j x : Nat) : Nat := (mLook i.st.sent (8 * l + j)).getD x

/-- Issues the access of the lanes that pass their checks, parks the lanes whose pages are absent, and goes on: the
shared end of `ld`, `st`, `atom` and `red` (R214). `also` is what the instruction does besides, at issue, for the
lanes that are performed. -/
def issueAccess (i : Iss) (f : MFields) (kind : MKind) (fs : List LaneFate)
    (units : Nat → Loc → List MUnit) (also : Mask → Act) : Act :=
  match firstStop fs with
  | some (c, m, a, x) => trapLanes i c m a x
  | none =>
    let oks := okLanes fs
    let ab := absentLanesOf fs
    let done := oks.foldl (fun m x => m ||| laneBit x.1) (0 : Mask)
    if !oks.isEmpty && counterFull i.warp kind then stall i 2
    else
      andThen (fillFor i oks) <|
      andThen (if kind.isRead && !kind.isWrite then shareFor i (widthBytes f.width) oks else skip) <|
      andThen (if oks.isEmpty then skip
        else issueOp i (opOf i f kind (oks.flatMap fun x => units x.1 x.2.2.1))) <|
      andThen (also done) <|
      if ab.isEmpty then advance i 1
      else splitOff i ab (if kind.isWrite then 1 else 0) (if f.rd = 0 then [] else routedData units ab) (goOn 1)

/-- The units of a plain access: one, or one a word (R198). `d l j` is the data of part `j`. -/
def plainUnits (f : MFields) (d : Nat → Nat → Nat) (l : Nat) (p : Loc) : List MUnit :=
  let (n, sz) := widthParts f.width
  (List.range n).map fun j =>
    ⟨l, (match p with | .glob k => .glob (k + sz * j) | .scr b o => .scr b (o + sz * j)), sz, f.d.toNat + j, d l j, 0, false⟩

/-- The checks of the lanes of an access. -/
def fatesOf (s : State) (i : Iss) (f : MFields) (addr : Nat → Nat) (g : Mask) (reads writes : Bool) : List LaneFate :=
  (lanesIn g).map fun l => (l, addr l, fateOf s i f.space (addr l) (widthBytes f.width) reads writes)

end Sys2Proof.Machine
end

