-- ==== Sys2Proof/Machine/Memory.lean ====
section
/-! DEFINITION. The memory instructions 0xA0 to 0xA8 (13_ref_memory_copy R213 to R226, 11_memory_hierarchy R182 to
R195) and the events of memory: loads return, stores commit, sharers drop words, seals complete. -/

namespace Sys2Proof.Machine

/-! ## `ld` and `st` -/

/-- The data of a store: part `j` of lane `l`, routed (R218). -/
def storeData (i : Iss) (f : MFields) (l j : Nat) : Nat :=
  sentOr i l j (if f.width = .w64 then routed i f.rd false true f.d.toNat l else routed i f.rd false false (f.d.toNat + j) l)

/-- Registers of the data span. -/
def dataRegs (f : MFields) : List Nat := spanRegs f.d.toNat (widthRegs f.width)

/-- The uses of `ld`. -/
def ldUses (f : MFields) : Uses :=
  { vr := addrV f, sr := addrS f, vw := dataRegs f, pr := guardReads f.gp, mem := f.order != .ahead, act := false,
    shadow := f.order = .acq }

def execLd (f : MFields) (s : State) : Host.Outcome State Fault Refusal := atIssue s fun i =>
  let g := guardMask i f.gp f.gn
  let u := ldUses f
  gated s i (chkAll true (addrOk i f && vOk i f.d.toNat (widthRegs f.width))) u g <|
    issueAccess i f .load (fatesOf s i f (addrAt i f) g true false) (plainUnits f fun _ _ => 0) fun m =>
      andThen (wrote i u m) (updRegions i.w m fun _ r =>
        regionNote r f.d.toNat (4 * widthRegs f.width) none (addrV f))

/-- The uses of an instruction that sends the registers `data` from routed lanes. -/
def sendUses (i : Iss) (f : MFields) (data : List Nat) (g : Mask) : Uses :=
  { vr := addrV f ++ data ++ routeReads i f.rd, sr := addrS f, pr := guardReads f.gp, mem := true, act := false,
    shadow := f.rd != 0 || f.order != .relaxed,
    vm := (addrV f ++ routeReads i f.rd).map (fun r => (r, g)) ++
      (if i.st.sent.isEmpty then data else []).map fun r => (r, routeLanes i f.rd false g) }

/-- The address of the lowest of some lanes. -/
def lowAddr (i : Iss) (addr : Nat → Nat) (m : Mask) : Nat := addr (lowLane (if regionLanes i &&& m = 0 then m else regionLanes i &&& m))

def execSt (f : MFields) (s : State) : Host.Outcome State Fault Refusal := atIssue s fun i =>
  let g := guardMask i f.gp f.gn
  let u := sendUses i f (dataRegs f) g
  let fs := fatesOf s i f (addrAt i f) g false true
  gated s i (chkAll (routeOk i f.rd) (addrOk i f && vOk i f.d.toNat (widthRegs f.width))) u g <|
    noRegion i g (lowAddr i (addrAt i f) g) <|
      issueAccess i f .store fs (plainUnits f (storeData i f)) fun _ => skip

/-! ## `atom` and `red` -/

def sopOf (f : MFields) : Nat := f.ofs.toNat % 32
def noReturn (f : MFields) : Bool := f.ofs.getLsbD 5

/-- Registers of the operand of `atom`: a `.cas` reads the new value too (R220). -/
def operandRegs (f : MFields) : Nat := (if sopOf f = 9 then 2 else 1) * (if f.width = .w64 then 2 else 1)

/-- The uses of `atom`. -/
def atomUses (f : MFields) : Uses :=
  { vr := addrV f ++ spanRegs f.e.toNat (operandRegs f), sr := addrS f, pr := guardReads f.gp, mem := true, act := false,
    vw := if noReturn f then [] else regs f.d.toNat (f.width = .w64), shadow := f.order != .relaxed }
/-- The one unit of a lane of `atom`: its operand, and for `.cas` the new value. -/
def atomUnits (i : Iss) (f : MFields) (l : Nat) (p : Loc) : List MUnit :=
  let w : Bool := f.width = .w64
  [⟨l, p, widthBytes f.width, f.d.toNat, vVal i.warp w f.e.toNat l,
    if sopOf f = 9 then vVal i.warp w (f.e.toNat + span w) l else 0, false⟩]
/-- The operand checks of `atom`. -/
def atomOpnd (i : Iss) (f : MFields) : Bool :=
  addrOk i f && vOk i f.e.toNat (operandRegs f) && (noReturn f || vOk i f.d.toNat (span (f.width = .w64)))

def execAtom (f : MFields) (s : State) : Host.Outcome State Fault Refusal := atIssue s fun i =>
  let g := guardMask i f.gp f.gn
  gated s i (chkAll true (atomOpnd i f)) (atomUses f) g <|
    noRegion i g (lowAddr i (plainAt i f) g) <|
      issueAccess i f (.atom (sopOf f) (!noReturn f)) (fatesOf s i f (plainAt i f) g true true) (atomUnits i f)
        fun m => wrote i (atomUses f) m

/-- The one unit of a lane of `red`: its operand, routed. -/
def redUnits (i : Iss) (f : MFields) (l : Nat) (p : Loc) : List MUnit :=
  [⟨l, p, widthBytes f.width, 0, sentOr i l 0 (routed i f.rd false (f.width = .w64) f.d.toNat l), 0, false⟩]

def execRed (f : MFields) (s : State) : Host.Outcome State Fault Refusal := atIssue s fun i =>
  let g := guardMask i f.gp f.gn
  let w : Bool := f.width = .w64
  let u := sendUses i f (regs f.d.toNat w) g
  let fs := fatesOf s i f (plainAt i f) g true true
  gated s i (chkAll (routeOk i f.rd) (addrOk i f && vOk i f.d.toNat (span w))) u g <|
    noRegion i g (lowAddr i (plainAt i f) g) <|
      issueAccess i f (.red (sopOf f)) fs (redUnits i f) fun _ => skip

/-! ## `fence` and `prefetch` -/

/-- Some earlier access of the lanes is in flight. -/
def inFlight (s : State) (w : Nat) (m : Mask) : Bool := !quiet s w m

def execFence (f : MFields) (s : State) : Host.Outcome State Fault Refusal := atIssue s fun i =>
  let g := guardMask i f.gp f.gn
  gated s i none { pr := guardReads f.gp, mem := true, shadow := true } g <|
    andThen (if inFlight s i.w g then
        andThen (eff (.op s.nextId { opOf i f .fence [] with lanes := g })) (eff (.ids (s.nextId + 1)))
      else skip) (advance i 1)

def execPrefetch (f : MFields) (s : State) : Host.Outcome State Fault Refusal := atIssue s fun i =>
  let g := guardMask i f.gp f.gn
  gated s i (chkAll true (addrOk i f))
      { vr := addrV f, sr := addrS f, pr := guardReads f.gp, mem := true, act := false } g <|
    andThen (shareFor i (widthBytes f.width) (okLanes (fatesOf s i f (addrAt i f) g true false))) (advance i 1)

/-! ## `seal` and `unseal` (R192 to R195, R224) -/

/-- The first page of a range that does not translate (R195): its address and what the walk found. -/
def firstUnmapped (s : State) (c : Context) (base : Nat) : Nat → Option (Nat × Walk)
  | 0 => none
  | n + 1 =>
    if !canonical base then some (base, .absent)
    else match walk s c base with
      | .leaf _ _ => firstUnmapped s c (base + 4096) n
      | x => some (base, x)

/-- The checks that `seal` and `unseal` share, then `a base length`. -/
def sealChecks (s : State) (i : Iss) (g : Mask) (base len : Nat) (a : Act) : Act :=
  if base % 4096 ≠ 0 ∨ len % 4096 ≠ 0 ∨ len = 0 then trapLanes i .misalign g base 0
  else match firstUnmapped s i.ctx base (len / 4096) with
    | none => a
    | some (p, .malformed l) => trapLanes i .xlate g p (0x100 + l)
    | some (p, _) => if !canonical p || decide (i.st.held = some (p / 4096, true)) then trapLanes i .xlate g p 0 else holdAt i p 0

/-- The uses of both. -/
def sealUses (f : MFields) : Uses :=
  { sr := regs f.a.toNat true ++ regs f.e.toNat true, pr := guardReads f.gp, mem := true, act := false }
def sealOpnd (i : Iss) (f : MFields) : Bool := sOk i f.a.toNat 2 && sOk i f.e.toNat 2

/-- The sealed regions of a context, with those whose `seal` has issued and not completed. -/
def sealedOrAsked (s : State) (cid : Nat) (c : Context) : List (Nat × Nat) :=
  c.sealed ++ s.warps.flatMap fun e =>
    if (mLook s.blocks e.2.block).any (fun b => decide (b.ctx = cid)) then
      (mVals e.2.strands).filterMap fun t => match t.wait with | .sealing b n => some (b, n) | _ => none
    else []

def execSeal (f : MFields) (s : State) : Host.Outcome State Fault Refusal := atIssue s fun i =>
  let g := guardMask i f.gp f.gn
  let base := sVal i.warp true f.a.toNat
  let len := sVal i.warp true f.e.toNat
  match i.st.wait with
  | .sealing b n => waitWith i (.sealing b n)
  | _ =>
    gated s i (chkAll true (sealOpnd i f)) (sealUses f) g <|
      if g = 0 then advance i 1
      else sealChecks s i g base len <|
        if 64 ≤ (sealedOrAsked s i.cid i.ctx).length then trapLanes i .sealed g base 1
        else if touchesAny (sealedOrAsked s i.cid i.ctx) base len then trapLanes i .sealed g base 2
        else andThen (waitWith i (.sealing base len)) bump

def execUnseal (f : MFields) (s : State) : Host.Outcome State Fault Refusal := atIssue s fun i =>
  let g := guardMask i f.gp f.gn
  let base := sVal i.warp true f.a.toNat
  let len := sVal i.warp true f.e.toNat
  match i.st.wait with
  | .unsealing b n => waitWith i (.unsealing b n)
  | _ =>
    gated s i (chkAll true (sealOpnd i f)) (sealUses f) g <|
      if g = 0 then advance i 1
      else sealChecks s i g base len <|
        if !i.ctx.sealed.contains (base, len) then trapLanes i .sealed g base 3
        else andThen (waitWith i (.unsealing base len)) bump

/-- The key lies on a page that a range of the context maps. -/
def keyInRange (s : State) (c : Context) (base : Nat) : Nat → Nat → Bool
  | 0, _ => false
  | n + 1, k =>
    (match walk s c base with
      | .leaf e sz => let p := keyUnder e sz base; decide (p ≤ k) && decide (k < p + 4096)
      | _ => false) || keyInRange s c (base + 4096) n k

/-- An access of the context to the range, of a kind, is in flight. -/
def rangeInFlight (s : State) (cid : Nat) (c : Context) (kind : MKind → Bool) (base len : Nat) : Bool :=
  s.ops.any fun e => decide (e.2.ctx = cid) && kind e.2.kind && e.2.units.any fun u => !u.done &&
    (match u.loc with | .glob k => keyInRange s c base (len / 4096) k | _ => false)

/-- The strand of a resident warp, as the issuing one. -/
def strandAt (s : State) (w k : Nat) : Option Iss :=
  (issAt s w k).filter fun i => decide (i.warp.place = .resident)

/-- `SEAL_COMPLETE` (R192). Its first occurrence for a waiting `seal` is the mark, taken by every agent; the second
follows when the writes that preceded the mark have committed, and drops the directory's entries of the range. -/
def execSealComplete (w st : Nat) (s : State) : Host.Outcome State Fault Refusal := finish s <|
  match strandAt s w st with
  | none => skip
  | some i => match i.st.wait with
    | .sealing base len =>
      if !i.ctx.marks.contains (base, len) then
        if touchesAny (i.ctx.sealed ++ i.ctx.marks) base len then skip
        else andThen (updCtx i.cid fun c => { c with marks := (base, len) :: c.marks }) bump
      else if rangeInFlight s i.cid i.ctx MKind.isWrite base len then skip
      else
        andThen (updCtx i.cid fun c => { c with marks := c.marks.erase (base, len), sealed := (base, len) :: c.sealed }) <|
        andThen (fun s => (s.dir.filter fun e => keyInRange s i.ctx base (len / 4096) (e.1 / 1024 * 128)).map
          fun e => .share e.1 0) (advance i 1)
    | _ => skip

/-- `UNSEAL_COMPLETE` (R194): the loads issued before it have returned the sealed contents. -/
def execUnsealComplete (w st : Nat) (s : State) : Host.Outcome State Fault Refusal := finish s <|
  match strandAt s w st with
  | none => skip
  | some i => match i.st.wait with
    | .unsealing base len =>
      if rangeInFlight s i.cid i.ctx (fun k => !k.isWrite) base len then skip
      else andThen (updCtx i.cid fun c => { c with sealed := c.sealed.erase (base, len) }) (advance i 1)
    | _ => skip

/-! ## `waitm` (R225, R226) -/

/-- The relation of a memory wait. -/
def memRel (rel n w e : Nat) : Bool :=
  let sg (x : Nat) : Int := toInt true (8 * n) x
  match rel with
  | 0 => decide (w = e) | 1 => decide (w ≠ e) | 2 => decide (sg w < sg e) | 3 => decide (sg w ≤ sg e)
  | 4 => decide (sg e < sg w) | 5 => decide (sg e ≤ sg w) | 6 => decide (w < e) | 7 => decide (e ≤ w)
  | 8 => decide (w &&& e ≠ 0) | _ => decide (w &&& e = 0)

/-- A read by lane `l` could be performed now, behind the accesses in flight. -/
def mayRead (s : State) (i : Iss) (f : MFields) (l : Nat) (p : Loc) (n : Nat) : Bool :=
  let y := opOf i f .load []
  let u : MUnit := ⟨l, p, n, 0, 0, 0, false⟩
  s.ops.all fun e => decide (e.2.w ≠ i.w) || !holdsBack s e.1 s.nextId e.2 y u

/-- The lanes of a wait whose word now meets the relation. -/
def metLanes (s : State) (i : Iss) (f : MFields) (fs : List LaneFate) : Mask :=
  let n := widthBytes f.width
  (okLanes fs).foldl (fun m x =>
    if mayRead s i f x.1 x.2.2.1 n && memRel (f.d.toNat % 16) n (readLoc s x.2.2.1 n) (vVal i.warp (decide (n = 8)) f.e.toNat x.1)
    then m ||| laneBit x.1 else m) 0

/-- The uses of `waitm`. -/
def waitmUses (f : MFields) : Uses :=
  { vr := addrV f ++ regs f.e.toNat (f.width = .w64), sr := addrS f, pr := guardReads f.gp, mem := true, act := false,
    shadow := f.order = .acq }
/-- The lanes of a wait that have met their relation already. -/
def metBefore (i : Iss) : Mask := match i.st.wait with | .met m => m | _ => 0

/-- One evaluation of a `waitm`: the lanes met so far, with those met now. -/
def waitmMeans (f : MFields) (s : State) (i : Iss) : Act :=
  let g := guardMask i f.gp f.gn
  let met := metBefore i
  let fs := fatesOf s i f (addrAt i f) (g &&& ~~~met) true false
  gated s i (chkAll true (addrOk i f && vOk i f.e.toNat (span (f.width = .w64)))) (waitmUses f) g <|
    noRegion i g (lowAddr i (addrAt i f) g) <|
      if g = 0 then advance i 1
      else match firstStop fs with
        | some (c, m, a, x) => trapLanes i c m a x
        | none =>
          let now := met ||| metLanes s i f fs
          let ab := absentLanesOf fs
          andThen (shareFor i (widthBytes f.width) (okLanes fs)) <|
          if !ab.isEmpty then splitOff i ab 0 [] fun t => { t with wait := .met now, idleAt := 0 }
          else if g &&& ~~~now = 0 then advance i 1 else waitWith i (.met now)

def execWaitm (f : MFields) (s : State) : Host.Outcome State Fault Refusal := atIssue s (waitmMeans f s)

/-- The instruction word at a strand's place, decoded. -/
def instrAt (s : State) (i : Iss) : Option Instr :=
  match fetch s i (pcOf i.st).toNat with
  | .word w _ => match decodeSlot w 0 with | .ok x => some x | .error _ => none
  | _ => none

/-- The `waitm` at which a strand waits is evaluated afresh. -/
def reevaluate (w st : Nat) : Act := look fun s =>
  match strandAt s w st with
  | none => skip
  | some i => match i.st.wait, instrAt s i with
    | .met _, some (.waitm f) => waitmMeans f s i
    | _, _ => skip

/-- `WAITM_MET` (R226). -/
def execWaitmMet (w st : Nat) (s : State) : Host.Outcome State Fault Refusal := finish s (reevaluate w st)

/-! ## Events of accesses in flight -/

/-- `LOAD_RETURN` (R54, R198): a load, or an atomic that returns a value, is performed and its value written. -/
def execLoadReturn (op unit : Nat) (s : State) : Host.Outcome State Fault Refusal :=
  finish s (performUnit op unit MKind.onLd)

/-- `STORE_COMMIT` (R183): a write is committed at its home. -/
def execStoreCommit (op unit : Nat) (s : State) : Host.Outcome State Fault Refusal :=
  finish s (performUnit op unit fun k => !k.onLd)

/-- `L1_EVICT_DROP` (R184): the home clears the dropped words from the sharer's mask. -/
def execL1EvictDrop (core line : Nat) (words : Mask) (s : State) : Host.Outcome State Fault Refusal :=
  finish s <| if core < Config.cores then
      eff (.share (line * 1024 + core) (mGet 0 s.dir (line * 1024 + core) &&& ~~~words)) else skip

/-- `DIR_ENTRY_EVICT` (R182): every sharer of the block loses its words. -/
def execDirEntryEvict (line : Nat) (s : State) : Host.Outcome State Fault Refusal :=
  finish s (dropEntry line)

end Sys2Proof.Machine
end

