-- ==== Sys2Proof/Machine/Narrow.lean ====
section
/-! DEFINITION. The narrow formats (15_narrow_formats R243 to R258): their values, conversions into and out of them,
and the instructions `dot4`, `pk` and `upk` (17_ref_matrix R287 to R290). Formats are named by their codes of R227,
with 14 for E8M0: 0 E4M3, 1 E5M2, 2 E3M2, 3 E2M3, 4 E2M1, 5 LNS6, 8 INT8. -/

namespace Sys2Proof.Machine

/-! ## Values -/

/-- Exponent and fraction bits of a float narrow format (R243). -/
def nShape (fmt : Nat) : Nat × Nat :=
  match fmt with | 0 => (4, 3) | 1 => (5, 2) | 2 => (3, 2) | 3 => (2, 3) | _ => (2, 1)
/-- The exponent of its minimum subnormal. -/
def nEmin (fmt : Nat) : Int :=
  match fmt with | 0 => -9 | 1 => -16 | 2 => -4 | 3 => -3 | _ => -1
/-- The code of its largest finite magnitude. -/
def nMax (fmt : Nat) : Nat :=
  match fmt with | 0 => 0x7E | 1 => 0x7B | 2 => 0x1F | 3 => 0x1F | _ => 7
/-- T[j] of R245 as a count of 2^−23. -/
def lnsTable (j : Nat) : Nat :=
  match j with | 0 => 0x800000 | 1 => 0x9837F0 | 2 => 0xB504F3 | _ => 0xD744FD
/-- The value of a count of quarter octaves (R245). -/
def lnsValue (neg : Bool) (q : Int) : FV := .fin neg (lnsTable (q % 4).toNat) (q / 4 - 23)
/-- Fields of an LNS6 code (R244). -/
def lnsNeg (x : Nat) : Bool := decide (x / 32 % 2 = 1)
def lnsField (x : Nat) : Int := ((x % 32 : Nat) : Int)

/-- The exact value of a narrow element (R243 to R245, R258). -/
def nDecode (fmt x : Nat) : FV :=
  match fmt with
  | 8 => let v := toInt true 8 x; .fin (decide (v < 0)) v.natAbs 0
  | 14 => if x % 256 = 255 then .nan false else .fin false 1 ((x % 256 : Nat) - 127)
  | 5 =>
    if x % 32 = 0 then (if lnsNeg x then .nan false else .fin false 0 0)
    else lnsValue (lnsNeg x) (lnsField x - 16)
  | _ =>
    let (eb, fb) := nShape fmt
    let neg := decide (x / 2 ^ (eb + fb) % 2 = 1)
    let ex := x / 2 ^ fb % 2 ^ eb
    let fr := x % 2 ^ fb
    if fmt = 0 ∧ x % 128 = 127 then .nan false
    else if fmt = 1 ∧ ex = 31 then (if fr = 0 then .inf neg else .nan false)
    else if ex = 0 then .fin neg fr (nEmin fmt)
    else .fin neg (2 ^ fb + fr) (nEmin fmt + ex - 1)

/-- A product of two LNS6 codes goes through the table (R245). -/
def lnsMul (a b : Nat) : FV :=
  match nDecode 5 a, nDecode 5 b with
  | .nan _, _ => .nan false
  | _, .nan _ => .nan false
  | _, _ => if a % 32 = 0 ∨ b % 32 = 0 then .fin false 0 0
    else lnsValue (lnsNeg a != lnsNeg b) (lnsField a - 16 + (lnsField b - 16))

/-! ## Conversion into a narrow format -/

/-- The code of ± w × 2^q, a magnitude within the format. -/
def nEncode (fmt : Nat) (neg : Bool) (w : Nat) (q : Int) : Nat :=
  let (eb, fb) := nShape fmt
  let (w, q) := if 2 ^ (fb + 1) ≤ w then (w / 2, q + 1) else (w, q)
  (if neg then 2 ^ (eb + fb) else 0) +
    (if w < 2 ^ fb then w else (q - nEmin fmt + 1).toNat * 2 ^ fb + (w - 2 ^ fb))

/-- Magnitude a × 2^p is above b × 2^q. -/
def magAbove (a : Nat) (p : Int) (b : Nat) (q : Int) : Bool :=
  if q ≤ p then decide (b < a * 2 ^ (p - q).toNat) else decide (b * 2 ^ (q - p).toNat < a)

/-- A finite nonzero magnitude to a float narrow format (R253, R257). `noclip` lets E5M2 overflow as R138. DESIGN CHOICE
(log entry 83): an inexact subnormal raises UF as R257's list says; the rule's table of examples shows none. -/
def nRound (fmt : Nat) (mode : RMode) (r : Nat) (noclip neg : Bool) (m : Nat) (e : Int) : Res :=
  let (eb, fb) := nShape fmt
  let sign := if neg then 2 ^ (eb + fb) else 0
  let q := max (e + bitLen m - 1 - fb) (nEmin fmt)
  let c := cutAt m e q
  let w := c.1 + (if roundsUp mode r neg c false then 1 else 0)
  let inexact := decide (c.2.1 ≠ 0)
  let big : Bool := match nDecode fmt (nMax fmt) with | .fin _ n d => magAbove w q n d | _ => false
  if big then
    if noclip && decide (fmt = 1) then ⟨overflowBits ⟨5, 2⟩ mode neg, pOV ||| pNX⟩ else ⟨sign + nMax fmt, pSAT ||| pNX⟩
  else if w = 0 then ⟨sign, pUF ||| pNX⟩
  else ⟨nEncode fmt neg w q, pIf inexact pNX ||| pIf (inexact && decide (w < 2 ^ fb)) pUF⟩

/-- A finite nonzero value to INT8 (R253). -/
def nToInt8 (mode : RMode) (r : Nat) (neg : Bool) (m : Nat) (e : Int) : Res :=
  let x := roundInt mode r neg m e
  let v : Int := if neg then -x.1 else x.1
  if 127 < v then ⟨127, pSAT ||| pNX⟩ else if v < -128 then ⟨128, pSAT ||| pNX⟩
  else ⟨ofInt 8 v, pIf x.2 pNX ||| pIf (x.2 && decide (v = 0)) pUF⟩

/-- 4 log₂(m × 2^e) + 16: its floor, and whether it is above. -/
def lnsFloor (m : Nat) (e : Int) : Int × Bool :=
  let y := m ^ 4
  (bitLen y - 1 + 4 * e + 16, decide (y ≠ 2 ^ (bitLen y - 1)))

/-- The magnitude of LNS6 field `f` is m × 2^e itself. -/
def lnsExact (f : Int) (m : Nat) (e : Int) : Bool :=
  match lnsValue false (f - 16) with | .fin _ a p => !magAbove a p m e && !magAbove m e a p | _ => false

/-- A finite nonzero value to LNS6: the logarithm is rounded (R255). -/
def nToLns (mode : RMode) (r : Nat) (neg : Bool) (m : Nat) (e : Int) : Res :=
  let k := lnsFloor m e
  let y := m ^ 4
  let n := bitLen y - 1
  let up : Bool := match mode with
    | .rz => false
    | .rup => !neg && k.2
    | .rdn => neg && k.2
    | .rne => decide (2 ^ (2 * n + 1) < y * y)
    | .sr => decide (2 ^ 32 ≤ log2Digits 32 (y * 2 ^ wp / 2 ^ n) + r)
  let f := k.1 + (if up then 1 else 0)
  let sign := if neg then 32 else 0
  if 31 < f then ⟨sign + 31, pSAT ||| pIf (!lnsExact 31 m e) pNX⟩
  else if f < 1 then ⟨0, pUF ||| pNX⟩
  else ⟨sign + f.toNat, pIf (!lnsExact f m e) pNX⟩

/-- Any value to a narrow format (R253 to R257). -/
def nConvert (fmt : Nat) (mode : RMode) (r : Nat) (noclip : Bool) (x : FV) : Res :=
  let sign (neg : Bool) : Nat := if neg then 2 ^ (nBits fmt - 1) else 0
  if fmt = 14 then
    match x with
    | .fin _ m e =>
      if m = 0 then ⟨255, pIV⟩
      else
        let t := e + bitLen m - 1 + 127
        if t < 0 then ⟨0, pNX ||| pSAT⟩ else if 254 < t then ⟨254, pNX ||| pSAT⟩
        else ⟨t.toNat, pIf (decide (m ≠ 2 ^ (bitLen m - 1))) pNX⟩
    | _ => ⟨255, pIV⟩
  else
    match x with
    | .nan _ =>
      match fmt with
      | 0 | 1 => ⟨0x7F, 0⟩
      | 5 => ⟨0x20, 0⟩
      | _ => ⟨0, pIV⟩
    | .inf neg =>
      match fmt with
      | 1 => if noclip then ⟨sign neg + 0x7C, 0⟩ else ⟨sign neg + 0x7B, pSAT⟩
      | 8 => ⟨if neg then 128 else 127, pSAT⟩
      | 5 => ⟨sign neg + 31, pSAT⟩
      | _ => ⟨sign neg + nMax fmt, pSAT⟩
    | .fin neg m e =>
      if m = 0 then ⟨if fmt = 8 ∨ fmt = 5 then 0 else sign neg, 0⟩
      else if fmt = 8 then nToInt8 mode r neg m e
      else if fmt = 5 then nToLns mode r neg m e
      else nRound fmt mode r noclip neg m e

/-- A narrow value widened to a float format by one RNE rounding, never flushed (R258). -/
def nWiden (fm : Fmt) (fmt x : Nat) : Res := fDeliver fm ⟨.rne, false, false, false⟩ 0 false (nDecode fmt x)

/-! ## `dot4` (R288) -/

def dot4Shape : AluShape := ⟨true, true, false, false, false, false⟩

def byteOf (x k : Nat) : Nat := x / 256 ^ k % 256

def dot4Fn (f : VFields) (ns : Word) : ElemFn := pureFn fun a b c =>
  if f.ty = .i8x4 then
    let p (k : Nat) : Int := toInt true 8 (byteOf a k) * toInt true 8 (byteOf b k)
    intResult (f.mod == 6) true 32 (p 0 + p 1 + p 2 + p 3 + toInt true 32 c)
  else
    let v := fEnv 0 ns
    let md := f.mod.toNat
    fDot fF32 v 0 ((List.range 4).map fun k => (nDecode (md / 2) (byteOf a k), nDecode (md % 2) (byteOf b k)))
      [fDecode fF32 v.daz c]

def execDot4 (f : VFields) (s : State) := vMeans f s dot4Shape (dot4Fn f) (fun _ => noKeep)
def execDot4S (f : VFields) (s : State) := sMeans f s dot4Shape (dot4Fn f)

/-! ## `pk` (R289): D is read as source C, whose field holds the control word -/

/-- The fields with D in the place of the control word. -/
def pkFields (f : VFields) : VFields := { f with c := f.d }

/-- Replaces `n` bits at bit `o`. -/
def putField (d o n x : Nat) : Nat := d / 2 ^ (o + n) * 2 ^ (o + n) + x % 2 ^ n * 2 ^ o + d % 2 ^ o

/-- Inserts the pair of elements at POS. -/
def pkInsert (ctl d e0 e1 : Nat) : Nat :=
  let fmt := ctl % 16
  let i := 2 * (ctl / 16 % 8)
  match nBits fmt with
  | 8 => putField d (8 * i) 16 (e1 * 256 + e0)
  | 4 => putField d (4 * i) 8 (e1 * 16 + e0)
  | _ => if ctl / 128 % 2 = 0 then putField d (4 * i) 8 (e1 / 4 * 16 + e0 / 4)
    else putField d (2 * i) 4 (e1 % 4 * 4 + e0 % 4) % 65536

/-- One element of `pk`, with a stochastic step for a finite source (R141). -/
def pkElem (f : VFields) (ns : Word) (x : Nat) (st : Word) : Res × Word :=
  let fm := tyFmt f.ty
  let v := fDecode fm false (x % 2 ^ fm.width)
  let draw : Bool := decide (f.mod = 5) && (match v with | .fin _ _ _ => true | _ => false)
  let st' := if draw then srNext st else st
  (nConvert (f.c.toNat % 16) (modeOf f.mod.toNat ns) st'.toNat (decide (f.c.toNat / 256 = 1)) v, st')

def pkFn (f : VFields) (ns : Word) : ElemFn := fun a b d st =>
  let x := pkElem f ns a st
  let y := pkElem f ns b x.2
  (⟨pkInsert f.c.toNat d x.1.val y.1.val, x.1.pen ||| y.1.pen⟩, y.2)

def execPk (f : VFields) (s : State) := vMeans (pkFields f) s dot4Shape (pkFn f) (fun _ => noKeep)
def execPkS (f : VFields) (s : State) := sMeans (pkFields f) s dot4Shape (pkFn f)

/-! ## `upk` (R290) -/

/-- A is the two-bit plane of a 6-bit format, and is not read for the others. -/
def upkShape (f : VFields) : AluShape := ⟨decide (nBits (f.c.toNat % 16) = 6), false, false, false, false, false⟩

/-- Element `i` of the packed register (R246, R248). -/
def unpacked (fmt n t i : Nat) : Nat :=
  match nBits fmt with
  | 8 => n / 2 ^ (8 * i) % 256
  | 4 => n / 2 ^ (4 * i) % 16
  | _ => n / 2 ^ (4 * i) % 16 * 4 + t / 2 ^ (2 * i) % 4

def upkFn (f : VFields) (_ : Word) : ElemFn := pureFn fun t n _ =>
  let fmt := f.c.toNat % 16
  let i := f.c.toNat / 16 % 8
  if f.ty = .f32 then nWiden fF32 fmt (unpacked fmt n t i)
  else
    let x := nWiden fBF16 fmt (unpacked fmt n t i)
    let y := nWiden fBF16 fmt (unpacked fmt n t (i + 1))
    ⟨y.val * 65536 + x.val, x.pen ||| y.pen⟩

def execUpk (f : VFields) (s : State) := vMeans f s (upkShape f) (upkFn f) (fun _ => noKeep)
def execUpkS (f : VFields) (s : State) := sMeans f s (upkShape f) (upkFn f)

end Sys2Proof.Machine
end

