-- ==== Sys2Proof/Machine/Engine.lean ====
section
/-! DEFINITION. What the engine operations share (12_ordering R205 to R208, 13_ref_memory_copy R227 to R232): tags,
records read at issue, tensor boxes and their addresses, the sides of a transfer, range locks, and how an engine
operation issues, completes or fails. -/

namespace Sys2Proof.Machine

/-! ## Tags (R232) -/

def tagCount (b : Block) (t : Nat) : Nat := mGet 0 b.pending t
/-- An operation that names a tag issues: the count rises and the tag's bit clears. -/
def tagTaken (blk t : Nat) : Act := updBlock blk fun b =>
  { b with pending := mIns b.pending t (tagCount b t + 1), cdone := b.cdone &&& ~~~((1 : DWord) <<< t) }
/-- An operation that names a tag completes: the count falls, and at 0 the bit is set. -/
def tagDone (blk t : Nat) : Act := updBlock blk fun b =>
  { b with pending := mPut 0 b.pending t (tagCount b t - 1),
           cdone := if tagCount b t ≤ 1 then b.cdone ||| ((1 : DWord) <<< t) else b.cdone }
/-- A tag's count stands at 255. -/
def tagFull (b : Block) (t : Option Nat) : Bool := match t with | some n => decide (255 ≤ tagCount b n) | none => false

/-! ## Records read at issue -/

/-- What reading a record gives. -/
inductive RecRead where
  | bytes (bs : List Byte)
  | stop (c : Cause) (va extra : Nat)
  | absent (va : Nat)
  deriving DecidableEq, Repr

/-- Reads `n` words of 8 bytes at an address as an access of the issuing strand. -/
def readRecord (s : State) (i : Iss) (va : Nat) : Nat → RecRead
  | 0 => .bytes []
  | n + 1 => match fateOf s i .glob va 8 true false with
    | .ok loc _ => match readRecord s i ((va + 8) % 2 ^ 64) n with
      | .bytes bs => .bytes (bytesOfNat 8 (readLoc s loc 8) ++ bs)
      | x => x
    | .stop _ c e => .stop c va e
    | .absent => .absent va

/-- An ordinary read of the strand, as an access behind those in flight. -/
def strandRead (i : Iss) : MemOp :=
  { w := i.w, blk := i.warp.block, ctx := i.cid, core := i.core, kind := .load, chain := (armsOf i.warp i.st).map (·.1) }
/-- An access of the warp in flight holds an ordinary read of the strand back (R184, R199, R222). -/
def readHeld (s : State) (i : Iss) (p : Loc) (n : Nat) : Bool :=
  (lanesIn i.lanes).any fun l => s.ops.any fun e => decide (e.2.w = i.w) &&
    holdsBack s e.1 s.nextId e.2 (strandRead i) ⟨l, p, n, 0, 0, 0, false⟩
/-- The same of a record of `n` words of 8 bytes. -/
def recordHeld (s : State) (i : Iss) (va : Nat) : Nat → Bool
  | 0 => false
  | n + 1 => (match fateOf s i .glob va 8 true false with | .ok loc _ => readHeld s i loc 8 | _ => false) ||
      recordHeld s i ((va + 8) % 2 ^ 64) n

/-- The core becomes a sharer of the words of a record it reads (R182). -/
def shareRecord (s : State) (i : Iss) (va words : Nat) : Act :=
  shareFor i 8 (okLanes ((List.range words).map fun j =>
    (j, (va + 8 * j) % 2 ^ 64, fateOf s i .glob ((va + 8 * j) % 2 ^ 64) 8 true false)))

/-- `a` with the record at an address that is a multiple of `al`; a trap, or a wait for its page, without it. -/
def withRecord (s : State) (i : Iss) (va words al : Nat) (a : List Byte → Act) : Act :=
  if va % al ≠ 0 then trapLanes i .misalign i.st.members va 0
  else match readRecord s i va words with
    | .bytes bs => if recordHeld s i va words then stall i 4
      else andThen (shareRecord s i va words) (a bs)
    | .stop c x e => trapLanes i c i.st.members x e
    | .absent x => holdAt i x 0

/-- The number of the first condition that holds. -/
def firstOf (l : List (Bool × Nat)) : Option Nat := (l.find? (·.1)).map (·.2)
/-- ILLOPND with the extra of the first condition that holds, else `a`. -/
def checked (i : Iss) (l : List (Bool × Nat)) (a : Act) : Act :=
  match firstOf l with
  | some x => trapLanes i .illopnd i.st.members 0 x
  | none => a

/-! ## The tensor shape record (R227, R247, R251) -/

def signed (n x : Nat) : Int := toInt true n x

/-- Bytes of one element, or 1 below 8 bits. -/
def elemBytes (fmt : Nat) : Nat := max 1 (nBits fmt / 8)
/-- Bytes of a group of 64 elements of a format below 8 bits (R247). -/
def groupBytes (fmt : Nat) : Nat := 8 * nBits fmt
/-- A format below 8 bits. -/
def isSub (fmt : Nat) : Bool := decide (nBits fmt < 8)

/-- The fields of a record. -/
def shapeOf (r : List Byte) : Shape :=
  { base := recAt r 0 8
    rank := recAt r 8 1
    fmt := recAt r 9 1
    scaled := decide (recAt r 10 2 % 2 = 1)
    dims := (List.range 5).map fun j => recAt r (12 + 4 * j) 4
    strides := (List.range 4).map fun j => recAt r (32 + 4 * j) 4
    box := (List.range 5).map fun j => recAt r (48 + 2 * j) 2 }

/-- The fields of a record outside R227, R247 and R251, with the extra of each, by offset; a drain does not read BOX,
and a `cpb` takes no SCALED record (R252). -/
def shapeChecks (r : List Byte) (useBox scales : Bool) : List (Bool × Nat) :=
  let sh := shapeOf r
  let eb := elemBytes sh.fmt
  let below (j : Nat) : Bool := decide (j < sh.rank)
  let dim (j : Nat) : Nat := sh.dims.getD j 0
  let st (j : Nat) : Nat := sh.strides.getD (j - 1) 0
  let bx (j : Nat) : Nat := sh.box.getD j 0
  [(!canonical sh.base || decide (sh.base % eb ≠ 0), 0),
   (decide (sh.rank < 1) || decide (5 < sh.rank), 8),
   (decide (13 < sh.fmt), 9),
   (decide (2 ≤ recAt r 10 2) || (!scales && sh.scaled), 10),
   ((List.range 5).any fun j => if below j then decide (dim j = 0) || decide (2 ^ 31 ≤ dim j) else decide (dim j ≠ 0), 12),
   ([1, 2, 3, 4].any fun j => if below j then decide (st j % (if isSub sh.fmt then groupBytes sh.fmt else eb) ≠ 0)
      else decide (st j ≠ 0), 32),
   (useBox && (List.range 5).any fun j => if below j then decide (bx j = 0) else decide (bx j ≠ 0), 48),
   (sh.scaled && decide (recAt r 58 2 = 0), 58),
   (decide (recAt r 60 4 ≠ 0), 60)]

/-- `a` with the shape at an address, its scale record read with it when it is SCALED. -/
def withShape (s : State) (i : Iss) (va : Nat) (useBox scales : Bool) (a : Shape → Act) : Act :=
  withRecord s i va 8 8 fun r =>
    checked i (shapeChecks r useBox scales) <|
      let sh := shapeOf r
      if !sh.scaled then a sh
      else
        withRecord s i (ofInt 64 (va + 64 * signed 16 (recAt r 58 2))) 8 8 fun q =>
          let st := (List.range 4).map fun j => recAt q (8 + 4 * j) 4
          checked i
            [(!canonical (recAt q 0 8) || (q.drop 24).any (· ≠ 0) ||
                (List.range 4).any (fun j => decide (sh.rank ≤ j + 1) && decide (st.getD j 0 ≠ 0)), 58)] <|
            a { sh with sbase := recAt q 0 8, sstrides := st }

/-! ## Boxes (R228, R239, R247, R252) -/

/-- The index of element `k` of a box, dimension 0 fastest. -/
def boxIndex : List Nat → Nat → List Nat
  | [], _ => []
  | b :: bs, k => k % b :: boxIndex bs (k / b)
/-- The number of an index in a box. -/
def boxLin : List Nat → List Nat → Nat
  | b :: bs, i :: is => i + b * boxLin bs is
  | _, _ => 0
/-- Exchanges the first two members. -/
def swap01 : List Nat → List Nat
  | a :: b :: r => b :: a :: r
  | r => r
def product (l : List Nat) : Nat := l.foldl (· * ·) 1

/-- The tensor coordinates of an index of the box. -/
def coordsOf (cs : List Int) (idx : List Nat) : List Int := (List.zip cs idx).map fun x => x.1 + x.2
/-- An element lies in the tensor. -/
def inTensor (sh : Shape) (xs : List Int) : Bool :=
  (List.zip xs sh.dims).all fun x => decide (0 ≤ x.1) && decide (x.1 < x.2)
/-- Where the row of an element begins: BASE and the strides of dimensions 1 to 4. -/
def rowAt (sh : Shape) (xs : List Int) : Nat :=
  (List.zip (xs.drop 1) sh.strides).foldl (fun a x => a + x.1.toNat * x.2) sh.base

/-- Where a part of an element lies in a row: byte offset, bytes, the lowest bit, and how many bits. A 6-bit element has
two parts, in the two planes of its group; a 64-bit element has two words. -/
structure Spot where
  ofs : Nat
  n : Nat
  sh : Nat
  bits : Nat
  deriving DecidableEq, Repr

def partsOf (fmt : Nat) : Nat := if nBits fmt = 6 ∨ nBits fmt = 64 then 2 else 1
/-- Part `p` of element `x` of a row. -/
def spotIn (fmt x p : Nat) : Spot :=
  let b := nBits fmt
  if b < 8 then
    let g := x / 64 * groupBytes fmt
    let e := x % 64
    if p = 0 then ⟨g + e / 2, 1, 4 * (e % 2), 4⟩ else ⟨g + 32 + e / 4, 1, 2 * (e % 4), 2⟩
  else ⟨x * (b / 8) + 4 * p, min (b / 8) 4, 0, 8 * min (b / 8) 4⟩

/-- The code of an element from a reader of bytes at its row. -/
def codeIn (fmt x : Nat) (rd : Nat → Nat → Nat) : Nat :=
  let get (p : Nat) : Nat := let q := spotIn fmt x p; rd q.ofs q.n / 2 ^ q.sh % 2 ^ q.bits
  if nBits fmt = 6 then 4 * get 0 + get 1 else if nBits fmt = 64 then get 0 + 2 ^ 32 * get 1 else get 0

/-- Part `p` of a code. -/
def codePart (fmt code p : Nat) : Nat :=
  if nBits fmt = 6 then (if p = 0 then code / 4 else code % 4)
  else if nBits fmt = 64 then code / 2 ^ (32 * p) % 2 ^ 32 else code

/-- Bytes from the start of a row or column to the end of its first `n` elements. -/
def rowEnd (fmt n : Nat) : Nat := let q := spotIn fmt (n - 1) (partsOf fmt - 1); q.ofs + q.n

/-- The elements of a box that lie in the tensor along dimension `j`: the first and the last. -/
def span1 (sh : Shape) (cs : List Int) (j : Nat) : Int × Int :=
  let c := cs.getD j 0
  (max 0 c, min (c + (sh.box.getD j 0 : Int)) (sh.dims.getD j 0) - 1)

/-- The lowest byte and the length of the bytes a box touches in global memory; `none` when all of it is clipped. -/
def dataRange (sh : Shape) (cs : List Int) : Option (Nat × Nat) :=
  let rs := (List.range sh.rank).map (span1 sh cs)
  if rs.any fun r => decide (r.2 < r.1) then none
  else
    let at0 (x : Int) : Nat := if isSub sh.fmt then x.toNat / 64 * groupBytes sh.fmt else x.toNat * elemBytes sh.fmt
    let lo := rowAt sh (rs.map (·.1)) + at0 (rs.headD (0, 0)).1
    let hi := rowAt sh (rs.map (·.2)) + at0 (rs.headD (0, 0)).2 + (if isSub sh.fmt then groupBytes sh.fmt else elemBytes sh.fmt)
    some (lo, hi - lo)

/-- Where the scale of a block lies in global memory (R251). -/
def scaleAt (sh : Shape) (xs : List Nat) : Nat :=
  (List.zip (xs.drop 1) sh.sstrides).foldl (fun a x => a + x.1 * x.2) (sh.sbase + xs.headD 0)
/-- Block coordinates from element coordinates. -/
def blockOf : List Int → List Int
  | a :: b :: r => a / 32 :: b / 32 :: r
  | a :: r => [a / 32] ++ r
  | [] => []
/-- Some element of a scale block lies in the tensor. -/
def blockIn (sh : Shape) (bs : List Int) : Bool :=
  inTensor sh (match bs with | a :: b :: r => 32 * a :: 32 * b :: r | a :: r => 32 * a :: r | [] => [])
/-- The global bytes of the scales a SCALED box moves. -/
def scaleRange (sh : Shape) (cs : List Int) : Option (Nat × Nat) :=
  let rs := (List.range sh.rank).map (span1 sh cs)
  if !sh.scaled || rs.any (fun r => decide (r.2 < r.1)) then none
  else
    let lo := scaleAt sh ((blockOf (rs.map (·.1))).map Int.toNat)
    some (lo, scaleAt sh ((blockOf (rs.map (·.2))).map Int.toNat) + 1 - lo)

/-- Every address of a global range is canonical. -/
def canonRange (r : Option (Nat × Nat)) : Bool :=
  match r with
  | none => true
  | some (lo, n) => canonical lo && canonical (lo + n - 1) && (decide (lo < 2 ^ 63) == decide (lo + n - 1 < 2 ^ 63))

/-! ## The sides of a transfer -/

/-- A side `n` bytes further on; the bytes of a column stand 128 apart in the B store (R265). -/
def sideAt (d : Side) (n : Nat) : Side :=
  match d with
  | .virt v => .virt (v + n)
  | .scr b o => .scr b (o + n)
  | .bst c o => .bst c (o + 128 * n)
  | .reg w o => .reg w (o + n)

/-- Why a transfer cannot touch a side now. -/
inductive SideFate where
  | fine
  | absent (page : Nat)
  | fail (why : FailCause) (addr extra : Nat)
  deriving DecidableEq, Repr

/-- The physical place of a byte of a context as an engine of a core reaches it. -/
def engLoc (s : State) (o : EngOp) (va : Nat) : Option Loc :=
  match mLook s.ctxs o.ctx with
  | none => none
  | some c => match translate s o.core o.ctx c va with
    | .leaf e sz => some (.glob (keyUnder e sz va))
    | _ => none

/-- Engine accesses are checked as they are made (R231, R237). -/
def sideFate (s : State) (o : EngOp) (d : Side) (n : Nat) (writes : Bool) : SideFate :=
  match d with
  | .virt va =>
    match mLook s.ctxs o.ctx with
    | none => .fine
    | some c =>
      if !canonical va then .fail .xlate va 0
      else match translate s o.core o.ctx c va with
        | .absent => if o.failed.contains (o.ctx, va / 4096) then .fail .xlate va 0 else .absent (va / 4096)
        | .malformed l => .fail .xlate va (0x100 + l)
        | .leaf e sz =>
          if !permits s o.core c e (keyUnder e sz va) n (if writes then .write else .read) then .fail .prot va 0
          else if writes && touchesAny (c.sealed ++ c.marks) va n then .fail .sealed va 0
          else if !writes && locBad s (.glob (keyUnder e sz va)) n then .fail .dataerr va 1
          else if peerLost s (keyUnder e sz va) then .fail .dataerr va 2
          else .fine
  | .scr b ofs => if !writes && locBad s (.scr b ofs) n then .fail .dataerr ofs 1 else .fine
  | .bst c ofs => if !writes && s.bad.contains (.bst c (ofs / 128 / 4 * 512 + ofs % 128)) then .fail .dataerr ofs 1 else .fine
  | .reg _ _ => .fine

/-- `n` bytes of a side, at most 4. -/
def sideVal (s : State) (o : EngOp) (d : Side) (n : Nat) : Nat :=
  match d with
  | .virt va => match engLoc s o va with | some l => readLoc s l n | none => 0
  | .scr b ofs => readLoc s (.scr b ofs) n
  | .bst c ofs => (List.range n).foldr (fun p x => (mGet 0 (coreOf s c).bstore (ofs + 128 * p)).toNat + 256 * x) 0
  | .reg w ofs => match mLook s.warps w with
    | some x => (vR x (ofs / 128) (ofs % 128 / 4)).toNat / 2 ^ (8 * (ofs % 4)) % 2 ^ (8 * n)
    | none => 0

/-- Writes `n` bytes of a side. The B store remembers which of its 64 KiB pages have been written (R189). -/
def sidePut (o : EngOp) (d : Side) (n v : Nat) : Act := look fun s =>
  match d with
  | .virt va => match engLoc s o va with | some l => writeLoc l n v | none => skip
  | .scr b ofs => writeLoc (.scr b ofs) n v
  | .bst c ofs => andThen (updCore c fun x =>
      { x with
        bstore := (List.range n).foldl (fun m p => mPut 0 m (ofs + 128 * p) (BitVec.ofNat 8 (v / 256 ^ p))) x.bstore
        bpages := (List.range n).foldl (fun l p => let q := (ofs + 128 * p) / 65536; if l.contains q then l else q :: l) x.bpages })
      (if s.bad.isEmpty || decide (n ≠ 4) then skip else eff (.bad (s.bad.filter (· ≠ .bst c (ofs / 128 / 4 * 512 + ofs % 128)))))
  | .reg w ofs => andThen (updWarp w fun x =>
      setV x (ofs / 128) (ofs % 128 / 4)
        (BitVec.ofNat 32 (putField (vR x (ofs / 128) (ofs % 128 / 4)).toNat (8 * (ofs % 4)) (8 * n) v)))
      (if n = 4 then clearBad w [ofs / 128] (laneBit (ofs % 128 / 4)) else skip)

/-- The aligned 4-byte word of a side, the bytes that one event of an engine covers (R198). -/
def wordOf : Side → Side
  | .virt v => .virt (v / 4 * 4)
  | .scr b o => .scr b (o / 4 * 4)
  | .bst c o => .bst c (o / 512 * 512 + o % 128)
  | .reg w o => .reg w (o / 4 * 4)

/-- The error mark of a word goes when the whole of it has been written (R49, R400). -/
def unmark (o : EngOp) (w : Side) : Act := look fun s =>
  if s.bad.isEmpty then skip
  else
    let drop (y : BadWord) : Act := eff (.bad (s.bad.filter (· ≠ y)))
    match w with
    | .virt va => match engLoc s o va with | some (.glob k) => drop (.glob k) | _ => skip
    | .scr b ofs => drop (.scr b ofs)
    | .bst c ofs => drop (.bst c ofs)
    | .reg v ofs => clearBad v [ofs / 128] (laneBit (ofs % 128 / 4))

/-! ## The transfers of a copy -/

/-- One transfer: bits of a source place (or the value `fill`) to bits of a destination place, if any; with `add` an
atomic addition there (R233). -/
structure Move where
  src : Option Side
  dst : Option Side
  n : Nat
  srcSh : Nat := 0
  dstSh : Nat := 0
  bits : Nat
  fill : Nat := 0
  add : Bool := false
  deriving DecidableEq, Repr

/-- The local place of part `p` of the element at an index: dense, dimension 0 fastest, exchanged under MODE 1; in the
B store element (n, k) at byte k of column n (R228, R265). -/
def localSpot (sh : Shape) (mode : Nat) (d : Side) (idx : List Nat) (p : Nat) : Side × Spot :=
  let tr := decide (mode % 2 = 1)
  let at_ := if tr then swap01 idx else idx
  match d with
  | .bst c o => let q := spotIn sh.fmt (at_.getD 1 0) p; (sideAt (.bst c (o + at_.getD 0 0)) q.ofs, q)
  | _ => let q := spotIn sh.fmt (boxLin (if tr then swap01 sh.ext else sh.ext) at_) p; (sideAt d q.ofs, q)

/-- Transfers that carry data, and those that carry scales, for one local side. -/
def dataMoves (sh : Shape) : Nat := product sh.ext * partsOf sh.fmt
def boxMoves (sh : Shape) : Nat := dataMoves sh + scaleBytes sh

/-- Where a local side's offset counts from. -/
def sideOfs : Side → Nat
  | .virt v => v | .scr _ o => o | .bst _ o => o | .reg _ o => o
/-- The local place of scale `k` of the box (R252). -/
def scaleSpot (sh : Shape) (mode : Nat) (d : Side) (k : Nat) : Side :=
  let idx := boxIndex (scaleBox sh) k
  let n := if mode % 2 = 1 then boxLin (swap01 (scaleBox sh)) (swap01 idx) else k
  sideAt d (scaleStart sh (sideOfs d) - sideOfs d + n)

/-- The element, and the part of it, of data transfer `k`; the place in global memory, `none` when clipped. -/
def globalSpot (sh : Shape) (cs : List Int) (k : Nat) : List Nat × Nat × Option (Side × Spot) :=
  let p := k % partsOf sh.fmt
  let idx := boxIndex sh.ext (k / partsOf sh.fmt)
  let xs := coordsOf cs idx
  (idx, p, if inTensor sh xs then
      let q := spotIn sh.fmt (xs.headD 0).toNat p
      some (.virt (rowAt sh xs + q.ofs), q)
    else none)
/-- The global place of scale `k` of the box, `none` when its block is clipped in every element. -/
def globalScale (sh : Shape) (cs : List Int) (k : Nat) : Option Side :=
  let bs := coordsOf (blockOf (cs.take sh.rank)) (boxIndex (scaleBox sh) k)
  if blockIn sh bs then some (.virt (scaleAt sh (bs.map Int.toNat))) else none

/-- Transfer `k` of a read of a box to the local side `d` (R228, R252). -/
def loadMove (sh : Shape) (cs : List Int) (mode : Nat) (d : Side) (k : Nat) : Move :=
  if k < dataMoves sh then
    let (idx, p, g) := globalSpot sh cs k
    let (dest, q) := localSpot sh mode d idx p
    match g with
    | some (frm, a) => { src := some frm, dst := some dest, n := q.n, srcSh := a.sh, dstSh := q.sh, bits := q.bits }
    | none => { src := none, dst := some dest, n := q.n, dstSh := q.sh, bits := q.bits }
  else
    let j := k - dataMoves sh
    { src := globalScale sh cs j, dst := some (scaleSpot sh mode d j), n := 1, bits := 8, fill := 0x7F }

/-- Transfer `k` of a write of a box from the local side `d`, or of the codes `vals` of a drain (R233, R239, R270). -/
def storeMove (sh : Shape) (cs : List Int) (mode : Nat) (d : Option Side) (vals : List Nat) (addIt : Bool) (k : Nat) : Move :=
  if k < dataMoves sh then
    let (idx, p, g) := globalSpot sh cs k
    let dest := g.map (·.1)
    let b := (match g with | some (_, q) => q | none => spotIn sh.fmt 0 p)
    match d with
    | some x =>
      let (frm, q) := localSpot sh mode x idx p
      { src := some frm, dst := dest, n := b.n, srcSh := q.sh, dstSh := b.sh, bits := b.bits, add := addIt }
    | none => { src := none, dst := dest, n := b.n, dstSh := b.sh, bits := b.bits, add := addIt,
                fill := codePart sh.fmt (vals.getD (k / partsOf sh.fmt) 0) p }
  else
    let j := k - dataMoves sh
    { src := d.map fun x => scaleSpot sh mode x j, dst := globalScale sh cs j, n := 1, bits := 8,
      fill := vals.getD (product sh.ext + j) 0 }

/-- Bytes of a row of a drained tile in scratch. -/
def drainRow (fmt n : Nat) : Nat := if isSub fmt then n / 64 * groupBytes fmt else n * elemBytes fmt
/-- Where the scales of a `tsave` begin. -/
def tsaveScales (ofs stride : Nat) (c : DrainCtl) : Nat := roundUp (ofs + (c.m - 1) * stride + drainRow c.fmt c.n) 16
/-- Transfers of a `tsave`, element by element in rows, then its scales. -/
def tsaveMoves (c : DrainCtl) : Nat := c.m * c.n * partsOf c.fmt + (if c.bscale then c.m / 32 * (c.n / 32) else 0)
/-- Transfer `k` of a `tsave` of the codes and scales `vals` (R283). -/
def tsaveMove (blk ofs stride : Nat) (c : DrainCtl) (vals : List Nat) (k : Nat) : Option Move :=
  let data := c.m * c.n * partsOf c.fmt
  if k < data then
    let p := k % partsOf c.fmt
    let e := k / partsOf c.fmt
    let q := spotIn c.fmt (e % c.n) p
    some { src := none, dst := some (.scr blk (ofs + e / c.n * stride + q.ofs)), n := q.n, dstSh := q.sh, bits := q.bits,
           fill := codePart c.fmt (vals.getD e 0) p }
  else if k < tsaveMoves c then
    some { src := none, dst := some (.scr blk (tsaveScales ofs stride c + (k - data))), n := 1, bits := 8,
           fill := vals.getD (c.m * c.n + (k - data)) 0 }
  else none

/-- How many transfers an operation makes. -/
def moveCount (o : EngOp) : Nat :=
  match o.kind with
  | .load sh _ _ dest => boxMoves sh * dest.length
  | .store sh _ _ _ _ => boxMoves sh
  | .drain sh _ _ _ => boxMoves sh
  | .move _ _ n => n / 4
  | .tsave _ _ c => tsaveMoves c
  | _ => 0

/-- Transfer `k` of an operation. -/
def moveOf (o : EngOp) (k : Nat) : Option Move :=
  match o.kind with
  | .load sh cs mode dest => (dest[k / boxMoves sh]?).map fun d => loadMove sh cs mode d (k % boxMoves sh)
  | .store sh cs mode frm addIt => if k < boxMoves sh then some (storeMove sh cs mode (some frm) [] addIt k) else none
  | .drain sh cs _ addIt => if k < boxMoves sh then some (storeMove sh cs 0 none o.vals addIt k) else none
  | .move frm dest n => if k < n / 4 then
      some { src := some (sideAt frm (4 * k)), dst := some (sideAt dest (4 * k)), n := 4, bits := 32 } else none
  | .tsave ofs stride c => tsaveMove o.blk ofs stride c o.vals k
  | _ => none

/-! ## The events of an operation: a word read, a word written (R198, R205) -/

/-- What a transfer has still to read before it can be written: a clipped one reads nothing. -/
def Move.unread (o : EngOp) (k : Nat) (m : Move) : Option Side :=
  if m.dst.isNone || (mLook o.got k).isSome then none else m.src

/-- Why the next event of a transfer, its read or else its write, cannot be made now. -/
def moveFate (s : State) (o : EngOp) (k : Nat) (m : Move) : SideFate :=
  match m.unread o k, m.dst with
  | some d, _ => sideFate s o d m.n false
  | none, none => .fine
  | none, some d =>
    match (if m.add then sideFate s o d m.n false else .fine) with
    | .fine => sideFate s o d m.n true
    | x => x

/-- The sum of an element and what stands at its home, RNE (R220, R233). -/
def homeAdd (n old v : Nat) : Nat :=
  let f := if n = 4 then fF32 else fBF16
  (fDot f atomEnv 0 [] [fDecode f false old, fDecode f false v]).val

/-- What a transfer reads. -/
def Move.value (s : State) (o : EngOp) (m : Move) : Nat :=
  match m.src with | some x => sideVal s o x m.n / 2 ^ m.srcSh % 2 ^ m.bits | none => m.fill

/-- Writes the value of a transfer. -/
def putMove (o : EngOp) (m : Move) (v : Nat) : Act := look fun s =>
  match m.dst with
  | none => skip
  | some d =>
    let old := sideVal s o d m.n
    sidePut o d m.n (if m.add then homeAdd m.n old v
      else if m.bits < 8 * m.n then putField old m.dstSh m.bits v else v)

/-- The transfers left that have to read the word `w`, and those that write it. -/
def readersOf (o : EngOp) (w : Side) : List (Nat × Move) :=
  (List.range (moveCount o)).filterMap fun k => (moveOf o k).bind fun m =>
    if !o.done.contains k && decide ((m.unread o k).map wordOf = some w) then some (k, m) else none
def writersOf (o : EngOp) (w : Side) : List (Nat × Move) :=
  (List.range (moveCount o)).filterMap fun k => (moveOf o k).bind fun m =>
    if !o.done.contains k && decide (m.dst.map wordOf = some w) then some (k, m) else none

/-- Reads a word: every transfer that has to read it takes its part. -/
def getWord (id : Nat) (o : EngOp) (w : Side) : Act := look fun s =>
  updEng id fun y => { y with got := (readersOf o w).foldl (fun m x => mIns m x.1 (x.2.value s o)) y.got }

/-- Writes a word, once every transfer that writes in it has its value. -/
def putWord (id : Nat) (o : EngOp) (w : Side) : Act :=
  let l := writersOf o w
  if l.any fun x => (x.2.unread o x.1).isSome then skip
  else
    andThen (forAll (fun x => putMove o x.2 ((mLook o.got x.1).getD x.2.fill)) l) <|
    andThen (if (l.map (·.2.bits)).sum = 32 then unmark o w else skip)
      (updEng id fun y => { y with done := l.map (·.1) ++ y.done })

/-- The next event of a transfer: the word it has to read is read, else the word it writes is written. -/
def nextEvent (id : Nat) (o : EngOp) (k : Nat) (m : Move) : Act :=
  match m.unread o k, m.dst with
  | some r, _ => getWord id o (wordOf r)
  | none, some d => putWord id o (wordOf d)
  | none, none => updEng id fun y => { y with done := k :: y.done }

/-- The first of an operation's transfers that cannot be made because of a failure. -/
def failingMove (s : State) (o : EngOp) (why : FailCause) (addr : Nat) : Option Nat :=
  (List.range (moveCount o)).findSome? fun k =>
    if o.done.contains k then none
    else match moveOf o k with
      | some m => (match moveFate s o k m with
        | .fail w a x => if w = why ∧ a = addr then some x else none
        | _ => none)
      | none => none

/-- An operation asks for a page that is not resident and waits in its replay (R230, R394). -/
def askPage (id : Nat) (o : EngOp) (cid page : Nat) : Act :=
  andThen (raiseFault cid page 3 (o.core / Config.coresPerDie))
    (updEng id fun y => { y with asked := if y.asked.contains (cid, page) then y.asked else (cid, page) :: y.asked })

/-- Makes the next event of transfer `k`, when nothing stands against it; a page that is not resident is asked for
(R230, R394). -/
def nextTransfer (id : Nat) (o : EngOp) (k : Nat) : Act := look fun s =>
  if o.done.contains k then skip
  else match moveOf o k with
    | none => skip
    | some m => match moveFate s o k m with
      | .fine => nextEvent id o k m
      | .absent page => askPage id o o.ctx page
      | .fail _ _ _ => skip

/-- The next event of transfer `k` of a copy, or of a drain past its accumulator read. -/
def element (id k : Nat) : Act := look fun s =>
  match mLook s.engs id with
  | some o => if o.queued then skip else nextTransfer id o k
  | none => skip

/-! ## Range locks (R208) -/

/-- A range that an operation registers: the core whose table holds it, the side, the length, read or write. -/
structure Range where
  core : Nat
  side : Side
  n : Nat
  write : Bool
  deriving DecidableEq, Repr

/-- The global range of a box: from the lowest byte of its data and scales to the highest. -/
def boxRanges (core : Nat) (sh : Shape) (cs : List Int) (write : Bool) : List Range :=
  match dataRange sh cs, scaleRange sh cs with
  | some a, some b =>
    let lo := min a.1 b.1
    [⟨core, .virt lo, max (a.1 + a.2) (b.1 + b.2) - lo, write⟩]
  | some a, none | none, some a => [⟨core, .virt a.1, a.2, write⟩]
  | none, none => []

/-- The lock tables have room, and no lock stands against a range. -/
def rangesFree (s : State) (cid : Nat) (rs : List Range) : Bool :=
  rs.all fun r =>
    decide ((s.locks.filter fun l => decide (l.core = r.core)).length +
      (rs.filter fun q => decide (q.core = r.core)).length ≤ 32) &&
    s.locks.all fun l => !(decide (l.core = r.core) && decide (l.ctx = cid) && (r.write || l.write) && sideHit r.side r.n l.side l.n)

/-! ## Issue, completion, failure -/

/-- The counter an operation counts on: `true` for cp, `false` for tl, none for those that do not count (R54). -/
def EKind.onCp : EKind → Option Bool
  | .load _ _ _ _ | .store _ _ _ _ _ | .move _ _ _ | .drain _ _ _ _ => some true
  | .stat _ _ _ | .clr _ _ | .pin _ _ => none
  | _ => some false

/-- Drains are counted by their warp (R271). -/
def drainsOf : EKind → Nat
  | .drain _ _ _ _ | .tsave _ _ _ => 1
  | _ => 0

/-- An operation takes no place in the matrix queue's 16 (R286). -/
def EKind.rides : EKind → Bool
  | .stat _ _ _ | .clr _ _ | .pin _ _ => true
  | _ => false

/-- The matrix queue of a core, in order (R261). -/
def queueOf (s : State) (core : Nat) : List (Nat × EngOp) :=
  s.engs.filter fun e => decide (e.2.core = core) && e.2.queued

/-- An acquire, or a release fence, of the strand's lanes that holds engine operations back (R206). -/
def engineHeld (s : State) (i : Iss) (release : Bool) : Bool :=
  (release && !quiet s i.w i.lanes) ||
  s.ops.any fun e => decide (e.2.w = i.w) &&
    (if e.2.kind = .fence then e.2.rel && decide (e.2.lanes &&& i.lanes ≠ 0)
     else e.2.acq && e.2.units.any fun u => !u.done && hasLane i.lanes u.lane)

/-- An operation of the issuing warp. -/
def engOf (i : Iss) (kind : EKind) (tag : Option Nat) (queued : Bool) : EngOp :=
  { w := i.w, blk := i.warp.block, ctx := i.cid, core := i.core, pc := pcOf i.st, tag := tag, queued := queued,
    seq := i.warp.seq, kind := kind }

/-- The pinned region an operation names for a later `gfree` to wait for (R285). -/
def EKind.pinNamed : EKind → Option Nat
  | .gacc p _ _ _ _ _ _ | .gflush p => some p
  | _ => none

/-- An operation past its checks waits at issue. -/
def waitEngine (i : Iss) (o : EngOp) (reason : Nat) : Act :=
  match o.kind.pinNamed with
  | some p => waitWith i (.counted p)
  | none => stall i reason

/-- Issues an engine operation that passed its checks: it waits for the strand's accesses it must follow, for its
ranges, its tag, its counter and the queue; then registers all of them and goes on (R208, R230, R232, R261). -/
def issueEngine (i : Iss) (o : EngOp) (release : Bool) (rs : List Range) : Act := look fun s =>
  let full := match o.kind.onCp with
    | some true => decide (i.warp.cp = 63) | some false => decide (i.warp.tl = 63) | none => false
  if engineHeld s i release then waitEngine i o 4
  else if !rangesFree s i.cid rs then waitEngine i o 4
  else if tagFull i.blk o.tag then waitEngine i o 6
  else if full then waitEngine i o 2
  else if o.queued && !o.kind.rides && decide (16 ≤ ((queueOf s i.core).filter fun e => !e.2.kind.rides).length) then waitEngine i o 13
  else
    andThen (eff (.eng s.nextId { o with since := cycleOf s i.core })) <|
    andThen (eff (.ids (s.nextId + 1))) <|
    andThen (eff (.locks (s.locks ++ rs.map fun r => ⟨r.core, i.cid, r.side, r.n, r.write, s.nextId⟩))) <|
    andThen (match o.tag with | some t => tagTaken i.warp.block t | none => skip) <|
    andThen (updWarp i.w fun x => match o.kind.onCp with
      | some true => { x with cp := x.cp + 1, drains := x.drains + drainsOf o.kind }
      | some false => { x with tl := x.tl + 1, seq := x.seq + 1, drains := x.drains + drainsOf o.kind }
      | none => x) (advance i 1)

/-- An operation leaves: its locks drop, its counter and its tag's count fall (R231, R232). -/
def retireEngine (id : Nat) (o : EngOp) : Act :=
  andThen (eff (.dropEng id)) <|
  andThen (fun s => [.locks (s.locks.filter fun l => decide (l.op ≠ id))]) <|
  andThen (match o.tag with | some t => tagDone o.blk t | none => skip) <|
  andThen (updWarp o.w fun x => match o.kind.onCp with
    | some true => { x with cp := x.cp - 1 }
    | some false => { x with tl := x.tl - 1 }
    | none => x) bump

def FailCause.trap : FailCause → Cause
  | .xlate => .xlate | .prot => .prot | .dataerr => .dataerr | .sealed => .sealed

/-- The trap of a failed operation, pending for its warp (R231, R384). -/
def failTrap (o : EngOp) (why : FailCause) (addr extra : Nat) : Trap :=
  { cause := FailCause.trap why, deferred := true, engine := true, tag := o.tag.getD 0xFF, pc := o.pc,
    addr := BitVec.ofNat 64 addr, extra := BitVec.ofNat 64 extra }

/-- An operation completes as failed. -/
def failEngine (id : Nat) (o : EngOp) (why : FailCause) (addr extra : Nat) : Act :=
  andThen (updWarp o.w fun x => { x with deferred := x.deferred ++ [failTrap o why addr extra] }) (retireEngine id o)

/-- A warp with one strand, none held and none parked behind a handler (R233, R280, R353). An arm of a serialised or
one-sided fork runs as the one strand of its warp (R20). -/
def singleStrand (x : Warp) : Bool := decide (x.strands.length = 1) && x.heldStrands.isEmpty && x.handler.isNone

end Sys2Proof.Machine
end

