-- ==== Sys2Proof/Machine/Copy.lean ====
section
/-! DEFINITION. The copies 0xB0 to 0xB5 and the tag instructions 0xB6 to 0xB9 (13_ref_memory_copy R229 to R237,
16_matrix_engine R265 for `cpb`), and the completion of engine operations. -/

namespace Sys2Proof.Machine

/-! ## What the copies share (R229, R230) -/

/-- NT: the operation touches no tag (R232). `cpm` has no such bit. -/
def copyTag (f : KFields) (hasNt : Bool) : Option Nat := if hasNt && f.aux.getLsbD 0 then none else some f.tag.toNat
/-- A tag at or beyond TAGS (R75). -/
def tagBeyond (i : Iss) (t : Option Nat) : Bool := match t with | some n => decide (i.lau.tags ≤ n) | none => false
/-- The five coordinate registers (R228). -/
def coordRegs (i : Iss) (f : KFields) : List Int := (List.range 5).map fun j => signed 32 (sR i.warp (f.c.toNat + j)).toNat
/-- sC to sC + 4 lie within SREGS (R75). -/
def fiveOk (i : Iss) (f : KFields) : Bool := decide (f.c.toNat + 4 < i.lau.sregs) && decide (f.c.toNat + 4 < 384)
def copyReads (f : KFields) : List Nat := regs f.a.toNat true ++ spanRegs f.c.toNat 5

/-- The limits a box must keep beside its record's own (R227, R228, R252). -/
def boxChecks (sh : Shape) (cs : List Int) (mode : Nat) : List (Bool × Nat) :=
  let c (j : Nat) : Int := cs.getD j 0
  let b (j : Nat) : Nat := sh.box.getD j 0
  [(decide (mode % 2 = 1) && decide (sh.rank < 2), 8),
   (decide (mode % 2 = 1) && isSub sh.fmt, 9),
   (isSub sh.fmt && (decide (b 0 % 64 ≠ 0) || decide (c 0 % 64 ≠ 0)), 12),
   (sh.scaled && (decide (c 0 % 32 ≠ 0) || decide (c 1 % 32 ≠ 0) || decide (b 0 % 32 ≠ 0) || decide (b 1 % 32 ≠ 0)), 12)]

/-- A copy through a shape record, which may be SCALED with `scales`: its guard, its tag, the record and the box, then
`a`. -/
def copyMeans (s : State) (i : Iss) (f : KFields) (hasNt opnd : Bool) (u : Uses) (ready scales : Bool)
    (a : Shape → List Int → Act) : Act :=
  gated s i (chkAll true (opnd && !tagBeyond i (copyTag f hasNt))) { u with mem := true, act := guardScalar i f.gp f.gn } 0 <|
    if !guardScalar i f.gp f.gn then advance i 1
    else noRegion i i.lanes 0 <|
      if !ready then stall i 4
      else withShape s i (sVal i.warp true f.a.toNat) true scales fun sh =>
        checked i (boxChecks sh (coordRegs i f) f.mode.toNat) (a sh (coordRegs i f))

/-- PROT for the first range that does not fit (R230), SEAL for a global destination in a sealed region (R193). -/
def rangeTraps (i : Iss) (localOk : Bool) (sh : Shape) (cs : List Int) (writes : Bool) (a : Act) : Act :=
  let rs := [dataRange sh cs, scaleRange sh cs].filterMap id
  if !localOk then trapLanes i .prot i.st.members 0 0
  else match rs.find? (fun r => !canonRange (some r)) with
    | some r => trapLanes i .prot i.st.members r.1 0
    | none => match (if writes then rs.find? (fun r => touchesAny (i.ctx.sealed ++ i.ctx.marks) r.1 r.2) else none) with
      | some r => trapLanes i .sealed i.st.members r.1 0
      | none => a

/-- ORDER 2: the strand's earlier accesses come first (R206). -/
def isRelease (f : KFields) : Bool := f.order = .rel

/-! ## `cpg`, `cps`, `cpb`, `cpv`, `cpm`, `cpx` -/

def execCpg (f : KFields) (s : State) : Host.Outcome State Fault Refusal := atIssue s fun i =>
  let ofs := (sR i.warp f.b.toNat).toNat
  copyMeans s i f true (sPair i f.a && sOk i f.b.toNat 1 && fiveOk i f) { sr := f.b.toNat :: copyReads f } true true fun sh cs =>
    let n := localBytes sh ofs
    rangeTraps i (decide (ofs + n ≤ i.lau.scratch)) sh cs false <|
      issueEngine i (engOf i (.load sh cs f.mode.toNat [.scr i.warp.block ofs]) (copyTag f true) false) (isRelease f)
        (⟨i.core, .scr i.warp.block ofs, n, true⟩ :: boxRanges i.core sh cs false)

def execCps (f : KFields) (s : State) : Host.Outcome State Fault Refusal := atIssue s fun i =>
  let ofs := (sR i.warp f.b.toNat).toNat
  let adds := decide (f.mode.toNat = 2)
  copyMeans s i f true (sPair i f.a && sOk i f.b.toNat 1 && fiveOk i f) { sr := f.b.toNat :: copyReads f } true true fun sh cs =>
    let n := localBytes sh ofs
    checked i [(adds && decide (sh.fmt ≠ 9) && decide (sh.fmt ≠ 6), 9)] <|
      rangeTraps i (decide (ofs + n ≤ i.lau.scratch)) sh cs true <|
        issueEngine i (engOf i (.store sh cs f.mode.toNat (.scr i.warp.block ofs) adds) (copyTag f true) false)
          (isRelease f) (⟨i.core, .scr i.warp.block ofs, n, false⟩ :: boxRanges i.core sh cs true)

/-- `cpb` (R265). DESIGN CHOICE (log entry 83): its limits are those of the box after MODE is applied, the matrix whose
dimension 0 is the column. -/
def execCpb (f : KFields) (s : State) : Host.Outcome State Fault Refusal := atIssue s fun i =>
  let ofs := (sR i.warp f.b.toNat).toNat
  copyMeans s i f true (sPair i f.a && sOk i f.b.toNat 1 && fiveOk i f) { sr := f.b.toNat :: copyReads f } true false fun sh cs =>
    let ext := if f.mode.toNat % 2 = 1 then swap01 sh.ext else sh.ext
    let cols := ext.getD 0 1
    let n := 128 * (rowEnd sh.fmt (ext.getD 1 1) - 1) + cols
    checked i [(decide (ofs % 128 ≠ 0), 0),
        (decide (128 < cols) || (ext.drop 2).any (fun b => decide (b ≠ 1)), 48)] <|
      rangeTraps i (decide (ofs + n ≤ 2 ^ 24)) sh cs false <|
        issueEngine i (engOf i (.load sh cs f.mode.toNat [.bst i.core ofs]) (copyTag f true) false) (isRelease f)
          (⟨i.core, .bst i.core ofs, n, true⟩ :: boxRanges i.core sh cs false)

def execCpv (f : KFields) (s : State) : Host.Outcome State Fault Refusal := atIssue s fun i =>
  let v := f.b.toNat
  copyMeans s i f true (sPair i f.a && vOk i v 1 && fiveOk i f) { sr := copyReads f } (singleStrand i.warp) true fun sh cs =>
    let n := (localBytes sh (128 * v) + 127) / 128
    checked i [(decide (8192 < dataBytes sh) || decide (dataBytes sh % 128 ≠ 0) || decide (i.warp.alloc < v + n), 0)] <|
      rangeTraps i true sh cs false <|
        if (spanRegs v n).any fun r => decide (pendingV s i.w r ≠ 0) then stallOn i 1 (spanRegs v n)
        else issueEngine i (engOf i (.load sh cs f.mode.toNat [.reg i.w (128 * v)]) (copyTag f true) false) (isRelease f)
          (boxRanges i.core sh cs false)

/-- The cluster core indices a `cpm` names (R234). -/
def multicast (f : KFields) : List Nat :=
  let m := if f.mode.getLsbD 2 then f.aux.toNat * 256 else f.aux.toNat
  (List.range 16).filter fun k => m.testBit k

def execCpm (f : KFields) (s : State) : Host.Outcome State Fault Refusal := atIssue s fun i =>
  let ofs := (sR i.warp f.b.toNat).toNat
  copyMeans s i f false (sPair i f.a && sOk i f.b.toNat 1 && fiveOk i f) { sr := f.b.toNat :: copyReads f } true true fun sh cs =>
    let n := localBytes sh ofs
    let named := (multicast f).map (clusterBlock s i)
    let dest := named.filterMap id
    rangeTraps i (named.all Option.isSome && decide (ofs + n ≤ i.lau.scratch)) sh cs false <|
      issueEngine i (engOf i (.load sh cs f.mode.toNat (dest.map fun b => .scr b ofs)) (copyTag f false) false) (isRelease f)
        (dest.map (fun b => ⟨(match mLook s.blocks b with | some x => x.cores.headD i.core | none => i.core), .scr b ofs, n, true⟩)
          ++ boxRanges i.core sh cs false)

/-- `cpx` (R235). -/
def execCpx (f : KFields) (s : State) : Host.Outcome State Fault Refusal := atIssue s fun i =>
  let va := sVal i.warp true f.a.toNat
  let dest := va % 2 ^ 32
  let frm := (sR i.warp f.b.toNat).toNat
  let n := (sR i.warp f.c.toNat).toNat
  gated s i (chkAll true (sPair i f.a && sOk i f.b.toNat 1 && fiveOk i f && !tagBeyond i (copyTag f true)))
      { sr := regs f.a.toNat true ++ [f.b.toNat, f.c.toNat], mem := true, act := guardScalar i f.gp f.gn } 0 <|
    if !guardScalar i f.gp f.gn then advance i 1
    else noRegion i i.lanes 0 <|
      checked i [(decide (n % 16 ≠ 0) || decide (n = 0) || decide (2 ^ 20 < n) || decide (frm % 16 ≠ 0) ||
          decide (dest % 16 ≠ 0), 0)] <|
        match (if va < 2 ^ 36 ∧ dest + n ≤ 2 ^ 25 ∧ dest + n ≤ i.lau.scratch ∧ frm + n ≤ i.lau.scratch
            then clusterBlock s i (va / 2 ^ 32) else none) with
        | none => trapLanes i .prot i.st.members va 0
        | some b =>
          checked i [(decide (b = i.warp.block) && rangeHit frm n dest n, 0)] <|
            issueEngine i (engOf i (.move (.scr i.warp.block frm) (.scr b dest) n) (copyTag f true) false) (isRelease f)
              [⟨i.core, .scr b dest, n, true⟩, ⟨i.core, .scr i.warp.block frm, n, false⟩]

/-! ## Completion (R230 to R232) -/

/-- The transfers of an operation that are left. -/
def leftOf (o : EngOp) : List Nat := (List.range (moveCount o)).filter fun k => !o.done.contains k

/-- `COPY_COMPLETE`: what the remaining transfers have to read is read, and then they are written; when none is left,
the operation completes. -/
def execCopyComplete (op : Nat) (s : State) : Host.Outcome State Fault Refusal := finish s <|
  match mLook s.engs op with
  | none => skip
  | some o =>
    if o.queued || o.kind.onCp ≠ some true then skip
    else andThen (forAll (element op) (leftOf o ++ leftOf o)) <|
      look fun s => match mLook s.engs op with
        | some y => if moveCount y ≤ y.done.length then retireEngine op y else bump
        | none => skip

/-- `COPY_FAIL` (R231): some transfer that is left meets this failure. -/
def execCopyFail (op : Nat) (why : FailCause) (addr : DWord) (s : State) : Host.Outcome State Fault Refusal := finish s <|
  match mLook s.engs op with
  | none => skip
  | some o =>
    if o.queued || o.kind.onCp ≠ some true then skip
    else match failingMove s o why addr.toNat with
      | some x => failEngine op o why addr.toNat x
      | none => skip

/-! ## The tag instructions (R236) -/

/-- The masked tags below TAGS. -/
def tagMask (i : Iss) (f : KFields) : Nat := sVal i.warp true f.a.toNat % 2 ^ i.lau.tags
/-- The lowest tag of a set, or all ones. -/
def lowestTag (m : Nat) : Nat := ((List.range 64).find? fun k => m.testBit k).getD 0xFFFFFFFF

/-- A tag instruction: guard, then the failed operations it observes, then `a` with its mask and the set tags of it. -/
def tagMeans (s : State) (i : Iss) (f : KFields) (dst observes : Bool) (a : Nat → Nat → Act) : Act :=
  gated s i (chkAll true (sPair i f.a && (!dst || sOk i f.b.toNat 1)))
      { sr := regs f.a.toNat true, sw := if dst then [f.b.toNat] else [], mem := true, act := guardScalar i f.gp f.gn } 0 <|
    if !guardScalar i f.gp f.gn then advance i 1
    else unlessDue i { tags := if observes then BitVec.ofNat 64 (tagMask i f) else 0 } <|
      a (tagMask i f) (tagMask i f &&& i.blk.cdone.toNat)

def execWaitany (f : KFields) (s : State) : Host.Outcome State Fault Refusal := atIssue s fun i =>
  tagMeans s i f true true fun m r =>
    if m ≠ 0 ∧ r = 0 then stall i 6 else andThen (putScalar i false f.b.toNat (lowestTag r)) (advance i 1)

def execWaitall (f : KFields) (s : State) : Host.Outcome State Fault Refusal := atIssue s fun i =>
  tagMeans s i f false true fun m r => if r ≠ m then stall i 6 else advance i 1

def execFfrdy (f : KFields) (s : State) : Host.Outcome State Fault Refusal := atIssue s fun i =>
  tagMeans s i f true true fun _ r => andThen (putScalar i false f.b.toNat (lowestTag r)) (advance i 1)

def execTagrel (f : KFields) (s : State) : Host.Outcome State Fault Refusal := atIssue s fun i =>
  tagMeans s i f false false fun m _ =>
    andThen (updBlock i.warp.block fun b =>
      { b with cdone := (List.range 64).foldl (fun d t =>
          if m.testBit t && decide (tagCount b t = 0) then d &&& ~~~((1 : DWord) <<< t) else d) b.cdone }) (advance i 1)

end Sys2Proof.Machine
end

