-- ==== Sys2Proof/Machine/Reduce.lean ====
section
/-! DEFINITION. Deadline reductions (18_program_bucket R292 to R294, 19_regions_and_deadlines R308 to R316,
20_ref_regions_reduce R323 to R328): groups, exact partials, rounds at the root, `dgrp`, `dred` and `dfix`. -/

namespace Sys2Proof.Machine

/-! ## Group records (R292, R324) -/

/-- The group a record describes, before its root is known. -/
def groupOf (r : List Byte) : RedGroup :=
  { op := recAt r 2 1, words := recAt r 3 1, count := recAt r 4 2, flags := recAt r 6 2, result := recAt r 8 4,
    corr := recAt r 12 4, rootDie := 0 }

/-- Bytes of an area (R293). -/
def areaBytes (g : RedGroup) : Nat := 4 * (13 * g.words + (g.count + 31) / 32 + 1)

/-- Fields outside R292 or R324, then areas that overlap (R323). -/
def groupChecks (r : List Byte) : List (Bool × Nat) :=
  let g := groupOf r
  [(decide (255 < recAt r 0 2), 0), (decide (5 < g.op), 2), (decide (g.words = 0) || decide (128 < g.words), 3),
   (decide (g.count = 0) || decide (4096 < g.count), 4),
   (decide (g.flags % 16 / 2 ≠ 0) || (decide (g.flags % 2 = 0) && decide (g.flags / 16 ≠ 0)), 6),
   (decide (g.result % 16 ≠ 0), 8), (decide (g.corr % 16 ≠ 0), 12), ((r.drop 16).any (· ≠ 0), 16),
   (rangeHit g.result (areaBytes g) g.corr (areaBytes g), 12)]

/-- The first field in which a record differs from the defined group (R308). -/
def groupDiffers (g d : RedGroup) : List (Bool × Nat) :=
  [(decide (g.op ≠ d.op), 2), (decide (g.words ≠ d.words), 3), (decide (g.count ≠ d.count), 4),
   (decide (g.result ≠ d.result), 8), (decide (g.corr ≠ d.corr), 12)]

/-- `a` with the group number, the record's group and the defined one, once the record has passed its checks. `mustBe`:
an undefined group raises ILLOPND 0x62. -/
def withGroup (s : State) (i : Iss) (f : KFields) (mustBe : Bool) (a : Nat → RedGroup → Option RedGroup → Act) : Act :=
  withRecord s i (sVal i.warp true f.a.toNat) 8 64 fun r =>
    let n := recAt r 0 2
    let d := mLook i.ctx.groups n
    checked i (groupChecks r ++ [(mustBe && d.isNone, 0x62)] ++
        (match d with | some x => groupDiffers (groupOf r) x | none => [])) <|
      a n { groupOf r with rootDie := i.core / Config.coresPerDie } d

/-- A scratch area of the executing block does not fit (R323). -/
def areaBad (i : Iss) (o n : Nat) : Bool := decide (o % 16 ≠ 0) || decide (i.lau.scratch < o + n)

/-! ## Exact partials (R312) -/

/-- An FP32 accumulator: the sum of the finite contributions in units of 2^−149, and the three flags. -/
structure Acc where
  sum : Int := 0
  pinf : Bool := false
  ninf : Bool := false
  nan : Bool := false
  deriving DecidableEq, Repr

def accAdd (a b : Acc) : Acc := ⟨a.sum + b.sum, a.pinf || b.pinf, a.ninf || b.ninf, a.nan || b.nan⟩
/-- A contribution's own accumulator: its exact value. -/
def accOf (x : Nat) : Acc :=
  match fDecode fF32 false x with
  | .nan _ => { nan := true }
  | .inf true => { ninf := true }
  | .inf false => { pinf := true }
  | .fin neg m e => let v : Int := m * 2 ^ (e + 149).toNat; { sum := if neg then -v else v }
/-- The root rounding. -/
def accRound (a : Acc) : Nat :=
  if a.nan || (a.pinf && a.ninf) then fF32.nanBits
  else (fDeliver fF32 atomEnv 0 false (if a.pinf then .inf false else if a.ninf then .inf true
    else .fin (decide (a.sum < 0)) a.sum.natAbs (-149))).val
def bitIf (b : Bool) (n : Nat) : Nat := if b then n else 0
/-- The 384 bits of an accumulator, and back. -/
def accBits (a : Acc) : Nat := ofInt 320 a.sum + bitIf a.pinf (2 ^ 320) + bitIf a.ninf (2 ^ 321) + bitIf a.nan (2 ^ 322)
def accFrom (x : Nat) : Acc := ⟨toInt true 320 x, x.testBit 320, x.testBit 321, x.testBit 322⟩

/-- The words of an area that covers no contributor (R313). -/
def redIdentity (op : Nat) : Nat :=
  match op with | 1 => 0x7F800000 | 2 => 0xFF800000 | 4 => 0xFFFFFFFF | _ => 0

/-- Two values combined by an OP other than the FP32 sum. -/
def redCombine (op a b : Nat) : Nat :=
  match op with
  | 1 => (fMinMax fF32 false false a b).val
  | 2 => (fMinMax fF32 true false a b).val
  | 3 => (a + b) % 2 ^ 32
  | 4 => a &&& b
  | _ => a ||| b

/-- A set of values combined: a lone NaN counts as two (R101's default NaN), so that the result depends on the set only. -/
def redAll (op : Nat) : List Nat → Nat
  | [] => redIdentity op
  | x :: xs => xs.foldl (redCombine op) (if op = 1 ∨ op = 2 then redCombine op x x else x)

/-! ## Areas (R293) -/

/-- What an area holds: words, the covered indices as a number, HALF, and the accumulators. -/
structure Area where
  words : List Nat
  cover : Nat
  half : Bool
  accs : List Acc
  deriving DecidableEq, Repr

/-- How many of the first `n` bits are set. -/
def bitsSet (x : Nat) : Nat → Nat
  | 0 => 0
  | n + 1 => bitsSet x n + (if x.testBit n then 1 else 0)

/-- Bits of a bitmap. -/
def bitmapBits (g : RedGroup) : Nat := (g.count + 31) / 32 * 32

/-- The 32-bit words of a number. -/
def wordsOf (n x : Nat) : List Nat := (List.range n).map fun j => x / 2 ^ (32 * j) % 2 ^ 32

/-- The words of an area in its layout. -/
def areaWords (g : RedGroup) (a : Area) : List Word :=
  (a.words ++ wordsOf ((g.count + 31) / 32) a.cover ++
    [bitsSet a.cover (bitmapBits g) % 2 ^ 13 + bitIf a.half (2 ^ 31)] ++
    (if g.op = 0 then a.accs.flatMap fun x => wordsOf 12 (accBits x) else List.replicate (12 * g.words) 0)).map
    (BitVec.ofNat 32)

/-- A number from words, the first the lowest. -/
def numOf (ws : List Word) : Nat := ws.foldr (fun w x => w.toNat + 2 ^ 32 * x) 0

/-- Reads an area of a block's scratch. -/
def readArea (s : State) (blk : Nat) (g : RedGroup) (o : Nat) : Area :=
  let n := (g.count + 31) / 32
  let at_ (p k : Nat) : Nat := readLoc s (.scr blk (o + 4 * p)) (4 * k)
  { words := (List.range g.words).map fun j => at_ j 1
    cover := at_ g.words n
    half := false
    accs := (List.range g.words).map fun j => accFrom (at_ (g.words + n + 1 + 12 * j) 12) }

/-- The area over a set of contributions (R312, R313). -/
def areaOf (g : RedGroup) (cs : List Contribution) (half : Bool) : Area :=
  let col (j : Nat) : List Nat := cs.map fun c => (c.payload.getD j 0).toNat
  let accs := (List.range g.words).map fun j => (col j).foldl (fun a x => accAdd a (accOf x)) {}
  { words := (List.range g.words).map fun j => if g.op = 0 then accRound (accs.getD j {}) else redAll g.op (col j)
    cover := cs.foldl (fun m c => m ||| 2 ^ c.index) 0
    half := half
    accs := accs }

/-- `dfix`'s merge (R315). -/
def mergeAreas (g : RedGroup) (r c : Area) : Area :=
  let cover := r.cover ||| c.cover
  let accs := (List.range g.words).map fun j => accAdd (r.accs.getD j {}) (c.accs.getD j {})
  { words := (List.range g.words).map fun j =>
      if g.op = 0 then accRound (accs.getD j {}) else redCombine g.op (r.words.getD j 0) (c.words.getD j 0)
    cover := cover
    half := decide (bitsSet cover (bitmapBits g) < g.count)
    accs := accs }

/-! ## Rounds at the root (R310 to R314) -/

/-- An area on its way to a participant: a round's result clears both its tags first (R314). -/
def sendTo (g : RedGroup) (corr : Bool) (ws : List Word) (p : Nat × Nat × Nat) : Delivery :=
  { blk := p.1
    tag := if corr then p.2.2 else p.2.1
    clears := if corr then [] else [p.2.1, p.2.2]
    left := ws.zipIdx.map fun w => ((if corr then g.corr else g.result) + 4 * w.2, w.1) }

/-- The result area goes out, and ends the first phase (R311). -/
def sendResult (g : RedGroup) (ws : List Word) : RedGroup :=
  { g with phaseOne := false, expires := none, lastResult := some ws, lastCorr := none,
           sending := g.sending ++ g.parts.map (sendTo g false ws) }
/-- The correction goes out; the round finishes with its delivery (R313, R314). -/
def sendCorr (g : RedGroup) (ws : List Word) : RedGroup :=
  { g with closed := true, lastCorr := some ws, sending := g.sending ++ g.parts.map (sendTo g true ws) }

/-- A round opens with the contributions `cs`; the first one's deadline counts (R310). -/
def openRound (now : Nat) (cs : List Contribution) (g : RedGroup) : RedGroup :=
  { g with present := cs, late := [], phaseOne := true, closed := false, began := !cs.isEmpty,
           expires := match cs with
             | c :: _ => if c.deadline = 0 then none else some (now + 16 * c.deadline)
             | [] => none }

/-- The round has finished: the contributions held for the next one open it (R314), unless a release waits (R325). -/
def nextRound (now : Nat) (g : RedGroup) : RedGroup :=
  openRound now (if g.freeing then [] else g.waiting) { g with waiting := [] }

/-- The first phase ends with the area over the present set (R311). -/
def closePhase (g : RedGroup) : RedGroup :=
  sendResult g (areaWords g (areaOf g g.present (decide (g.present.length < g.count))))

/-- The correction goes out over the late set (R313). -/
def closeRound (g : RedGroup) : RedGroup := sendCorr g (areaWords g (areaOf g g.late false))

/-- Ends what all COUNT contributions end; with nobody to deliver to, the held ones of at most `n` more rounds with it. -/
def settleRound (now : Nat) : Nat → RedGroup → RedGroup
  | 0, g => g
  | n + 1, g =>
    if !g.began || g.closed || decide (g.present.length + g.late.length < g.count) then g
    else
      let h := closeRound (if g.phaseOne then closePhase g else g)
      if h.sending.isEmpty then settleRound now n (nextRound now h) else h

/-- A round whose correction has been delivered finishes (R314). -/
def finishRound (now : Nat) (g : RedGroup) : RedGroup :=
  if g.closed && g.sending.isEmpty then settleRound now 3 (nextRound now g) else g

/-- The deadline has passed: the cycle of expiry is over (R310). -/
def overdue (now : Nat) (g : RedGroup) : Bool := g.began && g.phaseOne && g.expires.any fun t => decide (t < now)

/-- The first phase ends at expiry. -/
def expireRound (now : Nat) (g : RedGroup) : RedGroup := if overdue now g then settleRound now 2 (closePhase g) else g

/-- A contribution arrives at the root (R309, R310, R313, R314); one that comes after the cycle of expiry finds the
first phase ended, and one that comes after the round a release waits for is discarded (R325). -/
def arriveRound (now : Nat) (c : Contribution) (g : RedGroup) : RedGroup :=
  let h := expireRound now g
  let held := (h.present ++ h.late).any fun x => decide (x.index = c.index)
  settleRound now 3 <|
    if h.began && held then { h with waiting := h.waiting ++ [c] }
    else if !h.began then (if h.freeing then h else openRound now [c] h)
    else if h.phaseOne then { h with present := h.present ++ [c] }
    else { h with late := h.late ++ [c] }

def setTag (blk t : Nat) (b : Bool) : Act := updBlock blk fun x =>
  { x with cdone := if b then x.cdone ||| ((1 : DWord) <<< t) else x.cdone &&& ~~~((1 : DWord) <<< t) }

/-- A participant that has completed, or is gone, is skipped (R311). -/
def gone (s : State) (blk : Nat) : Bool := (mLook s.blocks blk).all (·.completed)

/-- What is left of an area reaches its participant, and then its tag is set (R212). -/
def deliverTo (d : Delivery) : Act := look fun s =>
  if gone s d.blk then skip
  else andThen (forAll (fun w => writeLoc (.scr d.blk w.1) 4 w.2.toNat) d.left) (setTag d.blk d.tag true)

/-- A group as it now stands. The first delivery of a round clears the tags of every participant before it writes
(R314); a group whose release waited goes with its round (R325). -/
def putRound (cid n : Nat) (g : RedGroup) : Act :=
  andThen (forAll (fun (d : Delivery) => forAll (fun t => setTag d.blk t false) d.clears) g.sending) <|
  andThen (updCtx cid fun c =>
    { c with groups := if g.freeing && !g.began then mDel c.groups n
                       else mIns c.groups n { g with sending := g.sending.map fun d => { d with clears := [] } } }) bump

/-- A group of a context. -/
def groupAt (s : State) (cid n : Nat) : Option RedGroup := (mLook s.ctxs cid).bind fun c => mLook c.groups n

/-- The cycles of a die's router: it counts with the core of its die that is furthest on (R4, R310). -/
def dieClock (s : State) (die : Nat) : Nat :=
  s.now + (s.cores.filter fun e => decide (e.1 / Config.coresPerDie = die)).foldl (fun n e => max n e.2.extra) 0

/-- A word of the next area for a participant commits; the words of one area commit in any order (R212). -/
def areaWord (cid n blk j : Nat) : Act := look fun s =>
  match groupAt s cid n with
  | none => skip
  | some g => match g.sending.find? fun d => decide (d.blk = blk) with
    | none => skip
    | some d => match d.left[j]? with
      | none => skip
      | some w =>
        if gone s blk then skip
        else andThen (writeLoc (.scr blk w.1) 4 w.2.toNat) <|
          putRound cid n { g with sending := g.sending.map fun y => if y = d then { d with left := d.left.erase w } else y }

/-- The next area of a participant is whole and its tag is set. A participant that is not resident receives it whole,
before its warps issue (R311). -/
def areaDone (cid n blk : Nat) : Act := look fun s =>
  match groupAt s cid n with
  | none => skip
  | some g => match g.sending.find? fun d => decide (d.blk = blk) with
    | none => skip
    | some d =>
      if !d.left.isEmpty && !gone s blk && (mLook s.blocks blk).any (fun b => decide (b.place = .resident)) then skip
      else andThen (deliverTo d) <|
        putRound cid n (finishRound (dieClock s g.rootDie) { g with sending := g.sending.erase d })

/-- A participant that returns receives the areas on their way to it, before any of its warps issues (R311). -/
def receiveAreas (cid blk : Nat) : Act := look fun s => match mLook s.ctxs cid with
  | none => skip
  | some c => forAll (fun (e : Nat × RedGroup) =>
      forAll (fun _ => areaDone cid e.1 blk) (e.2.sending.filter fun d => decide (d.blk = blk))) c.groups

/-- The steps of the deliveries of a context's groups. -/
def areaSteps (cid : Nat) (c : Context) : List Input :=
  c.groups.flatMap fun e => e.2.sending.flatMap fun d =>
    .areaDone cid e.1 d.blk :: (List.range d.left.length).map fun j => .areaWord cid e.1 d.blk j

/-- The root of a group is a router of this device (R309, R324). -/
def rootHere (s : State) (g : RedGroup) : Bool := decide (g.flags % 2 = 0) || decide (g.flags / 16 = s.mgmt.fabricNo)

/-! ## `dgrp` (R325) -/

def redUses (f : KFields) : Uses := { sr := regs f.a.toNat true, mem := true, shadow := true }

/-- The contributions that other devices sent for a group before it was defined here reach its root (R324). -/
def withEarly (s : State) (c : Context) (n : Nat) (g : RedGroup) : RedGroup :=
  if decide (g.flags % 2 = 1) && rootHere s g then { g with flight := mGet [] c.early n } else g

def execDgrp (f : KFields) (s : State) : Host.Outcome State Fault Refusal := atIssue s fun i =>
  let rt := f.tag.toNat
  let ct := f.aux.toNat % 64
  let pending := match i.st.wait with | .registering g _ _ => (mLook i.ctx.groups g).isSome | _ => false
  if pending then waitWith i i.st.wait
  else gated s i (chkAll true (sPair i f.a)) ((redUses f).on (guardScalar i f.gp f.gn)) 0 <|
    if !guardScalar i f.gp f.gn then advance i 1
    else withGroup s i f false fun n r d =>
      checked i [(decide (i.lau.tags ≤ rt) || decide (i.lau.tags ≤ ct) || decide (rt = ct), 0x64)] <|
        if areaBad i r.result (areaBytes r) || areaBad i r.corr (areaBytes r) then trapLanes i .prot i.st.members 0 0
        else
          let g := d.getD (withEarly s i.ctx n r)
          if g.parts.any fun p => decide (p.1 = i.warp.block) then advance i 1
          else
            andThen (updCtx i.cid fun c => { c with groups := mIns c.groups n g, early := mDel c.early n }) <|
            andThen (setTag i.warp.block rt false) <|
            andThen (setTag i.warp.block ct false) <|
            andThen (waitWith i (.registering n rt ct)) bump

/-- `DGRP_REGISTRATION_RECORDED` (R325): the root has recorded the registration; a block that registers after a
delivery receives the delivered areas (R293). -/
def execDgrpRegistrationRecorded (w st : Nat) (s : State) : Host.Outcome State Fault Refusal := finish s <|
  match strandAt s w st with
  | none => skip
  | some i => match i.st.wait with
    | .registering n rt ct => match mLook i.ctx.groups n with
      | none => skip
      | some g =>
        if g.parts.any fun p => decide (p.1 = i.warp.block) then advance i 1
        else
          let p := (i.warp.block, rt, ct)
          andThen (updCtx i.cid fun c => { c with groups := mIns c.groups n { g with parts := g.parts ++ [p] } }) <|
          andThen (match g.lastResult with | some ws => deliverTo (sendTo g false ws p) | none => skip) <|
          andThen (match g.lastCorr with | some ws => deliverTo (sendTo g true ws p) | none => skip) (advance i 1)
    | _ => skip

/-- `dgrp.free` (R325): it waits for the round, and with it the group and its registrations go. -/
def execDgrpFree (f : KFields) (s : State) : Host.Outcome State Fault Refusal := atIssue s fun i =>
  match i.st.wait with
  | .releasing n => if (mLook i.ctx.groups n).any (·.freeing) then waitWith i i.st.wait else advance i 1
  | _ => gated s i (chkAll true (sPair i f.a)) ((redUses f).on (guardScalar i f.gp f.gn)) 0 <|
    if !guardScalar i f.gp f.gn then advance i 1
    else withGroup s i f false fun n _ d =>
      match d with
      | none => advance i 1
      | some g =>
        if g.began then
          andThen (updCtx i.cid fun c => { c with groups := mIns c.groups n { g with freeing := true } }) <|
          waitWith i (.releasing n)
        else andThen (updCtx i.cid fun c => { c with groups := mDel c.groups n }) (advance i 1)

/-! ## `dred` (R326) -/

/-- A read of the executing block's scratch, with the checks of an ordinary read (R214). -/
def scratchFate (s : State) (i : Iss) (o n : Nat) (writes : Bool) : Fate :=
  placed s i (.scr i.warp.block o) none (.scr i.warp.block o) n (!writes) writes
/-- The first stop among some fates, at its offset, else `a`. -/
def stopping (i : Iss) (l : List (Nat × Fate)) (a : Act) : Act :=
  match l.findSome? (fun x => match x.2 with | .stop r c e => some (x.1, r, c, e) | _ => none) with
  | some (o, _, c, e) => trapLanes i c i.st.members o e
  | none => a

/-- The payload of a `dred` is read once the writes before it are committed, and is offered to the router (R326). -/
def dredRead (s : State) (i : Iss) (n idx dl ofs words : Nat) : Act :=
  if !quiet s i.w (~~~0) then waitWith i (.promised n idx dl ofs words)
  else stopping i [(ofs, scratchFate s i ofs (4 * words) false)] <|
    andThen (waitWith i (.contributing n idx dl
      ((List.range words).map fun j => BitVec.ofNat 32 (readLoc s (.scr i.warp.block (ofs + 4 * j)) 4)))) bump

/-- A `dred`. What it read of the record at its issue stays (R292). -/
def execDred (f : KFields) (s : State) : Host.Outcome State Fault Refusal := atIssue s fun i =>
  let ofs := (sR i.warp f.b.toNat).toNat
  let idx := (sR i.warp f.c.toNat).toNat
  let dl := (sR i.warp (f.c.toNat + 1)).toNat
  match i.st.wait with
  | .contributing _ _ _ _ => waitWith i i.st.wait
  | .promised n x d o k => if (mLook i.ctx.groups n).isSome then dredRead s i n x d o k else trapLanes i .illopnd i.st.members 0 0x62
  | _ => gated s i (chkAll true (sPair i f.a && sOk i f.b.toNat 1 && sOk i f.c.toNat 1 && sOk i (f.c.toNat + 1) 1))
      { redUses f with sr := regs f.a.toNat true ++ [f.b.toNat, f.c.toNat, f.c.toNat + 1], act := guardScalar i f.gp f.gn } 0 <|
    if !guardScalar i f.gp f.gn then advance i 1
    else noRegion i i.lanes 0 <|
      withGroup s i f true fun n r _ =>
        checked i [(decide (r.count ≤ idx) || decide (2 ^ 24 ≤ dl), 0x66)] <|
          if areaBad i ofs (4 * r.words) then trapLanes i .prot i.st.members 0 0
          else dredRead s i n idx dl ofs r.words

/-- A contribution the router has taken. A group whose root is another device counts as in a round from then to its
correction (log entry 54). -/
def takeContribution (s : State) (g : RedGroup) (c : Contribution) : RedGroup :=
  { g with flight := g.flight ++ [c], began := g.began || !rootHere s g }

/-- `DRED_ROUTER_ACCEPT` (R326): the die's router takes the contribution, unless one of its index is held for the
next round. -/
def execDredRouterAccept (w st : Nat) (s : State) : Host.Outcome State Fault Refusal := finish s <|
  match strandAt s w st with
  | none => skip
  | some i => match i.st.wait with
    | .contributing n idx dl ws => match mLook i.ctx.groups n with
      | none => trapLanes i .illopnd i.st.members 0 0x62
      | some g =>
        if g.waiting.any fun c => decide (c.index = idx) then skip
        else andThen (updCtx i.cid fun c =>
          { c with groups := mIns c.groups n (takeContribution s g ⟨idx, dl, ws⟩) }) (advance i 1)
    | _ => skip

/-- `DRED_ARRIVE` (R309): a contribution reaches the root. One whose index is held already stays between routers. -/
def execDredArrive (ctx group index : Nat) (s : State) : Host.Outcome State Fault Refusal := finish s <|
  match groupAt s ctx group with
  | none => skip
  | some g => match g.flight.find? (fun c => decide (c.index = index)) with
    | none => skip
    | some c =>
      if !rootHere s g || g.waiting.any (fun x => decide (x.index = index)) then skip
      else putRound ctx group (arriveRound (dieClock s g.rootDie) c { g with flight := g.flight.erase c })

/-- `DEADLINE_EXPIRE` (R310, R311). -/
def execDeadlineExpire (ctx group : Nat) (s : State) : Host.Outcome State Fault Refusal := finish s <|
  match groupAt s ctx group with
  | none => skip
  | some g =>
    let now := dieClock s g.rootDie
    if overdue now g then putRound ctx group (expireRound now g) else skip

/-! ## Fabric groups (R309, R324) -/

/-- A contribution of another device reaches the root's device: it is held there while the group is not defined. -/
def fabricArrive (cid n : Nat) (c : Contribution) : Act := look fun s =>
  match groupAt s cid n with
  | none => updCtx cid fun x =>
    let l := mGet [] x.early n
    if l.any fun y => decide (y.index = c.index) then x else { x with early := mIns x.early n (l ++ [c]) }
  | some g =>
    if g.flags % 2 = 0 ∨ !rootHere s g ∨ g.count ≤ c.index ∨ c.payload.length ≠ g.words ∨
        (g.flight ++ g.waiting).any (fun y => decide (y.index = c.index)) then skip
    else putRound cid n { g with flight := g.flight ++ [c] }

/-- A contribution of this device leaves for the root's device. -/
def fabricLeave (cid n index : Nat) : Act := look fun s =>
  match groupAt s cid n with
  | none => skip
  | some g => match g.flight.find? fun c => decide (c.index = index) with
    | none => skip
    | some c => if rootHere s g then skip else putRound cid n { g with flight := g.flight.erase c }

/-- An area that the root's device decided comes to the participants here: a result, or the correction after it. -/
def fabricArea (cid n : Nat) (corr : Bool) (ws : List Word) : Act := look fun s =>
  match groupAt s cid n with
  | none => skip
  | some g =>
    if rootHere s g ∨ 4 * ws.length ≠ areaBytes g ∨ g.closed ∨ corr = g.phaseOne then skip
    else putRound cid n (finishRound s.now (if corr then sendCorr g ws else sendResult g ws))

/-! ## `dfix` (R315, R327) -/

def execDfix (f : KFields) (s : State) : Host.Outcome State Fault Refusal := atIssue s fun i =>
  let blk := i.warp.block
  let ro := (sR i.warp f.b.toNat).toNat
  let co := (sR i.warp f.c.toNat).toNat
  let dest := (sR i.warp (f.c.toNat + 1)).toNat
  gated s i (chkAll true (sPair i f.a && sOk i f.b.toNat 1 && sOk i f.c.toNat 1 && sOk i (f.c.toNat + 1) 1))
      { redUses f with sr := regs f.a.toNat true ++ [f.b.toNat, f.c.toNat, f.c.toNat + 1], act := guardScalar i f.gp f.gn } 0 <|
    if !guardScalar i f.gp f.gn then advance i 1
    else noRegion i i.lanes 0 <|
      withGroup s i f true fun _ g _ =>
        let n := areaBytes g
        if areaBad i ro n || areaBad i co n || areaBad i dest n then trapLanes i .prot i.st.members 0 0
        else if readHeld s i (.scr blk ro) n || readHeld s i (.scr blk co) n then stall i 4
        else stopping i [(ro, scratchFate s i ro n false), (co, scratchFate s i co n false), (dest, scratchFate s i dest n true)] <|
          let r := readArea s blk g ro
          let c := readArea s blk g co
          if r.cover &&& c.cover ≠ 0 then trapLanes i .illopnd i.st.members 0 0x60
          else if i.warp.st = 63 then stall i 2
          else
            let ws := areaWords g (mergeAreas g r c)
            let l := lowLane i.lanes
            andThen (issueOp i
              { w := i.w
                blk := blk
                ctx := i.cid
                core := i.core
                kind := .store
                chain := (armsOf i.warp i.st).map (·.1)
                units := (List.range ws.length).map fun j => ⟨l, .scr blk (dest + 4 * j), 4, 0, (ws.getD j 0).toNat, 0, false⟩ })
              (advance i 1)

end Sys2Proof.Machine
end

