-- ==== Sys2Proof/Machine/Launch.lean ====
section
/-! DEFINITION. Launches from device code: finish scopes, `launch` and the launch queues, `fopen`, `fclose` and the tape
(21_program_child_launches R329 to R333, 22_scheduling R338 to R343, R355 to R357, 23_ref_sync_launch R369 to R371). -/

namespace Sys2Proof.Machine

/-! ## Finish scopes (R330, R333, R355) -/

/-- A scope is complete: closed, with nothing pending. -/
def scopeComplete (x : Scope) : Bool := !x.opened && decide (x.count = 0)
/-- A scope is allocated and open. -/
def scopeOpen (c : Context) (n : Nat) : Bool := (mLook c.scopes n).any (·.opened)
def addScope (m : Map Scope) (n : Nat) : Map Scope :=
  match mLook m n with | some x => mIns m n { x with count := x.count + 1 } | none => m

/-- What the completion of scope `n` brings: its parent has one item less, and it is freed unless an `fwait` waits. -/
def settleScope : Nat → Map Scope → Nat → Map Scope
  | 0, m, _ => m
  | k + 1, m, n =>
    match mLook m n with
    | none => m
    | some x =>
      if !scopeComplete x then m
      else match x.parent with
        | none => m
        | some p =>
          let y := if x.waited then m else mDel m n
          match mLook y p with
          | some q => settleScope k (mIns y p { q with count := q.count - 1 }) p
          | none => y

/-- One pending item of a scope has completed. -/
def dropScope (m : Map Scope) (n : Nat) : Map Scope :=
  match mLook m n with | some x => settleScope 257 (mIns m n { x with count := x.count - 1 }) n | none => m

def updScopes (cid : Nat) (f : Map Scope → Map Scope) : Act := updCtx cid fun c => { c with scopes := f c.scopes }

/-! ## Launches and their records (R332, R338 to R343) -/

/-- The next launch id (R342): no incomplete launch has it. -/
def freshFrom (m : Map Launch) : Nat → Word → Word
  | 0, w => w
  | n + 1, w => if (mLook m w.toNat).isSome then freshFrom m n (w + 1) else w
def freshId (s : State) : Word := freshFrom s.launches (s.launches.length + 1) s.nextLaunch

/-- A launch has ended, with this status: the first bytes of its record (R339, R340). -/
def endLaunch (id : Nat) (l : Launch) (status penn blocks : Nat) : Act := look fun s =>
  match mLook s.ctxs l.ctx with
  | some c => andThen (beginRecord c id l status penn blocks 0) bump
  | none => skip

/-- Rejects a launch: status 4 where DONE can be written (R331, R338). -/
def rejectLaunch (id : Nat) (l : Launch) : Act := endLaunch id l 4 0 0

/-- A record with HOLD and no scope takes an id, is placed nowhere, and ends with status 4 (R331, R341). -/
def refuseHeld (cid : Nat) (bs : List Byte) : Act := look fun s =>
  match mLook s.ctxs cid with
  | some c =>
    andThen (eff (.launchIds (freshId s + 1)))
      (beginRecord c (freshId s).toNat { ctx := cid, bytes := bs, scope := none, stage := .finished } 4 0 0 0)
  | none => skip

/-- Byte +0 of the record of a finished launch, and with it the launch is complete: its scope has one item less (R333,
R340), and it is forgotten. -/
def finishRecord (id : Nat) : Act := look fun s =>
  match mLook s.launches id with
  | none => skip
  | some l =>
    if l.stage ≠ .finished then skip
    else
      andThen (match l.doneKey with | some k => writeLoc (.glob k) 1 l.status | none => skip) <|
      andThen (match l.scope with | some n => updScopes l.ctx fun m => dropScope m n | none => skip) <|
      andThen (eff (.dropLaunch id)) bump

/-- A record occupies a queue entry or ring slot (R332). -/
def occupies (l : Launch) : Bool := l.placed && (decide (l.stage = .held) || decide (l.stage = .ready))
/-- Records of a context in its ring. -/
def ringCount (s : State) (cid : Nat) : Nat :=
  (s.launches.filter fun e => decide (e.2.ctx = cid) && occupies e.2 && e.2.queue.isNone).length
/-- Records in a core's pending-launch queue, and those of one context. -/
def queueCount (s : State) (core : Nat) : Nat :=
  (s.launches.filter fun e => occupies e.2 && decide (e.2.queue = some core)).length
def queueCountOf (s : State) (core cid : Nat) : Nat :=
  (s.launches.filter fun e => decide (e.2.ctx = cid) && occupies e.2 && decide (e.2.queue = some core)).length

/-- There is a queue entry or a ring slot for one more record. -/
def launchRoom (s : State) (core cid : Nat) (c : Context) : Bool :=
  decide (queueCount s core < 4) || decide (ringCount s cid < c.launchQuota)

/-- A new launch takes the next id and, where it has a scope, registers with it. -/
def addLaunch (l : Launch) : Act := look fun s =>
  let id := freshId s
  andThen (eff (.launch id.toNat { l with order := s.nextId })) <|
  andThen (eff (.launchIds (id + 1))) <|
  andThen (eff (.ids (s.nextId + 1))) <|
  match l.scope with | some n => updScopes l.ctx fun m => addScope m n | none => skip

/-- FLAGS bit 0 of a record. -/
def recHold (bs : List Byte) : Bool := decide (recAt bs 22 2 % 2 = 1)

/-- Places a record of device code (R331, R332). -/
def placeLaunch (core cid : Nat) (bs : List Byte) (sc : Option Nat) : Act := look fun s =>
  if recHold bs && sc.isNone then
    refuseHeld cid bs
  else
    let inQueue := decide (queueCount s core < 4)
    andThen (addLaunch
      { ctx := cid
        bytes := bs
        scope := sc
        stage := if recHold bs then .held else .ready
        queue := if inQueue then some core else none
        placed := true }) <|
    look fun s => updCtx cid fun c =>
      { c with high := max c.high (queueCountOf s core cid), spills := if inQueue then c.spills else c.spills + 1 }

/-! ## `launch` (R331, R369) -/

/-- The scope a lane's record goes under. -/
def laneScope (i : Iss) (f : MFields) (l : Nat) (bs : List Byte) : Option Nat :=
  let e := (vR i.warp f.e.toNat l).toNat
  let n := if e = 0xFFFFFFFF then recAt bs 48 2 else e
  if n = (if e = 0xFFFFFFFF then 0xFFFF else 0xFFFFFFFF) then none else some n

/-- The uses of `launch`. -/
def launchUses (f : MFields) : Uses :=
  { vr := addrV f ++ [f.e.toNat], sr := addrS f, vw := [f.d.toNat], pr := guardReads f.gp, mem := true, shadow := true,
    act := false }

/-- Places the records `rest`, in order, as far as there is room: a lane that finds none waits with those behind it
(R332, R369). Lanes of `g` that are left besides, merged with the rest since, have their turn then. -/
def placeLanes (i : Iss) (f : MFields) (g : Mask) : List (Nat × List Byte × Option Nat) → Mask → Act
  | [], done =>
    if g &&& ~~~done = 0 then andThen (wrote i (launchUses f) done) (advance i 1)
    else andThen (waitWith i (.placed done [])) bump
  | (l, bs, sc) :: rest, done => look fun s =>
    if !(recHold bs && sc.isNone) && !launchRoom s i.core i.cid i.ctx then waitWith i (.placed done ((l, bs, sc) :: rest))
    else
      andThen (updWarp i.w fun x => setV x f.d.toNat l (freshId s)) <|
      andThen (placeLaunch i.core i.cid bs sc) <|
      andThen bump (placeLanes i f g rest (done ||| laneBit l))

/-- The lanes of a `launch` whose records have been placed, and the records it still has to place. -/
def placedBefore (i : Iss) : Mask := match i.st.wait with | .placed m _ => m | _ => 0
def placedRest (i : Iss) : List (Nat × List Byte × Option Nat) := match i.st.wait with | .placed _ r => r | _ => []

/-- What the checks say of the lanes' records: each is one read of 128 bytes (R214, R331). -/
def launchFates (s : State) (i : Iss) (f : MFields) (g : Mask) : List LaneFate :=
  (lanesIn g).map fun l => (l, plainAt i f l, fateOf s i .glob (plainAt i f l) 128 true false)
/-- The records read, with their scopes. -/
def launchRecords (s : State) (i : Iss) (f : MFields) (fs : List LaneFate) : List (Nat × List Byte × Option Nat) :=
  (okLanes fs).map fun x =>
    let bs := bytesOfNat 128 (readLoc s x.2.2.1 128)
    (x.1, bs, laneScope i f x.1 bs)

def execLaunch (f : MFields) (s : State) : Host.Outcome State Fault Refusal := atIssue s fun i =>
  let g := guardMask i f.gp f.gn
  let done := placedBefore i
  let fs := launchFates s i f (g &&& ~~~done)
  let ab := absentLanesOf fs
  let recs := launchRecords s i f fs
  let shut := recs.filter fun b => b.2.2.any fun n => !scopeOpen i.ctx n
  if !(placedRest i).isEmpty then placeLanes i f g (placedRest i) done
  else gated s i (chkAll true (addrOk i f && vOk i f.d.toNat 1 && vOk i f.e.toNat 1)) (launchUses f) g <|
    noRegion i g (lowAddr i (plainAt i f) g) <|
      match firstStop fs with
      | some (c, m, a, x) => trapLanes i c m a x
      | none =>
        if !shut.isEmpty then trapLanes i .illopnd (shut.foldl (fun m b => m ||| laneBit b.1) 0) 0 0x30
        else if !quiet s i.w i.lanes || recs.any (fun b => recordHeld s i (plainAt i f b.1) 16) then stall i 4
        else andThen (shareFor i 128 (okLanes fs)) <|
        if ab.isEmpty then placeLanes i f g recs done
        else if recs.isEmpty then splitOff i ab 0 [] (goOn 1)
        else andThen (splitOff i ab 0 [] id) (placeLanes i f (g &&& ~~~(ab.foldl (fun m x => m ||| laneBit x.1) 0)) recs done)

/-! ## `fopen` and `fclose` (R330, R333) -/

def execFopen (f : CFields) (s : State) : Host.Outcome State Fault Refusal := atIssue s fun i =>
  let child := f.c == 1
  let p := (sR i.warp f.b.toNat).toNat
  let free := (List.range 256).filter fun n => (mLook i.ctx.scopes n).isNone
  gated s i (chkAll true (sOk i f.a.toNat 1 && (!child || sOk i f.b.toNat 1)))
      { sr := if child then [f.b.toNat] else [], sw := [f.a.toNat], shadow := true, act := guardScalar i f.gp f.gn } 0 <|
    if !guardScalar i f.gp f.gn then advance i 1
    else if child && !scopeOpen i.ctx p then trapLanes i .illopnd i.st.members 0 0x30
    else match pick free (choice s 1) with
      | none => andThen (putScalar i false f.a.toNat 0xFFFFFFFF) (advance i 1)
      | some n =>
        andThen (updScopes i.cid fun m =>
          mIns (if child then addScope m p else m) n { parent := if child then some p else none }) <|
        andThen (putScalar i false f.a.toNat n) (advance i 1)

/-- Launches by their order. -/
def insertLaunch (e : Nat × Launch) : List (Nat × Launch) → List (Nat × Launch)
  | [] => [e]
  | y :: ys => if e.2.order ≤ y.2.order then e :: y :: ys else y :: insertLaunch e ys
def byOrder (l : List (Nat × Launch)) : List (Nat × Launch) := l.foldr insertLaunch []

/-- The held records of a closed scope become ready, in registration order (R332). -/
def releaseHeld (cid n : Nat) : Act := look fun s =>
  forAll (fun (e : Nat × Launch) => look fun s =>
    andThen (eff (.launch e.1 { e.2 with stage := .ready, order := s.nextId })) (eff (.ids (s.nextId + 1))))
    (byOrder (s.launches.filter fun e => decide (e.2.ctx = cid) && decide (e.2.stage = .held) && decide (e.2.scope = some n)))

def execFclose (f : CFields) (s : State) : Host.Outcome State Fault Refusal := atIssue s fun i =>
  let n := (sR i.warp f.a.toNat).toNat
  gated s i (chkAll true (sOk i f.a.toNat 1)) { sr := [f.a.toNat], act := guardScalar i f.gp f.gn } 0 <|
    if !guardScalar i f.gp f.gn then advance i 1
    else match mLook i.ctx.scopes n with
      | none => trapLanes i .illopnd i.st.members 0 0x30
      | some x =>
        if !x.opened then trapLanes i .illopnd i.st.members 0 0x30
        else
          andThen (updScopes i.cid fun m => settleScope 257 (mIns m n { x with opened := false }) n) <|
          andThen (releaseHeld i.cid n) (advance i 1)

/-! ## The tape (R356, R357, R371) -/

def execTapePush (f : CFields) (s : State) : Host.Outcome State Fault Refusal := atIssue s fun i =>
  gated s i (chkAll true (sPair i f.a)) 
      { sr := regs f.a.toNat true, mem := true, shadow := true, act := guardScalar i f.gp f.gn } 0 <|
    if !guardScalar i f.gp f.gn then advance i 1
    else withRecord s i (sVal i.warp true f.a.toNat) 16 128 fun bs =>
      if 65536 ≤ i.ctx.tape.length then trapLanes i .illopnd i.st.members 0 0x36
      else andThen (updCtx i.cid fun c => { c with tape := bs :: c.tape }) (advance i 1)

def execTapeRun (f : CFields) (s : State) : Host.Outcome State Fault Refusal := atIssue s fun i =>
  let n := (sR i.warp f.a.toNat).toNat
  gated s i (chkAll true (sOk i f.a.toNat 1)) { sr := [f.a.toNat], act := guardScalar i f.gp f.gn } 0 <|
    if !guardScalar i f.gp f.gn then advance i 1
    else if !scopeOpen i.ctx n then trapLanes i .illopnd i.st.members 0 0x30
    else if i.ctx.tapeRun.isSome then trapLanes i .illopnd i.st.members 0 0x34
    else andThen (updCtx i.cid fun c => { c with tapeRun := some (n, none), scopes := addScope c.scopes n }) (advance i 1)

/-- `TAPE_POP` (R356): once the launch popped before has ended, the next record becomes ready, or the run ends. -/
def execTapePop (ctx : Nat) (s : State) : Host.Outcome State Fault Refusal := finish s <|
  match mLook s.ctxs ctx with
  | none => skip
  | some c => match c.tapeRun with
    | none => skip
    | some (n, cur) =>
      if cur.any fun id => (mLook s.launches id).isSome then skip
      else match c.tape with
        | [] => andThen (updCtx ctx fun c => { c with tapeRun := none, scopes := dropScope c.scopes n }) bump
        | bs :: rest =>
          andThen (updCtx ctx fun c => { c with tapeRun := some (n, some (freshId s).toNat), tape := rest }) <|
          andThen (addLaunch { ctx := ctx, bytes := bs, scope := some n, stage := .ready, tape := true }) bump

end Sys2Proof.Machine
end

