-- ==== Sys2Proof/Machine/Await.lean ====
section
/-! DEFINITION. Continuation records and register growth: `fwait`, `await`, the resumption of a record (22_scheduling
R352 to R354, 23_ref_sync_launch R370 to R373), `rgrow` and `rshrink` with the rule that breaks their deadlock
(03_registers R52, R53, R378). -/

namespace Sys2Proof.Machine

/-! ## Registers and slots of a sub-core (R44, R354) -/

/-- The sub-core that serves a warp number on a core (R44, R401). -/
def servingSub (s : State) (core num : Nat) : Nat :=
  let a := num % Config.subcores
  if (coreOf s core).retiredSubs.contains a then a ^^^ 1 else a

/-- A block is resident. -/
def blockHere (s : State) (b : Nat) : Bool := (mLook s.blocks b).any fun x => decide (x.place = .resident)
/-- The warps that hold registers and a slot of a sub-core: the resident ones, and the claims of records of resident
blocks (R354). -/
def holders (s : State) (core sub : Nat) : List (Nat × Warp) :=
  s.warps.filter fun e => decide (e.2.core = core) && decide (e.2.sub = sub) &&
    (decide (e.2.place = .resident) || (decide (e.2.place = .record) && blockHere s e.2.block))
/-- Registers, and warp slots, that some warps leave free. -/
def regsLeft (l : List (Nat × Warp)) : Nat := Config.fileRegs - (l.map fun e => e.2.alloc).sum
def slotsLeft (l : List (Nat × Warp)) : List Nat :=
  (List.range Config.warpSlots).filter fun n => l.all fun e => decide (e.2.slotNo ≠ n)
/-- What is free for a dispatch or an `rgrow`: claims count as used. -/
def freeRegs (s : State) (core sub : Nat) : Nat := regsLeft (holders s core sub)
def freeSlots (s : State) (core sub : Nat) : List Nat := slotsLeft (holders s core sub)
/-- What is free for a restore or a resumption, which the registers behind claims serve (R354). -/
def openRegs (s : State) (core sub : Nat) : Nat := regsLeft (residents s core sub)
def openSlots (s : State) (core sub : Nat) : List Nat := slotsLeft (residents s core sub)

/-- The strands of a warp that returns to a sub-core take free entries, the running handler's with them (R18, R398);
`none` where there are too few. -/
def reseat (x : Warp) (free : List Nat) : Option Warp :=
  if free.length < x.strands.length then none
  else
    let dest : List (Nat × Nat) := List.zip (x.strands.map (·.1)) free
    let new (k : Nat) : Nat := ((dest.find? fun p => decide (p.1 = k)).map (·.2)).getD k
    some { x with strands := x.strands.foldl (fun m e => mIns m (new e.1) e.2) []
                  handler := x.handler.map fun h => { h with entry := new h.entry } }

/-- Seeds every stochastic state of a warp from its SEED (R142). -/
def reseed (lau : Launch) (b : Nat) (x : Warp) : Warp :=
  let seed := nsSeed x.nstat
  let w (l : Nat) : DWord := BitVec.ofNat 64 (workId lau b x.num l)
  { x with lanesRand := (List.range 32).map fun l => (l, srSeed (w l) seed 0x6A09E667)
           warpRand := srSeed (w 0) seed 0xBB67AE85 }

/-! ## Conditions (R372) -/

/-- Tags of a block: all of a mask, or any of them; an empty mask holds. -/
def tagsHold (b : Block) (m : DWord) (any : Bool) : Bool :=
  decide (m = 0) || (if any then decide (b.cdone &&& m ≠ 0) else decide (b.cdone &&& m = m))

/-- A condition holds, for a block and context as a core sees them. -/
def condHolds (s : State) (core : Nat) (b : Block) (c : Context) : Cond → Bool
  | .tags m any => tagsHold b m any
  | .mem va n rel val => match translate s core b.ctx c va with
    | .leaf e sz => !locBad s (.glob (keyUnder e sz va)) n && memRel rel n (bytesAt s.mem (keyUnder e sz va) n) val
    | _ => false
  | .queue q => (mLook s.queues q).any fun x => !x.entries.isEmpty
  | .scope n | .fwait n => match mLook c.scopes n with | some x => scopeComplete x | none => true

/-- Returning from `fwait` frees the entry (R333). -/
def leaveCond (cid : Nat) : Cond → Act
  | .fwait n => updScopes cid fun m => if (mLook m n).any scopeComplete then mDel m n else m
  | _ => skip

/-! ## The record (R352) -/

/-- N words of a register in lane order. -/
def laneWords (x : Warp) (r : Nat) : List Byte := (List.range 32).flatMap fun l => bytesOfNat 4 (vR x r l).toNat

/-- The 2,240 bytes, for a strand that resumes as `t` stands. -/
def recordBytes (x : Warp) (t : Strand) (vb n : Nat) : List Byte :=
  bytesOfNat 8 (pcOf t).toNat ++ bytesOfNat 4 t.members.toNat ++ bytesOfNat 4 x.nstat.toNat ++
  bytesOfNat 4 x.tshape.toNat ++ bytesOfNat 4 x.drains ++ bytesOfNat 4 x.num ++ bytesOfNat 2 vb ++ bytesOfNat 1 n ++
  bytesOfNat 1 (x.q.toNat % 128) ++ (List.range 7).flatMap (fun k => bytesOfNat 4 (mGet 0 x.p k).toNat) ++
  bytesOfNat 1 (match t.slot with | some j => j | none => 0xFF) ++ bytesOfNat 3 0 ++
  (List.range 32).flatMap (fun r => bytesOfNat 4 (sR x r).toNat) ++
  (List.range n).flatMap (fun j => laneWords x (vb + j)) ++ bytesOfNat (128 * (16 - n)) 0

/-- The warp's registers as the bytes `r` of its record hold them; the rest read 0. -/
def fromRecord (r : List Byte) (x : Warp) : Warp :=
  let word (o : Nat) : Word := BitVec.ofNat 32 (recAt r o 4)
  let vb := recAt r 28 2
  let y : Warp :=
    { x with nstat := word 12, tshape := word 16, drains := recAt r 20 4, q := BitVec.ofNat 8 (recAt r 31 1),
             p := (List.range 7).foldl (fun m k => mPut 0 m k (word (32 + 4 * k))) [], v := [],
             s := (List.range 32).foldl (fun m k => mPut 0 m k (word (64 + 4 * k))) [] }
  (List.range (recAt r 30 1)).foldl (fun y j => (List.range 32).foldl (fun y l =>
    setV y (vb + j) l (word (192 + 128 * j + 4 * l))) y) y

/-- The strand that the bytes `r` of a record resume, with what was kept beside it; it reads its header again before a
slot (R66). -/
def recordStrand (r : List Byte) (x : Warp) : Strand :=
  let pc := recAt r 0 8
  let j := recAt r 60 1
  let k : Strand := x.kept.getD { members := 0, pc := 0 }
  { members := BitVec.ofNat 32 (recAt r 8 4), age := k.age, depth := k.depth, arm := k.arm, cont := k.cont, wrV := k.wrV,
    wrP := k.wrP, reread := decide (j ≠ 0xFF),
    pc := BitVec.ofNat 64 (if j = 0xFF then pc else pc - 8 * (j + 1)), slot := if j = 0xFF then none else some j }

/-- The first place in a context's save area beyond its trap record slots and continuation records (log entry 59). -/
def recordPlace (s : State) (cid : Nat) (c : Context) : Nat :=
  (s.warps.filter fun e => decide ((mLook s.blocks e.2.block).map (·.ctx) = some cid)).foldl
    (fun n e => max n (max (roundUp (e.2.recAt.toNat + 64) 64) (if e.2.place = .record then roundUp (e.2.recordAt.toNat + 2240) 64 else 0)))
    (roundUp c.save.toNat 64)

/-- The bytes of a warp's record as they stand in memory; none where they cannot be read. -/
def recordNow (s : State) (c : Context) (x : Warp) : Option (List Byte) := readVirt s c x.recordAt.toNat 2240

/-- Tags of the copies and reads into the warp's registers that are in flight (R353). -/
def registerTags (s : State) (w : Nat) : DWord :=
  s.engs.foldl (fun m e => match e.2.tag with
    | some t => if e.2.w = w && (match e.2.kind with
        | .load _ _ _ dest => dest.any fun d => (match d with | .reg _ _ => true | _ => false)
        | .tread _ _ _ _ _ => true
        | _ => false) then m ||| ((1 : DWord) <<< t) else m
    | none => m) 0

/-- Nothing of the warp is in flight (R56). -/
def drained (s : State) (x : Warp) (w : Nat) : Bool :=
  decide (x.ld = 0) && decide (x.st = 0) && decide (x.cp = 0) && decide (x.tl = 0) &&
    s.engs.all (fun e => decide (e.2.w ≠ w)) && s.ops.all (fun e => decide (e.2.w ≠ w))

/-- The warp becomes a record at `va` that resumes after the strand's instruction: its 2,240 bytes are written, and its
registers, slot and strand-table entry are free, the entry for a strand held on a fork-record stack (R306). -/
def suspend (i : Iss) (c : Cond) (tags : DWord) (vb n va : Nat) : Act :=
  let r := recordBytes i.warp (stepSlots 1 i.st) vb n
  andThen (writeVirt i.ctx va r) <|
  andThen (updWarp i.w fun x =>
    { x with record := r, recordAt := BitVec.ofNat 64 va, kept := some (stepSlots 1 i.st), place := .record, cond := some c,
             condTags := tags, strands := [], v := [], s := [], p := [], q := 0, nstat := 0, tshape := 0, drains := 0,
             active := false }) <|
  andThen (seatHeld i.core i.warp.sub) bump

/-- The tags an `await` observes (R231). -/
def observed : Cond → DWord | .tags m _ => m | _ => 0

/-- A memory condition's word may be read, behind the accesses in flight. -/
def condReadable (s : State) (i : Iss) : Cond → Bool
  | .mem va k _ _ => (match translate s i.core i.cid i.ctx va with
    | .leaf e sz => !readHeld s i (.glob (keyUnder e sz va)) k | _ => true)
  | _ => true

/-- `await` and `fwait` past their checks (R353): a record when the warp is one strand, else a wait in place. -/
def awaitGo (s : State) (i : Iss) (c : Cond) (tags : DWord) (stay : Bool) (vb n : Nat) : Act :=
  if stay then
    unlessDue i { tags := observed c } <|
      if condHolds s i.core i.blk i.ctx c && condReadable s i c then andThen (leaveCond i.cid c) (advance i 1)
      else waitWith i (.cond c 0 true)
  else
    unlessDue i { edge := true } <|
      if !drained s i.warp i.w then waitWith i (.cond c tags false)
      else
        let va := recordPlace s i.cid i.ctx
        if !areaWritable s i.ctx va 2240 then trapLanes i .cont i.st.members va 0
        else suspend i c tags vb n va

/-- The first execution: one strand or more. -/
def awaitStart (s : State) (i : Iss) (c : Cond) (vb n : Nat) : Act :=
  let one := singleStrand i.warp
  awaitGo s i c (if one then registerTags s i.w else 0) (!one) vb n

/-- The registers a record saves lie within the allocation (R370, R372). -/
def savedOk (i : Iss) (vb n : Nat) : Bool := decide (n ≤ 16) && (decide (n = 0) || decide (vb + n ≤ i.warp.alloc))

/-- An `await` or `fwait`: one that waits already goes on with its condition; else `a` makes its checks. -/
def awaitMeans (s : State) (i : Iss) (f : CFields) (opnd : Bool) (u : Uses) (vb n : Nat) (a : Act) : Act :=
  match i.st.wait with
  | .cond c tags stay => awaitGo s i c tags stay vb n
  | _ =>
    gated s i (chkAll true (opnd && savedOk i vb n)) 
        { u with mem := true, shadow := true, act := guardScalar i f.gp f.gn } 0 <|
      if !guardScalar i f.gp f.gn then advance i 1 else noRegion i i.lanes 0 a

/-! ## `fwait` (R333) -/

def execFwait (f : CFields) (s : State) : Host.Outcome State Fault Refusal := atIssue s fun i =>
  let n := (sR i.warp f.a.toNat).toNat
  awaitMeans s i f (sOk i f.a.toNat 1) { sr := [f.a.toNat] } f.b.toNat f.c.toNat <|
    match mLook i.ctx.scopes n with
    | none => trapLanes i .illopnd i.st.members 0 0x30
    | some x => andThen (updScopes i.cid fun m => mIns m n { x with waited := true })
        (awaitStart s i (.fwait n) f.b.toNat f.c.toNat)

/-! ## `await` (R372, R373) -/

/-- N and SEL of an `await`. -/
def awaitN (f : CFields) : Nat := f.disp.toNat / 1024 % 32
def awaitSel (f : CFields) : Bool := f.disp.getLsbD 8

def execAwaitTag (f : CFields) (s : State) : Host.Outcome State Fault Refusal := atIssue s fun i =>
  awaitMeans s i f (sPair i f.a) { sr := regs f.a.toNat true } f.b.toNat (awaitN f) <|
    awaitStart s i (.tags (BitVec.ofNat 64 (sVal i.warp true f.a.toNat % 2 ^ i.lau.tags)) (awaitSel f)) f.b.toNat (awaitN f)

def execAwaitMem (f : CFields) (s : State) : Host.Outcome State Fault Refusal := atIssue s fun i =>
  let w := awaitSel f
  let va := sVal i.warp true f.a.toNat
  awaitMeans s i f (sPair i f.a && sOk i f.c.toNat (span w)) { sr := regs f.a.toNat true ++ regs f.c.toNat w }
      f.b.toNat (awaitN f) <|
    match fateOf s i .glob va (4 * span w) true false with
    | .stop _ c x => trapLanes i c i.st.members va x
    | .absent => holdAt i va 0
    | .ok _ _ => awaitStart s i (.mem va (4 * span w) (f.disp.toNat / 16 % 16) (sVal i.warp w f.c.toNat)) f.b.toNat (awaitN f)

/-- The key of a queue of the launch's partition (R358). -/
def queueKey (i : Iss) (q : Nat) : Nat := i.lau.part * 1024 + q
/-- The queue, when it was created for the context. -/
def ownQueue (s : State) (i : Iss) (q : Nat) : Option Queue :=
  (mLook s.queues (queueKey i q)).filter fun x => decide (x.ctx = i.cid)

def execAwaitQueue (f : CFields) (s : State) : Host.Outcome State Fault Refusal := atIssue s fun i =>
  let q := (sR i.warp f.a.toNat).toNat
  awaitMeans s i f (sOk i f.a.toNat 1) { sr := [f.a.toNat] } f.b.toNat (awaitN f) <|
    if 1024 ≤ q ∨ (ownQueue s i q).isNone then trapLanes i .prot i.st.members 0 0
    else awaitStart s i (.queue (queueKey i q)) f.b.toNat (awaitN f)

def execAwaitScope (f : CFields) (s : State) : Host.Outcome State Fault Refusal := atIssue s fun i =>
  let n := (sR i.warp f.a.toNat).toNat
  awaitMeans s i f (sOk i f.a.toNat 1) { sr := [f.a.toNat] } f.b.toNat (awaitN f) <|
    if (mLook i.ctx.scopes n).isNone then trapLanes i .illopnd i.st.members 0 0x30
    else awaitStart s i (.scope n) f.b.toNat (awaitN f)

/-- The reduction's condition is a tag the block registered. -/
def execAwaitRed (f : CFields) (s : State) : Host.Outcome State Fault Refusal := atIssue s fun i =>
  awaitMeans s i f (sPair i f.a) { sr := regs f.a.toNat true } f.b.toNat (awaitN f) <|
    withRecord s i (sVal i.warp true f.a.toNat) 8 64 fun r =>
      match (mLook i.ctx.groups (recAt r 0 2)).bind (fun g => g.parts.find? fun p => decide (p.1 = i.warp.block)) with
      | none => trapLanes i .illopnd i.st.members 0 0x62
      | some p => awaitStart s i (.tags ((1 : DWord) <<< (if awaitSel f then p.2.2 else p.2.1)) false) f.b.toNat (awaitN f)

/-! ## Resumption (R354) -/

/-- A record's condition holds, with the tags it added. -/
def recordReady (s : State) (x : Warp) : Bool :=
  decide (x.place = .record) && (match x.cond, mLook s.blocks x.block with
    | some c, some b => (match mLook s.ctxs b.ctx with
      | some k => condHolds s x.core b k c && tagsHold b x.condTags false
      | none => false)
    | _, _ => false)

/-- The device makes the page of a record's word resident without the warp (R373). -/
def askRecordPage (x : Warp) : Act := look fun s =>
  match x.cond, mLook s.blocks x.block with
  | some (.mem va _ _ _), some b => (match mLook s.ctxs b.ctx with
    | some k => (match translate s x.core b.ctx k va with
      | .absent => raiseFault b.ctx (va / 4096) 0 (x.core / Config.coresPerDie)
      | _ => skip)
    | none => skip)
  | _, _ => skip

/-- Where a record may resume (R354): at its claim's sub-core in its own slot, or in another that is free where a restore
has taken it; or in another sub-core with room beyond every claim. -/
def resumeSlot (s : State) (x : Warp) (core sub : Nat) : Option Nat :=
  if core = x.core ∧ sub = x.sub then
    if openRegs s core sub < x.alloc then none
    else if (openSlots s core sub).contains x.slotNo then some x.slotNo else (openSlots s core sub).head?
  else if freeRegs s core sub < x.alloc then none else (freeSlots s core sub).head?

/-- `CONT_RECORD_RESUME`: on the claim's sub-core, or on another of the block's with room beyond every claim; the oldest
ready record of a block first. A record that cannot be read ends the context with CONT (R382). -/
def execContRecordResume (w core sub : Nat) (s : State) : Host.Outcome State Fault Refusal := finish s <|
  match mLook s.warps w with
  | none => skip
  | some x => match mLook s.blocks x.block with
    | none => skip
    | some b =>
      if x.place ≠ .record then skip
      else if !recordReady s x then askRecordPage x
      else if b.place ≠ .resident || !b.cores.contains core || decide (sub ≠ servingSub s core x.num) then skip
      else if s.warps.any fun e => decide (e.2.block = x.block) && decide (e.2.age < x.age) && recordReady s e.2 then skip
      else match resumeSlot s x core sub, pick (freeEntries s core sub) (choice s 1), mLook s.launches b.launch,
          mLook s.ctxs b.ctx with
        | some n, some k, some l, some c => match recordNow s c x with
          | none => terminate b.ctx (trapBytes { cause := .cont, addr := x.recordAt }) none 0 2
          | some r => andThen (match x.cond with | some c => leaveCond b.ctx c | none => skip) <|
          andThen (updWarp w fun y =>
            { reseed l b.b (fromRecord r y) with
              place := .resident, core := core, sub := sub, slotNo := n, cond := none, condTags := 0, record := [],
              recordAt := 0, kept := none, strands := [(k, recordStrand r y)], readySince := none }) bump
        | _, _, _, _ => skip

/-! ## `rgrow` and `rshrink` (R52, R53, R378) -/

def growN (f : CFields) : Nat := f.disp.toNat % 1024
def growOk (f : CFields) : Bool := decide (growN f % 32 = 0) && decide (32 ≤ growN f) && decide (growN f ≤ 512)

/-- A resident warp waits in `rgrow`. -/
def growing (x : Warp) : Bool := decide (0 < x.growTo)

/-- Free registers go to waiting warps oldest first; a younger one is served only when every older one needs more than
are free (R52). -/
def mayGrow (s : State) (w : Nat) (x : Warp) (n : Nat) : Bool :=
  let free := freeRegs s x.core x.sub
  decide (n - x.alloc ≤ free) &&
    (residents s x.core x.sub).all fun e => decide (e.1 = w) || decide (x.age < e.2.age) || !growing e.2 ||
      decide (free < e.2.growTo - e.2.alloc)

/-- A warp whose registers from `n` up are no more, or new and 0, with what its lanes' regions track of them (R52). -/
def cutRegs (n : Nat) (x : Warp) : Warp :=
  { x with v := x.v.filter fun e => decide (e.1 < 32 * n)
           regions := x.regions.map fun e => (e.1, { e.2 with tags := e.2.tags.filter fun t => decide (t.reg < n) }) }
/-- Error marks of a warp's registers from `n` up go with them. -/
def cutMarks (w n : Nat) : Act := fun s =>
  if s.bad.isEmpty then [] else [.bad (s.bad.filter fun y => match y with
    | .reg v key => !(decide (v = w) && decide (32 * n ≤ key)) | _ => true)]

def execRgrow (f : CFields) (s : State) : Host.Outcome State Fault Refusal := atIssue s fun i =>
  let n := growN f
  gated s i (chkAll true (growOk f)) {} 0 <|
    if !guardScalar i f.gp f.gn then advance i 1
    else if !singleStrand i.warp then stall i 1
    else if n ≤ i.warp.alloc then andThen (updWarp i.w fun x => { x with growTo := 0 }) (advance i 1)
    else if mayGrow s i.w i.warp n then
      andThen (updWarp i.w fun x => { cutRegs x.alloc x with alloc := n, growTo := 0 }) <|
      andThen (cutMarks i.w i.warp.alloc) (advance i 1)
    else andThen (updWarp i.w fun x => { x with growTo := n }) (stall i 1)

def execRshrink (f : CFields) (s : State) : Host.Outcome State Fault Refusal := atIssue s fun i =>
  let n := growN f
  gated s i (chkAll true (growOk f)) {} 0 <|
    if !guardScalar i f.gp f.gn then advance i 1
    else if !singleStrand i.warp then stall i 1
    else if i.warp.alloc ≤ n then advance i 1
    else if (spanRegs n (i.warp.alloc - n)).any (fun r => decide (pendingV s i.w r ≠ 0)) then
      stallOn i 1 ((spanRegs n (i.warp.alloc - n)).filter fun r => decide (pendingV s i.w r ≠ 0))
    else
      andThen (updWarp i.w fun x => { cutRegs n x with alloc := n }) (andThen (cutMarks i.w n) (advance i 1))

/-- The youngest of some warps. -/
def youngest (l : List (Nat × Warp)) : Option (Nat × Warp) :=
  l.foldl (fun b e => match b with
    | none => some e
    | some y => if y.2.age < e.2.age then some e else b) none

/-- The sub-cores `subs` of a core wake for a save or a dispatch: the check sweep takes 256 cycles (R51). -/
def wakeSubs (core : Nat) (subs : List Nat) : Act := look fun s =>
  let x := coreOf s core
  if x.asleep.all fun k => !subs.contains k then skip
  else updCore core fun x =>
    { x with asleep := x.asleep.filter fun k => !subs.contains k
             lastIssue := subs.foldl (fun m k => mIns m k (cycleOf s core + 256)) x.lastIssue
             extra := x.extra + 256 }

/-- `RGROW_DEADLOCK_SAVE` (R53): every resident warp of the sub-core waits in `rgrow`; the youngest is saved whole, once
what it has in flight has drained (R56). A save that cannot be written is CONT at its `rgrow` (R397). -/
def execRgrowDeadlockSave (core sub : Nat) (s : State) : Host.Outcome State Fault Refusal := finish s <|
  let ws := residents s core sub
  if ws.isEmpty || !ws.all (fun e => growing e.2 && !mayGrow s e.1 e.2 e.2.growTo) then skip
  else match youngest ws with
    | none => skip
    | some (w, x) =>
      if !drained s x w then skip
      else match x.strands.head?.bind fun e => strandAt s w e.1 with
        | none => skip
        | some i =>
          if !areaWritable s i.ctx i.ctx.save.toNat 4 then
            andThen (updWarp w fun y => { y with growTo := 0 }) (trapLanes i .cont i.st.members i.ctx.save.toNat 0)
          else
            andThen (wakeSubs core [sub]) <|
            andThen (updWarp w fun y => { y with place := .regSaved, active := false }) (andThen (seatHeld core sub) bump)

/-- An older warp of the sub-core waits in `rgrow` for registers that are free (R52). -/
def olderServed (s : State) (x : Warp) : Bool :=
  (residents s x.core x.sub).any fun e => decide (e.2.age < x.age) && growing e.2 &&
    decide (e.2.growTo - e.2.alloc ≤ openRegs s x.core x.sub)

/-- `SAVED_WARP_RESTORE` (R53): its block is resident, and the sub-core has room for its allocation and its pending
growth, which no older waiting warp is to have first. -/
def execSavedWarpRestore (w : Nat) (s : State) : Host.Outcome State Fault Refusal := finish s <|
  match mLook s.warps w with
  | none => skip
  | some x =>
    if x.place ≠ .regSaved || !blockHere s x.block || decide (openRegs s x.core x.sub < max x.alloc x.growTo) ||
        olderServed s x then skip
    else match (freeSlots s x.core x.sub ++ openSlots s x.core x.sub).head?, reseat x (freeEntries s x.core x.sub) with
      | some n, some y => andThen (eff (.warp w { y with place := .resident, slotNo := n, readySince := none })) bump
      | _, _ => skip

end Sys2Proof.Machine
end

