-- ==== Sys2Proof/Machine/Lane.lean ====
section
/-! DEFINITION. The lane instructions 0x80 to 0x85 (09_ref_float_lane R163 to R170) under the rules of absent lanes
(07_lane_routing R131): every position of the 32 takes part, and the contributors alone receive a result. -/

namespace Sys2Proof.Machine

/-- The absent-lane bitmap of R131. -/
def absentLanes (g : Mask) : Word := ~~~g

/-- Writes one value a lane. -/
def putLanes (x : Warp) (wide : Bool) (d : Nat) (outs : List (Nat × Nat)) : Warp :=
  outs.foldl (fun y o => setVal y wide d o.1 o.2) x

/-- A lane instruction's vector writes in the lanes `g`: their values, an optional second destination, and what goes
with them. -/
def laneWrite (i : Iss) (u : Uses) (g : Mask) (put : Warp → Warp) (n : Nat) : Act :=
  andThen (updWarp i.w put) <|
  andThen (updRegions i.w g fun _ r => u.vw.foldl (fun y q => untag y q 4) r) <|
  andThen (wrote i u g) (advance i n)

/-- `vote` (R164). -/
def voteOut (md : Nat) (p g : Mask) : Nat :=
  match md with
  | 0 => (p &&& g).toNat
  | 1 => if p &&& g ≠ 0 then 1 else 0
  | 2 => if p &&& g = g then 1 else 0
  | _ => if p &&& g = 0 ∨ p &&& g = g then 1 else 0

/-- The lanes of the warp whose predicate `n` is true. -/
def predMask (x : Warp) (n : Nat) : Mask := maskOf (pR x n)

def voteUses (f : VFields) : Uses :=
  { pr := guardReads f.gp ++ [f.b.toNat], vw := [f.d.toNat, f.c.toNat], shadow := true, act := false,
    po := onlyOperands f.gp [f.b.toNat] }

def execVote (f : VFields) (s : State) : Host.Outcome State Fault Refusal := atIssue s fun i =>
  let g := guardMask i f.gp f.gn
  let u := voteUses f
  let r := voteOut f.mod.toNat (predMask i.warp f.b.toNat) g
  gated s i (chkAll true (vOk i f.d.toNat 1 && vOk i f.c.toNat 1 && pOk f.b.toNat && f.c != f.d)) u g <|
    laneWrite i u g (fun x => putLanes (putLanes x false f.d.toNat ((lanesIn g).map fun l => (l, r)))
      false f.c.toNat ((lanesIn g).map fun l => (l, (absentLanes g).toNat))) 1

def electUses (f : VFields) : Uses := { pr := guardReads f.gp, pw := [f.d.toNat], shadow := true }

/-- `elect` (R165): true in the lowest contributor. -/
def execElect (f : VFields) (s : State) : Host.Outcome State Fault Refusal := atIssue s fun i =>
  let g := guardMask i f.gp f.gn
  let u := electUses f
  gated s i (chkAll true (pOk f.d.toNat)) u g <|
    laneWrite i u g (fun x => (lanesIn g).foldl (fun y l => setP y f.d.toNat l (decide (l = lowLane g))) x) 1

/-- The lane `vget` and `vput` name (R166). -/
def namedLane (i : Iss) (f : VFields) : Nat :=
  if f.mod = 1 then (sR i.warp f.c.toNat).toNat % 32 else f.c.toNat % 32
/-- The s-register that may name it. -/
def namedLaneReads (f : VFields) : List Nat := if f.mod = 1 then [f.c.toNat] else []
def namedLaneOk (i : Iss) (f : VFields) : Bool := f.mod != 1 || sOk i f.c.toNat 1

def vgetUses (i : Iss) (f : VFields) : Uses :=
  let w := tyWide f.ty
  let g := guardMask i f.gp f.gn
  let j := namedLane i f
  let rd := if hasLane g j then routeLanes i f.rb f.own (laneBit j) else 0
  { vr := regs f.b.toNat w ++ routeReads i f.rb, pr := guardReads f.gp, sr := namedLaneReads f,
    sw := regs f.d.toNat w, shadow := true,
    vm := (regs f.b.toNat w).map (fun r => (r, rd)) ++ (routeReads i f.rb).map (fun r => (r, laneBit j &&& g)) }

/-- `vget` (R166): sD is always written. DESIGN CHOICE (log entry 84): so it is, with 0, under the guard "never" of R43,
which says of every instruction that it then has no effect. -/
def execVget (f : VFields) (s : State) : Host.Outcome State Fault Refusal := atIssue s fun i =>
  let w := tyWide f.ty
  let g := guardMask i f.gp f.gn
  let j := namedLane i f
  let u := vgetUses i f
  gated s i (chkAll (routeOk i f.rb)
      (sOk i f.d.toNat (span w) && vOk i f.b.toNat (span w) && namedLaneOk i f)) u 0 <|
    if symbolicStop i g u.vm ≠ 0 then trapRegion i (symbolicStop i g u.vm) 0
    else andThen (putScalar i w f.d.toNat (if hasLane g j then routed i f.rb f.own w f.b.toNat j else 0)) (advance i 1)

def vputUses (f : VFields) : Uses :=
  let w := tyWide f.ty
  { pr := guardReads f.gp, vw := regs f.d.toNat w, shadow := true, act := false,
    sr := namedLaneReads f ++
      (match f.kind with | .scal => if f.b.toNat < 384 then regs f.b.toNat w else [] | _ => []) }

/-- `vput` (R166): one lane receives the scalar value, if it contributes. -/
def execVput (f : VFields) (s : State) : Host.Outcome State Fault Refusal := atIssue s fun i =>
  let w := tyWide f.ty
  let j := namedLane i f
  let g := guardMask i f.gp f.gn &&& laneBit j
  let u := vputUses f
  gated s i (chkAll true (vOk i f.d.toNat (span w) && bOk i f w && namedLaneOk i f)) u g <|
    laneWrite i u g (fun x => putLanes x w f.d.toNat ((lanesIn g).map fun l => (l, srcB s i f w l)))
      (kindSlots f.kind)

/-- Neighbours combined, as one level of the tree of R168 does. -/
def pairUp (c : Nat → Nat → Res) : List Nat → List Nat × Byte
  | a :: b :: xs => let r := c a b; let t := pairUp c xs; (r.val :: t.1, r.pen ||| t.2)
  | xs => (xs, 0)
/-- The tree of R168 over `2^k` values. -/
def treeUp (c : Nat → Nat → Res) : Nat → List Nat → Byte → Res
  | 0, xs, p => ⟨xs.headD 0, p⟩
  | k + 1, xs, p => let t := pairUp c xs; treeUp c k t.1 (p ||| t.2)

/-- combine() of R168; an f32 addition rounds by `%nstat` and sees its sources after DAZ. -/
def redwCombine (md : Nat) (t : Ty) (ns : Word) (a b : Nat) : Res :=
  let n := tyBits t
  let lt : Bool := decide (toInt (tySigned t) n b < toInt (tySigned t) n a)
  match md with
  | 0 =>
    if t.isFloat then
      let v := { fEnv 0 ns with daz := false }
      fDot fF32 v 0 [] [fDecode fF32 false a, fDecode fF32 false b]
    else ⟨(a + b) % 2 ^ n, 0⟩
  | 1 => if t.isFloat then fMinMax fF32 false false a b else ⟨if lt then b else a, 0⟩
  | 2 => if t.isFloat then fMinMax fF32 true false a b else ⟨if lt then a else b, 0⟩
  | 3 => ⟨a &&& b, 0⟩
  | 4 => ⟨a ||| b, 0⟩
  | _ => ⟨a ^^^ b, 0⟩

/-- A source value of `redw`: under DAZ an f32 subnormal is a zero of its sign (R143, R168). -/
def redwLeaf (t : Ty) (ns : Word) (x : Nat) : Nat :=
  if t.isFloat && nsDaz ns && decide (x / 2 ^ 23 % 256 = 0) then x / 2 ^ 31 * 2 ^ 31 else x

/-- What `redw` gives the contributor `l`. -/
def redwOut (i : Iss) (f : VFields) (g : Mask) (l : Nat) : Res :=
  let w := tyWide f.ty
  let ns := i.warp.nstat
  let fill := if f.own then vVal i.warp w f.b.toNat l else 0
  treeUp (redwCombine f.mod.toNat f.ty ns) 5 ((List.range 32).map fun j =>
    redwLeaf f.ty ns (if hasLane g j then routed i f.rb f.own w f.b.toNat j else fill)) 0

def redwUses (i : Iss) (f : VFields) : Uses :=
  let w := tyWide f.ty
  let g := guardMask i f.gp f.gn
  { vr := regs f.b.toNat w ++ routeReads i f.rb, pr := guardReads f.gp,
    vw := regs f.d.toNat w ++ [f.c.toNat], shadow := true,
    vm := (regs f.b.toNat w).map (fun r => (r, routeLanes i f.rb f.own g |||
        (if f.own && decide (g ≠ ~~~(0 : Mask)) then g else 0))) ++
      (routeReads i f.rb).map (fun r => (r, g)) }
/-- The results of the contributors. -/
def redwOuts (i : Iss) (f : VFields) (g : Mask) : List (Nat × Res × Word) :=
  (lanesIn g).map fun l => (l, redwOut i f g l, mGet 0 i.warp.lanesRand l)

/-- `redw` (R167, R168). -/
def execRedw (f : VFields) (s : State) : Host.Outcome State Fault Refusal := atIssue s fun i =>
  let w := tyWide f.ty
  let g := guardMask i f.gp f.gn
  let u := redwUses i f
  let outs := redwOuts i f g
  gated s i (chkAll (routeOk i f.rb) (vOk i f.d.toNat (span w) && vOk i f.b.toNat (span w) && vOk i f.c.toNat 1 &&
      !(regs f.d.toNat w).contains f.c.toNat)) u g <|
    if symbolicStop i g u.vm ≠ 0 then trapRegion i (symbolicStop i g u.vm) 0
    else unlessIv i (ivLanes outs) <|
      andThen (raisePennants i.w (allPen outs)) <|
      laneWrite i u g (fun x => putLanes (putResults x w f.d.toNat outs)
        false f.c.toNat ((lanesIn g).map fun l => (l, (absentLanes g).toNat))) 1

/-- `lanes` (R169). -/
def lanesOut (i : Iss) (f : VFields) (g : Mask) (l : Nat) : Nat :=
  let p := predMask i.warp f.b.toNat &&& g
  match f.mod.toNat with
  | 0 => laneCount (p &&& maskOf (fun j => decide (j < l)))
  | 1 => laneCount p
  | 2 => if p = 0 then 32 else lowLane p
  | _ =>
    let w := tyWide f.ty
    let val (j : Nat) : Nat := routed i f.rb false w f.b.toNat j
    (maskOf fun j => hasLane g j && decide (val j = val l)).toNat

def lanesUses (i : Iss) (f : VFields) : Uses :=
  let w := tyWide f.ty
  let g := guardMask i f.gp f.gn
  let mt := decide (f.mod = 3)
  { vr := if mt then regs f.b.toNat w ++ routeReads i f.rb else [],
    pr := guardReads f.gp ++ (if mt then [] else [f.b.toNat]), vw := [f.d.toNat], shadow := true, act := false,
    po := if mt then [] else onlyOperands f.gp [f.b.toNat],
    vm := if mt then (regs f.b.toNat w).map (fun r => (r, routeLanes i f.rb false g)) ++
      (routeReads i f.rb).map (fun r => (r, g)) else [] }

def execLanes (f : VFields) (s : State) : Host.Outcome State Fault Refusal := atIssue s fun i =>
  let w := tyWide f.ty
  let g := guardMask i f.gp f.gn
  let mt := decide (f.mod = 3)
  let u := lanesUses i f
  gated s i (chkAll (!mt || routeOk i f.rb) (vOk i f.d.toNat 1 &&
      (if mt then vOk i f.b.toNat (span w) else pOk f.b.toNat))) u g <|
    if symbolicStop i g u.vm ≠ 0 then trapRegion i (symbolicStop i g u.vm) 0
    else laneWrite i u g (fun x => putLanes x false f.d.toNat ((lanesIn g).map fun l => (l, lanesOut i f g l))) 1

end Sys2Proof.Machine
end

