-- ==== Sys2Proof/Machine/Queues.lean ====
section
/-! DEFINITION. Hardware queues and refill: `qput`, `qget`, `qstat`, `refill`, and the service of requests that wait
(22_scheduling R358 to R361, 23_ref_sync_launch R374 to R377, 02_execution_model R35, R36, 21 R334). -/

namespace Sys2Proof.Machine

/-! ## Room and service (R358 to R360) -/

/-- Entries of a queue that its ring holds: those beyond the 64 on chip. -/
def ringUse (n : Nat) : Nat := n - 64
/-- Entries the rings of a context's queues hold together. -/
def ctxRingUse (s : State) (cid : Nat) : Nat :=
  ((s.queues.filter fun e => decide (e.2.ctx = cid)).map fun e => ringUse e.2.entries.length).sum
/-- Room for `n` more entries, on chip or in the ring within the quota (R342, R360). -/
def queueRoom (s : State) (c : Context) (x : Queue) (n : Nat) : Bool :=
  let l := x.entries.length + n
  decide (ringUse l ≤ x.size) && (decide (l ≤ 64) ||
    decide (ctxRingUse s x.ctx + (ringUse l - ringUse x.entries.length) ≤ c.queueQuota))

/-- Where a queue's ring keeps the entry of a pop index (log entry 60). -/
def ringSlot (x : Queue) (n : Nat) : Nat := x.ring.toNat + 16 * (n % x.size)

/-- An entry as its ring slot gives it back (R358). -/
def fromRing (s : State) (x : Queue) (e : Nat × List Word) : Nat × List Word :=
  match (mLook s.ctxs x.ctx).bind fun c => readVirt s c (ringSlot x e.1) 16 with
  | some bs => (e.1, (List.range 4).map fun j => BitVec.ofNat 32 (recAt bs (4 * j) 4))
  | none => e

/-- A queue without its first `m` entries: those that come on chip are read back from the ring. -/
def dropEntries (s : State) (m : Nat) (x : Queue) : Queue :=
  { x with entries := (x.entries.drop m).zipIdx.map fun e => if e.2 < 64 ∧ 64 ≤ e.2 + m then fromRing s x e.1 else e.1 }

/-- The spill engine writes the entries that find no place on chip to the ring (R358). -/
def spillEntries (q : Nat) (es : List (Nat × List Word)) : Act := look fun s =>
  match mLook s.queues q with
  | none => skip
  | some x => match mLook s.ctxs x.ctx with
    | none => skip
    | some c => forAll (fun (e : Nat × List Word) => writeVirt c (ringSlot x e.1) (e.2.flatMap fun w => bytesOfNat 4 w.toNat))
        (es.drop (64 - x.entries.length))

/-- A pop that waits: strand, arrival, entries needed, whether one is enough, and those reserved. -/
structure Getter where
  w : Nat
  k : Nat
  arrival : Nat
  need : Nat
  once : Bool
  got : List (Nat × List Word)
  deriving DecidableEq, Repr

/-- The pop has what it needs. -/
def Getter.done (g : Getter) : Bool := if g.once then !g.got.isEmpty else decide (g.need ≤ g.got.length)

/-- Every strand with its warp and entry. -/
def allStrands (s : State) : List (Nat × Nat × Strand) := s.warps.flatMap fun e => e.2.strands.map fun t => (e.1, t.1, t.2)

/-- The pops that wait at a queue. -/
def getters (s : State) (q : Nat) : List Getter :=
  (allStrands s).filterMap fun x => match x.2.2.wait with
    | .getting p a n o g => if p = q ∧ !(Getter.done ⟨x.1, x.2.1, a, n, o, g⟩) then some ⟨x.1, x.2.1, a, n, o, g⟩ else none
    | _ => none
/-- The earliest of them. -/
def firstGetter (l : List Getter) : Option Getter :=
  l.foldl (fun b g => match b with | none => some g | some y => if g.arrival < y.arrival then some g else b) none
/-- The pushes that wait at a queue, by arrival and strand. -/
def putters (s : State) (q : Nat) : List (Nat × Nat × Nat) :=
  (allStrands s).filterMap fun x => match x.2.2.wait with
    | .putting p a => if p = q then some (a, x.1, x.2.1) else none
    | _ => none
/-- A push that arrived at `a` stands before every other one that waits. -/
def firstPutter (s : State) (q a : Nat) : Bool := (putters s q).all fun x => decide (a ≤ x.1)

/-- Entries go to the pops that wait, in order of arrival. -/
def feedQueue (q : Nat) : Nat → Act
  | 0 => skip
  | n + 1 => look fun s =>
    match firstGetter (getters s q), mLook s.queues q with
    | some g, some x =>
      if x.entries.isEmpty then skip
      else
        let m := g.need - g.got.length
        andThen (eff (.queue q (dropEntries s m x))) <|
        andThen (updStrand g.w g.k fun t =>
          { t with wait := .getting q g.arrival g.need g.once (g.got ++ x.entries.take m), idleAt := 0 }) (feedQueue q n)
    | _, _ => skip

/-- Entries with their pop indices, from the queue's next. -/
def numbered (x : Queue) (es : List (List Word)) : List (Nat × List Word) :=
  List.zip ((List.range es.length).map (x.next + ·)) es

/-- Pushes entries, each with its pop index, and serves the pops that wait. -/
def pushEntries (q : Nat) (es : List (List Word)) : Act :=
  andThen (look fun s => match mLook s.queues q with | some x => spillEntries q (numbered x es) | none => skip) <|
  andThen (updQueue q fun x =>
    let n := x.entries.length + es.length
    { x with entries := x.entries ++ numbered x es
             next := x.next + es.length
             spills := x.spills + (ringUse n - ringUse x.entries.length)
             high := max x.high n }) <|
  look fun s => feedQueue q ((getters s q).length + 1)

/-! ## `qput` and `qget` (R374, R375) -/

def queueNo (i : Iss) (f : MFields) : Nat := if f.ak then (sR i.warp f.a.toNat).toNat % 1024 else f.ofs.toNat
def queueNb (f : MFields) : Bool := f.e.getLsbD 3
def queuePred (f : MFields) : Nat := f.e.toNat % 8
def queueOpnd (i : Iss) (f : MFields) : Bool :=
  vOk i f.d.toNat 4 && (!f.ak || sOk i f.a.toNat 1) && decide (f.ak ∨ f.ofs.toNat < 1024)
def queueUses (f : MFields) : Uses :=
  { sr := if f.ak then [f.a.toNat] else [], pr := guardReads f.gp, pw := if queueNb f then [queuePred f] else [],
    mem := true, shadow := true, act := false }

/-- The lanes of `g` have their predicate written, true in `m`. -/
def writePreds (i : Iss) (f : MFields) (g m : Mask) : Act :=
  if queueNb f then updWarp i.w fun x => (lanesIn g).foldl (fun y l => setP y (queuePred f) l (hasLane m l)) x else skip

/-- The entry of a lane. -/
def laneEntry (i : Iss) (d l : Nat) : List Word := (List.range 4).map fun j => vR i.warp (d + j) l

def qputMeans (f : MFields) (s : State) (i : Iss) : Act :=
  let g := guardMask i f.gp f.gn
  let u := { queueUses f with vr := spanRegs f.d.toNat 4 }
  let push (q : Nat) : Act :=
    andThen (pushEntries q ((lanesIn g).map (laneEntry i f.d.toNat))) <|
    andThen (writePreds i f g g) <|
    andThen (if queueNb f then wrote i u g else skip) (advance i 1)
  match i.st.wait with
  | .putting q a =>
    (match mLook s.queues q with
      | some x => if firstPutter s q a && queueRoom s i.ctx x (laneCount g) then push q else waitWith i (.putting q a)
      | none => trapLanes i .prot g 0 0)
  | _ =>
    gated s i (chkAll true (queueOpnd i f)) u g <|
      if g = 0 then advance i 1
      else noRegion i g 0 <|
        match ownQueue s i (queueNo i f) with
        | none => trapLanes i .prot g 0 0
        | some x =>
          let q := queueKey i (queueNo i f)
          if !quiet s i.w g then stall i 4
          else if (putters s q).isEmpty && queueRoom s i.ctx x (laneCount g) then push q
          else if queueNb f then andThen (writePreds i f g 0) (andThen (wrote i u g) (advance i 1))
          else andThen (eff (.ids (s.nextId + 1))) (andThen (waitWith i (.putting q s.nextId)) bump)

def execQput (f : MFields) (s : State) : Host.Outcome State Fault Refusal := atIssue s (qputMeans f s)

/-- Lanes take entries, lowest lane first. -/
def takeEntries (d : Nat) (ls : List Nat) (es : List (Nat × List Word)) (x : Warp) : Warp :=
  (List.zip ls es).foldl (fun y p => (List.range 4).foldl (fun z j => setV z (d + j) p.1 (p.2.2.getD j 0)) y) x

/-- A pop's entries are delivered to the lanes of `g`, as far as they go. -/
def deliverEntries (i : Iss) (f : MFields) (u : Uses) (g : Mask) (es : List (Nat × List Word)) : Act :=
  let m := ((lanesIn g).take es.length).foldl (fun m l => m ||| laneBit l) (0 : Mask)
  andThen (updWarp i.w (takeEntries f.d.toNat (lanesIn g) es)) <|
  andThen (writePreds i f g m) <|
  andThen (if queueNb f then andThen (wrote i { u with vw := [] } g) (wrote i { u with pw := [] } m) else wrote i u m)
    (advance i 1)

def qgetMeans (f : MFields) (s : State) (i : Iss) : Act :=
  let g := guardMask i f.gp f.gn
  let n := laneCount g
  let u := { queueUses f with vw := spanRegs f.d.toNat 4 }
  match i.st.wait with
  | .getting q a need once got =>
    if Getter.done ⟨i.w, i.k, a, need, once, got⟩ then deliverEntries i f u g got
    else waitWith i (.getting q a need once got)
  | _ =>
    gated s i (chkAll true (queueOpnd i f)) u g <|
      if g = 0 then advance i 1
      else noRegion i g 0 <|
        match ownQueue s i (queueNo i f) with
        | none => trapLanes i .prot g 0 0
        | some x =>
          let q := queueKey i (queueNo i f)
          let ready := if (getters s q).isEmpty then x.entries else []
          let take := andThen (eff (.queue q (dropEntries s (min n ready.length) x))) bump
          if queueNb f || decide (n ≤ ready.length) then andThen take (deliverEntries i f u g (ready.take n))
          else
            andThen take <|
            andThen (eff (.ids (s.nextId + 1))) <|
            andThen (waitWith i (.getting q s.nextId n false ready)) bump

def execQget (f : MFields) (s : State) : Host.Outcome State Fault Refusal := atIssue s (qgetMeans f s)

/-! ## `qstat` (R334, R376) -/

/-- Four words to each guarded lane. -/
def queueWords (i : Iss) (f : MFields) (u : Uses) (g : Mask) (ws : List Nat) : Act :=
  andThen (updWarp i.w fun x => (lanesIn g).foldl (fun y l =>
    (List.range 4).foldl (fun z j => setV z (f.d.toNat + j) l (BitVec.ofNat 32 (ws.getD j 0))) y) x) <|
  andThen (updRegions i.w g fun _ r => untag r f.d.toNat 16) <|
  andThen (wrote i u g) (advance i 1)

def qstatUses (f : MFields) : Uses := { vw := spanRegs f.d.toNat 4, pr := guardReads f.gp, mem := true, shadow := true }

def execQstat (f : MFields) (s : State) : Host.Outcome State Fault Refusal := atIssue s fun i =>
  let g := guardMask i f.gp f.gn
  gated s i (chkAll true (vOk i f.d.toNat 4 && decide (f.ofs.toNat < 1024))) (qstatUses f) g <|
    if g = 0 then advance i 1
    else match ownQueue s i f.ofs.toNat with
      | none => trapLanes i .prot g 0 0
      | some x => queueWords i f (qstatUses f) g [x.entries.length, x.spills, x.high, 0]

def execQstatLaunch (f : MFields) (s : State) : Host.Outcome State Fault Refusal := atIssue s fun i =>
  let g := guardMask i f.gp f.gn
  let occ := (s.launches.filter fun e => decide (e.2.ctx = i.cid) && occupies e.2).length
  gated s i (chkAll true (vOk i f.d.toNat 4)) (qstatUses f) g <|
    queueWords i f (qstatUses f) g [occ, i.ctx.spills, i.ctx.high, 0]

/-! ## `refill` (R35, R36, R361, R377) -/

/-- The scalar predicate of `refill`. -/
def refillDone (i : Iss) (f : CFields) (b : Bool) : Act :=
  andThen (updWarp i.w fun x => setQ x f.c.toNat b) (advance i 1)

/-- Lanes that join a strand join the arms it carries, and stay in them as its other lanes do (R35, R20). -/
def joinArms : Nat → Option (Nat × Bool) → Mask → Warp → Warp
  | 0, _, _, x => x
  | _ + 1, none, _, x => x
  | n + 1, some (fid, side), m, x => match mLook x.forks fid with
    | none => x
    | some k =>
      let a := armAt k side
      let k := { setArm k side { a with lanes := a.lanes ||| m, left := a.left ||| m } with alive := k.alive ||| m }
      joinArms n k.outer m { x with forks := mIns x.forks fid k }

/-- Vacant lanes take entries: each becomes live, joins the strand, and takes its name and its stochastic state. -/
def refillLanes (i : Iss) (f : CFields) (q : Nat) (es : List (Nat × List Word)) : Act :=
  let ls := (lanesIn (~~~i.warp.live)).take es.length
  let m := ls.foldl (fun m l => m ||| laneBit l) (0 : Mask)
  let seed := nsSeed i.warp.nstat
  andThen (updWarp i.w fun x =>
    let y := takeEntries f.b.toNat ls es x
    { y with
      live := y.live ||| m
      names := (List.zip ls es).foldl (fun t p => mIns t p.1 (.refilled i.blk.launch q p.2.1)) y.names
      lanesRand := (List.zip ls es).foldl (fun t p => mIns t p.1 (srSeed (BitVec.ofNat 64 p.2.1) seed 0x6A09E667)) y.lanesRand
      barr := y.barr.filter fun e => !hasLane m (e.1 % 32) }) <|
  andThen (updWarp i.w (joinArms i.warp.forks.length i.st.arm m)) <|
  andThen (updStrand i.w i.k fun t => { t with members := t.members ||| m }) <|
  andThen (noteWrites i { vw := spanRegs f.b.toNat 4 } m) <|
  andThen (clearBad i.w (spanRegs f.b.toNat 4) m) (refillDone i f true)

def refillMeans (f : CFields) (s : State) (i : Iss) : Act :=
  let q := f.disp.toNat % 1024
  let nb := f.disp.getLsbD 10
  match i.st.wait with
  | .getting p a need once got =>
    if Getter.done ⟨i.w, i.k, a, need, once, got⟩ then refillLanes i f q got else waitWith i (.getting p a need once got)
  | _ =>
    gated s i (chkAll true (vOk i f.b.toNat 4 && pOk f.c.toNat)) { mem := true, shadow := true } 0 <|
      if !guardScalar i f.gp f.gn then advance i 1
      else noRegion i i.lanes 0 <|
        if q ≠ i.lau.refillQ then trapLanes i .illopnd i.st.members 0 0x38
        else match ownQueue s i q with
          | none => trapLanes i .prot i.st.members 0 0
          | some x =>
            let p := queueKey i q
            let n := laneCount (~~~i.warp.live)
            if !singleStrand i.warp then stall i 7
            else if (spanRegs f.b.toNat 4).any fun r => decide (pendingV s i.w r ≠ 0) then
              stallOn i 1 (spanRegs f.b.toNat 4)
            else if n = 0 then refillDone i f false
            else if !x.entries.isEmpty && (getters s p).isEmpty then
              andThen (eff (.queue p (dropEntries s n x))) (refillLanes i f q (x.entries.take n))
            else if nb then refillDone i f false
            else andThen (eff (.ids (s.nextId + 1))) (andThen (waitWith i (.getting p s.nextId n true [])) bump)

def execRefill (f : CFields) (s : State) : Host.Outcome State Fault Refusal := atIssue s (refillMeans f s)

/-- `QUEUE_BLOCKED_SERVE` (R360): a request that waits is served, where room or its entries have come. -/
def execQueueBlockedServe (w st : Nat) (s : State) : Host.Outcome State Fault Refusal := finish s <|
  match strandAt s w st with
  | none => skip
  | some i => match i.st.wait, instrAt s i with
    | .putting _ _, some (.qput f) => qputMeans f s i
    | .getting _ _ _ _ _, some (.qget f) => qgetMeans f s i
    | .getting _ _ _ _ _, some (.refill f) => refillMeans f s i
    | _, _ => skip

end Sys2Proof.Machine
end

