-- ==== Sys2Proof/Machine/System.lean ====
section
/-! DEFINITION. The system instructions 0xE8 to 0xEE (26_ref_system R404 to R411), the delivery of deferred traps
(25_traps_faults R383) and the re-execution of parked lanes (02_execution_model R34). -/

namespace Sys2Proof.Machine

/-! ## `trap` and `rft` -/

def execTrap (f : CFields) (s : State) : Host.Outcome State Fault Refusal := atIssue s fun i =>
  gated s i none { shadow := true } 0 <|
    if guardScalar i f.gp f.gn then takeTrap i { trapHere i .swtrap with extra := f.disp.zeroExtend 64 } else fallThrough i

/-- Opcodes of control transfers (R61). -/
def isTransferOp (op : Nat) : Bool := [0x90, 0x91, 0x92, 0x93, 0x94, 0x98, 0x99, 0x9B, 0xE8, 0xE9].contains op
/-- Opcodes of the V and S formats, whose KIND may take a literal (R63, R79). -/
def isVOp (op : Nat) : Bool := (decide (op < 0x86)) || (decide (0x95 ≤ op) && decide (op ≤ 0x97))

/-- Slots from the instruction whose word is `w` to the one after it; 0 for a control transfer (R387). -/
def slotsAfter (pair : Bool) (w : DWord) : Nat :=
  let op := (bitsAt w 56 8).toNat
  if pair then 1 else if isTransferOp op then 0 else if isVOp op && decide (bitsAt w 3 2 = 3) then 2 else 1

/-- Where `rft.next` finds the next instruction: the slots after DPC, once its header and word are read again. -/
def rftSlots (s : State) (i : Iss) (t : Trap) (a : Nat → Act) : Act :=
  match t.slot with
  | none => a 1
  | some j =>
    match fetch s i t.hdrAt.toNat, fetch s i t.dpc.toNat with
    | .word h _, .word w _ => a (slotsAfter ((hdrPairs h).testBit j) w)
    | .word _ _, y => fetchFails i t.dpc.toNat y
    | x, _ => fetchFails i t.hdrAt.toNat x

/-- `rft` and `rft.next` (R387, R406): `f` says where the faulting strand resumes. -/
def rftMeans (s : State) (i : Iss) (f : CFields) (resume : Trap → ((Strand → Strand) → Act) → Act) : Act :=
  gated s i none { mem := true, shadow := true } 0 <|
    if !guardScalar i f.gp f.gn then fallThrough i
    else match i.warp.handler with
      | none => trapLanes i .clause i.st.members 0 0
      | some h =>
        if !i.st.handler || i.st.arm.isSome || decide (i.st.members ≠ h.strand.members) then
          doubleTrap i (trapHere i .double)
        else resume h.trap fun f => andThen (returnFromTrap i h f) (seatHeld i.core i.warp.sub)

def execRft (f : CFields) (s : State) : Host.Outcome State Fault Refusal := atIssue s fun i =>
  rftMeans s i f fun t a => a (atDpc t)

def execRftNext (f : CFields) (s : State) : Host.Outcome State Fault Refusal := atIssue s fun i =>
  rftMeans s i f fun t a => rftSlots s i t fun n => a (afterDpc t n)

/-! ## `srd`, `swr` and `nclr` -/

def execSrd (f : CFields) (s : State) : Host.Outcome State Fault Refusal := atIssue s fun i =>
  let n := f.a.toNat
  let w := f.disp.getLsbD 0
  let known := decide (448 ≤ n) && decide (n ≤ 463)
  gated s i (chkAll (!w || !known || specialIs64 n) (known && decide (450 ≤ n) && sOk i f.b.toNat (span w)))
      { sw := regs f.b.toNat w, shadow := true, act := guardScalar i f.gp f.gn } 0 <|
    if !guardScalar i f.gp f.gn then advance i 1
    else andThen (putScalar i w f.b.toNat (special s i n 0)) (advance i 1)

def execSwr (f : CFields) (s : State) : Host.Outcome State Fault Refusal := atIssue s fun i =>
  let v := sR i.warp f.b.toNat &&& 0xFFFF3FFF
  gated s i (chkAll true (decide (f.a.toNat = 456) && sOk i f.b.toNat 1)) 
      { sr := [f.b.toNat], shadow := true, act := guardScalar i f.gp f.gn } 0 <|
    if !guardScalar i f.gp f.gn then advance i 1
    else
      andThen (updBlock i.warp.block fun b => { b with bstat := b.bstat ||| v.truncate 8 }) <|
      andThen (updWarp i.w fun x => reseed i.lau i.blk.b { x with nstat := v }) (advance i 1)

def execNclr (f : CFields) (s : State) : Host.Outcome State Fault Refusal := atIssue s fun i =>
  let reg := f.disp.getLsbD 8
  let m : Word := (if reg then sR i.warp f.a.toNat else f.disp.zeroExtend 32) &&& 0xFF
  gated s i (chkAll true (!reg || sOk i f.a.toNat 1))
      { sr := if reg then [f.a.toNat] else [], act := guardScalar i f.gp f.gn } 0 <|
    if !guardScalar i f.gp f.gn then advance i 1
    else andThen (updWarp i.w fun x => { x with nstat := x.nstat &&& ~~~m }) (advance i 1)

/-! ## `brk` and `mark` -/

/-- The lowest member's name. -/
def lowName (i : Iss) : ThreadName := nameOf i.warp i.blk.launch i.blk.b (lowLane i.st.members)

/-- The stop record of R424. -/
def stopBytes (i : Iss) : List Byte :=
  bytesOfNat 8 (pcOf i.st).toNat ++ bytesOfNat 4 i.st.members.toNat ++ bytesOfNat 4 i.cid ++ nameBytes (lowName i)

def execBrk (f : CFields) (s : State) : Host.Outcome State Fault Refusal := atIssue s fun i =>
  match i.st.wait with
  | .debugStop => waitWith i .debugStop
  | _ =>
    gated s i none {} 0 <|
      if !guardScalar i f.gp f.gn then advance i 1
      else if !i.ctx.debugStop then takeTrap i (trapHere i .brk)
      else if !i.st.shadow.isEmpty && i.st.target.isNone then stall i 11
      else andThen (updMgmt fun m => { m with stops := m.stops ++ [stopBytes i] }) (andThen (waitWith i .debugStop) bump)

def execMark (f : CFields) (s : State) : Host.Outcome State Fault Refusal := atIssue s fun i =>
  let val := f.disp.getLsbD 16
  gated s i (chkAll true (!val || sOk i f.a.toNat 1))
      { sr := if val then [f.a.toNat] else [], act := guardScalar i f.gp f.gn } 0 <|
    if !guardScalar i f.gp f.gn then advance i 1
    else andThen (traceNote i.core (.marker (f.disp.toNat % 65536) (if val then sR i.warp f.a.toNat else 0) (pcOf i.st)
      (cycleOf s i.core) (lowName i))) (advance i 1)

/-! ## Deferred traps and the fault shadow -/

/-- `DEFERRED_TRAP_DELIVER` (R383): a strand that stands at a clause boundary takes the deferred trap that is due. -/
def execDeferredTrapDeliver (w st : Nat) (s : State) : Host.Outcome State Fault Refusal := finish s <|
  match strandAt s w st with
  | none => skip
  | some i => if i.st.slot.isSome || i.st.trap.isSome || i.st.held.isSome then skip
    else unlessDue i { edge := true } skip

/-- Where the running part waits, as the place the parked part re-executes to. -/
def waitingPart (i : Iss) : Part :=
  { lanes := i.lanes, pc := i.st.pc, slot := i.st.slot, hdr := i.st.hdr, ctx := i.cid, pages := [], wait := i.st.wait,
    held := i.st.held }

/-- `FAULT_SHADOW_REEXECUTE` (R34): once its faults are answered, the part split off last executes again, up to where the
running part waits; where both stand at one instruction they go on together. -/
def execFaultShadowReexecute (w st : Nat) (s : State) : Host.Outcome State Fault Refusal := finish s <|
  match strandAt s w st with
  | none => skip
  | some i => match i.st.shadow with
    | [] => skip
    | p :: rest =>
      if i.st.target.isSome || p.pages.any (fun q => (openFault s p.ctx q).isSome) || pageHeld i.st ||
          (decide (i.st.wait = .none) && decide (i.lanes ≠ 0)) then skip
      else if p.pc = i.st.pc ∧ p.slot = i.st.slot then
        andThen (updStrand w st fun t => { t with shadow := rest, failed := p.failed, sent := p.sent, idleAt := 0 }) bump
      else
        andThen (updStrand w st fun t =>
          { t with pc := p.pc, slot := p.slot, hdr := p.hdr, wait := p.wait, shadow := rest, held := none, failed := p.failed,
                   sent := p.sent, target := some (waitingPart i), idleAt := 0 }) bump

end Sys2Proof.Machine
end

