-- ==== Sys2Proof/Machine/Room.lean ====
section
/-! DEFINITION. Room for blocks (22_scheduling R344 to R346, 02_execution_model R13, R39, R40, 11_memory_hierarchy R177,
R178): what a launch needs, what a core has free, where the next blocks of a launch or the blocks saved together can
stand, and which work comes first. -/

namespace Sys2Proof.Machine

/-! ## What a launch needs (R13, R44, R175, R178, R262) -/

/-- Warps of one block on one core, of a block spread over `n`. -/
def runOf (l : Launch) (n : Nat) : Nat := (l.warpsN + n - 1) / n
/-- The piece size P of a block spread over `n` cores. -/
def pieceBytes (l : Launch) (n : Nat) : Nat := roundUp ((l.scratch + n - 1) / n) 65536
/-- Tile slots of the rectangle a block takes: rows and columns of slots. -/
def rectOf (l : Launch) : Nat × Nat := if l.arows * l.acols = 0 then (0, 0) else ((l.arows + 127) / 128, (l.acols + 127) / 128)

/-- A run of warps fits an empty core. -/
def runFits (l : Launch) (n : Nat) : Bool :=
  let perSub := (runOf l n + 15) / 16
  decide (perSub ≤ Config.warpSlots) && decide (perSub * l.vregs ≤ Config.fileRegs) && decide (pieceBytes l n / 65536 ≤ 28)
/-- The least number of cores that hold a block (R13). -/
def coresNeeded (l : Launch) : Option Nat := ((List.range l.cluster).map (· + 1)).find? (runFits l)
/-- The warps of run `j` of a block on `n` cores. -/
def runWarps (l : Launch) (n j : Nat) : List Nat := (List.range l.warpsN).filter fun w => decide (w / runOf l n = j)

/-- The cores of a partition. -/
def partOf (s : State) (p : Nat) : Partition := (mLook s.parts p).getD {}
/-- The launch of a block. -/
def launchOf (s : State) (b : Block) : Option Launch := mLook s.launches b.launch
/-- The warps of a block. -/
def warpsOf (s : State) (b : Block) : List (Nat × Warp) := b.warps.filterMap fun w => (mLook s.warps w).map fun x => (w, x)

/-- The cluster of a core: its first core (R177). -/
def clusterBase (core c : Nat) : Nat := core / 48 * 48 + core % 48 / c * c
/-- The clusters of a launch's partition. -/
def clustersOf (s : State) (l : Launch) : List Nat := ((partOf s l.part).cores.map fun c => clusterBase c l.cluster).eraseDups
/-- No block of launch `id` is resident on a cluster: its blocks there would be one group (R177). -/
def clusterFree (s : State) (id : Nat) (l : Launch) (base : Nat) : Bool :=
  decide (l.cluster = 1) || s.blocks.all fun e => !(decide (e.2.place = .resident) && decide (e.2.launch = id) &&
    decide (clusterBase (e.2.cores.headD 0) l.cluster = base))

/-! ## What a core has free -/

/-- The blocks that hold resources of a core: resident, a completed one of a group still resident with them (R177). -/
def blocksOn (s : State) (core : Nat) : List (Nat × Block) :=
  s.blocks.filter fun e => decide (e.2.place = .resident) && e.2.cores.contains core
/-- Granules reserved on a core. -/
def granules (s : State) (core : Nat) : Nat :=
  ((blocksOn s core).map fun e => match launchOf s e.2 with
    | some l => pieceBytes l e.2.cores.length / 65536 | none => 0).sum
/-- Tags in use on a core. -/
def tagsUsed (s : State) (core : Nat) : Nat :=
  ((blocksOn s core).map fun e => if e.2.completed then 0 else match launchOf s e.2 with | some l => l.tags | none => 0).sum
/-- Tile slots in use on a core. -/
def slotsUsed (s : State) (core : Nat) : List Nat :=
  (blocksOn s core).flatMap fun e => if e.2.completed then [] else (e.2.rect.filter fun r => decide (r.1 = core)).flatMap (·.2)
/-- A free rectangle of tile slots. -/
def freeRect (used : List Nat) (r c : Nat) : Option (List Nat) :=
  if r * c = 0 then some []
  else ((List.range ((5 - r) * (5 - c))).map fun k =>
      (List.range (r * c)).map fun j => 4 * (k / (5 - c) + j / c) + k % (5 - c) + j % c).find? fun l =>
        l.all fun t => !used.contains t

/-- A core may serve a context's launch at all (R186, R188, R344, R403, R419). -/
def coreServes (s : State) (l : Launch) (core : Nat) : Bool :=
  let x := coreOf s core
  decide (core < Config.cores) && (partOf s l.part).cores.contains core && !x.outOfService && x.retiring.isEmpty &&
    x.next.isNone &&
    decide (x.secure = l.isSecure) && (blocksOn s core).all fun e => decide (e.2.ctx = l.ctx)

/-- The warps `ws` of a launch fit a core with their piece of a block on `n` cores (R344). -/
def pieceFits (s : State) (l : Launch) (core n : Nat) (ws : List Nat) : Bool :=
  coreServes s l core && decide (granules s core + pieceBytes l n / 65536 ≤ 28) && decide (tagsUsed s core + l.tags ≤ 64) &&
  (freeRect (slotsUsed s core) (rectOf l).1 (rectOf l).2).isSome &&
  (List.range Config.subcores).all fun sub =>
    let k := (ws.filter fun w => decide (servingSub s core w = sub)).length
    decide (k * l.vregs ≤ freeRegs s core sub) && decide (k ≤ (freeSlots s core sub).length)

/-! ## A block takes its place (R11, R44, R45, R344) -/

/-- Strictly rising. -/
def rising : List Nat → Bool
  | a :: b :: r => decide (a < b) && rising (b :: r)
  | _ => true

/-- A block may be placed so: as many cores as R13 says, in one aligned cluster, with room for every warp; a warp slot
and a record slot of its own for each warp. -/
def placeOk (s : State) (l : Launch) (p : BlockPlace) : Bool :=
  match coresNeeded l with
  | none => false
  | some n =>
    let home (w : Nat) : Nat × Nat := let c := p.cores.getD (w / runOf l n) 0; (c, servingSub s c w)
    decide (p.cores.length = n) && rising p.cores &&
    p.cores.all (fun c => decide (clusterBase c l.cluster = clusterBase (p.cores.headD 0) l.cluster)) &&
    decide (p.slots.length = l.warpsN) && decide (p.records.length = l.warpsN) &&
    (List.range n).all (fun j => pieceFits s l (p.cores.getD j 0) n (runWarps l n j)) &&
    (List.range l.warpsN).all (fun w =>
      (freeSlots s (home w).1 (home w).2).contains (p.slots.getD w 0) &&
      (List.range w).all fun v => decide (home v ≠ home w) || decide (p.slots.getD v 0 ≠ p.slots.getD w 0)) &&
    p.records.all (fun r => decide (r.toNat % 64 = 0)) && decide p.records.Nodup

/-- Record slots lie in the context's save area; each is no other warp's of the context (R385), and lies outside its
continuation records. -/
def recordsFree (s : State) (cid : Nat) (rs : List DWord) : Bool :=
  (mLook s.ctxs cid).all (fun c => rs.all fun r => decide (c.save.toNat ≤ r.toNat)) &&
  s.warps.all fun e => (match mLook s.blocks e.2.block with | some b => decide (b.ctx ≠ cid) | none => true) ||
    (!rs.contains e.2.recAt && (decide (e.2.place ≠ .record) || rs.all fun r => !rangeHit r.toNat 64 e.2.recordAt.toNat 2240))

/-- The live lanes of warp `w` at dispatch (R11). -/
def liveAtDispatch (l : Launch) (w : Nat) : Mask := maskOf fun k => decide (32 * w + k < l.threads)

/-- A warp as R45 has it at dispatch. -/
def freshWarp (l : Launch) (p : BlockPlace) (blk w core sub age : Nat) : Warp :=
  reseed l p.b
    { block := blk, num := w, core := core, sub := sub, slotNo := p.slots.getD w 0, alloc := l.vregs,
      s := mPut 0 (mPut 0 [] 0 (BitVec.ofNat 32 l.args)) 1 (BitVec.ofNat 32 (l.args / 2 ^ 32)),
      nstat := (BitVec.ofNat 32 l.nstat0 &&& 0x3F00) ||| (if l.trapnan then 0x1000 else 0),
      live := liveAtDispatch l w, nextAge := 1, recAt := p.records.getD w 0, age := age }

/-- One warp takes its place; its strand takes a free entry, or waits for one on the fork-record stack (log entry 58). -/
def addWarp (id : Nat) (x : Warp) (l : Launch) : Act := look fun s =>
  let t : Strand := { members := x.live, pc := BitVec.ofNat 64 l.entry }
  match pick (freeEntries s x.core x.sub) (choice s 1) with
  | some k => eff (.warp id { x with strands := [(k, t)] })
  | none => eff (.warp id { x with heldStrands := [t] })

/-- The granules that a core takes back from its L1: sharer records of the words that lay there are withdrawn, which of
them, as the record does not say, by a free value (R179). -/
def reclaim (core granules : Nat) : Act := fun s =>
  if granules = 0 then []
  else (s.dir.filter fun e => decide (e.1 % 1024 = core) && Config.reclaimed s.tick e.1).map fun e => .share e.1 0

/-- A core that takes work of another context is cleaned first (R188). -/
def takeCore (cid core : Nat) : Act := look fun s =>
  if (coreOf s core).ctx = some cid then skip
  else andThen (cleanCore core) (updCore core fun x => { x with ctx := some cid })

/-- Places one block of launch `id` in group `gid`. What its cores hold of instruction words is read again: stores that
were acknowledged before the launch was submitted are seen (R67). -/
def placeBlock (id : Nat) (l : Launch) (p : BlockPlace) (gid : Nat) : Act := look fun s =>
  let n := p.cores.length
  let blk := s.nextId
  let r := rectOf l
  andThen (eff (.ids (blk + 1 + l.warpsN))) <|
  andThen (forAll (fun c => andThen (takeCore l.ctx c) <| andThen (reclaim c (pieceBytes l n / 65536)) <|
    updCore c fun x => { x with icache := [] }) p.cores) <|
  andThen (look fun s => eff (.block blk
    { launch := id, ctx := l.ctx, b := p.b, cores := p.cores, warps := (List.range l.warpsN).map (blk + 1 + ·), group := gid,
      rect := p.cores.map fun c => (c, (freeRect (slotsUsed s c) r.1 r.2).getD []) })) <|
  andThen (forAll (fun w => look fun s =>
    let c := p.cores.getD (w / runOf l n) 0
    addWarp (blk + 1 + w) (freshWarp l p blk w c (servingSub s c w) (blk + 1 + w)) l) (List.range l.warpsN)) <|
  andThen (updGroup gid fun g => { g with blocks := g.blocks ++ [blk] }) <|
  andThen (traceNote (p.cores.headD 0) (.dispatch blk (.ordinary id p.b 0))) <|
  updLaunch id fun x => { x with nextB := p.b + 1, stage := .running }

/-- Blocks placed one after the other, those of one cluster in one group (R177); `none` where one cannot be. -/
def placeAll (id : Nat) : List BlockPlace → Option (Nat × Nat) → State → Option (List Effect)
  | [], _, _ => some []
  | p :: ps, g, s =>
    match mLook s.launches id with
    | none => none
    | some l =>
      let base := clusterBase (p.cores.headD 0) l.cluster
      let joins := decide (2 ≤ l.cluster) && g.any fun x => decide (x.2 = base)
      if p.b ≠ l.nextB || !placeOk s l p || !recordsFree s l.ctx p.records then none
      else
        let gid := if joins then (g.map (·.1)).getD 0 else s.nextId
        let a : Act := andThen (if joins then skip
          else andThen (eff (.group gid { blocks := [], base := base })) (eff (.ids (gid + 1)))) (placeBlock id l p gid)
        (placeAll id ps (some (gid, base)) (after a s)).map (a s ++ ·)

/-! ## Where the next blocks of a launch can stand -/

/-- The warp slots that warps take at their homes, each the lowest that is free there for those before it. -/
def lowestSlots (free : Nat → Nat → List Nat) (homes : List (Nat × Nat)) : List Nat :=
  homes.zipIdx.map fun h => (free h.1.1 h.1.2).getD ((homes.take h.2).filter (· = h.1)).length 0

/-- The place of the next block of a launch on some cores. -/
def placeOn (s : State) (l : Launch) (cores : List Nat) : BlockPlace :=
  let homes := (List.range l.warpsN).map fun w =>
    let c := cores.getD (w / runOf l cores.length) 0
    (c, servingSub s c w)
  let save := match mLook s.ctxs l.ctx with | some c => recordPlace s l.ctx c | none => 0
  { b := l.nextB, cores := cores, slots := lowestSlots (freeSlots s) homes,
    records := (List.range l.warpsN).map fun w => BitVec.ofNat 64 (save + 64 * w) }

/-- The runs `js` of the next block on `n` cores, each on the lowest core of a list that holds it, after the core of the
run before it; the first core of the block is none of `taken` (R177, R344). -/
def lowestCores (s : State) (l : Launch) (n : Nat) (taken : List Nat) : List Nat → List Nat → Option (List Nat)
  | [], _ => some []
  | _ :: _, [] => none
  | j :: js, c :: cs =>
    if pieceFits s l c n (runWarps l n j) && !(decide (j = 0) && taken.contains c) then
      (lowestCores s l n taken js cs).map (c :: ·)
    else lowestCores s l n taken (j :: js) cs

/-- The lowest cores of a cluster, of those that `ok` allows, that hold the next block. -/
def coresFor (s : State) (l : Launch) (ok : Nat → Bool) (base : Nat) (taken : List Nat) : Option (List Nat) :=
  (coresNeeded l).bind fun n =>
    lowestCores s l n taken (List.range n) (((List.range l.cluster).map (base + ·)).filter ok)

/-- The places of the next blocks of launch `id`, at most `n` of them, from state `s` on: in the cluster at hand until the
next block does not fit, then in the next of `bases` that holds it. -/
def growPlaces (id : Nat) (ok : Nat → Bool) : Nat → Option Nat → List Nat → List BlockPlace → State → List BlockPlace
  | 0, _, _, acc, _ => acc
  | n + 1, cur, bases, acc, s =>
    match mLook s.launches id with
    | none => acc
    | some l =>
      let firsts (b : Nat) : List Nat :=
        if l.cluster = 1 then [] else (acc.map fun p => p.cores.headD 0).filter fun c => decide (clusterBase c l.cluster = b)
      let at_ (b : Nat) : Option (Nat × List Nat) := (coresFor s l ok b (firsts b)).map fun cs => (b, cs)
      if l.blocksN ≤ l.nextB then acc
      else match (cur.bind at_) <|> (bases.findSome? at_) with
        | none => acc
        | some (b, cs) =>
          let p := placeOn s l cs
          growPlaces id ok n (some b) (bases.filter (· ≠ b)) (acc ++ [p]) (after (placeBlock id l p 0) s)

/-- The places that a launch takes if it is offered the cluster at `base` first: one block, one cluster group, or all of
a COOP launch; none where it does not fit. -/
def placesAt (s : State) (id : Nat) (l : Launch) (ok : Nat → Bool) (base : Nat) : List BlockPlace :=
  let free := (clustersOf s l).filter (clusterFree s id l)
  if l.coop then
    let ps := growPlaces id ok (l.blocksN + 1) none (base :: free.filter (· ≠ base)) [] s
    if free.contains base && decide (l.nextB + ps.length = l.blocksN) then ps else []
  else if !free.contains base then []
  else growPlaces id ok (if l.cluster = 1 then 1 else l.cluster + 1) none [base] [] s

/-! ## Where saved blocks can stand (R398) -/

/-- The blocks saved with a block, or to be saved with it: all of a COOP launch (R40), or its cluster group (R177). -/
def savedWith (s : State) (b : Block) : List (Nat × Block) :=
  let coop := (mLook s.launches b.launch).any (·.coop)
  s.blocks.filter fun e => decide (e.2.place = b.place) &&
    (if coop then decide (e.2.launch = b.launch) else decide (e.2.group = b.group))

/-- The warps of a saved block, with the places they take: number, core, sub-core and slot. -/
def homesOf (s : State) (l : Launch) (b : Block) (p : BlockPlace) : List (Nat × Warp × Nat × Nat × Nat) :=
  b.warps.filterMap fun w => (mLook s.warps w).map fun x =>
    let c := p.cores.getD (x.num / runOf l b.cores.length) 0
    (w, x, c, servingSub s c x.num, p.slots.getD x.num 0)

/-- No number stands twice in a list. -/
def distinct (l : List Nat) : Bool := decide l.Nodup

/-- The B store image of a saved block may be written back on a core: the core holds no resident block, or these pages
already (R189). -/
def imageOk (s : State) (core : Nat) (image : Map Byte × List Nat) : Bool :=
  image.2.isEmpty || (blocksOn s core).isEmpty ||
    (image.2.all (coreOf s core).bpages.contains &&
      decide (((coreOf s core).bstore.filter fun e => image.2.contains (e.1 / 65536)) = image.1))

/-- A saved block may be restored so (R398): the same number of cores at the same offsets of one aligned cluster, room
for its scratch, tags, rectangle, registers and strands, and its B store's image. -/
def restoreOk (s : State) (l : Launch) (b : Block) (p : BlockPlace) : Bool :=
  let n := b.cores.length
  let hs := homesOf s l b p
  let offs (cs : List Nat) : List Nat := cs.map fun c => c - clusterBase (cs.headD 0) l.cluster
  decide (p.b = b.b) && decide (p.cores.length = n) && decide (offs p.cores = offs b.cores) &&
  (List.range n).all (fun j =>
    let c := p.cores.getD j 0
    coreServes s l c && decide (clusterBase c l.cluster = clusterBase (p.cores.headD 0) l.cluster) &&
    decide (granules s c + pieceBytes l n / 65536 ≤ 28) &&
    (b.completed || (decide (tagsUsed s c + l.tags ≤ 64) &&
      (freeRect (slotsUsed s c) (rectOf l).1 (rectOf l).2).isSome)) &&
    imageOk s c (b.bsave.getD j ([], [])) &&
    (List.range Config.subcores).all fun sub =>
      let here := hs.filter fun h => decide (h.2.2.1 = c) && decide (h.2.2.2.1 = sub) && decide (h.2.1.place ≠ .regSaved)
      decide ((here.map fun h => h.2.1.alloc).sum ≤ openRegs s c sub) &&
      here.all (fun h => (openSlots s c sub).contains h.2.2.2.2) && distinct (here.map fun h => h.2.2.2.2) &&
      decide ((here.map fun h => h.2.1.strands.length).sum ≤ (freeEntries s c sub).length))

/-- Barriers while their block is away keep the cycles counted so far (R368), and count on from there. -/
def pauseBars (c : Nat) (bars : Map Barrier) : Map Barrier :=
  bars.map fun e => (e.1, if e.2.count.isSome then { e.2 with first := (c + 2 ^ 64 - e.2.first) % 2 ^ 64 } else e.2)

/-- A B store with pages written back at their offsets (R189). -/
def putImage (image : Map Byte × List Nat) (x : Core) : Core :=
  { x with bstore := image.1.foldl (fun m e => mIns m e.1 e.2) (x.bstore.filter fun e => !image.2.contains (e.1 / 65536))
           bpages := x.bpages ++ image.2.filter fun p => !x.bpages.contains p }

/-- One block comes back. -/
def restoreBlock (id : Nat) (b : Block) (l : Launch) (p : BlockPlace) : Act := look fun s =>
  let r := rectOf l
  let hs := homesOf s l b p
  andThen (receiveAreas l.ctx id) <|
  andThen (forAll (fun j => look fun s =>
    let c := p.cores.getD j 0
    andThen (takeCore l.ctx c) <| andThen (reclaim c (pieceBytes l b.cores.length / 65536)) <|
      if (blocksOn s c).isEmpty then updCore c (putImage (b.bsave.getD j ([], []))) else skip)
    (List.range p.cores.length)) <|
  andThen (look fun s => updBlock id fun x =>
    { x with place := .resident, cores := p.cores, bsave := [],
             rect := p.cores.map fun c => (c, if b.completed then [] else (freeRect (slotsUsed s c) r.1 r.2).getD []) }) <|
  andThen (look fun s => updBlock id fun x => { x with bars := pauseBars (cycleOf s (p.cores.headD 0)) x.bars }) <|
  forAll (fun (h : Nat × Warp × Nat × Nat × Nat) => look fun s =>
    match reseat h.2.1 (freeEntries s h.2.2.1 h.2.2.2.1) with
    | some y => eff (.warp h.1
        { y with core := h.2.2.1, sub := h.2.2.2.1, slotNo := h.2.2.2.2, active := false, readySince := none,
                 place := if y.place = .saved then .resident else y.place })
    | none => skip) hs

/-- The place a saved block takes on the cluster at `base`. -/
def backAt (s : State) (l : Launch) (b : Block) (base : Nat) : BlockPlace :=
  let old := clusterBase (b.cores.headD 0) l.cluster
  let cs := b.cores.map fun c => base + (c - old)
  let homes := (warpsOf s b).map fun e =>
    let c := cs.getD (e.2.num / runOf l b.cores.length) 0
    (c, servingSub s c e.2.num)
  { b := b.b, cores := cs, records := [],
    slots := lowestSlots (fun c sub => freeSlots s c sub ++ (openSlots s c sub).filter fun n => !(freeSlots s c sub).contains n)
      homes }

/-- Where blocks saved together may return, on cores that `ok` allows: those of one group to one cluster, of two groups
to two (R177). -/
def returns (ok : Nat → Bool) (bases : List Nat) : List (Nat × Block) → List (Nat × Nat) → State → List BlockPlace
  | [], _, _ => []
  | (id, b) :: bs, at_, s =>
    match launchOf s b with
    | none => []
    | some l =>
      let cand := match at_.find? fun g => decide (g.1 = b.group) with
        | some g => [g.2]
        | none => bases.filter fun x => clusterFree s b.launch l x
      match cand.find? fun base => (backAt s l b base).cores.all ok && restoreOk s l b (backAt s l b base) with
      | none => []
      | some base =>
        backAt s l b base :: returns ok bases bs ((b.group, base) :: at_) (after (restoreBlock id b l (backAt s l b base)) s)

/-- The places that the blocks saved with `b` take if they are offered the cluster at `base` first; none where they do
not fit. -/
def returnsAt (s : State) (l : Launch) (b : Block) (ok : Nat → Bool) (base : Nat) : List BlockPlace :=
  let bs := savedWith s b
  let bases := (clustersOf s l).filter (· ≠ base)
  let ps := returns ok (if (clustersOf s l).contains base then base :: bases else []) bs [] s
  if ps.length = bs.length then ps else []

/-! ## Which work comes first (R344 to R346) -/

/-- A launch with undispatched blocks. -/
def waitsForCores (l : Launch) : Bool :=
  (decide (l.stage = .entered) || decide (l.stage = .running)) && decide (l.nextB < l.blocksN)
/-- A block of launch `id` is saved: it is restored before any other is dispatched (R39). -/
def hasSaved (s : State) (id : Nat) : Bool := s.blocks.any fun e => decide (e.2.launch = id) && decide (e.2.place = .saved)

/-- Work that waits for cores: the undispatched blocks of a launch, or (`unit` some) the blocks saved with that one. -/
structure Work where
  lau : Nat
  unit : Option Nat
  prio : Nat
  turn : Nat
  coop : Bool
  deriving DecidableEq, Repr

def launchWork (id : Nat) (l : Launch) : Work := ⟨id, none, l.prio, l.order, l.coop⟩
def savedWork (id : Nat) (b : Block) (l : Launch) : Work := ⟨b.launch, some id, l.prio, b.savedAt, l.coop⟩

/-- The order of R344: priority, then saved blocks by their save, then launches by their entry. -/
def Work.before (a b : Work) : Bool :=
  decide (b.prio < a.prio) || (decide (a.prio = b.prio) &&
    ((a.unit.isSome && b.unit.isNone) || (decide (a.unit.isSome = b.unit.isSome) && decide (a.turn < b.turn))))

/-- The work of a partition that waits. -/
def works (s : State) (part : Nat) : List Work :=
  (s.launches.filter fun e => decide (e.2.part = part) && waitsForCores e.2 && !hasSaved s e.1).map (fun e => launchWork e.1 e.2) ++
  s.blocks.filterMap fun e => match launchOf s e.2 with
    | some l => if decide (l.part = part) && decide (e.2.place = .saved) && decide (((savedWith s e.2).head?.map (·.1)) = some e.1)
        then some (savedWork e.1 e.2 l) else none
    | none => none

/-- A ready launch of priority 7 of the partition has an undispatched block (R343, R346). -/
def sevenWaits (s : State) (part : Nat) : Bool :=
  s.launches.any fun e => decide (e.2.part = part) && decide (e.2.prio = 7) && decide (e.2.nextB < e.2.blocksN) &&
    (decide (e.2.stage = .ready) || decide (e.2.stage = .entered) || decide (e.2.stage = .running))

/-- The places that a piece of work takes on a cluster, on cores that `ok` allows. -/
def Work.placesAt (s : State) (w : Work) (ok : Nat → Bool) (base : Nat) : List BlockPlace :=
  match mLook s.launches w.lau with
  | none => []
  | some l => match w.unit with
    | none => Machine.placesAt s w.lau l ok base
    | some id => match mLook s.blocks id with | some b => returnsAt s l b ok base | none => []

/-- The clusters of the partition of a piece of work. -/
def Work.clusters (s : State) (w : Work) : List Nat :=
  match mLook s.launches w.lau with | some l => clustersOf s l | none => []

/-- The cores that R346 lets a piece of work take: a reserved one, below priority 7, only when no launch of priority 7
waits and the work fits no unreserved core. -/
def Work.mayUse (s : State) (w : Work) (core : Nat) : Bool :=
  match mLook s.launches w.lau with
  | none => false
  | some l =>
    let free (c : Nat) : Bool := !(partOf s l.part).reserved.contains c
    free core || decide (w.prio = 7) ||
      (!sevenWaits s l.part && (w.clusters s).all fun b => (w.placesAt s free b).isEmpty)

/-- The next blocks of a piece of work could take the core now. -/
def Work.couldTake (s : State) (w : Work) (core : Nat) : Bool :=
  match mLook s.launches w.lau with
  | none => false
  | some l => (w.placesAt s (w.mayUse s) (clusterBase core l.cluster)).any fun p => p.cores.contains core

/-- A COOP launch, or its saved blocks, that stands first in its priority's order claims an idle core against work of the
same or lower priority (R345). -/
def claimed (s : State) (part : Nat) (w : Work) (core : Nat) : Bool :=
  (blocksOn s core).isEmpty && (works s part).any fun x => x.coop && decide (x ≠ w) && decide (w.prio ≤ x.prio) &&
    (works s part).all fun y => decide (y.prio ≠ x.prio) || decide (y = x) || x.before y

/-- A core may be offered to a piece of work: no work that comes first could take it, no claim stands on it, and R346
allows it. While the completion records of a context that has been terminated are not whole, nothing is placed (R380). -/
def mayTake (s : State) (part : Nat) (w : Work) (core : Nat) : Bool :=
  w.mayUse s core && !claimed s part w core &&
  (works s part).all (fun x => !x.before w || !x.couldTake s core) &&
  s.launches.all fun e => decide (e.2.stage ≠ .finished) || (match mLook s.ctxs e.2.ctx with | some c => !c.terminated | none => false)

/-- A launch is offered a core. -/
def mayOffer (s : State) (id : Nat) (l : Launch) (core : Nat) : Bool := mayTake s l.part (launchWork id l) core
/-- The blocks saved with a block are offered a core; their unit is named by the first of them. -/
def mayReturn (s : State) (b : Block) (l : Launch) (core : Nat) : Bool :=
  (savedWith s b).head?.any fun e => mayTake s l.part (savedWork e.1 e.2 l) core

/-! ## What R39 makes leave -/

/-- The blocks of a launch that run: dispatched, resident and not completed. -/
def runningOf (s : State) (id : Nat) : List (Nat × Block) :=
  s.blocks.filter fun e => decide (e.2.launch = id) && decide (e.2.place = .resident) && !e.2.completed
/-- A saved block of a launch, with a lower B than `b`, that fits nowhere. -/
def waitsBelow (s : State) (id b : Nat) : Bool :=
  s.blocks.any fun e => decide (e.2.launch = id) && decide (e.2.place = .saved) && decide (e.2.b < b) &&
    (match mLook s.launches id with
      | some l => (clustersOf s l).all fun base => (returnsAt s l e.2 (fun _ => true) base).isEmpty
      | none => false)
/-- The running block of the highest B of its launch must leave for a saved block of a lower B (R39). -/
def mustLeave (s : State) (v : Nat) (b : Block) : Bool :=
  (runningOf s b.launch).all (fun e => decide (e.2.b ≤ b.b) && !e.2.forced) &&
    (runningOf s b.launch).any (fun e => decide (e.1 = v)) && waitsBelow s b.launch b.b

end Sys2Proof.Machine
end

