-- ==== Sys2Proof/Machine/Schedule.lean ====
section
/-! DEFINITION. The device scheduler (22_scheduling R337 to R343): submission by the host, the arbiter, the checks of a
launch record, the dispatch of blocks (R13, R44, R45, R177, R178, R262) and their completion (R15). -/

namespace Sys2Proof.Machine

/-! ## Submission by the host (R341) -/

/-- `HOST_SUBMIT`. -/
def execHostSubmit (ctx : Nat) (addr : DWord) (s : State) : Host.Outcome State Fault Refusal := finish s <|
  match mLook s.ctxs ctx with
  | none => skip
  | some c =>
    let refuse : Act := updCtx ctx fun c => { c with refused := c.refused + 1 }
    if c.terminated then skip
    else if addr.toNat % 128 ≠ 0 then refuse
    else match readVirt s c addr.toNat 128 with
      | none => refuse
      | some bs =>
        let sc := if recAt bs 48 2 = 0xFFFF then none else some (recAt bs 48 2)
        if !doneOk s c bs || decide (c.launchQuota ≤ ringCount s ctx) || sc.any (fun n => !scopeOpen c n) then refuse
        else
          let id := freshId s
          andThen (updCtx ctx fun c => { c with lastId := id }) <|
          andThen (if recHold bs && sc.isNone then refuseHeld ctx bs
            else addLaunch { ctx := ctx, bytes := bs, scope := sc, stage := if recHold bs then .held else .ready, placed := true })
            bump

/-- `REFUSED_CLEAR`: a write of 0. -/
def execRefusedClear (ctx : Nat) (v : DWord) (s : State) : Host.Outcome State Fault Refusal :=
  finish s <| if v = 0 then updCtx ctx fun c => { c with refused := 0 } else skip

/-! ## The arbiter (R343) -/

/-- Two records come from one source: a core's queue, or a context's ring or tape. -/
def sameSource (a b : Launch) : Bool :=
  decide (a.queue = b.queue) && decide (a.tape = b.tape) && (a.queue.isSome || decide (a.ctx = b.ctx))

/-- A launch stands in the arbiter's ready list. -/
def inList (l : Launch) (s : State) : Bool :=
  decide (l.stage = .entered) || (decide (l.stage = .running) && decide (l.nextB < l.blocksN) && (mLook s.ctxs l.ctx).isSome)

/-- `ARBITER_ENTER`: records of one source enter in the order they became ready. -/
def execArbiterEnter (launch : Nat) (s : State) : Host.Outcome State Fault Refusal := finish s <|
  match mLook s.launches launch with
  | none => skip
  | some l =>
    if l.stage ≠ .ready || decide (4096 ≤ (s.launches.filter fun e => inList e.2 s).length) ||
        s.launches.any (fun e => decide (e.2.stage = .ready) && sameSource e.2 l && decide (e.2.order < l.order)) then skip
    else
      andThen (eff (.launch launch { l with stage := .entered, order := s.nextId, queue := none })) <|
      andThen (eff (.ids (s.nextId + 1))) bump

/-! ## The checks of a record (R338) -/

/-- The device with no block on it: what a partition holds at all. -/
def emptied (s : State) : State :=
  { s with blocks := [], groups := [], warps := [], cores := s.cores.map fun e => (e.1, { e.2 with next := none }) }
/-- PART holds all blocks of a COOP launch at once (R40, R338). -/
def coopFits (s : State) (id : Nat) (l : Launch) : Bool :=
  decide ((growPlaces id (fun _ => true) (l.blocksN + 1) none (clustersOf s l) []
    { emptied s with launches := [(id, l)] }).length = l.blocksN)

/-- A launch record keeps R17, R42, R13, R337 and R338. -/
def recordOk (s : State) (c : Context) (id : Nat) (l : Launch) : Bool :=
  let w := (List.range 6).map l.width
  let field (o n : Nat) : Nat := recAt l.bytes o n
  canonical l.entry && decide (l.entry % 8 = 0) && decide (l.width 0 = 5) && decide (w.sum ≤ 64) &&
  decide (l.warpsN ≤ 2 ^ l.width 1) && decide (l.blocksN ≤ 2 ^ (l.width 2 + l.width 3 + l.width 4 + l.width 5)) &&
  decide (l.flags &&& 0xFFE2 = 0) && decide (1 ≤ l.blocksN) && decide (1 ≤ l.threads) && decide (l.threads ≤ 8192) &&
  [1, 2, 4, 8, 16].contains l.cluster && decide (l.prio ≤ 7) &&
  decide (l.vregs % 32 = 0) && decide (32 ≤ l.vregs) && decide (l.vregs ≤ 512) &&
  decide (l.sregs % 16 = 0) && decide (16 ≤ l.sregs) && decide (l.sregs ≤ 384) &&
  decide (l.arows % 16 = 0) && decide (l.arows ≤ 512) && decide (l.acols % 16 = 0) && decide (l.acols ≤ 512) &&
  decide (l.tags ≤ 64) && decide (l.wdog ≤ 63) && (decide (l.scopeN ≤ 255) || decide (l.scopeN = 0xFFFF)) &&
  decide (l.part ≤ 15) && decide (field 0x33 5 = 0) && doneOk s c l.bytes && decide (l.trap % 8 = 0) &&
  decide (field 0x48 2 < 1024) && (l.bytes.drop 0x4A).all (· = 0) &&
  c.parts.contains l.part && (!l.isSecure || c.secure) &&
  (coresNeeded l).isSome && (!l.coop || coopFits s id l)

/-! ## Dispatch (R344) -/

/-- How many blocks one dispatch places, and where: all of a COOP launch (R40), one block, or one cluster group on a
free cluster, each block on the lowest cores that hold it until the next does not fit (R177, R344). -/
def rightPlaces (s : State) (id : Nat) (l : Launch) (ps : List BlockPlace) : Bool :=
  let bases := (ps.map fun p => clusterBase (p.cores.headD 0) l.cluster).eraseDups
  !ps.isEmpty && ps.all (fun p => p.cores.all (mayOffer s id l)) &&
  (!l.coop || decide (l.nextB + ps.length = l.blocksN)) &&
  (if l.cluster = 1 then l.coop || decide (ps.length = 1)
   else (l.coop || decide (bases.length = 1)) && bases.all (clusterFree s id l) &&
     decide ((growPlaces id (mayOffer s id l) (ps.length + 1) none bases [] s).map (·.cores) = ps.map (·.cores)))

/-- `BLOCK_DISPATCH` (R344): a launch that R338 rejects is rejected here; else its next blocks are placed. -/
def execBlockDispatch (launch : Nat) (place : List BlockPlace) (s : State) : Host.Outcome State Fault Refusal := finish s <|
  match mLook s.launches launch with
  | none => skip
  | some l => match mLook s.ctxs l.ctx with
    | none => skip
    | some c =>
      if !waitsForCores l && !(decide (l.stage = .entered) && decide (l.blocksN = 0)) then skip
      else if l.stage = .entered && !recordOk s c launch l then rejectLaunch launch l
      else if hasSaved s launch || !rightPlaces s launch l place then skip
      else match placeAll launch place none s with
        | some es => fun _ => es ++ [.bump]
        | none => skip

/-! ## Completion (R15, R152, R177, R339) -/

/-- A core that runs no block any more keeps its context until it is cleaned. The blocks of a group leave together. -/
def dropGroupIfDone (gid : Nat) : Act := look fun s =>
  match mLook s.groups gid with
  | none => skip
  | some g =>
    if g.blocks.all fun b => (match mLook s.blocks b with | some x => x.completed | none => true)
    then
      let cs := (g.blocks.filterMap (mLook s.blocks)).flatMap (·.cores)
      andThen (fun _ => g.blocks.map .dropBlock) (andThen (eff (.dropGroup gid)) (forAll joinIdle cs.eraseDups))
    else skip

/-- `BLOCK_COMPLETE`: no live lane, and nothing of the block in flight; the launch ends with its last block. -/
def execBlockComplete (block : Nat) (s : State) : Host.Outcome State Fault Refusal := finish s <|
  match mLook s.blocks block with
  | none => skip
  | some b =>
    if b.completed || b.place ≠ .resident || b.warps.any (fun w => decide (liveOf s w ≠ 0)) ||
        s.ops.any (fun e => decide (e.2.blk = block)) || s.engs.any (fun e => decide (e.2.blk = block)) then skip
    else
      andThen (fun _ => b.warps.map .dropWarp) <|
      andThen (updBlock block fun x => { x with completed := true }) <|
      andThen (settleBars block) <|
      andThen (updLaunch b.launch fun l => { l with doneBlocks := l.doneBlocks + 1, penn := l.penn ||| b.bstat }) <|
      andThen (forAll (fun c => forAll (fun sub => seatHeld c sub) (List.range Config.subcores)) b.cores) <|
      andThen (dropGroupIfDone b.group) <|
      andThen (look fun s => match mLook s.launches b.launch with
        | some l =>
          if l.doneBlocks = l.blocksN then endLaunch b.launch l 1 l.penn.toNat l.doneBlocks else skip
        | none => skip) bump

end Sys2Proof.Machine
end

