-- ==== Sys2Proof/Machine/Preempt.lean ====
section
/-! DEFINITION. The warp scheduler's active set (22_scheduling R351), scrubbing and sleep (03_registers R50, R51),
pre-emption and restore (25_traps_faults R396 to R398) and the barrier watchdog (23 R368, 24 R380, R381). -/

namespace Sys2Proof.Machine

/-! ## The active set (R351) -/

/-- The oldest ready warp of a sub-core outside its active set. -/
def pendingReady (s : State) (core sub : Nat) : Option (Nat × Warp) :=
  oldest ((residents s core sub).filter fun e => !e.2.active && e.2.readySince.isSome)
/-- The warps of the active set of a sub-core. -/
def activeSet (s : State) (core sub : Nat) : List (Nat × Warp) := (residents s core sub).filter (·.2.active)

/-- A free place goes to the oldest ready pending warp. -/
def activateWarp (w : Nat) : Act := look fun s =>
  match mLook s.warps w with
  | none => skip
  | some x =>
    if decide ((activeSet s x.core x.sub).length < Config.activeSet) && (pendingReady s x.core x.sub).any (fun e => decide (e.1 = w))
    then andThen (updWarp w fun y => { y with active := true, activeSince := cycleOf s x.core, readySince := none }) bump
    else skip

/-- Register `r` of a warp (a scalar one as 512 + r) has a producer that issued more than 64 cycles ago and has not
delivered (R350). -/
def lateRegister (s : State) (w r : Nat) : Bool :=
  (mLook s.warps w).any fun x =>
    let old : State := { s with ops := s.ops.filter fun e => decide (e.2.since + 64 < cycleOf s x.core)
                                engs := s.engs.filter fun e => decide (e.2.since + 64 < cycleOf s x.core) }
    if r < 512 then decide (pendingV old w r ≠ 0) else pendingS old w (r - 512)

/-- A strand waits on a long-latency event, as R350 lists them: of the waits that R424 numbers, those on counters (2),
barriers (5), memory, tags and scopes (6), queues (7) and a full matrix queue (13), or behind its parked part (11); and
one on a register whose producer is late, or in `rgrow`. -/
def longWait (s : State) (w : Nat) (x : Warp) (t : Strand) : Bool :=
  t.trap.isSome || t.held.isSome || decide (issuing t = 0) ||
    (match t.wait with
      | .none | .debugStop => false
      | .stall r => [2, 5, 6, 7, 11, 13].contains r || (decide (r = 1) && (growing x || t.needs.any (lateRegister s w)))
      | _ => true)

/-- `WARP_LEAVE_ACTIVE`: every strand waits on a long-latency event, and a ready warp is pending. -/
def execWarpLeaveActive (w : Nat) (s : State) : Host.Outcome State Fault Refusal := finish s <|
  match mLook s.warps w with
  | none => skip
  | some x =>
    if !x.active || x.place ≠ .resident || warpReady s x || !(mVals x.strands).all (longWait s w x) then skip
    else match pendingReady s x.core x.sub with
      | some (p, _) => swapOut w p
      | none => skip

/-- A strand stands at a header, or waits at its slot (R66, R396). -/
def atRest (t : Strand) : Bool := t.slot.isNone || decide (t.wait ≠ .none) || t.trap.isSome || t.held.isSome
/-- Every strand of a warp is at rest. -/
def warpAtRest (x : Warp) : Bool := (mVals x.strands).all atRest

/-- `ACTIVE_SET_FORCED_LEAVE`: a ready warp has been pending for 2,048 cycles; the youngest active warp, at a header,
makes room for it. -/
def execActiveSetForcedLeave (core sub : Nat) (s : State) : Host.Outcome State Fault Refusal := finish s <|
  match pendingReady s core sub, youngest (activeSet s core sub) with
  | some (p, x), some (w, y) =>
    if x.readySince.any (fun r => decide (r + 2048 ≤ cycleOf s core)) && warpAtRest y then swapOut w p else skip
  | _, _ => skip

/-! ## Scrubbing and sleep (R50, R51) -/

/-- Adds to the count of an error source. -/
def addCount (l : List (ErrSource × Nat)) (k : ErrSource) (n : Nat) : List (ErrSource × Nat) :=
  if l.any (fun e => decide (e.1 = k)) then l.map fun e => if e.1 = k then (e.1, e.2 + n) else e else l ++ [(k, n)]
/-- The count of an error source. -/
def countOf (l : List (ErrSource × Nat)) (k : ErrSource) : Nat := ((l.find? fun e => decide (e.1 = k)).map (·.2)).getD 0

/-- Corrected errors within a window that a source stays within. -/
def threshold : ErrSource → Nat
  | .subcore _ _ => 16 | .dramRow _ _ => 4 | .l2Slice _ _ _ => 8 | .columnStore _ _ => 8

/-- A source has a lasting fault. -/
def markLasting (src : ErrSource) (m : Mgmt) : Mgmt :=
  if m.lasting.contains src then m
  else if threshold src < countOf m.errCount src ∨ 2 ≤ countOf m.badCount src then { m with lasting := src :: m.lasting } else m

/-- The counter that an error source counts by: its core's, or its die's (R4, R401). -/
def sourceClock (s : State) : ErrSource → Nat
  | .subcore core _ | .columnStore core _ => cycleOf s core
  | .dramRow die _ | .l2Slice die _ _ => dieClock s die
/-- The counts of a source as its window has them: a window of 2^32 cycles that is over takes its counts with it (R401). -/
def inWindow (s : State) (src : ErrSource) (m : Mgmt) : Mgmt :=
  let now := sourceClock s src / 2 ^ 32
  if countOf m.errWindow src = now then m
  else { m with errCount := m.errCount.filter fun e => decide (e.1 ≠ src)
                badCount := m.badCount.filter fun e => decide (e.1 ≠ src)
                errWindow := (src, now) :: m.errWindow.filter fun e => decide (e.1 ≠ src) }

/-- The register words with a double-bit error on a sub-core. -/
def badRegs (s : State) (core sub : Nat) : Nat :=
  (s.bad.filter fun y => match y with
    | .reg w k => (mLook s.warps w).any fun x =>
        decide (x.core = core) && decide (x.sub = sub) && decide (x.place = .resident) && decide (k < 32 * x.alloc)
    | .sreg w _ => (mLook s.warps w).any fun x =>
        decide (x.core = core) && decide (x.sub = sub) && decide (x.place = .resident)
    | _ => false).length

/-- The scrubber's next pass over a sub-core has come: one in 2^22 cycles. -/
def scrubDue (s : State) (core sub : Nat) : Bool := decide (mGet 0 (coreOf s core).scrubbed sub + 2 ^ 22 ≤ cycleOf s core)

/-- `SCRUB_VISIT` (R50): one pass over a sub-core's allocated words; a double-bit error is counted and left as it stands.
A single-bit error is an input of its own, corrected as it arises (log entry 67). -/
def execScrubVisit (core sub : Nat) (s : State) : Host.Outcome State Fault Refusal := finish s <|
  if !scrubDue s core sub then skip
  else
    andThen (updCore core fun x => { x with scrubbed := mIns x.scrubbed sub (cycleOf s core) }) <|
    updMgmt fun m => if badRegs s core sub = 0 then m else
      let m := inWindow s (.subcore core sub) m
      markLasting (.subcore core sub) { m with badCount := addCount m.badCount (.subcore core sub) (badRegs s core sub) }

/-- A sub-core may fall asleep: no resident warp, or no issue for 65,536 cycles. -/
def maySleep (s : State) (core sub : Nat) : Bool :=
  !(coreOf s core).asleep.contains sub && decide (core < Config.cores) && decide (sub < Config.subcores) &&
    ((residents s core sub).isEmpty || decide (mGet 0 (coreOf s core).lastIssue sub + 65536 ≤ cycleOf s core))

/-- `SUBCORE_SLEEP`. -/
def execSubcoreSleep (core sub : Nat) (s : State) : Host.Outcome State Fault Refusal := finish s <|
  if maySleep s core sub then updCore core fun x => { x with asleep := sub :: x.asleep } else skip

/-- `SUBCORE_WAKE`: the check sweep leaves double-bit errors as they are. -/
def execSubcoreWake (core sub : Nat) (s : State) : Host.Outcome State Fault Refusal := finish s <|
  if (coreOf s core).asleep.contains sub then andThen (wakeSubs core [sub]) bump else skip

/-! ## Saving (R396, R397) -/

/-- The blocks that a save of a core takes. -/
def saveSet (s : State) (core : Nat) : List (Nat × Block) :=
  s.blocks.filter fun e => (blocksOn s core).any fun k => (savedWith s k.2).any fun y => decide (y.1 = e.1)

/-- A block has come to rest: its warps stopped, and what was in flight has drained (R56). -/
def blockDrained (s : State) (e : Nat × Block) : Bool :=
  s.ops.all (fun o => decide (o.2.blk ≠ e.1)) && s.engs.all (fun o => decide (o.2.blk ≠ e.1)) &&
    e.2.warps.all fun w => match mLook s.warps w with
      | some x => decide (x.place ≠ .resident) || (warpAtRest x && drained s x w)
      | none => true

/-- A wait as a save keeps it: a `refill` examines its queue afresh after the restore (R377). -/
def savedWait : Wait → Wait
  | .getting _ _ _ true [] => .none
  | x => x

/-- One block leaves its cores (R397), whose sub-cores wake for it (R51). -/
def saveBlock (order : Nat) (e : Nat × Block) : Act := look fun s =>
  let b := e.2
  andThen (forAll (fun c => wakeSubs c (List.range Config.subcores)) b.cores) <|
  andThen (forAll (fun w => updWarp w fun x =>
    if x.place = .resident then
      { onEvery (fun t => { t with wait := savedWait t.wait }) (leaveActive x) with place := .saved, yielding := none }
    else x) b.warps) <|
  updBlock e.1 fun x =>
    { x with place := .saved, savedAt := order, stopping := false, forced := false,
             bars := pauseBars (cycleOf s (countingCore s b false)) x.bars,
             bsave := b.cores.map fun c => ((coreOf s c).bstore.filter fun y => (coreOf s c).bpages.contains (y.1 / 65536),
               (coreOf s c).bpages) }

/-- A core that holds no resident block any more: its pending launches move to the rings (R332), and it joins the
partition it has been told to (R347). -/
def emptyCore (core : Nat) : Act := look fun s =>
  if (blocksOn s core).isEmpty then andThen (toRings core) (joinIdle core) else skip

/-- Saves some blocks, all of them at rest; a save area that cannot be written ends the context (R397). -/
def saveBlocks (bs : List (Nat × Block)) : Act := look fun s =>
  match bs.find? fun e => !(match mLook s.ctxs e.2.ctx with | some c => areaWritable s c c.save.toNat 4 | none => true) with
  | some e =>
    let save := ((mLook s.ctxs e.2.ctx).map (·.save)).getD 0
    terminate e.2.ctx (trapBytes { cause := .cont, addr := save }) none 0 2
  | none =>
    let gs := (bs.map (·.2.group)).eraseDups
    andThen (forAll (fun g => look fun s => match bs.find? fun e => decide (e.2.group = g) with
      | some e => updGroup g fun x => { x with bars := pauseBars (cycleOf s (countingCore s e.2 true)) x.bars }
      | none => skip) gs) <|
    andThen (forAll (saveBlock s.nextId) bs) <|
    andThen (eff (.ids (s.nextId + 1))) <|
    andThen (forAll (fun c => forAll (seatHeld c) (List.range Config.subcores)) (bs.flatMap (·.2.cores)).eraseDups) <|
    andThen (forAll emptyCore (bs.flatMap (·.2.cores)).eraseDups) bump

/-- The request that some blocks leave, by R39 or with their core: they are to stop; where they are at rest already, they
are saved at once. -/
def requestBlocks (bs : List (Nat × Block)) (byRule : Bool) : Act := look fun s =>
  if bs.all (blockDrained s) then saveBlocks bs
  else andThen (forAll (fun (e : Nat × Block) => updBlock e.1 fun x => { x with stopping := true, forced := byRule }) bs) bump

/-- A core can be saved now. -/
def saveReady (s : State) (core : Nat) : Bool := (saveSet s core).all (blockDrained s)
/-- Saves a core: what must leave with it, and its pending launches. -/
def requestSave (core : Nat) : Act := look fun s =>
  andThen (requestBlocks (saveSet s core) false) (emptyCore core)

/-- The block of the highest B of a launch makes room for a saved block of a lower B that fits nowhere (R39): it is asked
to leave, and saved once it has come to rest. -/
def makeRoom (v : Nat) : Act := look fun s =>
  match mLook s.blocks v with
  | none => skip
  | some b =>
    if b.place = .resident && (b.forced || mustLeave s v b) then requestBlocks (savedWith s b) true else skip

/-- `PREEMPT_SAVE` (R396): the request, or the save once the warps have stopped and what was in flight has drained. -/
def execPreemptSave (core : Nat) (s : State) : Host.Outcome State Fault Refusal := finish s (requestSave core)

/-! ## Restoring (R398) -/

/-- Restores blocks one after the other; `none` where one cannot be. -/
def restoreAll : List (Nat × Block) → List BlockPlace → State → Option (List Effect)
  | [], [], _ => some []
  | (id, b) :: bs, p :: ps, s =>
    match launchOf s b with
    | none => none
    | some l =>
      if !restoreOk s l b p then none
      else
        let es := restoreBlock id b l p s
        (restoreAll bs ps (applyAll es s)).map (es ++ ·)
  | _, _, _ => none

/-- The save area of a block's context can be read; where it cannot, a restore ends the context with CONT (R382). -/
def imageReadable (s : State) (b : Block) : Bool :=
  match mLook s.ctxs b.ctx with | some c => (readVirt s c c.save.toNat 4).isSome | none => true

/-- `BLOCK_RESTORE` (R398): a saved block returns with the blocks it was saved with, `place` in the order of their
numbers in the model. -/
def execBlockRestore (block : Nat) (place : List BlockPlace) (s : State) : Host.Outcome State Fault Refusal := finish s <|
  match mLook s.blocks block with
  | none => skip
  | some b => match launchOf s b with
    | none => skip
    | some l =>
      let bs := savedWith s b
      let bases := (place.map fun p => clusterBase (p.cores.headD 0) l.cluster)
      let together := (List.zip bs bases).all fun x => (List.zip bs bases).all fun y =>
        if x.1.2.group = y.1.2.group then decide (x.2 = y.2) else decide (l.cluster = 1) || decide (x.2 ≠ y.2)
      if b.place = .saved && bs.any (fun e => !imageReadable s e.2) then
        terminate b.ctx (trapBytes { cause := .cont, addr := ((mLook s.ctxs b.ctx).map (·.save)).getD 0 }) none 0 2
      else if b.place ≠ .saved || !together || !bases.all (clusterFree s b.launch l) ||
          !(place.all fun p => p.cores.all (mayReturn s b l)) then skip
      else match restoreAll bs place s with
        | none => skip
        | some es =>
          let gs := (List.zip bs bases).map fun x => (x.1.2.group, x.2)
          andThen (fun _ => es) <|
          andThen (forAll (fun (g : Nat × Nat) => look fun s => updGroup g.1 fun x =>
            { x with base := g.2
                     bars := match x.blocks.head?.bind (mLook s.blocks) with
                       | some k => pauseBars (cycleOf s (k.cores.headD 0)) x.bars
                       | none => x.bars }) gs.eraseDups) bump

/-! ## The watchdog (R368, R380, R381) -/

/-- A barrier with the block that holds it. -/
structure Watched where
  blk : Nat
  b : Nat
  cluster : Bool
  bid : Nat
  past : Nat
  deriving DecidableEq, Repr

/-- How far the count of a barrier has passed 2^WDOG, once it has: the cycle of expiry is over. -/
def overTime (s : State) (b : Block) (cluster : Bool) (x : Barrier) : Option Nat :=
  match launchOf s b with
  | none => none
  | some l =>
    let e := (cycleOf s (countingCore s b cluster) + 2 ^ 64 - x.first) % 2 ^ 64
    if b.place = .resident ∧ l.wdog ≠ 0 ∧ x.count.isSome ∧ 2 ^ l.wdog < e then some (e - 2 ^ l.wdog) else none

/-- The barriers of a context that have expired; a group's stand under its lowest-numbered block that has not
completed. -/
def expired (s : State) (cid : Nat) : List Watched :=
  (s.blocks.filter fun e => decide (e.2.ctx = cid) && !e.2.completed).flatMap fun e =>
    (e.2.bars.filterMap fun x => (overTime s e.2 false x.2).map fun o => ⟨e.1, e.2.b, false, x.1, o⟩) ++
    (match mLook s.groups e.2.group with
      | none => []
      | some g =>
        if (g.blocks.find? fun k => (mLook s.blocks k).any fun y => !y.completed) = some e.1 then
          g.bars.filterMap fun x => (overTime s e.2 true x.2).map fun o => ⟨e.1, e.2.b, true, x.1, o⟩
        else [])

/-- `x` expired before `y`, or in the same cycle and is named first (R380). -/
def expiresFirst (x y : Watched) : Bool :=
  decide (y.past < x.past) || (decide (x.past = y.past) && (decide (x.b < y.b) || (decide (x.b = y.b) &&
    (decide (!x.cluster ∧ y.cluster) || (decide (x.cluster = y.cluster) && decide (x.bid ≤ y.bid))))))

/-- 32 bytes, bit w for warp number w. -/
def warpBits (f : Nat → Bool) : List Byte :=
  bytesOfNat 32 ((List.range 256).foldl (fun m w => if f w then m + 2 ^ w else m) 0)

/-- A 16-bit field of a lane count. -/
def laneField (n : Nat) : List Byte := bytesOfNat 2 (if n < 65536 then n else Config.wideCount n % 65536)

/-- ARRWARPS and DEADWARPS of a block; a warp that has gone has no live lane. -/
def barrierBits (s : State) (x : Barrier) (b : Block) : List Byte :=
  let of (n : Nat) : Option Nat := b.warps[n]?
  warpBits (fun n => (of n).any fun w => decide (mGet 0 x.arrived w ≠ 0)) ++
    warpBits (fun n => (of n).any fun w => decide (liveOf s w = 0))

/-- The strands of a warp that a record lists. -/
def listed (x : Warp) : List Strand := if x.place = .record then [recordStrand x.record x] else mVals x.strands ++ x.heldStrands

/-- The entries of the strands of warps with live lanes not arrived. -/
def strandEntries (s : State) (x : Barrier) (pos : Nat) (b : Block) : List (List Byte) :=
  (warpsOf s b).flatMap fun e =>
    if e.2.live &&& ~~~(mGet 0 x.arrived e.1) = 0 then []
    else (listed e.2).map fun t =>
      bytesOfNat 8 (pcOf t).toNat ++ bytesOfNat 4 t.members.toNat ++ bytesOfNat 4 (e.2.num + pos * 65536) ++
        nameBytes (nameOf e.2 b.launch b.b (lowLane t.members))

/-- FPC: where the lowest-numbered arrived warp waits for the phase, be it at its `barw`; else where it arrived (R368). -/
def barrierPc (s : State) (cluster : Bool) (bid : Nat) (x : Barrier) (bs : List Block) : DWord :=
  let ws := bs.flatMap fun b => (warpsOf s b).filter fun e => decide (mGet 0 x.arrived e.1 ≠ 0)
  match ws.find? fun e => ws.all fun y => decide (e.2.num ≤ y.2.num) with
  | some e => (match (mVals e.2.strands).find? fun t => decide (t.wait = .barrier cluster bid x.phase) with
    | some t => pcOf t | none => x.pc)
  | none => x.pc

/-- The diagnostic record of R381. -/
def wdogBytes (s : State) (cluster : Bool) (bid : Nat) (x : Barrier) (fpc : DWord) (first : Block) (rest : List Block) : List Byte :=
  let bs := first :: rest
  let live := (bs.map fun b => ((warpsOf s b).map fun e => laneCount e.2.live).sum).sum
  let es := (bs.zipIdx.map fun e => strandEntries s x e.2 e.1).flatten
  bytesOfNat 1 0x0F ++ bytesOfNat 1 (if cluster then 1 else 0) ++ bytesOfNat 1 bid ++
  bytesOfNat 1 (if x.count = some 0 then 1 else 0) ++
  laneField (match x.count with | some 0 | none => live | some n => n) ++
  laneField ((x.arrived.map fun e => laneCount e.2).sum) ++
  bytesOfNat 4 first.launch ++ bytesOfNat 4 first.b ++ bytesOfNat 8 fpc.toNat ++ bytesOfNat 2 es.length ++
  bytesOfNat 1 bs.length ++ bytesOfNat 5 0 ++ barrierBits s x first ++
  (rest.flatMap fun b => bytesOfNat 4 b.b ++ bytesOfNat 4 0 ++ barrierBits s x b) ++ es.flatten

/-- `WDOG_EXPIRE`: the barrier that expired first ends its context with status 3. -/
def execWdogExpire (block : Nat) (cluster : Bool) (bid : Nat) (s : State) : Host.Outcome State Fault Refusal := finish s <|
  match mLook s.blocks block with
  | none => skip
  | some b =>
    let all := expired s b.ctx
    match all.find? fun y => decide (y.blk = block) && decide (y.cluster = cluster) && decide (y.bid = bid) with
    | none => skip
    | some y =>
      if !all.all (expiresFirst y) then skip
      else
        let g := (mLook s.groups b.group).getD ⟨[], 0, []⟩
        let x := if cluster then mGet {} g.bars bid else mGet {} b.bars bid
        let bs := if cluster then (g.blocks.filterMap (mLook s.blocks)).filter fun k => !k.completed else [b]
        let fpc := barrierPc s cluster bid x bs
        terminate b.ctx (wdogBytes s cluster bid x fpc (bs.headD b) (bs.drop 1)) (some b.launch) fpc 3

end Sys2Proof.Machine
end

