-- ==== Sys2Proof/Machine/Links.lean ====
section
/-! DEFINITION. The fault ring and the answers to page faults (25_traps_faults R394, 27_system_interfaces R416), the
host's accesses through CXL (R414, R415) and peer devices over Buryx (R193, R399, R422). -/

namespace Sys2Proof.Machine

/-! ## Page faults (R394, R416) -/

/-- The 32 bytes of a fault record. -/
def faultBytes (id : Nat) (f : PageFault) : List Byte :=
  bytesOfNat 1 f.ctx ++ bytesOfNat 1 f.kind ++ bytesOfNat 1 f.die ++ bytesOfNat 1 0 ++ bytesOfNat 4 id ++
    bytesOfNat 8 (f.page * 4096) ++ bytesOfNat 16 0

/-- Slots of the ring in use: FPI − FCI. -/
def ringUsed (m : Mgmt) : Nat := (m.fpi - m.fci).toNat

/-- The oldest fault not yet written to the ring. -/
def nextReport (s : State) : Option Nat := (s.faults.find? fun e => !e.2.reported).map (·.1)

/-- `PAGE_FAULT_RECORD`: the record is committed to its slot, and then FPI advances. -/
def execPageFaultRecord (fault : Nat) (s : State) : Host.Outcome State Fault Refusal := finish s <|
  match mLook s.faults fault, s.mgmt.ringBase with
  | some f, some base =>
    if nextReport s ≠ some fault || decide (s.mgmt.ringCount ≤ ringUsed s.mgmt) then skip
    else
      andThen (eff (.bytes (5 * 2 ^ 64 + base.toNat + 32 * (s.mgmt.fpi.toNat % s.mgmt.ringCount)) (faultBytes fault f))) <|
      andThen (eff (.fault fault { f with reported := true })) <|
      andThen (updMgmt fun m => { m with fpi := m.fpi + 1, msi := mIns m.msi 1 (mGet 0 m.msi 1 + 1) }) bump
  | _, _ => skip

/-- The context of a warp. -/
def ctxOfWarp (s : State) (x : Warp) : Option Nat := (mLook s.blocks x.block).map (·.ctx)

/-- Every waiter of a page takes its answer (R394): a strand held there, a parked part, an engine operation. -/
def answerWaiters (cid page : Nat) (fail : Bool) : Act := look fun s =>
  let strand (t : Strand) : Strand :=
    { t with held := if t.held = some (page, false) then (if fail then some (page, true) else none) else t.held,
             shadow := if fail then t.shadow.map fun p =>
                 if p.ctx = cid ∧ p.pages.contains page then { p with failed := page :: p.failed } else p
               else t.shadow }
  andThen (fun s => (s.warps.filter fun e => decide (ctxOfWarp s e.2 = some cid)).map fun e =>
    .warp e.1 (onEvery strand e.2)) <|
  forAll (fun (e : Nat × EngOp) =>
    if e.2.asked.contains (cid, page) then
      eff (.eng e.1 { e.2 with asked := e.2.asked.erase (cid, page),
                               failed := if fail then (cid, page) :: e.2.failed else e.2.failed })
    else skip) s.engs

/-- A write of FRESP: the answer to a fault that the host has been told of; another id is ignored. -/
def answerFault (fault : Nat) (fail : Bool) : Act := look fun s =>
  match mLook s.faults fault with
  | none => skip
  | some f =>
    if !f.reported then skip
    else andThen (eff (.dropFault fault)) (andThen (answerWaiters f.ctx f.page fail) bump)

/-- `FAULT_RETRY`: the waiters walk again. -/
def execFaultRetry (fault : Nat) (s : State) : Host.Outcome State Fault Refusal := finish s (answerFault fault false)
/-- `FAULT_FAIL`: the waiters end in XLATE. -/
def execFaultFail (fault : Nat) (s : State) : Host.Outcome State Fault Refusal := finish s (answerFault fault true)

/-- The CXL link is up: trained from state 0x01 on, dropped by a thermal trip (R427, R428). -/
def cxlUp (s : State) : Bool := decide (s.mgmt.stage ≠ 0) && decide (s.mgmt.stage ≠ 0xF1) && decide (s.mgmt.stage ≠ 0xF2)
/-- The Buryx ports are: trained in state 0x04, disabled by a thermal trip. -/
def buryxUp (s : State) : Bool := decide (s.mgmt.stage = 4) || decide (s.mgmt.stage = 0x10)

/-- `FCI_WRITE`: an index that moves backward or beyond FPI is ignored. -/
def execFciWrite (v : Word) (s : State) : Host.Outcome State Fault Refusal := finish s <|
  if cxlUp s && decide ((v - s.mgmt.fci).toNat ≤ ringUsed s.mgmt) then andThen (updMgmt fun m => { m with fci := v }) bump else skip

/-! ## CXL (R414, R415) -/

/-- Some leaf of a table, of those a test takes, maps the byte of key `k`. -/
def tableMaps (mem : List Host.Cell) (k : Nat) (leaf : DWord → Bool) : Nat → Nat → Bool
  | 0, _ => false
  | n + 1, table => (List.range 512).any fun j =>
    let e := BitVec.ofNat 64 (bytesAt mem (table + 8 * j) 8)
    pteV e && (if pteLeaf e then leaf e && decide (pteKey e ≤ k) && decide (k < pteKey e + pageBytes n)
      else tableMaps mem k leaf n (table / 2 ^ 64 * 2 ^ 64 + pteFrame e))
/-- Some page of a context that the test takes maps the byte. -/
def ctxMaps (s : State) (c : Context) (k : Nat) (leaf : DWord → Bool) : Bool := tableMaps s.mem k leaf 5 (pteKey c.root)

/-- A page that a context maps, or that a TLB still holds, marks the byte uncached-shared (R187). -/
def ucsKey (s : State) (k : Nat) : Bool :=
  ((mVals s.cores).any fun c => (mVals c.tlb).any fun e => pteUcs e.1 && decide (pteKey e.1 ≤ k) && decide (k < pteKey e.1 + e.2)) ||
  (mVals s.ctxs).any fun c => ctxMaps s c k pteUcs
/-- A byte of secure-world memory, by 64 MiB ranges (R419). -/
def secureKey (s : State) (k : Nat) : Bool := s.mgmt.secureRanges.contains (k / 2 ^ 26)
/-- A byte lies in a sealed range of some context (R193). -/
def sealedKey (s : State) (k : Nat) : Bool :=
  (mVals s.ctxs).any fun c => c.sealed.any fun r => keyInRange s c r.1 (r.2 / 4096) k

/-- The 16 words of a 64-byte line within its block of 32. -/
def lineMask (line : Nat) : Mask := if line % 2 = 0 then 0xFFFF else 0xFFFF0000

/-- Some byte of a range lies in a sealed range. -/
def sealedBytes (s : State) (k n : Nat) : Bool := (List.range n).any fun j => sealedKey s (k + j)

/-- `HOST_MEM_READ` of a 64-byte line of device memory: the host is one sharer of its words (R415), but for a page that is
uncached-shared (R187) or sealed (R184). -/
def execHostMemRead (pa : Nat) (s : State) : Host.Outcome State Fault Refusal := finish s <|
  let line := pa / 64
  if !deviceRange pa 1 || !cxlUp s then skip
  else if secureKey s pa || locBad s (.glob (64 * line)) 64 then updMgmt fun m => { m with hostReply := none }
  else
    andThen (if ucsKey s pa || sealedKey s pa then skip else recordShare (line / 2) 1000 (lineMask line))
      (updMgmt fun m => { m with hostReply := some (listAt s.mem (64 * line) 64) })

/-- A write event of another agent at the home; it clears the error mark of each word it replaces. -/
def writeEvent (k : Nat) (bs : List Byte) : Act :=
  andThen (eff (.bytes k bs)) fun s => if s.bad.isEmpty then [] else
    [.bad (s.bad.filter fun y => match y with | .glob j => !(decide (k ≤ j) && decide (j + 4 ≤ k + bs.length)) | _ => true)]

/-- `HOST_MEM_WRITE` within a 64-byte line of device memory. -/
def execHostMemWrite (pa : Nat) (bytes : List Byte) (s : State) : Host.Outcome State Fault Refusal := finish s <|
  if !deviceRange pa bytes.length || !cxlUp s || decide (64 < pa % 64 + bytes.length) then skip
  else if secureKey s pa || sealedBytes s pa bytes.length then
    updMgmt fun m => { m with hostReply := none }
  else andThen (writeEvent pa bytes) (andThen (updMgmt fun m => { m with hostReply := some [] }) bump)

/-- `HOST_SNOOP` of a 64-byte line of host memory: its words leave the L1 sharers. -/
def execHostSnoop (line : Nat) (s : State) : Host.Outcome State Fault Refusal := finish s fun s =>
  if line * 64 / 2 ^ 64 = 5 ∧ cxlUp s then
    (s.dir.filter fun e => decide (e.1 / 1024 = line / 2)).map fun e => .share e.1 (e.2 &&& ~~~(lineMask line))
  else []

/-- The host or a peer device writes its own memory. -/
def outsideWrite (k : Nat) (bs : List Byte) : Act :=
  if deviceKeys ≤ k then andThen (writeEvent k bs) bump else skip

/-! ## Buryx (R193, R399, R422) -/

/-- `PEER_WORD_POLL`: a `waitm` or `await` reads its word again. -/
def execPeerWordPoll (w st : Nat) (s : State) : Host.Outcome State Fault Refusal := finish s <|
  match strandAt s w st with
  | none => skip
  | some i => match i.st.wait with
    | .met _ => reevaluate w st
    | .cond (.mem _ _ _ _) _ _ => andThen (updStrand w st fun t => { t with idleAt := 0 }) bump
    | _ => skip

/-- `BURYX_LINK_DOWN`: while a route to the peer remains its accesses go on over it; with none left, they end as
DATAERR with source 2 from then on. Accesses in flight to the peer are over first. -/
def execBuryxLinkDown (dev : Nat) (routeLeft : Bool) (s : State) : Host.Outcome State Fault Refusal := finish s <|
  let out := s.ops.any fun e => e.2.units.any fun u => !u.done && (match u.loc with
    | .glob k => decide (k / 2 ^ 64 = 6 + dev) | .scr _ _ => false)
  if routeLeft then
    updMgmt fun m => { m with routes := match m.routes.find? fun r => decide (r.1 = dev) with
      | some r => m.routes.erase r | none => m.routes }
  else if out then skip
  else andThen (updMgmt fun m =>
    { m with routes := m.routes.filter fun r => decide (r.1 ≠ dev)
             linksDown := if m.linksDown.contains dev then m.linksDown else dev :: m.linksDown }) bump

/-- The bytes a peer's request names, and whether it is one a peer can make. -/
def peerSpan : PeerAccess → Nat × Nat × Bool
  | .load pa n => (pa, n, true)
  | .store pa bs => (pa, bs.length, true)
  | .atom pa sop wide _ _ => (pa, if wide then 8 else 4, decide (sop.toNat < 16))
def peerReads : PeerAccess → Bool | .store _ _ => false | _ => true
def peerWrites : PeerAccess → Bool | .load _ _ => false | _ => true

/-- What a peer's request does at its home once nothing stands against it: the bytes it reads, and its write. -/
def peerEffect (s : State) : PeerAccess → List Byte × Act
  | .load pa n => (listAt s.mem pa n, skip)
  | .store pa bs => ([], writeEvent pa bs)
  | .atom pa sop wide e e2 =>
    let n := if wide then 8 else 4
    let old := bytesAt s.mem pa n
    (bytesOfNat n old, match atomNew sop.toNat n old (e.toNat % 2 ^ (8 * n)) (e2.toNat % 2 ^ (8 * n)) with
      | some v => writeEvent pa (bytesOfNat n v)
      | none => skip)

/-- The answer to a peer's request and what it does here: a write to a sealed range raises SEAL at the peer's instruction
(R193), a read of an uncorrectable word DATAERR (R400); a request for no memory of this device is refused. -/
def peerResult (s : State) (x : PeerAccess) : PeerReply × Act :=
  let (pa, n, ok) := peerSpan x
  if !ok || !buryxUp s || decide (n = 0) || decide (pa % n ≠ 0) || !deviceRange pa n then (.refused, skip)
  else if peerWrites x && sealedBytes s pa n then (.trap .sealed, skip)
  else if peerReads x && locBad s (.glob pa) n then (.trap .dataerr, skip)
  else (.data (peerEffect s x).1, andThen (peerEffect s x).2 bump)

/-- `BURYX_PEER_ACCESS`: a request of a peer device is performed at its home here, or ends as `peerResult` says. -/
def execBuryxPeerAccess (_dev : Nat) (x : PeerAccess) (s : State) : Host.Outcome State Fault Refusal := finish s <|
  andThen (peerResult s x).2 (updMgmt fun m => { m with peerReply := (peerResult s x).1 })

end Sys2Proof.Machine
end

