-- ==== Sys2Proof/Machine/Manage.lean ====
section
/-! DEFINITION. The management ports and their commands (27_system_interfaces R417 to R421), debug, trace and sampling
(R409, R423 to R425), power and cooling (R426, R427), bring-up (R428), retirement (25_traps_faults R401). -/

namespace Sys2Proof.Machine

/-! ## Answers (R417, R418, R420, R427, R428) -/

/-- The answer of a port; the mailbox signals completion with vector 0 (R413). -/
def answer (p : Port) (r : Reply) : Act := updMgmt fun m => match p with
  | .i3c => { m with i3c := r }
  | .mailbox => { m with mailbox := r, msi := mIns m.msi 0 (mGet 0 m.msi 0 + 1) }

/-- Which commands a restricted state still runs. -/
inductive CommandClass where
  | plain | spdm | version | errLog | faultRing | sem | route
  deriving DecidableEq, Repr

/-- What a port does with a command of a class: runs it (`none`), or gives this answer instead. -/
def screen (m : Mgmt) (p : Port) (k : CommandClass) : Option Reply :=
  if m.stage = 0xF2 then
    if p ≠ .i3c then some .silent
    else if k = .errLog ∨ k = .sem ∨ k = .version then none else some .busy
  else if m.stage = 0xF1 then (if p = .i3c ∧ k = .version then none else some .silent)
  else if m.stage = 0 ∧ p ≠ .i3c then some .silent
  else if m.stage = 0x10 then none
  else match k with
    | .plain => some .busy
    | .route => if m.stage = 4 then none else some .busy
    | _ => none

/-- A command: it counts as a sign of life of a holder of the semaphore, and one that needs the semaphore is Busy
without it. -/
def command (p : Port) (k : CommandClass) (needsSem : Bool) (a : Act) : Act :=
  andThen (look fun s => updMgmt fun m => { m with heardAt := if m.holder = some p then s.now else m.heardAt }) <|
  look fun s =>
    match screen s.mgmt p k with
    | some .silent => skip
    | some r => answer p r
    | none => if needsSem && decide (s.mgmt.holder ≠ some p) then answer p .busy else a

/-- Runs `a` and answers success, where the inputs are good; else answers Invalid Input. -/
def accepted (p : Port) (good : Bool) (a : Act) : Act :=
  if good then andThen a (andThen (answer p (.ok [])) bump) else answer p .invalid

/-- Adds an entry to the error log, signalled by vector 2 (R413). -/
def logEntry (e : LogEntry) : Act :=
  updMgmt fun m => { m with errLog := m.errLog ++ [e], msi := mIns m.msi 2 (mGet 0 m.msi 2 + 1) }

/-! ## Contexts (R417, R342) -/

/-- A quota of launches (R342). -/
def launchQuotaOk (n : Nat) : Bool := (List.range 11).any fun j => decide (n = 64 * 2 ^ j)

def execCtxCreate (port : Port) (x : CtxArgs) (s : State) : Host.Outcome State Fault Refusal := finish s <|
  command port .plain false <| accepted port
    (decide (x.ctx < 64) && (mLook s.ctxs x.ctx).isNone && launchQuotaOk x.launchQuota && decide (x.queueQuota ≤ 2 ^ 24) &&
      x.parts.all (fun p => decide (p < 16)) && (!x.secure || (x.inSession && s.mgmt.session)))
    (eff (.ctx x.ctx
      { root := x.root, save := x.save, diag := x.diag, launchQuota := x.launchQuota, queueQuota := x.queueQuota,
        hostTier := x.hostTier, peerTier := x.peerTier, secure := x.secure, parts := x.parts }))

/-- The termination has no trap: the model writes no diagnostic record for it. -/
def execCtxDestroy (port : Port) (ctx : Nat) (s : State) : Host.Outcome State Fault Refusal := finish s <|
  command port .plain false <| accepted port (mLook s.ctxs ctx).isSome (andThen (terminate ctx [] none 0 2) (andThen (freeHeld ctx []) (eff (.dropCtx ctx))))

/-! ## Partitions, cores and queues (R346, R347, R358, R419) -/

/-- A range reaches secure-world memory. -/
def touchesWorld (m : Mgmt) (r : Nat × Nat) : Bool := m.secureRanges.any fun k => rangeHit r.1 r.2 (k * 2 ^ 26) (2 ^ 26)

/-- A core is to join a partition: at once when it is idle (R347). -/
def moveCore (core part : Nat) : Act :=
  andThen (updCore core fun x => { x with next := some part }) (joinIdle core)

/-- Sharers that act for no core of the owner of a block's memory lose their words (R186): a core of another partition,
and the L2 slice of a die no core of the owner shares it from. -/
def withdrawSharers (part : Nat) (ranges : List (Nat × Nat)) : Act := fun s =>
  let mine (e : Nat × Mask) : Bool := decide (e.1 % 1024 < 1000) && decide ((coreOf s (e.1 % 1024)).part = some part)
  let stays (e : Nat × Mask) : Bool :=
    decide (e.1 % 1024 = 1000) || mine e ||
      (s.dir.any fun y => mine y && decide (y.1 / 1024 = e.1 / 1024) && decide (dieAgent (y.1 % 1024 / Config.coresPerDie) = e.1 % 1024))
  (s.dir.filter fun e => touchesAny ranges (128 * (e.1 / 1024)) 128 && !stays e).map fun e => .share e.1 0

def execPartSet (port : Port) (x : PartArgs) (s : State) : Host.Outcome State Fault Refusal := finish s <|
  command port .plain true <| accepted port
    (decide (x.part < 16) && x.cores.all (fun c => decide (c < Config.cores)) && x.reserved.all x.cores.contains &&
      x.ranges.all (fun r => deviceRange r.1 r.2) &&
      s.parts.all (fun e => decide (e.1 = x.part) || e.2.ranges.all fun r => x.ranges.all fun q => !rangeHit r.1 r.2 q.1 q.2) &&
      (!(x.touchesSecure || x.cores.any (fun c => (coreOf s c).secure) || x.ranges.any (touchesWorld s.mgmt)) ||
        (x.inSession && s.mgmt.session)))
    (look fun s =>
      let old := partOf s x.part
      andThen (eff (.part x.part { old with ranges := x.ranges, reserved := x.reserved })) <|
      andThen (forAll (fun c => moveCore c x.part) (x.cores.filter fun c => !old.cores.contains c)) <|
      withdrawSharers x.part (x.ranges ++ old.ranges))

def execCoreMove (port : Port) (core part : Nat) (s : State) : Host.Outcome State Fault Refusal := finish s <|
  command port .plain true <| accepted port
    (decide (core < Config.cores) && decide (part < 16) && (!(coreOf s core).secure || s.mgmt.session))
    (andThen (moveCore core part) (requestSave core))

def execQueueCreate (port : Port) (x : QueueArgs) (s : State) : Host.Outcome State Fault Refusal := finish s <|
  command port .plain false <| accepted port
    (decide (x.part < 16) && decide (x.queue < 1024) && (mLook s.ctxs x.ctx).isSome &&
      (mLook s.queues (x.part * 1024 + x.queue)).isNone)
    (eff (.queue (x.part * 1024 + x.queue) { ctx := x.ctx, part := x.part, ring := x.ring, size := x.size }))

/-! ## Translation and faults (R395, R416) -/

/-- A TLB entry of a context maps part of a range. -/
def tlbHit (ctx base len key : Nat) (e : DWord × Nat) : Bool :=
  let va := key % 2 ^ 52 * 4096
  decide (key / 2 ^ 52 = ctx) && rangeHit (va / e.2 * e.2) e.2 (base % 2 ^ 57) len

/-- `XLATE_INV`, at its completion: no access of the context to global memory is in flight, and no TLB holds the range. -/
def execXlateInv (port : Port) (ctx : Nat) (base len : DWord) (s : State) : Host.Outcome State Fault Refusal := finish s <|
  let busy := s.ops.any fun e => decide (e.2.ctx = ctx) && e.2.units.any fun u => !u.done && (match u.loc with
    | .glob _ => true | .scr _ _ => false)
  if busy then skip
  else command port .plain false <| accepted port (mLook s.ctxs ctx).isSome fun s =>
    s.cores.map fun c => .core c.1 { c.2 with tlb := c.2.tlb.filter fun e => !tlbHit ctx base.toNat len.toNat e.1 e.2 }

def execFaultRing (port : Port) (base : DWord) (count : Nat) (s : State) : Host.Outcome State Fault Refusal := finish s <|
  command port .faultRing true <|
    if !(decide (base.toNat % 4096 = 0) && (List.range 13).any fun j => decide (count = 16 * 2 ^ j)) then answer port .invalid
    else if s.mgmt.ringBase.isSome && decide (s.mgmt.fpi ≠ s.mgmt.fci) then answer port .busy
    else accepted port true (updMgmt fun m => { m with ringBase := some base, ringCount := count, fpi := 0, fci := 0 })

/-! ## Debug, trace and sampling (R409, R423 to R425) -/

def execDebugStop (port : Port) (ctx : Nat) (on : Bool) (s : State) : Host.Outcome State Fault Refusal := finish s <|
  command port .plain false <| accepted port (mLook s.ctxs ctx).isSome (updCtx ctx fun c => { c with debugStop := on })

/-- The stopped strand of a context whose lowest member has a name, be its block resident or saved (R409). -/
def stoppedAt (s : State) (ctx : Nat) (name : ThreadName) : Option Iss :=
  (s.warps.flatMap fun e => e.2.strands.map fun t => (e.1, t.1)).findSome? fun x => (issAt s x.1 x.2).filter fun i =>
    decide (i.cid = ctx) && decide (i.st.wait = .debugStop) && decide (lowName i = name)

def execDebugResume (port : Port) (ctx : Nat) (name : ThreadName) (s : State) : Host.Outcome State Fault Refusal := finish s <|
  command port .plain false <| match stoppedAt s ctx name with
    | some i => accepted port true (advance i 1)
    | none => answer port .invalid

def execTraceCfg (port : Port) (core : Nat) (x : TraceArgs) (s : State) : Host.Outcome State Fault Refusal := finish s <|
  command port .plain false <| accepted port
    (decide (core < Config.cores) && decide (x.start.pcs.length ≤ 4) && decide (x.stop.pcs.length ≤ 4))
    (updCore core fun c => { c with tracer := some { args := x } })

/-- `TRACE_CONDITION`: a condition that an event counter reaches. PC comparators and pennants act where they arise. -/
def execTraceCondition (core : Nat) (start stop : Bool) (s : State) : Host.Outcome State Fault Refusal :=
  finish s (traceTurn core start stop)

def execSampleCfg (port : Port) (x : SampleArgs) (s : State) : Host.Outcome State Fault Refusal := finish s <|
  command port .plain false <| accepted port
    (x.cores.all (fun c => decide (c < Config.cores)) && decide (6 ≤ x.period) && decide (x.period ≤ 24))
    (forAll (fun c => look fun s => updCore c fun k =>
      { k with sampler := some { period := x.period, buffer := x.buffer, since := cycleOf s c } }) x.cores)

/-- The reasons that fit what a strand waits on (R424). -/
def reasonFits (x : Warp) (t : Strand) (r : Nat) : Bool :=
  if t.trap.isSome then decide (r = 12)
  else if !t.shadow.isEmpty && decide (issuing t = 0) then decide (r = 11)
  else match t.wait with
    | .stall n => decide (r = n) || (!x.active && decide (r = 9))
    | .barrier _ _ _ => decide (r = 5)
    | .met _ | .cond _ _ _ => decide (r = 6)
    | .commit _ _ _ _ => decide (r = 10)
    | .getting _ _ _ _ _ | .putting _ _ => decide (r = 7)
    | .debugStop => decide (r = 12)
    | .none => [0, 8, 9, 14].contains r
    | _ => decide (r ≤ 14)

/-- The 48 bytes of a sample. -/
def sampleBytes (core sub cycle : Nat) (pc producer : DWord) (reason : Nat) (name : List Byte) : List Byte :=
  bytesOfNat 8 pc.toNat ++ bytesOfNat 8 producer.toNat ++ bytesOfNat 1 reason ++ bytesOfNat 1 sub ++ bytesOfNat 2 core ++
    bytesOfNat 4 0 ++ bytesOfNat 8 cycle ++ name

/-- `STALL_SAMPLE`: the sampler's next issue slot is sampled, 2^n cycles after the one before. -/
def execStallSample (core : Nat) (x : SampleTaken) (s : State) : Host.Outcome State Fault Refusal := finish s <|
  match (coreOf s core).sampler with
  | none => skip
  | some p =>
    let sub := p.turn / 2 % Config.subcores
    let put (bs : List Byte) : Act := updCore core fun c =>
      { c with sampler := some (if x.full then { p with turn := p.turn + 1, dropped := p.dropped + 1 }
                                else { p with turn := p.turn + 1, samples := p.samples ++ [bs] }) }
    if cycleOf s core < p.since + (p.turn + 1) * 2 ^ p.period ∨ (x.reason ≠ 1 ∧ x.producer ≠ 0) then skip
    else if x.reason = 15 then
      if (residents s core sub).isEmpty then put (sampleBytes core sub (cycleOf s core) 0 0 15 (bytesOfNat 16 0)) else skip
    else match strandAt s x.w x.st with
      | none => skip
      | some i =>
        if i.core ≠ core ∨ i.warp.sub ≠ sub ∨ !reasonFits i.warp i.st x.reason then skip
        else put (sampleBytes core sub (cycleOf s core) (pcOf i.st) x.producer x.reason (nameBytes (lowName i)))

/-! ## Power and cooling (R426, R427) -/

def execPowerStep (port : Port) (step : Nat) (s : State) : Host.Outcome State Fault Refusal := finish s <|
  command port .plain true <| accepted port (decide (step ≤ 4)) (updMgmt fun m => { m with stepSet := step, step := step })

/-- The controller moves to a step, and logs the move. -/
def moveStep (n : Nat) : Act := look fun s =>
  if s.mgmt.step = n then skip else andThen (updMgmt fun m => { m with step := n }) (logEntry (.powerMove n))

def execPowerStepDownAuto (s : State) : Host.Outcome State Fault Refusal := finish s (moveStep (min 4 (s.mgmt.step + 1)))
def execPowerStepBack (s : State) : Host.Outcome State Fault Refusal := finish s (moveStep s.mgmt.stepSet)
def execThermalStep4 (s : State) : Host.Outcome State Fault Refusal := finish s (moveStep 4)

/-- Every context and everything it held is lost, and device memory reads zero again (R427, R428). -/
def loseAll : Act := fun s =>
  s.warps.map (fun e => .dropWarp e.1) ++ s.blocks.map (fun e => .dropBlock e.1) ++
  s.groups.map (fun e => .dropGroup e.1) ++ s.launches.map (fun e => .dropLaunch e.1) ++
  s.ctxs.map (fun e => .dropCtx e.1) ++ s.queues.map (fun e => .dropQueue e.1) ++ s.pool.map (fun e => .dropPage e.1) ++
  s.ops.map (fun e => .dropOp e.1) ++ s.engs.map (fun e => .dropEng e.1) ++ s.faults.map (fun e => .dropFault e.1) ++
  s.dir.map (fun e => .share e.1 0) ++ s.cores.map (fun e => .core e.1 {}) ++
  [.locks [], .bad [], .wipe deviceKeys]

/-- `THERMAL_TRIP`: no record is written; only the log entry remains. -/
def execThermalTrip (die temp : Nat) (s : State) : Host.Outcome State Fault Refusal := finish s <|
  andThen loseAll (updMgmt fun m => { m with stage := 0xF2, errLog := m.errLog ++ [.trip die temp] })

/-! ## Bring-up (R420, R428) -/

/-- The boot ROM runs, to find of the image what the outcome says: the device stands in state 0x00 and starts from
nothing, but for the log it is given. -/
def boot (x : BootOutcome) (log : List LogEntry) : Act :=
  andThen loseAll <|
  andThen (fun s => s.parts.map fun e => .dropPart e.1) <|
  andThen (eff (.mgmt { booting := some x.verified, errLog := log, goodCores := x.goodCores, cabled := x.cabled }))
    (eff (.launchIds 1))

/-- `RESET`: in state 0x00 the boot ROM runs; the further states follow as `bringUp`. -/
def execReset (x : BootOutcome) (s : State) : Host.Outcome State Fault Refusal := finish s (boot x [])

/-- `THERMAL_RESET`: the module leaves state 0xF2 through a reset, which the log survives. -/
def execThermalReset (x : BootOutcome) (s : State) : Host.Outcome State Fault Refusal := finish s <|
  if s.mgmt.stage = 0xF2 then boot x s.mgmt.errLog else skip

/-- `FIRMWARE_UPDATE`: answered by the I3C port in recovery only; the new image is measured and verified in its turn. -/
def execFirmwareUpdate (port : Port) (x : BootOutcome) (s : State) : Host.Outcome State Fault Refusal := finish s <|
  if s.mgmt.stage = 0xF1 ∧ port = .i3c then andThen (boot x s.mgmt.errLog) (answer port (.ok [])) else skip

/-- The bring-up state after this one, when the device may enter it. -/
def nextStage (m : Mgmt) : Option Nat :=
  match m.stage with
  | 0 => m.booting.map fun v => if v then 1 else 0xF1
  | 1 => some 2
  | 2 => some (if m.goodCores.length = 4 ∧ m.goodCores.all (fun n => decide (Config.coresPerDie ≤ n)) then 3 else 0xF3)
  | 3 => some 4
  | 4 => if m.cabled ∧ m.routes.isEmpty then none else some 0x10
  | _ => none

/-- The device enters its next bring-up state; in 0x02 every word is written zero. -/
def bringUpStep : Act := look fun s =>
  match nextStage s.mgmt with
  | some n => andThen (if n = 2 then eff (.wipe deviceKeys) else skip) (andThen (updMgmt fun m => { m with stage := n }) bump)
  | none => skip

/-! ## Routes, the log and the semaphore (R417, R418, R422) -/

def execBuryxRoute (port : Port) (dev : Nat) (routes : List (Nat × Nat)) (s : State) : Host.Outcome State Fault Refusal :=
  finish s <| command port .route true <| accepted port (routes.all fun r => decide (r.2 < 12)) (updMgmt fun m =>
    { m with fabricNo := dev, routes := routes
             linksDown := m.linksDown.filter fun d => !(routes.any fun r => decide (r.1 = d)) })

def execErrLog (port : Port) (s : State) : Host.Outcome State Fault Refusal := finish s <|
  command port .errLog false (answer port (.log s.mgmt.errLog))

/-- The next input is I3C's acquisition. -/
def i3cAcquires (s : State) : Bool :=
  match s.agenda with | .event (.semAcquire .i3c) :: _ => true | _ => false

/-- `SEM_ACQUIRE`. Of two in one cycle, I3C's stands: the mailbox's is Busy when I3C's comes next (R429). -/
def execSemAcquire (port : Port) (s : State) : Host.Outcome State Fault Refusal := finish s <|
  command port .sem false <|
    if s.mgmt.holder.isSome || (decide (port = .mailbox) && i3cAcquires s) then
      answer port .busy
    else accepted port true (updMgmt fun m =>
      { m with holder := some port, acquisitions := (m.acquisitions + 1) % 2 ^ 32, heardAt := s.now })

def execSemRelease (port : Port) (s : State) : Host.Outcome State Fault Refusal := finish s <|
  command port .sem false <| accepted port true (updMgmt fun m =>
    { m with holder := if m.holder = some port then none else m.holder })

/-- `SEM_TIMEOUT`: the holder has sent no command for 2^34 cycles. -/
def execSemTimeout (s : State) : Host.Outcome State Fault Refusal := finish s <|
  if s.mgmt.holder.isSome ∧ s.mgmt.heardAt + 2 ^ 34 ≤ s.now then updMgmt fun m => { m with holder := none } else skip

/-! ## SPDM (R421) -/

/-- The world assignments as one number. -/
def worldsNumber (s : State) : Nat :=
  s.cores.foldl (fun n e => if e.2.secure then n + 2 ^ e.1 else n) 0 +
    2 ^ 192 * s.mgmt.secureRanges.foldl (fun n r => n ||| 2 ^ r) 0 +
    s.queues.foldl (fun n e => if e.2.secure then n + 2 ^ (192 + 2 ^ 41 + e.1) else n) 0
/-- The fuse state as one number. -/
def fusesNumber (s : State) : Nat :=
  s.mgmt.goodCores.foldl (fun n c => 64 * n + c) 0 + 2 ^ 24 * s.cores.foldl (fun n e =>
    (if e.2.outOfService then n + 2 ^ e.1 else n) + e.2.retiredSubs.foldl (fun m k => m + 2 ^ (192 + 16 * e.1 + k)) 0) 0

/-- The answer to an SPDM message, by the port it came to: the mailbox's side is CXL DOE. -/
def spdmAnswer (p : Port) (message : Nat) (ws : List Nat) : Act := look fun s =>
  let body := Config.spdmBody message s.tick
  match p with
  | .i3c => answer p (.ok (body :: ws))
  | .mailbox => updMgmt fun m => { m with doe := m.doe ++ (body :: ws).map fun w => (message, w) }

def spdm (p : Port) (k : CommandClass) (message : Nat) (ws : List Nat) (a : Act) : Act :=
  command p k false (andThen a (spdmAnswer p message ws))

def execGetVersion (port : Port) (s : State) : Host.Outcome State Fault Refusal := finish s (spdm port .version 1 [] skip)
def execGetCapabilities (port : Port) (s : State) : Host.Outcome State Fault Refusal := finish s (spdm port .spdm 2 [] skip)
def execNegotiateAlgorithms (port : Port) (s : State) : Host.Outcome State Fault Refusal := finish s (spdm port .spdm 3 [] skip)
def execGetDigests (port : Port) (s : State) : Host.Outcome State Fault Refusal := finish s (spdm port .spdm 4 [] skip)
def execGetCertificate (port : Port) (s : State) : Host.Outcome State Fault Refusal := finish s (spdm port .spdm 5 [] skip)
def execChallenge (port : Port) (s : State) : Host.Outcome State Fault Refusal := finish s (spdm port .spdm 6 [] skip)

/-- The measurements of indices 1 to 5. -/
def measurements (s : State) : List Nat :=
  [Config.measurement 1 0, Config.measurement 2 0, Config.measurement 3 0, Config.measurement 4 (fusesNumber s),
   Config.measurement 5 (worldsNumber s)]
def execGetMeasurements (port : Port) (s : State) : Host.Outcome State Fault Refusal :=
  finish s (spdm port .spdm 7 (measurements s) skip)
def execKeyExchange (port : Port) (s : State) : Host.Outcome State Fault Refusal :=
  finish s (spdm port .spdm 8 [] (updMgmt fun m => { m with keyed := true }))
/-- `FINISH` completes the session that KEY_EXCHANGE opened. -/
def execFinish (port : Port) (s : State) : Host.Outcome State Fault Refusal :=
  finish s (spdm port .spdm 9 [] (updMgmt fun m => { m with session := m.session || m.keyed, keyed := false }))

/-- `OTHER_REGISTER_WRITE`: the rest of the windows ignores writes (R413). -/
def execOtherRegisterWrite (_doorbell : Bool) (_offset : Nat) (_v : DWord) (s : State) : Host.Outcome State Fault Refusal :=
  finish s skip

/-- The security block assigns a world (R419); a core's changes only while it is idle, and it is cleaned first. -/
def setWorld (x : World) (secure : Bool) : Act := look fun s =>
  match x with
  | .core c => if (blocksOn s c).isEmpty then andThen (cleanCore c) (updCore c fun k => { k with secure := secure }) else skip
  | .range r => updMgmt fun m => { m with secureRanges :=
      if !secure then m.secureRanges.filter (· ≠ r) else if m.secureRanges.contains r then m.secureRanges else r :: m.secureRanges }
  | .queue q => updQueue q fun k => { k with secure := secure }

/-! ## Error counts and retirement (R400, R401) -/

/-- A corrected error changes only time and a count. -/
def noteCorrected (src : ErrSource) : Act := look fun s =>
  updMgmt fun m => let m := inWindow s src m; markLasting src { m with errCount := addCount m.errCount src 1 }
/-- An uncorrectable error is counted at its location. -/
def noteUncorrected (src : ErrSource) : Act := look fun s =>
  updMgmt fun m => let m := inWindow s src m; markLasting src { m with badCount := addCount m.badCount src 1 }

/-- `ERROR_COUNT_WINDOW_END`: once the source's window is over, its counts restart. A count that comes first finds the
window over as well. -/
def execErrorCountWindowEnd (src : ErrSource) (s : State) : Host.Outcome State Fault Refusal :=
  finish s (updMgmt (inWindow s src))

/-- The source is idle: for a sub-core, no warp resides or claims room there; for a column store, the core runs no
block; rows and slice locations have copies elsewhere. -/
def sourceIdle (s : State) : ErrSource → Bool
  | .subcore core sub => (holders s core sub).isEmpty
  | .columnStore core _ => (blocksOn s core).isEmpty
  | _ => true

/-- A core leaves service at its next idle point. -/
def retireCore (core : Nat) : Act := updCore core fun x => { x with outOfService := true }

/-- What retirement changes. -/
def retireSource : ErrSource → Act
  | .subcore core sub => look fun s =>
    andThen (updCore core fun x => { x with retiredSubs := sub :: x.retiredSubs, retiring := x.retiring.erase sub })
      (whenA ((coreOf s core).retiredSubs.contains (sub ^^^ 1)) (retireCore core))
  | .columnStore core _ => retireCore core
  | _ => skip

/-- A sub-core's retirement waits for its partner: the partner is full, or was and has not been idle since (R403). -/
def partnerHolds (s : State) : ErrSource → Bool
  | .subcore core sub => let p := sub ^^^ 1
    !(coreOf s core).retiredSubs.contains p && !(holders s core p).isEmpty &&
      ((coreOf s core).retiring.contains sub || decide (freeRegs s core p = 0) || (freeSlots s core p).isEmpty)
  | _ => false
/-- The core of a sub-core whose retirement waits takes no new blocks until then (R403). -/
def noteRetiring : ErrSource → Act
  | .subcore core sub => updCore core fun x => if x.retiring.contains sub then x else { x with retiring := sub :: x.retiring }
  | _ => skip

/-- `RESOURCE_RETIRE`: at an idle point of a source with a lasting fault; a column store's core, or a sub-core in use,
is first saved (R396). A sub-core whose partner is full waits for the partner's idle point (R403). -/
def execResourceRetire (src : ErrSource) (s : State) : Host.Outcome State Fault Refusal := finish s <|
  let m := markLasting src s.mgmt
  if !m.lasting.contains src then skip
  else if partnerHolds s src then noteRetiring src
  else if sourceIdle s src then
    andThen (retireSource src) <|
    andThen (updMgmt fun m => { m with lasting := m.lasting.erase src }) (andThen (logEntry (.retired src)) bump)
  else match src with
    | .subcore core _ | .columnStore core _ => requestSave core
    | _ => skip

/-- A ninth uncorrectable line in a slice (R400): every context whose pages map it ends, and the location is to be
retired. -/
def ninthLine (k : Nat) (src : ErrSource) : Act := look fun s =>
  andThen (forAll (fun (e : Nat × Context) => if ctxMaps s e.2 k fun _ => true then terminate e.1 [] none 0 2 else skip)
    s.ctxs) (updMgmt fun m => if m.lasting.contains src then m else { m with lasting := src :: m.lasting })

end Sys2Proof.Machine
end

