-- ==== Sys2Proof/Machine/Matrix.lean ====
section
/-! DEFINITION. The matrix engine (16_matrix_engine R261 to R273, 17_ref_matrix R275 to R286, and R238 to R241 of
14_program_scaled_tile): the accumulator and its slots, what each queued operation does at its turn, the pinned
pool, and the instructions 0xC0 to 0xCD. -/

namespace Sys2Proof.Machine

/-! ## The accumulator and its slots (R262) -/

/-- The place of a core among those of a block. -/
def coreSlot (b : Block) (core : Nat) : Nat := b.cores.findIdx (· == core)
def accKey (b : Block) (core r c : Nat) : Nat := (coreSlot b core * 512 + r) * 512 + c
def accAt (b : Block) (core r c : Nat) : Word := mGet 0 b.acc (accKey b core r c)
/-- The slot that holds a position, `across` slots lying side by side. -/
def slotKey (b : Block) (across core r c : Nat) : Nat := coreSlot b core * 16 + r / 128 * across + c / 128
/-- Slots side by side in the rectangle of a block of a launch. -/
def slotsAcross (l : Launch) : Nat := roundUp l.acols 128 / 128
def acrossOf (s : State) (b : Block) : Nat := match mLook s.launches b.launch with | some l => slotsAcross l | none => 1
def statAt (b : Block) (k : Nat) : TileStat := mGet {} b.stats k

/-- Writes elements of the accumulator: row, column, word. -/
def putAcc (blk core : Nat) (l : List (Nat × Nat × Word)) : Act := fun s =>
  (updBlock blk (fun b => { b with acc := l.foldl (fun m x => mPut 0 m (accKey b core x.1 x.2.1) x.2.2) b.acc })) s ++
  (if s.bad.isEmpty then [] else match mLook s.blocks blk with
    | some b => [.bad (s.bad.filter fun y => match y with
        | .acc k key => !(decide (k = blk) && l.any fun x => decide (accKey b core x.1 x.2.1 = key)) | _ => true)]
    | none => [])

/-- Row-major positions of a tile. -/
def tileCells (m n : Nat) : List (Nat × Nat) := (List.range m).flatMap fun i => (List.range n).map fun j => (i, j)

/-- An element of a tile holds an uncorrectable word (R399). -/
def accBad (s : State) (blk core row col m n : Nat) : Bool :=
  if s.bad.isEmpty then false else
  match mLook s.blocks blk with
  | some b => (tileCells m n).any fun x => s.bad.contains (.acc blk (accKey b core (row + x.1) (col + x.2)))
  | none => false
/-- A word of a scratch range is uncorrectable: its offset. -/
def scratchBad (s : State) (blk lo n : Nat) : Option Nat := s.bad.findSome? fun y => match y with
  | .scr b o => if b = blk ∧ o < lo + n ∧ lo < o + 4 then some o else none
  | _ => none

/-! ## Exact values (R243, R244, R267) -/

/-- An operand element's exact value. -/
def elemValue (fmt code : Nat) : FV :=
  match fmt with
  | 6 => fDecode fBF16 false code
  | 7 => fDecode fF16 false code
  | _ => nDecode fmt code
/-- A product of two elements; of LNS6 through the table (R245). -/
def elemProduct (af ac bf bc : Nat) : FV :=
  if af = 5 then lnsMul ac bc else (fMul (elemValue af ac) (elemValue bf bc)).1
/-- An exact sum of products; an exact zero is +0 (R267). -/
def sumOf (ps : List FV) : FV :=
  match (fSum .rne ps).1 with
  | .fin _ 0 _ => .fin false 0 0
  | x => x
def shiftBy (x : FV) (k : Int) : FV := match x with | .fin n m e => .fin n m (e + k) | y => y
/-- RNE to f32, subnormals kept (R267). -/
def toF32 (x : FV) : Nat := (fDeliver fF32 atomEnv 0 false x).val
def ofF32 (x : Word) : FV := fDecode fF32 false x.toNat
/-- G is a zero, an infinity, a NaN or a power of two: its product is exact (R267). -/
def exactFactor : FV → Bool
  | .fin _ m _ => decide (m = 0) || decide (m = 2 ^ (bitLen m - 1))
  | _ => true

/-! ## `mma` (R264 to R268) -/

/-- Fields of the format word (R266). -/
def fwA (w : Word) : Nat := w.toNat % 16
def fwB (w : Word) : Nat := w.toNat / 16 % 16
def fwAsc (w : Word) : Bool := w.getLsbD 8
def fwBsc (w : Word) : Bool := w.getLsbD 9
def fwAtr (w : Word) : Bool := w.getLsbD 10
def fwMode (w : Word) : Nat := w.toNat / 4096 % 4
def fwOffA (w : Word) : Nat := w.toNat / 2 ^ 16 % 256
def fwOffB (w : Word) : Nat := w.toNat / 2 ^ 24
/-- The word breaks R266. -/
def fwBad (w : Word) : Bool :=
  let a := fwA w
  let b := fwB w
  let fp (x : Nat) : Bool := decide (x < 5)
  let half (x : Nat) : Bool := decide (x = 6) || decide (x = 7)
  decide (8 < a) || decide (8 < b) || decide (w &&& 0xC800 ≠ 0) || decide (31 < fwOffA w) || decide (31 < fwOffB w) ||
  (isSub a && decide (fwOffA w ≠ 0)) || (isSub b && decide (fwOffB w ≠ 0)) ||
  !((decide (a = 5) && decide (b = 5)) || (half a && half b) || (decide (a = 8) && decide (b = 8)) || (fp a && fp b)) ||
  (fwAsc w && (decide (a = 5) || half a)) || (fwBsc w && (decide (b = 5) || half b)) ||
  (fwAtr w && isSub a) || decide (fwMode w = 3) ||
  (decide (fwMode w = 2) && (decide (a ≠ 8) || decide (b ≠ 8) || fwAsc w || fwBsc w))

/-- The scratch ranges an `mma` reads: A, A's scales, B's scales, each with its block (R265). -/
def mmaScratch (p : MmaParams) (own : Nat) : List (Nat × Nat × Nat) :=
  let size := elemBytes (fwA p.fw)
  let ka := (fwOffA p.fw + p.k - 1) / 32
  let ma := (p.m - 1) / 32
  (p.ablock, p.abase, if fwAtr p.fw then (p.k - 1) * p.astride + p.m * size
    else (p.m - 1) * p.astride + rowEnd (fwA p.fw) p.k) ::
  (if fwAsc p.fw then [(p.ablock, p.ascale, (if fwAtr p.fw then ka * p.asstride + ma else ma * p.asstride + ka) + 1)] else []) ++
  (if fwBsc p.fw then [(own, p.bscale, (fwOffB p.fw + p.k - 1) / 32 * p.bsstride + (p.n - 1) / 32 + 1)] else [])

/-- The operands of an `mma` where they lie (R265). -/
def aCode (sc : Map Byte) (p : MmaParams) (m k : Nat) : Nat :=
  if fwAtr p.fw then codeIn (fwA p.fw) m fun o n => bytesAt sc (p.abase + k * p.astride + o) n
  else codeIn (fwA p.fw) k fun o n => bytesAt sc (p.abase + m * p.astride + o) n
def bCode (bs : Map Byte) (p : MmaParams) (k n : Nat) : Nat :=
  codeIn (fwB p.fw) k fun o w => (List.range w).foldr (fun j x => (mGet 0 bs (p.boff + 128 * (o + j) + n)).toNat + 256 * x) 0
def aScale (sc : Map Byte) (p : MmaParams) (m k : Nat) : Nat :=
  let b := (fwOffA p.fw + k) / 32
  (mGet 0 sc (if fwAtr p.fw then p.ascale + b * p.asstride + m / 32 else p.ascale + m / 32 * p.asstride + b)).toNat
def bScale (sc : Map Byte) (p : MmaParams) (k n : Nat) : Nat :=
  (mGet 0 sc (p.bscale + (fwOffB p.fw + k) / 32 * p.bsstride + n / 32)).toNat

/-- Where the segments of an `mma` begin (R238, R267). -/
def segStarts (p : MmaParams) : List Nat :=
  (List.range p.k).filter fun k => decide (k = 0) ||
    (fwAsc p.fw && decide ((fwOffA p.fw + k) % 32 = 0)) || (fwBsc p.fw && decide ((fwOffB p.fw + k) % 32 = 0))
/-- The segments as runs [k0, k1). -/
def runsTo (stop : Nat) : List Nat → List (Nat × Nat)
  | [] => []
  | [a] => [(a, stop)]
  | a :: b :: r => (a, b) :: runsTo stop (b :: r)

/-- The value v of an element in a segment (R267). -/
def segValue (p : MmaParams) (asc bsc : Map Byte) (bs : Map Byte) (m n k0 k1 : Nat) : FV :=
  let ks := (List.range (k1 - k0)).map (k0 + ·)
  let sum := sumOf (ks.map fun k => elemProduct (fwA p.fw) (aCode asc p m k) (fwB p.fw) (bCode bs p k n))
  let ea := if fwAsc p.fw then aScale asc p m k0 else 127
  let eb := if fwBsc p.fw then bScale bsc p k0 n else 127
  let t := if ea = 255 ∨ eb = 255 then .nan false else shiftBy sum ((ea : Int) - 127 + ((eb : Int) - 127))
  let g := ofF32 p.g
  let v := (fMul t g).1
  if exactFactor g then v else ofF32 (BitVec.ofNat 32 (toF32 v))

/-- The new word of an element in mode 0 or 1 and whether it produces a NaN (R267, R268). -/
def segElem (v : FV) (past : Bool) (old : Word) : Word × Bool :=
  if past then (BitVec.ofNat 32 (toF32 v), v.isNan)
  else
    let r := (fSum .rne [ofF32 old, v]).1
    (BitVec.ofNat 32 (toF32 r), r.isNan && !(ofF32 old).isNan)

/-- The new word in mode 2 (R266): an exact sum modulo 2^32. -/
def segInt (p : MmaParams) (asc : Map Byte) (bs : Map Byte) (m n k0 k1 : Nat) (old : Word) : Word :=
  BitVec.ofNat 32 (ofInt 32 ((old.toNat : Int) + ((List.range (k1 - k0)).map fun j =>
    signed 8 (aCode asc p m (k0 + j)) * signed 8 (bCode bs p (k0 + j) n)).sum))

/-- Records a NaN in the slot of each element of a list, if none stands there (R241, R268). -/
def noteNans (o : EngOp) (p : MmaParams) (kstart : Nat) (l : List (Nat × Nat)) : Act := look fun s =>
  updBlock o.blk fun b =>
    { b with stats := l.foldl (fun m x =>
        let key := slotKey b (acrossOf s b) o.core (p.row0 + x.1) (p.col0 + x.2)
        let st := mGet {} m key
        if st.nan then m
        else mIns m key { st with nan := true, pc := o.pc, seq := BitVec.ofNat 32 o.seq, kstart := BitVec.ofNat 32 kstart,
                                  pos := BitVec.ofNat 32 (x.1 + 65536 * x.2) }) b.stats }

/-- The words of memory that an operation reads for the array: an `mma` its operands, a `tload` its tile. -/
def operandWords (o : EngOp) : List Side :=
  match o.kind with
  | .tload _ _ m n ofs stride => (tileCells m n).map fun x => .scr o.blk (ofs + x.1 * stride + 4 * x.2)
  | .mma p =>
    (mmaScratch p o.blk).flatMap (fun r =>
      (List.range ((r.2.1 + r.2.2 + 3) / 4 - r.2.1 / 4)).map fun j => .scr r.1 (4 * (r.2.1 / 4 + j))) ++
    (List.range p.n).flatMap fun c =>
      (List.range ((p.boff / 128 + rowEnd (fwB p.fw) p.k + 3) / 4 - p.boff / 512)).map fun j =>
        .bst o.core (512 * (p.boff / 512 + j) + c)
  | _ => []

/-- Scratch of a block, and the B store of a core, as an operation sees them: words it has read already keep the values
it read (R205). -/
def scratchSeen (o : EngOp) (blk : Nat) (m : Map Byte) : Map Byte :=
  o.got.foldl (fun y e => match ((operandWords o)[e.1]? : Option Side) with
    | some (.scr b x) => if b = blk then putBytes y x 4 e.2 else y
    | _ => y) m
def bstoreSeen (o : EngOp) (m : Map Byte) : Map Byte :=
  o.got.foldl (fun y e => match ((operandWords o)[e.1]? : Option Side) with
    | some (.bst _ x) => (List.range 4).foldl (fun z p => mPut 0 z (x + 128 * p) (BitVec.ofNat 8 (e.2 / 256 ^ p))) y
    | _ => y) m

/-- Runs the segments of an `mma` in order; a NaN stops it when TRAPNAN was set at issue (R240). -/
def mmaSegments (o : EngOp) (p : MmaParams) : List (Nat × Nat) → Act
  | [] => skip
  | (k0, k1) :: rest => look fun s =>
    match mLook s.blocks o.blk with
    | none => skip
    | some b =>
      let asc := scratchSeen o p.ablock (match mLook s.blocks p.ablock with | some x => x.scratch | none => [])
      let bsc := scratchSeen o o.blk b.scratch
      let bs := bstoreSeen o (coreOf s o.core).bstore
      let past := decide (fwMode p.fw = 1) && decide (k0 = 0)
      let outs := (tileCells p.m p.n).map fun x =>
        let old := accAt b o.core (p.row0 + x.1) (p.col0 + x.2)
        (x, if fwMode p.fw = 2 then (segInt p asc bs x.1 x.2 k0 k1 old, false)
            else segElem (segValue p asc bsc bs x.1 x.2 k0 k1) past old)
      let nans := (outs.filter fun y => y.2.2).map (·.1)
      let put := putAcc o.blk o.core (outs.map fun y => (p.row0 + y.1.1, p.col0 + y.1.2, y.2.1))
      let kstart := fwOffA p.fw + k0
      if nans.isEmpty then andThen put (mmaSegments o p rest)
      else if p.trapnan then
        andThen (noteNans o p kstart (nans.take 1)) <|
        andThen (raisePennants o.w pMNAN) <|
        if p.elected.isNone then skip
        else updWarp o.w fun x => { x with deferred := x.deferred ++
          [{ cause := .mnan, deferred := true, pc := o.pc, seq := o.seq, elected := p.elected,
             extra := BitVec.ofNat 64 (o.seq % 2 ^ 32 + kstart % 2 ^ 16 * 2 ^ 32) }] }
      else
        andThen put <|
        andThen (noteNans o p kstart nans) <|
        andThen (raisePennants o.w pMNAN) (mmaSegments o p rest)

/-- An uncorrectable word among the operands or the tile of an `mma` (R399): the address R231 names. -/
def mmaBad (s : State) (o : EngOp) (p : MmaParams) : Option Nat :=
  if s.bad.isEmpty then none else
  ((mmaScratch p o.blk).findSome? fun r => scratchBad s r.1 r.2.1 r.2.2) <|>
  (s.bad.findSome? fun y => match y with
    | .bst c a => if c = o.core ∧ p.boff ≤ a + 511 ∧ a < p.boff + 128 * rowEnd (fwB p.fw) p.k ∧ a % 128 < p.n then some a else none
    | _ => none) <|>
  (if accBad s o.blk o.core p.row0 p.col0 p.m p.n then some 0 else none)

/-- The head of a core's matrix queue. -/
def queueHead (s : State) (core : Nat) : Option (Nat × EngOp) := (queueOf s core).head?

/-- `MMA_PERFORM` (R261, R267): the `mma` at the head of the core's queue. -/
def execMmaPerform (core : Nat) (s : State) : Host.Outcome State Fault Refusal := finish s <|
  match queueHead s core with
  | some (id, o) => match o.kind with
    | .mma p => match mmaBad s o p with
      | some a => failEngine id o .dataerr a 1
      | none => andThen (mmaSegments o p (runsTo p.k (segStarts p))) (retireEngine id o)
    | _ => skip
  | none => skip

/-! ## The drain chain (R270, R271) -/

/-- An element before its block scale: read, multiplied, and moved by 2^e. -/
def drainSource (c : DrainCtl) (x : Word) : FV :=
  let y : FV := if c.i32 then (let v := signed 32 x.toNat; .fin (decide (v < 0)) v.natAbs 0) else ofF32 x
  let y := match c.g with | some g => ofF32 (BitVec.ofNat 32 (toF32 (fMul y (ofF32 g)).1)) | none => y
  shiftBy y c.e

/-- E of R256; for the targets it does not list a free value (log entry 22). -/
def scaleExponent (fmt : Nat) : Int :=
  match fmt with | 0 => 8 | 1 => 15 | 2 => 4 | 3 => 2 | 4 => 2 | 8 => 6 | 5 => 3 | _ => (Config.scaleExponent fmt : Int)

/-- floor(log₂) of a value's magnitude: `none` for a zero. -/
def floorLog (x : FV) : Option Int := match x with | .fin _ m e => if m = 0 then none else some (e + bitLen m - 1) | _ => none

/-- The block scale of some values (R256). -/
def blockScale (fmt : Nat) (xs : List FV) : Nat :=
  if xs.any FV.isNan then 255
  else if xs.any (fun x => x.isInf true || x.isInf false) then 254
  else match (xs.filterMap floorLog).foldl (fun (a : Option Int) t => match a with | some y => some (max y t) | none => some t) none with
    | none => 0x7F
    | some t => (min 254 (max 0 (t - scaleExponent fmt + 127))).toNat

/-- The last steps of the chain: the code, and whether the element was clipped. -/
def drainCode (c : DrainCtl) (i j : Nat) (x : FV) : Nat × Bool :=
  let mode := if c.stoch then RMode.sr else RMode.rne
  let r := (srSeed (BitVec.ofNat 64 (c.count * 2 ^ 32 + i * 2 ^ 16 + j)) c.seed 0x3C6EF372).toNat
  let wide (f : Fmt) : Nat × Bool :=
    match x with
    | .nan _ => (f.nanBits, false)
    | .inf n => (f.signed n f.maxBits, true)
    | .fin n m e =>
      if m = 0 then (f.signed n 0, false)
      else let y := fRound f mode false r n m e false
        if y.pen &&& pOV ≠ 0 then (f.signed n f.maxBits, true) else (y.val, false)
  match c.fmt with
  | 6 => wide fBF16
  | 7 => wide fF16
  | 9 => wide fF32
  | _ => let y := nConvert c.fmt mode r c.noclip x; (y.val, decide (y.pen &&& pSAT ≠ 0))

/-- The scales of a tile's 32 × 32 blocks, row of blocks by row of blocks. -/
def drainScales (c : DrainCtl) (src : Nat → Nat → FV) : List Nat :=
  if !c.bscale then []
  else (tileCells (c.m / 32) (c.n / 32)).map fun b =>
    blockScale c.fmt ((tileCells 32 32).map fun x => src (32 * b.1 + x.1) (32 * b.2 + x.2))

/-- Every element of a drained tile: code and clipped, then the scales. -/
def drainTile (c : DrainCtl) (acc : Nat → Nat → Word) : List (Nat × Nat × Nat × Bool) × List Nat :=
  let src (i j : Nat) : FV := drainSource c (acc i j)
  let ss := drainScales c src
  ((tileCells c.m c.n).map fun x =>
    let v := src x.1 x.2
    let v := if c.bscale then shiftBy v (127 - ((ss.getD (x.1 / 32 * (c.n / 32) + x.2 / 32) 0 : Nat) : Int)) else v
    (x.1, x.2, drainCode c x.1 x.2 v), ss)

/-- Clipped elements are counted in their slots and raise MSAT (R239). -/
def countClips (o : EngOp) (c : DrainCtl) (outs : List (Nat × Nat × Nat × Bool)) : Act := look fun s =>
  let hit := outs.filter fun x => x.2.2.2
  if hit.isEmpty then skip
  else andThen (updBlock o.blk fun b =>
      { b with stats := hit.foldl (fun m x =>
          let key := slotKey b (acrossOf s b) o.core (c.row + x.1) (c.col + x.2.1)
          let st := mGet {} m key
          mIns m key { st with sat := st.sat + 1 }) b.stats }) (raisePennants o.w pMSAT)

/-! ## The pinned pool (R272, R273) -/

/-- The key of a page of the pool: context, region, page of the region. -/
def poolKey (cid pin page : Nat) : Nat := cid * 2 ^ 26 + pin * 2 ^ 16 + page
/-- The region of a pool key. -/
def pinOf (s : State) (key : Nat) : Option Pin := (mLook s.ctxs (key / 2 ^ 26)).bind fun c => mLook c.pins (key / 2 ^ 16 % 1024)
/-- The backing address of a page. -/
def backing (s : State) (key : Nat) : Nat := match pinOf s key with | some p => p.base + key % 2 ^ 16 * 4096 | none => 0

/-- Resident pages of a die. -/
def resident (s : State) (die : Nat) : List (Nat × PoolPage) :=
  s.pool.filter fun e => decide (e.2.die = die) && !e.2.spilled
/-- The page whose last `gacc` lies furthest back. -/
def victim (s : State) (die : Nat) : Option (Nat × PoolPage) :=
  (resident s die).foldl (fun b e => match b with
    | none => some e
    | some y => if e.2.last < y.2.last then some e else b) none

/-- What an engine access to one page of memory meets, for `a`: it goes on, asks for the page, or fails. -/
def onPage (s : State) (id : Nat) (o : EngOp) (va n : Nat) (writes : Bool) (a : Act) : Act :=
  match sideFate s o (.virt va) n writes with
  | .fine => a
  | .absent page => askPage id o o.ctx page
  | .fail why x e => failEngine id o why x e

/-- Writes the words of a page to its backing addresses (R272), but those of the numbers `made`. -/
def writePage (o : EngOp) (va : Nat) (words : Map Word) (made : List Nat) : Act :=
  forAll (fun j => if made.contains j then skip else sidePut o (.virt (va + 4 * j)) 4 (mGet 0 words j).toNat) (List.range 1024)

/-- p + x in f32, RNE, with the default NaN (R272). -/
def poolAdd (p x : Word) : Nat := homeAdd 4 p.toNat x.toNat

/-- Spills a page, of any context, on behalf of `o` (R273). -/
def spill (s : State) (id : Nat) (o : EngOp) (key : Nat) (pg : PoolPage) (a : Act) : Act :=
  let owner := { o with ctx := key / 2 ^ 26 }
  match sideFate s owner (.virt (backing s key)) 4096 true with
  | .fine => andThen (writePage owner (backing s key) pg.words [])
      (andThen (eff (.page key { pg with spilled := true, words := [] })) a)
  | .absent page => askPage id o owner.ctx page
  | .fail why x e => failEngine id o why x e

/-- Fills a page from its backing contents, spilling one when the pool of the die is full. -/
def fillPage (s : State) (id : Nat) (o : EngOp) (key die : Nat) (a : Act) : Act :=
  let va := backing s key
  let load : Act := look fun s => onPage s id o va 4096 false <|
    andThen (fun s => [.page key { die := die, last := s.tick, words := (List.range 1024).foldl (fun m j =>
      mPut 0 m j (BitVec.ofNat 32 (sideVal s o (.virt (va + 4 * j)) 4))) [] }]) a
  if (resident s die).length < 65536 then load
  else match victim s die with
    | some (k, pg) => spill s id o k pg load
    | none => load

/-- Adds element `e` of a `gacc` into its region (R272, R273), and then does `next`. -/
def gaccAdd (id : Nat) (o : EngOp) (pin row col n ofs stride e : Nat) (next : Act) : Act := look fun s =>
    match mLook s.blocks o.blk, (mLook s.ctxs o.ctx).bind (fun c => mLook c.pins pin) with
    | some b, some p =>
      let byte := ofs + e / n * stride + 4 * (e % n)
      let key := poolKey o.ctx pin (byte / 4096)
      let x := accAt b o.core (row + e / n) (col + e % n)
      let w := byte % 4096 / 4
      let next := andThen (updEng id fun y => { y with pos := e + 1 }) next
      let add (s : State) : Act := match mLook s.pool key with
        | none => skip
        | some pg =>
          if s.bad.contains (.pool key w) then failEngine id o .dataerr (p.base + byte) 1
          else if pg.spilled then
            onPage s id o (p.base + byte) 4 false <| onPage s id o (p.base + byte) 4 true <|
              andThen (fun s => sidePut o (.virt (p.base + byte)) 4
                (poolAdd (BitVec.ofNat 32 (sideVal s o (.virt (p.base + byte)) 4)) x) s)
                (andThen (eff (.page key { pg with last := s.tick })) next)
          else andThen (eff (.page key { pg with last := s.tick, words := mPut 0 pg.words w (BitVec.ofNat 32 (poolAdd (mGet 0 pg.words w) x)) })) next
      if (mLook s.pool key).isSome then look add
      else fillPage s id o key p.die (look add)
    | _, _ => retireEngine id o

/-- Adds the elements of a `gacc` from its position on, one by one, and completes. -/
def gaccFrom (id : Nat) (o : EngOp) (pin row col n ofs stride : Nat) : Nat → Nat → Act
  | 0, _ => retireEngine id o
  | left + 1, e => gaccAdd id o pin row col n ofs stride e (gaccFrom id o pin row col n ofs stride left (e + 1))

/-- The words of a page that a `gflush` has written. -/
def flushed (o : EngOp) (key : Nat) : List Nat :=
  o.done.filterMap fun k => if k / 1024 = key % 2 ^ 16 then some (k % 1024) else none
/-- The uncorrectable word of a page, if it has one. -/
def pageBad (s : State) (key : Nat) : Option Nat :=
  s.bad.findSome? fun y => match y with | .pool k w => if k = key then some w else none | _ => none
/-- The resident pages of a region that a `gflush` has still to write. -/
def toFlush (s : State) (o : EngOp) (pin : Nat) : List (Nat × PoolPage) := s.pool.filter fun e =>
  decide (e.1 / 2 ^ 16 = poolKey o.ctx pin 0 / 2 ^ 16) && !e.2.spilled && decide (o.pos ≤ e.1)

/-- Writes the resident pages of a region, from its position on (R272). -/
def gflushFrom (id : Nat) (o : EngOp) (pin : Nat) : List (Nat × PoolPage) → Act
  | [] => retireEngine id o
  | (key, pg) :: rest => look fun s => onPage s id o (backing s key) 4096 true <|
      match pageBad s key with
      | some w => failEngine id o .dataerr (backing s key + 4 * w) 1
      | none => andThen (writePage o (backing s key) pg.words (flushed o key)) (andThen (updEng id fun y => { y with pos := key + 1 })
          (gflushFrom id o pin rest))

/-! ## Queued operations at their turn (R261) -/

/-- The eight registers of `tstat` (R241). -/
def statWords (t : TileStat) : List Word :=
  [t.sat, if t.nan then 1 else 0, t.pc.truncate 32, (t.pc >>> 32).truncate 32, t.seq, t.kstart, t.pos, 0]

def actStat (w blk core row col reg : Nat) : Act := look fun s =>
  match mLook s.blocks blk with
  | none => skip
  | some b =>
    let ws := statWords (statAt b (slotKey b (acrossOf s b) core row col))
    andThen (updWarp w fun x => (List.range 8).foldl (fun y j => setS y (reg + j) (ws.getD j 0)) x) (clearBadS w (spanRegs reg 8))
def actClr (blk core row col : Nat) : Act := look fun s =>
  updBlock blk fun b => { b with stats := mDel b.stats (slotKey b (acrossOf s b) core row col) }

/-- The elements `tread` and `twrite` move: row, column, register, lane (R280). -/
def moveCells (row col nreg : Nat) (r16 : Bool) : List (Nat × Nat × Nat × Nat) :=
  (List.range nreg).flatMap fun j => (List.range 32).map fun l =>
    if r16 then (row + l % 16, col + 2 * j + l / 16, j, l) else (row + l, col + j, j, l)

/-- The codes of a drained tile, then its scales. -/
def tileCodes (t : List (Nat × Nat × Nat × Bool) × List Nat) : List Nat := t.1.map (·.2.2.1) ++ t.2
/-- Writes what is left of a drained tile to scratch (R283). -/
def tsaveWrites (o : EngOp) (ofs stride : Nat) (c : DrainCtl) (vals : List Nat) : Act :=
  forAll (fun k => match tsaveMove o.blk ofs stride c vals k with
    | some m => if o.done.contains k then skip else putMove o m m.fill
    | none => skip) (List.range (tsaveMoves c))

/-- The effect of the operation at the head of a queue. -/
def performQueued (id : Nat) (o : EngOp) : Act := look fun s =>
  match mLook s.blocks o.blk with
  | none => eff (.dropEng id)
  | some b =>
    let done := retireEngine id o
    let bad (row col m n : Nat) (a : Act) : Act := if accBad s o.blk o.core row col m n then failEngine id o .dataerr 0 1 else a
    match o.kind with
    | .zero row col m n => andThen (putAcc o.blk o.core ((tileCells m n).map fun x => (row + x.1, col + x.2, 0))) done
    | .tload row col m n ofs stride => (match scratchBad s o.blk ofs ((m - 1) * stride + 4 * n) with
      | some a => failEngine id o .dataerr a 1
      | none => andThen (putAcc o.blk o.core ((tileCells m n).map fun x =>
          (row + x.1, col + x.2, BitVec.ofNat 32 (bytesAt (scratchSeen o o.blk b.scratch) (ofs + x.1 * stride + 4 * x.2) 4)))) done)
    | .tread row col nreg r16 reg =>
      bad row col (if r16 then 16 else 32) (if r16 then 2 * nreg else nreg) <|
        andThen (updWarp o.w fun x => (moveCells row col nreg r16).foldl (fun y c =>
          setV y (reg + c.2.2.1) c.2.2.2 (accAt b o.core c.1 c.2.1)) x) <|
        andThen (clearBad o.w (spanRegs reg nreg) (~~~0)) done
    | .twrite row col nreg r16 vals => andThen (putAcc o.blk o.core ((moveCells row col nreg r16).map fun c =>
        (c.1, c.2.1, vals.getD (32 * c.2.2.1 + c.2.2.2) 0))) done
    | .drain _ _ c _ => bad c.row c.col c.m c.n <|
        let t := drainTile c fun i j => accAt b o.core (c.row + i) (c.col + j)
        andThen (countClips o c t.1) <|
        andThen (updEng id fun y => { y with queued := false, vals := tileCodes t }) bump
    | .tsave ofs stride c => bad c.row c.col c.m c.n <|
        let t := drainTile c fun i j => accAt b o.core (c.row + i) (c.col + j)
        andThen (countClips o c t.1) <|
        andThen (tsaveWrites o ofs stride c (tileCodes t)) done
    | .gacc pin row col m n ofs stride => bad row col m n (gaccFrom id o pin row col n ofs stride (m * n - o.pos) o.pos)
    | .gflush pin => gflushFrom id o pin (toFlush s o pin)
    | .stat row col reg => andThen (actStat o.w o.blk o.core row col reg) done
    | .clr row col => andThen (actClr o.blk o.core row col) done
    | _ => skip

/-- One event of a tile operation at the head of its queue, ahead of its turn's end (R205): an operand word `k` is read,
word `k` of a `tsave` or of a `gflush` is written, or the next element of a `gacc` is added. -/
def queueEvent (id k : Nat) : Act := look fun s =>
  match mLook s.engs id, (mLook s.engs id).bind fun o => mLook s.blocks o.blk with
  | some o, some b =>
    if queueHead s o.core ≠ some (id, o) then skip
    else match o.kind with
      | .tload _ _ _ _ _ _ | .mma _ => (match (operandWords o)[k]? with
          | some w => if (mLook o.got k).isSome || decide (sideFate s o w 4 false ≠ .fine) then skip
            else updEng id fun y => { y with got := mIns y.got k (sideVal s o w 4) }
          | none => skip)
      | .tsave _ _ c =>
        if accBad s o.blk o.core c.row c.col c.m c.n then skip
        else nextTransfer id
          { o with vals := tileCodes (drainTile c fun i j => accAt b o.core (c.row + i) (c.col + j)) } k
      | .gacc pin row col m n ofs stride =>
        if accBad s o.blk o.core row col m n || decide (m * n ≤ o.pos + 1) then skip
        else gaccAdd id o pin row col n ofs stride o.pos skip
      | .gflush pin => (match (toFlush s o pin).find? fun e => decide (e.1 % 2 ^ 16 = k / 1024) with
          | some (key, pg) =>
            let at_ := backing s key + 4 * (k % 1024)
            if o.done.contains k || (pageBad s key).isSome || decide (sideFate s o (.virt at_) 4 true ≠ .fine) then skip
            else andThen (sidePut o (.virt at_) 4 (mGet 0 pg.words (k % 1024)).toNat)
              (updEng id fun y => { y with done := k :: y.done })
          | none => skip)
      | _ => skip
  | _, _ => skip

/-- `QUEUED_TILE_OP_PERFORM` (R261): the operation at the head of the core's queue, when it is no `mma`. -/
def execQueuedTileOpPerform (core : Nat) (s : State) : Host.Outcome State Fault Refusal := finish s <|
  match queueHead s core with
  | some (id, o) => performQueued id o
  | none => skip

/-! ## Issue (R275, R276) -/

/-- A matrix instruction: guard, open regions (R303), the tag, then `a`. -/
def xMeans (s : State) (i : Iss) (f : XFields) (opnd : Bool) (u : Uses) (tag : Option Nat) (regionOk : Bool) (a : Act) : Act :=
  gated s i (chkAll true (opnd && !tagBeyond i tag)) { u with mem := true, act := guardScalar i f.gp f.gn } 0 <|
    if !guardScalar i f.gp f.gn then advance i 1
    else if regionOk then a else noRegion i i.lanes 0 a

/-- The tag an instruction names through TG (R275). -/
def tgTag (f : XFields) (bitNo : Nat) : Option Nat := if f.xmod.getLsbD bitNo then some f.tag.toNat else none
def xs1 (i : Iss) (r : BitVec 9) : Bool := sOk i r.toNat 1
def shapeM (x : Warp) : Nat := x.tshape.toNat % 1024
def shapeN (x : Warp) : Nat := x.tshape.toNat / 1024 % 1024
def shapeK (x : Warp) : Nat := x.tshape.toNat / 2 ^ 20 % 1024
/-- Row and column of an origin or position word. -/
def wordRow (w : Word) : Nat := w.toNat % 65536
def wordCol (w : Word) : Nat := w.toNat / 65536
/-- The tile at an origin breaks R276. -/
def originBad (i : Iss) (w : Word) (m n : Nat) : Bool :=
  decide (wordRow w % 16 ≠ 0) || decide (wordCol w % 16 ≠ 0) || decide (i.lau.arows < wordRow w + m) ||
    decide (i.lau.acols < wordCol w + n)
/-- The first two rows of R276's table for an instruction that uses `%tshape`. -/
def tileChecks (i : Iss) (w : Word) : List (Bool × Nat) :=
  [(decide (shapeM i.warp = 0) || decide (shapeN i.warp = 0), 0x44), (originBad i w (shapeM i.warp) (shapeN i.warp), 0x48)]

/-- A field of the request, granted (R263). -/
def grant (x step cap : Nat) : Nat := if x = 0 then 0 else min (roundUp x step) cap

/-- `tshape` (R263, R277). -/
def execTshape (f : XFields) (s : State) : Host.Outcome State Fault Refusal := atIssue s fun i =>
  xMeans s i f (xs1 i f.g) { sr := [f.g.toNat] } none true <|
    let q := (sR i.warp f.g.toNat).toNat
    let m := grant (q % 1024) 16 (min 128 i.lau.arows)
    let n := grant (q / 1024 % 1024) 16 (min 128 i.lau.acols)
    let k := grant (q / 2 ^ 20 % 1024) 32 512
    andThen (updWarp i.w fun x => { x with tshape := BitVec.ofNat 32 (m + 1024 * n + 2 ^ 20 * k) }) (advance i 1)

/-- The parameter block's fields outside their limits (R264), each with its offset. -/
def paramChecks (i : Iss) (r : List Byte) (fw : Word) : List (Bool × Nat) :=
  let a := fwA fw
  [(decide (recAt r 0 4 % (if isSub a then 16 else elemBytes a) ≠ 0), 0),
   (decide (recAt r 4 4 % (if isSub a then groupBytes a else elemBytes a) ≠ 0), 4),
   (decide (recAt r 16 4 % 128 ≠ 0), 16),
   (decide (recAt r 28 2 % 16 ≠ 0) || decide (i.lau.arows < recAt r 28 2 + shapeM i.warp), 28),
   (decide (recAt r 30 2 % 16 ≠ 0) || decide (i.lau.acols < recAt r 30 2 + shapeN i.warp), 30),
   (decide (32 ≤ recAt r 32 4), 32),
   ((r.drop 36).any (· ≠ 0), 36)]

/-- The snapshot of an `mma`. -/
def mmaParams (i : Iss) (r : List Byte) (fw g : Word) (ablock : Nat) : MmaParams :=
  { abase := recAt r 0 4, astride := recAt r 4 4, ascale := recAt r 8 4, asstride := recAt r 12 4, boff := recAt r 16 4,
    bscale := recAt r 20 4, bsstride := recAt r 24 4, row0 := recAt r 28 2, col0 := recAt r 30 2, ablock := ablock,
    fw := fw, g := g, m := shapeM i.warp, n := shapeN i.warp, k := shapeK i.warp,
    trapnan := nsTrapNan i.warp.nstat, elected := some (lowLane i.lanes) }

/-- The parameter block's own access failed: the `mma` completes as failed (R231, R278). DESIGN CHOICE (log entry 45): it
never enters the queue, and is not among the tl-counted operations that SEQ numbers (R241). -/
def mmaFails (i : Iss) (tag : Option Nat) (c : Cause) (va x : Nat) : Act :=
  let t : Trap :=
    { cause := c, deferred := true, engine := true, tag := tag.getD 0xFF, pc := pcOf i.st, addr := BitVec.ofNat 64 va,
      extra := BitVec.ofNat 64 x }
  andThen (updWarp i.w fun y => { y with deferred := y.deferred ++ [t] }) <|
  andThen (match tag with | some n => andThen (tagTaken i.warp.block n) (tagDone i.warp.block n) | none => skip) (advance i 1)

/-- An access of the warp in flight holds the elected lane's read of the parameter block back. -/
def mmaHeld (s : State) (i : Iss) (va : Nat) : Bool :=
  (List.range 8).any fun j => match fateOf s i .glob (va + 8 * j) 8 true false with
    | .ok p _ => s.ops.any fun e => decide (e.2.w = i.w) && holdsBack s e.1 s.nextId e.2 (strandRead i)
        ⟨lowLane i.lanes, p, 8, 0, 0, 0, false⟩
    | _ => false

/-- The format word of the elected lane. -/
def mmaFw (i : Iss) (f : XFields) : Word := vR i.warp f.fw.toNat (lowLane i.lanes)
/-- The block whose scratch holds A, if the parameter block names one (R264). -/
def mmaAblock (s : State) (i : Iss) (r : List Byte) : Option Nat :=
  if recAt r 32 4 % 2 = 1 then clusterBlock s i (recAt r 32 4 / 2 % 16) else some i.warp.block
/-- The bytes of the B store an `mma` reads. -/
def mmaBytes (p : MmaParams) : Nat := 128 * rowEnd (fwB p.fw) p.k
/-- The conditions of R264 and R266 on the shape, the format word and the parameter block. -/
def mmaChecks (i : Iss) (r : List Byte) (fw : Word) : List (Bool × Nat) :=
  [(decide (shapeM i.warp = 0) || decide (shapeN i.warp = 0) || decide (shapeK i.warp = 0), 0x44), (fwBad fw, 0x40)] ++
    paramChecks i r fw
/-- A range of an `mma` lies outside its scratch or the B store. -/
def mmaOut (i : Iss) (p : MmaParams) : Bool :=
  (mmaScratch p i.warp.block).any (fun x => decide (i.lau.scratch < x.2.1 + x.2.2)) || decide (2 ^ 24 < p.boff + mmaBytes p)
/-- The ranges an `mma` registers (R208). -/
def mmaRanges (i : Iss) (p : MmaParams) : List Range :=
  ⟨i.core, .bst i.core p.boff, mmaBytes p, false⟩ ::
    (mmaScratch p i.warp.block).map fun x => ⟨i.core, .scr x.1 x.2.1, x.2.2, false⟩
/-- The uses of an `mma`. -/
def mmaUses (i : Iss) (f : XFields) : Uses :=
  { sr := f.g.toNat :: regs f.a.toNat true, vr := [f.fw.toNat], vm := [(f.fw.toNat, i.lanes)] }

/-- `mma` (R264, R278). DESIGN CHOICE (log entry 45): while it waits at issue it takes its snapshot, and makes its
checks, afresh at each attempt. -/
def execMma (f : XFields) (s : State) : Host.Outcome State Fault Refusal := atIssue s fun i =>
  let tag := tgTag f 0
  let fw := mmaFw i f
  let va := sVal i.warp true f.a.toNat
  xMeans s i f (sPair i f.a && xs1 i f.g && vOk i f.fw.toNat 1) (mmaUses i f) tag false <|
    if (lanesIn i.lanes).any fun l => decide (vR i.warp f.fw.toNat l ≠ fw) then trapLanes i .fmtdiv i.st.members 0 fw.toNat
    else if va % 64 ≠ 0 then trapLanes i .misalign i.st.members va 0
    else match readRecord s i va 8 with
      | .absent x => holdAt i x 0
      | .stop .rlock x e => trapLanes i .rlock i.st.members x e
      | .stop c x e => mmaFails i tag c x e
      | .bytes r =>
        if mmaHeld s i va then stall i 4
        else andThen (shareRecord s i va 8) <|
          let ab := mmaAblock s i r
          let p := mmaParams i r fw (sR i.warp f.g.toNat) (ab.getD 0)
          checked i (mmaChecks i r fw) <|
            if ab.isNone || mmaOut i p then trapLanes i .prot i.st.members 0 0
            else issueEngine i (engOf i (.mma p) tag true) false (mmaRanges i p)

def execTzero (f : XFields) (s : State) : Host.Outcome State Fault Refusal := atIssue s fun i =>
  let w := sR i.warp f.h.toNat
  xMeans s i f (xs1 i f.h) { sr := [f.h.toNat] } (tgTag f 0) false <|
    checked i (tileChecks i w) <|
      issueEngine i (engOf i (.zero (wordRow w) (wordCol w) (shapeM i.warp) (shapeN i.warp)) (tgTag f 0) true) false []

/-- Bytes of scratch that a tile of 4-byte elements spans (R279). -/
def tileSpan (i : Iss) (stride : Nat) : Nat := (shapeM i.warp - 1) * stride + 4 * shapeN i.warp
/-- The checks of a tile and of its offset and stride (R276). -/
def strideChecks (i : Iss) (w : Word) (ofs stride : Nat) : List (Bool × Nat) :=
  tileChecks i w ++ [(decide (ofs % 4 ≠ 0) || decide (stride % 4 ≠ 0) || decide (stride < 4 * shapeN i.warp), 0x4C)]

def execTload (f : XFields) (s : State) : Host.Outcome State Fault Refusal := atIssue s fun i =>
  let w := sR i.warp f.h.toNat
  let ofs := (sR i.warp f.a.toNat).toNat
  let stride := (sR i.warp (f.a.toNat + 1)).toNat
  xMeans s i f (sPair i f.a && xs1 i f.h) { sr := f.h.toNat :: regs f.a.toNat true } (tgTag f 0) false <|
    checked i (strideChecks i w ofs stride) <|
      if i.lau.scratch < ofs + tileSpan i stride then trapLanes i .prot i.st.members 0 0
      else issueEngine i (engOf i (.tload (wordRow w) (wordCol w) (shapeM i.warp) (shapeN i.warp) ofs stride) (tgTag f 0) true)
        false [⟨i.core, .scr i.warp.block ofs, tileSpan i stride, false⟩]

/-- NREG and ROWS16 (R280). -/
def regCount (f : XFields) : Nat := f.xmod.toNat % 16 + 1
def rows16 (f : XFields) : Bool := f.xmod.getLsbD 4
/-- The position and the registers of `tread` and `twrite` (R276, R280). -/
def moveChecks (i : Iss) (f : XFields) : List (Bool × Nat) :=
  let n := regCount f
  [(originBad i (sR i.warp f.h.toNat) (if rows16 f then 16 else 32) (if rows16 f then 2 * n else n), 0x48),
   (decide (i.warp.alloc < f.fw.toNat + n), 0x4A)]
/-- The checks `tread` and `twrite` share, then `a row col`. -/
def moveMeans (s : State) (i : Iss) (f : XFields) (u : Uses) (a : Nat → Nat → Act) : Act :=
  xMeans s i f (xs1 i f.h) { u with sr := [f.h.toNat] } none false <|
    if !singleStrand i.warp then stall i 4
    else checked i (moveChecks i f) (a (wordRow (sR i.warp f.h.toNat)) (wordCol (sR i.warp f.h.toNat)))

def execTread (f : XFields) (s : State) : Host.Outcome State Fault Refusal := atIssue s fun i =>
  moveMeans s i f { vw := spanRegs f.fw.toNat (regCount f) } fun row col =>
    issueEngine i (engOf i (.tread row col (regCount f) (rows16 f) f.fw.toNat) none true) false []

/-- The registers of `twrite`, and their words as it issues. -/
def twriteUses (f : XFields) : Uses :=
  { vr := spanRegs f.fw.toNat (regCount f), vm := (spanRegs f.fw.toNat (regCount f)).map fun r => (r, ~~~0) }
def twriteWords (i : Iss) (f : XFields) : List Word :=
  (spanRegs f.fw.toNat (regCount f)).flatMap fun r => (List.range 32).map fun l => vR i.warp r l

def execTwrite (f : XFields) (s : State) : Host.Outcome State Fault Refusal := atIssue s fun i =>
  moveMeans s i f (twriteUses f) fun row col =>
    issueEngine i (engOf i (.twrite row col (regCount f) (rows16 f) (twriteWords i f)) none true) false []

/-- What the control bits of a drain say (R281). -/
def drainCtl (i : Iss) (f : XFields) (origin : Word) (fmt : Nat) : DrainCtl :=
  { row := wordRow origin, col := wordCol origin, m := shapeM i.warp, n := shapeN i.warp,
    e := signed 8 (f.xmod.toNat % 256), g := if f.fw.getLsbD 2 then some (sR i.warp f.g.toNat) else none, fmt := fmt,
    i32 := f.fw.getLsbD 4, noclip := f.xmod.getLsbD 8, stoch := f.fw.getLsbD 0, bscale := f.fw.getLsbD 1,
    seed := nsSeed i.warp.nstat, count := i.warp.drains }

/-- The checks of R281 and R282 after the record's own. -/
def tdrainChecks (sh : Shape) (c : DrainCtl) (addIt : Bool) (x0 x1 : Nat) : List (Bool × Nat) :=
  [(decide (sh.rank < 2), 8),
   (decide (10 ≤ sh.fmt) || (addIt && decide (sh.fmt ≠ 9) && decide (sh.fmt ≠ 6)) ||
      (c.bscale && [5, 6, 7, 9].contains sh.fmt) || (c.noclip && decide (sh.fmt ≠ 1)), 9),
   (c.bscale != sh.scaled, 10),
   ((isSub sh.fmt && (decide (c.n % 64 ≠ 0) || decide (x0 % 64 ≠ 0))) ||
      (c.bscale && (decide (c.m % 32 ≠ 0) || decide (c.n % 32 ≠ 0) || decide (x0 % 32 ≠ 0) || decide (x1 % 32 ≠ 0))), 12)]

/-- The uses of a drain beside its origin: its multiplier, where it has one, and its pair. -/
def drainReads (f : XFields) : List Nat := (if f.fw.getLsbD 2 then [f.g.toNat] else []) ++ regs f.a.toNat true

/-- `tdrain` (R282). -/
def execTdrain (f : XFields) (s : State) : Host.Outcome State Fault Refusal := atIssue s fun i =>
  let w := sR i.warp f.h.toNat
  let xw := sR i.warp (f.h.toNat + 1)
  let va := sVal i.warp true f.a.toNat
  let tag := if f.xmod.getLsbD 9 then none else some f.tag.toNat
  let addIt := f.fw.getLsbD 3
  xMeans s i f (sPair i f.a && sPair i f.h && xs1 i f.g) { sr := drainReads f ++ regs f.h.toNat true } tag false <|
    if va % 8 ≠ 0 then trapLanes i .misalign i.st.members va 0
    else checked i (tileChecks i w) <| withShape s i va false true fun sh0 =>
      let c := drainCtl i f w sh0.fmt
      let sh := { sh0 with box := [c.n, c.m, 1, 1, 1] }
      let cs : List Int := [wordRow xw, wordCol xw, 0, 0, 0]
      checked i (tdrainChecks sh0 c addIt (wordRow xw) (wordCol xw)) <|
        rangeTraps i true sh cs true <|
          issueEngine i (engOf i (.drain sh cs c addIt) tag true) false (boxRanges i.core sh cs true)

/-- The two words of a `tsave`: where its rows begin in scratch, their stride and the target format (R283). -/
def tsaveOfs (i : Iss) (f : XFields) : Nat := (sR i.warp f.a.toNat).toNat
def tsaveWord (i : Iss) (f : XFields) : Nat := (sR i.warp (f.a.toNat + 1)).toNat
def tsaveStride (i : Iss) (f : XFields) : Nat := tsaveWord i f % 65536
def tsaveCtl (i : Iss) (f : XFields) : DrainCtl := drainCtl i f (sR i.warp f.h.toNat) (tsaveWord i f / 65536 % 16)
/-- Bytes from its first row to the end of its scales. -/
def tsaveSpan (i : Iss) (f : XFields) : Nat :=
  let c := tsaveCtl i f
  let stride := tsaveStride i f
  if c.bscale then tsaveScales (tsaveOfs i f) stride c + c.m / 32 * (c.n / 32) - tsaveOfs i f
  else (c.m - 1) * stride + drainRow c.fmt c.n
def tsaveChecks (i : Iss) (f : XFields) : List (Bool × Nat) :=
  let c := tsaveCtl i f
  let stride := tsaveStride i f
  tileChecks i (sR i.warp f.h.toNat) ++
    [(decide (tsaveOfs i f % 16 ≠ 0) || decide (stride % 16 ≠ 0) || decide (2 ^ 20 ≤ tsaveWord i f) || decide (9 < c.fmt) ||
      decide (stride < drainRow c.fmt c.n) || (isSub c.fmt && decide (c.n % 64 ≠ 0)) || (c.noclip && decide (c.fmt ≠ 1)) ||
      (c.bscale && (decide (c.m % 32 ≠ 0) || decide (c.n % 32 ≠ 0))), 0x4C)]

/-- `tsave` (R283). -/
def execTsave (f : XFields) (s : State) : Host.Outcome State Fault Refusal := atIssue s fun i =>
  let ofs := tsaveOfs i f
  xMeans s i f (sPair i f.a && xs1 i f.h && xs1 i f.g) { sr := drainReads f ++ [f.h.toNat] } (tgTag f 9) false <|
    checked i (tsaveChecks i f) <|
      if i.lau.scratch < ofs + tsaveSpan i f then trapLanes i .prot i.st.members 0 0
      else issueEngine i (engOf i (.tsave ofs (tsaveStride i f) (tsaveCtl i f)) (tgTag f 9) true) false
        [⟨i.core, .scr i.warp.block ofs, tsaveSpan i f, true⟩]

/-! ## `gpin`, `gacc`, `gflush`, `gfree` (R284, R285) -/

/-- The live region an id names. -/
def livePin (i : Iss) (id : Nat) : Option Pin :=
  match mLook i.ctx.pins id with
  | some p => if p.ready && !p.freed then some p else none
  | none => none

/-- The region a `gacc` or `gflush` names: one that waits past its check keeps it under a `gfree` (R285). -/
def namedPin (i : Iss) (id : Nat) : Option Pin := if i.st.wait = .counted id then mLook i.ctx.pins id else livePin i id

/-- A free region id of a context, if it has one: a free choice. -/
def freePinId (s : State) (i : Iss) : Option Nat :=
  pick ((List.range 64).filter fun k => (mLook i.ctx.pins k).isNone) (choice s 1)
/-- A context with the region of a `gpin` reserved under an id. -/
def withPin (i : Iss) (id base len : Nat) : Context :=
  { i.ctx with pins := mIns i.ctx.pins id ⟨i.core / Config.coresPerDie, base, len, false, false⟩ }

def execGpin (f : XFields) (s : State) : Host.Outcome State Fault Refusal := atIssue s fun i =>
  let base := sVal i.warp true f.a.toNat
  let len := (sR i.warp f.g.toNat).toNat
  xMeans s i f (sPair i f.a && xs1 i f.g && xs1 i f.h) { sr := f.g.toNat :: regs f.a.toNat true, sw := [f.h.toNat] } none false <|
    if base % 4096 ≠ 0 then trapLanes i .misalign i.st.members base 0
    else checked i [(decide (len = 0) || decide (len % 4096 ≠ 0) || decide (2 ^ 28 < len), 0x4C)] <|
      if !canonRange (some (base, len)) then trapLanes i .prot i.st.members base 0
      else if (mVals i.ctx.pins).any fun p => rangeHit base len p.base p.len then trapLanes i .prot i.st.members base 0x50
      else if touchesAny (i.ctx.sealed ++ i.ctx.marks) base len then trapLanes i .sealed i.st.members base 0
      else if engineHeld s i false then stall i 4
      else match freePinId s i with
        | none => andThen (putScalar i false f.h.toNat 0xFFFFFFFF) (advance i 1)
        | some id => andThen (updCtx i.cid fun _ => withPin i id base len)
            (issueEngine i (engOf i (.pin id f.h.toNat) none false) false [])

/-- `GPIN_RESERVATION_RECORDED` (R284): the region is live and its id is written. -/
def execGpinReservationRecorded (op : Nat) (s : State) : Host.Outcome State Fault Refusal := finish s <|
  match mLook s.engs op with
  | none => skip
  | some o => match o.kind with
    | .pin id reg =>
      andThen (updCtx o.ctx fun c => { c with pins := match mLook c.pins id with
        | some p => mIns c.pins id { p with ready := true } | none => c.pins }) <|
      andThen (updWarp o.w fun x => setS x reg (BitVec.ofNat 32 id)) <|
      andThen (clearBadS o.w [reg]) (retireEngine op o)
    | _ => skip

def execGacc (f : XFields) (s : State) : Host.Outcome State Fault Refusal := atIssue s fun i =>
  let w := sR i.warp f.a.toNat
  let ofs := (sR i.warp (f.a.toNat + 1)).toNat
  let stride := (sR i.warp f.g.toNat).toNat
  let id := (sR i.warp f.h.toNat).toNat
  xMeans s i f (sPair i f.a && xs1 i f.g && xs1 i f.h) { sr := [f.g.toNat, f.h.toNat] ++ regs f.a.toNat true } (tgTag f 0) false <|
    checked i (strideChecks i w ofs stride) <|
      match namedPin i id with
      | none => trapLanes i .prot i.st.members 0 0x50
      | some p =>
        if p.len < ofs + tileSpan i stride then trapLanes i .prot i.st.members 0 0
        else issueEngine i (engOf i (.gacc id (wordRow w) (wordCol w) (shapeM i.warp) (shapeN i.warp) ofs stride) (tgTag f 0)
          true) false []

def execGflush (f : XFields) (s : State) : Host.Outcome State Fault Refusal := atIssue s fun i =>
  let id := (sR i.warp f.h.toNat).toNat
  xMeans s i f (xs1 i f.h) { sr := [f.h.toNat] } (tgTag f 0) false <|
    match namedPin i id with
    | none => trapLanes i .prot i.st.members 0 0x50
    | some p =>
      if touchesAny (i.ctx.sealed ++ i.ctx.marks) p.base p.len then trapLanes i .sealed i.st.members p.base 0
      else issueEngine i (engOf i (.gflush id) (tgTag f 0) true) false [⟨i.core, .virt p.base, p.len, true⟩]

/-- A `gacc` or `gflush` of the region that passed its check is still to be applied. -/
def pinBusy (s : State) (cid id : Nat) : Bool :=
  (s.engs.any fun e => decide (e.2.ctx = cid) && decide (e.2.kind.pinNamed = some id)) ||
  s.warps.any fun e => (mVals e.2.strands).any (fun t => decide (t.wait = .counted id)) &&
    (mLook s.blocks e.2.block).any fun b => decide (b.ctx = cid)
/-- A region is released: its pages and its id are free (R285). -/
def freePin (cid id : Nat) : Act :=
  andThen (fun s => (s.pool.filter fun e => decide (e.1 / 2 ^ 16 = poolKey cid id 0 / 2 ^ 16)).map fun e => .dropPage e.1)
    (updCtx cid fun c => { c with pins := mDel c.pins id })

/-- `gfree` (R285): from its issue on the id names no live region. -/
def execGfree (f : XFields) (s : State) : Host.Outcome State Fault Refusal := atIssue s fun i =>
  match i.st.wait with
  | .freed id => if pinBusy s i.cid id then waitWith i (.freed id) else andThen (freePin i.cid id) (advance i 1)
  | _ =>
    let id := (sR i.warp f.h.toNat).toNat
    xMeans s i f (xs1 i f.h) { sr := [f.h.toNat] } none false <|
      match livePin i id with
      | none => trapLanes i .prot i.st.members 0 0x50
      | some p =>
        if pinBusy s i.cid id then
          andThen (updCtx i.cid fun c => { c with pins := mIns c.pins id { p with freed := true } }) (waitWith i (.freed id))
        else andThen (freePin i.cid id) (advance i 1)

/-! ## `tstat` and `tclr` (R286) -/

/-- A position breaks R276. -/
def positionBad (i : Iss) (w : Word) : Bool := decide (i.lau.arows ≤ wordRow w) || decide (i.lau.acols ≤ wordCol w)

def execTstat (f : XFields) (s : State) : Host.Outcome State Fault Refusal := atIssue s fun i =>
  let w := sR i.warp f.g.toNat
  xMeans s i f (xs1 i f.g && xs1 i f.h) { sr := [f.g.toNat], sw := spanRegs f.h.toNat 8 } none true <|
    checked i [(positionBad i w, 0x48), (!sOk i f.h.toNat 8, 0x4A)] <|
      if (queueOf s i.core).isEmpty then andThen (actStat i.w i.warp.block i.core (wordRow w) (wordCol w) f.h.toNat) (advance i 1)
      else issueEngine i (engOf i (.stat (wordRow w) (wordCol w) f.h.toNat) none true) false []

def execTclr (f : XFields) (s : State) : Host.Outcome State Fault Refusal := atIssue s fun i =>
  let w := sR i.warp f.g.toNat
  xMeans s i f (xs1 i f.g) { sr := [f.g.toNat] } none true <|
    checked i [(positionBad i w, 0x48)] <|
      if (queueOf s i.core).isEmpty then andThen (actClr i.warp.block i.core (wordRow w) (wordCol w)) (advance i 1)
      else issueEngine i (engOf i (.clr (wordRow w) (wordCol w)) none true) false []

end Sys2Proof.Machine
end

