-- ==== Sys2Proof/Machine/Regions.lean ====
section
/-! DEFINITION. Atomic regions (19_regions_and_deadlines R298 to R307, 20_ref_regions_reduce R317 to R322): `ald`,
`st.rgn`, `abeg`, `aend`, `aabort`, and a lane's commit. -/

namespace Sys2Proof.Machine

/-- The home of a region word is a slice of device memory (R299). -/
def isHome (p : Loc) : Bool := match p with | .glob k => decide (k < deviceKeys) | .scr _ _ => false
def keyOf (p : Loc) : Nat := match p with | .glob k => k | .scr _ _ => 0

/-- Lanes of `g` without an open region. -/
def regionless (i : Iss) (g : Mask) : Mask := g &&& ~~~(maskOf fun l => (mLook i.warp.regions l).isSome)
def laneRegion (x : Warp) (l : Nat) : Region := (mLook x.regions l).getD { fallback := 0 }

/-! ## `ald` (R299, R318) -/

/-- What `ald` finds for a lane. -/
inductive AldCase where
  | refuse
  | pending
  | held (v : Nat) (tag : Option (Nat × Nat))
  | fresh
  deriving DecidableEq, Repr

/-- The value a buffered store holds for the attempt. -/
def storeVal (g : Region) (b : RStore) : Nat :=
  match b.sym with
  | some (k, o) => (((g.slots[k]?).map (·.val)).getD 0 + o) % 2 ^ (8 * b.n)
  | none => b.val

def aldCase (g : Region) (key n : Nat) : AldCase :=
  if g.slots.any (fun k => rangeHit k.key k.n key n && !(decide (k.key = key) && decide (k.n = n))) ||
      g.stores.any (fun b => rangeHit b.key b.n key n && !(decide (b.key = key) && decide (b.n = n))) then .refuse
  else match g.slots.findIdx? (fun k => decide (k.key = key) && decide (k.n = n)) with
  | some j => (match g.slots[j]? with
    | some k => if k.pend.isSome then .pending else .held k.val (some (j, 0))
    | none => .refuse)
  | none => match g.stores.find? (fun b => decide (b.key = key) && decide (b.n = n)) with
    | some b => if b.sym.any (fun x => ((g.slots[x.1]?).bind (·.pend)).isSome) then .pending else .held (storeVal g b) b.sym
    | none => if 8 ≤ g.slots.length then .refuse else .fresh

/-- The lane's region after its `ald`; `id` is the access that brings the value. -/
def aldNote (g : Region) (d n key va : Nat) (addr : List Nat) (id : Nat) : Region :=
  let h := addDep g (addr.flatMap (slotsOf g))
  match aldCase g key n with
  | .held _ (some t) => { untag h d n with tags := (untag h d n).tags ++ [⟨d, n, t.1, t.2⟩] }
  | .held _ none => untag h d n
  | _ => { untag h d n with slots := h.slots ++ [⟨key, n, 0, va, some id⟩],
                            tags := (untag h d n).tags ++ [⟨d, n, h.slots.length, 0⟩] }

/-- The checks of a lane of `ald`; one that its region serves reads no memory. -/
def aldFate (s : State) (i : Iss) (f : MFields) (l : Nat) : Fate :=
  let n := widthBytes f.width
  match fateOf s i f.space (addrAt i f l) n false false with
  | .ok p e => if aldCase (laneRegion i.warp l) (keyOf p) n = .fresh then fateOf s i f.space (addrAt i f l) n true false
    else .ok p e
  | y => y
/-- The lanes `g` of an `ald` with their addresses and checks. -/
def aldFates (s : State) (i : Iss) (f : MFields) (g : Mask) : List LaneFate :=
  (lanesIn g).map fun l => (l, addrAt i f l, aldFate s i f l)

/-- The uses of `ald`. -/
def aldUses (f : MFields) : Uses :=
  { vr := addrV f, sr := addrS f, vw := regs f.d.toNat (decide (widthBytes f.width = 8)), pr := guardReads f.gp, mem := true, act := false,
    shadow := true }

def execAld (f : MFields) (s : State) : Host.Outcome State Fault Refusal := atIssue s fun i =>
  let g := guardMask i f.gp f.gn
  let n := widthBytes f.width
  let d := f.d.toNat
  let u := aldUses f
  let fs := aldFates s i f g
  let oks := okLanes fs
  let caseOf (x : Nat × Nat × Loc × Option DWord) : AldCase := aldCase (laneRegion i.warp x.1) (keyOf x.2.2.1) n
  let newRegion (x : Nat × Nat × Loc × Option DWord) : Region :=
    aldNote (laneRegion i.warp x.1) d n (keyOf x.2.2.1) x.2.1 (addrV f) s.nextId
  let refused := oks.filter fun x => !isHome x.2.2.1 || decide (caseOf x = .refuse) || decide (8 < (newRegion x).tags.length)
  let fresh := oks.filter fun x => decide (caseOf x = .fresh)
  let m := oks.foldl (fun m x => m ||| laneBit x.1) (0 : Mask)
  gated s i (chkAll true (addrOk i f && vOk i d (widthRegs f.width))) u g <|
    if regionless i g ≠ 0 then trapRegion i (regionless i g) (addrAt i f (lowLane (regionless i g)))
    else match firstStop fs with
      | some (c, m, a, x) => trapLanes i c m a x
      | none =>
        if !refused.isEmpty then
          trapRegion i (refused.foldl (fun m x => m ||| laneBit x.1) 0) ((refused.map (·.2.1)).headD 0)
        else if oks.any fun x => decide (caseOf x = .pending) then stall i 1
        else if !fresh.isEmpty && counterFull i.warp .ald then stall i 2
        else
          andThen (fillFor i oks) <|
          andThen (shareFor i n fresh) <|
          andThen (updWarp i.w fun x =>
            { oks.foldl (fun y o => match caseOf o with
                | .held v _ => setVal y (decide (n = 8)) d o.1 v
                | _ => y) x with
              regions := oks.foldl (fun r o => mIns r o.1 (newRegion o)) x.regions }) <|
          andThen (if fresh.isEmpty then skip
            else issueOp i (opOf i f .ald (fresh.map fun o => ⟨o.1, o.2.2.1, n, d, 0, 0, false⟩))) <|
          andThen (wrote i u m) <|
          if (absentLanesOf fs).isEmpty then advance i 1 else splitOff i (absentLanesOf fs) 0 [] (goOn 1)

/-! ## `st.rgn` (R302, R322) -/

/-- The checks of a region store: those of R214 but range locks, which it takes no part in until its commit. -/
def regionStoreFate (s : State) (i : Iss) (va n : Nat) : Fate :=
  match fateOf s i .glob va n false true with
  | .stop 5 c x => (match translate s i.core i.cid i.ctx va with
    | .leaf e sz => .ok (.glob (keyUnder e sz va)) (some e)
    | _ => .stop 5 c x)
  | y => y

/-- The entry a lane buffers: concrete, or the slot and offset of its tagged data register. -/
def storeEntry (i : Iss) (l d n key va : Nat) : RStore :=
  ⟨key, n, vVal i.warp (decide (n = 8)) d l,
    (exactTag (laneRegion i.warp l) d n).map fun t => (t.slot, t.ofs), va⟩

/-- A lane's region with the entry buffered; `none` where R302 refuses it. -/
def stRgnNote (i : Iss) (l d n key va : Nat) (addr : List Nat) : Option Region :=
  let g := laneRegion i.warp l
  let e := storeEntry i l d n key va
  let h := addDep g (addr.flatMap (slotsOf g) ++ (if e.sym.isSome then [] else (regs d (decide (n = 8))).flatMap (slotsOf g)))
  if g.stores.any fun b => decide (b.key = key) && decide (b.n = n) then
    some { h with stores := g.stores.map fun b => if b.key = key ∧ b.n = n then e else b }
  else if g.stores.any (fun b => rangeHit b.key b.n key n) || decide (8 ≤ g.stores.length) then none
  else some { h with stores := g.stores ++ [e] }

/-- The uses of `st.rgn`. -/
def stRgnUses (f : MFields) : Uses :=
  { vr := addrV f ++ dataRegs f, sr := addrS f, pr := guardReads f.gp, mem := true, shadow := true, act := false }
/-- The forms a region store takes (R322). -/
def stRgnForm (f : MFields) : Bool := f.space = .glob && (f.width = .w32 || f.width = .w64) && f.rd = 0
/-- The checks of its lanes. -/
def stRgnFates (s : State) (i : Iss) (f : MFields) (g : Mask) : List LaneFate :=
  (lanesIn g).map fun l => (l, addrAt i f l, regionStoreFate s i (addrAt i f l) (widthBytes f.width))

def execStRgn (f : MFields) (s : State) : Host.Outcome State Fault Refusal := atIssue s fun i =>
  let g := guardMask i f.gp f.gn
  let n := widthBytes f.width
  let d := f.d.toNat
  let u := stRgnUses f
  let form := stRgnForm f
  let fs := stRgnFates s i f g
  let oks := okLanes fs
  let note (x : Nat × Nat × Loc × Option DWord) : Option Region := stRgnNote i x.1 d n (keyOf x.2.2.1) x.2.1 (addrV f)
  let refused := oks.filter fun x => !isHome x.2.2.1 || (note x).isNone
  gated s i (chkAll (routeOk i f.rd) (addrOk i f && vOk i d (widthRegs f.width))) u g <|
    if !form && decide (g ≠ 0) then trapRegion i g (addrAt i f (lowLane g))
    else if regionless i g ≠ 0 then trapRegion i (regionless i g) (addrAt i f (lowLane (regionless i g)))
    else match firstStop fs with
      | some (c, m, a, x) => trapLanes i c m a x
      | none =>
        if !refused.isEmpty then
          trapRegion i (refused.foldl (fun m x => m ||| laneBit x.1) 0) ((refused.map (·.2.1)).headD 0)
        else
          andThen (fillFor i oks) <|
          andThen (updWarp i.w fun x =>
            { x with regions := oks.foldl (fun r o => match note o with | some q => mIns r o.1 q | none => r) x.regions }) <|
          if (absentLanesOf fs).isEmpty then advance i 1 else splitOff i (absentLanesOf fs) 1 [] (goOn 1)

/-! ## `abeg` and `aabort` (R319, R321, R306) -/

/-- FDISP (R317). -/
def fallbackDisp (f : MFields) : Int := (f.e ++ f.ofs).toInt

def execAbeg (f : MFields) (s : State) : Host.Outcome State Fault Refusal := atIssue s fun i =>
  let g := guardMask i f.gp f.gn
  gated s i none { pr := guardReads f.gp, mem := true, shadow := true } g <|
    noRegion i g 0 <|
      andThen (updWarp i.w fun x =>
        { x with regions := (lanesIn g).foldl (fun r l => mIns r l { fallback := labelAt i (fallbackDisp f) }) x.regions })
        (advance i 1)

/-- A strand that aborting lanes form (R306): S's depth, arm, fork and written-mask; younger than S. -/
def abortStrand (t : Strand) (lanes : Mask) (pc : DWord) (age : Nat) : Strand :=
  { members := lanes, pc := pc, depth := t.depth, age := age, arm := t.arm, cont := t.cont, wrV := t.wrV, wrP := t.wrP,
    handler := t.handler }

/-- The new strand takes a free entry, behind those the warp holds already, or is held on the fork-record stack (R306). -/
def seatAborted (i : Iss) (lanes : Mask) (pc : DWord) : Act := look fun s =>
  updWarp i.w fun x =>
    let t := abortStrand i.st lanes pc x.nextAge
    let y := { x with nextAge := x.nextAge + 1 }
    let hold : Warp := { y with heldStrands := y.heldStrands ++ [{ t with heldAt := s.tick }] }
    match pick (freeEntries s i.core i.warp.sub) (choice s 1) with
    | some k =>
      if x.heldStrands.isEmpty && decide (x.strands.length < Config.strandsPerWarp) then { y with strands := mIns y.strands k t }
      else hold
    | none => hold

/-- The lanes of a set that share a fallback, by fallback. -/
def byFallback (x : Warp) : List Nat → List (DWord × Mask)
  | [] => []
  | l :: ls =>
    let pc := (laneRegion x l).fallback
    let r := byFallback x ls
    if r.any fun y => decide (y.1 = pc) then r.map fun y => if y.1 = pc then (y.1, y.2 ||| laneBit l) else y
    else (pc, laneBit l) :: r

/-- The lanes `ab` abort: their regions go; with no member left S continues at the fallback, else the aborting lanes
leave S, which goes on after its instruction (R306). -/
def abortLanes (i : Iss) (ab : Mask) : Act := look fun s =>
  match mLook s.warps i.w with
  | none => skip
  | some x =>
    let groups := byFallback x (lanesIn ab)
    let drop := updWarp i.w fun y => { y with regions := y.regions.filter fun e => !hasLane ab e.1 }
    if ab = 0 then advance i 1
    else if i.st.members &&& ~~~ab = 0 then
      match groups with
      | (pc, m) :: rest =>
        andThen drop <|
        andThen (forAll (fun (q : DWord × Mask) => seatAborted i q.2 q.1) rest) <|
        andThen (updStrand i.w i.k fun t => { t with members := m }) (jump i pc)
      | [] => skip
    else
      andThen drop <|
      andThen (updStrand i.w i.k fun t => { t with members := t.members &&& ~~~ab }) <|
      andThen (forAll (fun (q : DWord × Mask) => seatAborted i q.2 q.1) groups) (advance i 1)

def execAabort (f : MFields) (s : State) : Host.Outcome State Fault Refusal := atIssue s fun i =>
  let g := guardMask i f.gp f.gn
  gated s i none { pr := guardReads f.gp, mem := true, shadow := true } g <| abortLanes i (regionLanes i &&& g)

/-! ## `aend` and the commit (R304, R305, R320) -/

/-- The waiting strand's commits all reported: predicates, count, aborts. -/
def finishAend (i : Iss) (f : MFields) (u : Uses) (g won again ab : Mask) : Act :=
  andThen (updWarp i.w fun x => (lanesIn g).foldl (fun y l => setP y f.d.toNat l (hasLane (won ||| again) l)) x) <|
  andThen (wrote i u g) <|
  andThen (if f.ak && decide (won ||| again ||| ab ≠ 0) then putScalar i false f.e.toNat (laneCount again) else skip) <|
  abortLanes i ab

/-- The uses of `aend`. -/
def aendUses (f : MFields) : Uses :=
  { pr := guardReads f.gp, pw := [f.d.toNat], sw := if f.ak then [f.e.toNat] else [], mem := true, shadow := true }

def execAend (f : MFields) (s : State) : Host.Outcome State Fault Refusal := atIssue s fun i =>
  let g := guardMask i f.gp f.gn
  let u := aendUses f
  match i.st.wait with
  | .commit left won again ab =>
    if left = 0 then finishAend i f u g won again ab else waitWith i (.commit left won again ab)
  | _ =>
    gated s i (chkAll true (pOk f.d.toNat && (!f.ak || sOk i f.e.toNat 1))) u g <|
      if regionLanes i &&& g = 0 then finishAend i f u g 0 0 0
      else andThen (waitWith i (.commit (regionLanes i &&& g) 0 0 0)) bump

/-- The words of a lane's region. -/
def regionWords (g : Region) : List (Nat × Nat) := g.slots.map (fun k => (k.key, k.n)) ++ g.stores.map fun b => (b.key, b.n)
/-- Two regions share a word. -/
def shareWord (a b : Region) : Bool := (regionWords a).any fun x => (regionWords b).any fun y => rangeHit x.1 x.2 y.1 y.2

/-- The slots' current values. -/
def slotNow (s : State) (g : Region) : List Nat := g.slots.map fun k => bytesAt s.mem k.key k.n
/-- Slot `k` has changed. -/
def slotChanged (g : Region) (now : List Nat) (k : Nat) : Bool :=
  decide (((g.slots[k]?).map (·.val)) ≠ now[k]?)
/-- A constraint holds with the new value of its slot (R301). -/
def conHolds (c : RCon) (v : Nat) : Bool :=
  let x := (v + c.ofs) % 2 ^ tyBits c.ty
  (cmpOut c.ty c.rel 0 (if c.left then x else c.val) (if c.left then c.val else x)).1 == c.outcome

/-- A lane's commit must abort whatever its slots hold (R305): a sealed store, a range lock, or a slot it cannot read. -/
def commitBarred (s : State) (core cid : Nat) (c : Context) (g : Region) : Bool :=
  g.stores.any (fun b => touchesAny (c.sealed ++ c.marks) b.va b.n || lockHit s core cid (.virt b.va) b.n true) ||
  g.slots.any fun k => lockHit s core cid (.virt k.va) k.n false || locBad s (.glob k.key) k.n

/-- The writes of a commit: each buffered store, concrete or its slot's value plus the offset. -/
def commitWrites (g : Region) (now : List Nat) : Act := forAll (fun (b : RStore) =>
  writeLoc (.glob b.key) b.n (match b.sym with | some (k, o) => (now.getD k 0 + o) % 2 ^ (8 * b.n) | none => b.val)) g.stores

/-- The tags of changed slots, on registers the warp still has. -/
def changedTags (x : Warp) (g : Region) (now : List Nat) : List RTag :=
  g.tags.filter fun t => slotChanged g now t.slot && decide (t.reg + t.n / 4 ≤ x.alloc)
/-- The registers still tagged with changed slots, rewritten (R305). -/
def rewriteTags (w l : Nat) (g : Region) (now : List Nat) : Act := look fun s =>
  match mLook s.warps w with
  | none => skip
  | some x =>
    let ts := changedTags x g now
    andThen (updWarp w fun x => ts.foldl (fun y t =>
        setVal y (decide (t.n = 8)) t.reg l ((now.getD t.slot 0 + t.ofs) % 2 ^ (8 * t.n))) x)
      (clearBad w (ts.flatMap fun t => regs t.reg (decide (t.n = 8))) (laneBit l))

/-- `REGION_COMMIT` (R304, R305, R211): one lane's commit, as one event. -/
def execRegionCommit (w st lane : Nat) (s : State) : Host.Outcome State Fault Refusal := finish s <|
  match strandAt s w st with
  | none => skip
  | some i => match i.st.wait with
    | .commit left won again ab =>
      let g := laneRegion i.warp lane
      let b := laneBit lane
      let now := slotNow s g
      let changed := (List.range g.slots.length).filter (slotChanged g now)
      let put (won again ab : Mask) : Act :=
        andThen (updStrand w st fun t => { t with wait := .commit (left &&& ~~~b) won again ab, idleAt := 0 }) bump
      let close : Act := updWarp w fun x => { x with regions := mDel x.regions lane }
      if !hasLane left lane || !quiet s w b ||
          (lanesIn left).any (fun l => decide (l < lane) && shareWord (laneRegion i.warp l) g) then skip
      else if commitBarred s i.core i.cid i.ctx g then put won again (ab ||| b)
      else if changed.isEmpty then andThen (commitWrites g now) (andThen close (put (won ||| b) again ab))
      else if changed.all fun k => !g.dep.getLsbD k && g.cons.all fun c => decide (c.slot ≠ k) || conHolds c (now.getD k 0)
      then
        andThen (commitWrites g now) <|
        andThen (rewriteTags w lane g now) <|
        andThen close (put won (again ||| b) ab)
      else put won again (ab ||| b)
    | _ => skip

end Sys2Proof.Machine
end

