-- ==== Sys2Proof/Machine/Dispatch.lean ====
section
/-! DEFINITION. What each instruction and each of the device's own steps does: one arm per constructor. -/

namespace Sys2Proof.Machine

def exec (i : Instr) (s : State) : Host.Outcome State Fault Refusal :=
  match i with
  | .nop f => Sys2Proof.Machine.execNop f s
  | .add f => Sys2Proof.Machine.execAdd f s
  | .addS f => Sys2Proof.Machine.execAddS f s
  | .sub f => Sys2Proof.Machine.execSub f s
  | .subS f => Sys2Proof.Machine.execSubS f s
  | .mul f => Sys2Proof.Machine.execMul f s
  | .mulS f => Sys2Proof.Machine.execMulS f s
  | .mad f => Sys2Proof.Machine.execMad f s
  | .madS f => Sys2Proof.Machine.execMadS f s
  | .minOp f => Sys2Proof.Machine.execMin f s
  | .minS f => Sys2Proof.Machine.execMinS f s
  | .maxOp f => Sys2Proof.Machine.execMax f s
  | .maxS f => Sys2Proof.Machine.execMaxS f s
  | .neg f => Sys2Proof.Machine.execNeg f s
  | .negS f => Sys2Proof.Machine.execNegS f s
  | .absOp f => Sys2Proof.Machine.execAbs f s
  | .absS f => Sys2Proof.Machine.execAbsS f s
  | .cmp f => Sys2Proof.Machine.execCmp f s
  | .cmpS f => Sys2Proof.Machine.execCmpS f s
  | .sel f => Sys2Proof.Machine.execSel f s
  | .selS f => Sys2Proof.Machine.execSelS f s
  | .mov f => Sys2Proof.Machine.execMov f s
  | .movS f => Sys2Proof.Machine.execMovS f s
  | .movi f => Sys2Proof.Machine.execMovi f s
  | .moviS f => Sys2Proof.Machine.execMoviS f s
  | .cvt f => Sys2Proof.Machine.execCvt f s
  | .cvtS f => Sys2Proof.Machine.execCvtS f s
  | .mulhi f => Sys2Proof.Machine.execMulhi f s
  | .mulhiS f => Sys2Proof.Machine.execMulhiS f s
  | .madw f => Sys2Proof.Machine.execMadw f s
  | .madwS f => Sys2Proof.Machine.execMadwS f s
  | .andOp f => Sys2Proof.Machine.execAnd f s
  | .andS f => Sys2Proof.Machine.execAndS f s
  | .orOp f => Sys2Proof.Machine.execOr f s
  | .orS f => Sys2Proof.Machine.execOrS f s
  | .xorOp f => Sys2Proof.Machine.execXor f s
  | .xorS f => Sys2Proof.Machine.execXorS f s
  | .notOp f => Sys2Proof.Machine.execNot f s
  | .notS f => Sys2Proof.Machine.execNotS f s
  | .shl f => Sys2Proof.Machine.execShl f s
  | .shlS f => Sys2Proof.Machine.execShlS f s
  | .shr f => Sys2Proof.Machine.execShr f s
  | .shrS f => Sys2Proof.Machine.execShrS f s
  | .sar f => Sys2Proof.Machine.execSar f s
  | .sarS f => Sys2Proof.Machine.execSarS f s
  | .popc f => Sys2Proof.Machine.execPopc f s
  | .popcS f => Sys2Proof.Machine.execPopcS f s
  | .clz f => Sys2Proof.Machine.execClz f s
  | .clzS f => Sys2Proof.Machine.execClzS f s
  | .brev f => Sys2Proof.Machine.execBrev f s
  | .brevS f => Sys2Proof.Machine.execBrevS f s
  | .bfe f => Sys2Proof.Machine.execBfe f s
  | .bfeS f => Sys2Proof.Machine.execBfeS f s
  | .bfi f => Sys2Proof.Machine.execBfi f s
  | .bfiS f => Sys2Proof.Machine.execBfiS f s
  | .lea f => Sys2Proof.Machine.execLea f s
  | .leaS f => Sys2Proof.Machine.execLeaS f s
  | .pset f => Sys2Proof.Machine.execPset f s
  | .psetS f => Sys2Proof.Machine.execPsetS f s
  | .pmov f => Sys2Proof.Machine.execPmov f s
  | .pmovSet f => Sys2Proof.Machine.execPmovSet f s
  | .pmovS f => Sys2Proof.Machine.execPmovS f s
  | .div f => Sys2Proof.Machine.execDiv f s
  | .divS f => Sys2Proof.Machine.execDivS f s
  | .rcp f => Sys2Proof.Machine.execRcp f s
  | .rcpS f => Sys2Proof.Machine.execRcpS f s
  | .rsqrt f => Sys2Proof.Machine.execRsqrt f s
  | .rsqrtS f => Sys2Proof.Machine.execRsqrtS f s
  | .sqrt f => Sys2Proof.Machine.execSqrt f s
  | .sqrtS f => Sys2Proof.Machine.execSqrtS f s
  | .exp2 f => Sys2Proof.Machine.execExp2 f s
  | .exp2S f => Sys2Proof.Machine.execExp2S f s
  | .log2 f => Sys2Proof.Machine.execLog2 f s
  | .log2S f => Sys2Proof.Machine.execLog2S f s
  | .sinpi f => Sys2Proof.Machine.execSinpi f s
  | .sinpiS f => Sys2Proof.Machine.execSinpiS f s
  | .cospi f => Sys2Proof.Machine.execCospi f s
  | .cospiS f => Sys2Proof.Machine.execCospiS f s
  | .tanh f => Sys2Proof.Machine.execTanh f s
  | .tanhS f => Sys2Proof.Machine.execTanhS f s
  | .ldexp f => Sys2Proof.Machine.execLdexp f s
  | .ldexpS f => Sys2Proof.Machine.execLdexpS f s
  | .frnd f => Sys2Proof.Machine.execFrnd f s
  | .frndS f => Sys2Proof.Machine.execFrndS f s
  | .fcls f => Sys2Proof.Machine.execFcls f s
  | .fclsS f => Sys2Proof.Machine.execFclsS f s
  | .dot2 f => Sys2Proof.Machine.execDot2 f s
  | .dot2S f => Sys2Proof.Machine.execDot2S f s
  | .dot4 f => Sys2Proof.Machine.execDot4 f s
  | .dot4S f => Sys2Proof.Machine.execDot4S f s
  | .pk f => Sys2Proof.Machine.execPk f s
  | .pkS f => Sys2Proof.Machine.execPkS f s
  | .upk f => Sys2Proof.Machine.execUpk f s
  | .upkS f => Sys2Proof.Machine.execUpkS f s
  | .pairWord f => Sys2Proof.Machine.execPair f s
  | .vote f => Sys2Proof.Machine.execVote f s
  | .elect f => Sys2Proof.Machine.execElect f s
  | .vget f => Sys2Proof.Machine.execVget f s
  | .vput f => Sys2Proof.Machine.execVput f s
  | .redw f => Sys2Proof.Machine.execRedw f s
  | .lanes f => Sys2Proof.Machine.execLanes f s
  | .bra f => Sys2Proof.Machine.execBra f s
  | .brx f => Sys2Proof.Machine.execBrx f s
  | .call f => Sys2Proof.Machine.execCall f s
  | .callIndirect f => Sys2Proof.Machine.execCallIndirect f s
  | .ret f => Sys2Proof.Machine.execRet f s
  | .fork f => Sys2Proof.Machine.execFork f s
  | .join f => Sys2Proof.Machine.execJoin f s
  | .joinp f => Sys2Proof.Machine.execJoinp f s
  | .hoist f => Sys2Proof.Machine.execHoist f s
  | .armend f => Sys2Proof.Machine.execArmend f s
  | .exit f => Sys2Proof.Machine.execExit f s
  | .waitc f => Sys2Proof.Machine.execWaitc f s
  | .yield f => Sys2Proof.Machine.execYield f s
  | .ld f => Sys2Proof.Machine.execLd f s
  | .st f => Sys2Proof.Machine.execSt f s
  | .stRgn f => Sys2Proof.Machine.execStRgn f s
  | .atom f => Sys2Proof.Machine.execAtom f s
  | .red f => Sys2Proof.Machine.execRed f s
  | .fence f => Sys2Proof.Machine.execFence f s
  | .prefetch f => Sys2Proof.Machine.execPrefetch f s
  | .sealRange f => Sys2Proof.Machine.execSeal f s
  | .unsealRange f => Sys2Proof.Machine.execUnseal f s
  | .waitm f => Sys2Proof.Machine.execWaitm f s
  | .waitmMet w st => Sys2Proof.Machine.execWaitmMet w st s
  | .ald f => Sys2Proof.Machine.execAld f s
  | .abeg f => Sys2Proof.Machine.execAbeg f s
  | .aend f => Sys2Proof.Machine.execAend f s
  | .regionCommit w st lane => Sys2Proof.Machine.execRegionCommit w st lane s
  | .aabort f => Sys2Proof.Machine.execAabort f s
  | .cpg f => Sys2Proof.Machine.execCpg f s
  | .cps f => Sys2Proof.Machine.execCps f s
  | .cpb f => Sys2Proof.Machine.execCpb f s
  | .cpv f => Sys2Proof.Machine.execCpv f s
  | .cpm f => Sys2Proof.Machine.execCpm f s
  | .cpx f => Sys2Proof.Machine.execCpx f s
  | .copyComplete op => Sys2Proof.Machine.execCopyComplete op s
  | .copyFail op why addr => Sys2Proof.Machine.execCopyFail op why addr s
  | .deferredTrapDeliver w st => Sys2Proof.Machine.execDeferredTrapDeliver w st s
  | .waitany f => Sys2Proof.Machine.execWaitany f s
  | .waitall f => Sys2Proof.Machine.execWaitall f s
  | .ffrdy f => Sys2Proof.Machine.execFfrdy f s
  | .tagrel f => Sys2Proof.Machine.execTagrel f s
  | .tshape f => Sys2Proof.Machine.execTshape f s
  | .mma f => Sys2Proof.Machine.execMma f s
  | .mmaPerform core => Sys2Proof.Machine.execMmaPerform core s
  | .tzero f => Sys2Proof.Machine.execTzero f s
  | .tload f => Sys2Proof.Machine.execTload f s
  | .tread f => Sys2Proof.Machine.execTread f s
  | .twrite f => Sys2Proof.Machine.execTwrite f s
  | .tdrain f => Sys2Proof.Machine.execTdrain f s
  | .tsave f => Sys2Proof.Machine.execTsave f s
  | .queuedTileOpPerform core => Sys2Proof.Machine.execQueuedTileOpPerform core s
  | .gpin f => Sys2Proof.Machine.execGpin f s
  | .gacc f => Sys2Proof.Machine.execGacc f s
  | .gflush f => Sys2Proof.Machine.execGflush f s
  | .gfree f => Sys2Proof.Machine.execGfree f s
  | .tstat f => Sys2Proof.Machine.execTstat f s
  | .tclr f => Sys2Proof.Machine.execTclr f s
  | .bar f => Sys2Proof.Machine.execBar f s
  | .barr f => Sys2Proof.Machine.execBarr f s
  | .barw f => Sys2Proof.Machine.execBarw f s
  | .cbar f => Sys2Proof.Machine.execCbar f s
  | .launch f => Sys2Proof.Machine.execLaunch f s
  | .fopen f => Sys2Proof.Machine.execFopen f s
  | .fclose f => Sys2Proof.Machine.execFclose f s
  | .fwait f => Sys2Proof.Machine.execFwait f s
  | .tapePush f => Sys2Proof.Machine.execTapePush f s
  | .tapeRun f => Sys2Proof.Machine.execTapeRun f s
  | .tapePop ctx => Sys2Proof.Machine.execTapePop ctx s
  | .awaitTag f => Sys2Proof.Machine.execAwaitTag f s
  | .awaitMem f => Sys2Proof.Machine.execAwaitMem f s
  | .awaitQueue f => Sys2Proof.Machine.execAwaitQueue f s
  | .awaitScope f => Sys2Proof.Machine.execAwaitScope f s
  | .awaitRed f => Sys2Proof.Machine.execAwaitRed f s
  | .contRecordResume w core sub => Sys2Proof.Machine.execContRecordResume w core sub s
  | .qput f => Sys2Proof.Machine.execQput f s
  | .qget f => Sys2Proof.Machine.execQget f s
  | .queueBlockedServe w st => Sys2Proof.Machine.execQueueBlockedServe w st s
  | .qstat f => Sys2Proof.Machine.execQstat f s
  | .qstatLaunch f => Sys2Proof.Machine.execQstatLaunch f s
  | .refill f => Sys2Proof.Machine.execRefill f s
  | .rgrow f => Sys2Proof.Machine.execRgrow f s
  | .rshrink f => Sys2Proof.Machine.execRshrink f s
  | .rgrowDeadlockSave core sub => Sys2Proof.Machine.execRgrowDeadlockSave core sub s
  | .savedWarpRestore w => Sys2Proof.Machine.execSavedWarpRestore w s
  | .dgrp f => Sys2Proof.Machine.execDgrp f s
  | .dgrpFree f => Sys2Proof.Machine.execDgrpFree f s
  | .dred f => Sys2Proof.Machine.execDred f s
  | .dfix f => Sys2Proof.Machine.execDfix f s
  | .dredArrive ctx group index => Sys2Proof.Machine.execDredArrive ctx group index s
  | .deadlineExpire ctx group => Sys2Proof.Machine.execDeadlineExpire ctx group s
  | .trap f => Sys2Proof.Machine.execTrap f s
  | .rft f => Sys2Proof.Machine.execRft f s
  | .rftNext f => Sys2Proof.Machine.execRftNext f s
  | .srd f => Sys2Proof.Machine.execSrd f s
  | .swr f => Sys2Proof.Machine.execSwr f s
  | .brk f => Sys2Proof.Machine.execBrk f s
  | .mark f => Sys2Proof.Machine.execMark f s
  | .nclr f => Sys2Proof.Machine.execNclr f s
  | .loadReturn op unit => Sys2Proof.Machine.execLoadReturn op unit s
  | .storeCommit op unit => Sys2Proof.Machine.execStoreCommit op unit s
  | .l1EvictDrop core line words => Sys2Proof.Machine.execL1EvictDrop core line words s
  | .dirEntryEvict line => Sys2Proof.Machine.execDirEntryEvict line s
  | .faultShadowReexecute w st => Sys2Proof.Machine.execFaultShadowReexecute w st s
  | .hostSubmit ctx addr => Sys2Proof.Machine.execHostSubmit ctx addr s
  | .refusedClear ctx v => Sys2Proof.Machine.execRefusedClear ctx v s
  | .arbiterEnter launch => Sys2Proof.Machine.execArbiterEnter launch s
  | .blockDispatch launch place => Sys2Proof.Machine.execBlockDispatch launch place s
  | .blockComplete block => Sys2Proof.Machine.execBlockComplete block s
  | .warpLeaveActive w => Sys2Proof.Machine.execWarpLeaveActive w s
  | .activeSetForcedLeave core sub => Sys2Proof.Machine.execActiveSetForcedLeave core sub s
  | .scrubVisit core sub => Sys2Proof.Machine.execScrubVisit core sub s
  | .subcoreSleep core sub => Sys2Proof.Machine.execSubcoreSleep core sub s
  | .subcoreWake core sub => Sys2Proof.Machine.execSubcoreWake core sub s
  | .preemptSave core => Sys2Proof.Machine.execPreemptSave core s
  | .blockRestore block place => Sys2Proof.Machine.execBlockRestore block place s
  | .wdogExpire block cluster bid => Sys2Proof.Machine.execWdogExpire block cluster bid s
  | .pageFaultRecord fault => Sys2Proof.Machine.execPageFaultRecord fault s
  | .faultRetry fault => Sys2Proof.Machine.execFaultRetry fault s
  | .faultFail fault => Sys2Proof.Machine.execFaultFail fault s
  | .fciWrite v => Sys2Proof.Machine.execFciWrite v s
  | .hostMemRead pa => Sys2Proof.Machine.execHostMemRead pa s
  | .hostMemWrite pa bytes => Sys2Proof.Machine.execHostMemWrite pa bytes s
  | .hostSnoop line => Sys2Proof.Machine.execHostSnoop line s
  | .peerWordPoll w st => Sys2Proof.Machine.execPeerWordPoll w st s
  | .buryxLinkDown dev routeLeft => Sys2Proof.Machine.execBuryxLinkDown dev routeLeft s
  | .resourceRetire src => Sys2Proof.Machine.execResourceRetire src s
  | .ctxCreate port x => Sys2Proof.Machine.execCtxCreate port x s
  | .ctxDestroy port ctx => Sys2Proof.Machine.execCtxDestroy port ctx s
  | .partSet port x => Sys2Proof.Machine.execPartSet port x s
  | .coreMove port core part => Sys2Proof.Machine.execCoreMove port core part s
  | .queueCreate port x => Sys2Proof.Machine.execQueueCreate port x s
  | .xlateInv port ctx base len => Sys2Proof.Machine.execXlateInv port ctx base len s
  | .faultRing port base count => Sys2Proof.Machine.execFaultRing port base count s
  | .debugStop port ctx on => Sys2Proof.Machine.execDebugStop port ctx on s
  | .debugResume port ctx name => Sys2Proof.Machine.execDebugResume port ctx name s
  | .traceCfg port core x => Sys2Proof.Machine.execTraceCfg port core x s
  | .traceCondition core start stop => Sys2Proof.Machine.execTraceCondition core start stop s
  | .sampleCfg port x => Sys2Proof.Machine.execSampleCfg port x s
  | .stallSample core x => Sys2Proof.Machine.execStallSample core x s
  | .powerStep port step => Sys2Proof.Machine.execPowerStep port step s
  | .powerStepDownAuto => Sys2Proof.Machine.execPowerStepDownAuto s
  | .powerStepBack => Sys2Proof.Machine.execPowerStepBack s
  | .thermalStep4 => Sys2Proof.Machine.execThermalStep4 s
  | .thermalTrip die temp => Sys2Proof.Machine.execThermalTrip die temp s
  | .thermalReset x => Sys2Proof.Machine.execThermalReset x s
  | .buryxRoute port dev routes => Sys2Proof.Machine.execBuryxRoute port dev routes s
  | .errLog port => Sys2Proof.Machine.execErrLog port s
  | .semAcquire port => Sys2Proof.Machine.execSemAcquire port s
  | .semRelease port => Sys2Proof.Machine.execSemRelease port s
  | .semTimeout => Sys2Proof.Machine.execSemTimeout s
  | .reset x => Sys2Proof.Machine.execReset x s
  | .getVersion port => Sys2Proof.Machine.execGetVersion port s
  | .getCapabilities port => Sys2Proof.Machine.execGetCapabilities port s
  | .negotiateAlgorithms port => Sys2Proof.Machine.execNegotiateAlgorithms port s
  | .getDigests port => Sys2Proof.Machine.execGetDigests port s
  | .getCertificate port => Sys2Proof.Machine.execGetCertificate port s
  | .challenge port => Sys2Proof.Machine.execChallenge port s
  | .getMeasurements port => Sys2Proof.Machine.execGetMeasurements port s
  | .keyExchange port => Sys2Proof.Machine.execKeyExchange port s
  | .finish port => Sys2Proof.Machine.execFinish port s
  | .otherRegisterWrite doorbell offset v => Sys2Proof.Machine.execOtherRegisterWrite doorbell offset v s
  | .sealComplete w st => Sys2Proof.Machine.execSealComplete w st s
  | .unsealComplete w st => Sys2Proof.Machine.execUnsealComplete w st s
  | .dgrpRegistrationRecorded w st => Sys2Proof.Machine.execDgrpRegistrationRecorded w st s
  | .dredRouterAccept w st => Sys2Proof.Machine.execDredRouterAccept w st s
  | .gpinReservationRecorded op => Sys2Proof.Machine.execGpinReservationRecorded op s
  | .errorCountWindowEnd src => Sys2Proof.Machine.execErrorCountWindowEnd src s
  | .firmwareUpdate port x => Sys2Proof.Machine.execFirmwareUpdate port x s
  | .buryxPeerAccess dev x => Sys2Proof.Machine.execBuryxPeerAccess dev x s

end Sys2Proof.Machine
end

