-- ==== Sys2Proof/Machine/Issue.lean ====
section
/-! DEFINITION. How a strand goes on by one place: its clause header (04_encoding R59, R60, R64), a slot (R61 to R63,
R80, R81), or the header read again (R66, R387). -/

namespace Sys2Proof.Machine

/-- The CLASS an opcode requires, if any (R62, R79). -/
def opClass (op : Nat) : Option Nat :=
  if op < 0xA0 then none
  else if op < 0xAA then some 1
  else if op < 0xB0 then some 4
  else if op < 0xC0 then some 2
  else if op < 0xD0 then some 3
  else if op < 0xE8 then some 4
  else some 5

/-- Slot `j` holds a word out of place: outside its CLASS, a transfer before the last slot, a literal beyond COUNT or on
a slot with its PAIRS bit set (R61 to R63). -/
def slotMisplaced (h : DWord) (j : Nat) (w : DWord) : Bool :=
  let op := opcodeOf w
  (opClass op).any (fun c => decide (c ≠ hdrClass h)) ||
    (isTransferOp op && decide (j ≠ hdrCount h)) ||
    (decide (slotsAfter false w = 2) && (decide (hdrCount h < j + 1) || (hdrPairs h).testBit (j + 1)))

/-- The trap of a word that is no instruction (R80). -/
def decodeCause : DecodeFate → Cause
  | .illop => .illop | .illenc => .illenc | .illpair => .illpair

/-- Runs what a slot decodes to. -/
def runDecoded (s : State) (i : Iss) (r : Except DecodeFate Instr) : Host.Outcome State Fault Refusal :=
  match r with
  | .ok x => exec x s
  | .error e => finish s (trapDecode i (decodeCause e) 0)

/-- The strand's core keeps a fetched word; the instruction then runs in the state that leaves. -/
def afterFetch (s : State) (i : Iss) (va k : Nat) (w : DWord) : State := after (cacheWord i va k w) s

/-- A slot: its word, with a literal where it takes one. -/
def slotStep (s : State) (i : Iss) (j : Nat) : Host.Outcome State Fault Refusal :=
  let pc := (pcOf i.st).toNat
  match fetch s i pc with
  | .word w k =>
    let t := afterFetch s i pc k w
    if (hdrPairs i.st.hdr).testBit j then runDecoded t i (decodePair w)
    else if !opAssigned (opcodeOf w) then finish t (trapDecode i .illop 0)
    else if slotMisplaced i.st.hdr j w then finish t (trapDecode i .clause 0)
    else if slotsAfter false w = 2 then
      match fetch t i (pc + 8) with
      | .word l k2 => runDecoded (afterFetch t i (pc + 8) k2 l) i (decodeSlot w l)
      | x => finish t (fetchFails i (pc + 8) x)
    else runDecoded t i (decodeSlot w 0)
  | x => finish s (fetchFails i pc x)

/-- A header fault: the trap record names the header (R64). -/
def headerFault (i : Iss) (h : DWord) : Act :=
  trapDecode { i with st := { i.st with slot := none, hdr := h } } .clause 0

/-- A header: its checks, the fault shadow (R33), the traps due at a clause boundary, the counters (R55). -/
def headerStep (s : State) (i : Iss) : Act :=
  match fetch s i i.st.pc.toNat with
  | .word h k =>
    andThen (cacheWord i i.st.pc.toNat k h) <|
    if hdrBad h then headerFault i h
    else if decide (hdrClass h ≠ 0) && !i.st.shadow.isEmpty && i.st.target.isNone then stall i 11
    else unlessDue i { pointOfBounds (hdrBounds h) with edge := true } <|
      if !boundsMet i.warp (hdrBounds h) then stall i 2
      else andThen (updStrand i.w i.k fun t =>
        mergeShadow { t with slot := some 0, hdr := h, reread := false, wait := .none, held := none }) bump
  | x => fetchFails i i.st.pc.toNat x

/-- The header is read again for a strand that stands at a slot; a slot beyond COUNT is the next header. -/
def rereadStep (s : State) (i : Iss) (j : Nat) : Act :=
  match fetch s i i.st.pc.toNat with
  | .word h k =>
    andThen (cacheWord i i.st.pc.toNat k h) <|
    if hdrBad h then headerFault i h
    else andThen (updStrand i.w i.k fun t =>
      if j ≤ hdrCount h then { t with hdr := h, reread := false, held := none }
      else mergeShadow { goto (nextHeader t.pc h) t with reread := false }) bump
  | x => fetchFails i i.st.pc.toNat x

/-- One step of the strand that `cur` names. -/
def strandStep (s : State) (i : Iss) : Host.Outcome State Fault Refusal :=
  match i.st.slot with
  | none => finish s (headerStep s i)
  | some j => if i.st.reread then finish s (rereadStep s i j) else slotStep s i j

/-! ## The order of issue (R31, R349 to R351) -/

/-- Strand `k` of warp `w` could issue, active or not: its next step is no wait, and it is not to stop here (R349, R396). -/
def couldGo (s : State) (w k : Nat) : Bool :=
  let c := { s with cur := some (w, k) }
  match issuer c with
  | none => false
  | some i => decide (i.warp.place = .resident) && strandReady s i.st && !(i.blk.stopping && atRest i.st) &&
    (match strandStep c i with
      | .next t => decide (t.epoch ≠ s.epoch) || decide (t.faults ≠ s.faults)
      | _ => true)

/-- Strand `k` of an active warp is owed the next slot of the warp (R31): ready through 256 cycles, without issuing, in
which the warp held its place. -/
def strandOwed (s : State) (w k : Nat) (x : Warp) : Bool :=
  x.active && (mLook x.strands k).any fun t =>
    (t.readyAt.any fun r => decide (max r x.activeSince + 256 ≤ cycleOf s x.core)) && couldGo s w k
/-- An active warp is owed the next slot of its sub-core (R349): 1,024 cycles in its place with a ready strand, and no
issue. -/
def warpOwed (s : State) (w : Nat) (x : Warp) : Bool :=
  x.active && (x.readySince.any fun r => decide (max r x.activeSince + 1024 ≤ cycleOf s x.core)) &&
    x.strands.any fun e => couldGo s w e.1

/-- No strand that is owed comes first: none of the same warp under R31, none of another active warp of the sub-core
under R31 or the 1,024-cycle rule, unless this one is owed as well. -/
def notBehind (s : State) (w k : Nat) (x : Warp) : Bool :=
  let owed (v : Nat) (y : Warp) : Bool := y.strands.any fun e => strandOwed s v e.1 y
  let mine := strandOwed s w k x
  (x.strands.all fun e => decide (e.1 = k) || mine || !strandOwed s w e.1 x) &&
  (residents s x.core x.sub).all fun e => decide (e.1 = w) || mine ||
    (!owed e.1 e.2 && (warpOwed s w x || !warpOwed s e.1 e.2))

/-- A strand of an active warp that could issue: its sub-core is awake, it is not to stop here, no `yield` of its own is
undecided, and nothing that is owed comes first (R31, R51, R120, R349, R351, R396). The order of ages among the rest
turns on pipe latencies, which the model leaves out (log entry 11). -/
def mayIssue (s : State) (w k : Nat) : Bool :=
  match mLook s.warps w with
  | none => false
  | some x => match mLook x.strands k, mLook s.blocks x.block with
    | some t, some b =>
      decide (x.place = .resident) && x.active && !(coreOf s x.core).asleep.contains x.sub && strandReady s t &&
        !(b.stopping && atRest t) && decide (x.yielding ≠ some k) && notBehind s w k x
    | _, _ => false

/-- What the scheduler finds of a warp: since when each strand, and some strand, has been ready (R31, R349, R351). -/
def noteReady (w : Nat) : Act := look fun s =>
  match mLook s.warps w with
  | none => skip
  | some x =>
    let keep (b : Bool) (old : Option Nat) : Option Nat := if b then some (old.getD (cycleOf s x.core)) else none
    let y : Warp :=
      { x with strands := x.strands.map fun e => (e.1, { e.2 with readyAt := keep (couldGo s w e.1) e.2.readyAt })
               readySince := keep (x.strands.any fun e => couldGo s w e.1) x.readySince }
    if x.place ≠ .resident || y = x then skip else eff (.warp w y)

/-- What a `yield` leaves to the scheduler (R120): with another strand of the warp ready it keeps its place; else a ready
warp outside the active set, the oldest, takes it. -/
def yieldTurn (w : Nat) : Act := look fun s =>
  match mLook s.warps w with
  | none => skip
  | some x => match x.yielding with
    | none => skip
    | some k =>
      andThen (updWarp w fun y => { y with yielding := none }) <|
      if (x.strands.any fun e => decide (e.1 ≠ k) && couldGo s w e.1) || !x.active then bump
      else match oldest ((residents s x.core x.sub).filter fun e => !e.2.active && e.2.strands.any fun t => couldGo s e.1 t.1) with
        | some (p, _) => swapOut w p
        | none => bump

/-- What an issue costs and leaves: a cycle of its core, the times of R51, and nothing owed to what has issued. -/
def charge (i : Iss) : Act :=
  andThen (updCore i.core fun c => { c with extra := c.extra + 1 }) <|
  look fun s => andThen (updCore i.core fun c => { c with lastIssue := mIns c.lastIssue i.warp.sub (cycleOf s i.core) })
    (updWarp i.w fun x => { onStrand i.k (fun t => { t with readyAt := none }) x with
                            lastIssue := cycleOf s i.core, readySince := none })

/-- After a step of a strand: nothing issues any more; where it went on, the issue is charged, and a trace stop at its
PC takes effect (R425). -/
def endIssue (before : State) (i : Iss) (t : State) : State :=
  let u := { t with cur := none }
  if t.epoch = before.epoch then u
  else applyAll (andThen (charge i) (look fun s => match (coreOf s i.core).tracer with
    | some x => traceTurn i.core false (pcHit (pcOf i.st) x.args.stop)
    | none => skip) u) u

/-- The trace unit of the core sees the PC before the strand goes on: a start without a stop turns it on. -/
def traceStart (i : Iss) : Act := look fun s => match (coreOf s i.core).tracer with
  | some x => traceTurn i.core (pcHit (pcOf i.st) x.args.start && !pcHit (pcOf i.st) x.args.stop) false
  | none => skip

/-- Strand `k` of warp `w` goes on by one place, if it may. -/
def issueStrand (w k : Nat) (s : State) : Host.Outcome State Fault Refusal :=
  if !mayIssue s w k then .next s
  else
    let c := { s with cur := some (w, k) }
    match issuer c with
    | none => .next s
    | some i => match strandStep (after (traceStart i) c) i with
      | .next t => .next (endIssue s i t)
      | .fault f => .fault f
      | .refused r => .refused r

end Sys2Proof.Machine
end

