-- ==== Sys2Proof/Machine/Choose.lean ====
section
/-! DEFINITION. The inputs of a step, and what may happen next when none is given: the strands that could issue and the
device's own steps (log entries 2 and 3). -/

namespace Sys2Proof.Machine

/-! ## Inputs -/

/-- No access in flight has a word of four bytes. -/
def wordFree (s : State) (x : BadWord) : Bool :=
  let free (l : Loc) : Bool := s.ops.all fun e => e.2.units.all fun u => u.done || !locOverlap u.loc u.n l 4
  match x with | .glob k => free (.glob k) | .scr b o => free (.scr b o) | _ => true

/-- The place is that of an aligned word. -/
def wordAligned : BadWord → Bool
  | .glob k => decide (k % 4 = 0) | .scr _ o => decide (o % 4 = 0) | .bst _ o => decide (o % 512 < 128) | _ => true

/-- A word becomes uncorrectable (R49, R399, R400). -/
def spoil (x : BadWord) : Act := fun s =>
  if s.bad.contains x || !wordFree s x || !wordAligned x then [] else [.bad (x :: s.bad)]

/-- What an input does. An instruction word is no event. -/
def takeInput (x : Input) (s : State) : Host.Outcome State Fault Refusal :=
  match x with
  | .issue w k => issueStrand w k s
  | .event i => if (encode i).isSome then .next s else exec i s
  | .tick n => finish s (andThen (eff (.now (s.now + n))) bump)
  | .tickCore c n => finish s (andThen (updCore c fun x => { x with extra := x.extra + n }) bump)
  | .tlbEvict c key => finish s (updCore c fun x => { x with tlb := mDel x.tlb key })
  | .icacheEvict c key => finish s (updCore c fun x => { x with icache := mDel x.icache key })
  | .element op k => finish s (andThen (element op k) (andThen (queueEvent op k) bump))
  | .badWord b => finish s (spoil b)
  | .corrected src => finish s (noteCorrected src)
  | .uncorrected src => finish s (noteUncorrected src)
  | .ninthLine k src => finish s (ninthLine k src)
  | .outside k bs => finish s (outsideWrite k bs)
  | .world y b => finish s (setWorld y b)
  | .activate w => finish s (activateWarp w)
  | .noteReady w => finish s (noteReady w)
  | .yieldTurn w => finish s (yieldTurn w)
  | .finishLaunch id => finish s (finishRecord id)
  | .preemptBlock b => finish s (makeRoom b)
  | .bringUp => finish s bringUpStep
  | .sample c y => execStallSample c y s
  | .areaWord c n b j => finish s (areaWord c n b j)
  | .areaDone c n b => finish s (areaDone c n b)
  | .fabricArrive c n x => finish s (fabricArrive c n x)
  | .fabricLeave c n j => finish s (fabricLeave c n j)
  | .fabricArea c n corr ws => finish s (fabricArea c n corr ws)

/-! ## Places for blocks (R344: which free core is chosen is not fixed) -/

/-- Ways to dispatch the next blocks of a launch; with no place named, a record that breaks its limits is rejected. -/
def dispatches (s : State) (id : Nat) (l : Launch) : List (List BlockPlace) :=
  if l.stage = .entered && decide (l.blocksN = 0) then [[]]
  else if !waitsForCores l then []
  else [] :: (clustersOf s l).map fun b => placesAt s id l (mayOffer s id l) b

/-- Ways to restore the blocks saved with a block. -/
def restores (s : State) (b : Block) : List (List BlockPlace) :=
  match launchOf s b with
  | some l => (clustersOf s l).map fun base => returnsAt s l b (mayReturn s b l) base
  | none => []

/-! ## The device's own steps -/

/-- Steps of accesses in flight. -/
def accessEvents (s : State) : List Instr :=
  s.ops.flatMap fun e => e.2.units.zipIdx.filterMap fun u =>
    if u.1.done || !mayPerform s e.1 e.2 u.1 then none
    else some (if e.2.kind.onLd then .loadReturn e.1 u.2 else .storeCommit e.1 u.2)

/-- The failures that transfers of an operation meet. -/
def failures (s : State) (o : EngOp) : List (FailCause × Nat) :=
  (List.range (moveCount o)).filterMap fun k =>
    if o.done.contains k then none
    else match moveOf o k with
      | some m => (match moveFate s o k m with | .fail w a _ => some (w, a) | _ => none)
      | none => none

/-- Steps of engine operations. -/
def engineEvents (s : State) : List Instr :=
  (s.engs.filter fun e => match e.2.kind with | .pin _ _ => true | _ => false).map (fun e => .gpinReservationRecorded e.1) ++
  s.engs.flatMap (fun e => .copyComplete e.1 :: (failures s e.2).map fun f => .copyFail e.1 f.1 (BitVec.ofNat 64 f.2)) ++
  ((s.engs.filter (·.2.queued)).map (·.2.core)).eraseDups.flatMap fun c => [.mmaPerform c, .queuedTileOpPerform c]

/-- Steps of strands that wait. -/
def strandEvents (s : State) : List Instr :=
  (allStrands s).flatMap fun x =>
    let w := x.1
    let k := x.2.1
    (match x.2.2.wait with
      | .met _ => if x.2.2.idleAt < s.epoch then [.waitmMet w k] else []
      | .sealing _ _ => [.sealComplete w k]
      | .unsealing _ _ => [.unsealComplete w k]
      | .registering _ _ _ => [.dgrpRegistrationRecorded w k]
      | .contributing _ _ _ _ => [.dredRouterAccept w k]
      | .commit left _ _ _ => (lanesIn left).map fun l => .regionCommit w k l
      | .putting _ _ | .getting _ _ _ _ _ => if x.2.2.idleAt < s.epoch then [.queueBlockedServe w k] else []
      | _ => []) ++ [.deferredTrapDeliver w k] ++ (if x.2.2.shadow.isEmpty then [] else [.faultShadowReexecute w k])

/-- A ready warp sleeps with its sub-core, which wakes for it (R51). -/
def wakeDue (s : State) (core sub : Nat) : Bool :=
  (coreOf s core).asleep.contains sub && (residents s core sub).any fun e => warpReady s e.2
/-- The sub-cores that hold a warp. -/
def busySubs (s : State) : List (Nat × Nat) := (s.warps.map fun e => (e.2.core, e.2.sub)).eraseDups

/-- Steps of warps and sub-cores. -/
def warpEvents (s : State) : List Instr :=
  s.warps.flatMap (fun e => match e.2.place with
    | .resident => [.warpLeaveActive e.1]
    | .regSaved => [.savedWarpRestore e.1]
    | .record => .contRecordResume e.1 e.2.core e.2.sub ::
        (((mLook s.blocks e.2.block).map (·.cores)).getD []).map fun c => .contRecordResume e.1 c (servingSub s c e.2.num)
    | _ => []) ++
  (busySubs s).flatMap fun b =>
    [.activeSetForcedLeave b.1 b.2, .rgrowDeadlockSave b.1 b.2, .subcoreSleep b.1 b.2, .scrubVisit b.1 b.2] ++
      (if wakeDue s b.1 b.2 then [.subcoreWake b.1 b.2] else [])

/-- The samples that a core's sampler could take next: of a strand of the sub-core whose turn it is, or of an empty one
(R423). -/
def samples (s : State) (core : Nat) (c : Core) : List SampleTaken :=
  match c.sampler with
  | none => []
  | some p =>
    ⟨0, 0, 0, 15, false⟩ ::
      ((allStrands s).filter fun x => (mLook s.warps x.1).any fun y =>
        decide (y.core = core) && decide (y.sub = p.turn / 2 % Config.subcores)).flatMap fun x =>
        (List.range 15).map fun r => ⟨x.1, x.2.1, 0, r, false⟩

/-- Steps of contexts, launches, blocks and the hub. -/
def deviceEvents (s : State) : List Instr :=
  s.ctxs.flatMap (fun c => .tapePop c.1 :: c.2.groups.flatMap fun g =>
    .deadlineExpire c.1 g.1 :: g.2.flight.map fun x => .dredArrive c.1 g.1 x.index) ++
  s.launches.flatMap (fun l => .arbiterEnter l.1 :: (dispatches s l.1 l.2).map fun p => .blockDispatch l.1 p) ++
  s.blocks.flatMap (fun b => .blockComplete b.1 :: b.2.bars.map (fun x => .wdogExpire b.1 false x.1) ++
    (match mLook s.groups b.2.group with | some g => g.bars.map fun x => .wdogExpire b.1 true x.1 | none => []) ++
    (if b.2.stopping && !b.2.forced then b.2.cores.map fun c => .preemptSave c else []) ++
    (if b.2.place = .saved then (restores s b.2).map fun p => .blockRestore b.1 p else [])) ++
  ((nextReport s).toList.map fun f => .pageFaultRecord f) ++ (s.mgmt.lasting.map fun x => .resourceRetire x) ++ [.semTimeout]

/-- An act changes the state. -/
def alters (s : State) (a : Act) : Bool := decide (after a s ≠ s)
/-- An outcome is another state. -/
def moves (s : State) : Host.Outcome State Fault Refusal → Bool | .next t => decide (t ≠ s) | _ => false
/-- A step changes the state. -/
def changes (s : State) (i : Instr) : Bool := moves s (exec i s)

/-- The device's own steps that no instruction word or event names, as far as they would do something. -/
def quietSteps (s : State) : List Input :=
  (s.warps.filter fun e => !e.2.active && decide (e.2.place = .resident) && alters s (activateWarp e.1)).map (fun e => .activate e.1) ++
  (s.warps.filter fun e => e.2.yielding.isSome).map (fun e => .yieldTurn e.1) ++
  (s.launches.filter fun e => decide (e.2.stage = .finished)).map (fun e => .finishLaunch e.1) ++
  (s.blocks.filter fun e => alters s (makeRoom e.1)).map (fun e => .preemptBlock e.1) ++
  s.cores.flatMap (fun c => ((samples s c.1 c.2).filter fun x => moves s (execStallSample c.1 x s)).map (.sample c.1)) ++
  s.ctxs.flatMap (fun c => (areaSteps c.1 c.2).filter fun x => match x with
    | .areaDone _ n b => alters s (areaDone c.1 n b)
    | _ => true)

/-- What may happen next. -/
def options (s : State) : List Input :=
  ((allStrands s).filterMap fun x => if mayIssue s x.1 x.2.1 then some (.issue x.1 x.2.1) else none) ++
  quietSteps s ++
  ((accessEvents s ++ engineEvents s ++ strandEvents s ++ warpEvents s ++ deviceEvents s).filter (changes s)).map .event ++
  (if (nextStage s.mgmt).isSome then [.bringUp] else [])

/-- Warps whose readiness the scheduler has to note: it does so in the cycle in which it changes. -/
def unnoted (s : State) : List Nat := (s.warps.filter fun e => alters s (noteReady e.1)).map (·.1)

/-- One of them, chosen freely (log entry 3), once the scheduler has noted what is ready; a cycle passes where there is
none. -/
def chosen (s : State) : Input :=
  match unnoted s, options s with
  | w :: _, _ => .noteReady w
  | [], [] => .tick 1
  | [], [x] => x
  | [], xs => (pick xs (choice s 0)).getD (.tick 1)

end Sys2Proof.Machine
end

