-- ==== Sys2Proof/Machine/Place.lean ====
section
/-! DEFINITION. A program of one instruction, placed as a load from outside the machine would leave it (log entry 1):
its clause in device memory, a context, and a dispatched block of one warp whose strand stands at the first slot. -/

namespace Sys2Proof.Machine

/-- Where the clause stands: an address of die 0's DRAM that maps to itself. -/
def programAt : Nat := 0x1000

/-- The leaf of the page that holds the clause: 1 GiB of die 0, to be read, written and fetched (R391). -/
def programLeaf : DWord := 0xF

/-- The header of a clause that holds one instruction, with its literal. -/
def programHeader (w : DWord) : DWord :=
  BitVec.ofNat 64 ((opClass (opcodeOf w)).getD 0 * 2 ^ 60 + (if slotsAfter false w = 2 then 1 else 0) * 2 ^ 56 +
    0xFFFF * 2 ^ 40)

/-- A launch record of one block of one warp (R337): all registers, scratch, tags and accumulator. -/
def programRecord : List Byte :=
  bytesOfNat 8 programAt ++ bytesOfNat 8 0 ++ bytesOfNat 1 5 ++ bytesOfNat 5 0 ++ bytesOfNat 2 0 ++ bytesOfNat 4 1 ++
  bytesOfNat 2 32 ++ bytesOfNat 1 1 ++ bytesOfNat 1 0 ++ bytesOfNat 2 512 ++ bytesOfNat 2 384 ++ bytesOfNat 4 1835008 ++
  bytesOfNat 2 512 ++ bytesOfNat 2 512 ++ bytesOfNat 1 64 ++ bytesOfNat 1 0 ++ bytesOfNat 2 0 ++ bytesOfNat 2 0xFFFF ++
  bytesOfNat 78 0

/-- The launch of that record. -/
def programLaunch (cid : Nat) : Launch := { ctx := cid, bytes := programRecord, scope := none, stage := .running, nextB := 1 }

/-- The warp as a dispatch leaves it, with its strand in entry `k` at slot 0 of the clause. -/
def programWarp (cid blk k : Nat) (h : DWord) : Warp := reseed (programLaunch cid) 0
  { block := blk, num := 0, core := 0, sub := 0, alloc := 512, active := true, live := 0xFFFFFFFF, nextAge := 1,
    strands := [(k, { members := 0xFFFFFFFF, pc := BitVec.ofNat 64 programAt, slot := some 0, hdr := h })] }

/-- Places an instruction: its first word in bits 63:0, a literal in bits 127:64. -/
def placeProgram (s : State) (raw : Nat) : State :=
  let w := BitVec.ofNat 64 raw
  let h := programHeader w
  let cid := mFree s.ctxs 64 0
  let lid := (freshId s).toNat
  let blk := s.nextId
  let k := mFree ((usedEntries s 0 0).foldl (fun m e => mIns m e ()) []) 64 0
  applyAll
    [.bytes programAt (bytesOfNat 8 h.toNat ++ bytesOfNat 16 raw), .ctx cid {}, .launch lid (programLaunch cid),
     .block blk { launch := lid, ctx := cid, b := 0, cores := [0], warps := [blk + 1], group := blk + 2,
                  rect := [(0, List.range 16)] },
     .group (blk + 2) { blocks := [blk], base := 0 }, .warp (blk + 1) (programWarp cid blk k h), .ids (blk + 3),
     .core 0 { coreOf s 0 with ctx := some cid, icache := [], asleep := [],
                               tlb := mIns (coreOf s 0).tlb (tlbKey cid programAt) (programLeaf, 2 ^ 30) }]
    { s with agenda := .issue (blk + 1) k :: s.agenda, cur := none }

end Sys2Proof.Machine
end

