-- ==== Sys2Proof/Machine/Step.lean ====
section
/-! DEFINITION. One step of the device: the next input, or one of the things that may happen next; and the placing of
an instruction where the next step runs it. -/

namespace Sys2Proof.Machine

/-- One step. -/
def step (s : State) : Host.Outcome State Fault Refusal :=
  match s.agenda with
  | x :: rest => takeInput x { s with agenda := rest, tick := s.tick + 1 }
  | [] => takeInput (chosen s) { s with tick := s.tick + 1 }

/-- `s` with an instruction of `nbits` bits placed where the next step runs it. -/
def State.withFetchWord (s : State) (nbits w : Nat) : State := placeProgram s (w % 2 ^ nbits)

end Sys2Proof.Machine
end

