-- ==== Sys2Proof/Safety.lean ====
section
/-! DEFINITION. What the statements say about runs and states in general: a run that does not stop, a state whose tables
stand in their one canonical form, and how much of a state an instruction leaves as it was. -/

namespace Sys2Proof.Machine

/-- A run of `n` steps that stops nowhere. -/
def Goes (n : Nat) (s : State) : Prop := ∃ t, Sys2Proof.core.run n s = .next t

/-- Every table in canonical form: memory and the directory list no default, and the keys of every table rise. Equal
states are then equal data. -/
structure State.Canonical (s : State) : Prop where
  mem : Memory.wf s.mem = true
  dir : mCanon 0 s.dir = true
  warps : mSorted s.warps = true
  blocks : mSorted s.blocks = true
  groups : mSorted s.groups = true
  launches : mSorted s.launches = true
  ctxs : mSorted s.ctxs = true
  cores : mSorted s.cores = true
  parts : mSorted s.parts = true
  queues : mSorted s.queues = true
  pool : mSorted s.pool = true
  ops : mSorted s.ops = true
  engs : mSorted s.engs = true
  faults : mSorted s.faults = true

/-- `t` is `s` but for what a register instruction of warp `w` in block `b` may touch: the warp, which is `x` in `t`;
pennants added to the block's `%bstat`; whether a trace unit is on; error marks, of which some may be gone; progress. All
of memory, every other warp, every queue, operation, launch, context and special unit is as it was. -/
structure RegisterFrame (s t : State) (w b : Nat) (x : Warp) : Prop where
  rest : t = { s with warps := t.warps, blocks := t.blocks, cores := t.cores, bad := t.bad, epoch := t.epoch }
  self : mLook t.warps w = some x
  warps : ∀ v, v ≠ w → mLook t.warps v = mLook s.warps v
  blocks : ∀ c, c ≠ b → mLook t.blocks c = mLook s.blocks c
  block : ∀ y, mLook s.blocks b = some y → ∃ p, mLook t.blocks b = some { y with bstat := y.bstat ||| p }
  cores : ∀ c, coreOf t c = { coreOf s c with tracer := (coreOf t c).tracer }
  bad : ∀ y ∈ t.bad, y ∈ s.bad

/-- In `x` the strand of issue `i` stands at `pc` and `slot` with its members, and every other strand of its warp is as
it was. -/
structure Stands (i : Iss) (pc : DWord) (slot : Option Nat) (x : Warp) : Prop where
  here : ∃ y, mLook x.strands i.k = some y ∧ y.pc = pc ∧ y.slot = slot ∧ y.members = i.st.members
  others : ∀ k, k ≠ i.k → mLook x.strands k = mLook i.warp.strands k

/-- The strand stands `n` slots further (04_encoding R60). -/
abbrev Past (i : Iss) (n : Nat) (x : Warp) : Prop := Stands i (stepSlots n i.st).pc (stepSlots n i.st).slot x

/-- An instruction of issue `i` that acts on registers alone goes on: its strand stands at `pc` and `slot`, its warp is
as `P` says, and all else is as `RegisterFrame` says. -/
def RunsAt (s : State) (i : Iss) (o : Host.Outcome State Fault Refusal) (pc : DWord) (slot : Option Nat)
    (P : Warp → Prop) : Prop :=
  ∃ t x, o = .next t ∧ RegisterFrame s t i.w i.warp.block x ∧ Stands i pc slot x ∧ P x

/-- The same, its strand standing `n` slots further. -/
def RunsTo (s : State) (i : Iss) (o : Host.Outcome State Fault Refusal) (n : Nat) (P : Warp → Prop) : Prop :=
  RunsAt s i o (stepSlots n i.st).pc (stepSlots n i.st).slot P

/-- Between the warp at issue and `x`, vector registers changed only in the lanes `g` and only among `ds`, and the
stochastic state and the open region of a lane only in `g`. -/
structure VectorFrame (i : Iss) (g : Mask) (ds : List Nat) (x : Warp) : Prop where
  regs : ∀ r l, l < 32 → hasLane g l = false ∨ r ∉ ds → vR x r l = vR i.warp r l
  rand : ∀ l, hasLane g l = false → mGet 0 x.lanesRand l = mGet 0 i.warp.lanesRand l
  regions : ∀ l, hasLane g l = false → mLook x.regions l = mLook i.warp.regions l

/-- Lane predicate `n` takes `b l` in each lane `l` of `g`, but for p7, which reads true always (03_registers R43); every
other lane predicate keeps its value. -/
def PredWrite (i : Iss) (g : Mask) (n : Nat) (b : Nat → Bool) (x : Warp) : Prop :=
  ∀ m l, l < 32 → pR x m l = if m = n ∧ hasLane g l = true ∧ n ≠ 7 then b l else pR i.warp m l

/-- Scalar predicate `n` takes `b`, but for q7, which reads true always; the others keep their values. -/
def QWrite (i : Iss) (n : Nat) (b : Bool) (x : Warp) : Prop :=
  ∀ m < 8, qR x m = if m = n ∧ n ≠ 7 then b else qR i.warp m

/-- Nothing holds an instruction back and nothing traps it before its own effect: its strand issues it, its fields keep
their limits, its registers are ready and free of errors and races (03_registers R42, R49, 02_execution_model R22 to R33). -/
structure MayRun (s : State) (i : Iss) (chk : Option (Cause × Nat)) (u : Uses) (g : Mask) : Prop where
  here : issuer s = some i
  legal : chk = none
  open_ : gate s i u g = .go

/-! ## The ALU instructions by shape (05_ref_integer_control, 09_ref_float_lane, 17_ref_matrix) -/

/-- The V-form instructions that write one vector register or pair from their sources: the fields their operands come
from, which sources they read and how wide, what each lane computes, and the tag a result may keep in an open region. -/
def vectorForms (f : VFields) (s : State) :
    List (Instr × VFields × AluShape × (Word → ElemFn) × (Iss → KeepFn)) :=
  [(.add f, f, plainShape f.ty, addFn f, keepSum s f false),
   (.sub f, f, plainShape f.ty, subFn f, keepSum s f true),
   (.mul f, f, plainShape f.ty, mulFn f, fun _ => noKeep),
   (.mad f, f, threeShape f.ty, madFn f, fun _ => noKeep),
   (.minOp f, f, plainShape f.ty, minMaxFn false f, fun _ => noKeep),
   (.maxOp f, f, plainShape f.ty, minMaxFn true f, fun _ => noKeep),
   (.neg f, f, oneShape f.ty, negFn f, fun _ => noKeep), (.absOp f, f, oneShape f.ty, absFn f, fun _ => noKeep),
   (.mov f, f, oneShape f.ty, copyFn, keepMov f), (.movi f, f, oneShape f.ty, copyFn, fun _ => noKeep),
   (.cvt f, f, cvtShape f, cvtFn f, fun _ => noKeep),
   (.mulhi f, f, plainShape f.ty, mulhiFn f, fun _ => noKeep),
   (.madw f, f, madwShape, madwFn f, fun _ => noKeep),
   (.andOp f, f, plainShape f.ty, logicFn (· &&& ·), fun _ => noKeep),
   (.orOp f, f, plainShape f.ty, logicFn (· ||| ·), fun _ => noKeep),
   (.xorOp f, f, plainShape f.ty, logicFn (· ^^^ ·), fun _ => noKeep),
   (.notOp f, f, oneShape f.ty, notFn f, fun _ => noKeep),
   (.shl f, f, shiftShape f.ty, shlFn f, fun _ => noKeep),
   (.shr f, f, shiftShape f.ty, shrFn f, fun _ => noKeep),
   (.sar f, f, shiftShape f.ty, sarFn f, fun _ => noKeep),
   (.popc f, f, countShape f.ty, popcFn f, fun _ => noKeep),
   (.clz f, f, countShape f.ty, clzFn f, fun _ => noKeep),
   (.brev f, f, oneShape f.ty, brevFn f, fun _ => noKeep),
   (.bfe f, f, shiftShape f.ty, bfeFn f, fun _ => noKeep), (.bfi f, f, bfiShape f.ty, bfiFn f, fun _ => noKeep),
   (.lea f, f, leaShape, leaFn f, fun _ => noKeep), (.div f, f, plainShape f.ty, binFn f fDiv, fun _ => noKeep),
   (.rcp f, f, oneShape f.ty, unFn f fRcp, fun _ => noKeep),
   (.rsqrt f, f, oneShape f.ty, rsqrtFn f, fun _ => noKeep),
   (.sqrt f, f, oneShape f.ty, unFn f fSqrt, fun _ => noKeep),
   (.exp2 f, f, oneShape f.ty, approxFn f fExp2, fun _ => noKeep),
   (.log2 f, f, oneShape f.ty, approxFn f fLog2, fun _ => noKeep),
   (.sinpi f, f, oneShape f.ty, trigFn 0x25 false f, fun _ => noKeep),
   (.cospi f, f, oneShape f.ty, trigFn 0x26 true f, fun _ => noKeep),
   (.tanh f, f, oneShape f.ty, approxFn f fTanh, fun _ => noKeep),
   (.ldexp f, f, plainShape f.ty, ldexpFn f, fun _ => noKeep),
   (.frnd f, f, oneShape f.ty, frndFn f, fun _ => noKeep),
   (.fcls f, f, oneShape f.ty, fclsFn f, fun _ => noKeep),
   (.dot2 f, f, threeShape f.ty, dot2Fn f, fun _ => noKeep), (.dot4 f, f, dot4Shape, dot4Fn f, fun _ => noKeep),
   (.pk f, pkFields f, dot4Shape, pkFn f, fun _ => noKeep), (.upk f, f, upkShape f, upkFn f, fun _ => noKeep)]

/-- Their S forms. -/
def scalarForms (f : VFields) : List (Instr × VFields × AluShape × (Word → ElemFn)) :=
  [(.addS f, f, plainShape f.ty, addFn f), (.subS f, f, plainShape f.ty, subFn f),
   (.mulS f, f, plainShape f.ty, mulFn f), (.madS f, f, threeShape f.ty, madFn f),
   (.minS f, f, plainShape f.ty, minMaxFn false f), (.maxS f, f, plainShape f.ty, minMaxFn true f),
   (.negS f, f, oneShape f.ty, negFn f), (.absS f, f, oneShape f.ty, absFn f),
   (.movS f, f, oneShape f.ty, copyFn), (.moviS f, f, oneShape f.ty, copyFn), (.cvtS f, f, cvtShape f, cvtFn f),
   (.mulhiS f, f, plainShape f.ty, mulhiFn f), (.madwS f, f, madwShape, madwFn f),
   (.andS f, f, plainShape f.ty, logicFn (· &&& ·)), (.orS f, f, plainShape f.ty, logicFn (· ||| ·)),
   (.xorS f, f, plainShape f.ty, logicFn (· ^^^ ·)), (.notS f, f, oneShape f.ty, notFn f),
   (.shlS f, f, shiftShape f.ty, shlFn f), (.shrS f, f, shiftShape f.ty, shrFn f),
   (.sarS f, f, shiftShape f.ty, sarFn f), (.popcS f, f, countShape f.ty, popcFn f),
   (.clzS f, f, countShape f.ty, clzFn f), (.brevS f, f, oneShape f.ty, brevFn f),
   (.bfeS f, f, shiftShape f.ty, bfeFn f), (.bfiS f, f, bfiShape f.ty, bfiFn f),
   (.leaS f, f, leaShape, leaFn f), (.divS f, f, plainShape f.ty, binFn f fDiv),
   (.rcpS f, f, oneShape f.ty, unFn f fRcp), (.rsqrtS f, f, oneShape f.ty, rsqrtFn f),
   (.sqrtS f, f, oneShape f.ty, unFn f fSqrt), (.exp2S f, f, oneShape f.ty, approxFn f fExp2),
   (.log2S f, f, oneShape f.ty, approxFn f fLog2), (.sinpiS f, f, oneShape f.ty, trigFn 0x25 false f),
   (.cospiS f, f, oneShape f.ty, trigFn 0x26 true f), (.tanhS f, f, oneShape f.ty, approxFn f fTanh),
   (.ldexpS f, f, plainShape f.ty, ldexpFn f), (.frndS f, f, oneShape f.ty, frndFn f),
   (.fclsS f, f, oneShape f.ty, fclsFn f), (.dot2S f, f, threeShape f.ty, dot2Fn f),
   (.dot4S f, f, dot4Shape, dot4Fn f), (.pkS f, pkFields f, dot4Shape, pkFn f),
   (.upkS f, f, upkShape f, upkFn f)]

/-! ## Traps (25_traps_faults R383 to R388) -/

/-- Trap `T` of the issuing strand has been taken with a handler: its record stands at the warp's slot, the strand is
parked, and a handler strand with its members, its age and depth 0 stands at TRAP in its entry (R385, R386). -/
structure TrapEntered (s t : State) (i : Iss) (T : Trap) : Prop where
  rest : t = { s with mem := t.mem, bad := t.bad, warps := t.warps, cores := t.cores, epoch := t.epoch }
  record : t.mem = (after (writeVirt i.ctx i.warp.recAt.toNat (trapBytes T)) s).mem
  warps : ∀ v, v ≠ i.w → mLook t.warps v = mLook s.warps v
  warp : ∃ x, mLook t.warps i.w = some x ∧
    x = { i.warp with strands := x.strands
                      handler := some ⟨{ i.st with wait := .none, trap := none, held := none }, i.k, T⟩ } ∧
    mLook x.strands i.k =
      some { members := i.st.members, pc := BitVec.ofNat 64 i.lau.trap, age := i.st.age, handler := true } ∧
    ∀ k, k ≠ i.k → mLook x.strands k = mLook i.warp.strands k
  cores : ∀ c, coreOf t c = { coreOf s c with tracer := (coreOf t c).tracer }

/-- The context of the issuing strand has ended with status 2 (R380, R340): its diagnostic area takes `diag`, each of its
open launches the bytes +1 to +15 of its completion record, with `fpc` in that of the strand's own, byte +0 to follow;
its warps and blocks are gone, what stays of it is what `endedContext` says, and the host is told. -/
structure ContextEnded (s t : State) (i : Iss) (diag : List Byte) (fpc : DWord) : Prop where
  records : t.mem = (after (andThen (writeVirt i.ctx i.ctx.diag.toNat diag)
    (forAll (fun (e : Nat × Launch) => look fun u => if doneOk u i.ctx e.2.bytes then
        writeVirt i.ctx (e.2.doneAt + 1) (completionTail 2 (endPennants (blocksOf s i.cid) e).toNat e.2.doneBlocks
          (if some i.blk.launch = some e.1 then fpc else 0))
      else skip) (openLaunches s i.cid))) s).mem
  ended : mLook t.ctxs i.cid = some (endedContext i.ctx)
  blocks : ∀ b y, mLook t.blocks b = some y → y.ctx ≠ i.cid
  others : ∀ c, c ≠ i.cid → mLook t.ctxs c = mLook s.ctxs c
  warps : ∀ v x, mLook t.warps v = some x → mLook s.warps v = some x
  signal : mGet 0 t.mgmt.msi 3 = mGet 0 s.mgmt.msi 3 + 1

/-- The issuing strand may take a trap now: no part of it runs ahead of a parked part (R34). -/
def TrapNow (i : Iss) : Prop := i.st.shadow = [] ∨ i.st.target.isSome = true

/-! ## Barriers (23_ref_sync_launch R364 to R367) -/

/-- The strand arrives at the barrier that `f` names: the guard holds, the values are legal, no lane has a region, the
lanes' earlier accesses are done, none of them has arrived in this phase, and the count is the phase's. -/
structure Arrives (s : State) (i : Iss) (f : CFields) (cluster : Bool) : Prop where
  may : MayRun s i (chkAll true (barOpnd i f && barCnt f)) { sr := barReads f, mem := true, shadow := true, act := guardScalar i f.gp f.gn } 0
  guard : guardScalar i f.gp f.gn = true
  values : barValues i f = true
  region : regionLanes i &&& i.lanes = 0
  quiet : quiet s i.w i.lanes = true
  fresh : mGet 0 (barAt s i cluster (barId i f)).arrived i.w &&& i.lanes = 0
  count : ∀ n, (barAt s i cluster (barId i f)).count = some n → n = barCount i f

/-- The barrier after the arrival: in its next phase when the arrival completes it. -/
def afterArrival (s : State) (i : Iss) (f : CFields) (cluster : Bool) (ws : List Nat) : Barrier :=
  let b := arrive s i cluster (barCount i f) (barAt s i cluster (barId i f))
  if phaseDone s ws b then nextPhase b else b

/-! ## Control transfers (05_ref_integer_control R115) -/

/-- The control transfers: operand check, what they read and write, whether the target is a label, the target, and the
pair that takes the link. -/
def transfers (f : CFields) (i : Iss) : List (Instr × Bool × Uses × Bool × DWord × Option (BitVec 9)) :=
  [(.bra f, true, {}, true, labelAt i f.disp.toInt, none),
   (.brx f, sPair i f.a, { sr := regs f.a.toNat true }, false,
     BitVec.ofNat 64 (sVal i.warp true f.a.toNat) + BitVec.ofInt 64 (8 * f.disp.toInt), none),
   (.call f, sPair i f.a, { sw := regs f.a.toNat true }, true, labelAt i f.disp.toInt, some f.a),
   (.callIndirect f, sPair i f.a && sPair i f.b, { sr := regs f.b.toNat true, sw := regs f.a.toNat true }, false,
     BitVec.ofNat 64 (sVal i.warp true f.b.toNat), some f.a),
   (.ret f, sPair i f.a, { sr := regs f.a.toNat true }, false, BitVec.ofNat 64 (sVal i.warp true f.a.toNat), none)]

/-! ## Memory accesses (13_ref_memory_copy R214 to R220, 12_ordering R198) -/

/-- The accesses of threads: operand checks, uses, what is in flight, the checks of each lane, and the units. -/
def accessForms (f : MFields) (s : State) (i : Iss) :
    List (Instr × Option (Cause × Nat) × Uses × MKind × List LaneFate × (Nat → Loc → List MUnit)) :=
  let g := guardMask i f.gp f.gn
  let n := widthRegs f.width
  [(.ld f, chkAll true (addrOk i f && vOk i f.d.toNat n), ldUses f, .load, fatesOf s i f (addrAt i f) g true false,
      plainUnits f fun _ _ => 0),
   (.st f, chkAll (routeOk i f.rd) (addrOk i f && vOk i f.d.toNat n), sendUses i f (dataRegs f) g, .store,
      fatesOf s i f (addrAt i f) g false true, plainUnits f (storeData i f)),
   (.atom f, chkAll true (atomOpnd i f), atomUses f, .atom (sopOf f) (!noReturn f),
      fatesOf s i f (plainAt i f) g true true, atomUnits i f),
   (.red f, chkAll (routeOk i f.rd) (addrOk i f && vOk i f.d.toNat (span (f.width = .w64))),
      sendUses i f (regs f.d.toNat (f.width = .w64)) g, .red (sopOf f), fatesOf s i f (plainAt i f) g true true, redUnits i f)]

/-- `t` is `s` but for what issuing accesses may touch: the warp, which is `x` in `t`, one more access in flight, TLB
entries, sharer records, progress, and error marks, of which some may be gone. All of memory, every other warp and every
access in flight is as it was. -/
structure AccessFrame (s t : State) (i : Iss) (x : Warp) : Prop where
  rest : t = { s with warps := t.warps, cores := t.cores, dir := t.dir, ops := t.ops, nextId := t.nextId, bad := t.bad,
                      epoch := t.epoch }
  self : mLook t.warps i.w = some x
  warps : ∀ v, v ≠ i.w → mLook t.warps v = mLook s.warps v
  ops : ∀ k, k ≠ s.nextId → mLook t.ops k = mLook s.ops k
  cores : ∀ c, coreOf t c = { coreOf s c with tlb := (coreOf t c).tlb }
  bad : ∀ y ∈ t.bad, y ∈ s.bad

/-- What a unit of an access writes at its home, if anything. -/
def unitWrites (s : State) (o : MemOp) (u : MUnit) : Option Nat :=
  match o.kind with
  | .store => some u.data
  | .atom sop _ | .red sop => atomNew sop u.n (readLoc s u.loc u.n) u.data u.data2
  | _ => none

/-- A unit brings its old value to a register. -/
def unitLoads (o : MemOp) : Bool := o.kind = .load || o.kind = .ald || (match o.kind with | .atom _ r => r | _ => false)

/-- A byte of a block's scratch lies in the place of a unit. -/
def inScratch (u : MUnit) (b a : Nat) : Prop := ∃ k, u.loc = .scr b k ∧ k ≤ a ∧ a < k + u.n

/-- `u` is `s` but for sharer records: what reading a record at issue leaves (R182). -/
def OnlyDir (s u : State) : Prop := u = { s with dir := u.dir }

/-- A byte of global memory lies in the place of a unit. -/
def inUnit (u : MUnit) (a : Nat) : Prop := ∃ k, u.loc = .glob k ∧ k ≤ a ∧ a < k + u.n

/-! ## Engine operations (12_ordering R205 to R208, 13_ref_memory_copy R229 to R235, 17_ref_matrix R275 to R286) -/

/-- Nothing makes an engine operation wait at issue: accesses of the strand it follows, a lock against one of its ranges,
its tag at 255, its counter at 63, a full matrix queue (R206, R208, R230, R232, R261). -/
def engineReady (s : State) (i : Iss) (o : EngOp) (release : Bool) (rs : List Range) : Bool :=
  !engineHeld s i release && rangesFree s i.cid rs && !tagFull i.blk o.tag &&
  !(match o.kind.onCp with | some true => decide (i.warp.cp = 63) | some false => decide (i.warp.tl = 63) | none => false) &&
  !(o.queued && !o.kind.rides && decide (16 ≤ ((queueOf s i.core).filter fun e => !e.2.kind.rides).length))

/-- Operation `o` has issued: it is in flight with its ranges locked, its tag's count one higher and the tag's bit clear,
its counter one higher, its strand at the next slot and its context as `c`. Registers, memory and every other warp, block
and operation are as they were. -/
structure EngineIssued (s t : State) (i : Iss) (o : EngOp) (rs : List Range) (c : Context) : Prop where
  rest : t = { s with warps := t.warps, blocks := t.blocks, ctxs := t.ctxs, engs := t.engs, nextId := s.nextId + 1,
                      locks := s.locks ++ rs.map fun r => ⟨r.core, i.cid, r.side, r.n, r.write, s.nextId⟩, epoch := t.epoch }
  op : mLook t.engs s.nextId = some { o with since := cycleOf s i.core }
  ops : ∀ k, k ≠ s.nextId → mLook t.engs k = mLook s.engs k
  ctx : mLook t.ctxs i.cid = some c
  ctxs : ∀ k, k ≠ i.cid → mLook t.ctxs k = mLook s.ctxs k
  block : mLook t.blocks i.warp.block = some (match o.tag with
    | some n => { i.blk with pending := mIns i.blk.pending n (tagCount i.blk n + 1),
                             cdone := i.blk.cdone &&& ~~~((1 : DWord) <<< n) }
    | none => i.blk)
  blocks : ∀ b, b ≠ i.warp.block → mLook t.blocks b = mLook s.blocks b
  warp : ∃ x, mLook t.warps i.w = some x ∧ Past i 1 x ∧
    x = { i.warp with strands := x.strands, cp := i.warp.cp + (if o.kind.onCp = some true then 1 else 0),
                      tl := i.warp.tl + (if o.kind.onCp = some false then 1 else 0),
                      seq := i.warp.seq + (if o.kind.onCp = some false then 1 else 0),
                      drains := i.warp.drains + drainsOf o.kind }
  warps : ∀ w, w ≠ i.w → mLook t.warps w = mLook s.warps w

/-- A copy through a shape record: its operands, what it reads, whether its warp may issue it, whether it takes a SCALED
record, its tag, its own checks,
whether its local side fits, whether it writes global memory, and the operation with its ranges. -/
structure CopyForm where
  ins : Instr
  opnd : Bool
  uses : Uses
  ready : Bool
  scales : Bool := true
  tag : Option Nat
  checks : List (Bool × Nat)
  fits : Bool
  writes : Bool
  kind : EKind
  ranges : List Range

/-- The copies through a shape record `sh`. -/
def copyForms (f : KFields) (s : State) (i : Iss) (sh : Shape) : List CopyForm :=
  let ofs := (sR i.warp f.b.toNat).toNat
  let cs := coordRegs i f
  let n := localBytes sh ofs
  let mode := f.mode.toNat
  let five := sPair i f.a && sOk i f.b.toNat 1 && fiveOk i f
  let u : Uses := { sr := f.b.toNat :: copyReads f }
  let ext := if mode % 2 = 1 then swap01 sh.ext else sh.ext
  let bn := 128 * (rowEnd sh.fmt (ext.getD 1 1) - 1) + ext.getD 0 1
  let vn := (localBytes sh (128 * f.b.toNat) + 127) / 128
  let named := (multicast f).map (clusterBlock s i)
  let dest := named.filterMap id
  [⟨.cpg f, five, u, true, true, copyTag f true, [], decide (ofs + n ≤ i.lau.scratch), false,
      .load sh cs mode [.scr i.warp.block ofs], ⟨i.core, .scr i.warp.block ofs, n, true⟩ :: boxRanges i.core sh cs false⟩,
   ⟨.cps f, five, u, true, true, copyTag f true, [(decide (mode = 2) && decide (sh.fmt ≠ 9) && decide (sh.fmt ≠ 6), 9)],
      decide (ofs + n ≤ i.lau.scratch), true, .store sh cs mode (.scr i.warp.block ofs) (decide (mode = 2)),
      ⟨i.core, .scr i.warp.block ofs, n, false⟩ :: boxRanges i.core sh cs true⟩,
   ⟨.cpb f, five, u, true, false, copyTag f true, [(decide (ofs % 128 ≠ 0), 0),
        (decide (128 < ext.getD 0 1) || (ext.drop 2).any (fun b => decide (b ≠ 1)), 48)], decide (ofs + bn ≤ 2 ^ 24), false,
      .load sh cs mode [.bst i.core ofs], ⟨i.core, .bst i.core ofs, bn, true⟩ :: boxRanges i.core sh cs false⟩,
   ⟨.cpv f, sPair i f.a && vOk i f.b.toNat 1 && fiveOk i f, { sr := copyReads f },
      singleStrand i.warp && !(spanRegs f.b.toNat vn).any fun r => decide (pendingV s i.w r ≠ 0), true, copyTag f true,
      [(decide (8192 < dataBytes sh) || decide (dataBytes sh % 128 ≠ 0) || decide (i.warp.alloc < f.b.toNat + vn), 0)],
      true, false, .load sh cs mode [.reg i.w (128 * f.b.toNat)], boxRanges i.core sh cs false⟩,
   ⟨.cpm f, five, u, true, true, copyTag f false, [], named.all Option.isSome && decide (ofs + n ≤ i.lau.scratch), false,
      .load sh cs mode (dest.map fun b => .scr b ofs),
      dest.map (fun b => ⟨(match mLook s.blocks b with | some x => x.cores.headD i.core | none => i.core), .scr b ofs, n, true⟩)
        ++ boxRanges i.core sh cs false⟩]

/-- A matrix instruction that reads no record: its operands, uses and tag, whether lanes with a region may issue it,
its own conditions, the operation with its ranges, and the context it leaves. -/
structure TileForm where
  ins : Instr
  opnd : Bool
  uses : Uses
  tag : Option Nat
  anyRegion : Bool := false
  go : Bool
  op : EngOp
  ranges : List Range := []
  ctx : Context

/-- The matrix instructions that read no record. -/
def tileForms (f : XFields) (s : State) (i : Iss) : List TileForm :=
  let o (r : BitVec 9) : Word := sR i.warp r.toNat
  let m := shapeM i.warp
  let n := shapeN i.warp
  let tg := tgTag f 0
  let ofs := (o f.a).toNat
  let next := sR i.warp (f.a.toNat + 1)
  let pairReads := regs f.a.toNat true
  let tile (w : Word) : Bool := (firstOf (tileChecks i w)).isNone
  let base := sVal i.warp true f.a.toNat
  let len := (o f.g).toNat
  let pin := (freePinId s i).getD 0
  let busy := !(queueOf s i.core).isEmpty
  [{ ins := .tzero f, opnd := xs1 i f.h, uses := { sr := [f.h.toNat] }, tag := tg, go := tile (o f.h),
     op := engOf i (.zero (wordRow (o f.h)) (wordCol (o f.h)) m n) tg true, ctx := i.ctx },
   { ins := .tload f, opnd := sPair i f.a && xs1 i f.h, uses := { sr := f.h.toNat :: pairReads }, tag := tg,
     go := (firstOf (strideChecks i (o f.h) ofs next.toNat)).isNone && decide (ofs + tileSpan i next.toNat ≤ i.lau.scratch),
     op := engOf i (.tload (wordRow (o f.h)) (wordCol (o f.h)) m n ofs next.toNat) tg true,
     ranges := [⟨i.core, .scr i.warp.block ofs, tileSpan i next.toNat, false⟩], ctx := i.ctx },
   { ins := .tread f, opnd := xs1 i f.h, uses := { vw := spanRegs f.fw.toNat (regCount f), sr := [f.h.toNat] }, tag := none,
     go := singleStrand i.warp && (firstOf (moveChecks i f)).isNone,
     op := engOf i (.tread (wordRow (o f.h)) (wordCol (o f.h)) (regCount f) (rows16 f) f.fw.toNat) none true, ctx := i.ctx },
   { ins := .twrite f, opnd := xs1 i f.h, uses := { twriteUses f with sr := [f.h.toNat] }, tag := none,
     go := singleStrand i.warp && (firstOf (moveChecks i f)).isNone,
     op := engOf i (.twrite (wordRow (o f.h)) (wordCol (o f.h)) (regCount f) (rows16 f) (twriteWords i f)) none true,
     ctx := i.ctx },
   { ins := .tsave f, opnd := sPair i f.a && xs1 i f.h && xs1 i f.g, uses := { sr := drainReads f ++ [f.h.toNat] },
     tag := tgTag f 9,
     go := (firstOf (tsaveChecks i f)).isNone && decide (tsaveOfs i f + tsaveSpan i f ≤ i.lau.scratch),
     op := engOf i (.tsave (tsaveOfs i f) (tsaveStride i f) (tsaveCtl i f)) (tgTag f 9) true,
     ranges := [⟨i.core, .scr i.warp.block (tsaveOfs i f), tsaveSpan i f, true⟩], ctx := i.ctx },
   { ins := .gacc f, opnd := sPair i f.a && xs1 i f.g && xs1 i f.h, uses := { sr := [f.g.toNat, f.h.toNat] ++ pairReads },
     tag := tg,
     go := (firstOf (strideChecks i (o f.a) next.toNat len)).isNone &&
       (namedPin i (o f.h).toNat).any fun p => decide (next.toNat + tileSpan i len ≤ p.len),
     op := engOf i (.gacc (o f.h).toNat (wordRow (o f.a)) (wordCol (o f.a)) m n next.toNat len) tg true, ctx := i.ctx },
   { ins := .gflush f, opnd := xs1 i f.h, uses := { sr := [f.h.toNat] }, tag := tg,
     go := (namedPin i (o f.h).toNat).any fun p => !touchesAny (i.ctx.sealed ++ i.ctx.marks) p.base p.len,
     op := engOf i (.gflush (o f.h).toNat) tg true,
     ranges := ((namedPin i (o f.h).toNat).map fun p => (⟨i.core, .virt p.base, p.len, true⟩ : Range)).toList, ctx := i.ctx },
   { ins := .gpin f, opnd := sPair i f.a && xs1 i f.g && xs1 i f.h,
     uses := { sr := f.g.toNat :: pairReads, sw := [f.h.toNat] }, tag := none,
     go := decide (base % 4096 = 0) && decide (len ≠ 0) && decide (len % 4096 = 0) && decide (len ≤ 2 ^ 28) &&
       canonRange (some (base, len)) && !((mVals i.ctx.pins).any fun p => rangeHit base len p.base p.len) &&
       !touchesAny (i.ctx.sealed ++ i.ctx.marks) base len && (freePinId s i).isSome,
     op := engOf i (.pin pin f.h.toNat) none false, ctx := withPin i pin base len },
   { ins := .tstat f, opnd := xs1 i f.g && xs1 i f.h, uses := { sr := [f.g.toNat], sw := spanRegs f.h.toNat 8 }, tag := none,
     anyRegion := true, go := busy && !positionBad i (o f.g) && sOk i f.h.toNat 8,
     op := engOf i (.stat (wordRow (o f.g)) (wordCol (o f.g)) f.h.toNat) none true, ctx := i.ctx },
   { ins := .tclr f, opnd := xs1 i f.g, uses := { sr := [f.g.toNat] }, tag := none, anyRegion := true,
     go := busy && !positionBad i (o f.g), op := engOf i (.clr (wordRow (o f.g)) (wordCol (o f.g))) none true, ctx := i.ctx }]

/-- The matrix instructions with their false-guard form's operands, uses and tag. -/
def tileUses (f : XFields) (s : State) (i : Iss) : List (Instr × Bool × Uses × Option Nat) :=
  (.mma f, sPair i f.a && xs1 i f.g && vOk i f.fw.toNat 1, mmaUses i f, tgTag f 0) ::
  (.tdrain f, sPair i f.a && sPair i f.h && xs1 i f.g, { sr := drainReads f ++ regs f.h.toNat true },
    if f.xmod.getLsbD 9 then none else some f.tag.toNat) ::
  (.tshape f, xs1 i f.g, { sr := [f.g.toNat] }, none) ::
  (tileForms f s i).map fun c => (c.ins, c.opnd, c.uses, c.tag)

/-- Operation `o`, in flight as `op` in `u`, has left: its locks are dropped, its tag's count is one lower with the tag's
bit set at 0, its counter one lower. All else is as in `u` (R231, R232). -/
structure EngineLeft (u t : State) (op : Nat) (o : EngOp) : Prop where
  rest : t = { u with warps := t.warps, blocks := t.blocks, engs := t.engs,
                      locks := u.locks.filter fun l => decide (l.op ≠ op), epoch := t.epoch }
  gone : mLook t.engs op = none
  ops : ∀ k, k ≠ op → mLook t.engs k = mLook u.engs k
  block : ∀ y, mLook u.blocks o.blk = some y → mLook t.blocks o.blk = some (match o.tag with
    | some n => { y with pending := mPut 0 y.pending n (tagCount y n - 1),
                         cdone := if tagCount y n ≤ 1 then y.cdone ||| ((1 : DWord) <<< n) else y.cdone }
    | none => y)
  blocks : ∀ b, b ≠ o.blk → mLook t.blocks b = mLook u.blocks b
  warp : ∀ x, mLook u.warps o.w = some x → mLook t.warps o.w = some
    { x with cp := x.cp - (if o.kind.onCp = some true then 1 else 0), tl := x.tl - (if o.kind.onCp = some false then 1 else 0) }
  warps : ∀ w, w ≠ o.w → mLook t.warps w = mLook u.warps w

/-- The state after the next events of transfers of operation `id`, one after the other, if nothing stands against any of
them in its turn; a transfer that is done already has none left. -/
def eventsMade (id : Nat) : List Nat → State → Option State
  | [], s => some s
  | k :: ks, s => (mLook s.engs id).bind fun o =>
    if o.done.contains k then eventsMade id ks s
    else (moveOf o k).bind fun m =>
      if moveFate s o k m = .fine then eventsMade id ks (after (nextEvent id o k m) s) else none

/-- Positions of core `core` in the accumulator of block `blk` take new words, those of `val`; every other position
keeps its word, and nothing else changes but that error marks may go. -/
structure AccWritten (s u : State) (blk core : Nat) (val : Nat → Nat → Option Word) : Prop where
  rest : u = { s with blocks := u.blocks, bad := u.bad }
  block : ∀ b, mLook s.blocks blk = some b → ∃ a, mLook u.blocks blk = some { b with acc := a } ∧
    ∀ r c, c < 512 → mGet 0 a (accKey b core r c) = (val r c).getD (accAt b core r c)
  blocks : ∀ c, c ≠ blk → mLook u.blocks c = mLook s.blocks c
  bad : ∀ y ∈ u.bad, y ∈ s.bad

/-- What a tile at (`row`, `col`) of `m` rows and `n` columns gives the positions in it. -/
def tileVal (row col m n : Nat) (f : Nat → Nat → Word) (r c : Nat) : Option Word :=
  if row ≤ r ∧ r < row + m ∧ col ≤ c ∧ c < col + n then some (f (r - row) (c - col)) else none

/-- A deferred trap as a strand takes it (R383, R384). -/
def deferredAt (i : Iss) (d : Trap) : Trap :=
  { d with deferred := true, dpc := pcOf i.st, hdrAt := i.st.pc, slot := i.st.slot, members := i.st.members,
           lanes := i.st.members, name := nameOf i.warp i.blk.launch i.blk.b (lowLane i.st.members) }

/-! ## Launches, scopes and conditions (21_program_child_launches, 22_scheduling, 23_ref_sync_launch) -/

/-- `t` is `s` but for the issuing warp, which is `x` in `t`, its context, which is `c`, progress, and error marks, of
which some may be gone. -/
structure ContextFrame (s t : State) (i : Iss) (x : Warp) (c : Context) : Prop where
  rest : t = { s with warps := t.warps, ctxs := t.ctxs, bad := t.bad, epoch := t.epoch }
  self : mLook t.warps i.w = some x
  warps : ∀ v, v ≠ i.w → mLook t.warps v = mLook s.warps v
  ctx : mLook t.ctxs i.cid = some c
  ctxs : ∀ k, k ≠ i.cid → mLook t.ctxs k = mLook s.ctxs k
  bad : ∀ y ∈ t.bad, y ∈ s.bad

/-- A context with its scopes replaced. -/
def withScopes (c : Context) (m : Map Scope) : Context := { c with scopes := m }

/-- An `await` or `fwait`: its operands, what it reads, the registers it saves, its own checks, its condition, and the
record it reads, whose words its core then shares. -/
structure AwaitForm where
  ins : Instr
  opnd : Bool
  reads : List Nat
  vb : Nat
  n : Nat
  go : Prop
  cond : Cond
  shares : Act := skip

/-- The `await` instructions and `fwait`; `r` is the record an `await.red` names. -/
def awaitForms (f : CFields) (s : State) (i : Iss) (r : List Byte) : List AwaitForm :=
  let a := (sR i.warp f.a.toNat).toNat
  let va := sVal i.warp true f.a.toNat
  let w := awaitSel f
  let part := (mLook i.ctx.groups (recAt r 0 2)).bind fun g => g.parts.find? fun p => decide (p.1 = i.warp.block)
  [⟨.awaitTag f, sPair i f.a, regs f.a.toNat true, f.b.toNat, awaitN f, True, .tags (BitVec.ofNat 64 (va % 2 ^ i.lau.tags)) w, skip⟩,
   ⟨.awaitMem f, sPair i f.a && sOk i f.c.toNat (span w), regs f.a.toNat true ++ regs f.c.toNat w, f.b.toNat, awaitN f,
     ∃ p e, fateOf s i .glob va (4 * span w) true false = .ok p e,
     .mem va (4 * span w) (f.disp.toNat / 16 % 16) (sVal i.warp w f.c.toNat), skip⟩,
   ⟨.awaitQueue f, sOk i f.a.toNat 1, [f.a.toNat], f.b.toNat, awaitN f, a < 1024 ∧ (ownQueue s i a).isSome = true,
     .queue (queueKey i a), skip⟩,
   ⟨.awaitScope f, sOk i f.a.toNat 1, [f.a.toNat], f.b.toNat, awaitN f, (mLook i.ctx.scopes a).isSome = true, .scope a, skip⟩,
   ⟨.awaitRed f, sPair i f.a, regs f.a.toNat true, f.b.toNat, awaitN f,
     (∀ k, withRecord s i va 8 64 k = andThen (shareRecord s i va 8) (k r)) ∧ part.isSome = true,
     .tags ((1 : DWord) <<< (if w then (part.getD (0, 0, 0)).2.2 else (part.getD (0, 0, 0)).2.1)) false,
     shareRecord s i va 8⟩,
   ⟨.fwait f, sOk i f.a.toNat 1, [f.a.toNat], f.b.toNat, f.c.toNat, (mLook i.ctx.scopes a).isSome = true, .fwait a, skip⟩]

/-- The context of a strand that starts to wait: `fwait` marks its scope as waited for. -/
def waitedCtx (i : Iss) : Cond → Context
  | .fwait n => withScopes i.ctx (match mLook i.ctx.scopes n with
    | some x => mIns i.ctx.scopes n { x with waited := true } | none => i.ctx.scopes)
  | _ => i.ctx
/-- A context when the wait is over: `fwait` frees the complete scope. -/
def leftCtx (c : Context) : Cond → Context
  | .fwait n => withScopes c (if (mLook c.scopes n).any scopeComplete then mDel c.scopes n else c.scopes)
  | _ => c

/-- The warp of the issuing strand has become the continuation record `r` in context memory at `va` (R352, R353): it holds
no register and no strand any more, and an entry it leaves may seat a held strand of another warp (R306). -/
structure Suspended (s t : State) (i : Iss) (k : Cond) (tags : DWord) (r : List Byte) (va : Nat) (c : Context) : Prop where
  rest : t = { s with mem := t.mem, bad := t.bad, warps := t.warps, ctxs := t.ctxs, epoch := t.epoch }
  record : t.mem = (after (writeVirt i.ctx va r) s).mem
  bad : ∀ y ∈ t.bad, y ∈ s.bad
  ctx : mLook t.ctxs i.cid = some c
  ctxs : ∀ j, j ≠ i.cid → mLook t.ctxs j = mLook s.ctxs j
  warp : mLook t.warps i.w = some { i.warp with
    record := r, recordAt := BitVec.ofNat 64 va, kept := some (stepSlots 1 i.st), place := .record, cond := some k,
    condTags := tags, strands := [], v := [], s := [], p := [], q := 0, nstat := 0, tshape := 0, drains := 0,
    active := false }
  warps : ∀ v y, v ≠ i.w → mLook s.warps v = some y → y.heldStrands = [] → mLook t.warps v = some y

/-- What a strand that waits for a condition does: with other strands in its warp it goes on when the condition holds
and waits in place while it does not; alone, and with nothing in flight, its warp becomes a continuation record that
resumes after the instruction (R352, R353), each once no deferred trap is due (R231, R240). `c` is the context from the
start of the wait on. -/
def AwaitGoes (s : State) (i : Iss) (o : Host.Outcome State Fault Refusal) (k : Cond) (tags : DWord) (stay : Bool)
    (vb n : Nat) (c : Context) : Prop :=
  (stay = true → dueTrap i.warp i.st { tags := observed k } = none → condHolds s i.core i.blk i.ctx k = true →
    condReadable s i k = true →
    ∃ t x, o = .next t ∧ ContextFrame s t i x (leftCtx c k) ∧ Past i 1 x ∧ x = { i.warp with strands := x.strands }) ∧
  (stay = true → dueTrap i.warp i.st { tags := observed k } = none → condHolds s i.core i.blk i.ctx k = false →
    ∃ t x, o = .next t ∧ ContextFrame s t i x c ∧ x = { i.warp with strands := x.strands } ∧
      mLook x.strands i.k = some { i.st with idleAt := s.epoch, wait := .cond k 0 true }) ∧
  (stay = false → dueTrap i.warp i.st { edge := true } = none → drained s i.warp i.w = true →
    areaWritable s i.ctx (recordPlace s i.cid i.ctx) 2240 = true →
    ∃ t, o = .next t ∧
      Suspended s t i k tags (recordBytes i.warp (stepSlots 1 i.st) vb n) (recordPlace s i.cid i.ctx) c)

/-! ## Deadline reductions (19_regions_and_deadlines R309 to R316) -/

/-- The strand of issue `i` has come to wait as `x` says; `t`, where it waits, is `u` but for its warp and progress. -/
def WaitsAs (s u : State) (o : Host.Outcome State Fault Refusal) (i : Iss) (x : Wait) : Prop :=
  ∃ t y, o = .next t ∧ t = { u with warps := t.warps, epoch := t.epoch } ∧ mLook t.warps i.w = some y ∧
    (∀ v, v ≠ i.w → mLook t.warps v = mLook s.warps v) ∧ y = { i.warp with strands := y.strands } ∧
    mLook y.strands i.k = some { i.st with idleAt := s.epoch, wait := x }

/-- The words that a block's scratch holds at `ofs`. -/
def payloadAt (s : State) (i : Iss) (ofs words : Nat) : List Word :=
  (List.range words).map fun j => BitVec.ofNat 32 (readLoc s (.scr i.warp.block (ofs + 4 * j)) 4)

/-- `t` is `u` but that group `n` of context `cid` stands as `h`, or is gone where a release waited for its round, and
that the tags which its new deliveries clear are clear (R314, R325). -/
structure RoundPut (u t : State) (cid n : Nat) (k : Context) (h : RedGroup) : Prop where
  rest : t = { u with blocks := t.blocks, ctxs := t.ctxs, epoch := t.epoch }
  ctx : mLook t.ctxs cid = some { k with
    groups := if h.freeing && !h.began then mDel k.groups n
              else mIns k.groups n { h with sending := h.sending.map fun d => { d with clears := [] } } }
  ctxs : ∀ c, c ≠ cid → mLook t.ctxs c = mLook u.ctxs c
  blocks : ∀ b y, mLook u.blocks b = some y → ∃ c, mLook t.blocks b = some { y with cdone := c } ∧
    ∀ j < 64, c.getLsbD j = (y.cdone.getLsbD j && !(h.sending.any fun d => decide (d.blk = b) && d.clears.contains j))

/-! ## Queues (22_scheduling R358 to R360) -/

/-- `t` is `s` but for the issuing warp, which is `x` in `t`, queue `q`, which is `z`, what `spill` writes to its ring,
progress, ids, and error marks, of which some may be gone. -/
structure QueueFrame (s t : State) (i : Iss) (q : Nat) (x : Warp) (z : Option Queue) (spill : Act) : Prop where
  rest : t = { s with mem := t.mem, warps := t.warps, queues := t.queues, nextId := t.nextId, bad := t.bad, epoch := t.epoch }
  mem : t.mem = (after spill s).mem
  self : mLook t.warps i.w = some x
  warps : ∀ v, v ≠ i.w → mLook t.warps v = mLook s.warps v
  queue : mLook t.queues q = z
  queues : ∀ k, k ≠ q → mLook t.queues k = mLook s.queues k
  bad : ∀ y ∈ t.bad, y ∈ s.bad

/-- A queue after a push of entries, each under its own pop index (R358, R360). -/
def pushed (x : Queue) (es : List (List Word)) : Queue :=
  let n := x.entries.length + es.length
  { x with entries := x.entries ++ numbered x es, next := x.next + es.length,
           spills := x.spills + (ringUse n - ringUse x.entries.length), high := max x.high n }

/-- Each of the lanes `ls`, as far as the entries go, takes the four words of its entry in registers `d` to `d + 3`; every
other register keeps its value. -/
def TakesEntries (x y : Warp) (d : Nat) (ls : List Nat) (es : List (Nat × List Word)) : Prop :=
  (∀ (j l : Nat) (e : Nat × List Word), ls[j]? = some l → es[j]? = some e → ∀ k < 4, vR y (d + k) l = e.2.getD k 0) ∧
  ∀ r l, l < 32 → r ∉ spanRegs d 4 ∨ l ∉ ls.take es.length → vR y r l = vR x r l

/-! ## Management commands (27_system_interfaces R417 to R428) -/

/-- A port's answer stands; the mailbox signals it with vector 0 (R413). -/
def answered (p : Port) (r : Reply) (m : Mgmt) : Mgmt :=
  match p with
  | .i3c => { m with i3c := r }
  | .mailbox => { m with mailbox := r, msi := mIns m.msi 0 (mGet 0 m.msi 0 + 1) }

/-- A state in which the port of a command has been heard. -/
def heard (p : Port) (s : State) : State :=
  { s with mgmt := { s.mgmt with heardAt := if s.mgmt.holder = some p then s.now else s.mgmt.heardAt } }

/-- The controller's registers changed. -/
def onMgmt (f : Mgmt → Mgmt) (s : State) : State := { s with mgmt := f s.mgmt }

/-- A command of port `p` that answers success when its inputs are good: the class it belongs to, whether it needs the
semaphore, whether its inputs are good, and what it changes. -/
inductive Command (p : Port) (s : State) : Instr → CommandClass → (sem good : Bool) → (State → State) → Prop where
  | ctxCreate (x : CtxArgs) : Command p s (.ctxCreate p x) .plain false
      (decide (x.ctx < 64) && (mLook s.ctxs x.ctx).isNone && launchQuotaOk x.launchQuota && decide (x.queueQuota ≤ 2 ^ 24) &&
        x.parts.all (fun q => decide (q < 16)) && (!x.secure || (x.inSession && s.mgmt.session)))
      fun u =>
        let c : Context :=
          { root := x.root, save := x.save, diag := x.diag, launchQuota := x.launchQuota, queueQuota := x.queueQuota,
            hostTier := x.hostTier, peerTier := x.peerTier, secure := x.secure, parts := x.parts }
        { u with ctxs := mIns u.ctxs x.ctx c }
  | ctxDestroy (c : Nat) : Command p s (.ctxDestroy p c) .plain false (mLook s.ctxs c).isSome
      (after (andThen (terminate c [] none 0 2) (andThen (freeHeld c []) (eff (.dropCtx c)))))
  | partSet (x : PartArgs) : Command p s (.partSet p x) .plain true
      (decide (x.part < 16) && x.cores.all (fun c => decide (c < Config.cores)) && x.reserved.all x.cores.contains &&
        x.ranges.all (fun r => deviceRange r.1 r.2) &&
        s.parts.all (fun e => decide (e.1 = x.part) || e.2.ranges.all fun r => x.ranges.all fun q => !rangeHit r.1 r.2 q.1 q.2) &&
        (!(x.touchesSecure || x.cores.any (fun c => (coreOf s c).secure) || x.ranges.any (touchesWorld s.mgmt)) ||
          (x.inSession && s.mgmt.session)))
      fun u => after (andThen (forAll (fun c => moveCore c x.part) (x.cores.filter fun c => !(partOf s x.part).cores.contains c))
          (withdrawSharers x.part (x.ranges ++ (partOf s x.part).ranges)))
        { u with parts := mIns u.parts x.part { partOf s x.part with ranges := x.ranges, reserved := x.reserved } }
  | coreMove (c q : Nat) : Command p s (.coreMove p c q) .plain true
      (decide (c < Config.cores) && decide (q < 16) && (!(coreOf s c).secure || s.mgmt.session))
      fun u => after (requestSave c) (after (moveCore c q) u)
  | queueCreate (x : QueueArgs) : Command p s (.queueCreate p x) .plain false
      (decide (x.part < 16) && decide (x.queue < 1024) && (mLook s.ctxs x.ctx).isSome &&
        (mLook s.queues (x.part * 1024 + x.queue)).isNone)
      fun u =>
        let y : Queue := { ctx := x.ctx, part := x.part, ring := x.ring, size := x.size }
        { u with queues := mIns u.queues (x.part * 1024 + x.queue) y }
  | debugStop (c : Nat) (on : Bool) : Command p s (.debugStop p c on) .plain false (mLook s.ctxs c).isSome
      fun u =>
        let m := match mLook u.ctxs c with | some x => mIns u.ctxs c { x with debugStop := on } | none => u.ctxs
        { u with ctxs := m }
  | debugResume (c : Nat) (n : ThreadName) (i : Iss) : stoppedAt s c n = some i →
      Command p s (.debugResume p c n) .plain false true (after (advance i 1))
  | debugMiss (c : Nat) (n : ThreadName) : stoppedAt s c n = none → Command p s (.debugResume p c n) .plain false false id
  | traceCfg (c : Nat) (x : TraceArgs) : Command p s (.traceCfg p c x) .plain false
      (decide (c < Config.cores) && decide (x.start.pcs.length ≤ 4) && decide (x.stop.pcs.length ≤ 4))
      fun u => { u with cores := mIns u.cores c { coreOf u c with tracer := some { args := x } } }
  | sampleCfg (x : SampleArgs) : Command p s (.sampleCfg p x) .plain false
      (x.cores.all (fun c => decide (c < Config.cores)) && decide (6 ≤ x.period) && decide (x.period ≤ 24))
      fun u =>
        let y (c : Nat) : Sampler := { period := x.period, buffer := x.buffer, since := cycleOf s c }
        { u with cores := x.cores.foldl (fun m c => mIns m c { mGet {} m c with sampler := some (y c) }) u.cores }
  | xlateInv (c : Nat) (base len : DWord) :
      (∀ e ∈ s.ops, e.2.ctx = c → ∀ u ∈ e.2.units, u.done = true ∨ ∀ k, u.loc ≠ .glob k) →
      Command p s (.xlateInv p c base len) .plain false (mLook s.ctxs c).isSome
      (after fun s => s.cores.map fun x =>
        .core x.1 { x.2 with tlb := x.2.tlb.filter fun e => !tlbHit c base.toNat len.toNat e.1 e.2 })
  | faultRing (base : DWord) (n : Nat) : (s.mgmt.ringBase = none ∨ s.mgmt.fpi = s.mgmt.fci) →
      Command p s (.faultRing p base n) .faultRing true
      (decide (base.toNat % 4096 = 0) && (List.range 13).any fun j => decide (n = 16 * 2 ^ j))
      (onMgmt fun m => { m with ringBase := some base, ringCount := n, fpi := 0, fci := 0 })
  | powerStep (n : Nat) : Command p s (.powerStep p n) .plain true (decide (n ≤ 4))
      (onMgmt fun m => { m with stepSet := n, step := n })
  | buryxRoute (d : Nat) (r : List (Nat × Nat)) : Command p s (.buryxRoute p d r) .route true (r.all fun q => decide (q.2 < 12))
      (onMgmt fun m => { m with fabricNo := d, routes := r,
                                linksDown := m.linksDown.filter fun x => !(r.any fun q => decide (q.1 = x)) })
  | semAcquire : s.mgmt.holder = none → (p = .mailbox → i3cAcquires s = false) →
      Command p s (.semAcquire p) .sem false true
      (onMgmt fun m => { m with holder := some p, acquisitions := (m.acquisitions + 1) % 2 ^ 32, heardAt := s.now })
  | semRelease : Command p s (.semRelease p) .sem false true
      (onMgmt fun m => { m with holder := if m.holder = some p then none else m.holder })

/-- An SPDM message: its class, its number, the words its answer states, and what it changes (R421). -/
inductive SpdmMessage (p : Port) (s : State) : Instr → CommandClass → Nat → List Nat → (Mgmt → Mgmt) → Prop where
  | getVersion : SpdmMessage p s (.getVersion p) .version 1 [] id
  | getCapabilities : SpdmMessage p s (.getCapabilities p) .spdm 2 [] id
  | negotiateAlgorithms : SpdmMessage p s (.negotiateAlgorithms p) .spdm 3 [] id
  | getDigests : SpdmMessage p s (.getDigests p) .spdm 4 [] id
  | getCertificate : SpdmMessage p s (.getCertificate p) .spdm 5 [] id
  | challenge : SpdmMessage p s (.challenge p) .spdm 6 [] id
  | getMeasurements : SpdmMessage p s (.getMeasurements p) .spdm 7 (measurements s) id
  | keyExchange : SpdmMessage p s (.keyExchange p) .spdm 8 [] fun m => { m with keyed := true }
  | finish : SpdmMessage p s (.finish p) .spdm 9 [] fun m => { m with session := m.session || m.keyed, keyed := false }

/-- `t` is the device after a start of the boot ROM in `s`: nothing of what ran is left, every word of device memory is
zero, and the controller stands in state 0x00 with the log it was given, to go on as the image verifies (R420, R427,
R428). -/
structure Booted (s t : State) (x : BootOutcome) (log : List LogEntry) : Prop where
  empty : t.warps = [] ∧ t.blocks = [] ∧ t.groups = [] ∧ t.launches = [] ∧ t.ctxs = [] ∧ t.queues = [] ∧ t.pool = [] ∧
    t.ops = [] ∧ t.engs = [] ∧ t.faults = [] ∧ t.locks = [] ∧ t.bad = [] ∧ t.parts = []
  cores : ∀ c, coreOf t c = {}
  dir : ∀ k, mGet 0 t.dir k = 0
  mem : ∀ k, mGet 0 t.mem k = if k < deviceKeys then 0 else mGet 0 s.mem k
  mgmt : t.mgmt = { booting := some x.verified, errLog := log, goodCores := x.goodCores, cabled := x.cabled }
  next : nextStage t.mgmt = some (if x.verified then 1 else 0xF1)
  ids : t.nextLaunch = 1

end Sys2Proof.Machine
end

