-- ==== Sys2Proof/WellFormed.lean ====
section
/-! DEFINITION. When a term of `Instr` stands for something the device can meet: an instruction whose fields keep the
static rules of its encoding (04_encoding R68 to R81), or an occurrence of one of the device's own steps whose numbers
lie within what a device has (00_scope R1, R2). -/

namespace Sys2Proof

/-- A core's number. -/
def coreOk (c : Nat) : Bool := decide (c < Config.cores)
/-- A core and one of its sub-cores. -/
def subOk (c k : Nat) : Bool := coreOk c && decide (k < Config.subcores)
/-- A context's number (02_execution_model R14). -/
def ctxOk (c : Nat) : Bool := decide (c < 64)
/-- An entry of a strand table (R18). -/
def entryOk (k : Nat) : Bool := decide (k < Config.strandEntries)

/-- The numbers of an error source (25_traps_faults R401). -/
def sourceOk : ErrSource → Bool
  | .subcore c k => subOk c k
  | .dramRow d _ => decide (d < 4)
  | .l2Slice d j _ => decide (d < 4) && decide (j < Config.slicesPerDie)
  | .columnStore c k => coreOk c && decide (k < 128)

/-- A place for a block names cores and warp slots of the device (03_registers R44). -/
def placeFits (p : BlockPlace) : Bool := p.cores.all coreOk && p.slots.all fun n => decide (n < Config.warpSlots)

/-- What bring-up finds: a count of good cores for each of the four dies (27_system_interfaces R428), of the 50 a die
carries (00_scope R2). -/
def outcomeOk (x : BootOutcome) : Bool := decide (x.goodCores.length = 4) &&
  x.goodCores.all fun n => decide (n ≤ Config.builtCores)

/-- The numbers of an occurrence of a step of the device. -/
def eventOk : Instr → Bool
  | .waitmMet _ k | .regionCommit _ k _ | .deferredTrapDeliver _ k | .queueBlockedServe _ k | .sealComplete _ k
  | .unsealComplete _ k | .dgrpRegistrationRecorded _ k | .dredRouterAccept _ k | .faultShadowReexecute _ k
  | .peerWordPoll _ k => entryOk k
  | .mmaPerform c | .queuedTileOpPerform c | .preemptSave c | .traceCondition c _ _ | .stallSample c _ => coreOk c
  | .contRecordResume _ c k | .rgrowDeadlockSave c k | .activeSetForcedLeave c k | .scrubVisit c k | .subcoreSleep c k
  | .subcoreWake c k => subOk c k
  | .tapePop c | .dredArrive c _ _ | .deadlineExpire c _ | .hostSubmit c _ | .refusedClear c _ | .ctxDestroy _ c => ctxOk c
  | .debugStop _ c _ | .debugResume _ c _ | .xlateInv _ c _ _ => ctxOk c
  | .ctxCreate _ x => ctxOk x.ctx
  | .l1EvictDrop c _ _ | .coreMove _ c _ | .traceCfg _ c _ => coreOk c
  | .blockDispatch _ ps | .blockRestore _ ps => ps.all placeFits
  | .wdogExpire _ _ b => decide (b < 16)
  | .partSet _ x => x.cores.all coreOk
  | .sampleCfg _ x => x.cores.all coreOk
  | .powerStep _ n => decide (n ≤ 4)
  | .reset x | .thermalReset x | .firmwareUpdate _ x => outcomeOk x
  | .resourceRetire x | .errorCountWindowEnd x => sourceOk x
  | _ => true

/-- A well-formed term. -/
def Instr.wf (i : Instr) : Bool := if (encode i).isSome then i.legal else eventOk i

end Sys2Proof
end

