-- ==== Sys2Proof/Certificates/Slice0/Obligations.lean ====
section
/-! DEFINITION. The statements for the provers. -/

open Sys2Proof Sys2Proof.Machine

/-! ## ALU instructions -/

/-- Every V-form ALU instruction that may run writes each guarded lane's result to that lane's destination register or
pair, and changes no other register; it raises the pennants of its lanes, advances the stochastic state of the lanes
that drew a step, continues past its own slots, and leaves the rest of the device as it was (R96, R97, R148, R140).
The model's own choices: log entries 4, 21, 24, 25, 26, 84, 85. -/
def Obligations.VectorAluCompletes : Prop :=
  ∀ (f : VFields) (s : State) (o : Instr) (e : VFields) (sh : AluShape) (fn : Word → ElemFn) (keep : Iss → KeepFn),
    (o, e, sh, fn, keep) ∈ vectorForms f s →
    ∀ i : Iss, let g := guardMask i e.gp e.gn
      let outs := laneResults s i e sh (fn i.warp.nstat) g
      MayRun s i (chkAll (vEnc i e) (vOpnd i e sh && vOk i e.d.toNat (span sh.wd))) (vUses i e sh) g →
      symbolicStop i g (routedReads i e sh g) = 0 → tagOverflow i g (vecNote i e sh (keep i)) = 0 →
      (nsTrapIv i.warp.nstat = true → ivLanes outs = 0) →
      RunsTo s i (exec o s) (kindSlots e.kind) fun x =>
        x = { i.warp with v := x.v, lanesRand := x.lanesRand, regions := x.regions, strands := x.strands,
                          nstat := i.warp.nstat ||| (allPen outs).zeroExtend 32 } ∧
        (∀ l < 32, hasLane g l = true →
          let r := fn i.warp.nstat (srcA i e sh l) (srcB s i e sh.wb l) (srcC i e sh l) (mGet 0 i.warp.lanesRand l)
          vVal x sh.wd e.d.toNat l = r.1.val % 2 ^ (32 * span sh.wd) ∧ mGet 0 x.lanesRand l = r.2) ∧
        VectorFrame i g (regs e.d.toNat sh.wd) x

/-- Every S-form ALU instruction that may run and whose guard holds writes its one result to its s-register or pair
and changes no other register; with a false guard it only continues (R70, R97, R148). The model's own choices: log
entries 4, 21, 24, 25, 26, 84, 85. -/
def Obligations.ScalarAluCompletes : Prop :=
  ∀ (f : VFields) (s : State) (o : Instr) (e : VFields) (sh : AluShape) (fn : Word → ElemFn),
    (o, e, sh, fn) ∈ scalarForms f →
    ∀ i : Iss, let r := scalResult i e sh (fn i.warp.nstat)
      let on := guardScalar i e.gp e.gn
      MayRun s i (chkAll true (sOpnd i e sh && sOk i e.d.toNat (span sh.wd))) ((sUses e sh true).on on) 0 →
      (on = true → nsTrapIv i.warp.nstat = true → r.1.pen &&& pIV = 0) →
      RunsTo s i (exec o s) (kindSlots e.kind) fun x =>
        x = { i.warp with s := x.s, warpRand := if on then r.2 else i.warp.warpRand, strands := x.strands,
                          nstat := if on then i.warp.nstat ||| r.1.pen.zeroExtend 32 else i.warp.nstat } ∧
        (on = true → sVal x sh.wd e.d.toNat = r.1.val % 2 ^ (32 * span sh.wd)) ∧
        (∀ q, on = false ∨ q ∉ regs e.d.toNat sh.wd → sR x q = sR i.warp q)

/-- `nop` continues at the next slot and has no other effect, whatever its guard (R100). -/
def Obligations.NopCompletes : Prop :=
  ∀ (f : VFields) (s : State) (i : Iss), issuer s = some i →
    RunsTo s i (exec (.nop f) s) 1 fun x => x = { i.warp with strands := x.strands }

/-- `cmp` gives each guarded lane's predicate the outcome of its comparison, and its S form the warp's predicate; the
vector and scalar registers keep their values, and IV rises where a comparison raises it (R103). -/
def Obligations.CompareCompletes : Prop :=
  (∀ (f : VFields) (s : State) (i : Iss),
    let sh := plainShape f.ty
    let g := guardMask i f.gp f.gn
    let outs := laneResults s i f sh (cmpFn f i.warp.nstat) g
    MayRun s i (chkAll (vEnc i f) (vOpnd i f sh && pOk f.d.toNat)) (cmpUses i f) g →
    symbolicStop i g (routedReads i f sh g) = 0 → cmpFull s i f g = 0 →
    (nsTrapIv i.warp.nstat = true → ivLanes outs = 0) →
    RunsTo s i (exec (.cmp f) s) (kindSlots f.kind) fun x =>
      x = { i.warp with p := x.p, regions := x.regions, strands := x.strands,
                        nstat := i.warp.nstat ||| (allPen outs).zeroExtend 32 } ∧
      PredWrite i g f.d.toNat
        (fun l => (cmpOut f.ty f.mod.toNat i.warp.nstat (srcA i f sh l) (srcB s i f sh.wb l)).1) x) ∧
  (∀ (f : VFields) (s : State) (i : Iss),
    let sh := plainShape f.ty
    let on := guardScalar i f.gp f.gn
    let r := scalResult i f sh (cmpFn f i.warp.nstat)
    let out := cmpOut f.ty f.mod.toNat i.warp.nstat (sVal i.warp sh.wa f.a.toNat) (srcS i f sh.wb)
    MayRun s i (chkAll true (sOpnd i f sh && pOk f.d.toNat)) ((sUses f sh false).on on) 0 →
    (on = true → nsTrapIv i.warp.nstat = true → out.2 = false) →
    RunsTo s i (exec (.cmpS f) s) (kindSlots f.kind) fun x =>
      x = { i.warp with q := x.q, strands := x.strands,
                        nstat := if on then i.warp.nstat ||| r.1.pen.zeroExtend 32 else i.warp.nstat } ∧
      (if on then QWrite i f.d.toNat out.1 x else x.q = i.warp.q))

/-- `sel` gives each guarded lane source A where predicate C is true and source B where it is false (R104). -/
def Obligations.SelectCompletes : Prop :=
  (∀ (f : VFields) (s : State) (i : Iss),
    let sh := plainShape f.ty
    let g := guardMask i f.gp f.gn
    MayRun s i (chkAll (vEnc i f) (vOpnd i f sh && vOk i f.d.toNat (span sh.wd) && pOk f.c.toNat)) (selUses i f) g →
    symbolicStop i g (routedReads i f sh g) = 0 →
    RunsTo s i (exec (.sel f) s) (kindSlots f.kind) fun x =>
      x = { i.warp with v := x.v, lanesRand := x.lanesRand, regions := x.regions, strands := x.strands } ∧
      (∀ l < 32, hasLane g l = true → vVal x sh.wd f.d.toNat l =
        (if pR i.warp f.c.toNat l then srcA i f sh l else srcB s i f sh.wb l) % 2 ^ (32 * span sh.wd)) ∧
      VectorFrame i g (regs f.d.toNat sh.wd) x) ∧
  (∀ (f : VFields) (s : State) (i : Iss),
    let w := tyWide f.ty
    let on := guardScalar i f.gp f.gn
    MayRun s i (chkAll true (sOpnd i f (plainShape f.ty) && (sOk i f.d.toNat (span w) && pOk f.c.toNat)))
      ((sUses f (plainShape f.ty) true).on on) 0 →
    RunsTo s i (exec (.selS f) s) (kindSlots f.kind) fun x =>
      x = { i.warp with s := x.s, strands := x.strands } ∧
      (on = true → sVal x w f.d.toNat =
        (if qR i.warp f.c.toNat then sVal i.warp w f.a.toNat else srcS i f w) % 2 ^ (32 * span w)) ∧
      (∀ q, on = false ∨ q ∉ regs f.d.toNat w → sR x q = sR i.warp q))

/-- `pset` combines two predicates, and `pmov` moves all eight of a lane, or of the warp, to a register and back; a
write of p7 or q7 is discarded (R113, R114, R43). `elect` makes its predicate true in the lowest contributor (R165). -/
def Obligations.PredicateInstructionsComplete : Prop :=
  (∀ (f : VFields) (s : State) (i : Iss), let g := guardMask i f.gp f.gn
    MayRun s i (chkAll true (pOk f.d.toNat && pOk f.a.toNat && pOk f.b.toNat)) (psetUses f) g →
    RunsTo s i (exec (.pset f) s) 1 fun x => x = { i.warp with p := x.p, strands := x.strands } ∧
      PredWrite i g f.d.toNat
        (fun l => psetOut f.mod.toNat (pR i.warp f.a.toNat l) (pR i.warp f.b.toNat l)) x) ∧
  (∀ (f : VFields) (s : State) (i : Iss),
    MayRun s i (chkAll true (pOk f.d.toNat && pOk f.a.toNat && pOk f.b.toNat)) { shadow := true } 0 →
    RunsTo s i (exec (.psetS f) s) 1 fun x => x = { i.warp with q := x.q, strands := x.strands } ∧
      if guardScalar i f.gp f.gn then
        QWrite i f.d.toNat (psetOut f.mod.toNat (qR i.warp f.a.toNat) (qR i.warp f.b.toNat)) x
      else x.q = i.warp.q) ∧
  (∀ (f : VFields) (s : State) (i : Iss), let g := guardMask i f.gp f.gn
    MayRun s i (chkAll true (vOk i f.d.toNat 1)) (pmovUses f) g →
    RunsTo s i (exec (.pmov f) s) 1 fun x =>
      x = { i.warp with v := x.v, regions := x.regions, strands := x.strands } ∧
      (∀ l < 32, hasLane g l = true → (vR x f.d.toNat l).toNat = predBits fun j => pR i.warp j l) ∧
      VectorFrame i g [f.d.toNat] x) ∧
  (∀ (f : VFields) (s : State) (i : Iss), let g := guardMask i f.gp f.gn
    MayRun s i (chkAll true (bOk i f false)) (pmovSetUses i f) g →
    RunsTo s i (exec (.pmovSet f) s) (kindSlots f.kind) fun x =>
      x = { i.warp with p := x.p, regions := x.regions, strands := x.strands } ∧
      ∀ m l, m < 7 → l < 32 →
        pR x m l = if hasLane g l then (srcB s i f false l).testBit m else pR i.warp m l) ∧
  (∀ (f : VFields) (s : State) (i : Iss), f.mod = 0 →
    MayRun s i (chkAll true (sOk i f.d.toNat 1)) { sw := [f.d.toNat], shadow := true } 0 →
    RunsTo s i (exec (.pmovS f) s) 1 fun x => x = { i.warp with s := x.s, strands := x.strands } ∧
      ∀ q, sR x q = if guardScalar i f.gp f.gn ∧ q = f.d.toNat then BitVec.ofNat 32 (predBits (qR i.warp))
        else sR i.warp q) ∧
  (∀ (f : VFields) (s : State) (i : Iss), f.mod ≠ 0 →
    MayRun s i (chkAll true (sOpnd i f (oneShape .b32))) ((sUses f (oneShape .b32) false).on (guardScalar i f.gp f.gn)) 0 →
    RunsTo s i (exec (.pmovS f) s) (kindSlots f.kind) fun x => x = { i.warp with q := x.q, strands := x.strands } ∧
      ∀ m < 7, qR x m = if guardScalar i f.gp f.gn then (srcS i f false).testBit m else qR i.warp m) ∧
  (∀ (f : VFields) (s : State) (i : Iss), let g := guardMask i f.gp f.gn
    MayRun s i (chkAll true (pOk f.d.toNat)) (electUses f) g →
    RunsTo s i (exec (.elect f) s) 1 fun x =>
      x = { i.warp with p := x.p, regions := x.regions, strands := x.strands } ∧
      PredWrite i g f.d.toNat (fun l => decide (l = lowLane g)) x)

/-- A pair word that may run gives each guarded lane both results, each computed from the registers as they were before
the word (R72). -/
def Obligations.PairWordCompletes : Prop :=
  ∀ (f : PFields) (s : State) (i : Iss),
    let g := guardMask i f.gp f.gn
    let fa := pairFst f
    let fb := pairSnd f
    let res (h : VFields) (op : BitVec 6) (l : Nat) :=
      (pairFn op.toNat h i.warp.nstat (srcA i h (pairShape op h.ty) l) (srcB s i h (pairShape op h.ty).wb l)
        (srcC i h (pairShape op h.ty) l) (mGet 0 i.warp.lanesRand l)).1.val
    f.da ≠ f.db →
    MayRun s i (pairChk i f) (pairUses i f) g →
    tagOverflow i g (pairNote s i f) = 0 →
    (nsTrapIv i.warp.nstat = true → ivLanes (pairOutA s i f) ||| ivLanes (pairOutB s i f) = 0) →
    RunsTo s i (exec (.pairWord f) s) 1 fun x =>
      x = { i.warp with v := x.v, lanesRand := x.lanesRand, regions := x.regions, strands := x.strands,
                        nstat := i.warp.nstat |||
                          (allPen (pairOutA s i f) ||| allPen (pairOutB s i f)).zeroExtend 32 } ∧
      (∀ l < 32, hasLane g l = true →
        (vR x f.da.toNat l).toNat = res fa f.opa l % 2 ^ 32 ∧ (vR x f.db.toNat l).toNat = res fb f.opb l % 2 ^ 32) ∧
      VectorFrame i g [f.da.toNat, f.db.toNat] x

/-- The lane instructions give each contributor its result, and `vote` and `redw` the bitmap of absent lanes beside
it; `vput` writes the one lane it names, if that lane contributes; `vget` always writes its s-register (R131, R164,
R166 to R169). The model's own choices: log entry 84. -/
def Obligations.LaneInstructionsComplete : Prop :=
  (∀ (f : VFields) (s : State) (i : Iss), let g := guardMask i f.gp f.gn
    MayRun s i (chkAll true (vOk i f.d.toNat 1 && vOk i f.c.toNat 1 && pOk f.b.toNat && f.c != f.d)) (voteUses f) g →
    RunsTo s i (exec (.vote f) s) 1 fun x =>
      x = { i.warp with v := x.v, regions := x.regions, strands := x.strands } ∧
      (∀ l < 32, hasLane g l = true →
        vR x f.d.toNat l = BitVec.ofNat 32 (voteOut f.mod.toNat (predMask i.warp f.b.toNat) g) ∧
        vR x f.c.toNat l = ~~~g) ∧
      VectorFrame i g [f.d.toNat, f.c.toNat] x) ∧
  (∀ (f : VFields) (s : State) (i : Iss), let g := guardMask i f.gp f.gn
    let w := tyWide f.ty
    MayRun s i (chkAll (routeOk i f.rb) (vOk i f.d.toNat (span w) && vOk i f.b.toNat (span w) && vOk i f.c.toNat 1 &&
      !(regs f.d.toNat w).contains f.c.toNat)) (redwUses i f) g →
    symbolicStop i g (redwUses i f).vm = 0 → (nsTrapIv i.warp.nstat = true → ivLanes (redwOuts i f g) = 0) →
    RunsTo s i (exec (.redw f) s) 1 fun x =>
      x = { i.warp with v := x.v, lanesRand := x.lanesRand, regions := x.regions, strands := x.strands,
                        nstat := i.warp.nstat ||| (allPen (redwOuts i f g)).zeroExtend 32 } ∧
      (∀ l < 32, hasLane g l = true →
        vVal x w f.d.toNat l = (redwOut i f g l).val % 2 ^ (32 * span w) ∧ vR x f.c.toNat l = ~~~g) ∧
      VectorFrame i g (regs f.d.toNat w ++ [f.c.toNat]) x) ∧
  (∀ (f : VFields) (s : State) (i : Iss), let g := guardMask i f.gp f.gn
    let mt := decide (f.mod = 3)
    MayRun s i (chkAll (!mt || routeOk i f.rb) (vOk i f.d.toNat 1 &&
      (if mt then vOk i f.b.toNat (span (tyWide f.ty)) else pOk f.b.toNat))) (lanesUses i f) g →
    symbolicStop i g (lanesUses i f).vm = 0 →
    RunsTo s i (exec (.lanes f) s) 1 fun x =>
      x = { i.warp with v := x.v, regions := x.regions, strands := x.strands } ∧
      (∀ l < 32, hasLane g l = true → (vR x f.d.toNat l).toNat = lanesOut i f g l % 2 ^ 32) ∧
      VectorFrame i g [f.d.toNat] x) ∧
  (∀ (f : VFields) (s : State) (i : Iss), let j := namedLane i f
    let g := guardMask i f.gp f.gn &&& laneBit j
    let w := tyWide f.ty
    MayRun s i (chkAll true (vOk i f.d.toNat (span w) && bOk i f w && namedLaneOk i f)) (vputUses f) g →
    RunsTo s i (exec (.vput f) s) (kindSlots f.kind) fun x =>
      x = { i.warp with v := x.v, regions := x.regions, strands := x.strands } ∧
      (hasLane g j = true → vVal x w f.d.toNat j = srcB s i f w j % 2 ^ (32 * span w)) ∧
      VectorFrame i g (regs f.d.toNat w) x) ∧
  (∀ (f : VFields) (s : State) (i : Iss), let j := namedLane i f
    let g := guardMask i f.gp f.gn
    let w := tyWide f.ty
    MayRun s i (chkAll (routeOk i f.rb) (sOk i f.d.toNat (span w) && vOk i f.b.toNat (span w) && namedLaneOk i f))
      (vgetUses i f) 0 →
    symbolicStop i g (vgetUses i f).vm = 0 →
    RunsTo s i (exec (.vget f) s) 1 fun x => x = { i.warp with s := x.s, strands := x.strands } ∧
      sVal x w f.d.toNat = (if hasLane g j then routed i f.rb f.own w f.b.toNat j else 0) % 2 ^ (32 * span w) ∧
      ∀ q, q ∉ regs f.d.toNat w → sR x q = sR i.warp q)

/-! ## Control transfers and strands -/

/-- A control transfer whose guard holds moves its strand to its target, and `call` writes the address of the next
header to its link pair first; one whose guard is false moves to the next header (R115, R61). -/
def Obligations.TransfersComplete : Prop :=
  ∀ (f : CFields) (s : State) (i : Iss) (o : Instr) (ok : Bool) (u : Uses) (direct : Bool) (target : DWord)
    (link : Option (BitVec 9)),
    (o, ok, u, direct, target, link) ∈ transfers f i →
    MayRun s i (chkAll true ok) { u with shadow := true, act := guardScalar i f.gp f.gn } 0 →
    (guardScalar i f.gp f.gn = true → (direct = true ∨ target.toNat % 8 = 0) →
      RunsAt s i (exec o s) target none fun x =>
        x = { i.warp with s := x.s, strands := x.strands } ∧
        (∀ r, link = some r → sVal x true r.toNat = (nextHeader i.st.pc i.st.hdr).toNat) ∧
        (∀ q, (∀ r, link = some r → q ∉ regs r.toNat true) → sR x q = sR i.warp q)) ∧
    (guardScalar i f.gp f.gn = false →
      RunsAt s i (exec o s) (nextHeader i.st.pc i.st.hdr) none fun x => x = { i.warp with strands := x.strands })

/-- A `fork` whose guard holds and whose predicate splits the lanes, with two free entries, makes three strands: the
then-arm at the next header, the else-arm at its label, both one level deeper, and the continuation of all lanes at
Ljoin; where the entries do not suffice it serialises: the strand becomes the then-arm and the fork record keeps the
rest; where all lanes agree the strand runs the one arm there is (R19, R20); with a false guard it goes on. The
model's own choices: log entries 19, 62, 68. -/
def Obligations.ForkCompletes : Prop :=
  ∀ (f : CFields) (s : State) (i : Iss),
    let m := i.lanes
    let t := m &&& maskOf (pR i.warp f.a.toNat)
    let e := m &&& ~~~t
    let n := i.warp.nextFork
    let next := nextHeader i.st.pc i.st.hdr
    let rec_ (p : Phase) : Fork := ⟨labelAt i (joinDisp f), labelAt i f.disp.toInt, ⟨t, t, [], []⟩, ⟨e, e, [], []⟩, p, i.st.arm, m⟩
    let free := freeEntries s i.core i.warp.sub
    let room := stackDepth i.warp < 64 ∨ areaWritable s i.ctx i.ctx.save.toNat 4 = true
    MayRun s i (chkAll true (pOk f.a.toNat))
      { pr := [f.a.toNat], po := [f.a.toNat], mem := true, shadow := true, act := guardScalar i f.gp f.gn } 0 →
    (guardScalar i f.gp f.gn = false →
      RunsAt s i (exec (.fork f) s) next none fun x => x = { i.warp with strands := x.strands }) ∧
    (guardScalar i f.gp f.gn = true → regionLanes i &&& m = 0 →
    (∀ k1 k2, pick free (choice s 1) = some k1 → pick (free.erase k1) (choice s 2) = some k2 → k1 ≠ i.k → k2 ≠ i.k →
      t ≠ 0 → e ≠ 0 → i.warp.strands.length + 2 ≤ Config.strandsPerWarp → i.st.depth ≠ Config.maxDepth →
      ∃ u x, exec (.fork f) s = .next u ∧ RegisterFrame s u i.w i.warp.block x ∧
        x = { i.warp with forks := x.forks, nextFork := n + 1, nextAge := i.warp.nextAge + 3, strands := x.strands } ∧
        mLook x.forks n = some (rec_ .split) ∧
        mLook x.strands i.k = some { renewed i.st t next (some (n, false)) none with
          depth := i.st.depth + 1, age := i.warp.nextAge } ∧
        mLook x.strands k1 = some { renewed i.st e (labelAt i f.disp.toInt) (some (n, true)) none with
          depth := i.st.depth + 1, age := i.warp.nextAge + 1 } ∧
        mLook x.strands k2 = some { renewed i.st m (labelAt i (joinDisp f)) i.st.arm (some n) with
          age := i.warp.nextAge + 2 } ∧
        ∀ k, k ≠ i.k → k ≠ k1 → k ≠ k2 → mLook x.strands k = mLook i.warp.strands k) ∧
    (room → t ≠ 0 → e ≠ 0 →
      ((∀ k1, pick free (choice s 1) = some k1 → pick (free.erase k1) (choice s 2) = none) ∨
        Config.strandsPerWarp < i.warp.strands.length + 2 ∨ i.st.depth = Config.maxDepth) →
      ∃ u x, exec (.fork f) s = .next u ∧ u = { s with warps := u.warps, cores := u.cores, epoch := u.epoch } ∧
        mLook u.warps i.w = some x ∧ (∀ v, v ≠ i.w → mLook u.warps v = mLook s.warps v) ∧
        (coreOf u i.core).forkEvents = (coreOf s i.core).forkEvents + 1 ∧
        x = { i.warp with forks := x.forks, nextFork := n + 1, strands := x.strands } ∧
        mLook x.forks n = some (rec_ .runThen) ∧
        mLook x.strands i.k = some (renewed i.st t next (some (n, false)) none) ∧
        ∀ k, k ≠ i.k → mLook x.strands k = mLook i.warp.strands k) ∧
    (room → t = 0 ∨ e = 0 →
      ∃ u x, exec (.fork f) s = .next u ∧ RegisterFrame s u i.w i.warp.block x ∧
        x = { i.warp with forks := x.forks, nextFork := n + 1, strands := x.strands } ∧
        mLook x.forks n = some (rec_ .only) ∧
        mLook x.strands i.k = some (if e = 0 then renewed i.st t next (some (n, false)) none
          else renewed i.st e (labelAt i f.disp.toInt) (some (n, true)) none) ∧
        ∀ k, k ≠ i.k → mLook x.strands k = mLook i.warp.strands k))

/-- A `join` or `joinp` of a continuation whose sources are ready gives each guarded lane the value that its own arm
left: source A in the lanes that took the then-arm, source B in those that took the else-arm (R23). The model's own
choices: log entry 20. -/
def Obligations.JoinsComplete : Prop :=
  (∀ (f : VFields) (s : State) (i : Iss) (k : Fork), let g := guardMask i f.gp f.gn
    let w := tyWide f.ty
    contFork i = some k →
    MayRun s i (chkAll true (vOk i f.d.toNat (span w) && vOk i f.a.toNat (span w) && vOk i f.b.toNat (span w)))
      (joinUses i f k) g →
    joinReady s i f k = true → regionLanes i &&& g = 0 →
    RunsTo s i (exec (.join f) s) 1 fun x => x = { i.warp with v := x.v, strands := x.strands } ∧
      (∀ l < 32, hasLane g l = true → ∀ sd, sideOf k l = some sd →
        vVal x w f.d.toNat l = vVal i.warp w (if sd then f.b.toNat else f.a.toNat) l) ∧
      VectorFrame i g (regs f.d.toNat w) x) ∧
  (∀ (f : VFields) (s : State) (i : Iss) (k : Fork), let g := guardMask i f.gp f.gn
    contFork i = some k →
    MayRun s i (chkAll true (pOk f.d.toNat && pOk f.a.toNat && pOk f.b.toNat)) (joinpUses f) g →
    joinpReady i f k = true → regionLanes i &&& g = 0 → g &&& ~~~(k.t.lanes ||| k.e.lanes) = 0 →
    RunsTo s i (exec (.joinp f) s) 1 fun x => x = { i.warp with p := x.p, strands := x.strands } ∧
      PredWrite i g f.d.toNat
        (fun l => pR i.warp (if hasLane k.t.lanes l then f.a.toNat else f.b.toNat) l) x)

/-- `hoist` covers its registers for the guarded lanes in every arm the strand carries (R22), `waitc` continues when
its counters are within their bounds and no deferred trap is due (R119, R231), and `yield` continues at the next
header, the scheduler's decision about the warp's place standing open where its guard holds (R120). The model's own
choices: log entry 20. -/
def Obligations.HoistAndWaitsComplete : Prop :=
  (∀ (f : VFields) (s : State) (i : Iss), let g := guardMask i f.gp f.gn
    let preds := decide (f.kind ≠ .vec)
    MayRun s i (chkAll true ((hoistNames f).all fun r => if preds then pOk r else vOk i r 1))
      { pr := guardReads f.gp, shadow := true } 0 →
    regionLanes i &&& g = 0 →
    RunsTo s i (exec (.hoist f) s) 1 fun x => x = { i.warp with forks := x.forks, strands := x.strands } ∧
      ∀ a ∈ armsOf i.warp i.st, ∀ k, mLook i.warp.forks a.1 = some k → ∃ k', mLook x.forks a.1 = some k' ∧
        ∀ r ∈ hoistNames f, ∀ l, hasLane g l = true →
          hasLane (if preds then mGet 0 (armAt k' a.2).hoistP r else mGet 0 (armAt k' a.2).hoistV r) l = true) ∧
  (∀ (f : CFields) (s : State) (i : Iss), MayRun s i none {} 0 →
    (guardScalar i f.gp f.gn = true →
      dueTrap i.warp i.st (pointOfBounds (waitBounds f)) = none ∧ boundsMet i.warp (waitBounds f) = true) →
    RunsTo s i (exec (.waitc f) s) 1 fun x => x = { i.warp with strands := x.strands }) ∧
  (∀ (f : CFields) (s : State) (i : Iss), MayRun s i none { shadow := true } 0 →
    RunsAt s i (exec (.yield f) s) (nextHeader i.st.pc i.st.hdr) none fun x =>
      x = { i.warp with strands := x.strands
                        yielding := if guardScalar i f.gp f.gn then some i.k else i.warp.yielding })

/-- `armend` takes the strand's lanes out of its arm and gives up its entry, but for a serialised or one-sided fork
whose arm has no lane left: that goes on in the same entry, with the lanes of its else-arm at their label, or with all
lanes of the fork at Ljoin as its continuation (R20, R21). `exit` takes the strand's lanes out of the warp: they are
vacant, no strand of it and no region keeps one of them, a strand that keeps lanes goes on where it stands, and the
barriers of the block and of its group settle without them (R29, R365). Registers, memory and every other warp are as
they were. The model's own choices: log entries 32, 36. -/
def Obligations.ArmendAndExitComplete : Prop :=
  (∀ (f : CFields) (s : State) (i : Iss) (fid : Nat) (side : Bool) (k : Fork),
    s.Canonical → MayRun s i none { mem := true, shadow := true } 0 →
    guardScalar i f.gp f.gn = true → regionLanes i &&& i.lanes = 0 →
    i.st.arm = some (fid, side) → mLook i.warp.forks fid = some k →
    let left := (armAt k side).left &&& ~~~i.st.members
    let empty := left = 0 ∧ (k.phase = .only ∨ side = true ∧ k.phase = .runElse ∨ side = false ∧ k.phase = .runThen ∧ k.e.left = 0)
    ∃ t x, exec (.armend f) s = .next t ∧ t = { s with warps := t.warps, epoch := t.epoch } ∧
      mLook t.warps i.w = some x ∧
      x = { i.warp with forks := x.forks, strands := x.strands, heldStrands := x.heldStrands } ∧
      (∀ v y, v ≠ i.w → mLook s.warps v = some y → y.heldStrands = [] → mLook t.warps v = some y) ∧
      (∀ k', mLook x.forks fid = some k' → (armAt k' side).left = left) ∧
      (left = 0 → side = false → k.phase = .runThen → k.e.left ≠ 0 →
        mLook x.strands i.k = some (renewed i.st k.e.left k.lelse (some (fid, true)) none)) ∧
      (empty → k.alive ≠ 0 → mLook x.strands i.k = some (renewed i.st k.alive k.ljoin k.outer (some fid))) ∧
      (left ≠ 0 ∨ k.phase = .split → i.warp.heldStrands = [] → mLook x.strands i.k = none) ∧
      (i.warp.heldStrands = [] → ∀ j, j ≠ i.k → mLook x.strands j = mLook i.warp.strands j)) ∧
  (∀ (f : CFields) (s : State) (i : Iss), guardScalar i f.gp f.gn = false →
    MayRun s i none { mem := true, shadow := true } 0 →
      RunsAt s i (exec (.armend f) s) (nextHeader i.st.pc i.st.hdr) none fun x =>
        x = { i.warp with strands := x.strands }) ∧
  (∀ (f : CFields) (s : State) (i : Iss), s.Canonical → MayRun s i none { shadow := true } 0 →
    guardScalar i f.gp f.gn = true → (∀ e ∈ i.warp.strands, e.2.trap = none) →
    (∀ t ∈ i.warp.heldStrands, t.trap = none) →
    let m := i.st.members
    ∃ t x, exec (.exit f) s = .next t ∧
      t = { s with warps := t.warps, blocks := t.blocks, groups := t.groups, ctxs := t.ctxs, engs := t.engs, epoch := t.epoch } ∧
      mLook t.warps i.w = some x ∧
      x = { i.warp with
        live := i.warp.live &&& ~~~m
        forks := x.forks
        strands := x.strands
        heldStrands := x.heldStrands
        handler := x.handler
        regions := i.warp.regions.filter fun e => !hasLane m e.1
        deferred := i.warp.deferred.filter fun d => match d.elected with | some l => !hasLane m l | none => true } ∧
      (∀ e ∈ x.strands, e.2.members &&& m = 0) ∧
      (∀ k y, mLook i.warp.strands k = some y → (∀ e ∈ i.warp.strands, e.1 = k → e.2.members &&& ~~~m ≠ 0) →
        mLook x.strands k = some { y with members := y.members &&& ~~~m }) ∧
      (∀ v y, v ≠ i.w → mLook s.warps v = some y → y.heldStrands = [] → mLook t.warps v = some y) ∧
      mLook t.blocks i.warp.block = some { i.blk with bars := settled t i.blk.warps i.blk.bars } ∧
      (∀ b, b ≠ i.warp.block → mLook t.blocks b = mLook s.blocks b) ∧
      (∀ h, mLook s.groups i.blk.group = some h →
        mLook t.groups i.blk.group = some { h with bars := settled t (groupWarps t h) h.bars }) ∧
      (∀ n, n ≠ i.blk.group → mLook t.groups n = mLook s.groups n) ∧
      (∀ n o, mLook s.engs n = some o → (∀ p, o.kind ≠ .mma p) ∨ o.w ≠ i.w → mLook t.engs n = some o) ∧
      ((∀ e ∈ i.warp.strands, ∀ g n d p, e.2.wait ≠ .contributing g n d p) → t.ctxs = s.ctxs)) ∧
  (∀ (f : CFields) (s : State) (i : Iss), guardScalar i f.gp f.gn = false → MayRun s i none { shadow := true } 0 →
    RunsAt s i (exec (.exit f) s) (nextHeader i.st.pc i.st.hdr) none fun x => x = { i.warp with strands := x.strands })

/-! ## Barriers -/

/-- A strand that waits at a barrier goes on once the phase it waits for is past (R365, R366); with a false guard every
barrier instruction goes on at once; `barw` also goes on at once when the phases its lanes arrived in are past. -/
def Obligations.BarrierWaitsComplete : Prop :=
  (∀ (f : CFields) (s : State) (i : Iss) (o : Instr), o ∈ [.bar f, .cbar f, .barw f] →
    ∀ (cl : Bool) (bid p : Nat), MayRun s i none {} 0 →
    i.st.wait = .barrier cl bid p → p < (barAt s i cl bid).phase →
    RunsTo s i (exec o s) 1 fun x => x = { i.warp with strands := x.strands }) ∧
  (∀ (f : CFields) (s : State) (i : Iss) (o : Instr), o ∈ [.bar f, .cbar f, .barr f, .barw f] →
    (∀ cl bid p, i.st.wait ≠ .barrier cl bid p) →
    MayRun s i (chkAll true (barOpnd i f && barCnt f)) { sr := barReads f, mem := true, shadow := true, act := guardScalar i f.gp f.gn } 0 →
    guardScalar i f.gp f.gn = false →
    RunsTo s i (exec o s) 1 fun x => x = { i.warp with strands := x.strands }) ∧
  (∀ (f : CFields) (s : State) (i : Iss), (∀ cl bid p, i.st.wait ≠ .barrier cl bid p) →
    MayRun s i (chkAll true (barOpnd i f && barCnt f)) { sr := barReads f, mem := true, shadow := true, act := guardScalar i f.gp f.gn } 0 →
    guardScalar i f.gp f.gn = true → barValues i f = true → regionLanes i &&& i.lanes = 0 →
    barwPhase i (barId i f) (barAt s i false (barId i f)).phase < (barAt s i false (barId i f)).phase →
    RunsTo s i (exec (.barw f) s) 1 fun x => x = { i.warp with strands := x.strands })

/-- An arrival enters the strand's lanes in the current phase of the barrier; the phase completes in the same step when
nothing is missing. `bar` and `cbar` then wait for the phase of the arrival; `barr` goes on, and its lanes keep that
phase (R365, R366). Memory, registers, every other warp and every other block and group are as they were; of the other
barriers, one whose phase is complete enters its next. -/
def Obligations.BarrierArrivals : Prop :=
  ∀ (f : CFields) (s : State) (i : Iss), (∀ cl bid p, i.st.wait ≠ .barrier cl bid p) →
    let bid := barId i f
    let p (cl : Bool) := (barAt s i cl bid).phase
    let now (ws : List Nat) (b : Barrier) : Barrier := if phaseDone s ws b then nextPhase b else b
    let frame (t : State) : Prop :=
      t = { s with warps := t.warps, blocks := t.blocks, groups := t.groups, epoch := t.epoch } ∧
        (∀ v, v ≠ i.w → mLook t.warps v = mLook s.warps v) ∧
        (∀ b, b ≠ i.warp.block → mLook t.blocks b = mLook s.blocks b) ∧
        (∀ g, g ≠ i.blk.group → mLook t.groups g = mLook s.groups g) ∧
        (∃ y, mLook t.blocks i.warp.block = some y ∧ y = { i.blk with bars := y.bars }) ∧
        ∀ g, mLook s.groups i.blk.group = some g → ∃ h, mLook t.groups i.blk.group = some h ∧ h = { g with bars := h.bars }
    (Arrives s i f false →
      ∃ t x y, exec (.bar f) s = .next t ∧ frame t ∧ mLook t.warps i.w = some x ∧
        x = { i.warp with strands := x.strands } ∧
        mLook x.strands i.k = some { i.st with idleAt := s.epoch, wait := .barrier false bid (p false) } ∧
        mLook t.blocks i.warp.block = some y ∧ mGet {} y.bars bid = afterArrival s i f false i.blk.warps ∧
        ∀ n, n ≠ bid → mGet {} y.bars n = now i.blk.warps (mGet {} i.blk.bars n)) ∧
    (Arrives s i f true → ∀ g, mLook s.groups i.blk.group = some g →
      ∃ t x h, exec (.cbar f) s = .next t ∧ frame t ∧ mLook t.warps i.w = some x ∧
        x = { i.warp with strands := x.strands } ∧
        mLook x.strands i.k = some { i.st with idleAt := s.epoch, wait := .barrier true bid (p true) } ∧
        mLook t.groups i.blk.group = some h ∧ mGet {} h.bars bid = afterArrival s i f true (groupWarps s g) ∧
        ∀ n, n ≠ bid → mGet {} h.bars n = now (groupWarps s g) (mGet {} g.bars n)) ∧
    (Arrives s i f false →
      ∃ t x y, exec (.barr f) s = .next t ∧ frame t ∧ mLook t.warps i.w = some x ∧
        x = { i.warp with strands := x.strands, barr := x.barr } ∧ Past i 1 x ∧
        (∀ l, hasLane i.lanes l = true → mLook x.barr (32 * bid + l) = some (p false + 1)) ∧
        (∀ n, (∀ l, hasLane i.lanes l = true → n ≠ 32 * bid + l) → mLook x.barr n = mLook i.warp.barr n) ∧
        mLook t.blocks i.warp.block = some y ∧ mGet {} y.bars bid = afterArrival s i f false i.blk.warps ∧
        ∀ n, n ≠ bid → mGet {} y.bars n = now i.blk.warps (mGet {} i.blk.bars n))

/-! ## Traps and the special registers -/

/-- `trap` takes SWTRAP with its code, and `brk` takes BRK when debug-stop is off: PC and DPC name the instruction.
With a handler address the trap is delivered; while another handler of the warp runs, the strand parks with it
pending; in a handler the context ends, and so it does where TRAP is 0 (R383, R385, R386, R388, R405, R409). The
model's own choices: log entry 34. -/
def Obligations.TrapsAreTaken : Prop :=
  ∀ (f : CFields) (s : State) (i : Iss) (o : Instr) (T : Trap),
    (o = .trap f ∧ MayRun s i none { shadow := true } 0 ∧
        T = { trapHere i .swtrap with extra := f.disp.zeroExtend 64 } ∨
      o = .brk f ∧ MayRun s i none {} 0 ∧ i.st.wait ≠ .debugStop ∧ i.ctx.debugStop = false ∧ T = trapHere i .brk) →
    guardScalar i f.gp f.gn = true → TrapNow i →
    (i.st.handler = false → i.lau.trap ≠ 0 → i.warp.handler = none → areaWritable s i.ctx i.warp.recAt.toNat 64 = true →
      ∃ t, exec o s = .next t ∧ TrapEntered s t i T) ∧
    (i.st.handler = false → i.lau.trap ≠ 0 → i.warp.handler.isSome = true →
      ∃ t x, exec o s = .next t ∧ t = { s with warps := t.warps, epoch := t.epoch } ∧
        (∀ v, v ≠ i.w → mLook t.warps v = mLook s.warps v) ∧ mLook t.warps i.w = some x ∧
        x = { i.warp with strands := x.strands } ∧
        mLook x.strands i.k = some { i.st with trap := some T, wait := .none, held := none } ∧
        ∀ k, k ≠ i.k → mLook x.strands k = mLook i.warp.strands k) ∧
    (∀ h, i.st.handler = true → i.warp.handler = some h → i.ctx.terminated = false →
      ∃ t, exec o s = .next t ∧ ContextEnded s t i (trapBytes { T with cause := .double } ++ trapBytes h.trap) T.pc) ∧
    (i.st.handler = false → i.lau.trap = 0 → i.ctx.terminated = false → ∃ t, exec o s = .next t ∧ ContextEnded s t i (trapBytes T) T.pc)

/-- `rft` in the handler gives the parked strand its entry back, with the lanes the handler still has, at DPC;
`rft.next` past it (R387, R406). The model's own choices: log entry 35. -/
def Obligations.ReturnsFromTrap : Prop :=
  ∀ (f : CFields) (s : State) (i : Iss) (h : Handler),
    MayRun s i none { mem := true, shadow := true } 0 → guardScalar i f.gp f.gn = true →
    i.warp.handler = some h → i.st.handler = true → i.st.arm = none → i.st.members = h.strand.members →
    (∀ k y, mLook i.warp.strands k = some y → y.trap = none) → h.strand.trap = none → s.Canonical →
    mSorted i.warp.strands = true →
    let e := if decide (h.entry = i.k) || !(usedEntries s i.core i.warp.sub).contains h.entry then h.entry else i.k
    let back (o : Instr) (y : Strand) : Prop :=
      ∃ t x, exec o s = .next t ∧ t = { s with warps := t.warps, epoch := t.epoch } ∧
        (∀ v y, v ≠ i.w → mLook s.warps v = some y → y.heldStrands = [] → mLook t.warps v = some y) ∧
        mLook t.warps i.w = some x ∧
        x = { i.warp with strands := x.strands, heldStrands := x.heldStrands, handler := none } ∧ mLook x.strands e = some y ∧
        (i.warp.heldStrands = [] → (i.k ≠ e → mLook x.strands i.k = none) ∧
          ∀ k, k ≠ i.k → k ≠ e → mLook x.strands k = mLook i.warp.strands k)
    back (.rft f) (atDpc h.trap h.strand) ∧
    (h.trap.slot = none → back (.rftNext f) (afterDpc h.trap 1 h.strand)) ∧
    (∀ j hd a w b, h.trap.slot = some j → fetch s i h.trap.hdrAt.toNat = .word hd a →
      fetch s i h.trap.dpc.toNat = .word w b →
      back (.rftNext f) (afterDpc h.trap (slotsAfter ((hdrPairs hd).testBit j) w) h.strand))

/-- `srd` copies a special register to an s-register or pair; `swr` writes `%nstat`, whose bits 15 and 14 read zero,
adds its pennants to `%bstat` and seeds the lane states and the warp state of the stochastic source; `nclr` clears
pennants of `%nstat` alone (R407, R408, R411, R142, R147). Each leaves everything else as it was. The model's own
choices: log entry 85. -/
def Obligations.SpecialRegisterInstructionsComplete : Prop :=
  (∀ (f : CFields) (s : State) (i : Iss), let n := f.a.toNat
    let w := f.disp.getLsbD 0
    450 ≤ n → n ≤ 463 → (w = true → specialIs64 n = true) →
    MayRun s i (chkAll true (sOk i f.b.toNat (span w))) { sw := regs f.b.toNat w, shadow := true, act := guardScalar i f.gp f.gn } 0 →
    RunsTo s i (exec (.srd f) s) 1 fun x => x = { i.warp with s := x.s, strands := x.strands } ∧
      (guardScalar i f.gp f.gn = true → sVal x w f.b.toNat = special s i n 0 % 2 ^ (32 * span w)) ∧
      ∀ q, guardScalar i f.gp f.gn = false ∨ q ∉ regs f.b.toNat w → sR x q = sR i.warp q) ∧
  (∀ (f : CFields) (s : State) (i : Iss), let v := sR i.warp f.b.toNat &&& 0xFFFF3FFF
    let seed (l : Nat) (k : Word) : Word := srSeed (BitVec.ofNat 64 (workId i.lau i.blk.b i.warp.num l)) (v >>> 16) k
    MayRun s i (chkAll true (decide (f.a.toNat = 456) && sOk i f.b.toNat 1))
      { sr := [f.b.toNat], shadow := true, act := guardScalar i f.gp f.gn } 0 →
    (guardScalar i f.gp f.gn = true → ∃ t x, exec (.swr f) s = .next t ∧
      t = { s with warps := t.warps, blocks := t.blocks, epoch := t.epoch } ∧
      mLook t.warps i.w = some x ∧ Past i 1 x ∧ (∀ w, w ≠ i.w → mLook t.warps w = mLook s.warps w) ∧
      x = { i.warp with nstat := v, lanesRand := x.lanesRand, warpRand := seed 0 0xBB67AE85, strands := x.strands } ∧
      (∀ l < 32, mGet 0 x.lanesRand l = seed l 0x6A09E667) ∧
      mLook t.blocks i.warp.block = some { i.blk with bstat := i.blk.bstat ||| v.truncate 8 } ∧
      ∀ b, b ≠ i.warp.block → mLook t.blocks b = mLook s.blocks b) ∧
    (guardScalar i f.gp f.gn = false →
      RunsTo s i (exec (.swr f) s) 1 fun x => x = { i.warp with strands := x.strands })) ∧
  (∀ (f : CFields) (s : State) (i : Iss), let reg := f.disp.getLsbD 8
    let m : Word := (if reg then sR i.warp f.a.toNat else f.disp.zeroExtend 32) &&& 0xFF
    MayRun s i (chkAll true (!reg || sOk i f.a.toNat 1))
      { sr := if reg then [f.a.toNat] else [], act := guardScalar i f.gp f.gn } 0 →
    ∃ t x, exec (.nclr f) s = .next t ∧ t = { s with warps := t.warps, epoch := t.epoch } ∧
      mLook t.warps i.w = some x ∧ Past i 1 x ∧ (∀ w, w ≠ i.w → mLook t.warps w = mLook s.warps w) ∧
      x = { i.warp with nstat := if guardScalar i f.gp f.gn then i.warp.nstat &&& ~~~m else i.warp.nstat
                        strands := x.strands })

/-- `mark` continues and, where the trace unit is on, adds its record to the trace stream (R410); `brk` in a context
with debug-stop posts its stop record and the strand stops at it (R409). The model's own choices: log entry 62. -/
def Obligations.MarkAndDebugStopComplete : Prop :=
  (∀ (f : CFields) (s : State) (i : Iss), let val := f.disp.getLsbD 16
    MayRun s i (chkAll true (!val || sOk i f.a.toNat 1)) { sr := if val then [f.a.toNat] else [], act := guardScalar i f.gp f.gn } 0 →
    ∃ t x, exec (.mark f) s = .next t ∧ RegisterFrame s t i.w i.warp.block x ∧ Past i 1 x ∧
      x = { i.warp with strands := x.strands } ∧
      (∀ y, (coreOf s i.core).tracer = some y → guardScalar i f.gp f.gn = true → y.on = true →
        (coreOf t i.core).tracer = some { y with stream := y.stream ++
          [.marker (f.disp.toNat % 65536) (if val then sR i.warp f.a.toNat else 0) (pcOf i.st) (cycleOf s i.core)
            (lowName i)] })) ∧
  (∀ (f : CFields) (s : State) (i : Iss), MayRun s i none {} 0 → i.st.wait ≠ .debugStop →
    (guardScalar i f.gp f.gn = false → RunsTo s i (exec (.brk f) s) 1 fun x => x = { i.warp with strands := x.strands }) ∧
    (guardScalar i f.gp f.gn = true → i.ctx.debugStop = true → TrapNow i →
      ∃ t x, exec (.brk f) s = .next t ∧
        t = { s with warps := t.warps, epoch := t.epoch, mgmt := { s.mgmt with stops := s.mgmt.stops ++ [stopBytes i] } } ∧
        (∀ v, v ≠ i.w → mLook t.warps v = mLook s.warps v) ∧ mLook t.warps i.w = some x ∧
        x = { i.warp with strands := x.strands } ∧
        mLook x.strands i.k = some { i.st with idleAt := s.epoch, wait := .debugStop }))

/-! ## Memory -/

/-- A memory access whose lanes all pass their checks enters flight with its counter raised and the strand goes on; no
byte of memory changes yet. With no guarded lane nothing is issued (R54, R198, R214 to R220). The model's own choices:
log entry 18. -/
def Obligations.AccessesIssue : Prop :=
  ∀ (f : MFields) (s : State) (i : Iss) (o : Instr) (chk : Option (Cause × Nat)) (u : Uses) (kind : MKind)
    (fs : List LaneFate) (units : Nat → Loc → List MUnit),
    (o, chk, u, kind, fs, units) ∈ accessForms f s i → let g := guardMask i f.gp f.gn
    MayRun s i chk u g → (kind ≠ .load → regionLanes i &&& g = 0) → firstStop fs = none → absentLanesOf fs = [] →
    counterFull i.warp kind = false →
    ∃ t x, exec o s = .next t ∧ AccessFrame s t i x ∧ Past i 1 x ∧
      x = { i.warp with strands := x.strands, regions := x.regions, ld := x.ld, st := x.st } ∧
      (okLanes fs = [] → t.ops = s.ops ∧ x.ld = i.warp.ld ∧ x.st = i.warp.st) ∧
      (okLanes fs ≠ [] →
        mLook t.ops s.nextId = some
          { opOf i f kind ((okLanes fs).flatMap fun y => units y.1 y.2.2.1) with since := cycleOf s i.core } ∧
        t.nextId = s.nextId + 1 ∧ x.ld = i.warp.ld + (if kind.onLd then 1 else 0) ∧
        x.st = i.warp.st + (if kind.onLd then 0 else 1))

/-- The checks of R214 on a memory access: the cause that comes first traps, for the lanes with that cause, with the
address of the lowest of them, and nothing of the access is performed. The model's own choices: log entry 86. -/
def Obligations.AccessChecksTrap : Prop :=
  ∀ (f : MFields) (s : State) (i : Iss) (o : Instr) (chk : Option (Cause × Nat)) (u : Uses) (kind : MKind)
    (fs : List LaneFate) (units : Nat → Loc → List MUnit) (c : Cause) (m : Mask) (a e : Nat),
    (o, chk, u, kind, fs, units) ∈ accessForms f s i → let g := guardMask i f.gp f.gn
    MayRun s i chk u g → (kind ≠ .load → regionLanes i &&& g = 0) → firstStop fs = some (c, m, a, e) → TrapNow i →
    i.st.handler = false → i.lau.trap ≠ 0 → i.warp.handler = none → areaWritable s i.ctx i.warp.recAt.toNat 64 = true →
    ∃ t, exec o s = .next t ∧ TrapEntered s t i
      { trapHere i c with lanes := m, addr := BitVec.ofNat 64 a, extra := BitVec.ofNat 64 e,
                          name := nameOf i.warp i.blk.launch i.blk.b (lowLane m) }

/-- An access some of whose pages are absent parks those lanes at the instruction, with the data a route sends for
them, each page with its fault open; the other lanes' accesses are in flight and the rest of the strand goes on after
it (R33, R218, R394); where the parked lanes are all that was left of a re-executing part, the strand stands again
where its other part waits (R34). The model's own choices: log entry 29. -/
def Obligations.AbsentPagesPark : Prop :=
  ∀ (f : MFields) (s : State) (i : Iss) (o : Instr) (chk : Option (Cause × Nat)) (u : Uses) (kind : MKind)
    (fs : List LaneFate) (units : Nat → Loc → List MUnit),
    (o, chk, u, kind, fs, units) ∈ accessForms f s i → let g := guardMask i f.gp f.gn
    let ab := absentLanesOf fs
    let part : Part :=
      { lanes := ab.foldl (fun m x => m ||| laneBit x.1) (0 : Mask), pc := i.st.pc, slot := i.st.slot, hdr := i.st.hdr,
        ctx := i.cid, pages := (ab.map fun l => l.2 / 4096).eraseDups,
        sent := if f.rd = 0 then [] else routedData units ab }
    MayRun s i chk u g → (kind ≠ .load → regionLanes i &&& g = 0) → firstStop fs = none → ab ≠ [] →
    (okLanes fs ≠ [] → counterFull i.warp kind = false) →
    ∃ t x y z, exec o s = .next t ∧
      t = { s with warps := t.warps, cores := t.cores, dir := t.dir, ops := t.ops, nextId := t.nextId, faults := t.faults,
                   mgmt := { s.mgmt with nextFault := t.mgmt.nextFault }, bad := t.bad, epoch := t.epoch } ∧
      (∀ v, v ≠ i.w → mLook t.warps v = mLook s.warps v) ∧ mLook t.warps i.w = some x ∧
      x = { i.warp with
        strands := x.strands
        regions := x.regions
        ld := i.warp.ld + (if okLanes fs ≠ [] ∧ kind.onLd = true then 1 else 0)
        st := i.warp.st + (if okLanes fs ≠ [] ∧ kind.onLd = false then 1 else 0) } ∧
      mLook x.strands i.k = some y ∧ y = parkLanes part (goOn 1) z ∧ z = { i.st with wrV := z.wrV, wrP := z.wrP } ∧
      (i.st.target = none → y.shadow = part :: i.st.shadow ∧ y.pc = (stepSlots 1 i.st).pc ∧
        y.slot = (stepSlots 1 i.st).slot ∧ y.members = i.st.members) ∧
      (∀ k, k ≠ i.k → mLook x.strands k = mLook i.warp.strands k) ∧
      (∀ k, k ≠ s.nextId → mLook t.ops k = mLook s.ops k) ∧
      (okLanes fs ≠ [] → mLook t.ops s.nextId = some
        { opOf i f kind ((okLanes fs).flatMap fun y => units y.1 y.2.2.1) with since := cycleOf s i.core }) ∧
      (∀ k p, mLook s.faults k = some p → mLook t.faults k = some p) ∧
      ∀ l ∈ ab, (openFault t i.cid (l.2 / 4096)).isSome = true

/-- A unit of an access in flight that may be performed is performed whole, together with the units that one read of
the same bytes serves: a load or a returning atomic brings the value at its place to the register of each of their
lanes, a store or an atomic writes its place; every other byte of memory and of scratch, every other register, lane,
warp and access keeps its value. With its last unit an access leaves and its counter falls (R54, R183, R198, R201,
R216, R220). The model's own choices: log entries 15, 17. -/
def Obligations.AccessesPerform : Prop :=
  ∀ (s : State) (id k : Nat) (o : MemOp) (u : MUnit) (x : Warp),
    let us := o.units.filter (served o u)
    let done := o.units.map fun v => if served o u v then { v with done := true } else v
    let last := done.all (·.done)
    mLook s.ops id = some o → o.units[k]? = some u → (∀ v ∈ us, mayPerform s id o v = true) →
    mLook s.warps o.w = some x → o.kind ≠ .fence → (∀ v ∈ us, v.lane < 32) → (us.map (·.lane)).Nodup →
    (o.shared = true → o.kind.isWrite = false) → (∀ b a, u.loc = .scr b a → (mLook s.blocks b).isSome = true) →
    ∃ t y, exec (if o.kind.onLd then .loadReturn id k else .storeCommit id k) s = .next t ∧
      t = { s with mem := t.mem, warps := t.warps, blocks := t.blocks, bad := t.bad, ops := t.ops, epoch := t.epoch } ∧
      (∀ a, (unitWrites s o u).isNone = true ∨ ¬inUnit u a → mGet 0 t.mem a = mGet 0 s.mem a) ∧
      (∀ b z, mLook s.blocks b = some z → ∃ c, mLook t.blocks b = some { z with scratch := c } ∧
        ∀ a, (unitWrites s o u).isNone = true ∨ ¬inScratch u b a → mGet 0 c a = mGet 0 z.scratch a) ∧
      (∀ b, mLook s.blocks b = none → mLook t.blocks b = none) ∧
      (∀ v, unitWrites s o u = some v → readLoc t u.loc u.n = v % 2 ^ (8 * u.n)) ∧
      (∀ e ∈ t.bad, e ∈ s.bad) ∧
      mLook t.warps o.w = some y ∧ (∀ v, v ≠ o.w → mLook t.warps v = mLook s.warps v) ∧
      y = { x with v := y.v, regions := y.regions, ld := y.ld, st := y.st } ∧ (o.kind ≠ .ald → y.regions = x.regions) ∧
      (unitLoads o = true → ∀ v ∈ us, vVal y (decide (v.n = 8)) v.reg v.lane =
        readLoc s u.loc u.n % 2 ^ (32 * span (decide (v.n = 8)))) ∧
      (∀ r l, l < 32 → (∀ v ∈ us, l ≠ v.lane ∨ r ∉ regs v.reg (decide (v.n = 8))) ∨ unitLoads o = false →
        vR y r l = vR x r l) ∧
      y.ld = x.ld - (if last && o.kind.onLd then 1 else 0) ∧ y.st = x.st - (if last && !o.kind.onLd then 1 else 0) ∧
      mLook t.ops id = (if last then none else some { o with units := done }) ∧
      ∀ j, j ≠ id → (∀ e ∈ s.ops, e.1 = j → e.2.kind ≠ .fence ∨ e.2.w ≠ o.w) → mLook t.ops j = mLook s.ops j

/-- `fence` goes on, and stays in flight behind the strand while earlier accesses of its lanes are (R222); `prefetch`
goes on and may record the core as a sharer (R223). Registers and memory are unchanged by either. The model's own
choices: log entry 15. -/
def Obligations.FenceAndPrefetchComplete : Prop :=
  (∀ (f : MFields) (s : State) (i : Iss), let g := guardMask i f.gp f.gn
    MayRun s i none { pr := guardReads f.gp, mem := true, shadow := true } g →
    ∃ t x, exec (.fence f) s = .next t ∧
      t = { s with warps := t.warps, ops := t.ops, nextId := t.nextId, epoch := t.epoch } ∧
      (∀ v, v ≠ i.w → mLook t.warps v = mLook s.warps v) ∧ mLook t.warps i.w = some x ∧
      x = { i.warp with strands := x.strands } ∧ Past i 1 x ∧ (∀ k, k ≠ s.nextId → mLook t.ops k = mLook s.ops k) ∧
      (inFlight s i.w g = true → mLook t.ops s.nextId = some { opOf i f .fence [] with lanes := g }) ∧
      (inFlight s i.w g = false → t.ops = s.ops)) ∧
  (∀ (f : MFields) (s : State) (i : Iss), let g := guardMask i f.gp f.gn
    MayRun s i (chkAll true (addrOk i f)) { vr := addrV f, sr := addrS f, pr := guardReads f.gp, mem := true, act := false } g →
    ∃ t x, exec (.prefetch f) s = .next t ∧ t = { s with warps := t.warps, dir := t.dir, epoch := t.epoch } ∧
      (∀ v, v ≠ i.w → mLook t.warps v = mLook s.warps v) ∧ mLook t.warps i.w = some x ∧
      x = { i.warp with strands := x.strands } ∧ Past i 1 x)

/-- A `waitm` goes on once every guarded lane has met its relation, at issue or when it is evaluated afresh; its core
may become a sharer of the words it read, and registers, memory and every other warp are unchanged (R182, R225, R226).
The model's own choices: log entry 86. -/
def Obligations.MemoryWaitsComplete : Prop :=
  ∀ (f : MFields) (s : State) (i : Iss), let g := guardMask i f.gp f.gn
    let fs := fatesOf s i f (addrAt i f) (g &&& ~~~(metBefore i)) true false
    chkAll true (addrOk i f && vOk i f.e.toNat (span (f.width = .w64))) = none → gate s i (waitmUses f) g = .go →
    regionLanes i &&& g = 0 → firstStop fs = none → absentLanesOf fs = [] →
    g &&& ~~~(metBefore i ||| metLanes s i f fs) = 0 →
    let goes (o : Instr) : Prop := ∃ t x, exec o s = .next t ∧ t = { s with warps := t.warps, dir := t.dir, epoch := t.epoch } ∧
      (∀ v, v ≠ i.w → mLook t.warps v = mLook s.warps v) ∧ mLook t.warps i.w = some x ∧
      x = { i.warp with strands := x.strands } ∧ Past i 1 x
    (issuer s = some i → goes (.waitm f)) ∧
    (strandAt s i.w i.k = some i → instrAt s i = some (.waitm f) → (∃ m, i.st.wait = .met m) → goes (.waitmMet i.w i.k))

/-- A `seal` that passes its checks waits; the mark is set, and when the writes before it have committed the region is
sealed, no directory record of it remains, and the strand goes on. An `unseal` of a sealed region waits, and once the
loads before it have returned, the region is gone from the table (R192, R194, R224). The model's own choices: log
entries 31, 86. -/
def Obligations.SealsComplete : Prop :=
  ∀ (f : MFields) (s : State) (i : Iss), let g := guardMask i f.gp f.gn
    let base := sVal i.warp true f.a.toNat
    let len := sVal i.warp true f.e.toNat
    let waits (o : Instr) (x : Wait) : Prop := ∃ t y, exec o s = .next t ∧ t = { s with warps := t.warps, epoch := t.epoch } ∧
      (∀ v, v ≠ i.w → mLook t.warps v = mLook s.warps v) ∧ mLook t.warps i.w = some y ∧
      y = { i.warp with strands := y.strands } ∧ mLook y.strands i.k = some { i.st with idleAt := s.epoch, wait := x }
    (MayRun s i (chkAll true (sealOpnd i f)) (sealUses f) g → (∀ b n, i.st.wait ≠ .sealing b n ∧ i.st.wait ≠ .unsealing b n) →
      (g = 0 → ∀ o ∈ [Instr.sealRange f, .unsealRange f], RunsTo s i (exec o s) 1 fun x => x = { i.warp with strands := x.strands }) ∧
      (g ≠ 0 → base % 4096 = 0 → len % 4096 = 0 → len ≠ 0 → firstUnmapped s i.ctx base (len / 4096) = none →
        ((sealedOrAsked s i.cid i.ctx).length < 64 → touchesAny (sealedOrAsked s i.cid i.ctx) base len = false →
          waits (.sealRange f) (.sealing base len)) ∧
        (i.ctx.sealed.contains (base, len) = true → waits (.unsealRange f) (.unsealing base len)))) ∧
    (∀ b n, strandAt s i.w i.k = some i → i.st.wait = .sealing b n →
      (i.ctx.marks.contains (b, n) = false → touchesAny (i.ctx.sealed ++ i.ctx.marks) b n = false →
        ∃ t, exec (.sealComplete i.w i.k) s = .next t ∧ t = { s with ctxs := t.ctxs, epoch := t.epoch } ∧
          (∀ c, c ≠ i.cid → mLook t.ctxs c = mLook s.ctxs c) ∧ mLook t.ctxs i.cid = some { i.ctx with marks := (b, n) :: i.ctx.marks }) ∧
      (i.ctx.marks.contains (b, n) = true → rangeInFlight s i.cid i.ctx MKind.isWrite b n = false →
        ∃ t x, exec (.sealComplete i.w i.k) s = .next t ∧
          t = { s with warps := t.warps, ctxs := t.ctxs, dir := t.dir, epoch := t.epoch } ∧
          mLook t.ctxs i.cid = some { i.ctx with marks := i.ctx.marks.erase (b, n), sealed := (b, n) :: i.ctx.sealed } ∧
          (∀ c, c ≠ i.cid → mLook t.ctxs c = mLook s.ctxs c) ∧ (∀ v, v ≠ i.w → mLook t.warps v = mLook s.warps v) ∧
          mLook t.warps i.w = some x ∧ x = { i.warp with strands := x.strands } ∧ Past i 1 x ∧
          ∀ k, mGet 0 t.dir k = if keyInRange s i.ctx b (n / 4096) (k / 1024 * 128) then 0 else mGet 0 s.dir k)) ∧
    (∀ b n, strandAt s i.w i.k = some i → i.st.wait = .unsealing b n →
      rangeInFlight s i.cid i.ctx (fun k => !k.isWrite) b n = false →
      ∃ t x, exec (.unsealComplete i.w i.k) s = .next t ∧ t = { s with warps := t.warps, ctxs := t.ctxs, epoch := t.epoch } ∧
        mLook t.ctxs i.cid = some { i.ctx with sealed := i.ctx.sealed.erase (b, n) } ∧
        (∀ c, c ≠ i.cid → mLook t.ctxs c = mLook s.ctxs c) ∧ (∀ v, v ≠ i.w → mLook t.warps v = mLook s.warps v) ∧
        mLook t.warps i.w = some x ∧
        x = { i.warp with strands := x.strands } ∧ Past i 1 x)

/-! ## Engine operations -/

/-- A copy whose guard holds and whose record, box and ranges are good issues at once when nothing is in its way: its
operation is in flight with its ranges locked, its core shares the record it read, and its strand goes on (R182, R208,
R228 to R235). With a false guard each of them only continues. The model's own choices: log entries 39, 40, 41, 42,
83. -/
def Obligations.CopiesIssue : Prop :=
  (∀ (f : KFields) (s : State) (i : Iss) (sh : Shape) (c : CopyForm), c ∈ copyForms f s i sh →
    MayRun s i (chkAll true (c.opnd && !tagBeyond i c.tag)) { c.uses with mem := true, act := guardScalar i f.gp f.gn } 0 →
    (∀ reads : Act, guardScalar i f.gp f.gn = true → regionLanes i &&& i.lanes = 0 → c.ready = true →
      (∀ a, withShape s i (sVal i.warp true f.a.toNat) true c.scales a = andThen reads (a sh)) →
      firstOf (boxChecks sh (coordRegs i f) f.mode.toNat) = none → firstOf c.checks = none →
      (∀ a, rangeTraps i c.fits sh (coordRegs i f) c.writes a = a) →
      engineReady s i (engOf i c.kind c.tag false) (isRelease f) c.ranges = true →
      ∃ t, exec c.ins s = .next t ∧ OnlyDir s (after reads s) ∧
        EngineIssued (after reads s) t i (engOf i c.kind c.tag false) c.ranges i.ctx) ∧
    (guardScalar i f.gp f.gn = false → RunsTo s i (exec c.ins s) 1 fun x => x = { i.warp with strands := x.strands })) ∧
  (∀ (f : KFields) (s : State) (i : Iss) (b : Nat),
    let va := sVal i.warp true f.a.toNat
    let dest := va % 2 ^ 32
    let frm := (sR i.warp f.b.toNat).toNat
    let n := (sR i.warp f.c.toNat).toNat
    let o := engOf i (.move (.scr i.warp.block frm) (.scr b dest) n) (copyTag f true) false
    let rs : List Range := [⟨i.core, .scr b dest, n, true⟩, ⟨i.core, .scr i.warp.block frm, n, false⟩]
    MayRun s i (chkAll true (sPair i f.a && sOk i f.b.toNat 1 && fiveOk i f && !tagBeyond i (copyTag f true)))
      { sr := regs f.a.toNat true ++ [f.b.toNat, f.c.toNat], mem := true, act := guardScalar i f.gp f.gn } 0 →
    (guardScalar i f.gp f.gn = true → regionLanes i &&& i.lanes = 0 →
      n % 16 = 0 → n ≠ 0 → n ≤ 2 ^ 20 → frm % 16 = 0 → dest % 16 = 0 → va < 2 ^ 36 → dest + n ≤ 2 ^ 25 →
      dest + n ≤ i.lau.scratch → frm + n ≤ i.lau.scratch → clusterBlock s i (va / 2 ^ 32) = some b →
      (b = i.warp.block → rangeHit frm n dest n = false) → engineReady s i o (isRelease f) rs = true →
      ∃ t, exec (.cpx f) s = .next t ∧ EngineIssued s t i o rs i.ctx) ∧
    (guardScalar i f.gp f.gn = false → RunsTo s i (exec (.cpx f) s) 1 fun x => x = { i.warp with strands := x.strands }))

/-- A matrix instruction whose guard holds and whose checks pass issues at once when nothing is in its way, and enters
its core's queue with a snapshot of its operands, its core sharing the record it read (R182, R261, R264, R275 to
R286); `gpin` reserves its region. With a false guard each of them only continues. The model's own choices: log
entries 38, 39, 45, 46, 49, 87. -/
def Obligations.MatrixInstructionsIssue : Prop :=
  (∀ (f : XFields) (s : State) (i : Iss) (c : TileForm), c ∈ tileForms f s i →
    MayRun s i (chkAll true (c.opnd && !tagBeyond i c.tag)) { c.uses with mem := true, act := guardScalar i f.gp f.gn } 0 →
    guardScalar i f.gp f.gn = true → (c.anyRegion = false → regionLanes i &&& i.lanes = 0) → c.go = true →
    engineReady s i c.op false c.ranges = true →
    ∃ t, exec c.ins s = .next t ∧ EngineIssued s t i c.op c.ranges c.ctx) ∧
  (∀ (f : XFields) (s : State) (i : Iss) (r : List Byte) (ab : Nat),
    let fw := mmaFw i f
    let va := sVal i.warp true f.a.toNat
    let p := mmaParams i r fw (sR i.warp f.g.toNat) ab
    MayRun s i (chkAll true (sPair i f.a && xs1 i f.g && vOk i f.fw.toNat 1 && !tagBeyond i (tgTag f 0)))
      { mmaUses i f with mem := true, act := guardScalar i f.gp f.gn } 0 →
    guardScalar i f.gp f.gn = true → regionLanes i &&& i.lanes = 0 →
    (∀ l, hasLane i.lanes l = true → vR i.warp f.fw.toNat l = fw) → va % 64 = 0 → readRecord s i va 8 = .bytes r →
    mmaHeld s i va = false → mmaAblock s i r = some ab → firstOf (mmaChecks i r fw) = none → mmaOut i p = false →
    engineReady s i (engOf i (.mma p) (tgTag f 0) true) false (mmaRanges i p) = true →
    ∃ t, exec (.mma f) s = .next t ∧ OnlyDir s (after (shareRecord s i va 8) s) ∧
      EngineIssued (after (shareRecord s i va 8) s) t i (engOf i (.mma p) (tgTag f 0) true) (mmaRanges i p) i.ctx) ∧
  (∀ (f : XFields) (s : State) (i : Iss) (sh0 : Shape) (reads : Act),
    let w := sR i.warp f.h.toNat
    let xw := sR i.warp (f.h.toNat + 1)
    let va := sVal i.warp true f.a.toNat
    let tag := if f.xmod.getLsbD 9 then none else some f.tag.toNat
    let c := drainCtl i f w sh0.fmt
    let sh := { sh0 with box := [c.n, c.m, 1, 1, 1] }
    let cs : List Int := [wordRow xw, wordCol xw, 0, 0, 0]
    let o := engOf i (.drain sh cs c (f.fw.getLsbD 3)) tag true
    MayRun s i (chkAll true (sPair i f.a && sPair i f.h && xs1 i f.g && !tagBeyond i tag))
      { sr := drainReads f ++ regs f.h.toNat true, mem := true, act := guardScalar i f.gp f.gn } 0 →
    guardScalar i f.gp f.gn = true → regionLanes i &&& i.lanes = 0 → va % 8 = 0 →
    firstOf (tileChecks i w) = none → (∀ a, withShape s i va false true a = andThen reads (a sh0)) →
    firstOf (tdrainChecks sh0 c (f.fw.getLsbD 3) (wordRow xw) (wordCol xw)) = none →
    (∀ a, rangeTraps i true sh cs true a = a) → engineReady s i o false (boxRanges i.core sh cs true) = true →
    ∃ t, exec (.tdrain f) s = .next t ∧ OnlyDir s (after reads s) ∧ EngineIssued (after reads s) t i o (boxRanges i.core sh cs true) i.ctx) ∧
  (∀ (f : XFields) (s : State) (i : Iss) (o : Instr) (ok : Bool) (u : Uses) (tag : Option Nat),
    (o, ok, u, tag) ∈ tileUses f s i → guardScalar i f.gp f.gn = false →
    MayRun s i (chkAll true (ok && !tagBeyond i tag)) { u with mem := true, act := false } 0 →
    RunsTo s i (exec o s) 1 fun x => x = { i.warp with strands := x.strands })

/-- `waitany` and `ffrdy` write the lowest complete tag of their mask, or all ones; `waitany` and `waitall` go on once
a tag of the mask, or all of them, is complete; `tagrel` clears the bits of the tags of the mask that have no
operation in flight (R232, R236). The model's own choices: log entry 47. -/
def Obligations.TagInstructionsComplete : Prop :=
  ∀ (f : KFields) (s : State) (i : Iss),
    let m := tagMask i f
    let r := m &&& i.blk.cdone.toNat
    let may (dst : Bool) : Prop := MayRun s i (chkAll true (sPair i f.a && (!dst || sOk i f.b.toNat 1)))
      { sr := regs f.a.toNat true, sw := if dst then [f.b.toNat] else [], mem := true, act := guardScalar i f.gp f.gn } 0
    let undue : Prop := dueTrap i.warp i.st { tags := BitVec.ofNat 64 m } = none
    let writes (o : Instr) : Prop := RunsTo s i (exec o s) 1 fun x => x = { i.warp with s := x.s, strands := x.strands } ∧
      ∀ q, sR x q = if q = f.b.toNat then BitVec.ofNat 32 (lowestTag r) else sR i.warp q
    let only (o : Instr) : Prop := RunsTo s i (exec o s) 1 fun x => x = { i.warp with strands := x.strands }
    (guardScalar i f.gp f.gn = true →
      (may true → undue → (m = 0 ∨ r ≠ 0 → writes (.waitany f)) ∧ writes (.ffrdy f)) ∧
      (may false → (undue → r = m → only (.waitall f)) ∧
        ∃ t x y, exec (.tagrel f) s = .next t ∧ t = { s with warps := t.warps, blocks := t.blocks, epoch := t.epoch } ∧
          (∀ v, v ≠ i.w → mLook t.warps v = mLook s.warps v) ∧ mLook t.warps i.w = some x ∧
          x = { i.warp with strands := x.strands } ∧ Past i 1 x ∧ mLook t.blocks i.warp.block = some y ∧
          (∀ b, b ≠ i.warp.block → mLook t.blocks b = mLook s.blocks b) ∧ y = { i.blk with cdone := y.cdone } ∧
          ∀ k < 64, y.cdone.getLsbD k = (i.blk.cdone.getLsbD k && !(m.testBit k && decide (tagCount i.blk k = 0))))) ∧
    (guardScalar i f.gp f.gn = false →
      (may true → only (.waitany f) ∧ only (.ffrdy f)) ∧ (may false → only (.waitall f) ∧ only (.tagrel f)))

/-- `tshape` grants the shape it is asked for, rounded up and within its limits (R263, R277). `tstat` and `tclr` act
at once when the queue of their core is empty (R286). `gfree` releases its region when no operation on it is left, and
waits until then, the region live no more (R285). The model's own choices: log entries 49, 50. -/
def Obligations.TileStateInstructionsComplete : Prop :=
  ∀ (f : XFields) (s : State) (i : Iss), guardScalar i f.gp f.gn = true →
    let w := sR i.warp f.g.toNat
    let q := w.toNat
    let key := slotKey i.blk (slotsAcross i.lau) i.core (wordRow w) (wordCol w)
    let pin := (sR i.warp f.h.toNat).toNat
    let freed (id : Nat) : Prop := ∃ t x, exec (.gfree f) s = .next t ∧
      t = { s with warps := t.warps, ctxs := t.ctxs, pool := t.pool, epoch := t.epoch } ∧
      (∀ v, v ≠ i.w → mLook t.warps v = mLook s.warps v) ∧ mLook t.warps i.w = some x ∧
      x = { i.warp with strands := x.strands } ∧ Past i 1 x ∧
      mLook t.ctxs i.cid = some { i.ctx with pins := mDel i.ctx.pins id } ∧
      ∀ k, mLook t.pool k = if k / 2 ^ 16 = poolKey i.cid id 0 / 2 ^ 16 then none else mLook s.pool k
    (MayRun s i (chkAll true (xs1 i f.g)) { sr := [f.g.toNat], mem := true } 0 →
      RunsTo s i (exec (.tshape f) s) 1 fun x => x = { i.warp with tshape := x.tshape, strands := x.strands } ∧
        shapeM x = grant (q % 1024) 16 (min 128 i.lau.arows) ∧ shapeN x = grant (q / 1024 % 1024) 16 (min 128 i.lau.acols) ∧
        shapeK x = grant (q / 2 ^ 20 % 1024) 32 512) ∧
    (MayRun s i (chkAll true (xs1 i f.g && xs1 i f.h)) { sr := [f.g.toNat], sw := spanRegs f.h.toNat 8, mem := true } 0 →
      positionBad i w = false → sOk i f.h.toNat 8 = true → (queueOf s i.core).isEmpty = true →
      RunsTo s i (exec (.tstat f) s) 1 fun x => x = { i.warp with s := x.s, strands := x.strands } ∧
        (∀ j < 8, sR x (f.h.toNat + j) = (statWords (statAt i.blk key)).getD j 0) ∧
        ∀ r, r ∉ spanRegs f.h.toNat 8 → sR x r = sR i.warp r) ∧
    (MayRun s i (chkAll true (xs1 i f.g)) { sr := [f.g.toNat], mem := true } 0 →
      positionBad i w = false → (queueOf s i.core).isEmpty = true →
      ∃ t x, exec (.tclr f) s = .next t ∧ t = { s with warps := t.warps, blocks := t.blocks, epoch := t.epoch } ∧
        (∀ v, v ≠ i.w → mLook t.warps v = mLook s.warps v) ∧ mLook t.warps i.w = some x ∧
        x = { i.warp with strands := x.strands } ∧ Past i 1 x ∧
        mLook t.blocks i.warp.block = some { i.blk with stats := mDel i.blk.stats key } ∧
        ∀ b, b ≠ i.warp.block → mLook t.blocks b = mLook s.blocks b) ∧
    (MayRun s i (chkAll true (xs1 i f.h)) { sr := [f.h.toNat], mem := true } 0 → regionLanes i &&& i.lanes = 0 →
      (∀ k, i.st.wait ≠ .freed k) → ∀ p, livePin i pin = some p →
      (pinBusy s i.cid pin = false → freed pin) ∧
      (pinBusy s i.cid pin = true → ∃ t x, exec (.gfree f) s = .next t ∧
        t = { s with warps := t.warps, ctxs := t.ctxs, epoch := t.epoch } ∧ mLook t.warps i.w = some x ∧
        x = { i.warp with strands := x.strands } ∧
        mLook x.strands i.k = some { i.st with idleAt := s.epoch, wait := .freed pin } ∧
        mLook t.ctxs i.cid = some { i.ctx with pins := mIns i.ctx.pins pin { p with freed := true } })) ∧
    (issuer s = some i → ∀ k, i.st.wait = .freed k → pinBusy s i.cid k = false → freed k)

/-- A copy whose remaining words can all be read and then written makes them and leaves; one of whose transfers cannot
be made leaves as failed, with its trap pending for its warp (R205, R230 to R232). The model's own choices: log entry
43. -/
def Obligations.CopiesComplete : Prop :=
  ∀ (s : State) (op : Nat) (o : EngOp), mLook s.engs op = some o → o.queued = false → o.kind.onCp = some true →
    (∀ u y, eventsMade op (leftOf o ++ leftOf o) s = some u → mLook u.engs op = some y → moveCount y ≤ y.done.length →
      ∃ t, exec (.copyComplete op) s = .next t ∧ EngineLeft u t op y) ∧
    (∀ why addr x w, failingMove s o why addr.toNat = some x → mLook s.warps o.w = some w →
      ∃ t, exec (.copyFail op why addr) s = .next t ∧
        EngineLeft { s with warps := mIns s.warps o.w { w with deferred := w.deferred ++ [failTrap o why addr.toNat x] } }
          t op o)

/-- The operation at the head of a core's matrix queue has its effect at its turn and leaves. An `mma` of one segment
gives each element of its tile its product with the old word; `tzero`, `tload` and `twrite` write their tile, `tread`
its registers, `tstat` its eight registers, and `tclr` clears its slot; a drain leaves the queue with the codes of its
tile. An operand word that it has read already keeps the value it read (R205, R261, R267, R279 to R283, R286). The
model's own choices: log entries 44, 45, 46, 48. -/
def Obligations.QueuedOperationsPerform : Prop :=
  ∀ (s : State) (core id : Nat) (o : EngOp) (b : Block) (x : Warp), queueHead s core = some (id, o) → o.core = core →
    mLook s.blocks o.blk = some b → mLook s.warps o.w = some x → s.Canonical →
    let word (r c : Nat) : Word := accAt b core r c
    let leaves (ins : Instr) (u : State) : Prop := ∃ t, exec ins s = .next t ∧ EngineLeft u t id o
    let tile : Instr := .queuedTileOpPerform core
    let row (y : Warp) (l : List BadWord) : State := { s with warps := mIns s.warps o.w y, bad := l }
    (∀ p, o.kind = .mma p → mmaBad s o p = none → segStarts p = [0] → p.col0 + p.n ≤ 512 →
      let a := scratchSeen o p.ablock (match mLook s.blocks p.ablock with | some y => y.scratch | none => [])
      let bs := bstoreSeen o (coreOf s core).bstore
      let out (r c : Nat) : Word × Bool :=
        if fwMode p.fw = 2 then (segInt p a bs r c 0 p.k (word (p.row0 + r) (p.col0 + c)), false)
        else segElem (segValue p a (scratchSeen o o.blk b.scratch) bs r c 0 p.k) (fwMode p.fw = 1) (word (p.row0 + r) (p.col0 + c))
      (∀ r < p.m, ∀ c < p.n, (out r c).2 = false) →
      ∃ u, AccWritten s u o.blk core (tileVal p.row0 p.col0 p.m p.n fun r c => (out r c).1) ∧ leaves (.mmaPerform core) u) ∧
    (∀ r c m n, o.kind = .zero r c m n → c + n ≤ 512 →
      ∃ u, AccWritten s u o.blk core (tileVal r c m n fun _ _ => 0) ∧ leaves tile u) ∧
    (∀ r c m n ofs stride, o.kind = .tload r c m n ofs stride → c + n ≤ 512 →
      scratchBad s o.blk ofs ((m - 1) * stride + 4 * n) = none →
      ∃ u, AccWritten s u o.blk core (tileVal r c m n fun j k =>
          BitVec.ofNat 32 (bytesAt (scratchSeen o o.blk b.scratch) (ofs + j * stride + 4 * k) 4)) ∧
        leaves tile u) ∧
    (∀ r c n vals, o.kind = .twrite r c n false vals → c + n ≤ 512 →
      ∃ u, AccWritten s u o.blk core (tileVal r c 32 n fun j k => vals.getD (32 * k + j) 0) ∧ leaves tile u) ∧
    (∀ r c n reg, o.kind = .tread r c n false reg → accBad s o.blk core r c 32 n = false →
      ∃ y l, leaves tile (row y l) ∧ (∀ z ∈ l, z ∈ s.bad) ∧ y = { x with v := y.v } ∧
        ∀ q l, l < 32 → vR y q l = if reg ≤ q ∧ q < reg + n then word (r + l) (c + (q - reg)) else vR x q l) ∧
    (∀ r c reg, o.kind = .stat r c reg → ∃ y l, leaves tile (row y l) ∧ (∀ z ∈ l, z ∈ s.bad) ∧ y = { x with s := y.s } ∧
      ∀ j < 8, sR y (reg + j) = (statWords (statAt b (slotKey b (acrossOf s b) core r c))).getD j 0) ∧
    (∀ r c, o.kind = .clr r c → leaves tile
      { s with blocks := mIns s.blocks o.blk { b with stats := mDel b.stats (slotKey b (acrossOf s b) core r c) } }) ∧
    (∀ sh cs c addIt, o.kind = .drain sh cs c addIt → accBad s o.blk core c.row c.col c.m c.n = false →
      let d := drainTile c fun j k => word (c.row + j) (c.col + k)
      let u := after (countClips o c d.1) s
      ∃ t, exec tile s = .next t ∧
        t = { u with engs := mIns s.engs id { o with queued := false, vals := tileCodes d }, epoch := t.epoch })

/-- `gpin` ends with its region live and its id in its register (R284). A `tsave` writes its codes to scratch and
leaves (R283); the last element of a `gacc` is added to its word of a resident page in f32 and the operation leaves; a
`gflush` with no page left to write leaves (R272, R273). The model's own choices: log entries 44, 49. -/
def Obligations.PinnedOperationsPerform : Prop :=
  ∀ (s : State) (op : Nat) (o : EngOp) (b : Block) (x : Warp) (c : Context),
    mLook s.blocks o.blk = some b → mLook s.warps o.w = some x → mLook s.ctxs o.ctx = some c → s.Canonical →
    let turn : Prop := queueHead s o.core = some (op, o)
    let leaves (ins : Instr) (u : State) : Prop := ∃ t, exec ins s = .next t ∧ EngineLeft u t op o
    let tile : Instr := .queuedTileOpPerform o.core
    (∀ id reg p, mLook s.engs op = some o → o.kind = .pin id reg → mLook c.pins id = some p →
      ∃ y l, leaves (.gpinReservationRecorded op)
        { s with ctxs := mIns s.ctxs o.ctx { c with pins := mIns c.pins id { p with ready := true } }, warps := mIns s.warps o.w y,
                 bad := l } ∧
        (∀ z ∈ l, z ∈ s.bad) ∧ y = { x with s := y.s } ∧ ∀ q, sR y q = if q = reg then BitVec.ofNat 32 id else sR x q) ∧
    (∀ ofs stride d, turn → o.kind = .tsave ofs stride d → accBad s o.blk o.core d.row d.col d.m d.n = false →
      let r := drainTile d fun j k => accAt b o.core (d.row + j) (d.col + k)
      leaves tile (after (andThen (countClips o d r.1) (tsaveWrites o ofs stride d (tileCodes r))) s)) ∧
    (∀ pin row col m n ofs stride p pg, turn → o.kind = .gacc pin row col m n ofs stride →
      accBad s o.blk o.core row col m n = false → o.pos + 1 = m * n → mLook c.pins pin = some p →
      let byte := ofs + o.pos / n * stride + 4 * (o.pos % n)
      let key := poolKey o.ctx pin (byte / 4096)
      let w := byte % 4096 / 4
      mLook s.pool key = some pg → pg.spilled = false → s.bad.contains (.pool key w) = false →
      leaves tile { s with pool := mIns s.pool key { pg with
        last := s.tick, words := mPut 0 pg.words w (BitVec.ofNat 32 (poolAdd (mGet 0 pg.words w)
          (accAt b o.core (row + o.pos / n) (col + o.pos % n)))) } }) ∧
    (∀ pin, turn → o.kind = .gflush pin →
      (s.pool.all fun e => e.2.spilled || decide (e.1 / 2 ^ 16 ≠ poolKey o.ctx pin 0 / 2 ^ 16) || decide (e.1 < o.pos)) = true →
      leaves tile s)

/-- A deferred trap that is due is taken by the strand that stands at its point; without a handler address the context
ends (R231, R269, R383). Once its faults are answered a parked part executes again where it was parked, with the pages
answered FAIL and the routed data it was parked with, and the running part waits for it; where both stand at one
instruction they go on together (R34). The model's own choices: log entries 34, 36. -/
def Obligations.DeferredTrapsAndShadows : Prop :=
  ∀ (s : State) (i : Iss), strandAt s i.w i.k = some i →
    (∀ d, i.st.slot = none → i.st.trap = none → i.st.held = none → dueTrap i.warp i.st { edge := true } = some d →
      TrapNow i →
      let x := { i.warp with deferred := i.warp.deferred.erase d }
      let u := { s with warps := mIns s.warps i.w x }
      (i.lau.trap ≠ 0 → areaWritable s i.ctx i.warp.recAt.toNat 64 = true →
        ∃ t, exec (.deferredTrapDeliver i.w i.k) s = .next t ∧ TrapEntered u t { i with warp := x } (deferredAt i d)) ∧
      (i.lau.trap = 0 → i.ctx.terminated = false → ∃ t, exec (.deferredTrapDeliver i.w i.k) s = .next t ∧
        ContextEnded u t { i with warp := x } (trapBytes (deferredAt i d)) d.pc)) ∧
    (∀ p rest, i.st.shadow = p :: rest → i.st.target = none → (∀ q ∈ p.pages, openFault s p.ctx q = none) →
      pageHeld i.st = false → (i.st.wait ≠ .none ∨ i.lanes = 0) →
      let y := if p.pc = i.st.pc ∧ p.slot = i.st.slot then
          { i.st with shadow := rest, failed := p.failed, sent := p.sent, idleAt := 0 }
        else { i.st with pc := p.pc, slot := p.slot, hdr := p.hdr, wait := p.wait, shadow := rest, held := none,
                         failed := p.failed, sent := p.sent, target := some (waitingPart i), idleAt := 0 }
      ∃ t x, exec (.faultShadowReexecute i.w i.k) s = .next t ∧ t = { s with warps := t.warps, epoch := t.epoch } ∧
        (∀ v, v ≠ i.w → mLook t.warps v = mLook s.warps v) ∧ mLook t.warps i.w = some x ∧
        x = { i.warp with strands := x.strands } ∧ mLook x.strands i.k = some y ∧
        ∀ k, k ≠ i.k → mLook x.strands k = mLook i.warp.strands k)

/-! ## Atomic regions -/

/-- `abeg` opens a region in each guarded lane (R298, R319). `ald` of lanes with a region brings each of them the
value its region holds, or starts its access, and enters its slot or tag; `st.rgn` buffers its store in each lane's
region and writes no memory (R299, R302, R318, R322). The model's own choices: log entry 51. -/
def Obligations.RegionInstructionsComplete : Prop :=
  (∀ (f : MFields) (s : State) (i : Iss), let g := guardMask i f.gp f.gn
    MayRun s i none { pr := guardReads f.gp, mem := true, shadow := true } g → regionLanes i &&& g = 0 →
    RunsTo s i (exec (.abeg f) s) 1 fun x => x = { i.warp with regions := x.regions, strands := x.strands } ∧
      ∀ l < 32, mLook x.regions l =
        if hasLane g l then some { fallback := labelAt i (fallbackDisp f) } else mLook i.warp.regions l) ∧
  (∀ (f : MFields) (s : State) (i : Iss), let g := guardMask i f.gp f.gn
    let n := widthBytes f.width
    let d := f.d.toNat
    let oks := okLanes (aldFates s i f g)
    let case_ (x : Nat × Nat × Loc × Option DWord) : AldCase := aldCase (laneRegion i.warp x.1) (keyOf x.2.2.1) n
    let new (x : Nat × Nat × Loc × Option DWord) : Region :=
      aldNote (laneRegion i.warp x.1) d n (keyOf x.2.2.1) x.2.1 (addrV f) s.nextId
    let fresh := oks.filter fun x => decide (case_ x = .fresh)
    MayRun s i (chkAll true (addrOk i f && vOk i d (widthRegs f.width))) (aldUses f) g → regionless i g = 0 →
    firstStop (aldFates s i f g) = none → absentLanesOf (aldFates s i f g) = [] →
    (∀ x ∈ oks, isHome x.2.2.1 = true ∧ case_ x ≠ .refuse ∧ case_ x ≠ .pending ∧ (new x).tags.length ≤ 8) →
    counterFull i.warp .ald = false →
    ∃ t x, exec (.ald f) s = .next t ∧ AccessFrame s t i x ∧ Past i 1 x ∧
      x = { i.warp with v := x.v, regions := x.regions, strands := x.strands, ld := i.warp.ld + (if fresh = [] then 0 else 1) } ∧
      (fresh ≠ [] → mLook t.ops s.nextId =
        some { opOf i f .ald (fresh.map fun o => ⟨o.1, o.2.2.1, n, d, 0, 0, false⟩) with since := cycleOf s i.core }) ∧
      (∀ y ∈ oks, mLook x.regions y.1 = some (new y) ∧
        ∀ v tg, case_ y = .held v tg → vVal x (decide (n = 8)) d y.1 = v % 2 ^ (32 * span (decide (n = 8)))) ∧
      ∀ r l, l < 32 → hasLane g l = false ∨ r ∉ regs d (decide (n = 8)) → vR x r l = vR i.warp r l) ∧
  (∀ (f : MFields) (s : State) (i : Iss), let g := guardMask i f.gp f.gn
    let fs := stRgnFates s i f g
    let note (x : Nat × Nat × Loc × Option DWord) : Option Region :=
      stRgnNote i x.1 f.d.toNat (widthBytes f.width) (keyOf x.2.2.1) x.2.1 (addrV f)
    MayRun s i (chkAll true (addrOk i f && vOk i f.d.toNat (widthRegs f.width))) (stRgnUses f) g →
    stRgnForm f = true → regionless i g = 0 → firstStop fs = none → absentLanesOf fs = [] →
    (∀ x ∈ okLanes fs, isHome x.2.2.1 = true ∧ (note x).isSome = true) →
    ∃ t x, exec (.stRgn f) s = .next t ∧ AccessFrame s t i x ∧ t.ops = s.ops ∧ Past i 1 x ∧
      x = { i.warp with regions := x.regions, strands := x.strands } ∧
      ∀ y ∈ okLanes fs, mLook x.regions y.1 = note y)

/-- A commit whose slots are unchanged writes its stores and wins; one whose changed slots no dependence and no
constraint stands on writes the stores and the registers that carry a tag anew; any other aborts and writes nothing
(R304, R305, R211). The model's own choices: log entry 52. -/
def Obligations.RegionsCommit : Prop :=
  ∀ (s : State) (i : Iss) (l : Nat) (left won again ab : Mask), strandAt s i.w i.k = some i →
    i.st.wait = .commit left won again ab → hasLane left l = true → quiet s i.w (laneBit l) = true →
    (∀ k < l, hasLane left k = true → shareWord (laneRegion i.warp k) (laneRegion i.warp l) = false) →
    let g := laneRegion i.warp l
    let now := slotNow s g
    let barred := commitBarred s i.core i.cid i.ctx g
    let written := after (commitWrites g now) s
    let keeps := (List.range g.slots.length).all fun k => !slotChanged g now k ||
      (!g.dep.getLsbD k && g.cons.all fun c => decide (c.slot ≠ k) || conHolds c (now.getD k 0))
    ∃ t x, exec (.regionCommit i.w i.k l) s = .next t ∧
      t = { s with mem := t.mem, bad := t.bad, warps := t.warps, epoch := t.epoch } ∧
      (∀ v, v ≠ i.w → mLook t.warps v = mLook s.warps v) ∧ mLook t.warps i.w = some x ∧
      x = { i.warp with v := x.v, regions := x.regions, strands := x.strands } ∧
      (∀ a, (∀ b ∈ g.stores, a < b.key ∨ b.key + b.n ≤ a) → mGet 0 t.mem a = mGet 0 s.mem a) ∧
      (barred = false → (List.range g.slots.length).all (fun k => !slotChanged g now k) = true →
        t.mem = written.mem ∧ x.v = i.warp.v ∧ mLook x.strands i.k =
          some { i.st with wait := .commit (left &&& ~~~(laneBit l)) (won ||| laneBit l) again ab, idleAt := 0 }) ∧
      (barred = false → (List.range g.slots.length).any (slotChanged g now) = true → keeps = true →
        t.mem = written.mem ∧ x.v = ((changedTags i.warp g now).foldl (fun y c =>
          setVal y (decide (c.n = 8)) c.reg l ((now.getD c.slot 0 + c.ofs) % 2 ^ (8 * c.n))) i.warp).v ∧
        mLook x.strands i.k =
          some { i.st with wait := .commit (left &&& ~~~(laneBit l)) won (again ||| laneBit l) ab, idleAt := 0 }) ∧
      (barred = true ∨ keeps = false → t.mem = s.mem ∧ x.v = i.warp.v ∧ x.regions = i.warp.regions ∧
        mLook x.strands i.k =
          some { i.st with wait := .commit (left &&& ~~~(laneBit l)) won again (ab ||| laneBit l), idleAt := 0 })

/-- `aend` of lanes without a region makes its predicate false in them and goes on; with regions it waits for their
commits, and once all have reported and none aborted its predicate is true in the lanes that committed, and its
s-register takes the number of those repaired (R304, R320). `aabort` without an open region goes on; when every lane
of the strand aborts it continues at its fallback, and when some do they leave it for a strand of their own there
(R306). The model's own choices: log entry 52. -/
def Obligations.RegionsEnd : Prop :=
  (∀ (f : MFields) (s : State) (i : Iss), let g := guardMask i f.gp f.gn
    (MayRun s i (chkAll true (pOk f.d.toNat && (!f.ak || sOk i f.e.toNat 1))) (aendUses f) g →
      (∀ a b c d, i.st.wait ≠ .commit a b c d) →
      (regionLanes i &&& g = 0 → RunsTo s i (exec (.aend f) s) 1 fun x =>
        x = { i.warp with p := x.p, strands := x.strands } ∧ PredWrite i g f.d.toNat (fun _ => false) x) ∧
      (regionLanes i &&& g ≠ 0 → ∃ t x, exec (.aend f) s = .next t ∧ t = { s with warps := t.warps, epoch := t.epoch } ∧
        (∀ v, v ≠ i.w → mLook t.warps v = mLook s.warps v) ∧ mLook t.warps i.w = some x ∧
        x = { i.warp with strands := x.strands } ∧ mLook x.strands i.k =
          some { i.st with idleAt := s.epoch, wait := .commit (regionLanes i &&& g) 0 0 0 })) ∧
    (issuer s = some i → ∀ won again, i.st.wait = .commit 0 won again 0 →
      RunsTo s i (exec (.aend f) s) 1 fun x => x = { i.warp with p := x.p, s := x.s, strands := x.strands } ∧
        PredWrite i g f.d.toNat (fun l => hasLane (won ||| again) l) x ∧
        ∀ q, sR x q = if f.ak = true ∧ won ||| again ≠ 0 ∧ q = f.e.toNat then BitVec.ofNat 32 (laneCount again)
          else sR i.warp q)) ∧
  (∀ (f : MFields) (s : State) (i : Iss), let ab := regionLanes i &&& guardMask i f.gp f.gn
    MayRun s i none { pr := guardReads f.gp, mem := true, shadow := true } (guardMask i f.gp f.gn) →
    (ab = 0 → RunsTo s i (exec (.aabort f) s) 1 fun x => x = { i.warp with strands := x.strands }) ∧
    (∀ pc, ab ≠ 0 → (∀ l, hasLane ab l = true → (laneRegion i.warp l).fallback = pc) →
      (i.st.members &&& ~~~ab = 0 → ∃ t x y, exec (.aabort f) s = .next t ∧ t = { s with warps := t.warps, epoch := t.epoch } ∧
        (∀ v, v ≠ i.w → mLook t.warps v = mLook s.warps v) ∧
        mLook t.warps i.w = some x ∧ x = { i.warp with regions := x.regions, strands := x.strands } ∧
        (∀ l, mLook x.regions l = if hasLane ab l then none else mLook i.warp.regions l) ∧
        (∀ j, j ≠ i.k → mLook x.strands j = mLook i.warp.strands j) ∧
        mLook x.strands i.k = some y ∧ y.pc = pc ∧ y.slot = none ∧ y.members = ab) ∧
      (i.st.members &&& ~~~ab ≠ 0 → (freeEntries s i.core i.warp.sub).contains i.k = false →
        ∃ t x y, exec (.aabort f) s = .next t ∧
        t = { s with warps := t.warps, epoch := t.epoch } ∧ (∀ v, v ≠ i.w → mLook t.warps v = mLook s.warps v) ∧
        mLook t.warps i.w = some x ∧
        x = { i.warp with regions := x.regions, strands := x.strands, heldStrands := x.heldStrands,
                          nextAge := i.warp.nextAge + 1 } ∧
        (∀ l, mLook x.regions l = if hasLane ab l then none else mLook i.warp.regions l) ∧
        mLook x.strands i.k = some y ∧ y.pc = (stepSlots 1 i.st).pc ∧ y.slot = (stepSlots 1 i.st).slot ∧
        y.members = i.st.members &&& ~~~ab ∧
        (freeEntries s i.core i.warp.sub = [] ∨ i.warp.heldStrands ≠ [] ∨
            Config.strandsPerWarp ≤ (mIns i.warp.strands i.k i.st).length →
          x.heldStrands = i.warp.heldStrands ++ [{ abortStrand i.st ab pc i.warp.nextAge with heldAt := s.tick }] ∧
          ∀ j, j ≠ i.k → mLook x.strands j = mLook i.warp.strands j) ∧
        (∀ k, pick (freeEntries s i.core i.warp.sub) (choice s 1) = some k → i.warp.heldStrands = [] →
          (mIns i.warp.strands i.k i.st).length < Config.strandsPerWarp →
          x.heldStrands = [] ∧ mLook x.strands k = some (abortStrand i.st ab pc i.warp.nextAge) ∧
          ∀ j, j ≠ i.k → j ≠ k → mLook x.strands j = mLook i.warp.strands j))))

/-! ## Launches, finish scopes and the tape -/

/-- A `launch` of one lane with room for its record places it: the record's copy stands as a launch under the next id,
held or ready, in its core's queue or the context's ring, its scope has one item more, and the lane's register takes
the id (R331, R332, R342, R369). With no lane left it continues. The model's own choices: log entries 56, 57. -/
def Obligations.LaunchesArePlaced : Prop :=
  (∀ (f : MFields) (s : State) (i : Iss), guardMask i f.gp f.gn = 0 →
    MayRun s i (chkAll true (addrOk i f && vOk i f.d.toNat 1 && vOk i f.e.toNat 1)) (launchUses f) 0 →
    placedRest i = [] → quiet s i.w i.lanes = true → RunsTo s i (exec (.launch f) s) 1 fun x => x = { i.warp with strands := x.strands }) ∧
  (∀ (f : MFields) (s : State) (i : Iss) (l : Nat) (loc : Loc) (e : Option DWord), let g := guardMask i f.gp f.gn
    let va := plainAt i f l
    let bs := bytesOfNat 128 (readLoc s loc 128)
    let sc := laneScope i f l bs
    let id := freshId s
    let inQueue := decide (queueCount s i.core < 4)
    placedRest i = [] → lanesIn (g &&& ~~~(placedBefore i)) = [l] →
    MayRun s i (chkAll true (addrOk i f && vOk i f.d.toNat 1 && vOk i f.e.toNat 1)) (launchUses f) g →
    regionLanes i &&& g = 0 → fateOf s i .glob va 128 true false = .ok loc e →
    (∀ n, sc = some n → scopeOpen i.ctx n = true) → quiet s i.w i.lanes = true → recordHeld s i va 16 = false →
    (recHold bs = true → sc.isSome = true) → launchRoom s i.core i.cid i.ctx = true →
    ∃ t x c, exec (.launch f) s = .next t ∧
      t = { s with warps := t.warps, ctxs := t.ctxs, launches := t.launches, nextLaunch := id + 1, nextId := s.nextId + 1,
                   dir := t.dir, bad := t.bad, epoch := t.epoch } ∧ (∀ k, k ≠ i.cid → mLook t.ctxs k = mLook s.ctxs k) ∧
      mLook t.launches id.toNat = some
        { ctx := i.cid, bytes := bs, scope := sc, stage := if recHold bs then .held else .ready,
          queue := if inQueue then some i.core else none, placed := true, order := s.nextId } ∧
      (∀ k, k ≠ id.toNat → mLook t.launches k = mLook s.launches k) ∧ mLook t.ctxs i.cid = some c ∧
      c = { i.ctx with scopes := c.scopes, high := c.high, spills := i.ctx.spills + (if inQueue then 0 else 1) } ∧
      c.scopes = (match sc with | some n => addScope i.ctx.scopes n | none => i.ctx.scopes) ∧
      mLook t.warps i.w = some x ∧ (∀ v, v ≠ i.w → mLook t.warps v = mLook s.warps v) ∧ Past i 1 x ∧
      x = { i.warp with v := x.v, strands := x.strands } ∧
      ∀ r k, k < 32 → vR x r k = if r = f.d.toNat ∧ k = l then id else vR i.warp r k)

/-- `fopen` opens a free scope, a child of an open one where asked, or writes all ones where none is free; `fclose`
closes an open scope and makes its held launches ready (R330, R332, R370). The tape takes a record first out last in,
a run begins in an open scope and counts in it, and each pop makes the next record a ready launch once the one before
has ended (R356, R357, R371). The model's own choices: log entry 57. -/
def Obligations.ScopesAndTapeComplete : Prop :=
  (∀ (f : CFields) (s : State) (i : Iss), let child := f.c == 1
    let p := (sR i.warp f.b.toNat).toNat
    let m := if child then addScope i.ctx.scopes p else i.ctx.scopes
    let id := pick ((List.range 256).filter fun n => (mLook i.ctx.scopes n).isNone) (choice s 1)
    MayRun s i (chkAll true (sOk i f.a.toNat 1 && (!child || sOk i f.b.toNat 1)))
      { sr := if child then [f.b.toNat] else [], sw := [f.a.toNat], shadow := true } 0 → guardScalar i f.gp f.gn = true →
    (child = true → scopeOpen i.ctx p = true) →
    ∃ t x c, exec (.fopen f) s = .next t ∧ ContextFrame s t i x c ∧ Past i 1 x ∧
      x = { i.warp with s := x.s, strands := x.strands } ∧
      (∀ q, sR x q = if q = f.a.toNat then BitVec.ofNat 32 (id.getD 0xFFFFFFFF) else sR i.warp q) ∧
      c = match id with
        | some n => withScopes i.ctx (mIns m n { parent := if child then some p else none })
        | none => i.ctx) ∧
  (∀ (f : CFields) (s : State) (i : Iss) (x0 : Scope), let n := (sR i.warp f.a.toNat).toNat
    MayRun s i (chkAll true (sOk i f.a.toNat 1)) { sr := [f.a.toNat] } 0 → guardScalar i f.gp f.gn = true →
    mLook i.ctx.scopes n = some x0 → x0.opened = true → s.Canonical →
    ∃ t x, exec (.fclose f) s = .next t ∧
      t = { s with warps := t.warps, ctxs := t.ctxs, launches := t.launches, nextId := t.nextId, epoch := t.epoch } ∧
      mLook t.warps i.w = some x ∧ x = { i.warp with strands := x.strands } ∧ Past i 1 x ∧
      mLook t.ctxs i.cid = some (withScopes i.ctx (settleScope 257 (mIns i.ctx.scopes n { x0 with opened := false }) n)) ∧
      ∀ k y, mLook s.launches k = some y → ∃ z, mLook t.launches k = some z ∧ z = { y with stage := z.stage, order := z.order } ∧
        z.stage = if y.ctx = i.cid ∧ y.stage = .held ∧ y.scope = some n then .ready else y.stage) ∧
  (∀ (f : CFields) (s : State) (i : Iss) (bs : List Byte),
    MayRun s i (chkAll true (sPair i f.a)) { sr := regs f.a.toNat true, mem := true, shadow := true } 0 →
    guardScalar i f.gp f.gn = true →
    (∀ a, withRecord s i (sVal i.warp true f.a.toNat) 16 128 a =
      andThen (shareRecord s i (sVal i.warp true f.a.toNat) 16) (a bs)) →
    i.ctx.tape.length < 65536 →
    ∃ t x, exec (.tapePush f) s = .next t ∧ OnlyDir s (after (shareRecord s i (sVal i.warp true f.a.toNat) 16) s) ∧
      ContextFrame (after (shareRecord s i (sVal i.warp true f.a.toNat) 16) s) t i x
        { i.ctx with tape := bs :: i.ctx.tape } ∧ Past i 1 x ∧
      x = { i.warp with strands := x.strands }) ∧
  (∀ (f : CFields) (s : State) (i : Iss), let n := (sR i.warp f.a.toNat).toNat
    MayRun s i (chkAll true (sOk i f.a.toNat 1)) { sr := [f.a.toNat] } 0 → guardScalar i f.gp f.gn = true →
    scopeOpen i.ctx n = true → i.ctx.tapeRun = none →
    ∃ t x, exec (.tapeRun f) s = .next t ∧ ContextFrame s t i x
      { i.ctx with tapeRun := some (n, none), scopes := addScope i.ctx.scopes n } ∧ Past i 1 x ∧
      x = { i.warp with strands := x.strands }) ∧
  (∀ (s : State) (cid n : Nat) (c : Context) (cur : Option Nat), mLook s.ctxs cid = some c → c.tapeRun = some (n, cur) →
    (∀ id, cur = some id → mLook s.launches id = none) →
    (c.tape = [] → exec (.tapePop cid) s = .next { s with
      ctxs := mIns s.ctxs cid { c with tapeRun := none, scopes := dropScope c.scopes n }, epoch := s.epoch + 1 }) ∧
    (∀ bs rest, c.tape = bs :: rest → ∃ t, exec (.tapePop cid) s = .next t ∧
      t = { s with ctxs := t.ctxs, launches := t.launches, nextLaunch := freshId s + 1, nextId := s.nextId + 1,
                   epoch := s.epoch + 1 } ∧
      mLook t.ctxs cid = some
        { c with tapeRun := some (n, some (freshId s).toNat), tape := rest, scopes := addScope c.scopes n } ∧
      mLook t.launches (freshId s).toNat = some
        { ctx := cid, bytes := bs, scope := some n, stage := .ready, tape := true, order := s.nextId }))

/-- `await` and `fwait` with their checks passed wait for their condition as R353 says, at issue and whenever they are
tried again; `fwait` marks its scope, and frees it when it goes on (R333, R352, R353, R372). A continuation record
whose condition holds resumes on a sub-core of its block with room: its warp holds what the record saved and 0
elsewhere, its stochastic states seeded anew, and its strand stands in a free entry (R142, R354). The model's own
choices: log entries 58, 59, 68. -/
def Obligations.AwaitsComplete : Prop :=
  (∀ (f : CFields) (s : State) (i : Iss) (r : List Byte) (a : AwaitForm), s.Canonical → a ∈ awaitForms f s i r →
     (MayRun s i (chkAll true (a.opnd && savedOk i a.vb a.n))
         { sr := a.reads, mem := true, shadow := true, act := guardScalar i f.gp f.gn } 0 →
       (∀ k tags stay, i.st.wait ≠ .cond k tags stay) →
       (guardScalar i f.gp f.gn = true → regionLanes i &&& i.lanes = 0 → a.go →
         OnlyDir s (after a.shares s) ∧ AwaitGoes (after a.shares s) i (exec a.ins s) a.cond (if singleStrand i.warp then registerTags s i.w else 0) (!singleStrand i.warp)
           a.vb a.n (waitedCtx i a.cond)) ∧
       (guardScalar i f.gp f.gn = false → RunsTo s i (exec a.ins s) 1 fun x => x = { i.warp with strands := x.strands })) ∧
     (issuer s = some i → ∀ k tags stay, i.st.wait = .cond k tags stay →
       AwaitGoes s i (exec a.ins s) k tags stay a.vb a.n i.ctx)) ∧
  (∀ (s : State) (w core sub n k : Nat) (x : Warp) (b : Block) (l : Launch) (c : Context) (r : List Byte),
     recordNow s c x = some r → mLook s.warps w = some x → mLook s.blocks x.block = some b → mLook s.launches b.launch = some l →
     mLook s.ctxs b.ctx = some c →
     x.place = .record → recordReady s x = true → b.place = .resident → b.cores.contains core = true →
     sub = servingSub s core x.num →
     (∀ e ∈ s.warps, e.2.block = x.block → e.2.age < x.age → recordReady s e.2 = false) →
     resumeSlot s x core sub = some n →
     pick (freeEntries s core sub) (choice s 1) = some k →
     ∃ t, exec (.contRecordResume w core sub) s = .next t ∧ t = { s with warps := t.warps, ctxs := t.ctxs, epoch := t.epoch } ∧
       (∀ v, v ≠ w → mLook t.warps v = mLook s.warps v) ∧
       (∀ j, j ≠ b.ctx → mLook t.ctxs j = mLook s.ctxs j) ∧
       mLook t.ctxs b.ctx = some (match x.cond with | some y => leftCtx c y | none => c) ∧
       mLook t.warps w = some { reseed l b.b (fromRecord r x) with
         place := .resident, core := core, sub := sub, slotNo := n, cond := none, condTags := 0, record := [], recordAt := 0,
         kept := none, strands := [(k, recordStrand r x)], readySince := none })

/-- `rgrow` and `rshrink` of a single-strand warp change its allocation when its sub-core has the registers: the
registers that stay keep their values, new ones are 0, and those that go take the tags and error marks on them along;
a warp that must wait says how far it grows (R52, R378). When every resident warp of a sub-core waits to grow, the
youngest is saved with nothing in flight, and it comes back when there is room (R53). The model's own choices: log
entry 61. -/
def Obligations.RegisterGrowthCompletes : Prop :=
  (∀ (f : CFields) (s : State) (i : Iss), let n := growN f
    MayRun s i (chkAll true (growOk f)) {} 0 →
    (guardScalar i f.gp f.gn = true → singleStrand i.warp = true →
      (n ≤ i.warp.alloc → RunsTo s i (exec (.rgrow f) s) 1 fun x => x = { i.warp with growTo := 0, strands := x.strands }) ∧
      (i.warp.alloc < n → mayGrow s i.w i.warp n = true →
        RunsTo s i (exec (.rgrow f) s) 1 fun x =>
          x = { cutRegs i.warp.alloc i.warp with alloc := n, growTo := 0, strands := x.strands } ∧
          (mSorted i.warp.v = true → ∀ r l, l < 32 → vR x r l = if i.warp.alloc ≤ r then 0 else vR i.warp r l)) ∧
      (i.warp.alloc < n → mayGrow s i.w i.warp n = false →
        ∃ t x, exec (.rgrow f) s = .next t ∧ t = { s with warps := t.warps } ∧ mLook t.warps i.w = some x ∧
          (∀ v, v ≠ i.w → mLook t.warps v = mLook s.warps v) ∧ x = { i.warp with growTo := n, strands := x.strands }) ∧
      ((i.warp.alloc ≤ n ∨ (spanRegs n (i.warp.alloc - n)).all (fun r => decide (pendingV s i.w r = 0)) = true) →
        mSorted i.warp.v = true →
        RunsTo s i (exec (.rshrink f) s) 1 fun x =>
          x = { (if n < i.warp.alloc then cutRegs n i.warp else i.warp) with
                alloc := min n i.warp.alloc, strands := x.strands } ∧
          ∀ r l, l < 32 → vR x r l = if n ≤ r ∧ n < i.warp.alloc then 0 else vR i.warp r l)) ∧
    (guardScalar i f.gp f.gn = false → ∀ o ∈ [Instr.rgrow f, .rshrink f],
      RunsTo s i (exec o s) 1 fun x => x = { i.warp with strands := x.strands })) ∧
  (∀ (s : State) (core sub w : Nat) (x : Warp) (e : Nat × Strand) (i : Iss), let ws := residents s core sub
    s.Canonical → ws ≠ [] → (∀ y ∈ ws, growing y.2 = true ∧ mayGrow s y.1 y.2 y.2.growTo = false) → youngest ws = some (w, x) →
    mLook s.warps w = some x → drained s x w = true → x.strands.head? = some e → strandAt s w e.1 = some i →
    areaWritable s i.ctx i.ctx.save.toNat 4 = true →
    ∃ t, exec (.rgrowDeadlockSave core sub) s = .next t ∧
      t = { s with warps := t.warps, cores := t.cores, epoch := s.epoch + 1 } ∧
      mLook t.warps w = some { x with place := .regSaved, active := false } ∧
      (∀ v y, v ≠ w → mLook s.warps v = some y → y.heldStrands = [] → mLook t.warps v = some y) ∧
      (∀ c, c ≠ core → coreOf t c = coreOf s c) ∧
      (coreOf t core).asleep = (coreOf s core).asleep.filter fun k => decide (k ≠ sub)) ∧
  (∀ (s : State) (w n : Nat) (x y : Warp), mLook s.warps w = some x → x.place = .regSaved → blockHere s x.block = true →
    max x.alloc x.growTo ≤ openRegs s x.core x.sub → olderServed s x = false →
    (freeSlots s x.core x.sub ++ openSlots s x.core x.sub).head? = some n →
    reseat x (freeEntries s x.core x.sub) = some y →
    exec (.savedWarpRestore w) s = .next { s with
      warps := mIns s.warps w { y with place := .resident, slotNo := n, readySince := none }, epoch := s.epoch + 1 })

/-! ## Hardware queues and refill -/

/-- `qput` pushes the entries of its guarded lanes, lowest first, when there is room and no push waits, and otherwise
says so in its predicate or waits; `qget` pops one entry for each of its lanes when there are enough and no pop waits
(R358 to R360, R374, R375). With no lane they continue. A request that waits is served the same way. The model's own
choices: log entry 60. -/
def Obligations.QueueInstructionsComplete : Prop :=
  ∀ (f : MFields) (s : State) (i : Iss) (x : Queue), let g := guardMask i f.gp f.gn
    let q := queueKey i (queueNo i f)
    let n := laneCount g
    let nb := queueNb f
    let es := (lanesIn g).map (laneEntry i f.d.toNat)
    let preds (b : Bool) (y : Warp) : Prop := if nb then PredWrite i g (queuePred f) (fun _ => b) y else y.p = i.warp.p
    let pushed (o : Instr) (q : Nat) : Prop := ∃ t y, exec o s = .next t ∧ QueueFrame s t i q y (some (pushed x es)) (spillEntries q (numbered x es)) ∧
      t.nextId = s.nextId ∧ Past i 1 y ∧ y = { i.warp with p := y.p, regions := y.regions, strands := y.strands } ∧ preds true y
    let popped (o : Instr) (z : Option Queue) (q : Nat) (got : List (Nat × List Word)) : Prop :=
      ∃ t y, exec o s = .next t ∧ QueueFrame s t i q y z skip ∧ t.nextId = s.nextId ∧ Past i 1 y ∧
        y = { i.warp with v := y.v, p := y.p, regions := y.regions, strands := y.strands } ∧
        (if nb then PredWrite i g (queuePred f) (fun l => decide (l ∈ (lanesIn g).take got.length)) y else y.p = i.warp.p) ∧
        TakesEntries i.warp y f.d.toNat (lanesIn g) got
    (MayRun s i (chkAll true (queueOpnd i f)) { queueUses f with vr := spanRegs f.d.toNat 4 } g →
      (∀ p a, i.st.wait ≠ .putting p a) →
      (g = 0 → RunsTo s i (exec (.qput f) s) 1 fun y => y = { i.warp with strands := y.strands }) ∧
      (g ≠ 0 → regionLanes i &&& g = 0 → ownQueue s i (queueNo i f) = some x → quiet s i.w g = true →
        (putters s q = [] → queueRoom s i.ctx x n = true → getters s q = [] → pushed (.qput f) q) ∧
        (putters s q ≠ [] ∨ queueRoom s i.ctx x n = false →
          (nb = true → RunsTo s i (exec (.qput f) s) 1 fun y =>
            y = { i.warp with p := y.p, regions := y.regions, strands := y.strands } ∧ PredWrite i g (queuePred f) (fun _ => false) y) ∧
          (nb = false → ∃ t y, exec (.qput f) s = .next t ∧ QueueFrame s t i q y (some x) skip ∧ t.nextId = s.nextId + 1 ∧
            y = { i.warp with strands := y.strands } ∧
            mLook y.strands i.k = some { i.st with idleAt := s.epoch, wait := .putting q s.nextId })))) ∧
    (MayRun s i (chkAll true (queueOpnd i f)) { queueUses f with vw := spanRegs f.d.toNat 4 } g →
      (∀ p a m o l, i.st.wait ≠ .getting p a m o l) →
      (g = 0 → RunsTo s i (exec (.qget f) s) 1 fun y => y = { i.warp with strands := y.strands }) ∧
      (g ≠ 0 → regionLanes i &&& g = 0 → ownQueue s i (queueNo i f) = some x → getters s q = [] →
        (nb = true ∨ n ≤ x.entries.length →
          popped (.qget f) (some (dropEntries s (min n x.entries.length) x)) q (x.entries.take n)) ∧
        (nb = false → x.entries.length < n → ∃ t y, exec (.qget f) s = .next t ∧
          QueueFrame s t i q y (some { x with entries := [] }) skip ∧ t.nextId = s.nextId + 1 ∧
          y = { i.warp with strands := y.strands } ∧
          ∃ z, mLook y.strands i.k = some z ∧ z.wait = .getting q s.nextId n false x.entries))) ∧
    (strandAt s i.w i.k = some i →
      (∀ p a, instrAt s i = some (.qput f) → i.st.wait = .putting p a → mLook s.queues p = some x → firstPutter s p a = true →
        queueRoom s i.ctx x n = true → getters s p = [] → pushed (.queueBlockedServe i.w i.k) p) ∧
      (∀ p a m once got, instrAt s i = some (.qget f) → i.st.wait = .getting p a m once got →
        Getter.done ⟨i.w, i.k, a, m, once, got⟩ = true →
        popped (.queueBlockedServe i.w i.k) (mLook s.queues p) p got))

/-- `refill` gives each entry to a vacant lane, lowest first: the lane becomes live and a member of the strand, takes
its name, its stochastic state and the entry's four words; with no vacant lane, or no entry and NB, its predicate is
false; else it waits (R35, R36, R361, R377). `qstat` writes the depth, spills and high-water mark of a queue, and
`qstat.launch` those of the context's launch queues, to the four registers of each guarded lane (R334, R376). The
model's own choices: log entry 61. -/
def Obligations.RefillAndStatusComplete : Prop :=
  (∀ (f : CFields) (s : State) (i : Iss) (x : Queue),
     let q := f.disp.toNat % 1024
     let p := queueKey i q
     let free := lanesIn (~~~i.warp.live)
     let joined (o : Instr) (z : Option Queue) (k : Nat) (es : List (Nat × List Word)) : Prop :=
       let m := (free.take es.length).foldl (fun m l => m ||| laneBit l) (0 : Mask)
       ∃ t y, exec o s = .next t ∧ QueueFrame s t i k y z skip ∧ t.nextId = s.nextId ∧
         y = { i.warp with v := y.v, q := y.q, live := i.warp.live ||| m, names := y.names, lanesRand := y.lanesRand,
                           barr := y.barr, strands := y.strands,
                           forks := (joinArms i.warp.forks.length i.st.arm m i.warp).forks } ∧ QWrite i f.c.toNat true y ∧
         (∃ st, mLook y.strands i.k = some st ∧ st.members = i.st.members ||| m ∧ st.pc = (stepSlots 1 i.st).pc ∧
           st.slot = (stepSlots 1 i.st).slot) ∧ TakesEntries i.warp y f.b.toNat free es ∧
         ∀ (j l : Nat) (e : Nat × List Word), free[j]? = some l → es[j]? = some e → mLook y.names l = some (.refilled i.blk.launch q e.1) ∧
           mLook y.lanesRand l = some (srSeed (BitVec.ofNat 64 e.1) (nsSeed i.warp.nstat) 0x6A09E667)
     (MayRun s i (chkAll true (vOk i f.b.toNat 4 && pOk f.c.toNat)) { mem := true, shadow := true } 0 →
       (∀ p a m o l, i.st.wait ≠ .getting p a m o l) →
       (guardScalar i f.gp f.gn = false → RunsTo s i (exec (.refill f) s) 1 fun y => y = { i.warp with strands := y.strands }) ∧
       (guardScalar i f.gp f.gn = true → regionLanes i &&& i.lanes = 0 → q = i.lau.refillQ → ownQueue s i q = some x →
         singleStrand i.warp = true → (∀ r ∈ spanRegs f.b.toNat 4, pendingV s i.w r = 0) →
         (free = [] ∨ (x.entries = [] ∨ getters s p ≠ []) ∧ f.disp.getLsbD 10 = true →
           RunsTo s i (exec (.refill f) s) 1 fun y => y = { i.warp with q := y.q, strands := y.strands } ∧ QWrite i f.c.toNat false y) ∧
         (free ≠ [] → x.entries ≠ [] → getters s p = [] →
           joined (.refill f) (some (dropEntries s free.length x)) p (x.entries.take free.length)) ∧
         (free ≠ [] → x.entries = [] ∨ getters s p ≠ [] → f.disp.getLsbD 10 = false → ∃ t y, exec (.refill f) s = .next t ∧
           t = { s with warps := t.warps, nextId := s.nextId + 1, epoch := t.epoch } ∧ mLook t.warps i.w = some y ∧
           y = { i.warp with strands := y.strands } ∧
           mLook y.strands i.k = some { i.st with idleAt := s.epoch, wait := .getting p s.nextId free.length true [] }))) ∧
     (strandAt s i.w i.k = some i → instrAt s i = some (.refill f) →
       ∀ k a m once got, i.st.wait = .getting k a m once got → Getter.done ⟨i.w, i.k, a, m, once, got⟩ = true →
         joined (.queueBlockedServe i.w i.k) (mLook s.queues k) k got)) ∧
  (∀ (f : MFields) (s : State) (i : Iss) (o : Instr) (ok : Bool) (ws : List Nat), let g := guardMask i f.gp f.gn
     (o = .qstatLaunch f ∧ ok = true ∧ ws =
         [(s.launches.filter fun e => decide (e.2.ctx = i.cid) && occupies e.2).length, i.ctx.spills, i.ctx.high, 0] ∨
       o = .qstat f ∧ ok = decide (f.ofs.toNat < 1024) ∧ (g = 0 ∨ ∃ x, ownQueue s i f.ofs.toNat = some x ∧
         ws = [x.entries.length, x.spills, x.high, 0])) →
     MayRun s i (chkAll true (vOk i f.d.toNat 4 && ok)) (qstatUses f) g →
     RunsTo s i (exec o s) 1 fun x => x = { i.warp with v := x.v, regions := x.regions, strands := x.strands } ∧
       (∀ l < 32, hasLane g l = true → ∀ j < 4, vR x (f.d.toNat + j) l = BitVec.ofNat 32 (ws.getD j 0)) ∧
       ∀ r l, l < 32 → hasLane g l = false ∨ r ∉ spanRegs f.d.toNat 4 → vR x r l = vR i.warp r l)

/-! ## Deadline reductions -/

/-- `dgrp` defines its group or finds it, and registers its block with two clear tags once the root records it;
`dgrp.free` deletes a group between rounds, and in a round asks for it and waits until it is gone (R292, R293, R325).
With a false guard both only continue. The model's own choices: log entries 54, 55. -/
def Obligations.ReductionGroupsComplete : Prop :=
  (∀ (f : KFields) (s : State) (i : Iss) (n : Nat) (r : RedGroup) (d : Option RedGroup),
    let rt := f.tag.toNat
    let ct := f.aux.toNat % 64
    let g := d.getD (withEarly s i.ctx n r)
    let shares := shareRecord s i (sVal i.warp true f.a.toNat) 8
    let u := after shares s
    (∀ a b c, i.st.wait ≠ .registering a b c) → (∀ a, i.st.wait ≠ .releasing a) →
    MayRun s i (chkAll true (sPair i f.a)) ((redUses f).on (guardScalar i f.gp f.gn)) 0 →
    (guardScalar i f.gp f.gn = false → ∀ o ∈ [Instr.dgrp f, .dgrpFree f],
      RunsTo s i (exec o s) 1 fun x => x = { i.warp with strands := x.strands }) ∧
    (guardScalar i f.gp f.gn = true → (∀ a, withGroup s i f false a = andThen shares (a n r d)) → OnlyDir s u ∧
      (rt < i.lau.tags → ct < i.lau.tags → rt ≠ ct → areaBad i r.result (areaBytes r) = false →
        areaBad i r.corr (areaBytes r) = false →
        ((∃ p ∈ g.parts, p.1 = i.warp.block) → RunsTo u i (exec (.dgrp f) s) 1 fun x => x = { i.warp with strands := x.strands }) ∧
        ((∀ p ∈ g.parts, p.1 ≠ i.warp.block) → ∃ t x, exec (.dgrp f) s = .next t ∧
          t = { u with warps := t.warps, blocks := t.blocks, ctxs := t.ctxs, epoch := t.epoch } ∧
          mLook t.ctxs i.cid = some { i.ctx with groups := mIns i.ctx.groups n g, early := mDel i.ctx.early n } ∧
          (∀ c, c ≠ i.cid → mLook t.ctxs c = mLook s.ctxs c) ∧
          mLook t.blocks i.warp.block = some
            { i.blk with cdone := i.blk.cdone &&& ~~~((1 : DWord) <<< rt) &&& ~~~((1 : DWord) <<< ct) } ∧
          (∀ b, b ≠ i.warp.block → mLook t.blocks b = mLook s.blocks b) ∧
          mLook t.warps i.w = some x ∧ (∀ v, v ≠ i.w → mLook t.warps v = mLook s.warps v) ∧
          x = { i.warp with strands := x.strands } ∧
          mLook x.strands i.k = some { i.st with idleAt := s.epoch, wait := .registering n rt ct })) ∧
      (d = none → RunsTo u i (exec (.dgrpFree f) s) 1 fun x => x = { i.warp with strands := x.strands }) ∧
      (∀ y, d = some y →
        (y.began = false → ∃ t x, exec (.dgrpFree f) s = .next t ∧ ContextFrame u t i x
          { i.ctx with groups := mDel i.ctx.groups n } ∧ Past i 1 x ∧ x = { i.warp with strands := x.strands }) ∧
        (y.began = true → ∃ t x, exec (.dgrpFree f) s = .next t ∧ ContextFrame u t i x
          { i.ctx with groups := mIns i.ctx.groups n { y with freeing := true } } ∧ x = { i.warp with strands := x.strands } ∧
          mLook x.strands i.k = some { i.st with idleAt := s.epoch, wait := .releasing n })))) ∧
  (∀ (f : KFields) (s : State) (i : Iss) (n : Nat), issuer s = some i → i.st.wait = .releasing n →
    ((mLook i.ctx.groups n).any (·.freeing) = false →
      RunsTo s i (exec (.dgrpFree f) s) 1 fun x => x = { i.warp with strands := x.strands }) ∧
    ((mLook i.ctx.groups n).any (·.freeing) = true → ∃ t x, exec (.dgrpFree f) s = .next t ∧ t = { s with warps := t.warps } ∧
      mLook t.warps i.w = some x ∧ (∀ v, v ≠ i.w → mLook t.warps v = mLook s.warps v) ∧
      x = { i.warp with strands := x.strands } ∧ mLook x.strands i.k = some { i.st with idleAt := s.epoch })) ∧
  (∀ (s : State) (i : Iss) (n rt ct : Nat) (g : RedGroup), strandAt s i.w i.k = some i →
    i.st.wait = .registering n rt ct → mLook i.ctx.groups n = some g → (∀ p ∈ g.parts, p.1 ≠ i.warp.block) →
    g.lastResult = none → g.lastCorr = none →
    ∃ t x, exec (.dgrpRegistrationRecorded i.w i.k) s = .next t ∧ ContextFrame s t i x
      { i.ctx with groups := mIns i.ctx.groups n { g with parts := g.parts ++ [(i.warp.block, rt, ct)] } } ∧ Past i 1 x ∧
      x = { i.warp with strands := x.strands })

/-- `dred` takes its payload from scratch once the writes before it are committed, and waits for its die's router,
which accepts the contribution and lets the strand go on; it arrives at the root, whose round it joins. What a round
ends, by its last contribution or by its deadline, goes to each participant's area word by word, and then its tag is
set (R212, R309 to R314, R326). `dfix` stores the area merged from two to a third (R315, R327). With a false guard
both only continue. The model's own choices: log entries 53, 54, 55. -/
def Obligations.ReductionsComplete : Prop :=
  (∀ (f : KFields) (s : State) (i : Iss) (n : Nat) (r : RedGroup) (d : Option RedGroup),
    let ofs := (sR i.warp f.b.toNat).toNat
    let two := (sR i.warp f.c.toNat).toNat
    let three := (sR i.warp (f.c.toNat + 1)).toNat
    let shares := shareRecord s i (sVal i.warp true f.a.toNat) 8
    let u := after shares s
    (∀ a b c e, i.st.wait ≠ .contributing a b c e) → (∀ a b c e k, i.st.wait ≠ .promised a b c e k) →
    MayRun s i (chkAll true (sPair i f.a && sOk i f.b.toNat 1 && sOk i f.c.toNat 1 && sOk i (f.c.toNat + 1) 1))
      { redUses f with sr := regs f.a.toNat true ++ [f.b.toNat, f.c.toNat, f.c.toNat + 1], act := guardScalar i f.gp f.gn } 0 →
    (guardScalar i f.gp f.gn = false → ∀ o ∈ [Instr.dred f, .dfix f],
      RunsTo s i (exec o s) 1 fun x => x = { i.warp with strands := x.strands }) ∧
    (guardScalar i f.gp f.gn = true → regionLanes i &&& i.lanes = 0 →
      (∀ a, withGroup s i f true a = andThen shares (a n r d)) → OnlyDir s u ∧
      (two < r.count → three < 2 ^ 24 → areaBad i ofs (4 * r.words) = false →
        (quiet s i.w (~~~0) = true → (∀ b c e, scratchFate s i ofs (4 * r.words) false ≠ .stop b c e) →
          WaitsAs s u (exec (.dred f) s) i (.contributing n two three (payloadAt s i ofs r.words))) ∧
        (quiet s i.w (~~~0) = false → WaitsAs s u (exec (.dred f) s) i (.promised n two three ofs r.words))) ∧
      (let len := areaBytes r
        let a := readArea s i.warp.block r ofs
        let b := readArea s i.warp.block r two
        let ws := areaWords r (mergeAreas r a b)
        (∀ o ∈ [ofs, two, three], areaBad i o len = false) → readHeld s i (.scr i.warp.block ofs) len = false →
        readHeld s i (.scr i.warp.block two) len = false → (∀ x c e, scratchFate s i ofs len false ≠ .stop x c e) →
        (∀ x c e, scratchFate s i two len false ≠ .stop x c e) → (∀ x c e, scratchFate s i three len true ≠ .stop x c e) →
        a.cover &&& b.cover = 0 → i.warp.st ≠ 63 →
        ∃ t x o, exec (.dfix f) s = .next t ∧
          t = { u with warps := t.warps, ops := t.ops, nextId := s.nextId + 1, epoch := t.epoch } ∧
          mLook t.warps i.w = some x ∧ (∀ v, v ≠ i.w → mLook t.warps v = mLook s.warps v) ∧
          x = { i.warp with st := i.warp.st + 1, strands := x.strands } ∧ Past i 1 x ∧
          (∀ k, k ≠ s.nextId → mLook t.ops k = mLook s.ops k) ∧
          mLook t.ops s.nextId = some o ∧ o.kind = .store ∧ o.units = (List.range ws.length).map fun j =>
            ⟨lowLane i.lanes, .scr i.warp.block (three + 4 * j), 4, 0, (ws.getD j 0).toNat, 0, false⟩))) ∧
  (∀ (f : KFields) (s : State) (i : Iss) (n idx dl ofs k : Nat), issuer s = some i → i.st.wait = .promised n idx dl ofs k →
    (mLook i.ctx.groups n).isSome = true → quiet s i.w (~~~0) = true →
    (∀ b c e, scratchFate s i ofs (4 * k) false ≠ .stop b c e) →
    WaitsAs s s (exec (.dred f) s) i (.contributing n idx dl (payloadAt s i ofs k))) ∧
  (∀ (s : State) (i : Iss) (n idx dl : Nat) (ws : List Word) (g : RedGroup), strandAt s i.w i.k = some i →
    i.st.wait = .contributing n idx dl ws → mLook i.ctx.groups n = some g → (∀ c ∈ g.waiting, c.index ≠ idx) →
    ∃ t x, exec (.dredRouterAccept i.w i.k) s = .next t ∧ ContextFrame s t i x
      { i.ctx with groups := mIns i.ctx.groups n { g with flight := g.flight ++ [⟨idx, dl, ws⟩],
                                                          began := g.began || !rootHere s g } } ∧ Past i 1 x ∧
      x = { i.warp with strands := x.strands }) ∧
  (∀ (s : State) (cid n idx : Nat) (k : Context) (g : RedGroup), mLook s.ctxs cid = some k → mLook k.groups n = some g →
    let now := dieClock s g.rootDie
    (∀ c, g.flight.find? (fun c => decide (c.index = idx)) = some c → rootHere s g = true → (∀ x ∈ g.waiting, x.index ≠ idx) →
      ∃ t, exec (.dredArrive cid n idx) s = .next t ∧
        RoundPut s t cid n k (arriveRound now c { g with flight := g.flight.erase c })) ∧
    (overdue now g = true → ∃ t, exec (.deadlineExpire cid n) s = .next t ∧ RoundPut s t cid n k (expireRound now g)) ∧
    (∀ blk d, g.sending.find? (fun d => decide (d.blk = blk)) = some d →
      (∀ j w, d.left[j]? = some w → gone s blk = false → ∃ t, takeInput (.areaWord cid n blk j) s = .next t ∧
        RoundPut (after (writeLoc (.scr blk w.1) 4 w.2.toNat) s) t cid n k
          { g with sending := g.sending.map fun y => if y = d then { d with left := d.left.erase w } else y }) ∧
      (d.left = [] → gone s blk = false → ∃ t, takeInput (.areaDone cid n blk) s = .next t ∧
        RoundPut (after (setTag blk d.tag true) s) t cid n k (finishRound now { g with sending := g.sending.erase d })) ∧
      (gone s blk = true → ∃ t, takeInput (.areaDone cid n blk) s = .next t ∧
        RoundPut s t cid n k (finishRound now { g with sending := g.sending.erase d }))))

/-! ## The device's own events -/

/-- The directory keeps sharers by block of 32 words: recording a sharer adds to its mask and, in a full set, frees
one other block; an eviction of a core's words clears them from its mask, that of a directory entry clears every
sharer's, and a snoop of a line of host memory clears the words of that line (R182, R184, R414). A host read of device
memory is answered with its 64 bytes and recorded in the directory unless the page is uncached-shared or sealed; a
host or peer write is one event at the home; an access that may not be made changes nothing but its answer, which
names SEAL or DATAERR where the peer's instruction traps (R193, R400, R415, R422). The model's own choices: log
entries 70, 71, 79. -/
def Obligations.OutsideAccessesComplete : Prop :=
  ∀ (s : State), s.Canonical →
    let masks (o : Instr) (f : Nat → Mask → Mask) : Prop := ∃ t, exec o s = .next t ∧ t = { s with dir := t.dir } ∧
      ∀ k, mGet 0 t.dir k = f k (mGet 0 s.dir k)
    let hostSays (r : Option (List Byte)) : Mgmt := { s.mgmt with hostReply := r }
    let peerSays (r : PeerReply) : Mgmt := { s.mgmt with peerReply := r }
    let stores (o : Instr) (pa : Nat) (bs : List Byte) (m : Mgmt) : Prop := ∃ l, (∀ y ∈ l, y ∈ s.bad) ∧
      exec o s = .next { s with mem := putList s.mem pa bs, bad := l, mgmt := m, epoch := s.epoch + 1 }
    (∀ line agent m, agent < 1024 → let t := after (recordShare line agent m) s
      OnlyDir s t ∧ mGet 0 t.dir (line * 1024 + agent) = mGet 0 s.dir (line * 1024 + agent) ||| m ∧
      ∀ k, k ≠ line * 1024 + agent → mGet 0 t.dir k = mGet 0 s.dir k ∨
        (mGet 0 t.dir k = 0 ∧ k / 1024 ≠ line ∧ Config.dirSet (k / 1024) = Config.dirSet line ∧ Config.dirWays ≤ s.dir.length)) ∧
    (∀ core line words, core < Config.cores → masks (.l1EvictDrop core line words) fun k m =>
      if k = line * 1024 + core then m &&& ~~~words else m) ∧
    (∀ line, masks (.dirEntryEvict line) fun k m => if k / 1024 = line then 0 else m) ∧
    (∀ line, line * 64 / 2 ^ 64 = 5 → cxlUp s = true → masks (.hostSnoop line) fun k m =>
      if k / 1024 = line / 2 then m &&& ~~~(lineMask line) else m) ∧
    (∀ pa, deviceRange pa 1 = true → cxlUp s = true →
      (secureKey s pa || locBad s (.glob (64 * (pa / 64))) 64) = false →
        exec (.hostMemRead pa) s = .next { s with
          dir := if ucsKey s pa || sealedKey s pa then s.dir else
            (after (recordShare (pa / 64 / 2) 1000 (lineMask (pa / 64))) s).dir,
          mgmt := hostSays (some (listAt s.mem (64 * (pa / 64)) 64)) }) ∧
    (∀ pa, deviceRange pa 1 = true → cxlUp s = true → (secureKey s pa || locBad s (.glob (64 * (pa / 64))) 64) = true →
      exec (.hostMemRead pa) s = .next { s with mgmt := hostSays none }) ∧
    (∀ pa bs, deviceRange pa bs.length = true → cxlUp s = true → pa % 64 + bs.length ≤ 64 →
      let barred := secureKey s pa || (List.range bs.length).any fun j => sealedKey s (pa + j)
      (barred = false → stores (.hostMemWrite pa bs) pa bs (hostSays (some []))) ∧
      (barred = true → exec (.hostMemWrite pa bs) s = .next { s with mgmt := hostSays none })) ∧
    (∀ dev pa n, buryxUp s = true → deviceRange pa n = true → n ≠ 0 → pa % n = 0 → locBad s (.glob pa) n = false →
      exec (.buryxPeerAccess dev (.load pa n)) s =
        .next { s with mgmt := peerSays (.data (listAt s.mem pa n)), epoch := s.epoch + 1 }) ∧
    (∀ dev pa bs, buryxUp s = true → deviceRange pa bs.length = true → bs ≠ [] → pa % bs.length = 0 →
      (∀ j < bs.length, sealedKey s (pa + j) = false) → stores (.buryxPeerAccess dev (.store pa bs)) pa bs (peerSays (.data []))) ∧
    (∀ dev pa (sop : BitVec 5) (wide : Bool) e e2, let n := if wide then 8 else 4
      let new := atomNew sop.toNat n (bytesAt s.mem pa n) (e.toNat % 2 ^ (8 * n)) (e2.toNat % 2 ^ (8 * n))
      let said := peerSays (.data (bytesOfNat n (bytesAt s.mem pa n)))
      sop.toNat < 16 → buryxUp s = true → deviceRange pa n = true → pa % n = 0 → locBad s (.glob pa) n = false →
      (∀ j < n, sealedKey s (pa + j) = false) →
      (∀ v, new = some v → stores (.buryxPeerAccess dev (.atom pa sop wide e e2)) pa (bytesOfNat n v) said) ∧
      (new = none → exec (.buryxPeerAccess dev (.atom pa sop wide e e2)) s = .next { s with mgmt := said, epoch := s.epoch + 1 })) ∧
    (∀ dev x, let pa := (peerSpan x).1
      let n := (peerSpan x).2.1
      let good := (peerSpan x).2.2 && buryxUp s && decide (n ≠ 0) && decide (pa % n = 0) && deviceRange pa n
      let shut := peerWrites x && (List.range n).any fun j => sealedKey s (pa + j)
      let answers (r : PeerReply) : Prop := exec (.buryxPeerAccess dev x) s = .next { s with mgmt := peerSays r }
      (good = false → answers .refused) ∧ (good = true → shut = true → answers (.trap .sealed)) ∧
      (good = true → shut = false → peerReads x = true → locBad s (.glob pa) n = true → answers (.trap .dataerr)))

/-- A link that goes down takes one route of its peer, or with none left the peer itself (R399). A fault's record is
committed to its slot of the ring before FPI moves on; an index that does not lie between FCI and FPI is ignored; an
answer to a reported fault reaches every waiter of its page: a strand held there, a parked part and an engine
operation go on, or end in XLATE (R394, R416). A word of a peer that is polled is read anew (R226, R353). The model's
own choices: log entries 70, 71. -/
def Obligations.LinksAndFaultsComplete : Prop :=
  ∀ (s : State),
    (∀ dev r, s.mgmt.routes.find? (fun r => decide (r.1 = dev)) = some r →
      exec (.buryxLinkDown dev true) s = .next { s with mgmt := { s.mgmt with routes := s.mgmt.routes.erase r } }) ∧
    (∀ dev, (∀ e ∈ s.ops, ∀ u ∈ e.2.units, u.done = true ∨ ∀ k, u.loc = .glob k → k / 2 ^ 64 ≠ 6 + dev) →
      exec (.buryxLinkDown dev false) s = .next { s with
        mgmt := { s.mgmt with routes := s.mgmt.routes.filter fun r => decide (r.1 ≠ dev),
                              linksDown := if s.mgmt.linksDown.contains dev then s.mgmt.linksDown else dev :: s.mgmt.linksDown },
        epoch := s.epoch + 1 }) ∧
    (∀ dev, ∀ e ∈ s.ops, ∀ u ∈ e.2.units, ∀ k, u.done = false → u.loc = .glob k → k / 2 ^ 64 = 6 + dev →
      exec (.buryxLinkDown dev false) s = .next s) ∧
    (∀ w k i, strandAt s w k = some i →
      (∀ m, i.st.wait = .met m → exec (.peerWordPoll w k) s = exec (.waitmMet w k) s) ∧
      (∀ va n rel val tags stay, i.st.wait = .cond (.mem va n rel val) tags stay → ∃ t x, exec (.peerWordPoll w k) s = .next t ∧
        t = { s with warps := t.warps, epoch := s.epoch + 1 } ∧ mLook t.warps w = some x ∧
        x = { i.warp with strands := x.strands } ∧ mLook x.strands k = some { i.st with idleAt := 0 })) ∧
    (∀ id f base, mLook s.faults id = some f → s.mgmt.ringBase = some base → nextReport s = some id →
      ringUsed s.mgmt < s.mgmt.ringCount → exec (.pageFaultRecord id) s = .next { s with
        mem := putList s.mem (5 * 2 ^ 64 + base.toNat + 32 * (s.mgmt.fpi.toNat % s.mgmt.ringCount)) (faultBytes id f),
        faults := mIns s.faults id { f with reported := true },
        mgmt := { s.mgmt with fpi := s.mgmt.fpi + 1, msi := mIns s.mgmt.msi 1 (mGet 0 s.mgmt.msi 1 + 1) },
        epoch := s.epoch + 1 }) ∧
    (∀ id, mLook s.faults id = none ∨ s.mgmt.ringBase = none ∨ nextReport s ≠ some id ∨ s.mgmt.ringCount ≤ ringUsed s.mgmt →
      exec (.pageFaultRecord id) s = .next s) ∧
    (∀ v, cxlUp s = true → exec (.fciWrite v) s = .next (if (v - s.mgmt.fci).toNat ≤ (s.mgmt.fpi - s.mgmt.fci).toNat
      then { s with mgmt := { s.mgmt with fci := v }, epoch := s.epoch + 1 } else s)) ∧
    (∀ (fail : Bool) id, (∀ f, mLook s.faults id = some f → f.reported = false) →
      exec (if fail then .faultFail id else .faultRetry id) s = .next s) ∧
    (∀ (fail : Bool) id f, s.Canonical → mLook s.faults id = some f → f.reported = true →
      let answered (y : Strand) : Strand :=
        { y with held := if y.held = some (f.page, false) then (if fail then some (f.page, true) else none) else y.held,
                 shadow := if fail then y.shadow.map fun p =>
                     if p.ctx = f.ctx ∧ p.pages.contains f.page then { p with failed := f.page :: p.failed } else p
                   else y.shadow }
      ∃ t, exec (if fail then .faultFail id else .faultRetry id) s = .next t ∧
        t = { s with warps := t.warps, engs := t.engs, faults := t.faults, epoch := t.epoch } ∧ mLook t.faults id = none ∧
        (∀ k, k ≠ id → mLook t.faults k = mLook s.faults k) ∧
        (∀ w x, mLook s.warps w = some x →
          mLook t.warps w = some (if ctxOfWarp s x = some f.ctx then onEvery answered x else x)) ∧
        (∀ k o, mLook s.engs k = some o → o.asked.contains (f.ctx, f.page) = false → mLook t.engs k = some o) ∧
        ∀ k o, mLook s.engs k = some o → o.asked.contains (f.ctx, f.page) = true → mLook t.engs k = some
          { o with asked := o.asked.erase (f.ctx, f.page),
                   failed := if fail then (f.ctx, f.page) :: o.failed else o.failed })

/-- A management command that its port may run now and whose inputs are good does what it says and answers success;
with inputs that are not it answers Invalid Input, without a semaphore it needs it answers Busy, and a restricted
state gives the answer it prescribes (R417 to R419, R423, R425 to R428). ERR_LOG answers with the log, an SPDM message
with its answer on its side (R421). The model's own choices: log entries 6, 73, 74, 75. -/
def Obligations.CommandsComplete : Prop :=
  ∀ (p : Port) (s : State),
    let h := heard p s
    let reply (r : Reply) : Host.Outcome State Fault Refusal := .next (onMgmt (answered p r) h)
    (∀ ins k sem good f, Command p s ins k sem good f →
      (screen s.mgmt p k = none → (sem = true → s.mgmt.holder = some p) →
        (good = true → exec ins s = .next { onMgmt (answered p (.ok [])) (f h) with epoch := (f h).epoch + 1 }) ∧
        (good = false → exec ins s = reply .invalid)) ∧
      (screen s.mgmt p k = none → sem = true → s.mgmt.holder ≠ some p → exec ins s = reply .busy) ∧
      (screen s.mgmt p k = some .silent → exec ins s = .next h) ∧
      (∀ r, screen s.mgmt p k = some r → r ≠ .silent → exec ins s = reply r)) ∧
    (screen s.mgmt p .errLog = none → exec (.errLog p) s = reply (.log s.mgmt.errLog)) ∧
    (∀ ins k n ws f, SpdmMessage p s ins k n ws f → screen s.mgmt p k = none →
      let u := onMgmt f h
      exec ins s = .next (match p with
        | .i3c => onMgmt (answered p (.ok (Config.spdmBody n s.tick :: ws))) u
        | .mailbox => onMgmt (fun m =>
            { m with doe := m.doe ++ (Config.spdmBody n s.tick :: ws).map fun w => (n, w) }) u))

/-- What the controller does by itself: it moves the power step and logs the move, releases a semaphore whose holder
has been silent for 2^34 cycles, trips, resets and updates as bring-up says, closes a window of error counts, and
retires an idle source with a lasting fault (R401, R418, R420, R426 to R428). The trace unit and the sampler of a core
act on their conditions (R423, R425), and a write to the rest of a window is ignored (R413). The model's own choices:
log entries 76, 77, 82. -/
def Obligations.ControllerEventsComplete : Prop :=
  ∀ (s : State), s.Canonical →
    let mgmt (o : Instr) (f : Mgmt → Mgmt) : Prop := exec o s = .next { s with mgmt := f s.mgmt }
    (∀ o n, (o = .powerStepDownAuto ∧ n = min 4 (s.mgmt.step + 1) ∨ o = .powerStepBack ∧ n = s.mgmt.stepSet ∨
        o = .thermalStep4 ∧ n = 4) → mgmt o fun m => if m.step = n then m
      else { m with step := n, errLog := m.errLog ++ [.powerMove n], msi := mIns m.msi 2 (mGet 0 m.msi 2 + 1) }) ∧
    (s.mgmt.holder.isSome = true → s.mgmt.heardAt + 2 ^ 34 ≤ s.now → mgmt .semTimeout fun m => { m with holder := none }) ∧
    (∀ die temp, ∃ t, exec (.thermalTrip die temp) s = .next t ∧ t.ctxs = [] ∧ t.warps = [] ∧ t.parts = s.parts ∧
      t.mgmt = { s.mgmt with stage := 0xF2, errLog := s.mgmt.errLog ++ [.trip die temp] } ∧
      ∀ k, mGet 0 t.mem k = if k < deviceKeys then 0 else mGet 0 s.mem k) ∧
    (∀ x, ∃ t, exec (.reset x) s = .next t ∧ Booted s t x []) ∧
    (∀ x, s.mgmt.stage = 0xF2 → ∃ t, exec (.thermalReset x) s = .next t ∧ Booted s t x s.mgmt.errLog) ∧
    (∀ x, s.mgmt.stage = 0xF1 → ∃ t u, exec (.firmwareUpdate .i3c x) s = .next u ∧ Booted s t x s.mgmt.errLog ∧
      u = onMgmt (answered .i3c (.ok [])) t) ∧
    (∀ src, let now := sourceClock s src / 2 ^ 32
      (countOf s.mgmt.errWindow src ≠ now → mgmt (.errorCountWindowEnd src) fun m =>
        { m with errCount := m.errCount.filter fun e => decide (e.1 ≠ src)
                 badCount := m.badCount.filter fun e => decide (e.1 ≠ src)
                 errWindow := (src, now) :: m.errWindow.filter fun e => decide (e.1 ≠ src) }) ∧
      (countOf s.mgmt.errWindow src = now → mgmt (.errorCountWindowEnd src) id)) ∧
    (∀ src, s.mgmt.lasting.contains src = true → partnerHolds s src = false → sourceIdle s src = true →
      ∃ t, exec (.resourceRetire src) s = .next t ∧ t = { s with cores := t.cores, mgmt := t.mgmt, epoch := s.epoch + 1 } ∧
        t.mgmt = { s.mgmt with lasting := s.mgmt.lasting.erase src, errLog := s.mgmt.errLog ++ [.retired src],
                               msi := mIns s.mgmt.msi 2 (mGet 0 s.mgmt.msi 2 + 1) } ∧
        (∀ c n, src = .subcore c n → (coreOf t c).retiredSubs = n :: (coreOf s c).retiredSubs ∧
          ((coreOf s c).retiredSubs.contains (n ^^^ 1) = true → (coreOf t c).outOfService = true)) ∧
        ∀ c n, src = .columnStore c n → (coreOf t c).outOfService = true) ∧
    (∀ c start stop y, (coreOf s c).tracer = some y → ∃ t, exec (.traceCondition c start stop) s = .next t ∧
      t = { s with cores := t.cores } ∧
      (coreOf t c).tracer = some { y with on := if stop then false else start || y.on } ∧
      ∀ k, k ≠ c → coreOf t k = coreOf s k) ∧
    (∀ c x p i, (coreOf s c).sampler = some p → p.since + (p.turn + 1) * 2 ^ p.period ≤ cycleOf s c →
      (x.reason = 1 ∨ x.producer = 0) → x.reason ≠ 15 → strandAt s x.w x.st = some i → i.core = c →
      i.warp.sub = p.turn / 2 % Config.subcores → reasonFits i.warp i.st x.reason = true →
      let bs := sampleBytes c i.warp.sub (cycleOf s c) (pcOf i.st) x.producer x.reason (nameBytes (lowName i))
      let q : Sampler := if x.full then { p with turn := p.turn + 1, dropped := p.dropped + 1 }
        else { p with turn := p.turn + 1, samples := p.samples ++ [bs] }
      exec (.stallSample c x) s = .next { s with cores := mIns s.cores c { coreOf s c with sampler := some q } }) ∧
    (∀ bell ofs v, exec (.otherRegisterWrite bell ofs v) s = .next s)

/-- A submission that keeps R341 takes the next id and stands in its context's ring, one that breaks it counts as
refused, and one with HOLD and no scope ends with status 4; the arbiter takes the records of one source in their order
(R341 to R343). A launch that R338 rejects ends with status 4; else its next block is placed: its warps start with the
values of R45, and the launch goes on to its next block (R11, R338, R344). A block with no live lane and nothing in
flight completes, and with its last block the launch ends. Of a launch that ends, the bytes +1 to +15 of its
completion record are written, and byte +0 after them, with which its scope has one item less (R15, R339, R340). The
model's own choices: log entries 14, 56, 63, 64, 65. -/
def Obligations.SchedulerCompletes : Prop :=
  ∀ (s : State), s.Canonical →
    let ended (c : Context) (l : Launch) (st : Nat) : Launch :=
      { l with stage := .finished, status := st, doneKey := if doneOk s c l.bytes then ownKey s c l.doneAt else none }
    let tail (c : Context) (l : Launch) (st penn blocks : Nat) : List Host.Cell :=
      if doneOk s c l.bytes then (after (writeVirt c (l.doneAt + 1) (completionTail st penn blocks 0)) s).mem else s.mem
    (∀ cid c addr, mLook s.ctxs cid = some c → c.terminated = false →
      (∀ bs, let sc := if recAt bs 48 2 = 0xFFFF then none else some (recAt bs 48 2)
        let id := freshId s
        addr.toNat % 128 = 0 → readVirt s c addr.toNat 128 = some bs → doneOk s c bs = true →
        ringCount s cid < c.launchQuota → (∀ n, sc = some n → scopeOpen c n = true) →
        ((recHold bs = true → sc.isSome = true) → ∃ t, exec (.hostSubmit cid addr) s = .next t ∧
          t = { s with ctxs := t.ctxs, launches := t.launches, nextLaunch := id + 1, nextId := s.nextId + 1,
                       epoch := s.epoch + 1 } ∧
          mLook t.launches id.toNat = some
            { ctx := cid, bytes := bs, scope := sc, stage := if recHold bs then .held else .ready, placed := true,
              order := s.nextId } ∧
          (∀ k, k ≠ id.toNat → mLook t.launches k = mLook s.launches k) ∧
          (∀ k, k ≠ cid → mLook t.ctxs k = mLook s.ctxs k) ∧
          mLook t.ctxs cid = some
            { c with lastId := id, scopes := match sc with | some n => addScope c.scopes n | none => c.scopes }) ∧
        (recHold bs = true → sc = none →
          let l : Launch := { ctx := cid, bytes := bs, scope := none, stage := .finished }
          ∃ t, exec (.hostSubmit cid addr) s = .next t ∧
            t = { s with mem := t.mem, bad := t.bad, ctxs := mIns s.ctxs cid { c with lastId := id },
                         launches := mIns s.launches id.toNat (ended c l 4), nextLaunch := id + 1, epoch := s.epoch + 1 } ∧
            t.mem = tail c l 4 0 0)) ∧
      ((addr.toNat % 128 ≠ 0 ∨ readVirt s c addr.toNat 128 = none ∨
          ∃ bs, readVirt s c addr.toNat 128 = some bs ∧ (doneOk s c bs = false ∨ c.launchQuota ≤ ringCount s cid ∨
            (recAt bs 48 2 ≠ 0xFFFF ∧ scopeOpen c (recAt bs 48 2) = false))) →
        exec (.hostSubmit cid addr) s = .next { s with ctxs := mIns s.ctxs cid { c with refused := c.refused + 1 } })) ∧
    (∀ cid c, mLook s.ctxs cid = some c →
      exec (.refusedClear cid 0) s = .next { s with ctxs := mIns s.ctxs cid { c with refused := 0 } }) ∧
    (∀ id l, mLook s.launches id = some l → l.stage = .ready → (s.launches.filter fun e => inList e.2 s).length < 4096 →
      (∀ e ∈ s.launches, e.2.stage = .ready → sameSource e.2 l = true → l.order ≤ e.2.order) →
      exec (.arbiterEnter id) s = .next { s with
        launches := mIns s.launches id { l with stage := .entered, order := s.nextId, queue := none },
        nextId := s.nextId + 1, epoch := s.epoch + 1 }) ∧
    (∀ id l c ps, mLook s.launches id = some l → mLook s.ctxs l.ctx = some c → l.stage = .entered →
      recordOk s c id l = false → (l.nextB < l.blocksN ∨ l.blocksN = 0) → ∃ t, exec (.blockDispatch id ps) s = .next t ∧
        t = { s with mem := t.mem, bad := t.bad, launches := mIns s.launches id (ended c l 4), epoch := s.epoch + 1 } ∧
        t.mem = tail c l 4 0 0) ∧
    (∀ id l c p es, mLook s.launches id = some l → mLook s.ctxs l.ctx = some c → waitsForCores l = true →
      (l.stage = .entered → recordOk s c id l = true) → hasSaved s id = false → rightPlaces s id l [p] = true →
      placeAll id [p] none s = some es →
      ∃ t b, exec (.blockDispatch id [p]) s = .next t ∧ mLook t.blocks (s.nextId + 1) = some b ∧
        b = { launch := id, ctx := l.ctx, b := p.b, cores := p.cores, warps := (List.range l.warpsN).map (s.nextId + 2 + ·),
              group := s.nextId, rect := b.rect } ∧
        mLook t.launches id = some { l with nextB := p.b + 1, stage := .running } ∧ t.mem = s.mem ∧
        ∀ w < l.warpsN, ∃ x, mLook t.warps (s.nextId + 2 + w) = some x ∧ x.block = s.nextId + 1 ∧ x.num = w ∧
          x.alloc = l.vregs ∧ x.live = liveAtDispatch l w ∧ x.nstat = ((BitVec.ofNat 32 l.nstat0 &&& 0x3F00) |||
            (if l.trapnan then 0x1000 else 0)) ∧ sVal x true 0 = l.args % 2 ^ 64 ∧ x.v = [] ∧ x.recAt = p.records.getD w 0 ∧
          let st : Strand := { members := x.live, pc := BitVec.ofNat 64 l.entry }
          (∃ k, x.strands = [(k, st)] ∧ x.heldStrands = []) ∨ (x.strands = [] ∧ x.heldStrands = [st])) ∧
    (∀ id b l c, mLook s.blocks id = some b → mLook s.launches b.launch = some l → mLook s.ctxs l.ctx = some c →
      b.completed = false → b.place = .resident → (∀ w ∈ b.warps, liveOf s w = 0) → (∀ e ∈ s.ops, e.2.blk ≠ id) →
      (∀ e ∈ s.engs, e.2.blk ≠ id) →
      ∃ t q, let k := { l with doneBlocks := l.doneBlocks + 1, penn := l.penn ||| b.bstat, queue := q }
        exec (.blockComplete id) s = .next t ∧ (q = l.queue ∨ q = none) ∧ (∀ w ∈ b.warps, mLook t.warps w = none) ∧
        (∀ y, mLook t.blocks id = some y → y.completed = true) ∧
        (k.doneBlocks ≠ k.blocksN → mLook t.launches b.launch = some k ∧ t.mem = s.mem) ∧
        (k.doneBlocks = k.blocksN → mLook t.launches b.launch = some (ended c k 1) ∧
          t.mem = tail c k 1 k.penn.toNat k.doneBlocks)) ∧
    (∀ id l, mLook s.launches id = some l → l.stage = .finished → ∃ t, takeInput (.finishLaunch id) s = .next t ∧
      t = { s with mem := t.mem, bad := t.bad, ctxs := t.ctxs, launches := mDel s.launches id, epoch := s.epoch + 1 } ∧
      t.mem = (match l.doneKey with | some k => (after (writeLoc (.glob k) 1 l.status) s).mem | none => s.mem) ∧
      (∀ c, mLook s.ctxs l.ctx = some c → mLook t.ctxs l.ctx = some (match l.scope with
        | some n => withScopes c (dropScope c.scopes n) | none => c)) ∧
      ∀ j, j ≠ l.ctx → mLook t.ctxs j = mLook s.ctxs j)

/-- A warp whose strands all wait on long-latency events, or the youngest once a ready one has been pending for 2,048
cycles, leaves the active set for the oldest pending one, and a free place in the set goes to it too (R350, R351);
scrubbing counts what it finds, once in 2^22 cycles (R50); an idle sub-core sleeps, and wakes after its sweep (R51).
The model's own choices: log entries 66, 77, 82. -/
def Obligations.SubcoresComplete : Prop :=
  ∀ (s : State) (core sub : Nat),
    let joins (x : Warp) : Warp := { x with active := true, activeSince := cycleOf s x.core, readySince := none }
    let swapped (o : Instr) (w p : Nat) : Prop := ∃ t, exec o s = .next t ∧
      t = { s with warps := t.warps, cores := t.cores, epoch := s.epoch + 1 } ∧
      (∀ x, mLook s.warps w = some x → w ≠ p → mLook t.warps w = some { leaveActive x with readySince := none }) ∧
      (∀ x, mLook s.warps p = some x → w ≠ p → mLook t.warps p = some (joins x)) ∧
      (∀ v, v ≠ w → v ≠ p → mLook t.warps v = mLook s.warps v) ∧
      ∀ c, coreOf t c = { coreOf s c with tracer := (coreOf t c).tracer }
    (∀ w x p y, mLook s.warps w = some x → x.active = true → x.place = .resident → warpReady s x = false →
      (∀ e ∈ x.strands, longWait s w x e.2 = true) →
      pendingReady s x.core x.sub = some (p, y) → swapped (.warpLeaveActive w) w p) ∧
    (∀ w x p y r, pendingReady s core sub = some (p, y) → youngest (activeSet s core sub) = some (w, x) →
      y.readySince = some r → r + 2048 ≤ cycleOf s core → warpAtRest x = true → swapped (.activeSetForcedLeave core sub) w p) ∧
    (∀ w x y, mLook s.warps w = some x → (activeSet s x.core x.sub).length < Config.activeSet →
      pendingReady s x.core x.sub = some (w, y) →
      takeInput (.activate w) s = .next { s with warps := mIns s.warps w (joins x), epoch := s.epoch + 1 }) ∧
    (exec (.scrubVisit core sub) s = .next (if scrubDue s core sub then
      { s with
        cores := mIns s.cores core { coreOf s core with scrubbed := mIns (coreOf s core).scrubbed sub (cycleOf s core) },
        mgmt := if badRegs s core sub = 0 then s.mgmt else
          let m := inWindow s (.subcore core sub) s.mgmt
          markLasting (.subcore core sub)
            { m with badCount := addCount m.badCount (.subcore core sub) (badRegs s core sub) } } else s)) ∧
    (maySleep s core sub = true → exec (.subcoreSleep core sub) s = .next { s with
      cores := mIns s.cores core { coreOf s core with asleep := sub :: (coreOf s core).asleep } }) ∧
    ((coreOf s core).asleep.contains sub = true → exec (.subcoreWake core sub) s = .next { s with
      cores := mIns s.cores core { coreOf s core with
        asleep := (coreOf s core).asleep.filter fun k => decide (k ≠ sub),
        lastIssue := mIns (coreOf s core).lastIssue sub (cycleOf s core + 256),
        extra := (coreOf s core).extra + 256 }, epoch := s.epoch + 1 })

/-- A pre-empted core's blocks are told to stop, and once all they had in flight has drained they are saved: no warp
of them is resident, and all of a warp but the place of its strands stays as it was (R396, R397). A block saved alone
comes back on cores with room (R398). The barrier that expires first ends its context with status 3 and its diagnostic
record (R380, R381). The model's own choices: log entries 67, 68, 69. -/
def Obligations.PreemptionCompletes : Prop :=
  ∀ (s : State), s.Canonical →
    (∀ core, saveReady s core = false → ∃ t, exec (.preemptSave core) s = .next t ∧
      t = { s with blocks := t.blocks, epoch := s.epoch + 1 } ∧
      ∀ b x, mLook s.blocks b = some x → mLook t.blocks b = some (if (saveSet s core).any (fun e => decide (e.1 = b)) then
        { x with stopping := true, forced := false } else x)) ∧
    (∀ core, saveReady s core = true → (∀ e ∈ saveSet s core, ∀ c, mLook s.ctxs e.2.ctx = some c →
        areaWritable s c c.save.toNat 4 = true) → ∃ t, exec (.preemptSave core) s = .next t ∧ t.mem = s.mem ∧
      (∀ e ∈ saveSet s core, ∃ y, mLook t.blocks e.1 = some y ∧ y.place = .saved ∧ y.scratch = e.2.scratch ∧
        y.acc = e.2.acc ∧ y.savedAt = s.nextId ∧ y.stopping = false) ∧
      (∀ e ∈ saveSet s core, ∀ w ∈ e.2.warps, ∀ x, mLook s.warps w = some x → x.place = .resident →
        mLook t.warps w = some { onEvery (fun y => { y with wait := savedWait y.wait }) (leaveActive x) with
          place := .saved, yielding := none }) ∧
      ∀ w x, mLook s.warps w = some x → ((∀ e ∈ saveSet s core, w ∉ e.2.warps) ∨ x.place ≠ .resident) → x.heldStrands = [] →
        mLook t.warps w = some x) ∧
    (∀ id b l p es, mLook s.blocks id = some b → launchOf s b = some l → b.place = .saved → savedWith s b = [(id, b)] →
      imageReadable s b = true → clusterFree s b.launch l (clusterBase (p.cores.headD 0) l.cluster) = true →
      (∀ c ∈ p.cores, mayReturn s b l c = true) → restoreAll [(id, b)] [p] s = some es →
      ∃ t y, exec (.blockRestore id [p]) s = .next t ∧ mLook t.blocks id = some y ∧ y.place = .resident ∧ y.cores = p.cores ∧
        y.acc = b.acc ∧ t.mem = s.mem ∧
        ((∀ c, mLook s.ctxs l.ctx = some c → ∀ g ∈ c.groups, ∀ d ∈ g.2.sending, d.blk ≠ id) → y.scratch = b.scratch)) ∧
    (∀ id b c cl bid y, mLook s.blocks id = some b → mLook s.ctxs b.ctx = some c → c.terminated = false →
      (expired s b.ctx).find? (fun y => decide (y.blk = id) && decide (y.cluster = cl) && decide (y.bid = bid)) = some y →
      (∀ z ∈ expired s b.ctx, expiresFirst y z = true) →
      let g := (mLook s.groups b.group).getD ⟨[], 0, []⟩
      let x := if cl then mGet {} g.bars bid else mGet {} b.bars bid
      let bs := if cl then (g.blocks.filterMap (mLook s.blocks)).filter fun k => !k.completed else [b]
      let fpc := barrierPc s cl bid x bs
      let u := after (terminate b.ctx (wdogBytes s cl bid x fpc (bs.headD b) (bs.drop 1)) (some b.launch) fpc 3) s
      exec (.wdogExpire id cl bid) s = .next u ∧ mLook u.ctxs b.ctx = some (endedContext c))

/-! ## Encodings -/

/-- The words of a legal instruction decode to it, with every field at every value its encoding admits: a pair word
through the pair decoder, any other through the slot decoder with its literal in the slot that follows (R63, R68 to
R80). -/
def Obligations.DecodeEncode : Prop :=
  ∀ (i : Instr) (w : DWord) (lit : Option DWord), i.legal = true → encode i = some (w, lit) →
    (∀ f, i = .pairWord f → decodePair w = .ok i) ∧
    ((∀ f, i ≠ .pairWord f) → ∀ next : DWord, (∀ l, lit = some l → next = l) → decodeSlot w next = .ok i ∧
      (lit = none ↔ slotsAfter false w ≠ 2))

/-- Words that the spec writes out decode to the instructions it gives them for (R81, R82, R118, R182, R211, R282, R369,
R408). -/
def Obligations.DecodeWords : Prop :=
  decodeSlot 0x0304010000003918 0x3FC00000 =
    .ok (.mul ⟨8, 4, 0, 0, 0, 0, 0, 7, false, .f32, false, .lit 0x3FC00000, 0⟩) ∧
  decodePair 0x00180D0A0211071C = .ok (.pairWord ⟨0, 12, 13, 20, 1, 17, 14, 0, 7, false⟩) ∧
  decodeSlot 0x990000000000001C 0 = .ok (.exit ⟨0, 0, 0, 0, 7, false⟩) ∧
  decodeSlot 0xA0080100001270A6 0 = .ok (.ld ⟨16, 4, 0, 4, true, 0, 7, false, .glob, .x4, .acq, .device⟩) ∧
  decodeSlot 0xA004010000067260 0 = .ok (.ld ⟨8, 4, 0, 1, true, 0, 7, false, .clu, .w64, .relaxed, .block⟩) ∧
  decodeSlot 0xA40000000000700A 0 = .ok (.fence ⟨0, 0, 0, 0, false, 0, 7, false, .glob, .w8, .rel, .device⟩) ∧
  decodeSlot 0xC100030180003800 0 = .ok (.mma ⟨0, 12, 12, 0, 0, 7, false, 0⟩) ∧
  decodeSlot 0xD4050100C0023000 0 = .ok (.launch ⟨10, 4, 6, 0, true, 0, 3, false, .glob, .w8, .relaxed, .block⟩) ∧
  decodeSlot 0xEB000000E401801C 0 = .ok (.swr ⟨0, 456, 6, 0, 7, false⟩)

/-- Opcode 0 of the V format is `nop`: any field but GP and GN that is not 0 raises ILLENC; the word of zeros is the
`nop` guarded by p0 and 0x3800 the one of GP 7; and whatever its guard, `nop` leaves all but its strand's place (R100). -/
def Obligations.NopIsAsStated : Prop :=
  (∀ w lit : DWord, opcodeOf w = 0 → decodeSlot w lit =
    if w &&& 0xFFFFFFFFFFFFC3FF = 0 then
      .ok (.nop ⟨0, 0, 0, 0, 0, 0, 0, bitsAt w 11 3, w.getLsbD 10, .i32, false, .vec, 0⟩)
    else .error .illenc) ∧
  decodeSlot 0 0 = .ok (.nop ⟨0, 0, 0, 0, 0, 0, 0, 0, false, .i32, false, .vec, 0⟩) ∧
  encode (.nop ⟨0, 0, 0, 0, 0, 0, 0, 7, false, .i32, false, .vec, 0⟩) = some (0x3800, none) ∧
  ∀ (f : VFields) (s : State) (i : Iss), issuer s = some i → ∃ t, exec (.nop f) s = .next t ∧
    t = { s with warps := t.warps, epoch := t.epoch } ∧
    (∀ w, w ≠ i.w → mLook t.warps w = mLook s.warps w) ∧
    ∃ x, mLook t.warps i.w = some x ∧ x = { i.warp with strands := x.strands } ∧
      ∀ k, k ≠ i.k → mLook x.strands k = mLook i.warp.strands k

/-! ## Narrow formats -/

/-- What a source that is zero, infinite or a NaN converts to, in each narrow format and under each rounding mode, with
the pennant it raises (R254). The codes: 0 E4M3, 1 E5M2, 2 E3M2, 3 E2M3, 4 E2M1, 5 LNS6, 8 INT8. -/
def Obligations.NonFiniteConversions : Prop :=
  ∀ (mode : RMode) (r : Nat) (noclip neg : Bool) (e : Int),
    let sgn (n : Nat) : Nat := if neg then 2 ^ (n - 1) else 0
    let code (fmt : Nat) (x : FV) : Nat × Byte := ((nConvert fmt mode r noclip x).val, (nConvert fmt mode r noclip x).pen)
    -- zeros
    (∀ p ∈ [(0, 8), (1, 8), (2, 6), (3, 6), (4, 4)], code p.1 (.fin neg 0 e) = (sgn p.2, 0)) ∧
    code 8 (.fin neg 0 e) = (0, 0) ∧ code 5 (.fin neg 0 e) = (0, 0) ∧
    -- infinities
    code 0 (.inf neg) = (if neg then 0xFE else 0x7E, pSAT) ∧
    code 1 (.inf neg) = (if noclip then (if neg then 0xFC else 0x7C, 0) else (if neg then 0xFB else 0x7B, pSAT)) ∧
    (∀ fmt ∈ [2, 3], code fmt (.inf neg) = (sgn 6 + 0x1F, pSAT)) ∧
    code 4 (.inf neg) = (sgn 4 + 7, pSAT) ∧
    code 8 (.inf neg) = (if neg then 0x80 else 0x7F, pSAT) ∧
    code 5 (.inf neg) = (if neg then 0x3F else 0x1F, pSAT) ∧
    -- NaNs
    ∀ q, code 0 (.nan q) = (0x7F, 0) ∧ code 1 (.nan q) = (0x7F, 0) ∧ code 5 (.nan q) = (0x20, 0) ∧
      ∀ fmt ∈ [2, 3, 4, 8], code fmt (.nan q) = (0, pIV)

/-! ## Steps -/

/-- When the next input is the issue of a strand that may issue, and the slot at its place holds a word that decodes
to an instruction, with its literal in the slot that follows where it takes one, the step is `exec` of that
instruction. It runs in the state in which the trace unit has seen the PC and the core keeps the fetched words;
nothing else differs. After it the strand issues no more, and what an issue costs is charged (R28, R61 to R63, R67,
R81). The model's own choices: log entries 5, 10, 11. -/
def Obligations.StepRunsDecoded : Prop :=
  ∀ (s : State) (w k j key : Nat) (rest : List Input) (i : Iss) (x : Instr) (word : DWord),
    s.agenda = .issue w k :: rest →
    let s0 := { s with agenda := rest, tick := s.tick + 1 }
    let c := { s0 with cur := some (w, k) }
    mayIssue s0 w k = true → issuer c = some i → i.st.slot = some j → i.st.reread = false →
    let b := after (traceStart i) c
    let pc := (pcOf i.st).toNat
    fetch b i pc = .word word key →
    let u := afterFetch b i pc key word
    let Runs (v : State) : Prop :=
      v = { c with cores := v.cores } ∧ issuer v = some i ∧ ∃ t, exec x v = .next t ∧ step s = .next (endIssue s0 i t) ∧
        (endIssue s0 i t).cur = none ∧ (endIssue s0 i t).mem = t.mem ∧ (endIssue s0 i t).blocks = t.blocks ∧
        (endIssue s0 i t).ctxs = t.ctxs ∧
        ∀ v y, mLook t.warps v = some y → ∃ z, mLook (endIssue s0 i t).warps v = some z ∧ (v ≠ i.w → z = y) ∧
          z = { y with strands := z.strands, lastIssue := z.lastIssue, readySince := z.readySince } ∧
          ∀ l u, mLook y.strands l = some u → ∃ r, mLook z.strands l = some { u with readyAt := r }
    ((hdrPairs i.st.hdr).testBit j = true → decodePair word = .ok x → Runs u) ∧
    ((hdrPairs i.st.hdr).testBit j = false → slotMisplaced i.st.hdr j word = false → slotsAfter false word ≠ 2 →
      decodeSlot word 0 = .ok x → Runs u) ∧
    (∀ lit key2, (hdrPairs i.st.hdr).testBit j = false → slotMisplaced i.st.hdr j word = false →
      slotsAfter false word = 2 → fetch u i (pc + 8) = .word lit key2 → decodeSlot word lit = .ok x →
      Runs (afterFetch u i (pc + 8) key2 lit))

/-- In the state after reset every table has its canonical form. The model's own choices: log entry 9. -/
def Obligations.ResetCanonical : Prop := State.reset.Canonical

/-- Every step keeps the canonical form of memory and of every table, whatever it runs and in whatever state. The
model's own choices: log entry 9. -/
def Obligations.StepKeepsCanonical : Prop :=
  ∀ s t : State, s.Canonical → step s = .next t → t.Canonical

/-- The device never stops: every step answers a next state and counts one tick. An instruction word goes on whenever
a strand issues it, with an effect or with the trap the spec names, and is no step of its own where none does; an
event of the device goes on in every state. The model's own choices: log entries 2, 3, 8. -/
def Obligations.StepNeverStops : Prop :=
  (∀ s : State, ∃ t, step s = .next t ∧ t.tick = s.tick + 1) ∧
  (∀ (i : Instr) (s : State), (encode i).isSome = true → (issuer s).isSome = true → ∃ t, exec i s = .next t) ∧
  (∀ (i : Instr) (s : State), (encode i).isSome = true → issuer s = none → exec i s = .fault .noStrand) ∧
  (∀ (i : Instr) (s : State), encode i = none → ∃ t, exec i s = .next t)
end

