-- ==== Sys2Proof/Laws/Maps.lean ====
section
/-! SUPPORT. The laws of finite maps: a read after a write gives the value written, a write leaves every other key alone,
and every operation keeps the canonical form. -/

namespace Sys2Proof.Machine

variable {α : Type}

/-! ## Read after write -/

@[simp] theorem mLook_mIns_self (m : Map α) (k : Nat) (a : α) : mLook (mIns m k a) k = some a := by
  induction m with
  | nil => simp [mIns, mLook]
  | cons x m ih =>
    simp only [mIns]
    split
    · simp [mLook]
    · split <;> simp_all [mLook]

@[simp] theorem mLook_mIns_ne (m : Map α) {k j : Nat} (a : α) (h : j ≠ k) : mLook (mIns m k a) j = mLook m j := by
  induction m with
  | nil => simp [mIns, mLook, h]
  | cons x m ih =>
    simp only [mIns]
    split
    · simp_all [mLook]
    · split <;> simp_all [mLook]

theorem mLook_mIns (m : Map α) (k j : Nat) (a : α) : mLook (mIns m k a) j = if j = k then some a else mLook m j := by
  split
  · next h => rw [h, mLook_mIns_self]
  · next h => exact mLook_mIns_ne m a h

@[simp] theorem mLook_mDel_self (m : Map α) (k : Nat) : mLook (mDel m k) k = none := by
  induction m with
  | nil => rfl
  | cons x m ih =>
    simp only [mDel, List.filter_cons]
    split <;> rename_i hx
    · simp only [ne_eq, decide_eq_true_eq] at hx; simpa [mLook, Ne.symm hx, mDel] using ih
    · exact ih

@[simp] theorem mLook_mDel_ne (m : Map α) {k j : Nat} (h : j ≠ k) : mLook (mDel m k) j = mLook m j := by
  induction m with
  | nil => rfl
  | cons x m ih =>
    simp only [mDel, List.filter_cons]
    split <;> rename_i hx <;> simp_all [mLook, mDel]

@[simp] theorem mGet_mIns_self (d : α) (m : Map α) (k : Nat) (a : α) : mGet d (mIns m k a) k = a := by simp [mGet]

@[simp] theorem mGet_mIns_ne (d : α) (m : Map α) {k j : Nat} (a : α) (h : j ≠ k) : mGet d (mIns m k a) j = mGet d m j := by
  simp [mGet, h]

@[simp] theorem mGet_mPut_self [DecidableEq α] (d : α) (m : Map α) (k : Nat) (a : α) : mGet d (mPut d m k a) k = a := by
  simp only [mPut, mGet]; split <;> simp_all

@[simp] theorem mGet_mPut_ne [DecidableEq α] (d : α) (m : Map α) {k j : Nat} (a : α) (h : j ≠ k) :
    mGet d (mPut d m k a) j = mGet d m j := by
  simp only [mPut, mGet]; split <;> simp [h]

theorem mGet_mPut [DecidableEq α] (d : α) (m : Map α) (k j : Nat) (a : α) :
    mGet d (mPut d m k a) j = if j = k then a else mGet d m j := by
  split
  · next h => rw [h, mGet_mPut_self]
  · next h => exact mGet_mPut_ne d m a h

/-! ## The canonical form -/

theorem mFrom_mono {lo hi : Nat} {m : Map α} (h : lo ≤ hi) (hm : mFrom hi m = true) : mFrom lo m = true := by
  cases m with
  | nil => rfl
  | cons x m =>
    simp only [mFrom, Bool.and_eq_true, decide_eq_true_eq] at hm ⊢
    exact ⟨Nat.le_trans h hm.1, hm.2⟩

theorem mFrom_mIns {lo k : Nat} {m : Map α} (a : α) (hk : lo ≤ k) (hm : mFrom lo m = true) :
    mFrom lo (mIns m k a) = true := by
  induction m generalizing lo with
  | nil => simp [mIns, mFrom, hk]
  | cons x m ih =>
    simp only [mFrom, Bool.and_eq_true, decide_eq_true_eq] at hm
    simp only [mIns]
    split
    · next h => subst h; simp [mFrom, hm.1, hm.2]
    · split
      · simp [mFrom, hk, hm.2]; omega
      · simp only [mFrom, Bool.and_eq_true, decide_eq_true_eq]
        exact ⟨hm.1, ih (by omega) hm.2⟩

theorem mFrom_filter {lo : Nat} {m : Map α} (f : Nat × α → Bool) (hm : mFrom lo m = true) :
    mFrom lo (m.filter f) = true := by
  induction m generalizing lo with
  | nil => rfl
  | cons x m ih =>
    simp only [mFrom, Bool.and_eq_true, decide_eq_true_eq] at hm
    simp only [List.filter_cons]
    split
    · simp only [mFrom, Bool.and_eq_true, decide_eq_true_eq]; exact ⟨hm.1, ih hm.2⟩
    · exact mFrom_mono (by omega) (ih hm.2)

theorem mSorted_mIns {m : Map α} (k : Nat) (a : α) (hm : mSorted m = true) : mSorted (mIns m k a) = true :=
  mFrom_mIns a (Nat.zero_le k) hm

theorem mSorted_filter {m : Map α} (f : Nat × α → Bool) (hm : mSorted m = true) : mSorted (m.filter f) = true :=
  mFrom_filter f hm

theorem mSorted_mDel {m : Map α} (k : Nat) (hm : mSorted m = true) : mSorted (mDel m k) = true :=
  mSorted_filter _ hm

theorem mem_mIns {m : Map α} {k : Nat} {a : α} {x : Nat × α} (h : x ∈ mIns m k a) : x = (k, a) ∨ x ∈ m := by
  induction m with
  | nil => simpa [mIns] using h
  | cons y m ih =>
    simp only [mIns] at h
    split at h
    · exact (List.mem_cons.1 h).imp id fun h => List.mem_cons_of_mem _ h
    · split at h
      · exact List.mem_cons.1 h
      · exact (List.mem_cons.1 h).elim (fun h => .inr (List.mem_cons.2 (.inl h)))
          fun h => (ih h).imp id fun h => List.mem_cons_of_mem _ h

theorem mCanon_mPut [DecidableEq α] {d : α} {m : Map α} (k : Nat) (a : α) (hm : mCanon d m = true) :
    mCanon d (mPut d m k a) = true := by
  simp only [mCanon, Bool.and_eq_true, List.all_eq_true, decide_eq_true_eq] at hm ⊢
  simp only [mPut]
  split
  · exact ⟨mSorted_mDel k hm.1, fun x hx => hm.2 x ((List.mem_filter.1 hx).1)⟩
  · next h => exact ⟨mSorted_mIns k a hm.1, fun x hx => (mem_mIns hx).elim (fun e => by rw [e]; exact h) (hm.2 x)⟩

theorem mCanon_filter [DecidableEq α] {d : α} {m : Map α} (f : Nat × α → Bool) (hm : mCanon d m = true) :
    mCanon d (m.filter f) = true := by
  simp only [mCanon, Bool.and_eq_true, List.all_eq_true, decide_eq_true_eq] at hm ⊢
  exact ⟨mSorted_filter f hm.1, fun x hx => hm.2 x ((List.mem_filter.1 hx).1)⟩

/-! ## Bytes -/

theorem mCanon_putList {m : Map Byte} (k : Nat) (bs : List Byte) (hm : mCanon 0 m = true) :
    mCanon 0 (putList m k bs) = true := by
  induction bs generalizing m k with
  | nil => exact hm
  | cons b bs ih => exact ih (k + 1) (mCanon_mPut k b hm)

theorem mGet_putList_outside (m : Map Byte) (k j : Nat) (bs : List Byte) (h : j < k ∨ k + bs.length ≤ j) :
    mGet 0 (putList m k bs) j = mGet 0 m j := by
  induction bs generalizing m k with
  | nil => rfl
  | cons b bs ih =>
    simp only [List.length_cons] at h
    rw [putList, ih _ _ (by omega), mGet_mPut_ne _ _ _ (by omega)]

theorem mGet_putList_inside (m : Map Byte) (k j : Nat) (bs : List Byte) (h : j < bs.length) :
    mGet 0 (putList m k bs) (k + j) = bs.getD j 0 := by
  induction bs generalizing m k j with
  | nil => simp at h
  | cons b bs ih =>
    cases j with
    | zero => rw [putList, mGet_putList_outside _ _ _ _ (by omega)]; simp
    | succ j =>
      have := ih (mPut 0 m k b) (k + 1) j (by simpa using h)
      rw [putList, show k + (j + 1) = k + 1 + j by omega, this]; simp

theorem mGet_putBytes_outside (m : Map Byte) (k j n x : Nat) (h : j < k ∨ k + n ≤ j) :
    mGet 0 (putBytes m k n x) j = mGet 0 m j := by
  induction n generalizing m k x with
  | zero => rfl
  | succ n ih => rw [putBytes, ih _ _ _ (by omega), mGet_mPut_ne _ _ _ (by omega)]

theorem bytesAt_congr {m m' : Map Byte} {k n : Nat} (h : ∀ j, k ≤ j → j < k + n → mGet 0 m j = mGet 0 m' j) :
    bytesAt m k n = bytesAt m' k n := by
  induction n generalizing k with
  | zero => rfl
  | succ n ih => simp only [bytesAt]; rw [h k (by omega) (by omega), ih fun j a b => h j (by omega) (by omega)]

/-- A listed value is in the list; a map in canonical form looks up every entry it lists. -/
theorem mem_of_mLook {m : Map α} {k : Nat} {a : α} (h : mLook m k = some a) : (k, a) ∈ m := by
  induction m with
  | nil => cases h
  | cons e m ih =>
    obtain ⟨j, b⟩ := e
    by_cases hj : k = j
    · subst hj; simp only [mLook, if_true, Option.some.injEq] at h; simp [h]
    · simp only [mLook, hj, if_false] at h; exact List.mem_cons_of_mem _ (ih h)
theorem mem_mVals {m : Map α} {k : Nat} {a : α} (h : mLook m k = some a) : a ∈ mVals m :=
  List.mem_map.2 ⟨(k, a), mem_of_mLook h, rfl⟩
theorem mFrom_le {lo : Nat} {m : Map α} (h : mFrom lo m = true) {x : Nat × α} (hx : x ∈ m) : lo ≤ x.1 := by
  induction m generalizing lo with
  | nil => cases hx
  | cons e m ih =>
    obtain ⟨j, b⟩ := e
    simp only [mFrom, Bool.and_eq_true, decide_eq_true_eq] at h
    rcases List.mem_cons.1 hx with rfl | hx
    · exact h.1
    · have := ih h.2 hx; omega
theorem mLook_of_mem {m : Map α} (h : mSorted m = true) {x : Nat × α} (hx : x ∈ m) : mLook m x.1 = some x.2 := by
  have : ∀ lo, mFrom lo m = true → mLook m x.1 = some x.2 := by
    clear h
    induction m with
    | nil => cases hx
    | cons e m ih =>
      obtain ⟨j, b⟩ := e
      intro lo h
      simp only [mFrom, Bool.and_eq_true, decide_eq_true_eq] at h
      rcases List.mem_cons.1 hx with rfl | hx
      · simp [mLook]
      · have := mFrom_le h.2 hx
        have hne : x.1 ≠ j := by omega
        simp only [mLook, hne, if_false]; exact ih hx _ h.2
  exact this 0 h
theorem mLook_filter {m : Map α} {c : Nat × α → Bool} {k : Nat} {a : α} (h : mLook m k = some a) (hc : c (k, a) = true) :
    mLook (m.filter c) k = some a := by
  induction m with
  | nil => cases h
  | cons e m ih =>
    obtain ⟨j, b⟩ := e
    by_cases hj : k = j
    · subst hj; simp only [mLook, if_true, Option.some.injEq] at h; subst h; simp [hc, mLook]
    · simp only [mLook, hj, if_false] at h
      simp only [List.filter_cons]; split
      · simp only [mLook, hj, if_false]; exact ih h
      · exact ih h

/-- A filter by key alone removes a key with every entry it has. -/
theorem mLook_filter_none {m : Map α} {c : Nat × α → Bool} (hc : ∀ j a b, c (j, a) = c (j, b)) {k : Nat} {b : α}
    (h : c (k, b) = false) : mLook (m.filter c) k = none := by
  induction m with
  | nil => rfl
  | cons e m ih =>
    obtain ⟨j, a⟩ := e
    by_cases hj : k = j
    · subst hj; rw [List.filter_cons, hc k a b, h]; simpa using ih
    · simp only [List.filter_cons]; split
      · simp only [mLook, hj, if_false]; exact ih
      · exact ih
theorem mLook_of_filter {m : Map α} {c : Nat × α → Bool} (hc : ∀ j a b, c (j, a) = c (j, b)) {k : Nat} {a : α}
    (h : mLook (m.filter c) k = some a) : mLook m k = some a := by
  induction m with
  | nil => cases h
  | cons e m ih =>
    obtain ⟨j, b⟩ := e
    by_cases hj : k = j
    · subst hj
      cases hb : c (k, b)
      · rw [mLook_filter_none hc hb] at h; cases h
      · simpa [List.filter_cons, hb, mLook] using h
    · simp only [mLook, hj, if_false]
      simp only [List.filter_cons] at h; split at h
      · simp only [mLook, hj, if_false] at h; exact ih h
      · exact ih h

end Sys2Proof.Machine
end

