-- ==== Sys2Proof/Laws/State.lean ====
section
/-! SUPPORT. What one effect, and a list of effects, does to each field of the state: the field it writes, and that it
leaves every other field alone; and that effects keep the canonical form of every table. -/

namespace Sys2Proof.Machine

/-- The fields of the state that effects write. -/
inductive Table where
  | mem | warps | blocks | groups | launches | ctxs | cores | parts | queues | pool | dir | ops | engs | locks | faults | bad | mgmt | now | epoch | nextId | nextLaunch
  deriving DecidableEq, Repr

/-- The field an effect writes. -/
def Effect.table : Effect → Table
  | .bytes _ _ => .mem
  | .wipe _ => .mem
  | .warp _ _ => .warps
  | .dropWarp _ => .warps
  | .block _ _ => .blocks
  | .dropBlock _ => .blocks
  | .group _ _ => .groups
  | .dropGroup _ => .groups
  | .launch _ _ => .launches
  | .dropLaunch _ => .launches
  | .ctx _ _ => .ctxs
  | .dropCtx _ => .ctxs
  | .core _ _ => .cores
  | .part _ _ => .parts
  | .dropPart _ => .parts
  | .queue _ _ => .queues
  | .dropQueue _ => .queues
  | .page _ _ => .pool
  | .dropPage _ => .pool
  | .share _ _ => .dir
  | .op _ _ => .ops
  | .dropOp _ => .ops
  | .eng _ _ => .engs
  | .dropEng _ => .engs
  | .locks _ => .locks
  | .fault _ _ => .faults
  | .dropFault _ => .faults
  | .bad _ => .bad
  | .mgmt _ => .mgmt
  | .now _ => .now
  | .bump => .epoch
  | .ids _ => .nextId
  | .launchIds _ => .nextLaunch

/-! ## The field an effect writes -/

@[simp] theorem applyEffect_bytes (s : State) (k : Nat) (bs : List Byte) :
    (applyEffect s (.bytes k bs)).mem = putList s.mem k bs := rfl
@[simp] theorem applyEffect_wipe (s : State) (n : Nat) :
    (applyEffect s (.wipe n)).mem = s.mem.filter (fun c => decide (n ≤ c.1)) := rfl
@[simp] theorem applyEffect_warp (s : State) (k : Nat) (x : Warp) :
    (applyEffect s (.warp k x)).warps = mIns s.warps k x := rfl
@[simp] theorem applyEffect_dropWarp (s : State) (k : Nat) :
    (applyEffect s (.dropWarp k)).warps = mDel s.warps k := rfl
@[simp] theorem applyEffect_block (s : State) (k : Nat) (x : Block) :
    (applyEffect s (.block k x)).blocks = mIns s.blocks k x := rfl
@[simp] theorem applyEffect_dropBlock (s : State) (k : Nat) :
    (applyEffect s (.dropBlock k)).blocks = mDel s.blocks k := rfl
@[simp] theorem applyEffect_group (s : State) (k : Nat) (x : Group) :
    (applyEffect s (.group k x)).groups = mIns s.groups k x := rfl
@[simp] theorem applyEffect_dropGroup (s : State) (k : Nat) :
    (applyEffect s (.dropGroup k)).groups = mDel s.groups k := rfl
@[simp] theorem applyEffect_launch (s : State) (k : Nat) (x : Launch) :
    (applyEffect s (.launch k x)).launches = mIns s.launches k x := rfl
@[simp] theorem applyEffect_dropLaunch (s : State) (k : Nat) :
    (applyEffect s (.dropLaunch k)).launches = mDel s.launches k := rfl
@[simp] theorem applyEffect_ctx (s : State) (k : Nat) (x : Context) :
    (applyEffect s (.ctx k x)).ctxs = mIns s.ctxs k x := rfl
@[simp] theorem applyEffect_dropCtx (s : State) (k : Nat) :
    (applyEffect s (.dropCtx k)).ctxs = mDel s.ctxs k := rfl
@[simp] theorem applyEffect_core (s : State) (k : Nat) (x : Core) :
    (applyEffect s (.core k x)).cores = mIns s.cores k x := rfl
@[simp] theorem applyEffect_part (s : State) (k : Nat) (x : Partition) :
    (applyEffect s (.part k x)).parts = mIns s.parts k x := rfl
@[simp] theorem applyEffect_dropPart (s : State) (k : Nat) :
    (applyEffect s (.dropPart k)).parts = mDel s.parts k := rfl
@[simp] theorem applyEffect_queue (s : State) (k : Nat) (x : Queue) :
    (applyEffect s (.queue k x)).queues = mIns s.queues k x := rfl
@[simp] theorem applyEffect_dropQueue (s : State) (k : Nat) :
    (applyEffect s (.dropQueue k)).queues = mDel s.queues k := rfl
@[simp] theorem applyEffect_page (s : State) (k : Nat) (x : PoolPage) :
    (applyEffect s (.page k x)).pool = mIns s.pool k x := rfl
@[simp] theorem applyEffect_dropPage (s : State) (k : Nat) :
    (applyEffect s (.dropPage k)).pool = mDel s.pool k := rfl
@[simp] theorem applyEffect_share (s : State) (k : Nat) (m : Mask) :
    (applyEffect s (.share k m)).dir = mPut 0 s.dir k m := rfl
@[simp] theorem applyEffect_op (s : State) (k : Nat) (x : MemOp) :
    (applyEffect s (.op k x)).ops = mIns s.ops k x := rfl
@[simp] theorem applyEffect_dropOp (s : State) (k : Nat) :
    (applyEffect s (.dropOp k)).ops = mDel s.ops k := rfl
@[simp] theorem applyEffect_eng (s : State) (k : Nat) (x : EngOp) :
    (applyEffect s (.eng k x)).engs = mIns s.engs k x := rfl
@[simp] theorem applyEffect_dropEng (s : State) (k : Nat) :
    (applyEffect s (.dropEng k)).engs = mDel s.engs k := rfl
@[simp] theorem applyEffect_locks (s : State) (l : List Lock) :
    (applyEffect s (.locks l)).locks = l := rfl
@[simp] theorem applyEffect_fault (s : State) (k : Nat) (x : PageFault) :
    (applyEffect s (.fault k x)).faults = mIns s.faults k x := rfl
@[simp] theorem applyEffect_dropFault (s : State) (k : Nat) :
    (applyEffect s (.dropFault k)).faults = mDel s.faults k := rfl
@[simp] theorem applyEffect_bad (s : State) (l : List BadWord) :
    (applyEffect s (.bad l)).bad = l := rfl
@[simp] theorem applyEffect_mgmt (s : State) (x : Mgmt) :
    (applyEffect s (.mgmt x)).mgmt = x := rfl
@[simp] theorem applyEffect_now (s : State) (n : Nat) :
    (applyEffect s (.now n)).now = n := rfl
@[simp] theorem applyEffect_bump (s : State) :
    (applyEffect s (.bump)).epoch = s.epoch + 1 := rfl
@[simp] theorem applyEffect_ids (s : State) (n : Nat) :
    (applyEffect s (.ids n)).nextId = n := rfl
@[simp] theorem applyEffect_launchIds (s : State) (n : Word) :
    (applyEffect s (.launchIds n)).nextLaunch = n := rfl

/-! ## The fields it leaves alone -/

theorem applyEffect_keeps_mem (s : State) {e : Effect} (h : e.table ≠ .mem) : (applyEffect s e).mem = s.mem := by
  cases e <;> first | rfl | exact absurd rfl h
theorem applyEffect_keeps_warps (s : State) {e : Effect} (h : e.table ≠ .warps) : (applyEffect s e).warps = s.warps := by
  cases e <;> first | rfl | exact absurd rfl h
theorem applyEffect_keeps_blocks (s : State) {e : Effect} (h : e.table ≠ .blocks) : (applyEffect s e).blocks = s.blocks := by
  cases e <;> first | rfl | exact absurd rfl h
theorem applyEffect_keeps_groups (s : State) {e : Effect} (h : e.table ≠ .groups) : (applyEffect s e).groups = s.groups := by
  cases e <;> first | rfl | exact absurd rfl h
theorem applyEffect_keeps_launches (s : State) {e : Effect} (h : e.table ≠ .launches) : (applyEffect s e).launches = s.launches := by
  cases e <;> first | rfl | exact absurd rfl h
theorem applyEffect_keeps_ctxs (s : State) {e : Effect} (h : e.table ≠ .ctxs) : (applyEffect s e).ctxs = s.ctxs := by
  cases e <;> first | rfl | exact absurd rfl h
theorem applyEffect_keeps_cores (s : State) {e : Effect} (h : e.table ≠ .cores) : (applyEffect s e).cores = s.cores := by
  cases e <;> first | rfl | exact absurd rfl h
theorem applyEffect_keeps_parts (s : State) {e : Effect} (h : e.table ≠ .parts) : (applyEffect s e).parts = s.parts := by
  cases e <;> first | rfl | exact absurd rfl h
theorem applyEffect_keeps_queues (s : State) {e : Effect} (h : e.table ≠ .queues) : (applyEffect s e).queues = s.queues := by
  cases e <;> first | rfl | exact absurd rfl h
theorem applyEffect_keeps_pool (s : State) {e : Effect} (h : e.table ≠ .pool) : (applyEffect s e).pool = s.pool := by
  cases e <;> first | rfl | exact absurd rfl h
theorem applyEffect_keeps_dir (s : State) {e : Effect} (h : e.table ≠ .dir) : (applyEffect s e).dir = s.dir := by
  cases e <;> first | rfl | exact absurd rfl h
theorem applyEffect_keeps_ops (s : State) {e : Effect} (h : e.table ≠ .ops) : (applyEffect s e).ops = s.ops := by
  cases e <;> first | rfl | exact absurd rfl h
theorem applyEffect_keeps_engs (s : State) {e : Effect} (h : e.table ≠ .engs) : (applyEffect s e).engs = s.engs := by
  cases e <;> first | rfl | exact absurd rfl h
theorem applyEffect_keeps_locks (s : State) {e : Effect} (h : e.table ≠ .locks) : (applyEffect s e).locks = s.locks := by
  cases e <;> first | rfl | exact absurd rfl h
theorem applyEffect_keeps_faults (s : State) {e : Effect} (h : e.table ≠ .faults) : (applyEffect s e).faults = s.faults := by
  cases e <;> first | rfl | exact absurd rfl h
theorem applyEffect_keeps_bad (s : State) {e : Effect} (h : e.table ≠ .bad) : (applyEffect s e).bad = s.bad := by
  cases e <;> first | rfl | exact absurd rfl h
theorem applyEffect_keeps_mgmt (s : State) {e : Effect} (h : e.table ≠ .mgmt) : (applyEffect s e).mgmt = s.mgmt := by
  cases e <;> first | rfl | exact absurd rfl h
theorem applyEffect_keeps_now (s : State) {e : Effect} (h : e.table ≠ .now) : (applyEffect s e).now = s.now := by
  cases e <;> first | rfl | exact absurd rfl h
theorem applyEffect_keeps_epoch (s : State) {e : Effect} (h : e.table ≠ .epoch) : (applyEffect s e).epoch = s.epoch := by
  cases e <;> first | rfl | exact absurd rfl h
theorem applyEffect_keeps_nextId (s : State) {e : Effect} (h : e.table ≠ .nextId) : (applyEffect s e).nextId = s.nextId := by
  cases e <;> first | rfl | exact absurd rfl h
theorem applyEffect_keeps_nextLaunch (s : State) {e : Effect} (h : e.table ≠ .nextLaunch) : (applyEffect s e).nextLaunch = s.nextLaunch := by
  cases e <;> first | rfl | exact absurd rfl h
@[simp] theorem applyEffect_keeps_tick (s : State) (e : Effect) : (applyEffect s e).tick = s.tick := by cases e <;> rfl
@[simp] theorem applyEffect_keeps_cur (s : State) (e : Effect) : (applyEffect s e).cur = s.cur := by cases e <;> rfl
@[simp] theorem applyEffect_keeps_agenda (s : State) (e : Effect) : (applyEffect s e).agenda = s.agenda := by cases e <;> rfl

/-! ## Lists of effects -/

@[simp] theorem applyAll_nil (s : State) : applyAll [] s = s := rfl
@[simp] theorem applyAll_cons (e : Effect) (es : List Effect) (s : State) :
    applyAll (e :: es) s = applyAll es (applyEffect s e) := rfl
theorem applyAll_append (es fs : List Effect) (s : State) : applyAll (es ++ fs) s = applyAll fs (applyAll es s) := by
  simp [applyAll, List.foldl_append]

/-- What one effect keeps, a list of them keeps. -/
theorem applyAll_keeps {α : Type} (f : State → α) {P : Effect → Prop} (h : ∀ s e, P e → f (applyEffect s e) = f s)
    {es : List Effect} (hes : ∀ e ∈ es, P e) (s : State) : f (applyAll es s) = f s := by
  induction es generalizing s with
  | nil => rfl
  | cons e es ih =>
    rw [applyAll_cons, ih fun x hx => hes x (List.mem_cons_of_mem _ hx)]
    exact h s e (hes e (List.mem_cons.2 (.inl rfl)))

theorem applyAll_keeps_mem {es : List Effect} (h : ∀ e ∈ es, e.table ≠ .mem) (s : State) : (applyAll es s).mem = s.mem :=
  applyAll_keeps State.mem (fun s _ => applyEffect_keeps_mem s) h s
theorem applyAll_keeps_warps {es : List Effect} (h : ∀ e ∈ es, e.table ≠ .warps) (s : State) : (applyAll es s).warps = s.warps :=
  applyAll_keeps State.warps (fun s _ => applyEffect_keeps_warps s) h s
theorem applyAll_keeps_blocks {es : List Effect} (h : ∀ e ∈ es, e.table ≠ .blocks) (s : State) : (applyAll es s).blocks = s.blocks :=
  applyAll_keeps State.blocks (fun s _ => applyEffect_keeps_blocks s) h s
theorem applyAll_keeps_groups {es : List Effect} (h : ∀ e ∈ es, e.table ≠ .groups) (s : State) : (applyAll es s).groups = s.groups :=
  applyAll_keeps State.groups (fun s _ => applyEffect_keeps_groups s) h s
theorem applyAll_keeps_launches {es : List Effect} (h : ∀ e ∈ es, e.table ≠ .launches) (s : State) : (applyAll es s).launches = s.launches :=
  applyAll_keeps State.launches (fun s _ => applyEffect_keeps_launches s) h s
theorem applyAll_keeps_ctxs {es : List Effect} (h : ∀ e ∈ es, e.table ≠ .ctxs) (s : State) : (applyAll es s).ctxs = s.ctxs :=
  applyAll_keeps State.ctxs (fun s _ => applyEffect_keeps_ctxs s) h s
theorem applyAll_keeps_cores {es : List Effect} (h : ∀ e ∈ es, e.table ≠ .cores) (s : State) : (applyAll es s).cores = s.cores :=
  applyAll_keeps State.cores (fun s _ => applyEffect_keeps_cores s) h s
theorem applyAll_keeps_parts {es : List Effect} (h : ∀ e ∈ es, e.table ≠ .parts) (s : State) : (applyAll es s).parts = s.parts :=
  applyAll_keeps State.parts (fun s _ => applyEffect_keeps_parts s) h s
theorem applyAll_keeps_queues {es : List Effect} (h : ∀ e ∈ es, e.table ≠ .queues) (s : State) : (applyAll es s).queues = s.queues :=
  applyAll_keeps State.queues (fun s _ => applyEffect_keeps_queues s) h s
theorem applyAll_keeps_pool {es : List Effect} (h : ∀ e ∈ es, e.table ≠ .pool) (s : State) : (applyAll es s).pool = s.pool :=
  applyAll_keeps State.pool (fun s _ => applyEffect_keeps_pool s) h s
theorem applyAll_keeps_dir {es : List Effect} (h : ∀ e ∈ es, e.table ≠ .dir) (s : State) : (applyAll es s).dir = s.dir :=
  applyAll_keeps State.dir (fun s _ => applyEffect_keeps_dir s) h s
theorem applyAll_keeps_ops {es : List Effect} (h : ∀ e ∈ es, e.table ≠ .ops) (s : State) : (applyAll es s).ops = s.ops :=
  applyAll_keeps State.ops (fun s _ => applyEffect_keeps_ops s) h s
theorem applyAll_keeps_engs {es : List Effect} (h : ∀ e ∈ es, e.table ≠ .engs) (s : State) : (applyAll es s).engs = s.engs :=
  applyAll_keeps State.engs (fun s _ => applyEffect_keeps_engs s) h s
theorem applyAll_keeps_locks {es : List Effect} (h : ∀ e ∈ es, e.table ≠ .locks) (s : State) : (applyAll es s).locks = s.locks :=
  applyAll_keeps State.locks (fun s _ => applyEffect_keeps_locks s) h s
theorem applyAll_keeps_faults {es : List Effect} (h : ∀ e ∈ es, e.table ≠ .faults) (s : State) : (applyAll es s).faults = s.faults :=
  applyAll_keeps State.faults (fun s _ => applyEffect_keeps_faults s) h s
theorem applyAll_keeps_bad {es : List Effect} (h : ∀ e ∈ es, e.table ≠ .bad) (s : State) : (applyAll es s).bad = s.bad :=
  applyAll_keeps State.bad (fun s _ => applyEffect_keeps_bad s) h s
theorem applyAll_keeps_mgmt {es : List Effect} (h : ∀ e ∈ es, e.table ≠ .mgmt) (s : State) : (applyAll es s).mgmt = s.mgmt :=
  applyAll_keeps State.mgmt (fun s _ => applyEffect_keeps_mgmt s) h s
theorem applyAll_keeps_now {es : List Effect} (h : ∀ e ∈ es, e.table ≠ .now) (s : State) : (applyAll es s).now = s.now :=
  applyAll_keeps State.now (fun s _ => applyEffect_keeps_now s) h s
theorem applyAll_keeps_epoch {es : List Effect} (h : ∀ e ∈ es, e.table ≠ .epoch) (s : State) : (applyAll es s).epoch = s.epoch :=
  applyAll_keeps State.epoch (fun s _ => applyEffect_keeps_epoch s) h s
theorem applyAll_keeps_nextId {es : List Effect} (h : ∀ e ∈ es, e.table ≠ .nextId) (s : State) : (applyAll es s).nextId = s.nextId :=
  applyAll_keeps State.nextId (fun s _ => applyEffect_keeps_nextId s) h s
theorem applyAll_keeps_nextLaunch {es : List Effect} (h : ∀ e ∈ es, e.table ≠ .nextLaunch) (s : State) : (applyAll es s).nextLaunch = s.nextLaunch :=
  applyAll_keeps State.nextLaunch (fun s _ => applyEffect_keeps_nextLaunch s) h s
@[simp] theorem applyAll_keeps_tick (es : List Effect) (s : State) : (applyAll es s).tick = s.tick :=
  applyAll_keeps State.tick (P := fun _ => True) (fun s e _ => applyEffect_keeps_tick s e) (fun _ _ => trivial) s
@[simp] theorem applyAll_keeps_cur (es : List Effect) (s : State) : (applyAll es s).cur = s.cur :=
  applyAll_keeps State.cur (P := fun _ => True) (fun s e _ => applyEffect_keeps_cur s e) (fun _ _ => trivial) s
@[simp] theorem applyAll_keeps_agenda (es : List Effect) (s : State) : (applyAll es s).agenda = s.agenda :=
  applyAll_keeps State.agenda (P := fun _ => True) (fun s e _ => applyEffect_keeps_agenda s e) (fun _ _ => trivial) s

/-! ## The canonical form -/

theorem applyEffect_canonical {s : State} (h : s.Canonical) (e : Effect) : (applyEffect s e).Canonical := by
  obtain ⟨h1, h2, h3, h4, h5, h6, h7, h8, h9, h10, h11, h12, h13, h14⟩ := h
  cases e <;> constructor <;>
    first
    | assumption
    | exact mCanon_putList _ _ h1
    | exact mCanon_filter _ h1
    | exact mCanon_mPut _ _ h2
    | exact mSorted_mIns _ _ (by assumption)
    | exact mSorted_mDel _ (by assumption)

theorem applyAll_canonical {s : State} (h : s.Canonical) (es : List Effect) : (applyAll es s).Canonical := by
  induction es generalizing s with
  | nil => exact h
  | cons e es ih => exact ih (applyEffect_canonical h e)

end Sys2Proof.Machine
end

