-- ==== Sys2Proof/Laws/Exec.lean ====
section
/-! SUPPORT. What a meaning can do at all: go on with a list of effects, or, for an instruction word that no strand
issues, stop with `noStrand`. What a step can do follows: it never stops, and it keeps the canonical form. -/

namespace Sys2Proof.Machine

/-! ## Acts -/

theorem after_def (a : Act) (s : State) : after a s = applyAll (a s) s := rfl
@[simp] theorem after_skip (s : State) : after skip s = s := rfl
@[simp] theorem after_eff (e : Effect) (s : State) : after (eff e) s = applyEffect s e := rfl
@[simp] theorem after_andThen (a b : Act) (s : State) : after (andThen a b) s = after b (after a s) := by
  simp only [after, andThen, applyAll_append]
@[simp] theorem after_look (f : State → Act) (s : State) : after (look f) s = after (f s) s := rfl
@[simp] theorem after_forAll_nil {α : Type} (f : α → Act) (s : State) : after (forAll f []) s = s := rfl
@[simp] theorem after_forAll_cons {α : Type} (f : α → Act) (x : α) (xs : List α) (s : State) :
    after (forAll f (x :: xs)) s = after (forAll f xs) (after (f x) s) := after_andThen _ _ s
@[simp] theorem after_whenA_true (a : Act) (s : State) : after (whenA true a) s = after a s := rfl
@[simp] theorem after_whenA_false (a : Act) (s : State) : after (whenA false a) s = s := rfl
@[simp] theorem after_const (es : List Effect) (s : State) : after (fun _ => es) s = applyAll es s := rfl
@[simp] theorem finish_eq (s : State) (a : Act) : finish s a = .next (after a s) := rfl

theorem after_canonical {s : State} (h : s.Canonical) (a : Act) : (after a s).Canonical := applyAll_canonical h _

/-! ## Meanings -/

theorem atIssue_none {s : State} (h : issuer s = none) (f : Iss → Act) : atIssue s f = .fault .noStrand := by
  simp only [atIssue, h]
theorem atIssue_some {s : State} {i : Iss} (h : issuer s = some i) (f : Iss → Act) : atIssue s f = .next (after (f i) s) := by
  simp only [atIssue, h, finish_eq]

/-- A meaning goes on, or no strand issues. -/
def GoesOn (s : State) (o : Host.Outcome State Fault Refusal) : Prop :=
  (issuer s = none ∧ o = .fault .noStrand) ∨ ∃ es, o = .next (applyAll es s)

theorem goesOn_finish (s : State) (a : Act) : GoesOn s (finish s a) := .inr ⟨a s, rfl⟩
theorem goesOn_atIssue (s : State) (f : Iss → Act) : GoesOn s (atIssue s f) := by
  cases h : issuer s with
  | none => exact .inl ⟨h, atIssue_none h f⟩
  | some i => exact .inr ⟨f i s, atIssue_some h f⟩

theorem exec_goesOn (i : Instr) (s : State) : GoesOn s (exec i s) := by
  cases i <;> first | exact goesOn_atIssue _ _ | exact goesOn_finish _ _

end Sys2Proof.Machine
end

