-- ==== Sys2Proof/Laws/Register.lean ====
section
/-! SUPPORT. Registers: a read after a write, and what an instruction that acts on registers alone leaves as it was
(`RegisterFrame`), operation by operation. -/

namespace Sys2Proof.Machine

/-! ## Registers -/

@[simp] theorem vR_setV_self (x : Warp) (r l : Nat) (a : Word) : vR (setV x r l a) r l = a := by simp [vR, setV]
theorem vR_setV_ne (x : Warp) {r l q j : Nat} (a : Word) (h : 32 * q + j ≠ 32 * r + l) : vR (setV x r l a) q j = vR x q j := by
  simp [vR, setV, h]
theorem vR_setV_lane (x : Warp) {r l q j : Nat} (a : Word) (hl : l < 32) (hj : j < 32) (h : j ≠ l) :
    vR (setV x r l a) q j = vR x q j := vR_setV_ne x a (by omega)
theorem vR_setV_reg (x : Warp) {r l q j : Nat} (a : Word) (hl : l < 32) (hj : j < 32) (h : q ≠ r) :
    vR (setV x r l a) q j = vR x q j := vR_setV_ne x a (by omega)
@[simp] theorem sR_setS_self (x : Warp) (r : Nat) (a : Word) : sR (setS x r a) r = a := by simp [sR, setS]
@[simp] theorem sR_setS_ne (x : Warp) {r q : Nat} (a : Word) (h : q ≠ r) : sR (setS x r a) q = sR x q := by
  simp [sR, setS, h]

/-- A vector write touches `v` alone. -/
theorem setV_eq (x : Warp) (r l : Nat) (a : Word) : setV x r l a = { x with v := (setV x r l a).v } := rfl
theorem setS_eq (x : Warp) (r : Nat) (a : Word) : setS x r a = { x with s := (setS x r a).s } := rfl
theorem setP_eq (x : Warp) (n l : Nat) (b : Bool) : setP x n l b = { x with p := (setP x n l b).p } := by
  simp only [setP]; split <;> rfl
theorem setQ_eq (x : Warp) (n : Nat) (b : Bool) : setQ x n b = { x with q := (setQ x n b).q } := by
  simp only [setQ]; split <;> rfl
theorem setVal_eq (x : Warp) (w : Bool) (r l n : Nat) : setVal x w r l n = { x with v := (setVal x w r l n).v } := by
  cases w <;> rfl
theorem setSVal_eq (x : Warp) (w : Bool) (r n : Nat) : setSVal x w r n = { x with s := (setSVal x w r n).s } := by
  cases w <;> rfl

theorem vVal_setVal_self (x : Warp) (w : Bool) (r l n : Nat) :
    vVal (setVal x w r l n) w r l = n % 2 ^ (32 * span w) := by
  cases w
  · simp [vVal, setVal, span]
  · have h1 : vR (setV (setV x r l (BitVec.ofNat 32 n)) (r + 1) l (BitVec.ofNat 32 (n / 2 ^ 32))) r l = BitVec.ofNat 32 n := by
      rw [vR_setV_ne _ _ (by omega), vR_setV_self]
    simp only [vVal, setVal, if_true, h1, vR_setV_self, span, BitVec.toNat_ofNat]
    omega
theorem vR_setVal_ne (x : Warp) (w : Bool) {r l q j : Nat} (n : Nat) (hl : l < 32) (hj : j < 32)
    (h : j ≠ l ∨ q ∉ regs r w) : vR (setVal x w r l n) q j = vR x q j := by
  cases w
  · simp [regs] at h
    exact vR_setV_ne x _ (by omega)
  · simp [regs] at h
    simp only [setVal, if_true]
    rw [vR_setV_ne _ _ (by omega), vR_setV_ne _ _ (by omega)]
theorem sVal_setSVal_self (x : Warp) (w : Bool) (r n : Nat) : sVal (setSVal x w r n) w r = n % 2 ^ (32 * span w) := by
  cases w
  · simp [sVal, setSVal, span]
  · have h1 : sR (setS (setS x r (BitVec.ofNat 32 n)) (r + 1) (BitVec.ofNat 32 (n / 2 ^ 32))) r = BitVec.ofNat 32 n := by
      rw [sR_setS_ne _ _ (by omega), sR_setS_self]
    simp only [sVal, setSVal, if_true, h1, sR_setS_self, span, BitVec.toNat_ofNat]
    omega
theorem sR_setSVal_ne (x : Warp) (w : Bool) {r q : Nat} (n : Nat) (h : q ∉ regs r w) : sR (setSVal x w r n) q = sR x q := by
  cases w
  · simp only [regs] at h; simp only [setSVal]; exact sR_setS_ne x _ (by simpa using h)
  · simp only [regs, if_true, List.mem_cons, List.not_mem_nil, or_false, not_or] at h
    simp only [setSVal, if_true]
    rw [sR_setS_ne _ _ h.2, sR_setS_ne _ _ h.1]

/-- p7 and q7 read true (R43). -/
@[simp] theorem pR_seven (x : Warp) (l : Nat) : pR x 7 l = true := rfl
@[simp] theorem qR_seven (x : Warp) : qR x 7 = true := rfl
/-- A write of p7 or q7 is discarded (R43). -/
@[simp] theorem setP_seven (x : Warp) (l : Nat) (b : Bool) : setP x 7 l b = x := rfl
@[simp] theorem setQ_seven (x : Warp) (b : Bool) : setQ x 7 b = x := rfl

theorem hasLane_laneBit {l j : Nat} (hl : l < 32) : hasLane (laneBit l) j = decide (j = l) := by
  simp only [hasLane, laneBit, BitVec.getLsbD_shiftLeft]
  by_cases h : j = l
  · subst h; simp [hl]
  · by_cases h2 : j < l
    · simp [h, h2]
    · have : j - l ≠ 0 := by omega
      simp [h, h2, this]
@[simp] theorem hasLane_or (a b : Mask) (l : Nat) : hasLane (a ||| b) l = (hasLane a l || hasLane b l) := by simp [hasLane]
@[simp] theorem hasLane_and (a b : Mask) (l : Nat) : hasLane (a &&& b) l = (hasLane a l && hasLane b l) := by simp [hasLane]
theorem hasLane_not {a : Mask} {l : Nat} (h : l < 32) : hasLane (~~~a) l = !hasLane a l := by simp [hasLane, h]
theorem hasLane_lt {a : Mask} {l : Nat} (h : hasLane a l = true) : l < 32 := BitVec.lt_of_getLsbD h
@[simp] theorem hasLane_zero (l : Nat) : hasLane 0#32 l = false := by simp [hasLane]

/-- A predicate after a write: the lane written reads the value, p7 and every other lane and predicate as before. -/
theorem pR_setP (x : Warp) (n l : Nat) (b : Bool) (hl : l < 32) {m j : Nat} (hj : j < 32) :
    pR (setP x n l b) m j = if m = n ∧ j = l ∧ n ≠ 7 then b else pR x m j := by
  by_cases h7 : n = 7
  · subst h7; simp
  · simp only [setP, h7, if_false, pR]
    by_cases hm : m = n
    · subst hm
      simp only [mGet_mPut_self, h7, decide_false, Bool.false_or]
      by_cases e : j = l
      · subst e; cases b <;> simp [hasLane_laneBit hl, hasLane_not hl, h7]
      · cases b <;> simp [hasLane_laneBit hl, hasLane_not hj, e, h7]
    · simp [hm]
theorem qR_setQ (x : Warp) (n : Nat) (b : Bool) {m : Nat} (hn : n < 8) (hm : m < 8) :
    qR (setQ x n b) m = if m = n ∧ n ≠ 7 then b else qR x m := by
  by_cases h7 : n = 7
  · subst h7; simp
  · have e1 : (1 : BitVec 8) <<< n = BitVec.twoPow 8 n := rfl
    simp only [setQ, h7, if_false, qR, e1]
    by_cases e : m = n
    · subst e; cases b <;> simp [h7, hm, -BitVec.getLsbD_eq_getElem]
    · have e2 : n ≠ m := fun h => e h.symm
      cases b <;> simp [e, e2, hm, hn, -BitVec.getLsbD_eq_getElem]

/-! ## Gates -/

/-- Both checks hold when neither cause is raised. -/
theorem chkAll_none {a b : Bool} : chkAll a b = none ↔ a = true ∧ b = true := by
  cases a <;> cases b <;> simp [chkAll]

/-- An instruction that nothing holds back has its effect. -/
theorem gated_of_mayRun {s : State} {i : Iss} {chk : Option (Cause × Nat)} {u : Uses} {g : Mask} (h : MayRun s i chk u g)
    (a : Act) : gated s i chk u g a = a := by
  simp only [gated, h.legal, h.open_]

/-! ## The frame of register instructions -/

namespace RegisterFrame

variable {s t : State} {w b : Nat} {x : Warp}

theorem refl (h : mLook s.warps w = some x) : RegisterFrame s s w b x :=
  ⟨rfl, h, fun _ _ => rfl, fun _ _ => rfl, fun y hy => ⟨0, by simp [hy]⟩, fun _ => rfl, fun _ h => h⟩

theorem updWarp (h : RegisterFrame s t w b x) (f : Warp → Warp) :
    RegisterFrame s (after (updWarp w f) t) w b (f x) := by
  have e : after (Machine.updWarp w f) t = { t with warps := mIns t.warps w (f x) } := by
    simp [after, Machine.updWarp, h.self, applyEffect]
  rw [e]
  exact ⟨by conv => lhs; rw [h.rest], by simp, fun v hv => by simpa [hv] using h.warps v hv, h.blocks, h.block, h.cores, h.bad⟩

theorem bump (h : RegisterFrame s t w b x) : RegisterFrame s (after bump t) w b x := by
  have e : after Machine.bump t = { t with epoch := t.epoch + 1 } := rfl
  rw [e]
  exact ⟨by conv => lhs; rw [h.rest], h.self, h.warps, h.blocks, h.block, h.cores, h.bad⟩

theorem setBad (h : RegisterFrame s t w b x) (f : BadWord → Bool) :
    RegisterFrame s { t with bad := t.bad.filter f } w b x :=
  ⟨by conv => lhs; rw [h.rest], h.self, h.warps, h.blocks, h.block, h.cores, fun y hy => h.bad y (List.mem_filter.1 hy).1⟩

theorem clearBad (h : RegisterFrame s t w b x) (v : Nat) (rs : List Nat) (m : Mask) :
    RegisterFrame s (after (clearBad v rs m) t) w b x := by
  simp only [after, Machine.clearBad]
  split
  · exact h
  · exact setBad h _

theorem clearBadS (h : RegisterFrame s t w b x) (v : Nat) (rs : List Nat) :
    RegisterFrame s (after (clearBadS v rs) t) w b x := by
  simp only [after, Machine.clearBadS]
  split
  · exact h
  · exact setBad h _

theorem traceTest (h : RegisterFrame s t w b x) (c : Nat) (f : TraceCond → Bool) :
    RegisterFrame s (after (traceTest c f) t) w b x := by
  have key : ∀ (on : Bool) (y : Tracer), (coreOf t c).tracer = some y →
      RegisterFrame s { t with cores := mIns t.cores c { coreOf t c with tracer := some { y with on := on } } } w b x := by
    intro on y _
    refine ⟨by generalize mIns t.cores c _ = z; conv => lhs; rw [h.rest], h.self, h.warps, h.blocks, h.block, fun d => ?_, h.bad⟩
    by_cases hd : d = c
    · subst hd; simp only [coreOf, mGet_mIns_self]; have := h.cores d; simp only [coreOf] at this; rw [this]
    · simpa [coreOf, hd] using h.cores d
  simp only [Machine.traceTest, after_look]
  cases hy : (coreOf t c).tracer with
  | none => exact h
  | some y =>
    simp only [after, traceTurn, hy]
    generalize (if f y.args.stop = true then false else f y.args.start || y.on) = on
    by_cases ho : on = y.on
    · rw [if_pos ho]; exact h
    · rw [if_neg ho]; exact key on y hy

/-- The warp after a raise: pennants are added, never taken (R148). -/
theorem raisePennants (h : RegisterFrame s t w b x) (hb : x.block = b) (p : Byte) :
    RegisterFrame s (after (raisePennants w p) t) w b
        { x with nstat := x.nstat ||| p.zeroExtend 32 } := by
  subst hb
  simp only [Machine.raisePennants]
  split
  · next hp => subst hp; simpa using h
  · simp only [after_look, h.self, after_andThen]
    have h1 := h.traceTest x.core (fun c => decide (c.pennants &&& p ≠ 0))
    generalize after (Machine.traceTest x.core fun c => decide (c.pennants &&& p ≠ 0)) t = t1 at h1 ⊢
    simp only [after_eff, applyEffect]
    have h2 : RegisterFrame s { t1 with warps := mIns t1.warps w { x with nstat := x.nstat ||| p.zeroExtend 32 } } w x.block
        { x with nstat := x.nstat ||| p.zeroExtend 32 } :=
      ⟨by conv => lhs; rw [h1.rest], by simp, fun v hv => by simpa [hv] using h1.warps v hv, h1.blocks, h1.block, h1.cores, h1.bad⟩
    simp only [after, updBlock]
    split
    · next y hy =>
      simp only [applyAll_cons, applyAll_nil, applyEffect]
      refine ⟨by conv => lhs; rw [h1.rest], h2.self, h2.warps, fun c hc => by simpa [hc] using h2.blocks c hc, fun z hz => ?_,
        h2.cores, h2.bad⟩
      obtain ⟨q, hq⟩ := h2.block z hz
      refine ⟨q ||| p, ?_⟩
      simp only [mLook_mIns_self, Option.some.injEq]
      have : y = { z with bstat := z.bstat ||| q } := Option.some.inj (hy.symm.trans hq)
      rw [this, BitVec.or_assoc]
    · exact h2

end RegisterFrame

/-! ## Strands -/

theorem onStrand_eq (k : Nat) (f : Strand → Strand) (x : Warp) :
    onStrand k f x = { x with strands := (onStrand k f x).strands } := by
  simp only [onStrand]; split <;> rfl
theorem onStrand_here {k : Nat} {f : Strand → Strand} {x : Warp} {y : Strand} (h : mLook x.strands k = some y) :
    mLook (onStrand k f x).strands k = some (f y) := by simp [onStrand, h]
theorem onStrand_others (k : Nat) (f : Strand → Strand) (x : Warp) {j : Nat} (h : j ≠ k) :
    mLook (onStrand k f x).strands j = mLook x.strands j := by
  simp only [onStrand]; split <;> simp [h]

@[simp] theorem mergeShadow_pc (t : Strand) : (mergeShadow t).pc = t.pc := by
  simp only [mergeShadow]; (repeat' split) <;> rfl
@[simp] theorem mergeShadow_slot (t : Strand) : (mergeShadow t).slot = t.slot := by
  simp only [mergeShadow]; (repeat' split) <;> rfl
@[simp] theorem mergeShadow_members (t : Strand) : (mergeShadow t).members = t.members := by
  simp only [mergeShadow]; (repeat' split) <;> rfl
theorem stepSlots_congr (n : Nat) {t u : Strand} (hp : t.pc = u.pc) (hs : t.slot = u.slot) (hh : t.hdr = u.hdr) :
    (stepSlots n t).pc = (stepSlots n u).pc ∧ (stepSlots n t).slot = (stepSlots n u).slot := by
  simp only [stepSlots, hp, hs, hh]; split <;> simp
@[simp] theorem stepSlots_members (n : Nat) (t : Strand) : (stepSlots n t).members = t.members := by
  simp only [stepSlots]; split <;> rfl

/-- What the issue point says about the state. -/
theorem issuer_spec {s : State} {i : Iss} (h : issuer s = some i) :
    s.cur = some (i.w, i.k) ∧ mLook s.warps i.w = some i.warp ∧ mLook i.warp.strands i.k = some i.st ∧
    mLook s.blocks i.warp.block = some i.blk ∧ mLook s.launches i.blk.launch = some i.lau ∧
    mLook s.ctxs i.blk.ctx = some i.ctx := by
  simp only [issuer, issAt] at h
  split at h <;> try cases h
  next w k hc =>
  split at h <;> try cases h
  next x hx =>
  split at h <;> try cases h
  next t b ht hb =>
  split at h <;> try cases h
  next l c hl hcx =>
  exact ⟨hc, hx, ht, hb, hl, hcx⟩

/-- A strand at its instruction: the same place, members and header; only the written-mask may differ. -/
structure Unmoved (i : Iss) (x : Warp) : Prop where
  here : ∃ y, mLook x.strands i.k = some y ∧ y.pc = i.st.pc ∧ y.slot = i.st.slot ∧ y.hdr = i.st.hdr ∧
    y.members = i.st.members
  others : ∀ k, k ≠ i.k → mLook x.strands k = mLook i.warp.strands k

theorem unmoved_issuer {s : State} {i : Iss} (h : issuer s = some i) {x : Warp} (hx : x.strands = i.warp.strands) :
    Unmoved i x := by
  obtain ⟨-, -, h3, -⟩ := issuer_spec h
  exact ⟨⟨i.st, by rw [hx]; exact h3, rfl, rfl, rfl, rfl⟩, fun k _ => by rw [hx]⟩

/-- Noting a continuation's writes moves nothing but a written-mask (R26). -/
theorem RegisterFrame.noteWrites {s t : State} {b : Nat} {x : Warp} {i : Iss} (h : RegisterFrame s t i.w b x)
    (hm : Unmoved i x) (u : Uses) (g : Mask) :
    ∃ y, RegisterFrame s (after (noteWrites i u g) t) i.w b y ∧ y = { x with strands := y.strands } ∧ Unmoved i y := by
  simp only [Machine.noteWrites]
  split
  · exact ⟨x, h, rfl, hm⟩
  · refine ⟨_, h.updWarp _, onStrand_eq _ _ _, ?_, fun k hk => (onStrand_others _ _ _ hk).trans (hm.others k hk)⟩
    obtain ⟨y, h1, h2⟩ := hm.here
    exact ⟨_, onStrand_here h1, h2⟩

/-- Continuing after `n` slots moves the strand and nothing else (R60). -/
theorem RegisterFrame.advance {s t : State} {b : Nat} {x : Warp} {i : Iss} (h : RegisterFrame s t i.w b x)
    (hm : Unmoved i x) (n : Nat) :
    ∃ y, RegisterFrame s (after (advance i n) t) i.w b y ∧ y = { x with strands := y.strands } ∧ Past i n y := by
  simp only [Machine.advance, after_andThen]
  refine ⟨_, (h.updWarp _).bump, onStrand_eq _ _ _, ?_, fun k hk => (onStrand_others _ _ _ hk).trans (hm.others k hk)⟩
  obtain ⟨y, h1, h2, h3, h4, h5⟩ := hm.here
  exact ⟨_, onStrand_here h1, by simp [(stepSlots_congr n h2 h3 h4).1], by simp [(stepSlots_congr n h2 h3 h4).2], by simp [h5]⟩

/-- Moving to a header moves the strand and nothing else. -/
theorem RegisterFrame.jump {s t : State} {b : Nat} {x : Warp} {i : Iss} (h : RegisterFrame s t i.w b x)
    (hm : Unmoved i x) (pc : DWord) :
    ∃ y, RegisterFrame s (after (jump i pc) t) i.w b y ∧ y = { x with strands := y.strands } ∧ Stands i pc none y := by
  simp only [Machine.jump, after_andThen]
  refine ⟨_, (h.updWarp _).bump, onStrand_eq _ _ _, ?_, fun k hk => (onStrand_others _ _ _ hk).trans (hm.others k hk)⟩
  obtain ⟨y, h1, -, -, -, h5⟩ := hm.here
  exact ⟨_, onStrand_here h1, by simp [goto], by simp [goto], by simp [goto, h5]⟩

/-- How every register instruction ends: its writes are noted, their error marks clear, pennants rise, and the strand
goes on. -/
theorem RegisterFrame.ends {s t : State} {b : Nat} {x : Warp} {i : Iss} (h : RegisterFrame s t i.w b x)
    (hm : Unmoved i x) (hb : x.block = b) (u : Uses) (g : Mask) (p : Byte) (n : Nat) :
    ∃ y, RegisterFrame s (after (andThen (wrote i u g) (andThen (Machine.raisePennants i.w p) (Machine.advance i n))) t)
        i.w b y ∧ y = { x with strands := y.strands, nstat := x.nstat ||| p.zeroExtend 32 } ∧ Past i n y := by
  simp only [wrote, after_andThen]
  obtain ⟨y, h1, e1, m1⟩ := h.noteWrites hm u g
  have h2 := (h1.clearBad i.w (if g = 0 then [] else u.vw) g).raisePennants (by rw [e1]; exact hb) p
  have m2 : Unmoved i { y with nstat := y.nstat ||| p.zeroExtend 32 } := ⟨m1.here, m1.others⟩
  obtain ⟨z, h3, e3, m3⟩ := h2.advance m2 n
  refine ⟨z, h3, ?_, m3⟩
  rw [e3, e1]

theorem RegisterFrame.endsQuiet {s t : State} {b : Nat} {x : Warp} {i : Iss} (h : RegisterFrame s t i.w b x)
    (hm : Unmoved i x) (hb : x.block = b) (u : Uses) (g : Mask) (n : Nat) :
    ∃ y, RegisterFrame s (after (andThen (wrote i u g) (Machine.advance i n)) t) i.w b y ∧
      y = { x with strands := y.strands } ∧ Past i n y := by
  obtain ⟨y, h1, e, m⟩ := h.ends hm hb u g 0 n
  exact ⟨y, by simpa [Machine.raisePennants] using h1, by rw [e]; simp, m⟩

/-! ## Results of many lanes -/

theorem mem_lanesIn {m : Mask} {l : Nat} : l ∈ lanesIn m ↔ l < 32 ∧ hasLane m l = true := by simp [lanesIn]
theorem lanesIn_nodup (m : Mask) : (lanesIn m).Nodup := List.Pairwise.filter _ List.nodup_range

theorem putResults_eq (x : Warp) (w : Bool) (d : Nat) (outs : List (Nat × Res × Word)) :
    putResults x w d outs = { x with v := (putResults x w d outs).v, lanesRand := (putResults x w d outs).lanesRand } := by
  induction outs generalizing x with
  | nil => rfl
  | cons o os ih =>
    simp only [putResults, List.foldl_cons] at ih ⊢
    rw [ih]
    split <;> rw [setVal_eq]

theorem vR_congr {x y : Warp} (h : x.v = y.v) (r l : Nat) : vR x r l = vR y r l := by simp [vR, h]
theorem vVal_congr {x y : Warp} (h : x.v = y.v) (w : Bool) (r l : Nat) : vVal x w r l = vVal y w r l := by
  simp [vVal, vR, h]
/-- A value is what its registers hold. -/
theorem vVal_of_vR {x y : Warp} {w : Bool} {r l : Nat} (h : ∀ q ∈ regs r w, vR x q l = vR y q l) :
    vVal x w r l = vVal y w r l := by
  cases w
  · simp [vVal, regs] at h ⊢; rw [h]
  · simp [vVal, regs] at h ⊢; rw [h.1, h.2]

/-- Registers that a list of lane results does not name keep their values. -/
theorem vR_putResults_ne (x : Warp) (w : Bool) (d : Nat) (outs : List (Nat × Res × Word)) {q j : Nat} (hj : j < 32)
    (hl : ∀ o ∈ outs, o.1 < 32) (h : q ∉ regs d w ∨ ∀ o ∈ outs, o.1 ≠ j) :
    vR (putResults x w d outs) q j = vR x q j := by
  induction outs generalizing x with
  | nil => rfl
  | cons o os ih =>
    have hs := ih (if mGet 0 (setVal x w d o.1 o.2.1.val).lanesRand o.1 = o.2.2 then setVal x w d o.1 o.2.1.val else
        { setVal x w d o.1 o.2.1.val with lanesRand := mPut 0 (setVal x w d o.1 o.2.1.val).lanesRand o.1 o.2.2 })
      (fun p hp => hl p (by simp [hp])) (h.imp id fun g p hp => g p (by simp [hp]))
    simp only [putResults, List.foldl_cons] at hs ⊢
    rw [hs]
    have e : vR (setVal x w d o.1 o.2.1.val) q j = vR x q j :=
      vR_setVal_ne x w _ (hl o (by simp)) hj (by
        rcases h with h | h
        · exact .inr h
        · exact .inl fun e => h o (by simp) e.symm)
    split
    · exact e
    · exact (vR_congr rfl _ _).trans e

/-- A lane's result stands in its register or pair. -/
theorem vVal_putResults (x : Warp) (w : Bool) (d : Nat) (outs : List (Nat × Res × Word)) (hl : ∀ o ∈ outs, o.1 < 32)
    (hn : (outs.map (·.1)).Nodup) {o : Nat × Res × Word} (ho : o ∈ outs) :
    vVal (putResults x w d outs) w d o.1 = o.2.1.val % 2 ^ (32 * span w) := by
  induction outs generalizing x with
  | nil => cases ho
  | cons p os ih =>
    simp only [List.map_cons, List.nodup_cons] at hn
    have hs := fun y => ih y (fun p hp => hl p (by simp [hp])) hn.2
    simp only [putResults, List.foldl_cons] at hs ⊢
    rcases List.mem_cons.1 ho with rfl | hm
    · have e := fun y => vVal_of_vR (w := w) (r := d) (l := o.1) fun q (hq : q ∈ regs d w) =>
        vR_putResults_ne y w d os (hl o (by simp)) (fun p hp => hl p (by simp [hp]))
          (.inr fun p hp (e : p.1 = o.1) => hn.1 (e ▸ List.mem_map_of_mem hp))
      simp only [putResults] at e
      rw [e]
      split
      · exact vVal_setVal_self _ _ _ _ _
      · exact (vVal_congr rfl _ _ _).trans (vVal_setVal_self _ _ _ _ _)
    · exact hs _ hm

/-- Each lane's stochastic state is the one its result left (R140). -/
theorem lanesRand_putResults (x : Warp) (w : Bool) (d : Nat) (outs : List (Nat × Res × Word))
    (hn : (outs.map (·.1)).Nodup) (l : Nat) :
    mGet 0 (putResults x w d outs).lanesRand l =
      ((outs.find? fun o => decide (o.1 = l)).map (·.2.2)).getD (mGet 0 x.lanesRand l) := by
  induction outs generalizing x with
  | nil => rfl
  | cons o os ih =>
    simp only [List.map_cons, List.nodup_cons] at hn
    have hs := fun y => ih y hn.2
    simp only [putResults, List.foldl_cons] at hs ⊢
    rw [hs]
    have hv : (setVal x w d o.1 o.2.1.val).lanesRand = x.lanesRand := by rw [setVal_eq]
    by_cases e : o.1 = l
    · have : os.find? (fun p => decide (p.1 = l)) = none := by
        simp only [List.find?_eq_none, decide_eq_true_eq]
        exact fun p hp h => hn.1 ((h.trans e.symm) ▸ List.mem_map_of_mem hp)
      simp only [this, Option.map_none, Option.getD_none, List.find?_cons, e, decide_true]
      subst e
      split
      · next h => simpa using h
      · simp
    · simp only [List.find?_cons, e, decide_false]
      congr 1
      split
      · rw [hv]
      · simp only [hv]; exact mGet_mPut_ne _ _ _ fun h => e h.symm

theorem putLanes_eq (x : Warp) (w : Bool) (d : Nat) (outs : List (Nat × Nat)) :
    putLanes x w d outs = { x with v := (putLanes x w d outs).v } := by
  induction outs generalizing x with
  | nil => rfl
  | cons o os ih =>
    simp only [putLanes, List.foldl_cons] at ih ⊢
    rw [ih, setVal_eq]
theorem vR_putLanes_ne (x : Warp) (w : Bool) (d : Nat) (outs : List (Nat × Nat)) {q j : Nat} (hj : j < 32)
    (hl : ∀ o ∈ outs, o.1 < 32) (h : q ∉ regs d w ∨ ∀ o ∈ outs, o.1 ≠ j) :
    vR (putLanes x w d outs) q j = vR x q j := by
  induction outs generalizing x with
  | nil => rfl
  | cons o os ih =>
    have hs := ih (setVal x w d o.1 o.2) (fun p hp => hl p (by simp [hp])) (h.imp id fun g p hp => g p (by simp [hp]))
    simp only [putLanes, List.foldl_cons] at hs ⊢
    rw [hs]
    exact vR_setVal_ne x w _ (hl o (by simp)) hj (by
      rcases h with h | h
      · exact .inr h
      · exact .inl fun e => h o (by simp) e.symm)
theorem vVal_putLanes (x : Warp) (w : Bool) (d : Nat) (outs : List (Nat × Nat)) (hl : ∀ o ∈ outs, o.1 < 32)
    (hn : (outs.map (·.1)).Nodup) {o : Nat × Nat} (ho : o ∈ outs) :
    vVal (putLanes x w d outs) w d o.1 = o.2 % 2 ^ (32 * span w) := by
  induction outs generalizing x with
  | nil => cases ho
  | cons p os ih =>
    simp only [List.map_cons, List.nodup_cons] at hn
    have hs := fun y => ih y (fun p hp => hl p (by simp [hp])) hn.2
    simp only [putLanes, List.foldl_cons] at hs ⊢
    rcases List.mem_cons.1 ho with rfl | hm
    · have e := fun y => vVal_of_vR (w := w) (r := d) (l := o.1) fun q (hq : q ∈ regs d w) =>
        vR_putLanes_ne y w d os (hl o (by simp)) (fun p hp => hl p (by simp [hp]))
          (.inr fun p hp (e : p.1 = o.1) => hn.1 (e ▸ List.mem_map_of_mem hp))
      simp only [putLanes] at e
      rw [e]
      exact vVal_setVal_self _ _ _ _ _
    · exact hs _ hm

/-- One value in every lane of a set. -/
theorem vVal_putLanes_map (x : Warp) (w : Bool) (d : Nat) (g : Mask) (f : Nat → Nat) {l : Nat} (h : hasLane g l = true) :
    vVal (putLanes x w d ((lanesIn g).map fun l => (l, f l))) w d l = f l % 2 ^ (32 * span w) :=
  vVal_putLanes x w d _ (fun o ho => by obtain ⟨j, hj, rfl⟩ := List.mem_map.1 ho; exact (mem_lanesIn.1 hj).1)
    (by simpa [Function.comp_def] using lanesIn_nodup g) (List.mem_map.2 ⟨l, mem_lanesIn.2 ⟨hasLane_lt h, h⟩, rfl⟩)
theorem vR_putLanes_map_ne (x : Warp) (w : Bool) (d : Nat) (g : Mask) (f : Nat → Nat) {q l : Nat} (hl : l < 32)
    (h : hasLane g l = false ∨ q ∉ regs d w) :
    vR (putLanes x w d ((lanesIn g).map fun l => (l, f l))) q l = vR x q l :=
  vR_putLanes_ne x w d _ hl (fun o ho => by obtain ⟨j, hj, rfl⟩ := List.mem_map.1 ho; exact (mem_lanesIn.1 hj).1)
    (h.symm.imp id fun h o ho e => by
      obtain ⟨j, hj, rfl⟩ := List.mem_map.1 ho
      rw [← e, (mem_lanesIn.1 hj).2] at h; cases h)

/-- One predicate written in every lane of a set. -/
theorem foldl_setP_eq (ls : List Nat) (n : Nat) (b : Nat → Bool) (x : Warp) :
    ls.foldl (fun y l => setP y n l (b l)) x = { x with p := (ls.foldl (fun y l => setP y n l (b l)) x).p } := by
  induction ls generalizing x with
  | nil => rfl
  | cons l ls ih => rw [List.foldl_cons, ih, setP_eq]
theorem pR_foldl_setP (ls : List Nat) (hls : ∀ l ∈ ls, l < 32) (n : Nat) (b : Nat → Bool) (x : Warp) (m : Nat) {j : Nat}
    (hj : j < 32) :
    pR (ls.foldl (fun y l => setP y n l (b l)) x) m j = if m = n ∧ j ∈ ls ∧ n ≠ 7 then b j else pR x m j := by
  induction ls generalizing x with
  | nil => simp
  | cons l ls ih =>
    rw [List.foldl_cons, ih (fun k hk => hls k (by simp [hk])), pR_setP _ _ _ _ (hls l (by simp)) hj]
    by_cases h1 : m = n <;> by_cases h2 : j = l <;> by_cases h3 : j ∈ ls <;> by_cases h4 : n = 7 <;> simp [h1, h2, h3, h4]

/-! ## Regions -/

theorem mLook_mapVal {α : Type} (m : Map α) (c : Nat → Bool) (f : Nat → α → α) (l : Nat) :
    mLook (m.map fun e => if c e.1 then (e.1, f e.1 e.2) else e) l =
      if c l then (mLook m l).map (f l) else mLook m l := by
  induction m with
  | nil => simp [mLook]
  | cons e m ih =>
    obtain ⟨j, a⟩ := e
    by_cases h : l = j
    · subst h; by_cases hc : c l <;> simp [mLook, hc]
    · by_cases hc : c j <;> simp [mLook, hc, h] <;> exact ih

/-- The regions of the lanes `m` change by `f`; the others do not. -/
theorem RegisterFrame.updRegions {s t : State} {w b : Nat} {x : Warp} (h : RegisterFrame s t w b x) (m : Mask)
    (f : Nat → Region → Region) :
    ∃ y, RegisterFrame s (after (Machine.updRegions w m f) t) w b y ∧ y = { x with regions := y.regions } ∧
      ∀ l, mLook y.regions l = if hasLane m l then (mLook x.regions l).map (f l) else mLook x.regions l := by
  refine ⟨_, h.updWarp _, ?_, fun l => ?_⟩
  · by_cases e : x.regions.isEmpty <;> simp [e]
  · by_cases e : x.regions.isEmpty
    · simp only [e, if_true]; rw [List.isEmpty_iff.1 e]; simp [mLook]
    · simp only [e, Bool.false_eq_true, if_false]; exact mLook_mapVal x.regions (hasLane m) f l

end Sys2Proof.Machine
end

