-- ==== Sys2Proof/Laws/Keeps.lean ====
section
/-! SUPPORT. Relations between the state before and after that an act keeps, put together from its parts: once a shared
operation is known to keep a relation, everything made of such operations does. -/

namespace Sys2Proof.Machine

/-- A relation between two states that holds of a state and itself and that chains. -/
structure Chain (Q : State → State → Prop) : Prop where
  refl : ∀ s, Q s s
  trans : ∀ {s t u}, Q s t → Q t u → Q s u

/-- An act keeps `Q`: the state it leaves stands in `Q` to the state it found. -/
def Keeps (Q : State → State → Prop) (a : Act) : Prop := ∀ s, Q s (after a s)

section
variable {Q : State → State → Prop} (h : Chain Q)
include h

theorem keeps_skip : Keeps Q skip := fun s => h.refl s
theorem keeps_nil : Keeps Q (fun _ => []) := fun s => h.refl s
theorem keeps_andThen {a b : Act} (ha : Keeps Q a) (hb : Keeps Q b) : Keeps Q (andThen a b) := fun s => by
  rw [after_andThen]; exact h.trans (ha s) (hb _)
theorem keeps_forAll {α : Type} {f : α → Act} {xs : List α} (hf : ∀ x ∈ xs, Keeps Q (f x)) : Keeps Q (forAll f xs) := by
  induction xs with
  | nil => exact keeps_skip h
  | cons x xs ih => exact keeps_andThen h (hf x (by simp)) (ih fun y hy => hf y (by simp [hy]))
theorem keeps_whenA {b : Bool} {a : Act} (ha : b = true → Keeps Q a) : Keeps Q (whenA b a) := by
  cases b
  · exact keeps_skip h
  · exact ha rfl
omit h in
theorem keeps_look {f : State → Act} (hf : ∀ s, Keeps Q (f s)) : Keeps Q (look f) := fun s => hf s s
omit h in
theorem keeps_ite {c : Prop} [Decidable c] {a b : Act} (ha : c → Keeps Q a) (hb : ¬c → Keeps Q b) :
    Keeps Q (if c then a else b) := by
  split
  · exact ha ‹_›
  · exact hb ‹_›

/-- An act whose single effects keep `Q` keeps it. -/
theorem keeps_effects {a : Act} (ha : ∀ s, ∀ e ∈ a s, ∀ t, Q t (applyEffect t e)) : Keeps Q a := fun s => by
  have : ∀ es : List Effect, (∀ e ∈ es, ∀ t, Q t (applyEffect t e)) → ∀ t, Q t (applyAll es t) := by
    intro es
    induction es with
    | nil => intro _ t; exact h.refl t
    | cons e es ih =>
      intro he t
      rw [applyAll_cons]
      exact h.trans (he e (by simp) t) (ih (fun d hd => he d (by simp [hd])) _)
  exact this _ (ha s) s
end

/-! ## Untouched tables -/

/-- Nothing but the tables of `ts` differs. -/
structure Only (ts : List Table) (s t : State) : Prop where
  mem : .mem ∉ ts → t.mem = s.mem
  warps : .warps ∉ ts → t.warps = s.warps
  blocks : .blocks ∉ ts → t.blocks = s.blocks
  groups : .groups ∉ ts → t.groups = s.groups
  launches : .launches ∉ ts → t.launches = s.launches
  ctxs : .ctxs ∉ ts → t.ctxs = s.ctxs
  cores : .cores ∉ ts → t.cores = s.cores
  parts : .parts ∉ ts → t.parts = s.parts
  queues : .queues ∉ ts → t.queues = s.queues
  pool : .pool ∉ ts → t.pool = s.pool
  dir : .dir ∉ ts → t.dir = s.dir
  ops : .ops ∉ ts → t.ops = s.ops
  engs : .engs ∉ ts → t.engs = s.engs
  locks : .locks ∉ ts → t.locks = s.locks
  faults : .faults ∉ ts → t.faults = s.faults
  bad : .bad ∉ ts → t.bad = s.bad
  mgmt : .mgmt ∉ ts → t.mgmt = s.mgmt
  now : .now ∉ ts → t.now = s.now
  epoch : .epoch ∉ ts → t.epoch = s.epoch
  nextId : .nextId ∉ ts → t.nextId = s.nextId
  nextLaunch : .nextLaunch ∉ ts → t.nextLaunch = s.nextLaunch
  tick : t.tick = s.tick
  cur : t.cur = s.cur
  agenda : t.agenda = s.agenda

theorem chain_only (ts : List Table) : Chain (Only ts) where
  refl s := by constructor <;> first | exact fun _ => rfl | rfl
  trans h g := by
    constructor
    all_goals first
      | exact g.tick.trans h.tick
      | exact g.cur.trans h.cur
      | exact g.agenda.trans h.agenda
      | skip
    all_goals intro n
    · exact (g.mem n).trans (h.mem n)
    · exact (g.warps n).trans (h.warps n)
    · exact (g.blocks n).trans (h.blocks n)
    · exact (g.groups n).trans (h.groups n)
    · exact (g.launches n).trans (h.launches n)
    · exact (g.ctxs n).trans (h.ctxs n)
    · exact (g.cores n).trans (h.cores n)
    · exact (g.parts n).trans (h.parts n)
    · exact (g.queues n).trans (h.queues n)
    · exact (g.pool n).trans (h.pool n)
    · exact (g.dir n).trans (h.dir n)
    · exact (g.ops n).trans (h.ops n)
    · exact (g.engs n).trans (h.engs n)
    · exact (g.locks n).trans (h.locks n)
    · exact (g.faults n).trans (h.faults n)
    · exact (g.bad n).trans (h.bad n)
    · exact (g.mgmt n).trans (h.mgmt n)
    · exact (g.now n).trans (h.now n)
    · exact (g.epoch n).trans (h.epoch n)
    · exact (g.nextId n).trans (h.nextId n)
    · exact (g.nextLaunch n).trans (h.nextLaunch n)

theorem only_effect {ts : List Table} (s : State) {e : Effect} (h : e.table ∈ ts) : Only ts s (applyEffect s e) := by
  constructor
  all_goals first | exact applyEffect_keeps_tick s e | exact applyEffect_keeps_cur s e | exact applyEffect_keeps_agenda s e | skip
  all_goals intro n
  · exact applyEffect_keeps_mem s fun x => n (x ▸ h)
  · exact applyEffect_keeps_warps s fun x => n (x ▸ h)
  · exact applyEffect_keeps_blocks s fun x => n (x ▸ h)
  · exact applyEffect_keeps_groups s fun x => n (x ▸ h)
  · exact applyEffect_keeps_launches s fun x => n (x ▸ h)
  · exact applyEffect_keeps_ctxs s fun x => n (x ▸ h)
  · exact applyEffect_keeps_cores s fun x => n (x ▸ h)
  · exact applyEffect_keeps_parts s fun x => n (x ▸ h)
  · exact applyEffect_keeps_queues s fun x => n (x ▸ h)
  · exact applyEffect_keeps_pool s fun x => n (x ▸ h)
  · exact applyEffect_keeps_dir s fun x => n (x ▸ h)
  · exact applyEffect_keeps_ops s fun x => n (x ▸ h)
  · exact applyEffect_keeps_engs s fun x => n (x ▸ h)
  · exact applyEffect_keeps_locks s fun x => n (x ▸ h)
  · exact applyEffect_keeps_faults s fun x => n (x ▸ h)
  · exact applyEffect_keeps_bad s fun x => n (x ▸ h)
  · exact applyEffect_keeps_mgmt s fun x => n (x ▸ h)
  · exact applyEffect_keeps_now s fun x => n (x ▸ h)
  · exact applyEffect_keeps_epoch s fun x => n (x ▸ h)
  · exact applyEffect_keeps_nextId s fun x => n (x ▸ h)
  · exact applyEffect_keeps_nextLaunch s fun x => n (x ▸ h)

/-- An act whose effects are all on the tables of `ts` touches no other. -/
theorem keeps_only {ts : List Table} {a : Act} (ha : ∀ s, ∀ e ∈ a s, e.table ∈ ts) : Keeps (Only ts) a :=
  keeps_effects (chain_only ts) fun s e he t => only_effect t (ha s e he)

/-! ## What the effects of an act are -/

/-- Every effect of the act satisfies `P`. -/
def Each (P : Effect → Prop) (a : Act) : Prop := ∀ s, ∀ e ∈ a s, P e

section
variable {P : Effect → Prop}

theorem each_skip : Each P skip := fun _ _ he => by cases he
theorem each_nil : Each P (fun _ => []) := fun _ _ he => by cases he
theorem each_eff {e : Effect} (h : P e) : Each P (eff e) := fun _ d hd => by
  simp only [eff, List.mem_singleton] at hd; exact hd ▸ h
theorem each_andThen {a b : Act} (ha : Each P a) (hb : Each P b) : Each P (andThen a b) := fun s e he => by
  simp only [andThen, List.mem_append] at he
  exact he.elim (ha s e) (hb _ e)
theorem each_look {f : State → Act} (hf : ∀ s, Each P (f s)) : Each P (look f) := fun s => hf s s
theorem each_fun {f : State → Act} (hf : ∀ s, Each P (f s)) : Each P (fun s => f s s) := fun s => hf s s
theorem each_forAll {α : Type} {f : α → Act} {xs : List α} (hf : ∀ x, Each P (f x)) : Each P (forAll f xs) := by
  induction xs with
  | nil => exact each_skip
  | cons x xs ih => exact each_andThen (hf x) ih
theorem each_whenA {b : Bool} {a : Act} (ha : Each P a) : Each P (whenA b a) := by
  cases b
  · exact each_skip
  · exact ha
theorem each_ite {c : Prop} [Decidable c] {a b : Act} (ha : Each P a) (hb : Each P b) : Each P (if c then a else b) := by
  split
  · exact ha
  · exact hb
theorem each_updWarp {w : Nat} {f : Warp → Warp} (h : ∀ x, P (.warp w x)) : Each P (updWarp w f) := fun s e he => by
  simp only [updWarp] at he; split at he
  · rw [List.mem_singleton.1 he]; exact h _
  · cases he
theorem each_updStrand {w k : Nat} {f : Strand → Strand} (h : ∀ x, P (.warp w x)) : Each P (updStrand w k f) :=
  each_updWarp h
theorem each_updBlock {b : Nat} {f : Block → Block} (h : ∀ x, P (.block b x)) : Each P (updBlock b f) := fun s e he => by
  simp only [updBlock] at he; split at he
  · rw [List.mem_singleton.1 he]; exact h _
  · cases he
theorem each_updGroup {b : Nat} {f : Group → Group} (h : ∀ x, P (.group b x)) : Each P (updGroup b f) := fun s e he => by
  simp only [updGroup] at he; split at he
  · rw [List.mem_singleton.1 he]; exact h _
  · cases he
theorem each_updLaunch {b : Nat} {f : Launch → Launch} (h : ∀ x, P (.launch b x)) : Each P (updLaunch b f) :=
  fun s e he => by
  simp only [updLaunch] at he; split at he
  · rw [List.mem_singleton.1 he]; exact h _
  · cases he
theorem each_updCtx {b : Nat} {f : Context → Context} (h : ∀ x, P (.ctx b x)) : Each P (updCtx b f) := fun s e he => by
  simp only [updCtx] at he; split at he
  · rw [List.mem_singleton.1 he]; exact h _
  · cases he
theorem each_updCore {b : Nat} {f : Core → Core} (h : ∀ x, P (.core b x)) : Each P (updCore b f) := fun s e he => by
  simp only [updCore, List.mem_singleton] at he; exact he ▸ h _
theorem each_updEng {b : Nat} {f : EngOp → EngOp} (h : ∀ x, P (.eng b x)) : Each P (updEng b f) := fun s e he => by
  simp only [updEng] at he; split at he
  · rw [List.mem_singleton.1 he]; exact h _
  · cases he
theorem each_updQueue {b : Nat} {f : Queue → Queue} (h : ∀ x, P (.queue b x)) : Each P (updQueue b f) := fun s e he => by
  simp only [updQueue] at he; split at he
  · rw [List.mem_singleton.1 he]; exact h _
  · cases he
theorem each_updMgmt {f : Mgmt → Mgmt} (h : ∀ x, P (.mgmt x)) : Each P (updMgmt f) := fun s e he => by
  simp only [updMgmt, List.mem_singleton] at he; exact he ▸ h _
theorem each_bump (h : P .bump) : Each P bump := each_eff h
theorem each_mono {R : Effect → Prop} {a : Act} (h : Each P a) (hr : ∀ e, P e → R e) : Each R a :=
  fun s e he => hr e (h s e he)

/-- Going on to the next slot, or to a header, writes the warp alone. -/
theorem each_advance {i : Iss} {n : Nat} (hw : ∀ x, P (.warp i.w x)) (hb : P .bump) : Each P (advance i n) :=
  each_andThen (each_updStrand hw) (each_bump hb)
theorem each_jump {i : Iss} {pc : DWord} (hw : ∀ x, P (.warp i.w x)) (hb : P .bump) : Each P (jump i pc) :=
  each_andThen (each_updStrand hw) (each_bump hb)
theorem each_stallOn {i : Iss} {n : Nat} {rs : List Nat} (hw : ∀ x, P (.warp i.w x)) : Each P (stallOn i n rs) := by
  unfold stallOn; exact each_look fun _ => each_updStrand hw
theorem each_stall {i : Iss} {n : Nat} (hw : ∀ x, P (.warp i.w x)) : Each P (stall i n) := each_stallOn hw
theorem each_waitWith {i : Iss} {x : Wait} (hw : ∀ x, P (.warp i.w x)) : Each P (waitWith i x) :=
  each_look fun _ => each_updStrand hw
end

theorem only_of_each {ts : List Table} {a : Act} (h : Each (fun e => e.table ∈ ts) a) (s : State) : Only ts s (after a s) :=
  keeps_only h s

/-- An act that writes no warp but `w` leaves every other warp as it was. -/
theorem warps_of_each {w : Nat} {a : Act} (h : Each (fun e => e.table = .warps → ∃ x, e = .warp w x) a) (s : State)
    {v : Nat} (hv : v ≠ w) : mLook (after a s).warps v = mLook s.warps v := by
  have : ∀ es : List Effect, (∀ e ∈ es, e.table = .warps → ∃ x, e = .warp w x) →
      ∀ t : State, mLook (applyAll es t).warps v = mLook t.warps v := by
    intro es
    induction es with
    | nil => intro _ _; rfl
    | cons e es ih =>
      intro he t
      rw [applyAll_cons, ih (fun d hd => he d (by simp [hd]))]
      by_cases ht : e.table = .warps
      · obtain ⟨x, rfl⟩ := he e (by simp) ht
        simp [hv]
      · rw [applyEffect_keeps_warps t ht]
  exact this _ (h s) s

/-- An act that writes no block but `b` leaves every other block as it was. -/
theorem blocks_of_each {b : Nat} {a : Act} (h : Each (fun e => e.table = .blocks → ∃ x, e = .block b x) a) (s : State)
    {v : Nat} (hv : v ≠ b) : mLook (after a s).blocks v = mLook s.blocks v := by
  have : ∀ es : List Effect, (∀ e ∈ es, e.table = .blocks → ∃ x, e = .block b x) →
      ∀ t : State, mLook (applyAll es t).blocks v = mLook t.blocks v := by
    intro es
    induction es with
    | nil => intro _ _; rfl
    | cons e es ih =>
      intro he t
      rw [applyAll_cons, ih (fun d hd => he d (by simp [hd]))]
      by_cases ht : e.table = .blocks
      · obtain ⟨x, rfl⟩ := he e (by simp) ht
        simp [hv]
      · rw [applyEffect_keeps_blocks t ht]
  exact this _ (h s) s

/-! ## Single updates -/

theorem after_updWarp {w : Nat} {f : Warp → Warp} {s : State} {x : Warp} (h : mLook s.warps w = some x) :
    after (updWarp w f) s = { s with warps := mIns s.warps w (f x) } := by simp [after, updWarp, h, applyEffect]
theorem after_updWarp_none {w : Nat} {f : Warp → Warp} {s : State} (h : mLook s.warps w = none) :
    after (updWarp w f) s = s := by simp [after, updWarp, h]
theorem after_updBlock {b : Nat} {f : Block → Block} {s : State} {x : Block} (h : mLook s.blocks b = some x) :
    after (updBlock b f) s = { s with blocks := mIns s.blocks b (f x) } := by simp [after, updBlock, h, applyEffect]
theorem after_updGroup {g : Nat} {f : Group → Group} {s : State} {x : Group} (h : mLook s.groups g = some x) :
    after (updGroup g f) s = { s with groups := mIns s.groups g (f x) } := by simp [after, updGroup, h, applyEffect]
theorem after_updGroup_eq (g : Nat) (f : Group → Group) (s : State) :
    ∃ m, after (updGroup g f) s = { s with groups := m } := by
  cases h : mLook s.groups g with
  | none => exact ⟨s.groups, by simp [after, updGroup, h]⟩
  | some x => exact ⟨_, after_updGroup h⟩
theorem after_updCtx {c : Nat} {f : Context → Context} {s : State} {x : Context} (h : mLook s.ctxs c = some x) :
    after (updCtx c f) s = { s with ctxs := mIns s.ctxs c (f x) } := by simp [after, updCtx, h, applyEffect]
theorem after_updLaunch {c : Nat} {f : Launch → Launch} {s : State} {x : Launch} (h : mLook s.launches c = some x) :
    after (updLaunch c f) s = { s with launches := mIns s.launches c (f x) } := by
  simp [after, updLaunch, h, applyEffect]
theorem after_updQueue {c : Nat} {f : Queue → Queue} {s : State} {x : Queue} (h : mLook s.queues c = some x) :
    after (updQueue c f) s = { s with queues := mIns s.queues c (f x) } := by simp [after, updQueue, h, applyEffect]
theorem after_updEng {c : Nat} {f : EngOp → EngOp} {s : State} {x : EngOp} (h : mLook s.engs c = some x) :
    after (updEng c f) s = { s with engs := mIns s.engs c (f x) } := by simp [after, updEng, h, applyEffect]
theorem after_updCore (c : Nat) (f : Core → Core) (s : State) :
    after (updCore c f) s = { s with cores := mIns s.cores c (f (coreOf s c)) } := rfl
theorem after_updMgmt (f : Mgmt → Mgmt) (s : State) : after (updMgmt f) s = { s with mgmt := f s.mgmt } := rfl
theorem after_bump (s : State) : after bump s = { s with epoch := s.epoch + 1 } := rfl

/-- A state that differs from `s` in some tables is `s` with those tables replaced. -/
theorem Only.eq {ts : List Table} {s t : State} (h : Only ts s t) :
    t = { s with
      mem := if .mem ∈ ts then t.mem else s.mem, warps := if .warps ∈ ts then t.warps else s.warps
      blocks := if .blocks ∈ ts then t.blocks else s.blocks, groups := if .groups ∈ ts then t.groups else s.groups
      launches := if .launches ∈ ts then t.launches else s.launches, ctxs := if .ctxs ∈ ts then t.ctxs else s.ctxs
      cores := if .cores ∈ ts then t.cores else s.cores, parts := if .parts ∈ ts then t.parts else s.parts
      queues := if .queues ∈ ts then t.queues else s.queues, pool := if .pool ∈ ts then t.pool else s.pool
      dir := if .dir ∈ ts then t.dir else s.dir, ops := if .ops ∈ ts then t.ops else s.ops
      engs := if .engs ∈ ts then t.engs else s.engs, locks := if .locks ∈ ts then t.locks else s.locks
      faults := if .faults ∈ ts then t.faults else s.faults, bad := if .bad ∈ ts then t.bad else s.bad
      mgmt := if .mgmt ∈ ts then t.mgmt else s.mgmt, now := if .now ∈ ts then t.now else s.now
      epoch := if .epoch ∈ ts then t.epoch else s.epoch, nextId := if .nextId ∈ ts then t.nextId else s.nextId
      nextLaunch := if .nextLaunch ∈ ts then t.nextLaunch else s.nextLaunch } := by
  obtain ⟨a1, a2, a3, a4, a5, a6, a7, a8, a9, b1, b2, b3, b4, b5, b6, b7, b8, b9, c1, c2, c3, d1, d2, d3⟩ := h
  cases s; cases t
  simp only [State.mk.injEq] at *
  exact ⟨by split; rfl; exact a1 ‹_›, by split; rfl; exact a2 ‹_›, by split; rfl; exact a3 ‹_›, by split; rfl; exact a4 ‹_›,
    by split; rfl; exact a5 ‹_›, by split; rfl; exact a6 ‹_›, by split; rfl; exact a7 ‹_›, by split; rfl; exact a8 ‹_›,
    by split; rfl; exact a9 ‹_›, by split; rfl; exact b1 ‹_›, by split; rfl; exact b2 ‹_›, by split; rfl; exact b3 ‹_›,
    by split; rfl; exact b4 ‹_›, by split; rfl; exact b5 ‹_›, by split; rfl; exact b6 ‹_›, by split; rfl; exact b7 ‹_›,
    by split; rfl; exact b8 ‹_›, by split; rfl; exact b9 ‹_›, by split; rfl; exact c1 ‹_›, d1, by split; rfl; exact c2 ‹_›,
    by split; rfl; exact c3 ‹_›, d2, d3⟩

/-! ## A property of the warps -/

/-- Each warp that stands after stood before, and its new value is in `R` to the old one. -/
def WarpsBy (R : Nat → Warp → Warp → Prop) (s t : State) : Prop :=
  ∀ w y, mLook t.warps w = some y → ∃ x, mLook s.warps w = some x ∧ R w x y

theorem chain_warpsBy {R : Nat → Warp → Warp → Prop} (h1 : ∀ w x, R w x x) (h2 : ∀ w x y z, R w x y → R w y z → R w x z) :
    Chain (WarpsBy R) where
  refl _ w y hy := ⟨y, hy, h1 w y⟩
  trans h g w z hz := by
    obtain ⟨y, hy, r1⟩ := g w z hz
    obtain ⟨x, hx, r2⟩ := h w y hy
    exact ⟨x, hx, h2 w x y z r2 r1⟩

/-- A state with the same warps. -/
theorem warpsBy_same {R : Nat → Warp → Warp → Prop} (h1 : ∀ w x, R w x x) {s t : State} (h : t.warps = s.warps) :
    WarpsBy R s t := fun w y hy => ⟨y, h ▸ hy, h1 w y⟩

/-- An act without effects on warps, but for dropping some. -/
theorem keeps_warpsBy_of_each {R : Nat → Warp → Warp → Prop} (h1 : ∀ w x, R w x x)
    (h2 : ∀ w x y z, R w x y → R w y z → R w x z) {a : Act} (h : Each (fun e => e.table ≠ .warps ∨ ∃ w, e = .dropWarp w) a) :
    Keeps (WarpsBy R) a :=
  keeps_effects (chain_warpsBy h1 h2) fun s e he t => by
    rcases h s e he with h | ⟨w, rfl⟩
    · exact warpsBy_same h1 (applyEffect_keeps_warps t h)
    · intro v y hy
      simp only [applyEffect_dropWarp] at hy
      by_cases hv : v = w
      · subst hv; simp at hy
      · exact ⟨y, by simpa [hv] using hy, h1 v y⟩

theorem keeps_warpsBy_updWarp {R : Nat → Warp → Warp → Prop} (h1 : ∀ w x, R w x x) {w : Nat} {f : Warp → Warp}
    (h : ∀ x, R w x (f x)) : Keeps (WarpsBy R) (updWarp w f) := fun s v y hy => by
  simp only [after, updWarp] at hy
  split at hy
  · next x hx =>
    simp only [applyAll_cons, applyAll_nil, applyEffect_warp] at hy
    by_cases hv : v = w
    · subst hv; simp at hy; exact ⟨x, hx, hy ▸ h x⟩
    · exact ⟨y, by simpa [hv] using hy, h1 v y⟩
  · exact ⟨y, hy, h1 v y⟩

end Sys2Proof.Machine
end

