-- ==== Sys2Proof/Laws/Traps.lean ====
section
/-! SUPPORT. What delivering a trap and ending a context can do to the warps: a trap writes only the warp it stops, and
the end of a context writes none, though it drops those of the context. -/

namespace Sys2Proof.Machine

/-- The effect writes no warp (it may drop one). -/
def Effect.noWarp (e : Effect) : Prop := ∀ w x, e ≠ .warp w x

theorem noWarp_virtBytes (c : Context) (va : Nat) (bs : List Byte) : Each Effect.noWarp (virtBytes c va bs) := by
  induction bs generalizing va with
  | nil => exact each_skip
  | cons b bs ih =>
    refine each_andThen (fun s e he w x h => ?_) (ih _)
    subst h
    split at he <;> simp at he
theorem noWarp_writeVirt (c : Context) (va : Nat) (bs : List Byte) : Each Effect.noWarp (writeVirt c va bs) :=
  each_andThen (noWarp_virtBytes c va bs) fun s e he w x h => by
    subst h
    split at he <;> simp at he
theorem noWarp_traceNote (c : Nat) (r : TraceRecord) : Each Effect.noWarp (traceNote c r) := fun s e he w x h => by
  subst h
  simp only [traceNote] at he
  split at he
  · split at he <;> simp at he
  · cases he
theorem noWarp_cleanCore (id : Nat) : Each Effect.noWarp (cleanCore id) := by
  refine each_andThen (each_updCore fun _ _ _ h => by cases h) (each_andThen (fun s e he w x h => ?_) (fun s e he w x h => ?_))
  · subst h; simp at he
  · subst h; split at he <;> simp at he
theorem noWarp_toRings (id : Nat) : Each Effect.noWarp (toRings id) := fun s e he w x h => by
  subst h; simp [toRings] at he
theorem noWarp_beginRecord (c : Context) (id : Nat) (l : Launch) (st p b : Nat) (fpc : DWord) :
    Each Effect.noWarp (beginRecord c id l st p b fpc) :=
  each_look fun _ => each_andThen (each_ite (noWarp_writeVirt _ _ _) each_skip) (each_eff fun _ _ h => by cases h)
theorem noWarp_joinIdle (id : Nat) : Each Effect.noWarp (joinIdle id) := by
  refine each_look fun s => ?_
  split
  · exact each_skip
  · refine each_ite each_skip (each_andThen (noWarp_toRings id) (each_andThen (noWarp_cleanCore id)
      (each_andThen (each_updCore fun _ _ _ h => by cases h) (each_andThen (fun s e he w x h => ?_) (fun s e he w x h => ?_)))))
    · subst h; simp at he
    · subst h; simp at he
theorem noWarp_terminate (cid : Nat) (d : List Byte) (cul : Option Nat) (fpc : DWord) (st : Nat) :
    Each Effect.noWarp (terminate cid d cul fpc st) := by
  refine each_look fun s => ?_
  split
  · exact each_skip
  · refine each_andThen (fun s e he w x h => ?_) (each_andThen (noWarp_writeVirt _ _ _) (each_andThen (each_forAll fun e =>
      noWarp_beginRecord _ _ _ _ _ _ _) (each_andThen (fun s e he w x h => ?_)
      (each_andThen (each_forAll fun k => each_andThen (noWarp_cleanCore k) (noWarp_joinIdle k))
      (each_andThen (each_updCtx fun _ _ _ h => by cases h) (each_andThen (each_updMgmt fun _ _ _ h => by cases h)
      (each_bump fun _ _ h => by cases h)))))))
    · subst h; simp [stopRunning] at he
    · subst h; simp [freeHeld] at he

/-! ## Records -/

theorem ownKey_congr {s t : State} (h : t.mem = s.mem) (c : Context) (va : Nat) : ownKey t c va = ownKey s c va := by
  simp only [ownKey, walk, h]
theorem ownWritable_congr {s t : State} (h : t.mem = s.mem) (c : Context) (va : Nat) :
    ownWritable t c va = ownWritable s c va := by
  simp only [ownWritable, ownAllowed, walk, h]
theorem writeKey_congr {s t : State} (h : t.mem = s.mem) (c : Context) (va : Nat) : writeKey t c va = writeKey s c va := by
  simp only [writeKey, ownWritable_congr h, ownKey_congr h]
theorem doneOk_congr {s t : State} (h : t.mem = s.mem) (c : Context) (bs : List Byte) : doneOk t c bs = doneOk s c bs := by
  simp only [doneOk, ownWritable_congr h]
/-- Where the bytes of a record go depends on memory alone. -/
theorem virtBytes_mem {s t : State} (h : t.mem = s.mem) (c : Context) (va : Nat) (bs : List Byte) :
    (after (virtBytes c va bs) t).mem = (after (virtBytes c va bs) s).mem := by
  induction bs generalizing va s t with
  | nil => exact h
  | cons b bs ih =>
    simp only [virtBytes, after_andThen]
    apply ih
    simp only [after, writeKey_congr h]
    split
    · simp [h]
    · exact h
theorem each_virtBytes {P : Effect → Prop} {c : Context} {va : Nat} {bs : List Byte} (h : ∀ k b, P (.bytes k b)) :
    Each P (virtBytes c va bs) := by
  induction bs generalizing va with
  | nil => exact each_skip
  | cons b bs ih =>
    refine each_andThen (fun s e he => ?_) ih
    split at he
    · rw [List.mem_singleton.1 he]; exact h _ _
    · cases he
theorem each_writeVirt {P : Effect → Prop} {c : Context} {va : Nat} {bs : List Byte} (h : ∀ k b, P (.bytes k b))
    (hb : ∀ l, P (.bad l)) : Each P (writeVirt c va bs) :=
  each_andThen (each_virtBytes h) fun s e he => by
    split at he
    · cases he
    · rw [List.mem_singleton.1 he]; exact hb _
theorem writeVirt_mem {s t : State} (h : t.mem = s.mem) (c : Context) (va : Nat) (bs : List Byte) :
    (after (writeVirt c va bs) t).mem = (after (writeVirt c va bs) s).mem := by
  have e : ∀ u : State, (after (writeVirt c va bs) u).mem = (after (virtBytes c va bs) u).mem := fun u => by
    simp only [writeVirt, after_andThen]
    exact (only_of_each (ts := [.bad]) (fun s e he => by
      split at he
      · cases he
      · rw [List.mem_singleton.1 he]; simp [Effect.table]) _).mem (by simp)
  rw [e, e, virtBytes_mem h]
theorem each_traceNote {P : Effect → Prop} {c : Nat} {r : TraceRecord} (h : ∀ x, P (.core c x)) : Each P (traceNote c r) :=
  fun s e he => by
    simp only [traceNote] at he
    split at he
    · split at he
      · rw [List.mem_singleton.1 he]; exact h _
      · cases he
    · cases he
/-- A trace record changes the tracer of its core alone. -/
theorem coreOf_traceNote (c : Nat) (r : TraceRecord) (s : State) (d : Nat) :
    coreOf (after (traceNote c r) s) d = { coreOf s d with tracer := (coreOf (after (traceNote c r) s) d).tracer } := by
  simp only [after, traceNote]
  split
  · split
    · by_cases h : d = c
      · subst h; simp [coreOf]
      · simp [coreOf, h]
    · rfl
  · rfl

/-! ## The end of a context, part by part -/

theorem each_cleanCore {P : Effect → Prop} {k : Nat} (h1 : ∀ c x, P (.core c x)) (h2 : ∀ a b, P (.share a b))
    (hb : ∀ l, P (.bad l)) : Each P (cleanCore k) :=
  each_andThen (each_updCore fun _ => h1 _ _) (each_andThen (fun s e he => by
    obtain ⟨x, -, rfl⟩ := List.mem_map.1 he; exact h2 _ _) fun s e he => by
    split at he
    · cases he
    · rw [List.mem_singleton.1 he]; exact hb _)
theorem each_joinIdle {P : Effect → Prop} {k : Nat} (h1 : ∀ c x, P (.core c x)) (h2 : ∀ a b, P (.share a b))
    (hb : ∀ l, P (.bad l)) (h3 : ∀ a b, P (.part a b)) (h4 : ∀ a b, P (.launch a b)) : Each P (joinIdle k) := by
  refine each_look fun s => ?_
  split
  · exact each_skip
  · refine each_ite each_skip (each_andThen (fun s e he => ?_) (each_andThen (each_cleanCore h1 h2 hb)
      (each_andThen (each_updCore fun _ => h1 _ _) (each_andThen (fun s e he => ?_) (fun s e he => ?_)))))
    · obtain ⟨x, -, rfl⟩ := List.mem_map.1 he; exact h4 _ _
    · obtain ⟨x, -, rfl⟩ := List.mem_map.1 he; exact h3 _ _
    · rw [List.mem_singleton.1 he]; exact h3 _ _
theorem only_stopRunning (cid : Nat) (bs : List (Nat × Block)) (s : State) :
    Only [.warps, .ops, .engs, .locks] s (after (stopRunning cid bs) s) :=
  only_of_each (fun u e he => by
    simp only [stopRunning, List.mem_append, List.mem_map, List.mem_singleton] at he
    rcases he with ((⟨x, -, rfl⟩ | ⟨x, -, rfl⟩) | ⟨x, -, rfl⟩) | rfl <;> simp [Effect.table]) s
theorem only_freeHeld (cid : Nat) (bs : List (Nat × Block)) (s : State) :
    Only [.blocks, .queues, .pool, .faults] s (after (freeHeld cid bs) s) :=
  only_of_each (fun u e he => by
    simp only [freeHeld, List.mem_append, List.mem_map] at he
    rcases he with ((⟨x, -, rfl⟩ | ⟨x, -, rfl⟩) | ⟨x, -, rfl⟩) | ⟨x, -, rfl⟩ <;> simp [Effect.table]) s
theorem only_freeCores (bs : List (Nat × Block)) (s : State) :
    Only [.cores, .dir, .bad, .parts, .launches] s (after (freeCores bs) s) :=
  only_of_each (each_forAll fun k => each_andThen
    (each_cleanCore (by simp [Effect.table]) (by simp [Effect.table]) (by simp [Effect.table]))
    (each_joinIdle (by simp [Effect.table]) (by simp [Effect.table]) (by simp [Effect.table]) (by simp [Effect.table])
      (by simp [Effect.table]))) s
theorem only_writeVirt (c : Context) (va : Nat) (bs : List Byte) (s : State) :
    Only [.mem, .bad] s (after (writeVirt c va bs) s) :=
  only_of_each (each_writeVirt (by simp [Effect.table]) (by simp [Effect.table])) s
theorem only_cutLaunches (c : Context) (bs : List (Nat × Block)) (u : Option Nat) (p : DWord) (n : Nat)
    (L : List (Nat × Launch)) (s : State) :
    Only [.mem, .bad, .launches] s (after (forAll (cutLaunch c bs u p n) L) s) :=
  only_of_each (each_forAll fun e => each_look fun _ => each_andThen
    (each_ite (each_writeVirt (by simp [Effect.table]) (by simp [Effect.table])) each_skip)
    (each_eff (by simp [Effect.table]))) s

/-- Entries dropped one by one: none of them stands after, and nothing is added. -/
theorem drop_blocks (bs : List (Nat × Block)) (s : State) (b : Nat) (y : Block)
    (h : mLook (applyAll (bs.map fun b => .dropBlock b.1) s).blocks b = some y) :
    mLook s.blocks b = some y ∧ ∀ e ∈ bs, e.1 ≠ b := by
  induction bs generalizing s with
  | nil => exact ⟨h, by simp⟩
  | cons e bs ih =>
    obtain ⟨h1, h2⟩ := ih (applyEffect s (.dropBlock e.1)) h
    simp only [applyEffect_dropBlock] at h1
    by_cases hb : b = e.1
    · subst hb; simp at h1
    · refine ⟨by simpa [hb] using h1, fun d hd => ?_⟩
      rcases List.mem_cons.1 hd with rfl | hd
      · exact Ne.symm hb
      · exact h2 d hd
theorem drop_warps (ws : List (Nat × Warp)) (s : State) (v : Nat) (x : Warp)
    (h : mLook (applyAll (ws.map fun b => .dropWarp b.1) s).warps v = some x) : mLook s.warps v = some x := by
  induction ws generalizing s with
  | nil => exact h
  | cons e ws ih =>
    have := ih (applyEffect s (.dropWarp e.1)) h
    simp only [applyEffect_dropWarp] at this
    by_cases hb : v = e.1
    · subst hb; simp at this
    · simpa [hb] using this
/-- No block of the list stands when what a context held is gone. -/
theorem freeHeld_blocks {cid : Nat} {bs : List (Nat × Block)} {s : State} {b : Nat} {y : Block}
    (h : mLook (after (freeHeld cid bs) s).blocks b = some y) : mLook s.blocks b = some y ∧ ∀ e ∈ bs, e.1 ≠ b := by
  simp only [after, freeHeld, List.append_assoc, applyAll_append] at h
  rw [← applyAll_append, ← applyAll_append, applyAll_keeps_blocks] at h
  · exact drop_blocks bs s b y h
  · intro e he
    simp only [List.mem_append, List.mem_map] at he
    rcases he with ⟨x, -, rfl⟩ | ⟨x, -, rfl⟩ | ⟨x, -, rfl⟩ <;> simp [Effect.table]
theorem stopRunning_warps {cid : Nat} {bs : List (Nat × Block)} {s : State} {v : Nat} {x : Warp}
    (h : mLook (after (stopRunning cid bs) s).warps v = some x) : mLook s.warps v = some x := by
  simp only [after, stopRunning, List.append_assoc, applyAll_append] at h
  rw [← applyAll_append, ← applyAll_append, applyAll_keeps_warps] at h
  · exact drop_warps _ s v x h
  · intro e he
    simp only [List.mem_append, List.mem_map, List.mem_singleton] at he
    rcases he with ⟨x, -, rfl⟩ | ⟨x, -, rfl⟩ | rfl <;> simp [Effect.table]
/-- A launch that ends leaves in memory bytes +1 to +15 of its record, where DONE can be written. -/
theorem beginRecord_mem {c : Context} {id st p b : Nat} {l : Launch} {f : DWord} {s t : State} (h : t.mem = s.mem) :
    (after (beginRecord c id l st p b f) t).mem = (after (look fun v =>
      if doneOk v c l.bytes then writeVirt c (l.doneAt + 1) (completionTail st p b f) else skip) s).mem := by
  have hl (a : Act) (g : Launch) (u : State) : (after (andThen a (eff (.launch id g))) u).mem = (after a u).mem := by
    rw [after_andThen, after_eff]; rfl
  rw [beginRecord, after_look, after_look, hl, doneOk_congr h]
  split
  · exact writeVirt_mem h _ _ _
  · exact h
/-- The completion records leave in memory what they leave when no launch changes between them. -/
theorem cutLaunches_mem {c : Context} {bs : List (Nat × Block)} {u : Option Nat} {p : DWord} {n : Nat}
    (L : List (Nat × Launch)) {s t : State} (h : t.mem = s.mem) :
    (after (forAll (cutLaunch c bs u p n) L) t).mem =
      (after (forAll (fun (e : Nat × Launch) => look fun v => if doneOk v c e.2.bytes then
          writeVirt c (e.2.doneAt + 1) (completionTail (if u = some e.1 then n else 2) (endPennants bs e).toNat e.2.doneBlocks
            (if u = some e.1 then p else 0))
        else skip) L) s).mem := by
  induction L generalizing s t with
  | nil => exact h
  | cons e L ih =>
    simp only [after_forAll_cons]
    apply ih
    rw [cutLaunch]
    exact beginRecord_mem h

section
variable {R : Nat → Warp → Warp → Prop} (h1 : ∀ w x, R w x x) (h2 : ∀ w x y z, R w x y → R w y z → R w x z)
include h1 h2

theorem keeps_warpsBy_noWarp {a : Act} (h : Each Effect.noWarp a) : Keeps (WarpsBy R) a :=
  keeps_warpsBy_of_each h1 h2 fun s e he => by
    have := h s e he
    cases e <;> first | exact .inr ⟨_, rfl⟩ | exact absurd rfl (this _ _) | exact .inl (by simp [Effect.table])

/-- A delivered trap changes the strands and the handler of its warp. -/
theorem keeps_warpsBy_deliver {w k : Nat} {t : Trap} (hR : ∀ x ss h, R w x { x with strands := ss, handler := h }) :
    Keeps (WarpsBy R) (deliver w k t) := by
  have hc := chain_warpsBy h1 h2
  refine keeps_look fun s => ?_
  split
  · exact keeps_skip hc
  · refine keeps_ite (fun _ => keeps_warpsBy_noWarp h1 h2 (noWarp_terminate _ _ _ _ _)) fun _ => ?_
    exact keeps_andThen hc (keeps_warpsBy_noWarp h1 h2 (noWarp_writeVirt _ _ _)) (keeps_andThen hc
      (keeps_warpsBy_noWarp h1 h2 (noWarp_traceNote _ _)) (keeps_andThen hc
      (keeps_warpsBy_updWarp h1 fun x => hR x _ _) (keeps_warpsBy_noWarp h1 h2 (each_bump fun _ _ h => by cases h))))

theorem keeps_warpsBy_nextTrap {w : Nat} (hR : ∀ x ss h, R w x { x with strands := ss, handler := h }) :
    Keeps (WarpsBy R) (nextTrap w) := by
  have hc := chain_warpsBy h1 h2
  refine keeps_look fun s => ?_
  split
  · exact keeps_skip hc
  · refine keeps_ite (fun _ => keeps_skip hc) fun _ => ?_
    split
    · refine keeps_andThen hc (keeps_warpsBy_updWarp h1 fun x => ?_) (keeps_warpsBy_deliver h1 h2 hR)
      rw [onStrand_eq]; exact hR x _ _
    · exact keeps_skip hc
end

end Sys2Proof.Machine
end

