-- ==== Sys2Proof/Tests/Slice0.lean ====
section
/-! SUPPORT. Tests of one step each on small states, words written out from the encoding tables of 04_encoding, a
refused term for each check of well-formedness, and for each statement with hypotheses a state that meets them. -/

namespace Sys2Proof.Tests

open Sys2Proof.Machine

/-! ## Words: each is packed by hand from R68, R71, R73, R75 to R77 and the opcode map R79 -/

/-- A slot word, with the word of the slot after it, decodes to an instruction. -/
def decodesTo (x : DWord × DWord × Instr) : Bool :=
  match decodeSlot x.1 x.2.1 with | .ok i => decide (i = x.2.2) | .error _ => false

theorem test_decode_ints0 : List.all ([(0x0000000000001C00, 0x0, .nop ⟨0, 0, 0, 0, 0, 0, 0, 3, true, .i32, false, .vec, 0⟩),
   (0x01030100A0061060, 0x0, .add ⟨6, 4, 5, 0, 1, 2, 0, 2, false, .n32, true, .vec, 0⟩),
   (0x02FFFF8180003A4E, 0x0, .sub ⟨511, 510, 12, 0, 0, 0, 0, 7, false, .i16x2, false, .scal, 6⟩),
   (0x0304010000003918, 0x3fc00000, .mul ⟨8, 4, 0, 0, 0, 0, 0, 7, false, .f32, false, .lit 1069547520, 0⟩),
   (0x040480404030FA04, 0x0, .mad ⟨9, 1, 2, 3, 0, 0, 3, 7, false, .bf16x2, false, .vec, 4⟩),
   (0x0500808060003A80, 0x0, .minOp ⟨1, 2, 3, 0, 0, 0, 0, 7, false, .i8x4, false, .vec, 0⟩),
   (0x060080A5811038D0, 0x0, .maxOp ⟨1, 2, 300, 17, 0, 0, 0, 7, false, .n64, false, .imm, 0⟩),
   (0x0703800120003940, 0x0, .neg ⟨7, 0, 9, 0, 0, 0, 0, 7, false, .f16, false, .vec, 0⟩),
   (0x0803800120003886, 0x0, .absOp ⟨7, 0, 9, 0, 0, 0, 0, 7, false, .i64, false, .vec, 6⟩),
   (0x0902804040003907, 0x0, .cmp ⟨5, 1, 2, 0, 0, 0, 0, 7, false, .f32, false, .vec, 7⟩),
   (0x0A01804040403B00, 0x0, .sel ⟨3, 1, 2, 4, 0, 0, 0, 7, false, .b64, false, .vec, 0⟩),
   (0x0B01800040013980, 0x0, .mov ⟨3, 0, 2, 0, 0, 1, 0, 7, false, .bf16, false, .vec, 0⟩),
   (0x0C01800020203810, 0x0, .movi ⟨3, 0, 1, 2, 0, 0, 0, 7, false, .i32, false, .imm, 0⟩),
   (0x0D01800040403801, 0x0, .cvt ⟨3, 0, 2, 4, 0, 0, 0, 7, false, .i32, false, .vec, 1⟩),
   (0x0E008080600038C0, 0x0, .mulhi ⟨1, 2, 3, 0, 0, 0, 0, 7, false, .n64, false, .vec, 0⟩),
   (0x0F010100C0803806, 0x0, .madw ⟨2, 4, 6, 8, 0, 0, 0, 7, false, .i32, false, .vec, 6⟩)] : List (DWord × DWord × Instr)) decodesTo = true := by decide

theorem test_decode_ints1 : List.all ([(0x1000808060003AC0, 0x0, .andOp ⟨1, 2, 3, 0, 0, 0, 0, 7, false, .b32, false, .vec, 0⟩),
   (0x1100808060003B00, 0x0, .orOp ⟨1, 2, 3, 0, 0, 0, 0, 7, false, .b64, false, .vec, 0⟩),
   (0x1200808000003AD8, 0xffffffffffffffff, .xorOp ⟨1, 2, 0, 0, 0, 0, 0, 7, false, .b32, false, .lit 18446744073709551615, 0⟩),
   (0x1300800060003B00, 0x0, .notOp ⟨1, 0, 3, 0, 0, 0, 0, 7, false, .b64, false, .vec, 0⟩),
   (0x1400808060003AC0, 0x0, .shl ⟨1, 2, 3, 0, 0, 0, 0, 7, false, .b32, false, .vec, 0⟩),
   (0x1500808060003B00, 0x0, .shr ⟨1, 2, 3, 0, 0, 0, 0, 7, false, .b64, false, .vec, 0⟩),
   (0x16008080A0003AD0, 0x0, .sar ⟨1, 2, 5, 0, 0, 0, 0, 7, false, .b32, false, .imm, 0⟩),
   (0x1700800060003B00, 0x0, .popc ⟨1, 0, 3, 0, 0, 0, 0, 7, false, .b64, false, .vec, 0⟩),
   (0x1800800060003AC0, 0x0, .clz ⟨1, 0, 3, 0, 0, 0, 0, 7, false, .b32, false, .vec, 0⟩),
   (0x1900800060003AC0, 0x0, .brev ⟨1, 0, 3, 0, 0, 0, 0, 7, false, .b32, false, .vec, 0⟩),
   (0x1A00808060003840, 0x0, .bfe ⟨1, 2, 3, 0, 0, 0, 0, 7, false, .n32, false, .vec, 0⟩),
   (0x1B00808060403B00, 0x0, .bfi ⟨1, 2, 3, 4, 0, 0, 0, 7, false, .b64, false, .vec, 0⟩),
   (0x1C010100A0003847, 0x0, .lea ⟨2, 4, 5, 0, 0, 0, 0, 7, false, .n32, false, .vec, 7⟩),
   (0x1D00808060003AC5, 0x0, .pset ⟨1, 2, 3, 0, 0, 0, 0, 7, false, .b32, false, .vec, 5⟩),
   (0x1E02000000003AC0, 0x0, .pmov ⟨4, 0, 0, 0, 0, 0, 0, 7, false, .b32, false, .vec, 0⟩),
   (0x1E000000C0003AC1, 0x0, .pmovSet ⟨0, 0, 6, 0, 0, 0, 0, 7, false, .b32, false, .vec, 1⟩)] : List (DWord × DWord × Instr)) decodesTo = true := by decide

theorem test_decode_floats0 : List.all ([(0x1F00808060003904, 0x0, .div ⟨1, 2, 3, 0, 0, 0, 0, 7, false, .f32, false, .vec, 4⟩),
   (0x20008000600039C3, 0x0, .rcp ⟨1, 0, 3, 0, 0, 0, 0, 7, false, .f16x2, false, .vec, 3⟩),
   (0x2100800060003906, 0x0, .rsqrt ⟨1, 0, 3, 0, 0, 0, 0, 7, false, .f32, false, .vec, 6⟩),
   (0x2200800060003982, 0x0, .sqrt ⟨1, 0, 3, 0, 0, 0, 0, 7, false, .bf16, false, .vec, 2⟩),
   (0x2300800060003900, 0x0, .exp2 ⟨1, 0, 3, 0, 0, 0, 0, 7, false, .f32, false, .vec, 0⟩),
   (0x2400800060003940, 0x0, .log2 ⟨1, 0, 3, 0, 0, 0, 0, 7, false, .f16, false, .vec, 0⟩),
   (0x2500800060003900, 0x0, .sinpi ⟨1, 0, 3, 0, 0, 0, 0, 7, false, .f32, false, .vec, 0⟩),
   (0x2600800060003A00, 0x0, .cospi ⟨1, 0, 3, 0, 0, 0, 0, 7, false, .bf16x2, false, .vec, 0⟩),
   (0x2700800060003906, 0x0, .tanh ⟨1, 0, 3, 0, 0, 0, 0, 7, false, .f32, false, .vec, 6⟩),
   (0x2800808060003910, 0x0, .ldexp ⟨1, 2, 3, 0, 0, 0, 0, 7, false, .f32, false, .imm, 0⟩),
   (0x2900800060003904, 0x0, .frnd ⟨1, 0, 3, 0, 0, 0, 0, 7, false, .f32, false, .vec, 4⟩),
   (0x2A00800060003980, 0x0, .fcls ⟨1, 0, 3, 0, 0, 0, 0, 7, false, .bf16, false, .vec, 0⟩),
   (0x2B008080604039C5, 0x0, .dot2 ⟨1, 2, 3, 4, 0, 0, 0, 7, false, .f16x2, false, .vec, 5⟩),
   (0x2C00808060403A86, 0x0, .dot4 ⟨1, 2, 3, 4, 0, 0, 0, 7, false, .i8x4, false, .vec, 6⟩),
   (0x2D00808071103905, 0x0, .pk ⟨1, 2, 3, 273, 0, 0, 0, 7, false, .f32, false, .vec, 5⟩),
   (0x2E00808063203900, 0x0, .upk ⟨1, 2, 3, 50, 0, 0, 0, 7, false, .f32, false, .vec, 0⟩)] : List (DWord × DWord × Instr)) decodesTo = true := by decide

theorem test_decode_floats1 : List.all ([(0x8000800060403AC3, 0x0, .vote ⟨1, 0, 3, 4, 0, 0, 0, 7, false, .b32, false, .vec, 3⟩),
   (0x8102800000003AC0, 0x0, .elect ⟨5, 0, 0, 0, 0, 0, 0, 7, false, .b32, false, .vec, 0⟩),
   (0x8203000061F03AC0, 0x0, .vget ⟨6, 0, 3, 31, 0, 0, 0, 7, false, .b32, false, .vec, 0⟩),
   (0x8303000060203B09, 0x0, .vput ⟨6, 0, 3, 2, 0, 0, 0, 7, false, .b64, false, .scal, 1⟩),
   (0x8403000060813922, 0x0, .redw ⟨6, 0, 3, 8, 0, 1, 0, 7, false, .f32, true, .vec, 2⟩),
   (0x8503000060023B03, 0x0, .lanes ⟨6, 0, 3, 0, 0, 2, 0, 7, false, .b64, false, .vec, 3⟩),
   (0x9503008080003B00, 0x0, .join ⟨6, 2, 4, 0, 0, 0, 0, 7, false, .b64, false, .vec, 0⟩),
   (0x9600808060003AC0, 0x0, .joinp ⟨1, 2, 3, 0, 0, 0, 0, 7, false, .b32, false, .vec, 0⟩),
   (0x9700808060403AC3, 0x0, .hoist ⟨1, 2, 3, 4, 0, 0, 0, 7, false, .b32, false, .vec, 3⟩)] : List (DWord × DWord × Instr)) decodesTo = true := by decide

theorem test_decode_scalars0 : List.all ([(0x41030100A0001040, 0x0, .addS ⟨6, 4, 5, 0, 0, 0, 0, 2, false, .n32, false, .vec, 0⟩),
   (0x4205828180003A46, 0x0, .subS ⟨11, 10, 12, 0, 0, 0, 0, 7, false, .i16x2, false, .vec, 6⟩),
   (0x4304010000003918, 0x3fc00000, .mulS ⟨8, 4, 0, 0, 0, 0, 0, 7, false, .f32, false, .lit 1069547520, 0⟩),
   (0x4404804040303A04, 0x0, .madS ⟨9, 1, 2, 3, 0, 0, 0, 7, false, .bf16x2, false, .vec, 4⟩),
   (0x4500808060003A80, 0x0, .minS ⟨1, 2, 3, 0, 0, 0, 0, 7, false, .i8x4, false, .vec, 0⟩),
   (0x460080A5811038D0, 0x0, .maxS ⟨1, 2, 300, 17, 0, 0, 0, 7, false, .n64, false, .imm, 0⟩),
   (0x4703800120003940, 0x0, .negS ⟨7, 0, 9, 0, 0, 0, 0, 7, false, .f16, false, .vec, 0⟩),
   (0x4803800120003886, 0x0, .absS ⟨7, 0, 9, 0, 0, 0, 0, 7, false, .i64, false, .vec, 6⟩),
   (0x4902804040003907, 0x0, .cmpS ⟨5, 1, 2, 0, 0, 0, 0, 7, false, .f32, false, .vec, 7⟩),
   (0x4A01804040403B00, 0x0, .selS ⟨3, 1, 2, 4, 0, 0, 0, 7, false, .b64, false, .vec, 0⟩),
   (0x4B01800040003980, 0x0, .movS ⟨3, 0, 2, 0, 0, 0, 0, 7, false, .bf16, false, .vec, 0⟩),
   (0x4C01800020203810, 0x0, .moviS ⟨3, 0, 1, 2, 0, 0, 0, 7, false, .i32, false, .imm, 0⟩),
   (0x4D01800040403801, 0x0, .cvtS ⟨3, 0, 2, 4, 0, 0, 0, 7, false, .i32, false, .vec, 1⟩),
   (0x4E008080600038C0, 0x0, .mulhiS ⟨1, 2, 3, 0, 0, 0, 0, 7, false, .n64, false, .vec, 0⟩),
   (0x4F010100C0803806, 0x0, .madwS ⟨2, 4, 6, 8, 0, 0, 0, 7, false, .i32, false, .vec, 6⟩),
   (0x5000808060003AC0, 0x0, .andS ⟨1, 2, 3, 0, 0, 0, 0, 7, false, .b32, false, .vec, 0⟩)] : List (DWord × DWord × Instr)) decodesTo = true := by decide

theorem test_decode_scalars1 : List.all ([(0x5100808060003B00, 0x0, .orS ⟨1, 2, 3, 0, 0, 0, 0, 7, false, .b64, false, .vec, 0⟩),
   (0x5200808000003AD8, 0xffffffffffffffff, .xorS ⟨1, 2, 0, 0, 0, 0, 0, 7, false, .b32, false, .lit 18446744073709551615, 0⟩),
   (0x5300800060003B00, 0x0, .notS ⟨1, 0, 3, 0, 0, 0, 0, 7, false, .b64, false, .vec, 0⟩),
   (0x5400808060003AC0, 0x0, .shlS ⟨1, 2, 3, 0, 0, 0, 0, 7, false, .b32, false, .vec, 0⟩),
   (0x5500808060003B00, 0x0, .shrS ⟨1, 2, 3, 0, 0, 0, 0, 7, false, .b64, false, .vec, 0⟩),
   (0x56008080A0003AD0, 0x0, .sarS ⟨1, 2, 5, 0, 0, 0, 0, 7, false, .b32, false, .imm, 0⟩),
   (0x5700800060003B00, 0x0, .popcS ⟨1, 0, 3, 0, 0, 0, 0, 7, false, .b64, false, .vec, 0⟩),
   (0x5800800060003AC0, 0x0, .clzS ⟨1, 0, 3, 0, 0, 0, 0, 7, false, .b32, false, .vec, 0⟩),
   (0x5900800060003AC0, 0x0, .brevS ⟨1, 0, 3, 0, 0, 0, 0, 7, false, .b32, false, .vec, 0⟩),
   (0x5A00808060003840, 0x0, .bfeS ⟨1, 2, 3, 0, 0, 0, 0, 7, false, .n32, false, .vec, 0⟩),
   (0x5B00808060403B00, 0x0, .bfiS ⟨1, 2, 3, 4, 0, 0, 0, 7, false, .b64, false, .vec, 0⟩),
   (0x5C010100A0003847, 0x0, .leaS ⟨2, 4, 5, 0, 0, 0, 0, 7, false, .n32, false, .vec, 7⟩),
   (0x5D00808060003AC5, 0x0, .psetS ⟨1, 2, 3, 0, 0, 0, 0, 7, false, .b32, false, .vec, 5⟩),
   (0x5E000000C0003AC1, 0x0, .pmovS ⟨0, 0, 6, 0, 0, 0, 0, 7, false, .b32, false, .vec, 1⟩),
   (0x5F00808060003904, 0x0, .divS ⟨1, 2, 3, 0, 0, 0, 0, 7, false, .f32, false, .vec, 4⟩),
   (0x60008000600039C3, 0x0, .rcpS ⟨1, 0, 3, 0, 0, 0, 0, 7, false, .f16x2, false, .vec, 3⟩)] : List (DWord × DWord × Instr)) decodesTo = true := by decide

theorem test_decode_scalars2 : List.all ([(0x6100800060003906, 0x0, .rsqrtS ⟨1, 0, 3, 0, 0, 0, 0, 7, false, .f32, false, .vec, 6⟩),
   (0x6200800060003982, 0x0, .sqrtS ⟨1, 0, 3, 0, 0, 0, 0, 7, false, .bf16, false, .vec, 2⟩),
   (0x6300800060003900, 0x0, .exp2S ⟨1, 0, 3, 0, 0, 0, 0, 7, false, .f32, false, .vec, 0⟩),
   (0x6400800060003940, 0x0, .log2S ⟨1, 0, 3, 0, 0, 0, 0, 7, false, .f16, false, .vec, 0⟩),
   (0x6500800060003900, 0x0, .sinpiS ⟨1, 0, 3, 0, 0, 0, 0, 7, false, .f32, false, .vec, 0⟩),
   (0x6600800060003A00, 0x0, .cospiS ⟨1, 0, 3, 0, 0, 0, 0, 7, false, .bf16x2, false, .vec, 0⟩),
   (0x6700800060003906, 0x0, .tanhS ⟨1, 0, 3, 0, 0, 0, 0, 7, false, .f32, false, .vec, 6⟩),
   (0x6800808060003910, 0x0, .ldexpS ⟨1, 2, 3, 0, 0, 0, 0, 7, false, .f32, false, .imm, 0⟩),
   (0x6900800060003904, 0x0, .frndS ⟨1, 0, 3, 0, 0, 0, 0, 7, false, .f32, false, .vec, 4⟩),
   (0x6A00800060003980, 0x0, .fclsS ⟨1, 0, 3, 0, 0, 0, 0, 7, false, .bf16, false, .vec, 0⟩),
   (0x6B008080604039C5, 0x0, .dot2S ⟨1, 2, 3, 4, 0, 0, 0, 7, false, .f16x2, false, .vec, 5⟩),
   (0x6C00808060403A86, 0x0, .dot4S ⟨1, 2, 3, 4, 0, 0, 0, 7, false, .i8x4, false, .vec, 6⟩),
   (0x6D00808071103905, 0x0, .pkS ⟨1, 2, 3, 273, 0, 0, 0, 7, false, .f32, false, .vec, 5⟩),
   (0x6E00808063203900, 0x0, .upkS ⟨1, 2, 3, 50, 0, 0, 0, 7, false, .f32, false, .vec, 0⟩)] : List (DWord × DWord × Instr)) decodesTo = true := by decide

theorem test_decode_mem0 : List.all ([(0xA0080100001270A6, 0x0, .ld ⟨16, 4, 0, 4, true, 0, 7, false, .glob, .x4, .acq, .device⟩),
   (0xA10801001FFD712B, 0x0, .st ⟨16, 4, 0, 2047, false, 2, 7, false, .blk, .w16, .rel, .system⟩),
   (0xA108010000007050, 0x0, .stRgn ⟨16, 4, 0, 0, false, 0, 7, false, .glob, .w32, .region, .block⟩),
   (0xA2008080602C706D, 0x0, .atom ⟨1, 2, 3, 11, false, 0, 7, false, .glob, .w64, .acqrel, .cluster⟩),
   (0xA3008080003DF248, 0x0, .red ⟨1, 2, 0, 15, false, 3, 7, false, .clu, .w32, .rel, .block⟩),
   (0xA40000000000700A, 0x0, .fence ⟨0, 0, 0, 0, false, 0, 7, false, .glob, .w8, .rel, .device⟩),
   (0xA5000100001E73C0, 0x0, .prefetch ⟨0, 4, 0, 7, true, 0, 7, false, .sealed, .x8, .relaxed, .block⟩),
   (0xA6000100C0027000, 0x0, .sealRange ⟨0, 4, 6, 0, true, 0, 7, false, .glob, .w8, .relaxed, .block⟩),
   (0xA7000100C0021800, 0x0, .unsealRange ⟨0, 4, 6, 0, true, 0, 1, true, .glob, .w8, .relaxed, .block⟩),
   (0xA8048100C00C7267, 0x0, .waitm ⟨9, 4, 6, 3, false, 0, 7, false, .clu, .w64, .acq, .system⟩),
   (0xA901810000047040, 0x0, .ald ⟨3, 4, 0, 1, false, 0, 7, false, .glob, .w32, .relaxed, .block⟩),
   (0xAA000000A0047000, 0x0, .abeg ⟨0, 0, 5, 1, false, 0, 7, false, .glob, .w8, .relaxed, .block⟩),
   (0xAB018000C0027000, 0x0, .aend ⟨3, 0, 6, 0, true, 0, 7, false, .glob, .w8, .relaxed, .block⟩),
   (0xAC00000000002000, 0x0, .aabort ⟨0, 0, 0, 0, false, 0, 2, false, .glob, .w8, .relaxed, .block⟩),
   (0xD4050100C0023000, 0x0, .launch ⟨10, 4, 6, 0, true, 0, 3, false, .glob, .w8, .relaxed, .block⟩),
   (0xDA0400C1200270A0, 0x0, .qput ⟨8, 3, 9, 0, true, 0, 7, false, .glob, .x4, .relaxed, .block⟩)] : List (DWord × DWord × Instr)) decodesTo = true := by decide

theorem test_decode_mem1 : List.all ([(0xDB0400000FFC70A0, 0x0, .qget ⟨8, 0, 0, 1023, false, 0, 7, false, .glob, .x4, .relaxed, .block⟩),
   (0xDC040000001470A0, 0x0, .qstat ⟨8, 0, 0, 5, false, 0, 7, false, .glob, .x4, .relaxed, .block⟩),
   (0xDC0400001FFC70A0, 0x0, .qstatLaunch ⟨8, 0, 0, 2047, false, 0, 7, false, .glob, .x4, .relaxed, .block⟩)] : List (DWord × DWord × Instr)) decodesTo = true := by decide

theorem test_decode_copies : List.all ([(0xB00201811F807158, 0x0, .cpg ⟨4, 6, 8, 63, 0, 7, false, 1, .rel, .system⟩),
   (0xB10201810000F200, 0x0, .cps ⟨4, 6, 8, 0, 1, 7, false, 2, .relaxed, .block⟩),
   (0xB202018102807000, 0x0, .cpb ⟨4, 6, 8, 5, 0, 7, false, 0, .relaxed, .block⟩),
   (0xB302018102807000, 0x0, .cpv ⟨4, 6, 8, 5, 0, 7, false, 0, .relaxed, .block⟩),
   (0xB402018102FFF500, 0x0, .cpm ⟨4, 6, 8, 5, 255, 7, false, 5, .relaxed, .block⟩),
   (0xB502018102807000, 0x0, .cpx ⟨4, 6, 8, 5, 0, 7, false, 0, .relaxed, .block⟩),
   (0xB602018000007000, 0x0, .waitany ⟨4, 6, 0, 0, 0, 7, false, 0, .relaxed, .block⟩),
   (0xB702000000007000, 0x0, .waitall ⟨4, 0, 0, 0, 0, 7, false, 0, .relaxed, .block⟩),
   (0xB802018000001800, 0x0, .ffrdy ⟨4, 6, 0, 0, 0, 1, true, 0, .relaxed, .block⟩),
   (0xB902000000007000, 0x0, .tagrel ⟨4, 0, 0, 0, 0, 7, false, 0, .relaxed, .block⟩),
   (0xE00200000384F000, 0x0, .dgrp ⟨4, 0, 0, 7, 9, 7, false, 0, .relaxed, .block⟩),
   (0xE002000000007100, 0x0, .dgrpFree ⟨4, 0, 0, 0, 0, 7, false, 1, .relaxed, .block⟩),
   (0xE102018100007000, 0x0, .dred ⟨4, 6, 8, 0, 0, 7, false, 0, .relaxed, .block⟩),
   (0xE202018100007000, 0x0, .dfix ⟨4, 6, 8, 0, 0, 7, false, 0, .relaxed, .block⟩)] : List (DWord × DWord × Instr)) decodesTo = true := by decide

theorem test_decode_matrix : List.all ([(0xC0000000A0003800, 0x0, .tshape ⟨0, 0, 5, 0, 0, 7, false, 0⟩),
   (0xC100030180003800, 0x0, .mma ⟨0, 12, 12, 0, 0, 7, false, 0⟩),
   (0xC200000000513801, 0x0, .tzero ⟨0, 0, 0, 5, 4, 7, false, 1⟩),
   (0xC3020000005FF801, 0x0, .tload ⟨4, 0, 0, 5, 63, 7, false, 1⟩),
   (0xC40002000050381F, 0x0, .tread ⟨0, 8, 0, 5, 0, 7, false, 31⟩),
   (0xC500020000503810, 0x0, .twrite ⟨0, 8, 0, 5, 0, 7, false, 16⟩),
   (0xC6020300C0803A05, 0x0, .tdrain ⟨4, 12, 6, 8, 0, 7, false, 517⟩),
   (0xC7020100C080FA00, 0x0, .tsave ⟨4, 4, 6, 8, 3, 7, false, 512⟩),
   (0xC8020000C0803800, 0x0, .gpin ⟨4, 0, 6, 8, 0, 7, false, 0⟩),
   (0xC9020000C0807801, 0x0, .gacc ⟨4, 0, 6, 8, 1, 7, false, 1⟩),
   (0xCA00000000803800, 0x0, .gflush ⟨0, 0, 0, 8, 0, 7, false, 0⟩),
   (0xCB00000000800400, 0x0, .gfree ⟨0, 0, 0, 8, 0, 0, true, 0⟩),
   (0xCC000000C0803800, 0x0, .tstat ⟨0, 0, 6, 8, 0, 7, false, 0⟩),
   (0xCD000000C0003800, 0x0, .tclr ⟨0, 0, 6, 0, 0, 7, false, 0⟩)] : List (DWord × DWord × Instr)) decodesTo = true := by decide

theorem test_decode_control0 : List.all ([(0x90FFFFFE0000001C, 0x0, .bra ⟨16777214, 0, 0, 0, 7, false⟩),
   (0x910000030200001C, 0x0, .brx ⟨3, 4, 0, 0, 7, false⟩),
   (0x920000050200001C, 0x0, .call ⟨5, 4, 0, 0, 7, false⟩),
   (0x920000000201803C, 0x0, .callIndirect ⟨0, 4, 6, 1, 7, false⟩),
   (0x930000000200001C, 0x0, .ret ⟨0, 4, 0, 0, 7, false⟩),
   (0x9400000701026586, 0x0, .fork ⟨7, 2, 9, 300, 1, true⟩),
   (0x980000000000001C, 0x0, .armend ⟨0, 0, 0, 0, 7, false⟩),
   (0x990000000000001C, 0x0, .exit ⟨0, 0, 0, 0, 7, false⟩),
   (0x9A0012340000001C, 0x0, .waitc ⟨4660, 0, 0, 0, 7, false⟩),
   (0x9B0000000000001C, 0x0, .yield ⟨0, 0, 0, 0, 7, false⟩),
   (0xD00400000200001C, 0x0, .bar ⟨262144, 4, 0, 0, 7, false⟩),
   (0xD100040F0000001C, 0x0, .barr ⟨1039, 0, 0, 0, 7, false⟩),
   (0xD20000030000001C, 0x0, .barw ⟨3, 0, 0, 0, 7, false⟩),
   (0xD30C00000201801C, 0x0, .cbar ⟨786432, 4, 6, 0, 7, false⟩),
   (0xD50000000201803C, 0x0, .fopen ⟨0, 4, 6, 1, 7, false⟩),
   (0xD60000000200001C, 0x0, .fclose ⟨0, 4, 0, 0, 7, false⟩)] : List (DWord × DWord × Instr)) decodesTo = true := by decide

theorem test_decode_control1 : List.all ([(0xD70000000202005C, 0x0, .fwait ⟨0, 4, 8, 2, 7, false⟩),
   (0xD80000000200001C, 0x0, .tapePush ⟨0, 4, 0, 0, 7, false⟩),
   (0xD80000010200001C, 0x0, .tapeRun ⟨1, 4, 0, 0, 7, false⟩),
   (0xD90009000202001C, 0x0, .awaitTag ⟨2304, 4, 8, 0, 7, false⟩),
   (0xD9000491020400DC, 0x0, .awaitMem ⟨1169, 4, 16, 6, 7, false⟩),
   (0xD90000020200001C, 0x0, .awaitQueue ⟨2, 4, 0, 0, 7, false⟩),
   (0xD90008030A04001C, 0x0, .awaitScope ⟨2051, 20, 16, 0, 7, false⟩),
   (0xD90001040200001C, 0x0, .awaitRed ⟨260, 4, 0, 0, 7, false⟩),
   (0xDD0004050002007C, 0x0, .refill ⟨1029, 0, 8, 3, 7, false⟩),
   (0xDE00012C0000001C, 0x0, .rgrow ⟨300, 0, 0, 0, 7, false⟩),
   (0xDF0000100000001C, 0x0, .rshrink ⟨16, 0, 0, 0, 7, false⟩),
   (0xE8ABCDEF0000001C, 0x0, .trap ⟨11259375, 0, 0, 0, 7, false⟩),
   (0xE90000000000001C, 0x0, .rft ⟨0, 0, 0, 0, 7, false⟩),
   (0xE90000010000001C, 0x0, .rftNext ⟨1, 0, 0, 0, 7, false⟩),
   (0xEA000001E001801C, 0x0, .srd ⟨1, 448, 6, 0, 7, false⟩),
   (0xEB000000E401801C, 0x0, .swr ⟨0, 456, 6, 0, 7, false⟩)] : List (DWord × DWord × Instr)) decodesTo = true := by decide

theorem test_decode_control2 : List.all ([(0xEC0000000000001C, 0x0, .brk ⟨0, 0, 0, 0, 7, false⟩),
   (0xED01FFFF0200001C, 0x0, .mark ⟨131071, 4, 0, 0, 7, false⟩),
   (0xEE0000400000001C, 0x0, .nclr ⟨64, 0, 0, 0, 7, false⟩)] : List (DWord × DWord × Instr)) decodesTo = true := by decide

/-- The pair word of the spec's worked clause (R81). -/
theorem test_decode_pair : (match decodePair 0x00180D0A0211071C with | .ok i => some i | .error _ => none) =
    some (.pairWord ⟨0, 12, 13, 20, 1, 17, 14, 0, 7, false⟩) := by decide
/-- Refused by name: a reserved opcode, a reserved TYPE, a reserved pair sub-op, bit 0 of a pair word, a pair rule. -/
theorem test_decode_refused : (match decodeSlot 0x2F00000000000000 0 with | .error e => decide (e = .illop) | _ => false) = true ∧
    (match decodeSlot 0x0100000000003BC0 0 with | .error e => decide (e = .illenc) | _ => false) = true ∧
    (match decodePair (0x00180D0A0211071C ||| 0x3000000000000000) with | .error e => decide (e = .illop) | _ => false) = true ∧
    (match decodePair 0x00180D0A0211071D with | .error e => decide (e = .illenc) | _ => false) = true ∧
    (match decodePair 0x00180D0A0211069C with | .error e => decide (e = .illpair) | _ => false) = true := by decide

/-! ## Well-formedness: a refused term for each check -/

theorem test_refused_v : List.all ([.nop ⟨1, 0, 0, 0, 0, 0, 0, 7, false, .i32, false, .vec, 0⟩,
   .nop ⟨0, 0, 0, 0, 0, 0, 0, 7, false, .i32, false, .lit 1, 0⟩,
   .pmov ⟨4, 0, 0, 0, 0, 0, 0, 7, false, .b32, false, .vec, 2⟩,
   .pmov ⟨4, 0, 1, 0, 0, 0, 0, 7, false, .b32, false, .vec, 0⟩,
   .pmovS ⟨4, 0, 0, 0, 0, 0, 0, 7, false, .b32, true, .vec, 0⟩,
   .add ⟨1, 2, 3, 0, 0, 0, 0, 7, false, .b32, false, .vec, 0⟩,
   .mov ⟨1, 0, 3, 0, 0, 0, 0, 7, false, .i32, false, .imm, 0⟩,
   .add ⟨1, 2, 3, 0, 0, 0, 0, 7, false, .i32, false, .vec, 1⟩,
   .add ⟨1, 2, 3, 0, 0, 0, 0, 7, false, .f32, false, .imm, 0⟩,
   .neg ⟨1, 2, 3, 0, 0, 0, 0, 7, false, .i32, false, .vec, 0⟩,
   .add ⟨1, 2, 3, 1, 0, 0, 0, 7, false, .i32, false, .vec, 0⟩,
   .neg ⟨1, 0, 3, 0, 1, 0, 0, 7, false, .i32, false, .vec, 0⟩,
   .add ⟨1, 2, 3, 0, 0, 0, 1, 7, false, .i32, false, .vec, 0⟩,
   .add ⟨1, 2, 3, 0, 0, 1, 0, 7, false, .i32, false, .scal, 0⟩,
   .mul ⟨1, 2, 3, 0, 0, 0, 0, 7, false, .f32, false, .lit 1, 0⟩,
   .cvt ⟨1, 0, 2, 0, 0, 0, 0, 7, false, .i32, false, .vec, 0⟩,
   .pk ⟨1, 2, 3, 9, 0, 0, 0, 7, false, .f32, false, .vec, 0⟩,
   .upk ⟨1, 0, 3, 128, 0, 0, 0, 7, false, .f32, false, .vec, 0⟩,
   .addS ⟨1, 2, 3, 0, 1, 0, 0, 7, false, .i32, false, .vec, 0⟩,
   .addS ⟨1, 2, 3, 0, 0, 0, 0, 7, false, .i32, false, .scal, 0⟩,
   .addS ⟨1, 2, 3, 0, 0, 0, 0, 7, false, .i32, true, .vec, 0⟩,
   .vote ⟨1, 0, 2, 3, 0, 0, 0, 7, false, .b32, false, .vec, 4⟩,
   .elect ⟨1, 0, 0, 0, 0, 0, 0, 7, false, .i32, false, .vec, 0⟩,
   .vget ⟨1, 0, 2, 32, 0, 0, 0, 7, false, .b32, false, .vec, 0⟩,
   .vput ⟨1, 0, 2, 0, 0, 0, 0, 7, false, .b32, false, .vec, 0⟩,
   .redw ⟨1, 0, 2, 3, 0, 0, 0, 7, false, .b32, false, .vec, 0⟩,
   .lanes ⟨1, 0, 2, 0, 0, 0, 0, 7, false, .b64, false, .vec, 0⟩,
   .join ⟨1, 2, 3, 4, 0, 0, 0, 7, false, .b32, false, .vec, 0⟩,
   .joinp ⟨1, 2, 3, 0, 0, 0, 0, 7, false, .b64, false, .vec, 0⟩,
   .hoist ⟨1, 2, 0, 0, 0, 0, 0, 7, false, .b32, false, .vec, 0⟩] : List Instr) (fun i => !i.wf) = true := by decide

theorem test_refused_m : List.all ([.ld ⟨1, 2, 3, 0, false, 0, 7, false, .glob, .w32, .relaxed, .block⟩,
   .st ⟨1, 2, 0, 0, false, 0, 7, false, .glob, .w32, .acq, .block⟩,
   .st ⟨1, 2, 0, 0, false, 0, 7, false, .glob, .w32, .region, .block⟩,
   .stRgn ⟨1, 2, 0, 0, false, 0, 7, false, .glob, .w32, .relaxed, .block⟩,
   .atom ⟨1, 2, 3, 16, false, 0, 7, false, .glob, .w32, .relaxed, .block⟩,
   .red ⟨1, 2, 0, 8, false, 0, 7, false, .glob, .w32, .relaxed, .block⟩,
   .fence ⟨0, 0, 0, 0, false, 0, 7, false, .glob, .w8, .relaxed, .block⟩,
   .prefetch ⟨1, 2, 0, 0, false, 0, 7, false, .glob, .w8, .relaxed, .block⟩,
   .sealRange ⟨0, 4, 6, 0, false, 0, 7, false, .glob, .w8, .relaxed, .block⟩,
   .unsealRange ⟨0, 4, 6, 1, true, 0, 7, false, .glob, .w8, .relaxed, .block⟩,
   .waitm ⟨10, 4, 6, 0, false, 0, 7, false, .glob, .w32, .relaxed, .block⟩,
   .ald ⟨3, 4, 0, 0, false, 0, 7, false, .glob, .x2, .relaxed, .block⟩,
   .abeg ⟨1, 0, 0, 0, false, 0, 7, false, .glob, .w8, .relaxed, .block⟩,
   .aend ⟨3, 0, 6, 0, false, 0, 7, false, .glob, .w8, .relaxed, .block⟩,
   .aabort ⟨1, 0, 0, 0, false, 0, 7, false, .glob, .w8, .relaxed, .block⟩,
   .launch ⟨1, 2, 3, 1, false, 0, 7, false, .glob, .w8, .relaxed, .block⟩,
   .qput ⟨8, 3, 16, 0, true, 0, 7, false, .glob, .x4, .relaxed, .block⟩,
   .qget ⟨8, 3, 9, 0, false, 0, 7, false, .glob, .x4, .relaxed, .block⟩,
   .qstat ⟨8, 1, 0, 0, false, 0, 7, false, .glob, .x4, .relaxed, .block⟩,
   .qstat ⟨8, 0, 0, 2047, false, 0, 7, false, .glob, .x4, .relaxed, .block⟩] : List Instr) (fun i => !i.wf) = true := by decide

theorem test_refused_k : List.all ([.cpg ⟨4, 6, 8, 0, 0, 7, false, 2, .relaxed, .block⟩,
   .cps ⟨4, 6, 8, 0, 0, 7, false, 0, .acq, .block⟩,
   .cpb ⟨4, 6, 8, 5, 1, 7, false, 0, .relaxed, .block⟩,
   .cpv ⟨4, 6, 8, 0, 2, 7, false, 0, .relaxed, .block⟩,
   .cpm ⟨4, 6, 8, 0, 0, 7, false, 0, .relaxed, .block⟩,
   .cpx ⟨4, 6, 8, 0, 0, 7, false, 1, .relaxed, .block⟩,
   .waitany ⟨4, 6, 8, 0, 0, 7, false, 0, .relaxed, .block⟩,
   .waitall ⟨4, 6, 0, 0, 0, 7, false, 0, .relaxed, .block⟩,
   .ffrdy ⟨4, 6, 0, 1, 0, 7, false, 0, .relaxed, .block⟩,
   .tagrel ⟨4, 0, 0, 0, 1, 7, false, 0, .relaxed, .block⟩,
   .dgrp ⟨4, 1, 0, 0, 0, 7, false, 0, .relaxed, .block⟩,
   .dgrpFree ⟨4, 0, 0, 1, 0, 7, false, 1, .relaxed, .block⟩,
   .dgrpFree ⟨4, 0, 0, 0, 0, 7, false, 0, .relaxed, .block⟩,
   .dred ⟨4, 6, 8, 1, 0, 7, false, 0, .relaxed, .block⟩,
   .dfix ⟨4, 6, 8, 0, 0, 7, false, 1, .relaxed, .block⟩] : List Instr) (fun i => !i.wf) = true := by decide

theorem test_refused_x : List.all ([.tshape ⟨1, 0, 5, 0, 0, 7, false, 0⟩,
   .mma ⟨0, 12, 12, 0, 1, 7, false, 0⟩,
   .tzero ⟨1, 0, 0, 5, 0, 7, false, 0⟩,
   .tload ⟨4, 1, 0, 5, 0, 7, false, 0⟩,
   .tread ⟨0, 8, 0, 5, 0, 7, false, 32⟩,
   .twrite ⟨0, 8, 0, 5, 1, 7, false, 0⟩,
   .tdrain ⟨4, 0, 6, 8, 0, 7, false, 0⟩,
   .tsave ⟨4, 8, 0, 8, 0, 7, false, 0⟩,
   .gpin ⟨4, 1, 6, 8, 0, 7, false, 0⟩,
   .gacc ⟨4, 0, 6, 8, 1, 7, false, 0⟩,
   .gflush ⟨1, 0, 0, 8, 0, 7, false, 0⟩,
   .gfree ⟨0, 0, 0, 8, 0, 7, false, 1⟩,
   .tstat ⟨1, 0, 6, 8, 0, 7, false, 0⟩,
   .tclr ⟨0, 0, 6, 8, 0, 7, false, 0⟩] : List Instr) (fun i => !i.wf) = true := by decide

theorem test_refused_c : List.all ([.bra ⟨1, 1, 0, 0, 7, false⟩,
   .brx ⟨1, 1, 1, 0, 7, false⟩,
   .call ⟨1, 4, 6, 0, 7, false⟩,
   .callIndirect ⟨1, 4, 6, 1, 7, false⟩,
   .ret ⟨1, 4, 0, 0, 7, false⟩,
   .armend ⟨1, 0, 0, 0, 7, false⟩,
   .exit ⟨0, 1, 0, 0, 7, false⟩,
   .waitc ⟨65536, 0, 0, 0, 7, false⟩,
   .yield ⟨0, 0, 0, 1, 7, false⟩,
   .bar ⟨1048576, 0, 0, 0, 7, false⟩,
   .barr ⟨262145, 4, 0, 0, 7, false⟩,
   .barw ⟨16, 0, 0, 0, 7, false⟩,
   .cbar ⟨0, 4, 0, 0, 7, false⟩,
   .fopen ⟨1, 4, 0, 0, 7, false⟩,
   .fclose ⟨0, 4, 1, 0, 7, false⟩,
   .fwait ⟨0, 4, 1, 0, 7, false⟩,
   .tapePush ⟨0, 4, 1, 0, 7, false⟩,
   .tapeRun ⟨0, 4, 0, 0, 7, false⟩,
   .awaitTag ⟨16, 4, 0, 0, 7, false⟩,
   .awaitMem ⟨417, 4, 0, 6, 7, false⟩,
   .awaitQueue ⟨258, 4, 0, 0, 7, false⟩,
   .awaitScope ⟨3, 4, 5, 0, 7, false⟩,
   .awaitRed ⟨516, 4, 0, 0, 7, false⟩,
   .refill ⟨2048, 0, 8, 0, 7, false⟩,
   .rgrow ⟨1024, 0, 0, 0, 7, false⟩,
   .rshrink ⟨1, 1, 0, 0, 7, false⟩,
   .trap ⟨1, 1, 0, 0, 7, false⟩,
   .rft ⟨1, 0, 0, 0, 7, false⟩,
   .rftNext ⟨2, 0, 0, 0, 7, false⟩,
   .srd ⟨1, 456, 6, 0, 7, false⟩,
   .swr ⟨1, 456, 6, 0, 7, false⟩,
   .brk ⟨1, 0, 0, 0, 7, false⟩,
   .mark ⟨1, 4, 0, 0, 7, false⟩,
   .nclr ⟨257, 4, 0, 0, 7, false⟩] : List Instr) (fun i => !i.wf) = true := by decide

theorem test_refused_pair : List.all ([.pairWord ⟨12, 4, 1, 2, 0, 5, 2, 0, 7, false⟩, .pairWord ⟨0, 4, 1, 2, 13, 5, 2, 0, 7, false⟩,
   .pairWord ⟨5, 4, 1, 2, 0, 5, 2, 1, 7, false⟩, .pairWord ⟨11, 4, 1, 2, 0, 5, 2, 0, 7, false⟩, .pairWord ⟨0, 4, 1, 2, 11, 5, 2, 0, 7, false⟩,
   .pairWord ⟨0, 4, 1, 2, 0, 5, 5, 0, 7, false⟩, .pairWord ⟨0, 4, 1, 2, 0, 8, 2, 0, 7, false⟩, .pairWord ⟨0, 4, 1, 2, 0, 5, 4, 0, 7, false⟩,
   .pairWord ⟨0, 4, 1, 4, 0, 5, 2, 0, 7, false⟩] : List Instr) (fun i => !i.wf) = true := by decide

theorem test_refused_event : List.all ([.waitmMet 0 64,
   .mmaPerform 192,
   .contRecordResume 0 0 16,
   .tapePop 64,
   .ctxDestroy .mailbox 64,
   .debugStop .i3c 64 true,
   .xlateInv .i3c 64 0 0,
   .l1EvictDrop 192 0 0,
   .coreMove .mailbox 192 0,
   .blockDispatch 1 [⟨0, [192], [0], [0]⟩],
   .blockRestore 1 [⟨0, [0], [32], []⟩],
   .wdogExpire 1 false 16,
   .powerStep .mailbox 5,
   .reset ⟨true, [48, 48, 48], true⟩,
   .thermalReset ⟨true, [], true⟩,
   .firmwareUpdate .i3c ⟨false, [48], true⟩,
   .ctxCreate .mailbox ⟨64, 0, 0, 0, 64, 0, false, false, false, false, []⟩,
   .partSet .mailbox ⟨0, [], [192], [], false, false⟩,
   .sampleCfg .i3c ⟨[192], 6, 0⟩,
   .traceCfg .i3c 192 ⟨0, ⟨[], [], 0⟩, ⟨[], [], 0⟩⟩,
   .stallSample 192 ⟨0, 0, 0, 1, false⟩,
   .traceCondition 192 true false,
   .scrubVisit 0 16,
   .resourceRetire (.subcore 0 16),
   .errorCountWindowEnd (.columnStore 0 128),
   .errorCountWindowEnd (.dramRow 4 0),
   .errorCountWindowEnd (.l2Slice 4 0 0)] : List Instr) (fun i => !i.wf) = true := by decide

/-! ## A small device

Context 1 maps the first GiB of die 0's DRAM to itself and nothing else; block 10 of launch 7 stands on core 0 with warp
11, whose strand in entry 3 has four lanes and issues. -/

/-- Its page tables (R390, R391). -/
def tables : List Host.Cell := [(0x2000, 0x01), (0x2001, 0x30), (0x3000, 0x01), (0x3001, 0x40), (0x4000, 0x0F)]

/-- A launch record (R337): flags, blocks, the completion record's address and the trap handler's. -/
def recordOf (flags blocks done trap : Nat) : List Byte :=
  bytesOfNat 8 0x1000 ++ bytesOfNat 8 0x8000 ++ bytesOfNat 6 1 ++ bytesOfNat 2 flags ++ bytesOfNat 4 blocks ++ bytesOfNat 2 32 ++
  bytesOfNat 2 1 ++ bytesOfNat 2 64 ++ bytesOfNat 2 64 ++ bytesOfNat 4 0x1000 ++ bytesOfNat 2 512 ++ bytesOfNat 2 512 ++
  bytesOfNat 2 64 ++ bytesOfNat 2 0 ++ bytesOfNat 2 0xFFFF ++ bytesOfNat 6 0 ++ bytesOfNat 8 done ++ bytesOfNat 8 trap ++
  bytesOfNat 2 5 ++ bytesOfNat 54 0

def lau0 : Launch := { ctx := 1, bytes := recordOf 0 2 0x9000 0x5000, scope := none, stage := .running, nextB := 1 }
def ctx0 : Context := { root := 0x2000, save := 0x10000, diag := 0x20000, parts := [0] }
def blk0 : Block := { launch := 7, ctx := 1, b := 0, cores := [0], warps := [11], group := 12, rect := [(0, List.range 16)] }
def str0 : Strand := { members := 0xF, pc := 0x1000, slot := some 0, hdr := 0x03FFFF0000000000 }
def warp0 : Warp :=
  { block := 10, num := 0, core := 0, sub := 0, alloc := 64, active := true, live := 0xF, nextAge := 1, recAt := 0x10040,
    strands := [(3, str0)] }

def base : State :=
  { State.reset with mem := tables, warps := [(11, warp0)], blocks := [(10, blk0)], groups := [(12, ⟨[10], 0, []⟩)],
                     launches := [(7, lau0)], ctxs := [(1, ctx0)], nextId := 20, cur := some (11, 3),
                     cores := [(0, { ctx := some 1 })] }

/-- The issuing strand. -/
def me (s : State) : Iss := (issuer s).getD ⟨11, 3, warp0, str0, blk0, lau0, ctx0⟩

def inWarp (f : Warp → Warp) : State := { base with warps := [(11, f warp0)] }
def inStrand (f : Strand → Strand) : State := inWarp fun x => { x with strands := [(3, f str0)] }
def inCtx (f : Context → Context) : State := { base with ctxs := [(1, f ctx0)] }
def inBlock (f : Block → Block) : State := { base with blocks := [(10, f blk0)] }
/-- The device with scalar registers set. -/
def withS (m : Map Word) : State := inWarp fun x => { x with s := m }
def withV (m : Map Word) : State := inWarp fun x => { x with v := m }
/-- Bytes of memory beside the page tables. -/
def withMem (k : Nat) (bs : List Byte) (s : State) : State := { s with mem := putList s.mem k bs }

theorem test_base_canonical : base.Canonical := by constructor <;> decide

/-! ## Witnesses: states and operands that meet the hypotheses of each statement -/

/-- Fields of a V word: destination, sources, TYPE, KIND and MOD, guard p7. -/
def vF (d a b c : BitVec 9) (ty : Ty) (k : Kind) (mod : BitVec 3) : VFields := ⟨d, a, b, c, 0, 0, 0, 7, false, ty, false, k, mod⟩

theorem witness_VectorAluCompletes :
    let s := base; let i := me s; let f := vF 8 4 5 0 .i32 .vec 0; let g := guardMask i f.gp f.gn
    let sh := plainShape f.ty; let fn := addFn f; let keep := keepSum s f false
    (.add f, f, sh, fn, keep) ∈ vectorForms f s ∧
    MayRun s i (chkAll (vEnc i f) (vOpnd i f sh && vOk i f.d.toNat (span sh.wd))) (vUses i f sh) g ∧
    symbolicStop i g (routedReads i f sh g) = 0 ∧ tagOverflow i g (vecNote i f sh (keep i)) = 0 ∧
    (nsTrapIv i.warp.nstat = true → ivLanes (laneResults s i f sh (fn i.warp.nstat) g) = 0) :=
  ⟨List.mem_cons_self, ⟨rfl, by decide, by decide⟩, by decide, by decide, by decide⟩

theorem witness_ScalarAluCompletes :
    let s := base; let i := me s; let f := vF 8 4 5 0 .f32 .vec 0; let sh := plainShape f.ty; let fn := addFn f
    (.addS f, f, sh, fn) ∈ scalarForms f ∧
    MayRun s i (chkAll true (sOpnd i f sh && sOk i f.d.toNat (span sh.wd))) ((sUses f sh true).on (guardScalar i f.gp f.gn)) 0 ∧
    (guardScalar i f.gp f.gn = true → nsTrapIv i.warp.nstat = true → (scalResult i f sh (fn i.warp.nstat)).1.pen &&& pIV = 0) :=
  ⟨List.mem_cons_self, ⟨rfl, by decide, by decide⟩, by decide⟩
theorem witness_NopCompletes : issuer base = some (me base) := rfl

theorem witness_CompareCompletes :
    let s := base; let i := me s; let f := vF 3 4 5 0 .f32 .vec 0; let sh := plainShape f.ty; let g := guardMask i f.gp f.gn
    (MayRun s i (chkAll (vEnc i f) (vOpnd i f sh && pOk f.d.toNat)) (cmpUses i f) g ∧ symbolicStop i g (routedReads i f sh g) = 0 ∧
      cmpFull s i f g = 0 ∧ (nsTrapIv i.warp.nstat = true → ivLanes (laneResults s i f sh (cmpFn f i.warp.nstat) g) = 0)) ∧
    MayRun s i (chkAll true (sOpnd i f sh && pOk f.d.toNat)) ((sUses f sh false).on (guardScalar i f.gp f.gn)) 0 ∧
    (guardScalar i f.gp f.gn = true → nsTrapIv i.warp.nstat = true →
      (cmpOut f.ty f.mod.toNat i.warp.nstat (sVal i.warp sh.wa f.a.toNat) (srcS i f sh.wb)).2 = false) :=
  ⟨⟨⟨rfl, by decide, by decide⟩, by decide, by decide, by decide⟩, ⟨rfl, by decide, by decide⟩, by decide⟩

theorem witness_SelectCompletes :
    let s := base; let i := me s; let f := vF 6 4 8 7 .b64 .vec 0; let sh := plainShape f.ty; let g := guardMask i f.gp f.gn
    (MayRun s i (chkAll (vEnc i f) (vOpnd i f sh && vOk i f.d.toNat (span sh.wd) && pOk f.c.toNat)) (selUses i f) g ∧
      symbolicStop i g (routedReads i f sh g) = 0) ∧
    MayRun s i (chkAll true (sOpnd i f (plainShape f.ty) && (sOk i f.d.toNat (span (tyWide f.ty)) && pOk f.c.toNat)))
      ((sUses f (plainShape f.ty) true).on (guardScalar i f.gp f.gn)) 0 :=
  ⟨⟨⟨rfl, by decide, by decide⟩, by decide⟩, ⟨rfl, by decide, by decide⟩⟩

/-- Each clause, with the predicate that is never written (p7, q7) as destination. -/
theorem witness_PredicateInstructionsComplete :
    let s := base; let i := me s; let f := vF 7 1 2 0 .b32 .vec 0; let b := vF 7 0 2 0 .b32 .vec 1; let g := guardMask i f.gp f.gn
    MayRun s i (chkAll true (pOk f.d.toNat && pOk f.a.toNat && pOk f.b.toNat)) (psetUses f) g ∧
    MayRun s i (chkAll true (pOk f.d.toNat && pOk f.a.toNat && pOk f.b.toNat)) { shadow := true } 0 ∧
    MayRun s i (chkAll true (vOk i f.d.toNat 1)) (pmovUses f) g ∧
    MayRun s i (chkAll true (bOk i b false)) (pmovSetUses i b) g ∧
    (f.mod = 0 ∧ MayRun s i (chkAll true (sOk i f.d.toNat 1)) { sw := [f.d.toNat], shadow := true } 0) ∧
    (b.mod ≠ 0 ∧ MayRun s i (chkAll true (sOpnd i b (oneShape .b32))) ((sUses b (oneShape .b32) false).on (guardScalar i b.gp b.gn)) 0) ∧
    MayRun s i (chkAll true (pOk f.d.toNat)) (electUses f) g :=
  ⟨⟨rfl, by decide, by decide⟩, ⟨rfl, by decide, by decide⟩, ⟨rfl, by decide, by decide⟩, ⟨rfl, by decide, by decide⟩,
    ⟨rfl, rfl, by decide, by decide⟩, ⟨by decide, rfl, by decide, by decide⟩, ⟨rfl, by decide, by decide⟩⟩

theorem witness_PairWordCompletes :
    let s := base; let i := me s; let f : PFields := ⟨0, 12, 13, 20, 1, 17, 14, 0, 7, false⟩; let g := guardMask i f.gp f.gn
    f.da ≠ f.db ∧ MayRun s i (pairChk i f) (pairUses i f) g ∧ tagOverflow i g (pairNote s i f) = 0 ∧
    (nsTrapIv i.warp.nstat = true → ivLanes (pairOutA s i f) ||| ivLanes (pairOutB s i f) = 0) :=
  ⟨by decide, ⟨rfl, by decide, by decide⟩, by decide, by decide⟩

theorem witness_LaneInstructionsComplete :
    let s := base; let i := me s; let v := vF 3 0 7 4 .b32 .vec 0; let r := vF 3 0 7 4 .i32 .vec 0; let m := vF 3 0 6 0 .b32 .vec 3
    let p := vF 3 0 6 31 .b32 .scal 0; let t := vF 3 0 6 31 .b32 .vec 0; let g := guardMask i 7 false
    MayRun s i (chkAll true (vOk i v.d.toNat 1 && vOk i v.c.toNat 1 && pOk v.b.toNat && v.c != v.d)) (voteUses v) g ∧
    (MayRun s i (chkAll (routeOk i r.rb) (vOk i r.d.toNat (span (tyWide r.ty)) && vOk i r.b.toNat (span (tyWide r.ty)) &&
        vOk i r.c.toNat 1 && !(regs r.d.toNat (tyWide r.ty)).contains r.c.toNat)) (redwUses i r) g ∧
      symbolicStop i g (redwUses i r).vm = 0 ∧ (nsTrapIv i.warp.nstat = true → ivLanes (redwOuts i r g) = 0)) ∧
    (MayRun s i (chkAll (!decide (m.mod = 3) || routeOk i m.rb) (vOk i m.d.toNat 1 &&
        (if decide (m.mod = 3) then vOk i m.b.toNat (span (tyWide m.ty)) else pOk m.b.toNat))) (lanesUses i m) g ∧
      symbolicStop i g (lanesUses i m).vm = 0) ∧
    MayRun s i (chkAll true (vOk i p.d.toNat (span (tyWide p.ty)) && bOk i p (tyWide p.ty) && namedLaneOk i p)) (vputUses p)
      (guardMask i p.gp p.gn &&& laneBit (namedLane i p)) ∧
    (MayRun s i (chkAll (routeOk i t.rb) (sOk i t.d.toNat (span (tyWide t.ty)) && vOk i t.b.toNat (span (tyWide t.ty)) &&
        namedLaneOk i t)) (vgetUses i t) 0 ∧ symbolicStop i (guardMask i t.gp t.gn) (vgetUses i t).vm = 0) :=
  ⟨⟨rfl, by decide, by decide⟩, ⟨⟨rfl, by decide, by decide⟩, by decide, by decide⟩, ⟨⟨rfl, by decide, by decide⟩, by decide⟩,
    ⟨rfl, by decide, by decide⟩, ⟨⟨rfl, by decide, by decide⟩, by decide⟩⟩

theorem witness_TransfersComplete :
    let s := withS [(4, 0x1000)]; let i := me s; let f : CFields := ⟨1, 4, 0, 0, 7, false⟩; let n : CFields := ⟨1, 4, 0, 0, 7, true⟩
    ((.brx f, sPair i f.a, { sr := regs f.a.toNat true }, false, BitVec.ofNat 64 (sVal i.warp true f.a.toNat) +
        BitVec.ofInt 64 (8 * f.disp.toInt), none) ∈ transfers f i ∧
      MayRun s i (chkAll true (sPair i f.a)) { ({ sr := regs f.a.toNat true } : Uses) with shadow := true, act := guardScalar i f.gp f.gn } 0 ∧
      guardScalar i f.gp f.gn = true ∧
      (BitVec.ofNat 64 (sVal i.warp true f.a.toNat) + BitVec.ofInt 64 (8 * f.disp.toInt)).toNat % 8 = 0) ∧
    ((.bra n, true, {}, true, labelAt i n.disp.toInt, none) ∈ transfers n i ∧
      MayRun s i (chkAll true true) { ({} : Uses) with shadow := true, act := guardScalar i n.gp n.gn } 0 ∧ guardScalar i n.gp n.gn = false) :=
  ⟨⟨.tail _ (.head _), ⟨rfl, by decide, by decide⟩, by decide, by decide⟩, .head _, ⟨rfl, by decide, by decide⟩, by decide⟩

/-- A free choice takes a member. -/
theorem pick_mem {α : Type} {xs : List α} (h : xs ≠ []) (c : Nat) : ∃ k, pick xs c = some k ∧ k ∈ xs := by
  have hc : c % xs.length < xs.length := Nat.mod_lt _ (List.length_pos_iff.mpr h)
  exact ⟨_, List.getElem?_eq_getElem hc, List.getElem_mem hc⟩

/-- Two free choices take two members. -/
theorem pick_two {xs : List Nat} {j : Nat} (h : 2 ≤ xs.length) (hj : j ∉ xs) (c d : Nat) :
    ∃ k1 k2, pick xs c = some k1 ∧ pick (xs.erase k1) d = some k2 ∧ k1 ≠ j ∧ k2 ≠ j := by
  obtain ⟨k1, e1, m1⟩ := pick_mem (xs := xs) (by intro e; simp [e] at h) c
  have hl := List.length_erase_of_mem m1
  obtain ⟨k2, e2, m2⟩ := pick_mem (xs := xs.erase k1) (by intro e; rw [e] at hl; simp at hl; omega) d
  exact ⟨k1, k2, e1, e2, fun e => hj (e ▸ m1), fun e => hj (e ▸ List.mem_of_mem_erase m2)⟩

/-- The clauses: a split with two free entries, all entries taken, all lanes of one mind, a false guard. -/
theorem witness_ForkCompletes :
    let s := inWarp fun x => { x with p := [(1, 3)] }; let i := me s; let f : CFields := ⟨7, 1, 9, 0, 7, false⟩
    let full := inWarp fun x => { x with p := [(1, 3)], strands := (List.range 64).map fun k => (k, { str0 with members := if k = 3 then 0xF else 0 }) }
    let j := me full; let g : CFields := ⟨7, 2, 9, 0, 7, false⟩; let n : CFields := ⟨7, 1, 9, 0, 7, true⟩
    let u (i : Iss) (f : CFields) : Uses :=
      { pr := [f.a.toNat], po := [f.a.toNat], mem := true, shadow := true, act := guardScalar i f.gp f.gn }
    let t (i : Iss) (f : CFields) : Mask := i.lanes &&& maskOf (pR i.warp f.a.toNat); let free := freeEntries s i.core i.warp.sub
    (MayRun s i (chkAll true (pOk f.a.toNat)) (u i f) 0 ∧ guardScalar i f.gp f.gn = true ∧ regionLanes i &&& i.lanes = 0 ∧
      (∃ k1 k2, pick free (choice s 1) = some k1 ∧ pick (free.erase k1) (choice s 2) = some k2 ∧ k1 ≠ i.k ∧ k2 ≠ i.k) ∧
      t i f ≠ 0 ∧ i.lanes &&& ~~~(t i f) ≠ 0 ∧ i.warp.strands.length + 2 ≤ Config.strandsPerWarp ∧ i.st.depth ≠ Config.maxDepth) ∧
    (MayRun full j (chkAll true (pOk f.a.toNat)) (u j f) 0 ∧ stackDepth j.warp < 64 ∧ t j f ≠ 0 ∧ j.lanes &&& ~~~(t j f) ≠ 0 ∧
      freeEntries full j.core j.warp.sub = [] ∧ Config.strandsPerWarp < j.warp.strands.length + 2) ∧
    (MayRun s i (chkAll true (pOk g.a.toNat)) (u i g) 0 ∧ stackDepth i.warp < 64 ∧ t i g = 0) ∧
    (MayRun s i (chkAll true (pOk n.a.toNat)) (u i n) 0 ∧ guardScalar i n.gp n.gn = false) :=
  ⟨⟨⟨rfl, by decide, by decide⟩, by decide, by decide, pick_two (by decide) (by decide) _ _, by decide, by decide, by decide, by decide⟩,
    ⟨⟨rfl, by decide, by decide⟩, by decide, by decide, by decide, by decide, by decide⟩,
    ⟨⟨rfl, by decide, by decide⟩, by decide, by decide⟩, ⟨rfl, by decide, by decide⟩, by decide⟩
/-- The strand as the continuation of a fork whose arms have ended, two lanes in each. -/
def fork0 : Fork := ⟨0x1000, 0x1000, ⟨3, 0, [], []⟩, ⟨12, 0, [], []⟩, .split, none, 15⟩
def joining : State := inWarp fun x => { x with forks := [(0, fork0)], strands := [(3, { str0 with cont := some 0 })] }

theorem witness_JoinsComplete :
    let s := joining; let i := me s; let f := vF 6 2 4 0 .b64 .vec 0; let p := vF 7 2 4 0 .b32 .vec 0; let g := guardMask i 7 false
    let w := tyWide f.ty
    (contFork i = some fork0 ∧
      MayRun s i (chkAll true (vOk i f.d.toNat (span w) && vOk i f.a.toNat (span w) && vOk i f.b.toNat (span w))) (joinUses i f fork0) g ∧
      joinReady s i f fork0 = true ∧ regionLanes i &&& g = 0) ∧
    MayRun s i (chkAll true (pOk p.d.toNat && pOk p.a.toNat && pOk p.b.toNat)) (joinpUses p) g ∧
    joinpReady i p fork0 = true ∧ g &&& ~~~(fork0.t.lanes ||| fork0.e.lanes) = 0 :=
  ⟨⟨by decide, ⟨rfl, by decide, by decide⟩, by decide, by decide⟩, ⟨rfl, by decide, by decide⟩, by decide, by decide⟩

theorem witness_HoistAndWaitsComplete :
    let s := inWarp fun x => { x with forks := [(0, { fork0 with t := ⟨3, 3, [], []⟩, phase := .split })], ld := 2,
                                      strands := [(3, { str0 with members := 3, arm := some (0, false) })] }
    let i := me s; let f := vF 6 2 4 0 .b32 .vec 2; let c : CFields := ⟨0xFF21, 0, 0, 0, 7, false⟩
    (MayRun s i (chkAll true ((hoistNames f).all fun r => if decide (f.kind ≠ .vec) then pOk r else vOk i r 1))
        { pr := guardReads f.gp, shadow := true } 0 ∧ regionLanes i &&& guardMask i f.gp f.gn = 0 ∧
      armsOf i.warp i.st ≠ [] ∧ hoistNames f ≠ []) ∧
    (MayRun s i none {} 0 ∧ guardScalar i c.gp c.gn = true ∧
      dueTrap i.warp i.st (pointOfBounds (waitBounds c)) = none ∧ boundsMet i.warp (waitBounds c) = true) ∧
    MayRun s i none { shadow := true } 0 :=
  ⟨⟨⟨rfl, by decide, by decide⟩, by decide, by decide, by decide⟩, ⟨⟨rfl, rfl, by decide⟩, by decide, by decide, by decide⟩,
    ⟨rfl, rfl, by decide⟩⟩

/-- `armend` of the last lanes of a then-arm that runs alone before its else-arm; a false guard beside it. -/
theorem witness_ArmendAndExitComplete :
    let k : Fork := ⟨0x1000, 0x1000, ⟨3, 3, [], []⟩, ⟨12, 12, [], []⟩, .runThen, none, 15⟩
    let s := inWarp fun x => { x with forks := [(0, k)], strands := [(3, { str0 with members := 3, arm := some (0, false) })] }
    let i := me s; let f : CFields := ⟨0, 0, 0, 0, 7, false⟩; let n : CFields := ⟨0, 0, 0, 0, 7, true⟩
    s.Canonical ∧ MayRun s i none { mem := true, shadow := true } 0 ∧ guardScalar i f.gp f.gn = true ∧
    regionLanes i &&& i.lanes = 0 ∧ i.st.arm = some (0, false) ∧ mLook i.warp.forks 0 = some k ∧
    ((armAt k false).left &&& ~~~i.st.members = 0 ∧ k.phase = .runThen ∧ k.e.left ≠ 0) ∧
    k.alive ≠ 0 ∧ MayRun s i none { shadow := true } 0 ∧ guardScalar i n.gp n.gn = false ∧
    (i.warp.strands.all fun e => e.2.trap.isNone) = true ∧ i.warp.heldStrands = [] :=
  ⟨by constructor <;> decide, ⟨rfl, rfl, by decide⟩, by decide, by decide, by decide, by decide, by decide, by decide,
    ⟨rfl, rfl, by decide⟩, by decide, by decide, by decide⟩

/-- Waiting for phase 0 of a barrier in phase 1, a false guard, and `barw` of lanes that never arrived. -/
theorem witness_BarrierWaitsComplete :
    let at1 : Map Barrier := [(15, { phase := 1 })]
    let s := { inBlock (fun b => { b with bars := at1 }) with warps := [(11, { warp0 with strands := [(3, { str0 with wait := .barrier false 15 0 })] })] }
    let i := me s; let f : CFields := ⟨15, 0, 0, 0, 7, false⟩; let n : CFields := ⟨15, 0, 0, 0, 7, true⟩
    let t := { inBlock (fun b => { b with bars := at1 }) with warps := [(11, { warp0 with barr := [(480, 1), (481, 1), (482, 1), (483, 1)] })] }
    let j := me t
    (MayRun s i none {} 0 ∧ i.st.wait = .barrier false 15 0 ∧ 0 < (barAt s i false 15).phase) ∧
    ((∀ cl bid p, j.st.wait ≠ .barrier cl bid p) ∧ guardScalar j n.gp n.gn = false ∧
      MayRun t j (chkAll true (barOpnd j n && barCnt n)) { sr := barReads n, mem := true, shadow := true, act := guardScalar j n.gp n.gn } 0) ∧
    MayRun t j (chkAll true (barOpnd j f && barCnt f)) { sr := barReads f, mem := true, shadow := true, act := guardScalar j f.gp f.gn } 0 ∧
    guardScalar j f.gp f.gn = true ∧ barValues j f = true ∧ regionLanes j &&& j.lanes = 0 ∧
    barwPhase j (barId j f) (barAt t j false (barId j f)).phase < (barAt t j false (barId j f)).phase :=
  ⟨⟨⟨rfl, rfl, by decide⟩, by decide, by decide⟩, ⟨fun _ _ _ h => Wait.noConfusion h, by decide, ⟨rfl, by decide, by decide⟩⟩,
    ⟨rfl, by decide, by decide⟩, by decide, by decide, by decide, by decide⟩

theorem witness_BarrierArrivals :
    let s := base; let i := me s; let f : CFields := ⟨15, 0, 0, 0, 7, false⟩
    (∀ cl bid p, i.st.wait ≠ .barrier cl bid p) ∧ Arrives s i f false ∧ Arrives s i f true ∧
    mLook s.groups i.blk.group = some ⟨[10], 0, []⟩ :=
  ⟨fun _ _ _ h => Wait.noConfusion h,
    ⟨⟨rfl, by decide, by decide⟩, by decide, by decide, by decide, by decide, by decide, fun _ h => nomatch h⟩,
    ⟨⟨rfl, by decide, by decide⟩, by decide, by decide, by decide, by decide, by decide, fun _ h => nomatch h⟩, by decide⟩

/-- A handler address and no handler; a handler that runs beside the strand; the handler itself; no handler address. -/
theorem witness_TrapsAreTaken :
    let s := base; let i := me s; let f : CFields := ⟨0xFFFFFF, 0, 0, 0, 7, false⟩
    let t := inWarp fun x => { x with handler := some ⟨str0, 3, {cause := .brk}⟩ }; let j := me t
    let h := inWarp fun x => { x with handler := some ⟨str0, 3, {cause := .brk}⟩, strands := [(3, { str0 with handler := true })] }
    let u := { base with launches := [(7, { lau0 with bytes := recordOf 0 2 0x9000 0 })] }
    (MayRun s i none { shadow := true } 0 ∧ guardScalar i f.gp f.gn = true ∧ TrapNow i ∧ i.st.wait ≠ .debugStop ∧
      i.ctx.debugStop = false ∧ i.st.handler = false ∧ i.lau.trap ≠ 0 ∧ i.warp.handler = none ∧
      areaWritable s i.ctx i.warp.recAt.toNat 64 = true) ∧
    (MayRun t j none {} 0 ∧ TrapNow j ∧ j.st.handler = false ∧ j.lau.trap ≠ 0 ∧ j.warp.handler.isSome = true) ∧
    (MayRun h (me h) none {} 0 ∧ TrapNow (me h) ∧ (me h).st.handler = true ∧ (me h).warp.handler = some ⟨str0, 3, {cause := .brk}⟩) ∧
    MayRun u (me u) none {} 0 ∧ TrapNow (me u) ∧ (me u).st.handler = false ∧ (me u).lau.trap = 0 :=
  ⟨⟨⟨rfl, rfl, by decide⟩, by decide, .inl (by decide), by decide, by decide, by decide, by decide, by decide, by decide⟩,
    ⟨⟨rfl, rfl, by decide⟩, .inl (by decide), by decide, by decide, by decide⟩, ⟨⟨rfl, rfl, by decide⟩, .inl (by decide), by decide, rfl⟩,
    ⟨rfl, rfl, by decide⟩, .inl (by decide), by decide, by decide⟩

/-- The handler of a trap at slot 0 returns; its clause stands in memory. -/
theorem witness_ReturnsFromTrap :
    let T : Trap := { cause := .swtrap, dpc := 0x1008, hdrAt := 0x1000, slot := some 0 }
    let s := withMem 0x1000 (bytesOfNat 8 0x50FFFF0000000000 ++ bytesOfNat 8 0xE80000000000001C)
      (inWarp fun x => { x with handler := some ⟨str0, 3, T⟩, strands := [(3, { str0 with pc := 0x5000, handler := true })] })
    let i := me s; let f : CFields := ⟨0, 0, 0, 0, 7, false⟩
    MayRun s i none { mem := true, shadow := true } 0 ∧ guardScalar i f.gp f.gn = true ∧ i.warp.handler = some ⟨str0, 3, T⟩ ∧
    i.st.handler = true ∧ i.st.arm = none ∧ i.st.members = str0.members ∧
    (i.warp.strands.all fun e => e.2.trap.isNone) = true ∧ str0.trap = none ∧ s.Canonical ∧ mSorted i.warp.strands = true ∧
    T.slot = some 0 ∧ fetch s i T.hdrAt.toNat = .word 0x50FFFF0000000000 0x1000 ∧
    fetch s i T.dpc.toNat = .word 0xE80000000000001C 0x1008 :=
  ⟨⟨rfl, rfl, by decide⟩, by decide, rfl, by decide, by decide, by decide, by decide, by decide, by constructor <;> decide, by decide,
    by decide, by decide, by decide⟩
/-- The first and the last special register, the widest one, `%nstat`, and both forms of the mask of `nclr`. -/
theorem witness_SpecialRegisterInstructionsComplete :
    let s := base; let i := me s; let f : CFields := ⟨1, 463, 6, 0, 7, false⟩; let g : CFields := ⟨0, 450, 7, 0, 7, false⟩
    let w : CFields := ⟨0, 456, 6, 0, 7, false⟩; let r : CFields := ⟨256, 9, 0, 0, 7, false⟩; let m : CFields := ⟨0xFF, 0, 0, 0, 7, false⟩
    (specialIs64 f.a.toNat = true ∧ MayRun s i (chkAll true (sOk i f.b.toNat (span true))) { sw := regs f.b.toNat true, shadow := true, act := guardScalar i f.gp f.gn } 0) ∧
    (MayRun s i (chkAll true (sOk i g.b.toNat (span false))) { sw := regs g.b.toNat false, shadow := true, act := guardScalar i g.gp g.gn } 0) ∧
    MayRun s i (chkAll true (decide (w.a.toNat = 456) && sOk i w.b.toNat 1)) { sr := [w.b.toNat], shadow := true, act := guardScalar i w.gp w.gn } 0 ∧
    MayRun s i (chkAll true (!r.disp.getLsbD 8 || sOk i r.a.toNat 1)) { sr := if r.disp.getLsbD 8 then [r.a.toNat] else [], act := guardScalar i r.gp r.gn } 0 ∧
    MayRun s i (chkAll true (!m.disp.getLsbD 8 || sOk i m.a.toNat 1)) { sr := if m.disp.getLsbD 8 then [m.a.toNat] else [], act := guardScalar i m.gp m.gn } 0 :=
  ⟨⟨rfl, rfl, by decide, by decide⟩, ⟨rfl, by decide, by decide⟩, ⟨rfl, by decide, by decide⟩, ⟨rfl, by decide, by decide⟩,
    ⟨rfl, by decide, by decide⟩⟩

/-- A core whose trace unit is on, and a context with debug-stop on. -/
theorem witness_MarkAndDebugStopComplete :
    let s := { base with cores := [(0, { ctx := some 1, tracer := some { args := ⟨0, ⟨[], [], 0⟩, ⟨[], [], 0⟩⟩, on := true } })] }
    let i := me s; let f : CFields := ⟨0x10001, 7, 0, 0, 7, false⟩
    let d := inCtx fun c => { c with debugStop := true }; let n : CFields := ⟨0, 0, 0, 0, 7, true⟩
    (MayRun s i (chkAll true (!f.disp.getLsbD 16 || sOk i f.a.toNat 1)) { sr := if f.disp.getLsbD 16 then [f.a.toNat] else [], act := guardScalar i f.gp f.gn } 0 ∧
      ((coreOf s i.core).tracer.any (·.on)) = true ∧ guardScalar i f.gp f.gn = true) ∧
    (MayRun d (me d) none {} 0 ∧ (me d).st.wait ≠ .debugStop ∧ guardScalar (me d) n.gp n.gn = false ∧
      guardScalar (me d) f.gp f.gn = true ∧ (me d).ctx.debugStop = true ∧ TrapNow (me d)) :=
  ⟨⟨⟨rfl, by decide, by decide⟩, by decide, by decide⟩, ⟨rfl, by decide, by decide⟩, by decide, by decide, by decide, by decide,
    .inl (by decide)⟩

/-! ### Memory -/

/-- Fields of an M word on global memory, address pair `a`, at block scope. -/
def mF (d a e : BitVec 9) (ofs : BitVec 11) (w : Width) : MFields := ⟨d, a, e, ofs, true, 0, 7, false, .glob, w, .relaxed, .block⟩

/-- Each of the four accesses, and one with no lane. -/
theorem witness_AccessesIssue :
    let s := base; let i := me s; let f := mF 8 4 6 0 .w32; let g := guardMask i f.gp f.gn
    let ok (fs : List LaneFate) := firstStop fs = none ∧ absentLanesOf fs = [] ∧ okLanes fs ≠ []
    ((∃ e ∈ accessForms f s i, e.1 = .ld f) ∧ MayRun s i (chkAll true (addrOk i f && vOk i f.d.toNat 1)) (ldUses f) g ∧
      ok (fatesOf s i f (addrAt i f) g true false) ∧ counterFull i.warp .load = false) ∧
    (MayRun s i (chkAll (routeOk i f.rd) (addrOk i f && vOk i f.d.toNat 1)) (sendUses i f (dataRegs f) g) g ∧
      regionLanes i &&& g = 0 ∧ ok (fatesOf s i f (addrAt i f) g false true) ∧ counterFull i.warp .store = false) ∧
    (MayRun s i (chkAll true (atomOpnd i f)) (atomUses f) g ∧ ok (fatesOf s i f (plainAt i f) g true true) ∧
      counterFull i.warp (.atom (sopOf f) (!noReturn f)) = false) ∧
    (MayRun s i (chkAll (routeOk i f.rd) (addrOk i f && vOk i f.d.toNat (span (f.width = .w64))))
      (sendUses i f (regs f.d.toNat (f.width = .w64)) g) g ∧ counterFull i.warp (.red (sopOf f)) = false) ∧
    okLanes (fatesOf s i f (addrAt i f) 0 true false) = [] :=
  ⟨⟨⟨_, .head _, rfl⟩, ⟨rfl, by decide, by decide⟩, by decide, by decide⟩, ⟨⟨rfl, by decide, by decide⟩, by decide, by decide, by decide⟩,
    ⟨⟨rfl, by decide, by decide⟩, by decide, by decide⟩, ⟨⟨rfl, by decide, by decide⟩, by decide⟩, by decide⟩

/-- A misaligned load. -/
theorem witness_AccessChecksTrap :
    let s := withS [(4, 0x102)]; let i := me s; let f := mF 8 4 6 0 .w32; let g := guardMask i f.gp f.gn
    (∃ e ∈ accessForms f s i, e.1 = .ld f) ∧ MayRun s i (chkAll true (addrOk i f && vOk i f.d.toNat 1)) (ldUses f) g ∧
    firstStop (fatesOf s i f (addrAt i f) g true false) = some (.misalign, 0xF, 0x102, 0) ∧ TrapNow i ∧ i.st.handler = false ∧
    i.lau.trap ≠ 0 ∧ i.warp.handler = none ∧ areaWritable s i.ctx i.warp.recAt.toNat 64 = true :=
  ⟨⟨_, .head _, rfl⟩, ⟨rfl, by decide, by decide⟩, by decide, .inl (by decide), by decide, by decide, by decide, by decide⟩

/-- Lanes 0 and 1 load from the second GiB, which is not mapped. -/
theorem witness_AbsentPagesPark :
    let s := withV [(128, 0x40000000), (129, 0x40000000)]; let i := me s
    let f : MFields := ⟨8, 4, 0, 0, false, 0, 7, false, .glob, .w32, .relaxed, .block⟩; let g := guardMask i f.gp f.gn
    let fs := fatesOf s i f (addrAt i f) g true false
    (∃ e ∈ accessForms f s i, e.1 = .ld f) ∧ MayRun s i (chkAll true (addrOk i f && vOk i f.d.toNat 1)) (ldUses f) g ∧
    regionLanes i &&& g = 0 ∧ firstStop fs = none ∧ absentLanesOf fs = [(0, 0x40000000), (1, 0x40000000)] ∧ f.rd = 0 ∧
    counterFull i.warp .load = false :=
  ⟨⟨_, .head _, rfl⟩, ⟨rfl, by decide, by decide⟩, by decide, by decide, by decide, rfl, by decide⟩

/-- The last two units of a load, which one read serves, and the one unit of an atomic on scratch. -/
theorem witness_AccessesPerform :
    let u : MUnit := ⟨0, .glob 0x1000, 8, 6, 0, 0, false⟩; let v : MUnit := ⟨31, .scr 10 16, 4, 6, 1, 0, false⟩
    let o : MemOp := { w := 11, blk := 10, ctx := 1, core := 0, kind := .load, lanes := 7, shared := true,
                       units := [{ u with lane := 2, done := true }, u, { u with lane := 1 }] }
    let a : MemOp := { w := 11, blk := 10, ctx := 1, core := 0, kind := .atom 0 true, lanes := 0x80000000, units := [v] }
    let s := { base with ops := [(20, o), (21, a)], warps := [(11, { warp0 with ld := 2 })] }
    (mLook s.ops 20 = some o ∧ o.units[1]? = some u ∧ o.units.filter (served o u) = [u, { u with lane := 1 }] ∧
      (∀ v ∈ o.units.filter (served o u), mayPerform s 20 o v = true) ∧ (mLook s.warps o.w).isSome = true ∧ o.kind ≠ .fence ∧
      (o.shared = true → o.kind.isWrite = false)) ∧
    a.units.filter (served a v) = [v] ∧ (∀ y ∈ a.units.filter (served a v), mayPerform s 21 a y = true) ∧
    (∀ b k, v.loc = .scr b k → (mLook s.blocks b).isSome = true) :=
  ⟨⟨rfl, rfl, by decide, by decide, rfl, by decide, by decide⟩, by decide, by decide, fun b k h => by cases h; rfl⟩

theorem witness_FenceAndPrefetchComplete :
    let o : MemOp := { w := 11, blk := 10, ctx := 1, core := 0, kind := .store, lanes := 1, units := [⟨0, .glob 0x1000, 4, 0, 1, 0, false⟩] }
    let s := base; let t := { base with ops := [(15, o)] }; let i := me s; let j := me t; let f := mF 0 4 0 0 .w8
    let g := guardMask i f.gp f.gn
    (MayRun s i none { pr := guardReads f.gp, mem := true, shadow := true } g ∧ inFlight s i.w g = false) ∧
    (MayRun t j none { pr := guardReads f.gp, mem := true, shadow := true } g ∧ inFlight t j.w g = true) ∧
    MayRun s i (chkAll true (addrOk i f)) { vr := addrV f, sr := addrS f, pr := guardReads f.gp, mem := true, act := false } g :=
  ⟨⟨⟨rfl, rfl, by decide⟩, by decide⟩, ⟨⟨rfl, rfl, by decide⟩, by decide⟩, ⟨rfl, by decide, by decide⟩⟩

/-- A `waitm` for equality with 0 at issue, and one whose lanes 0 and 1 have met, evaluated afresh. -/
theorem witness_MemoryWaitsComplete :
    let f := mF 0 4 8 0 .w32; let w : DWord := 0xA800010100027040
    let s := base; let i := me s; let g := guardMask i f.gp f.gn
    let t := withMem 0x1008 (bytesOfNat 8 w.toNat) (inStrand fun x => { x with wait := .met 3 }); let j := me t
    let ready (s : State) (i : Iss) := chkAll true (addrOk i f && vOk i f.e.toNat 1) = none ∧ gate s i (waitmUses f) g = .go ∧
      regionLanes i &&& g = 0 ∧ firstStop (fatesOf s i f (addrAt i f) (g &&& ~~~(metBefore i)) true false) = none ∧
      absentLanesOf (fatesOf s i f (addrAt i f) (g &&& ~~~(metBefore i)) true false) = [] ∧
      g &&& ~~~(metBefore i ||| metLanes s i f (fatesOf s i f (addrAt i f) (g &&& ~~~(metBefore i)) true false)) = 0
    (ready s i ∧ issuer s = some i) ∧ ready t j ∧ strandAt t j.w j.k = some j ∧ j.st.wait = .met 3 ∧ instrAt t j = some (.waitm f) :=
  ⟨⟨by decide, rfl⟩, by decide, rfl, rfl, rfl⟩
/-- A `seal` of one page of the first GiB, the mark and its end, and the `unseal` of a sealed page. -/
theorem witness_SealsComplete :
    let f := mF 0 4 6 0 .w8; let r : Map Word := [(4, 0x10000), (6, 0x1000)]
    let s := withS r; let i := me s; let g := guardMask i f.gp f.gn; let n := mF 0 4 6 0 .w8
    let sealedOne := { (withS r) with ctxs := [(1, { ctx0 with sealed := [(0x10000, 0x1000)] })] }
    let w := inStrand fun x => { x with wait := .sealing 0x10000 0x1000 }
    let m := { w with ctxs := [(1, { ctx0 with marks := [(0x10000, 0x1000)] })] }
    let u := { inStrand (fun x => { x with wait := .unsealing 0x10000 0x1000 }) with ctxs := [(1, { ctx0 with sealed := [(0x10000, 0x1000)] })] }
    (MayRun s i (chkAll true (sealOpnd i f)) (sealUses f) g ∧ (∀ b n, i.st.wait ≠ .sealing b n ∧ i.st.wait ≠ .unsealing b n) ∧
      g ≠ 0 ∧ sVal i.warp true f.a.toNat % 4096 = 0 ∧ sVal i.warp true f.e.toNat = 4096 ∧
      firstUnmapped s i.ctx 0x10000 1 = none ∧ (sealedOrAsked s i.cid i.ctx).length < 64 ∧
      touchesAny (sealedOrAsked s i.cid i.ctx) 0x10000 0x1000 = false) ∧
    ((me sealedOne).ctx.sealed.contains (0x10000, 0x1000) = true ∧
      MayRun sealedOne (me sealedOne) (chkAll true (sealOpnd (me sealedOne) n)) (sealUses n) (guardMask (me sealedOne) n.gp n.gn)) ∧
    (strandAt w 11 3 = some (me w) ∧ (me w).st.wait = .sealing 0x10000 0x1000 ∧
      (me w).ctx.marks.contains (0x10000, 0x1000) = false ∧ touchesAny ((me w).ctx.sealed ++ (me w).ctx.marks) 0x10000 0x1000 = false) ∧
    (strandAt m 11 3 = some (me m) ∧ (me m).ctx.marks.contains (0x10000, 0x1000) = true ∧
      rangeInFlight m 1 (me m).ctx MKind.isWrite 0x10000 0x1000 = false) ∧
    strandAt u 11 3 = some (me u) ∧ (me u).st.wait = .unsealing 0x10000 0x1000 ∧
    rangeInFlight u 1 (me u).ctx (fun k => !k.isWrite) 0x10000 0x1000 = false :=
  ⟨⟨⟨rfl, by decide, by decide⟩, fun _ _ => ⟨fun h => Wait.noConfusion h, fun h => Wait.noConfusion h⟩, by decide, by decide, by decide,
      by decide, by decide, by decide⟩, ⟨by decide, ⟨rfl, by decide, by decide⟩⟩, ⟨rfl, rfl, by decide, by decide⟩, ⟨rfl, by decide, by decide⟩,
    rfl, rfl, by decide⟩
/-! ### Engine operations -/

/-- A shape record: 64 elements of an f32 row at 0x20000, of which a box takes 32. -/
def shapeBytes : List Byte :=
  bytesOfNat 8 0x20000 ++ bytesOfNat 1 1 ++ bytesOfNat 1 9 ++ bytesOfNat 2 0 ++ bytesOfNat 4 64 ++ bytesOfNat 16 0 ++ bytesOfNat 16 0 ++
  bytesOfNat 2 32 ++ bytesOfNat 8 0 ++ bytesOfNat 6 0

theorem withShape_at {s : State} {i : Iss} {va : Nat} {b : Bool} {r : List Byte} (h : readRecord s i va 8 = .bytes r)
    (hh : recordHeld s i va 8 = false) (hm : va % 8 = 0) {z : Bool} (hc : firstOf (shapeChecks r b z) = none) (hs : (shapeOf r).scaled = false) :
    ∀ a, withShape s i va b z a = andThen (shareRecord s i va 8) (a (shapeOf r)) := fun a => by
  simp [withShape, withRecord, checked, h, hh, hm, hc, hs]

/-- The device with that record at 0x6000, named by s4 and s5; s8 holds a local offset. -/
def shaped : State := withMem 0x6000 shapeBytes (withS [(4, 0x6000), (8, 0x100)])

def kF : KFields := ⟨4, 8, 10, 0, 0, 7, false, 0, .relaxed, .block⟩

/-- Each of the five copies through a record, and `cpx`, with and without their guard. -/
theorem witness_CopiesIssue :
    let s := shaped; let i := me s; let f := kF; let m := { f with aux := 1 }; let sh := shapeOf shapeBytes; let n := { f with gn := true }
    let va := sVal i.warp true f.a.toNat
    let fine (f : KFields) (c : CopyForm) := MayRun s i (chkAll true (c.opnd && !tagBeyond i c.tag))
        { c.uses with mem := true, act := guardScalar i f.gp f.gn } 0 ∧ c.ready = true ∧
      (∀ a, withShape s i va true c.scales a = andThen (shareRecord s i va 8) (a sh)) ∧ firstOf c.checks = none ∧
      (∀ a, rangeTraps i c.fits sh (coordRegs i f) c.writes a = a) ∧
      engineReady s i (engOf i c.kind c.tag false) (isRelease f) c.ranges = true
    (∀ c ∈ copyForms f s i sh, c.ins ≠ .cpm f → fine f c) ∧ (∀ c ∈ copyForms m s i sh, c.ins = .cpm m → fine m c) ∧
    guardScalar i f.gp f.gn = true ∧ guardScalar i n.gp n.gn = false ∧ regionLanes i &&& i.lanes = 0 ∧
    firstOf (boxChecks sh (coordRegs i f) f.mode.toNat) = none ∧
    (∀ c ∈ copyForms n s i sh, c.ins = .cpg n → MayRun s i (chkAll true (c.opnd && !tagBeyond i c.tag))
      { c.uses with mem := true, act := guardScalar i n.gp n.gn } 0) :=
  ⟨by
    intro c hc hm
    simp only [copyForms, List.mem_cons, List.not_mem_nil, or_false] at hc
    rcases hc with rfl | rfl | rfl | rfl | rfl
    · exact ⟨⟨rfl, by decide, by decide⟩, by decide, withShape_at (by decide) (by decide) (by decide) (by decide) (by decide), by decide, fun _ => rfl, by decide⟩
    · exact ⟨⟨rfl, by decide, by decide⟩, by decide, withShape_at (by decide) (by decide) (by decide) (by decide) (by decide), by decide, fun _ => rfl, by decide⟩
    · exact ⟨⟨rfl, by decide, by decide⟩, by decide, withShape_at (by decide) (by decide) (by decide) (by decide) (by decide), by decide, fun _ => rfl, by decide⟩
    · exact ⟨⟨rfl, by decide, by decide⟩, by decide, withShape_at (by decide) (by decide) (by decide) (by decide) (by decide), by decide, fun _ => rfl, by decide⟩
    · exact absurd rfl hm, by
    intro c hc hm
    simp only [copyForms, List.mem_cons, List.not_mem_nil, or_false] at hc
    rcases hc with rfl | rfl | rfl | rfl | rfl
    · exact nomatch hm
    · exact nomatch hm
    · exact nomatch hm
    · exact nomatch hm
    · exact ⟨⟨rfl, by decide, by decide⟩, by decide, withShape_at (by decide) (by decide) (by decide) (by decide) (by decide), by decide, fun _ => rfl, by decide⟩,
    by decide, by decide, by decide, by decide, by
    intro c hc hm
    simp only [copyForms, List.mem_cons, List.not_mem_nil, or_false] at hc
    rcases hc with rfl | rfl | rfl | rfl | rfl
    · exact ⟨rfl, by decide, by decide⟩
    · exact nomatch hm
    · exact nomatch hm
    · exact nomatch hm
    · exact nomatch hm⟩

theorem witness_CopiesIssue_cpx :
    let s := withS [(4, 0x200), (8, 0x100), (10, 0x100)]; let i := me s; let f := kF; let va := sVal i.warp true f.a.toNat
    MayRun s i (chkAll true (sPair i f.a && sOk i f.b.toNat 1 && fiveOk i f && !tagBeyond i (copyTag f true)))
      { sr := regs f.a.toNat true ++ [f.b.toNat, f.c.toNat], mem := true, act := guardScalar i f.gp f.gn } 0 ∧
    guardScalar i f.gp f.gn = true ∧ regionLanes i &&& i.lanes = 0 ∧ va < 2 ^ 36 ∧
    va % 2 ^ 32 = 0x200 ∧ (sR i.warp f.b.toNat).toNat = 0x100 ∧ (sR i.warp f.c.toNat).toNat = 0x100 ∧ 0x300 ≤ i.lau.scratch ∧
    clusterBlock s i (va / 2 ^ 32) = some i.warp.block ∧ rangeHit 0x100 0x100 0x200 0x100 = false ∧
    engineReady s i (engOf i (.move (.scr i.warp.block 0x100) (.scr 10 0x200) 0x100) (copyTag f true) false) (isRelease f)
      [⟨i.core, .scr 10 0x200, 0x100, true⟩, ⟨i.core, .scr i.warp.block 0x100, 0x100, false⟩] = true :=
  ⟨⟨rfl, by decide, by decide⟩, by decide, by decide, by decide, by decide, by decide, by decide, by decide, by decide,
    by decide, by decide⟩
/-- A matrix instruction may issue at once. -/
def TileMay (s : State) (i : Iss) (c : TileForm) : Prop :=
  MayRun s i (chkAll true (c.opnd && !tagBeyond i c.tag)) { c.uses with mem := true } 0 ∧
  (c.anyRegion = false → regionLanes i &&& i.lanes = 0) ∧ c.go = true ∧ engineReady s i c.op false c.ranges = true

def xF (xmod : BitVec 10) : XFields := ⟨4, 16, 6, 8, 1, 7, false, xmod⟩
/-- A warp with the tile shape 16 × 16 × 32 and these scalar registers. -/
def tiled (m : Map Word) : State := inWarp fun x => { x with s := m, tshape := 0x02004010 }
def pin0 : Pin := ⟨0, 0x10000, 0x2000, true, false⟩
def zeroOp : EngOp :=
  { w := 11, blk := 10, ctx := 1, core := 0, pc := 0x1008, tag := none, queued := true, kind := .zero 0 0 16 16 }

theorem witness_MatrixInstructionsIssue :
    let a := tiled [(5, 64)]; let b := tiled [(5, 0x90040)]; let c := { tiled [(6, 64)] with ctxs := [(1, { ctx0 with pins := [(0, pin0)] })] }
    let q := { tiled [] with engs := [(15, zeroOp)] }
    (∃ x ∈ tileForms (xF 1) a (me a), x.ins = .tzero (xF 1) ∧ TileMay a (me a) x) ∧
    (∃ x ∈ tileForms (xF 1) a (me a), x.ins = .tload (xF 1) ∧ TileMay a (me a) x) ∧
    (∃ x ∈ tileForms (xF 15) a (me a), x.ins = .tread (xF 15) ∧ TileMay a (me a) x) ∧
    (∃ x ∈ tileForms (xF 16) a (me a), x.ins = .twrite (xF 16) ∧ TileMay a (me a) x) ∧
    (∃ x ∈ tileForms (xF 512) b (me b), x.ins = .tsave (xF 512) ∧ TileMay b (me b) x) ∧
    (∃ x ∈ tileForms (xF 1) c (me c), x.ins = .gacc (xF 1) ∧ TileMay c (me c) x) ∧
    (∃ x ∈ tileForms (xF 1) c (me c), x.ins = .gflush (xF 1) ∧ TileMay c (me c) x) ∧
    (∃ x ∈ tileForms (xF 0) q (me q), x.ins = .tstat (xF 0) ∧ TileMay q (me q) x) ∧
    (∃ x ∈ tileForms (xF 0) q (me q), x.ins = .tclr (xF 0) ∧ TileMay q (me q) x) :=
  ⟨⟨_, .head _, rfl, ⟨rfl, by decide, by decide⟩, fun _ => by decide, by decide, by decide⟩,
    ⟨_, .tail _ (.head _), rfl, ⟨rfl, by decide, by decide⟩, fun _ => by decide, by decide, by decide⟩,
    ⟨_, .tail _ (.tail _ (.head _)), rfl, ⟨rfl, by decide, by decide⟩, fun _ => by decide, by decide, by decide⟩,
    ⟨_, .tail _ (.tail _ (.tail _ (.head _))), rfl, ⟨rfl, by decide, by decide⟩, fun _ => by decide, by decide, by decide⟩,
    ⟨_, .tail _ (.tail _ (.tail _ (.tail _ (.head _)))), rfl, ⟨rfl, by decide, by decide⟩, fun _ => by decide, by decide,
      by decide⟩,
    ⟨_, .tail _ (.tail _ (.tail _ (.tail _ (.tail _ (.head _))))), rfl, ⟨rfl, by decide, by decide⟩, fun _ => by decide, by decide,
      by decide⟩,
    ⟨_, .tail _ (.tail _ (.tail _ (.tail _ (.tail _ (.tail _ (.head _)))))), rfl, ⟨rfl, by decide, by decide⟩, fun _ => by decide,
      by decide, by decide⟩,
    ⟨_, .tail _ (.tail _ (.tail _ (.tail _ (.tail _ (.tail _ (.tail _ (.tail _ (.head _)))))))), rfl, ⟨rfl, by decide, by decide⟩,
      fun _ => by decide, by decide, by decide⟩,
    ⟨_, .tail _ (.tail _ (.tail _ (.tail _ (.tail _ (.tail _ (.tail _ (.tail _ (.tail _ (.head _))))))))), rfl,
      ⟨rfl, by decide, by decide⟩, fun _ => by decide, by decide, by decide⟩⟩

/-- A choice among some is one of them. -/
theorem pick_isSome {α : Type} {xs : List α} (h : xs ≠ []) (c : Nat) : (pick xs c).isSome = true := by
  have := Nat.mod_lt c (List.length_pos_iff.mpr h)
  simp [pick, List.getElem?_eq_getElem this]

/-- `gpin` of the page at 0x10000. -/
theorem witness_MatrixInstructionsIssue_gpin :
    let s := tiled [(4, 0x10000), (6, 0x1000)]; let f := xF 0
    ∃ x ∈ tileForms f s (me s), x.ins = .gpin f ∧ TileMay s (me s) x :=
  ⟨_, .tail _ (.tail _ (.tail _ (.tail _ (.tail _ (.tail _ (.tail _ (.head _))))))), rfl, ⟨rfl, by decide, by decide⟩,
    fun _ => by decide, by
      have h := pick_isSome (xs := (List.range 64).filter fun k => (mLook (me (tiled [(4, 0x10000), (6, 0x1000)])).ctx.pins k).isNone)
        (by decide) (choice (tiled [(4, 0x10000), (6, 0x1000)]) 1)
      simp only [freePinId, h, Bool.and_true]; decide, by
      simp only [engineReady, engOf]; decide⟩

/-- `mma` of E4M3 operands through the block of parameters at 0x6000: A at 0 with rows of 32 bytes. -/
theorem witness_MatrixInstructionsIssue_mma :
    let r := bytesOfNat 4 0 ++ bytesOfNat 4 32 ++ bytesOfNat 56 0
    let s := withMem 0x6000 r (tiled [(4, 0x6000)]); let i := me s; let f := xF 1; let va := sVal i.warp true f.a.toNat
    let p := mmaParams i r 0 (sR i.warp f.g.toNat) 10
    MayRun s i (chkAll true (sPair i f.a && xs1 i f.g && vOk i f.fw.toNat 1 && !tagBeyond i (tgTag f 0)))
      { mmaUses i f with mem := true, act := guardScalar i f.gp f.gn } 0 ∧
    guardScalar i f.gp f.gn = true ∧ regionLanes i &&& i.lanes = 0 ∧
    (∀ l, hasLane i.lanes l = true → vR i.warp f.fw.toNat l = 0) ∧ va % 64 = 0 ∧ readRecord s i va 8 = .bytes r ∧
    mmaHeld s i va = false ∧ mmaAblock s i r = some 10 ∧ firstOf (mmaChecks i r 0) = none ∧ mmaOut i p = false ∧
    engineReady s i (engOf i (.mma p) (tgTag f 0) true) false (mmaRanges i p) = true :=
  ⟨⟨rfl, by decide, by decide⟩, by decide, by decide, fun _ _ => rfl, by decide, by decide, by decide, by decide, by decide,
    by decide, by decide⟩

/-- `tdrain` of an f32 tile to the 64 × 64 array at 0x20000. -/
theorem witness_MatrixInstructionsIssue_tdrain :
    let r := bytesOfNat 8 0x20000 ++ bytesOfNat 1 2 ++ bytesOfNat 1 9 ++ bytesOfNat 2 0 ++ bytesOfNat 4 64 ++ bytesOfNat 4 64 ++ bytesOfNat 12 0 ++
      bytesOfNat 4 256 ++ bytesOfNat 28 0
    let s := withMem 0x6000 r (tiled [(4, 0x6000)]); let i := me s; let f : XFields := ⟨4, 0, 6, 8, 1, 7, false, 512⟩
    let n := { f with gn := true }; let va := sVal i.warp true f.a.toNat
    let sh0 := shapeOf r; let c := drainCtl i f 0 sh0.fmt; let sh := { sh0 with box := [c.n, c.m, 1, 1, 1] }; let cs : List Int := [0, 0, 0, 0, 0]
    (MayRun s i (chkAll true (sPair i f.a && sPair i f.h && xs1 i f.g && !tagBeyond i none))
        { sr := drainReads f ++ regs f.h.toNat true, mem := true, act := guardScalar i f.gp f.gn } 0 ∧
      guardScalar i f.gp f.gn = true ∧ regionLanes i &&& i.lanes = 0 ∧ va % 8 = 0 ∧ firstOf (tileChecks i 0) = none ∧
      (∀ a, withShape s i va false true a = andThen (shareRecord s i va 8) (a sh0)) ∧ firstOf (tdrainChecks sh0 c (f.fw.getLsbD 3) 0 0) = none ∧
      (∀ a, rangeTraps i true sh cs true a = a) ∧
      engineReady s i (engOf i (.drain sh cs c (f.fw.getLsbD 3)) none true) false (boxRanges i.core sh cs true) = true) ∧
    ∀ x ∈ tileUses n s i, x.1 = .tdrain n → guardScalar i n.gp n.gn = false ∧
      MayRun s i (chkAll true (x.2.1 && !tagBeyond i x.2.2.2)) { x.2.2.1 with mem := true, act := false } 0 :=
  ⟨⟨⟨rfl, by decide, by decide⟩, by decide, by decide, by decide, by decide,
      withShape_at (by decide) (by decide) (by decide) (by decide) (by decide), by decide, fun _ => rfl, by decide⟩, by
    intro x hx hm
    simp only [tileUses, tileForms, List.map, List.mem_cons, List.not_mem_nil, or_false] at hx
    rcases hx with rfl | rfl | rfl | rfl | rfl | rfl | rfl | rfl | rfl | rfl | rfl | rfl | rfl
    · exact nomatch hm
    · exact ⟨by decide, rfl, by decide, by decide⟩
    all_goals exact nomatch hm⟩
/-- Tags 3 and 5, of which 5 is complete; an empty mask; tag 5 alone. -/
theorem witness_TagInstructionsComplete :
    let s := { inBlock (fun b => { b with cdone := 0x20 }) with warps := [(11, { warp0 with s := [(4, 0x28)] })] }; let i := me s
    let one := { s with warps := [(11, { warp0 with s := [(4, 0x20)] })] }; let n := { kF with gn := true }
    let may (s : State) (i : Iss) (dst : Bool) := MayRun s i (chkAll true (sPair i kF.a && (!dst || sOk i kF.b.toNat 1)))
      { sr := regs kF.a.toNat true, sw := if dst then [kF.b.toNat] else [], mem := true, act := guardScalar i kF.gp kF.gn } 0
    may s i true ∧ may s i false ∧ may one (me one) false ∧ guardScalar i kF.gp kF.gn = true ∧ guardScalar i n.gp n.gn = false ∧
    dueTrap i.warp i.st { tags := BitVec.ofNat 64 (tagMask i kF) } = none ∧ tagMask i kF &&& i.blk.cdone.toNat = 0x20 ∧
    tagMask (me base) kF = 0 ∧ tagMask (me one) kF &&& (me one).blk.cdone.toNat = tagMask (me one) kF :=
  ⟨⟨rfl, by decide, by decide⟩, ⟨rfl, by decide, by decide⟩, ⟨rfl, by decide, by decide⟩, by decide, by decide, by decide, by decide,
    by decide, by decide⟩

/-- A pin with an operation in flight, without one, and a strand that waits for one. -/
theorem witness_TileStateInstructionsComplete :
    let one : Map Pin := [(0, pin0)]
    let s := { tiled [] with ctxs := [(1, { ctx0 with pins := one })] }; let i := me s; let f := xF 0
    let t := { s with engs := [(15, { zeroOp with kind := .gflush 0 })] }; let j := me t
    let w := { inStrand (fun x => { x with wait := .freed 0 }) with ctxs := [(1, { ctx0 with pins := one })] }
    guardScalar i f.gp f.gn = true ∧
    MayRun s i (chkAll true (xs1 i f.g)) { sr := [f.g.toNat], mem := true } 0 ∧
    (MayRun s i (chkAll true (xs1 i f.g)) { sr := [f.g.toNat], sw := spanRegs f.h.toNat 8, mem := true } 0 ∧
      positionBad i (sR i.warp f.g.toNat) = false ∧ sOk i f.h.toNat 8 = true ∧ (queueOf s i.core).isEmpty = true) ∧
    (MayRun s i (chkAll true (xs1 i f.h)) { sr := [f.h.toNat], mem := true } 0 ∧ regionLanes i &&& i.lanes = 0 ∧
      (∀ k, i.st.wait ≠ .freed k) ∧ livePin i 0 = some pin0 ∧ pinBusy s i.cid 0 = false) ∧
    (MayRun t j (chkAll true (xs1 j f.h)) { sr := [f.h.toNat], mem := true } 0 ∧ livePin j 0 = some pin0 ∧ pinBusy t j.cid 0 = true) ∧
    issuer w = some (me w) ∧ (me w).st.wait = .freed 0 ∧ pinBusy w (me w).cid 0 = false :=
  ⟨by decide, ⟨rfl, by decide, by decide⟩, ⟨⟨rfl, by decide, by decide⟩, by decide, by decide, by decide⟩,
    ⟨⟨rfl, by decide, by decide⟩, by decide, fun _ h => Wait.noConfusion h, by decide, by decide⟩,
    ⟨⟨rfl, by decide, by decide⟩, by decide, by decide⟩, rfl, rfl, by decide⟩

/-- A copy of 8 bytes within scratch, and a load whose page has failed. -/
theorem witness_CopiesComplete :
    let o : EngOp := { w := 11, blk := 10, ctx := 1, core := 0, pc := 0x1008, tag := some 0, kind := .move (.scr 10 0x100) (.scr 10 0x200) 8 }
    let x := { o with kind := .load { shapeOf shapeBytes with base := 0x40000000 } [0, 0, 0, 0, 0] 0 [.scr 10 0], failed := [(1, 0x40000)] }
    let s := { inBlock (fun b => { b with pending := [(0, 2)] }) with engs := [(15, o), (16, x)], warps := [(11, { warp0 with cp := 2 })] }
    (mLook s.engs 15 = some o ∧ o.queued = false ∧ o.kind.onCp = some true ∧
      ((eventsMade 15 (leftOf o ++ leftOf o) s).any fun u => (mLook u.engs 15).any fun y => decide (moveCount y ≤ y.done.length)) = true) ∧
    mLook s.engs 16 = some x ∧ x.kind.onCp = some true ∧ failingMove s x .xlate 0x40000000 = some 0 ∧ (mLook s.warps x.w).isSome = true :=
  ⟨⟨by decide, rfl, rfl, by decide⟩, by decide, rfl, by decide, by decide⟩

theorem bytesAt_empty (k n : Nat) : bytesAt [] k n = 0 := by
  induction n generalizing k with
  | zero => rfl
  | succ n ih => simp [bytesAt, ih, mGet, mLook]

/-- On empty stores every element has the value of the first. -/
theorem segValue_empty (p : MmaParams) (ht : fwAtr p.fw = false) (ha : fwAsc p.fw = false) (hb : fwBsc p.fw = false) (r c k0 k1 : Nat) :
    segValue p [] [] [] r c k0 k1 = segValue p [] [] [] 0 0 k0 k1 := by
  simp only [segValue, aCode, bCode, ht, ha, hb, bytesAt_empty, mGet, mLook, Option.getD_none, Bool.false_eq_true, if_false]

/-- One state for each operation at the head of the queue of core 0. -/
theorem witness_QueuedOperationsPerform :
    let p : MmaParams := ⟨0, 32, 0, 0, 0, 0, 0, 496, 496, 10, 0, 0x3F800000, 16, 16, 32, false, some 0⟩
    let c : DrainCtl := ⟨0, 0, 16, 16, 0, none, 9, false, false, false, false, 0, 0⟩
    let kinds : List EKind := [.mma p, .zero 496 496 16 16, .tload 0 0 16 16 0 64, .twrite 480 511 1 false [7], .tread 0 0 1 false 8,
      .stat 0 0 8, .clr 511 511, .drain (shapeOf shapeBytes) [0, 0, 0, 0, 0] c false]
    let at_ (k : EKind) : State := { base with engs := [(15, { zeroOp with kind := k })] }
    (∀ k ∈ kinds, queueHead (at_ k) 0 = some (15, { zeroOp with kind := k })) ∧ (at_ (.mma p)).Canonical ∧
    (mLook base.blocks 10).isSome = true ∧ (mLook base.warps 11).isSome = true ∧ mmaBad (at_ (.mma p)) { zeroOp with kind := .mma p } p = none ∧
    segStarts p = [0] ∧ p.col0 + p.n = 512 ∧ scratchBad base 10 0 (15 * 64 + 64) = none ∧ accBad base 10 0 0 0 32 16 = false ∧
    (∀ r < p.m, ∀ c < p.n, (segElem (segValue p (scratchSeen zeroOp 10 []) (scratchSeen zeroOp 10 []) (bstoreSeen zeroOp []) r c 0 p.k)
      (fwMode p.fw = 1) 0).2 = false) := by
  refine ⟨by decide, by constructor <;> decide, by decide, by decide, by decide, by decide, by decide, by decide, by decide, fun r _ c _ => ?_⟩
  simp only [scratchSeen, bstoreSeen, zeroOp, List.foldl_nil]
  rw [segValue_empty _ (by decide) (by decide) (by decide)]
  decide

theorem witness_PinnedOperationsPerform :
    let pin1 : Pin := ⟨0, 0x10000, 0x2000, false, false⟩; let c : DrainCtl := ⟨0, 0, 16, 16, 0, none, 9, false, false, false, false, 0, 0⟩
    let at_ (o : EngOp) : State := { base with engs := [(15, o)], ctxs := [(1, { ctx0 with pins := [(0, pin0), (1, pin1)] })],
                                               pool := [(poolKey 1 0 0, { die := 0 })] }
    let a : EngOp := { zeroOp with kind := .pin 1 8, queued := false }
    let b : EngOp := { zeroOp with kind := .tsave 0 64 c }
    let d : EngOp := { zeroOp with kind := .gacc 0 0 0 16 16 0 64, pos := 255 }
    let e : EngOp := { zeroOp with kind := .gflush 0, pos := poolKey 1 0 1 }
    (∀ o ∈ [a, b, d, e], (mLook (at_ o).blocks o.blk).isSome = true ∧ (mLook (at_ o).warps o.w).isSome = true ∧ (mLook (at_ o).ctxs o.ctx).isSome = true) ∧
    (at_ a).Canonical ∧ mLook (at_ a).engs 15 = some a ∧ (∀ o ∈ [b, d, e], queueHead (at_ o) 0 = some (15, o)) ∧
    accBad (at_ b) 10 0 0 0 16 16 = false ∧ d.pos + 1 = 16 * 16 ∧ mLook (at_ d).pool (poolKey 1 0 ((0 + d.pos / 16 * 64 + 4 * (d.pos % 16)) / 4096)) = some { die := 0 } ∧
    (at_ d).bad.contains (.pool (poolKey 1 0 0) (1020 / 4)) = false ∧
    ((at_ e).pool.all fun x => x.2.spilled || decide (x.1 / 2 ^ 16 ≠ poolKey e.ctx 0 0 / 2 ^ 16) || decide (x.1 < e.pos)) = true := by
  refine ⟨by decide, by constructor <;> decide, by decide, by decide, by decide, by decide, by decide, by decide, by decide⟩

/-- A deferred trap due at the next header, with and without a handler address; a parked part whose fault is answered. -/
theorem witness_DeferredTrapsAndShadows :
    let d : Trap := { cause := .xlate, engine := true, pc := 0x1008 }
    let due (x : Strand) : Warp := { warp0 with deferred := [d], strands := [(3, { x with slot := none })] }
    let s := { base with warps := [(11, due str0)] }; let i := me s
    let u := { s with launches := [(7, { lau0 with bytes := recordOf 0 2 0x9000 0 })] }
    let p : Part := { lanes := 3, pc := 0x1000, slot := some 1, hdr := str0.hdr, ctx := 1, pages := [0x40000] }
    let t := inStrand fun x => { x with members := 0xF, shadow := [p], wait := .stall 2 }; let j := me t
    (strandAt s 11 3 = some i ∧ i.st.slot = none ∧ i.st.trap = none ∧ i.st.held = none ∧ dueTrap i.warp i.st { edge := true } = some d ∧
      TrapNow i ∧ i.lau.trap ≠ 0 ∧ areaWritable s i.ctx i.warp.recAt.toNat 64 = true) ∧
    ((me u).lau.trap = 0 ∧ strandAt u 11 3 = some (me u) ∧ dueTrap (me u).warp (me u).st { edge := true } = some d) ∧
    strandAt t 11 3 = some j ∧ j.st.shadow = [p] ∧ j.st.target = none ∧ (∀ q ∈ p.pages, openFault t p.ctx q = none) ∧ pageHeld j.st = false ∧ j.st.wait ≠ .none :=
  ⟨⟨rfl, rfl, rfl, rfl, by decide, .inl rfl, by decide, by decide⟩, ⟨by decide, rfl, by decide⟩, rfl, rfl, rfl, by decide, by decide, by decide⟩
/-! ### Atomic regions -/

/-- A region with one slot at 0x8000, whose value is 5, and one buffered store of 9 at 0x8100. -/
def region0 : Region := { fallback := 0x1000, slots := [⟨0x8000, 4, 5, 0x8000, none⟩], stores := [⟨0x8100, 4, 9, none, 0x8100⟩] }
def inRegions (m : Map Region) (st : Strand → Strand) : State := inWarp fun x => { x with regions := m, strands := [(3, st str0)] }
/-- Lanes 0 to 3 with that region. -/
def four : Map Region := [(0, region0), (1, region0), (2, region0), (3, region0)]

/-- `abeg`; an `ald` whose slot is held, and one that starts an access; `st.rgn`. -/
theorem witness_RegionInstructionsComplete :
    let s := base; let i := me s; let f := mF 8 4 6 0 .w32; let g := guardMask i f.gp f.gn
    let t := { inRegions four id with warps := [(11, { warp0 with regions := four, s := [(4, 0x8000)] })] }; let j := me t
    let u := { inRegions four id with warps := [(11, { warp0 with regions := four, s := [(4, 0x8010)] })] }; let k := me u
    let oks (s : State) (i : Iss) := okLanes (aldFates s i f g)
    (MayRun s i none { pr := guardReads f.gp, mem := true, shadow := true } g ∧ regionLanes i &&& g = 0) ∧
    (MayRun t j (chkAll true (addrOk j f && vOk j f.d.toNat (widthRegs f.width))) (aldUses f) g ∧ regionless j g = 0 ∧
      firstStop (aldFates t j f g) = none ∧ absentLanesOf (aldFates t j f g) = [] ∧
      (∀ x ∈ oks t j, isHome x.2.2.1 = true ∧ aldCase (laneRegion j.warp x.1) (keyOf x.2.2.1) 4 = .held 5 (some (0, 0)) ∧
        (aldNote (laneRegion j.warp x.1) 8 4 (keyOf x.2.2.1) x.2.1 (addrV f) t.nextId).tags.length ≤ 8) ∧
      counterFull j.warp .ald = false) ∧
    (MayRun u k (chkAll true (addrOk k f && vOk k f.d.toNat (widthRegs f.width))) (aldUses f) g ∧ regionless k g = 0 ∧
      (∀ x ∈ oks u k, isHome x.2.2.1 = true ∧ aldCase (laneRegion k.warp x.1) (keyOf x.2.2.1) 4 = .fresh ∧
        (aldNote (laneRegion k.warp x.1) 8 4 (keyOf x.2.2.1) x.2.1 (addrV f) u.nextId).tags.length ≤ 8)) ∧
    (MayRun u k (chkAll true (addrOk k f && vOk k f.d.toNat (widthRegs f.width))) (stRgnUses f) g ∧ stRgnForm f = true ∧
      firstStop (stRgnFates u k f g) = none ∧ absentLanesOf (stRgnFates u k f g) = [] ∧
      (∀ x ∈ okLanes (stRgnFates u k f g), isHome x.2.2.1 = true ∧
        (stRgnNote k x.1 f.d.toNat (widthBytes f.width) (keyOf x.2.2.1) x.2.1 (addrV f)).isSome = true)) :=
  ⟨⟨⟨rfl, rfl, by decide⟩, by decide⟩, ⟨⟨rfl, by decide, by decide⟩, by decide, by decide, by decide, by decide, by decide⟩,
    ⟨⟨rfl, by decide, by decide⟩, by decide, by decide⟩, ⟨rfl, by decide, by decide⟩, by decide, by decide, by decide, by decide⟩

/-- Lane 1 commits: its slot unchanged, changed with nothing that stands on it, and barred by a sealed range. -/
theorem witness_RegionsCommit :
    let s := withMem 0x8000 [5] (inRegions [(1, region0)] fun x => { x with wait := .commit 2 0 0 0 }); let i := me s
    let t := withMem 0x8000 [6] (inRegions [(1, region0)] fun x => { x with wait := .commit 2 0 0 0 })
    let u := { s with ctxs := [(1, { ctx0 with sealed := [(0x8000, 0x1000)] })] }
    let g := laneRegion i.warp 1
    (strandAt s 11 3 = some i ∧ i.st.wait = .commit 2 0 0 0 ∧ hasLane 2 1 = true ∧ quiet s 11 (laneBit 1) = true ∧
      (∀ k < 1, hasLane 2 k = true → shareWord (laneRegion i.warp k) g = false) ∧ commitBarred s i.core i.cid i.ctx g = false ∧
      (List.range g.slots.length).all (fun k => !slotChanged g (slotNow s g) k) = true) ∧
    (strandAt t 11 3 = some (me t) ∧ commitBarred t 0 1 ctx0 g = false ∧ slotChanged g (slotNow t g) 0 = true ∧ g.dep = 0 ∧ g.cons = []) ∧
    strandAt u 11 3 = some (me u) ∧ commitBarred u 0 1 (me u).ctx g = true :=
  ⟨⟨rfl, rfl, by decide, by decide, by decide, by decide, by decide⟩, ⟨rfl, by decide, by decide, by decide, rfl⟩, rfl, by decide⟩

/-- `aend` without and with regions and when all have reported; `aabort` without, of every lane and of some. -/
theorem witness_RegionsEnd :
    let f : MFields := { mF 7 0 9 0 .w8 with ak := true }; let s := base; let i := me s; let g := guardMask i f.gp f.gn
    let t := inRegions four id; let j := me t
    let u := inRegions [] fun x => { x with wait := .commit 0 3 12 0 }
    let v := inRegions [(0, region0), (2, region0)] id; let k := me v
    let ends (s : State) (i : Iss) := MayRun s i (chkAll true (pOk f.d.toNat && (!f.ak || sOk i f.e.toNat 1))) (aendUses f) g ∧
      ∀ a b c d, i.st.wait ≠ .commit a b c d
    let may (s : State) (i : Iss) := MayRun s i none { pr := guardReads f.gp, mem := true, shadow := true } g
    (ends s i ∧ regionLanes i &&& g = 0) ∧ (ends t j ∧ regionLanes j &&& g ≠ 0) ∧
    (issuer u = some (me u) ∧ (me u).st.wait = .commit 0 3 12 0) ∧ may s i ∧
    (may t j ∧ (∀ l < 32, hasLane (regionLanes j &&& g) l = true → (laneRegion j.warp l).fallback = 0x1000) ∧
      j.st.members &&& ~~~(regionLanes j &&& g) = 0) ∧
    (may v k ∧ (∀ l < 32, hasLane (regionLanes k &&& g) l = true → (laneRegion k.warp l).fallback = 0x1000) ∧
      k.st.members &&& ~~~(regionLanes k &&& g) ≠ 0 ∧ (freeEntries v k.core k.warp.sub).contains k.k = false ∧
      (mIns k.warp.strands k.k k.st).length < Config.strandsPerWarp) :=
  ⟨⟨⟨⟨rfl, by decide, by decide⟩, fun _ _ _ _ h => Wait.noConfusion h⟩, by decide⟩,
    ⟨⟨⟨rfl, by decide, by decide⟩, fun _ _ _ _ h => Wait.noConfusion h⟩, by decide⟩, ⟨rfl, rfl⟩, ⟨rfl, rfl, by decide⟩,
    ⟨⟨rfl, rfl, by decide⟩, by decide, by decide⟩, ⟨rfl, rfl, by decide⟩, by decide, by decide, by decide, by decide⟩
/-! ### Launches, scopes, the tape, conditions and growth -/

/-- The device with bytes at 0x6000, named by s4 and s5, and lane 0 alone in p1. -/
def withRec (bs : List Byte) : State := withMem 0x6000 bs (inWarp fun x => { x with s := [(4, 0x6000)], p := [(1, 1)], v := [(192, 0xFFFFFFFF)] })

set_option maxRecDepth 4000 in
/-- Lane 0 places a record without a scope, and a `launch` of no lane. -/
theorem witness_LaunchesArePlaced :
    let bs := recordOf 0 2 0x9000 0x5000; let s := withRec bs; let i := me s
    let f : MFields := { mF 8 4 6 0 .w8 with gp := 1 }; let n : MFields := { mF 8 4 6 0 .w8 with gn := true }
    let g := guardMask i f.gp f.gn; let va := plainAt i f 0
    let opnd (f : MFields) := chkAll true (addrOk i f && vOk i f.d.toNat 1 && vOk i f.e.toNat 1)
    (guardMask i n.gp n.gn = 0 ∧ MayRun s i (opnd n) (launchUses n) 0 ∧ placedRest i = [] ∧ quiet s i.w i.lanes = true) ∧
    (lanesIn (g &&& ~~~(placedBefore i)) = [0] ∧ MayRun s i (opnd f) (launchUses f) g ∧ regionLanes i &&& g = 0 ∧
      fateOf s i .glob va 128 true false = .ok (.glob 0x6000) (some 0x0F) ∧ bytesOfNat 128 (readLoc s (.glob 0x6000) 128) = bs ∧
      laneScope i f 0 bs = none ∧ quiet s i.w i.lanes = true ∧ recordHeld s i va 16 = false ∧
      recHold bs = false ∧ launchRoom s i.core i.cid i.ctx = true) :=
  ⟨⟨by decide, ⟨rfl, by decide, by decide⟩, rfl, by decide⟩, by decide, ⟨rfl, by decide, by decide⟩, by decide, by decide, by decide, by decide,
    by decide, by decide, by decide, by decide⟩

theorem withRecord_at {s : State} {i : Iss} {va n al : Nat} {r : List Byte} (h : readRecord s i va n = .bytes r)
    (hh : recordHeld s i va n = false) (hm : va % al = 0) :
    ∀ a, withRecord s i va n al a = andThen (shareRecord s i va n) (a r) := fun a => by simp [withRecord, h, hh, hm]

set_option maxRecDepth 4000 in
/-- Scope 5 is open; the tape holds a record or none. -/
theorem witness_ScopesAndTapeComplete :
    let bs := recordOf 0 2 0x9000 0x5000
    let five : Context := { ctx0 with scopes := [(5, {})] }; let c : CFields := ⟨0, 6, 9, 1, 7, false⟩; let f : CFields := ⟨0, 9, 0, 0, 7, false⟩
    let s := { inWarp (fun x => { x with s := [(9, 5)] }) with ctxs := [(1, five)] }; let i := me s
    let t := withRec bs; let j := me t; let p : CFields := ⟨0, 4, 0, 0, 7, false⟩
    let u := { base with ctxs := [(1, { five with tapeRun := some (5, none), tape := [bs] })] }
    (MayRun s i (chkAll true (sOk i c.a.toNat 1 && (!(c.c == 1) || sOk i c.b.toNat 1)))
        { sr := if c.c == 1 then [c.b.toNat] else [], sw := [c.a.toNat], shadow := true } 0 ∧ guardScalar i c.gp c.gn = true ∧
      (sR i.warp c.b.toNat).toNat = 5 ∧ scopeOpen i.ctx 5 = true) ∧
    (MayRun s i (chkAll true (sOk i f.a.toNat 1)) { sr := [f.a.toNat] } 0 ∧ (sR i.warp f.a.toNat).toNat = 5 ∧
      mLook i.ctx.scopes 5 = some {} ∧ i.ctx.tapeRun = none ∧ s.Canonical) ∧
    (MayRun t j (chkAll true (sPair j p.a)) { sr := regs p.a.toNat true, mem := true, shadow := true } 0 ∧ guardScalar j p.gp p.gn = true ∧
      (∀ a, withRecord t j (sVal j.warp true p.a.toNat) 16 128 a = andThen (shareRecord t j (sVal j.warp true p.a.toNat) 16) (a bs)) ∧ j.ctx.tape.length < 65536) ∧
    (mLook u.ctxs 1).isSome = true ∧ (mLook u.ctxs 1).all (fun c => c.tapeRun = some (5, none) ∧ c.tape = [bs]) = true :=
  ⟨⟨⟨rfl, by decide, by decide⟩, by decide, by decide, by decide⟩, ⟨⟨rfl, by decide, by decide⟩, by decide, by decide, by decide,
      by constructor <;> decide⟩, ⟨⟨rfl, by decide, by decide⟩, by decide, withRecord_at (by decide) (by decide) (by decide), by decide⟩,
    by decide, by decide⟩

/-- What each condition needs: queue 64, scope 64, a record at 64 that names group 2, in which the block stands. -/
def awaiting (x : Warp → Warp) : State :=
  withMem 64 (bytesOfNat 8 2 ++ bytesOfNat 56 0) { inWarp (fun y => x { y with s := [(4, 64)] }) with
    queues := [(64, { ctx := 1, part := 0, ring := 0, size := 0 })]
    cores := [(0, { ctx := some 1, part := some 0 })]
    ctxs := [(1, { ctx0 with scopes := [(64, {})], groups := [(2, { op := 0, words := 1, count := 1, flags := 0, result := 0, corr := 0, rootDie := 0, parts := [(10, 1, 2)] })] })] }

theorem witness_AwaitsComplete_issue :
    let s := awaiting id; let i := me s; let f : CFields := ⟨0, 4, 0, 0, 7, false⟩; let n := { f with gn := true }
    let r := bytesOfNat 8 2 ++ bytesOfNat 56 0
    let t := awaiting fun x => { x with strands := [(3, { str0 with members := 3, wait := .cond (.scope 64) 0 true }), (4, { str0 with members := 12 })] }
    (∀ a ∈ awaitForms f s i r, MayRun s i (chkAll true (a.opnd && savedOk i a.vb a.n)) 
        { sr := a.reads, mem := true, shadow := true, act := guardScalar i f.gp f.gn } 0 ∧ a.go) ∧
    (∀ k tags stay, i.st.wait ≠ .cond k tags stay) ∧ guardScalar i f.gp f.gn = true ∧ guardScalar i n.gp n.gn = false ∧
    regionLanes i &&& i.lanes = 0 ∧ singleStrand i.warp = true ∧ dueTrap i.warp i.st { edge := true } = none ∧
    drained s i.warp i.w = true ∧ areaWritable s i.ctx (recordPlace s i.cid i.ctx) 2240 = true ∧ issuer t = some (me t) ∧ (me t).st.wait = .cond (.scope 64) 0 true ∧ singleStrand (me t).warp = false ∧
    s.Canonical ∧ t.Canonical :=
  ⟨by
    intro a ha
    simp only [awaitForms, List.mem_cons, List.not_mem_nil, or_false] at ha
    rcases ha with rfl | rfl | rfl | rfl | rfl | rfl
    · exact ⟨⟨rfl, by decide, by decide⟩, trivial⟩
    · exact ⟨⟨rfl, by decide, by decide⟩, .glob 64, some 0x0F, by decide⟩
    · exact ⟨⟨rfl, by decide, by decide⟩, by decide, by decide⟩
    · exact ⟨⟨rfl, by decide, by decide⟩, by decide⟩
    · exact ⟨⟨rfl, by decide, by decide⟩, withRecord_at (by decide) (by decide) (by decide), by decide⟩
    · exact ⟨⟨rfl, by decide, by decide⟩, by decide⟩,
    fun _ _ _ h => Wait.noConfusion h, by decide, by decide, by decide, by decide, by decide, by decide, by decide, rfl, rfl, by decide,
    by constructor <;> decide, by constructor <;> decide⟩

/-- Every address of the first GiB is mapped to itself. -/
theorem walk_base {s : State} {va : Nat} (hm : s.mem = tables) (h : va < 2 ^ 30) : walk s ctx0 va = .leaf 0x0F (2 ^ 30) := by
  have h4 : va / 2 ^ (12 + 9 * 4) % 512 = 0 := by omega
  have h3 : va / 2 ^ (12 + 9 * 3) % 512 = 0 := by omega
  have h2 : va / 2 ^ (12 + 9 * 2) % 512 = 0 := by omega
  rw [walk, hm, show pteKey ctx0.root = 0x2000 from by decide, walkFrom]
  simp only [h4]
  rw [if_neg (by decide), if_neg (by decide), if_pos (by decide)]
  show walkFrom tables va 4 0x3000 = _
  rw [walkFrom]
  simp only [h3]
  rw [if_neg (by decide), if_neg (by decide), if_pos (by decide)]
  show walkFrom tables va 3 0x4000 = _
  rw [walkFrom]
  simp only [h2]
  rw [if_neg (by decide), if_pos (by decide), if_pos (by decide)]
  rfl

theorem readVirt_base {s : State} {va n : Nat} (hm : s.mem = tables) (hb : s.bad = []) (h : va + n ≤ 2 ^ 30) :
    (readVirt s ctx0 va n).isSome = true := by
  induction n generalizing va with
  | zero => rfl
  | succ n ih =>
    have hr : readKey s ctx0 va = some va := by
      have hc : canonical va = true := by simp only [canonical, Bool.or_eq_true, decide_eq_true_eq]; left; omega
      simp only [readKey, ownAllowed, ownKey, walk_base hm (show va < 2 ^ 30 by omega), hc, if_true, Bool.true_and]
      rw [if_pos (by decide)]
      simp only [keyUnder, Option.some.injEq]
      rw [Nat.mod_eq_of_lt (by omega)]
      exact Nat.zero_add va
    obtain ⟨bs, hs⟩ := Option.isSome_iff_exists.1 (ih (va := va + 1) (by omega))
    simp [readVirt, hr, hs, locBad, hb]

/-- A record that waits for no tag comes back at home, and on another core of its block. -/
theorem witness_AwaitsComplete_resume :
    let x : Warp := { warp0 with place := .record, cond := some (.tags 0 false), strands := [], recordAt := 0x10000, record := bytesOfNat 2240 0 }
    let s := { inBlock (fun b => { b with cores := [0, 1] }) with warps := [(11, x)] }
    mLook s.warps 11 = some x ∧ (mLook s.blocks 10).isSome = true ∧ (mLook s.launches 7).isSome = true ∧ recordReady s x = true ∧
    mLook s.ctxs 1 = some ctx0 ∧ servingSub s 0 x.num = 0 ∧ servingSub s 1 x.num = 0 ∧
    (∀ e ∈ s.warps, e.2.block = x.block → e.2.age < x.age → recordReady s e.2 = false) ∧
    (recordNow s ctx0 x).isSome = true ∧ resumeSlot s x 0 0 = some 0 ∧ resumeSlot s x 1 0 = some 0 ∧
    (pick (freeEntries s 0 0) (choice s 1)).isSome = true ∧ (pick (freeEntries s 1 0) (choice s 1)).isSome = true :=
  ⟨rfl, by decide, by decide, by decide, by decide, by decide, by decide, by decide,
    readVirt_base rfl rfl (by decide), by decide, by decide, pick_isSome (by decide) _, pick_isSome (by decide) _⟩

theorem witness_RegisterGrowthCompletes :
    let s := base; let i := me s; let f : CFields := ⟨96, 0, 0, 0, 7, false⟩; let h : CFields := ⟨32, 0, 0, 0, 7, false⟩
    let t := { base with warps := [(11, warp0), (12, { warp0 with alloc := Config.fileRegs - 64, strands := [] })] }; let j := me t
    let x : Warp := { warp0 with alloc := Config.fileRegs, growTo := Config.fileRegs + 32 }
    let u := { base with warps := [(11, x)] }; let y : Warp := { warp0 with place := .regSaved, growTo := 96 }
    let v := { base with warps := [(11, y)] }
    (MayRun s i (chkAll true (growOk f)) {} 0 ∧ guardScalar i f.gp f.gn = true ∧ singleStrand i.warp = true ∧
      mayGrow s i.w i.warp (growN f) = true) ∧
    (MayRun t j (chkAll true (growOk f)) {} 0 ∧ singleStrand j.warp = true ∧ j.warp.alloc < growN f ∧ mayGrow t j.w j.warp (growN f) = false) ∧
    (MayRun s i (chkAll true (growOk h)) {} 0 ∧ growN h < i.warp.alloc ∧
      (spanRegs (growN h) (i.warp.alloc - growN h)).all (fun r => decide (pendingV s i.w r = 0)) = true ∧ mSorted i.warp.v = true) ∧
    (residents u 0 0 = [(11, x)] ∧ growing x = true ∧ mayGrow u 11 x x.growTo = false ∧ youngest (residents u 0 0) = some (11, x) ∧
      drained u x 11 = true ∧ strandAt u 11 3 = some (me u) ∧ u.Canonical ∧ areaWritable u ctx0 ctx0.save.toNat 4 = true) ∧
    (mLook v.warps 11 = some y ∧ y.place = .regSaved ∧ blockHere v y.block = true ∧ max y.alloc y.growTo ≤ openRegs v 0 0 ∧
      olderServed v y = false ∧ (freeSlots v 0 0 ++ openSlots v 0 0).head? = some 0 ∧
      (reseat y (freeEntries v 0 0)).isSome = true) :=
  ⟨⟨⟨rfl, by decide, by decide⟩, by decide, by decide, by decide⟩, ⟨⟨rfl, by decide, by decide⟩, by decide, by decide, by decide⟩,
    ⟨⟨rfl, by decide, by decide⟩, by decide, by decide, by decide⟩, ⟨rfl, by decide, by decide, rfl, by decide, rfl, by constructor <;> decide, by decide⟩,
    rfl, rfl, by decide, by decide, by decide, by decide, by decide⟩
/-! ### Hardware queues, refill and reductions -/

def entryN (n : Nat) : Nat × List Word := (n, [BitVec.ofNat 32 n, 1, 2, 3])
def queueOf5 (n : Nat) : Queue := { ctx := 1, part := 0, ring := 0, size := 0, entries := (List.range n).map entryN, next := n }
/-- Queue 5 with `n` entries, and the strand as given. -/
def queued (n : Nat) (st : Strand → Strand) : State := { inStrand st with queues := [(5, queueOf5 n)] }

/-- A push with room and into a full queue, a pop that is served and one that waits, no lane, and both served later. -/
theorem witness_QueueInstructionsComplete :
    let f : MFields := { mF 8 0 0 5 .x4 with ak := false }; let n := { f with gn := true }
    let s := queued 4 id; let i := me s; let g := guardMask i f.gp f.gn
    let full := queued 64 id; let few := queued 3 id
    let put := withMem 0x1008 (bytesOfNat 8 0xDA040000001470A0) (queued 4 fun x => { x with wait := .putting 5 9 })
    let got := withMem 0x1008 (bytesOfNat 8 0xDB040000001470A0)
      (queued 0 fun x => { x with wait := .getting 5 9 4 false ((List.range 4).map entryN) })
    let mayPut (s : State) (i : Iss) (f : MFields) := MayRun s i (chkAll true (queueOpnd i f)) { queueUses f with vr := spanRegs f.d.toNat 4 }
      (guardMask i f.gp f.gn)
    let mayGet (s : State) (i : Iss) (f : MFields) := MayRun s i (chkAll true (queueOpnd i f)) { queueUses f with vw := spanRegs f.d.toNat 4 }
      (guardMask i f.gp f.gn)
    (queueNb f = false ∧ queueKey i (queueNo i f) = 5 ∧ laneCount g = 4) ∧
    (mayPut s i f ∧ (∀ p a, i.st.wait ≠ .putting p a) ∧ g ≠ 0 ∧ regionLanes i &&& g = 0 ∧ ownQueue s i 5 = some (queueOf5 4) ∧
      quiet s i.w g = true ∧ putters s 5 = [] ∧ queueRoom s i.ctx (queueOf5 4) 4 = true ∧ getters s 5 = []) ∧
    (mayPut full (me full) f ∧ queueRoom full (me full).ctx (queueOf5 64) 4 = false) ∧
    (mayPut s i n ∧ mayGet s i n ∧ guardMask i n.gp n.gn = 0) ∧
    (mayGet s i f ∧ (∀ p a m o l, i.st.wait ≠ .getting p a m o l) ∧ laneCount g ≤ (queueOf5 4).entries.length) ∧
    (mayGet few (me few) f ∧ ownQueue few (me few) 5 = some (queueOf5 3) ∧ getters few 5 = [] ∧ (queueOf5 3).entries.length < laneCount g) ∧
    (strandAt put 11 3 = some (me put) ∧ instrAt put (me put) = some (.qput f) ∧ (me put).st.wait = .putting 5 9 ∧
      mLook put.queues 5 = some (queueOf5 4) ∧ firstPutter put 5 9 = true ∧ queueRoom put (me put).ctx (queueOf5 4) 4 = true ∧
      getters put 5 = []) ∧
    strandAt got 11 3 = some (me got) ∧ instrAt got (me got) = some (.qget f) ∧
    (me got).st.wait = .getting 5 9 4 false ((List.range 4).map entryN) ∧ Getter.done ⟨11, 3, 9, 4, false, (List.range 4).map entryN⟩ = true :=
  ⟨⟨by decide, by decide, by decide⟩, ⟨⟨rfl, by decide, by decide⟩, fun _ _ h => Wait.noConfusion h, by decide, by decide, by decide, by decide,
      by decide, by decide, by decide⟩, ⟨⟨rfl, by decide, by decide⟩, by decide⟩, ⟨⟨rfl, by decide, by decide⟩, ⟨rfl, by decide, by decide⟩, by decide⟩,
    ⟨⟨rfl, by decide, by decide⟩, fun _ _ _ _ _ h => Wait.noConfusion h, by decide⟩,
    ⟨⟨rfl, by decide, by decide⟩, by decide, by decide, by decide⟩, ⟨rfl, rfl, rfl, by decide, by decide, by decide, by decide⟩, rfl, rfl, rfl, by decide⟩

/-- `refill` with an entry, without one in each form, with no vacant lane, and served later; both queue status words. -/
theorem witness_RefillAndStatusComplete :
    let f : CFields := ⟨5, 0, 8, 3, 7, false⟩; let nb : CFields := ⟨0x405, 0, 8, 3, 7, false⟩; let n := { f with gn := true }
    let s := queued 1 id; let i := me s; let e := queued 0 id
    let all := { queued 1 id with warps := [(11, { warp0 with live := 0xFFFFFFFF })] }
    let got := withMem 0x1008 (bytesOfNat 8 0xDD0000050002007C) (queued 0 fun x => { x with wait := .getting 5 9 28 true [entryN 0] })
    let m : MFields := { mF 8 0 0 5 .x4 with ak := false }; let g := guardMask i m.gp m.gn
    let may (s : State) (i : Iss) (f : CFields) := MayRun s i (chkAll true (vOk i f.b.toNat 4 && pOk f.c.toNat)) { mem := true, shadow := true } 0
    (may s i f ∧ (∀ p a m o l, i.st.wait ≠ .getting p a m o l) ∧ guardScalar i f.gp f.gn = true ∧ guardScalar i n.gp n.gn = false ∧
      regionLanes i &&& i.lanes = 0 ∧ i.lau.refillQ = 5 ∧ ownQueue s i 5 = some (queueOf5 1) ∧ singleStrand i.warp = true ∧
      (∀ r ∈ spanRegs f.b.toNat 4, pendingV s i.w r = 0) ∧ lanesIn (~~~i.warp.live) ≠ [] ∧ getters s 5 = []) ∧
    (may e (me e) f ∧ may e (me e) nb ∧ ownQueue e (me e) 5 = some (queueOf5 0) ∧ f.disp.getLsbD 10 = false ∧ nb.disp.getLsbD 10 = true) ∧
    (may all (me all) f ∧ lanesIn (~~~(me all).warp.live) = []) ∧
    (strandAt got 11 3 = some (me got) ∧ instrAt got (me got) = some (.refill f) ∧ (me got).st.wait = .getting 5 9 28 true [entryN 0] ∧
      Getter.done ⟨11, 3, 9, 28, true, [entryN 0]⟩ = true) ∧
    MayRun s i (chkAll true (vOk i m.d.toNat 4 && decide (m.ofs.toNat < 1024))) (qstatUses m) g ∧
    MayRun s i (chkAll true (vOk i m.d.toNat 4 && true)) (qstatUses m) g ∧ ownQueue s i m.ofs.toNat = some (queueOf5 1) :=
  ⟨⟨⟨rfl, by decide, by decide⟩, fun _ _ _ _ _ h => Wait.noConfusion h, by decide, by decide, by decide, by decide, by decide, by decide,
      by decide, by decide, by decide⟩, ⟨⟨rfl, by decide, by decide⟩, ⟨rfl, by decide, by decide⟩, by decide, by decide, by decide⟩,
    ⟨⟨rfl, by decide, by decide⟩, by decide⟩, ⟨rfl, rfl, rfl, by decide⟩, ⟨rfl, by decide, by decide⟩, ⟨rfl, by decide, by decide⟩, by decide⟩

/-- A group record: group 2, operation 0, one word, one contribution, areas at 0x200 and 0x300. -/
def groupBytes : List Byte :=
  bytesOfNat 2 2 ++ bytesOfNat 1 0 ++ bytesOfNat 1 1 ++ bytesOfNat 2 1 ++ bytesOfNat 2 0 ++ bytesOfNat 4 0x200 ++ bytesOfNat 4 0x300 ++ bytesOfNat 48 0
def group2 : RedGroup := groupOf groupBytes
/-- The record at 0x6000, named by s4, and the group as the context has it. -/
def grouped (d : Map RedGroup) (st : Strand → Strand) : State :=
  withMem 0x6000 groupBytes { base with
    warps := [(11, { warp0 with s := [(4, 0x6000), (8, 0x100), (11, 0x400)], strands := [(3, st str0)] })]
    ctxs := [(1, { ctx0 with groups := d })] }
theorem withGroup_at {s : State} {i : Iss} {f : KFields} {b : Bool} {r : List Byte}
    (h : readRecord s i (sVal i.warp true f.a.toNat) 8 = .bytes r) (hh : recordHeld s i (sVal i.warp true f.a.toNat) 8 = false)
    (hm : sVal i.warp true f.a.toNat % 64 = 0)
    (hc : firstOf (groupChecks r ++ [(b && (mLook i.ctx.groups (recAt r 0 2)).isNone, 0x62)] ++
      (match mLook i.ctx.groups (recAt r 0 2) with | some x => groupDiffers (groupOf r) x | none => [])) = none) :
    ∀ a, withGroup s i f b a = andThen (shareRecord s i (sVal i.warp true f.a.toNat) 8)
      (a (recAt r 0 2) { groupOf r with rootDie := i.core / Config.coresPerDie } (mLook i.ctx.groups (recAt r 0 2))) :=
  fun a => by
    simp only [withGroup, withRecord_at h hh hm, checked]
    generalize hz : firstOf _ = z
    have : z = none := hz.symm.trans hc
    subst this; rfl

/-- `withGroup` reads the record, finds nothing against it, and goes on with the group it names. -/
def groupRead (s : State) (i : Iss) (f : KFields) (b : Bool) (n : Nat) (r : RedGroup) (d : Option RedGroup) : Prop :=
  ∀ a, withGroup s i f b a = andThen (shareRecord s i (sVal i.warp true f.a.toNat) 8) (a n r d)

/-- No group yet; a group the block is in or not; between rounds and in one; a registration that waits, a release that
waits for its round, and one whose group is gone. -/
theorem witness_ReductionGroupsComplete :
    let f : KFields := ⟨4, 8, 10, 1, 2, 7, false, 0, .relaxed, .block⟩; let n := { f with gn := true }
    let s := grouped [] id; let i := me s; let one := { group2 with parts := [(10, 1, 2)] }
    let t := grouped [(2, one)] id; let j := me t; let u := grouped [(2, { one with began := true })] id
    let w := grouped [(2, group2)] fun x => { x with wait := .registering 2 1 2 }
    let x := grouped [(2, { one with began := true, freeing := true })] fun x => { x with wait := .releasing 2 }
    let y := grouped [] fun x => { x with wait := .releasing 2 }
    let may (s : State) (i : Iss) (f : KFields) := MayRun s i (chkAll true (sPair i f.a)) ((redUses f).on (guardScalar i f.gp f.gn)) 0
    ((∀ a b c, i.st.wait ≠ .registering a b c) ∧ (∀ a, i.st.wait ≠ .releasing a) ∧ may s i f ∧ guardScalar i f.gp f.gn = true ∧
      may s i n ∧ guardScalar i n.gp n.gn = false ∧
      groupRead s i f false 2 group2 none ∧ f.tag.toNat < i.lau.tags ∧ f.aux.toNat % 64 < i.lau.tags ∧
      f.tag.toNat ≠ f.aux.toNat % 64 ∧ areaBad i group2.result (areaBytes group2) = false ∧ areaBad i group2.corr (areaBytes group2) = false ∧
      (withEarly s i.ctx 2 group2).parts = []) ∧
    (may t j f ∧ groupRead t j f false 2 group2 (some one) ∧ (∃ p ∈ one.parts, p.1 = j.warp.block) ∧ one.began = false) ∧
    (may u (me u) f ∧ groupRead u (me u) f false 2 group2 (some { one with began := true })) ∧
    (issuer x = some (me x) ∧ (me x).st.wait = .releasing 2 ∧ (mLook (me x).ctx.groups 2).any (·.freeing) = true) ∧
    (issuer y = some (me y) ∧ (me y).st.wait = .releasing 2 ∧ (mLook (me y).ctx.groups 2).any (·.freeing) = false) ∧
    strandAt w 11 3 = some (me w) ∧ (me w).st.wait = .registering 2 1 2 ∧ mLook (me w).ctx.groups 2 = some group2 ∧
    (∀ p ∈ group2.parts, p.1 ≠ (me w).warp.block) ∧ group2.lastResult = none ∧ group2.lastCorr = none :=
  ⟨⟨fun _ _ _ h => Wait.noConfusion h, fun _ h => Wait.noConfusion h, ⟨rfl, by decide, by decide⟩, by decide, ⟨rfl, by decide, by decide⟩,
      by decide, withGroup_at (r := groupBytes) (by decide) (by decide) (by decide) (by decide),
      by decide, by decide, by decide, by decide, by decide, rfl⟩,
    ⟨⟨rfl, by decide, by decide⟩, withGroup_at (r := groupBytes) (by decide) (by decide) (by decide) (by decide), ⟨_, .head _, rfl⟩, rfl⟩,
    ⟨⟨rfl, by decide, by decide⟩, withGroup_at (r := groupBytes) (by decide) (by decide) (by decide) (by decide)⟩,
    ⟨rfl, rfl, rfl⟩, ⟨rfl, rfl, rfl⟩, rfl, rfl, rfl, by decide, rfl, rfl⟩

/-- `dred` and `dfix` of a defined group, a contribution promised, at its router and at its root, a round past its deadline,
and an area on its way: its last word, its tag, and a participant that is gone. -/
theorem witness_ReductionsComplete :
    let f : KFields := ⟨4, 8, 10, 1, 2, 7, false, 0, .relaxed, .block⟩; let n := { f with gn := true }
    let s := grouped [(2, group2)] id; let i := me s; let unit : MUnit := ⟨0, .glob 0x1000, 4, 0, 0, 0, false⟩
    let op : MemOp := { w := 11, blk := 10, ctx := 1, core := 0, kind := .load, lanes := 1, units := [unit] }
    let busy := { s with ops := [(15, op)] }
    let p := grouped [(2, group2)] fun x => { x with wait := .promised 2 0 0x400 0x100 1 }
    let w := grouped [(2, group2)] fun x => { x with wait := .contributing 2 0 0x400 [0] }
    let c : Contribution := ⟨0, 0x400, [0]⟩; let fl := { group2 with flight := [c] }
    let late := { group2 with began := true, expires := some 0 }; let d : Delivery := ⟨10, 1, [], [(0x200, 7)]⟩
    let fr (o : Nat) (b : Bool) := (match scratchFate s i o (areaBytes group2) b with | .stop _ _ _ => false | _ => true)
    let may (s : State) (i : Iss) (f : KFields) := MayRun s i (chkAll true (sPair i f.a && sOk i f.b.toNat 1 && sOk i f.c.toNat 1 && sOk i (f.c.toNat + 1) 1))
        { redUses f with sr := regs f.a.toNat true ++ [f.b.toNat, f.c.toNat, f.c.toNat + 1], act := guardScalar i f.gp f.gn } 0
    (may s i f ∧ may s i n ∧ guardScalar i n.gp n.gn = false ∧
      guardScalar i f.gp f.gn = true ∧ regionLanes i &&& i.lanes = 0 ∧ groupRead s i f true 2 group2 (some group2)) ∧
    ((∀ a b c e, i.st.wait ≠ .contributing a b c e) ∧ (∀ a b c e k, i.st.wait ≠ .promised a b c e k) ∧
      (sR i.warp f.c.toNat).toNat < group2.count ∧ (sR i.warp (f.c.toNat + 1)).toNat < 2 ^ 24 ∧ areaBad i 0x100 (4 * group2.words) = false ∧
      quiet s i.w (~~~0) = true ∧ fr 0x100 false = true ∧ may busy (me busy) f ∧ quiet busy 11 (~~~0) = false) ∧
    ((∀ o ∈ [0x100, 0, 0x400], areaBad i o (areaBytes group2) = false) ∧ readHeld s i (.scr i.warp.block 0x100) (areaBytes group2) = false ∧
      readHeld s i (.scr i.warp.block 0) (areaBytes group2) = false ∧ fr 0x100 false = true ∧ fr 0 false = true ∧ fr 0x400 true = true ∧
      (readArea s i.warp.block group2 0x100).cover &&& (readArea s i.warp.block group2 0).cover = 0 ∧ i.warp.st ≠ 63) ∧
    (issuer p = some (me p) ∧ (me p).st.wait = .promised 2 0 0x400 0x100 1 ∧ (mLook (me p).ctx.groups 2).isSome = true ∧ quiet p 11 (~~~0) = true) ∧
    (strandAt w 11 3 = some (me w) ∧ (me w).st.wait = .contributing 2 0 0x400 [0] ∧ mLook (me w).ctx.groups 2 = some group2 ∧
      (∀ c ∈ group2.waiting, c.index ≠ 0)) ∧
    fl.flight.find? (fun c => decide (c.index = 0)) = some c ∧ rootHere s fl = true ∧ (∀ x ∈ fl.waiting, x.index ≠ 0) ∧
    overdue (dieClock { s with now := 1 } 0) late = true ∧
    [d].find? (fun d => decide (d.blk = 10)) = some d ∧ d.left[0]? = some (0x200, 7) ∧ gone s 10 = false ∧ gone s 11 = true :=
  ⟨⟨⟨rfl, by decide, by decide⟩, ⟨rfl, by decide, by decide⟩, by decide, by decide, by decide,
      withGroup_at (r := groupBytes) (by decide) (by decide) (by decide) (by decide)⟩,
    ⟨fun _ _ _ _ h => Wait.noConfusion h, fun _ _ _ _ _ h => Wait.noConfusion h, by decide, by decide, by decide, by decide, by decide,
      ⟨rfl, by decide, by decide⟩, by decide⟩,
    ⟨by decide, by decide, by decide, by decide, by decide, by decide, by decide, by decide⟩, ⟨rfl, rfl, rfl, by decide⟩,
    ⟨rfl, rfl, rfl, by decide⟩, by decide, by decide, by decide, by decide, by decide, rfl, by decide, by decide⟩
/-! ### The device's own events -/

/-- A sealed page at 0x10000, a secure range, a word in error, and free memory. -/
theorem witness_OutsideAccessesComplete :
    let s := { base with ctxs := [(1, { ctx0 with sealed := [(0x10000, 0x1000)] })], mgmt := { stage := 0x10, secureRanges := [1] }, bad := [.glob 0x9000] }
    let good (x : PeerAccess) : Bool := (peerSpan x).2.2 && buryxUp s && decide ((peerSpan x).2.1 ≠ 0) && decide ((peerSpan x).1 % (peerSpan x).2.1 = 0) &&
      deviceRange (peerSpan x).1 (peerSpan x).2.1
    let shut (x : PeerAccess) : Bool := peerWrites x && (List.range (peerSpan x).2.1).any fun j => sealedKey s ((peerSpan x).1 + j)
    s.Canonical ∧ cxlUp s = true ∧ buryxUp s = true ∧ 0 < Config.cores ∧ Config.cores - 1 < Config.cores ∧ (5 * 2 ^ 58) * 64 / 2 ^ 64 = 5 ∧
    (deviceRange 0x1000 1 = true ∧ (secureKey s 0x1000 || locBad s (.glob 0x1000) 64) = false) ∧
    (deviceRange (2 ^ 26) 1 = true ∧ (secureKey s (2 ^ 26) || locBad s (.glob (2 ^ 26)) 64) = true) ∧
    (deviceRange 0x1000 64 = true ∧ 0x1000 % 64 + (bytesOfNat 64 1).length ≤ 64 ∧
      (secureKey s 0x1000 || (List.range 64).any fun j => sealedKey s (0x1000 + j)) = false) ∧
    (secureKey s 0x10000 || (List.range 64).any fun j => sealedKey s (0x10000 + j)) = true ∧
    (deviceRange (2 ^ 36 - 4) 4 = true ∧ (2 ^ 36 - 4) % 4 = 0 ∧ locBad s (.glob (2 ^ 36 - 4)) 4 = false ∧
      ∀ j < 4, sealedKey s (2 ^ 36 - 4 + j) = false) ∧
    (0 : BitVec 5).toNat < 16 ∧ atomNew 0 4 (bytesAt s.mem (2 ^ 36 - 4) 4) 1 0 = some 1 ∧ atomNew 9 4 (bytesAt s.mem 0x1000 4) 1 0 = none ∧
    good (.load (2 ^ 36 - 3) 4) = false ∧ (good (.store 0x10000 [1]) = true ∧ shut (.store 0x10000 [1]) = true) ∧
    good (.load 0x9000 4) = true ∧ shut (.load 0x9000 4) = false ∧ peerReads (.load 0x9000 4) = true ∧ locBad s (.glob 0x9000) 4 = true := by
  refine ⟨by constructor <;> decide, ?_⟩; decide

/-- A route; a strand at `waitm` and one that waits in `await.mem`; a fault to report, and one that is reported and held for. -/
theorem witness_LinksAndFaultsComplete :
    let s := { base with mgmt := { routes := [(2, 0), (2, 1)] } }; let f : PageFault := { ctx := 1, page := 0x40000, kind := 0, die := 0 }
    let m := inStrand fun x => { x with wait := .met 1 }; let w := inStrand fun x => { x with wait := .cond (.mem 0x100 4 0 0) 0 true }
    let r := { base with faults := [(30, f)], mgmt := { ringBase := some 0x1000, ringCount := 16 } }
    let t := { inStrand (fun x => { x with held := some (0x40000, false) }) with
      faults := [(30, { f with reported := true })], engs := [(15, { zeroOp with asked := [(1, 0x40000)] })] }
    s.mgmt.routes.find? (fun r => decide (r.1 = 2)) = some (2, 0) ∧
    ((∀ e ∈ s.ops, ∀ u ∈ e.2.units, u.done = true ∨ ∀ k, u.loc = .glob k → k / 2 ^ 64 ≠ 6 + 2) ∧ s.mgmt.linksDown.contains 2 = false) ∧
    (strandAt m 11 3 = some (me m) ∧ (me m).st.wait = .met 1) ∧
    (strandAt w 11 3 = some (me w) ∧ (me w).st.wait = .cond (.mem 0x100 4 0 0) 0 true) ∧
    cxlUp { base with mgmt := { stage := 0x10 } } = true ∧ (mLook r.faults 30 = some f ∧ r.mgmt.ringBase = some 0x1000 ∧ nextReport r = some 30 ∧ ringUsed r.mgmt < r.mgmt.ringCount) ∧
    (t.Canonical ∧ mLook t.faults 30 = some { f with reported := true } ∧ (mLook t.warps 11).any (fun x => ctxOfWarp t x = some 1) = true ∧
      (mLook t.engs 15).any (fun o => o.asked.contains (1, 0x40000)) = true) :=
  ⟨by decide, ⟨fun _ h => (nomatch h), by decide⟩, ⟨rfl, rfl⟩, ⟨rfl, rfl⟩, by decide, ⟨rfl, rfl, by decide, by decide⟩, by constructor <;> decide, rfl,
    by decide, by decide⟩

/-- A command of each class that runs, one without the semaphore, and each answer that a state prescribes. -/
theorem witness_CommandsComplete :
    let s := { base with mgmt := { stage := 0x10, holder := some .mailbox } }
    let at_ (n : Nat) : Mgmt := { stage := n }; let x : CtxArgs := ⟨2, 0, 0, 0, 64, 0, false, false, false, false, [0]⟩
    (∃ k sem f, Command .mailbox s (.ctxCreate .mailbox x) k sem true f ∧ screen s.mgmt .mailbox k = none ∧ sem = false) ∧
    (∃ k sem f, Command .mailbox s (.powerStep .mailbox 4) k sem true f ∧ screen s.mgmt .mailbox k = none ∧ sem = true ∧
      s.mgmt.holder = some .mailbox) ∧
    (∃ k sem f, Command .i3c s (.powerStep .i3c 5) k sem false f ∧ screen s.mgmt .i3c k = none ∧ sem = true ∧ s.mgmt.holder ≠ some .i3c) ∧
    screen (at_ 0xF2) .mailbox .plain = some .silent ∧ screen (at_ 1) .mailbox .plain = some .busy ∧
    screen s.mgmt .i3c .errLog = none ∧
    (∃ k f, SpdmMessage .i3c s (.finish .i3c) k 9 [] f ∧ screen s.mgmt .i3c k = none) :=
  ⟨⟨_, _, _, .ctxCreate _, by decide, rfl⟩, ⟨_, _, _, .powerStep 4, by decide, rfl, rfl⟩, ⟨_, _, _, .powerStep 5, by decide, rfl, by decide⟩,
    by decide, by decide, by decide, _, _, .finish, by decide⟩

/-- Each premise of the controller's own events. -/
theorem witness_ControllerEventsComplete :
    let y : Tracer := { args := ⟨0, ⟨[], [], 0⟩, ⟨[], [], 0⟩⟩ }; let p : Sampler := { period := 6, buffer := 0, since := 0 }
    let s := { base with now := 2 ^ 34, cores := [(0, { ctx := some 1, tracer := some y, sampler := some p })],
                         mgmt := { holder := some .i3c, lasting := [.columnStore 5 7, .subcore 5 3] } }
    let x : SampleTaken := ⟨11, 3, 0, 0, false⟩; let i := me s
    s.Canonical ∧ s.mgmt.holder.isSome = true ∧ s.mgmt.heardAt + 2 ^ 34 ≤ s.now ∧
    ((s.mgmt.lasting.contains (.columnStore 5 7) = true ∧ partnerHolds s (.columnStore 5 7) = false ∧ sourceIdle s (.columnStore 5 7) = true) ∧
      s.mgmt.lasting.contains (.subcore 5 3) = true ∧ partnerHolds s (.subcore 5 3) = false ∧ sourceIdle s (.subcore 5 3) = true) ∧
    countOf s.mgmt.errWindow (.subcore 5 3) ≠ sourceClock s (.subcore 5 3) / 2 ^ 32 ∧ countOf s.mgmt.errWindow (.columnStore 5 7) = 0 ∧
    (coreOf s 0).tracer = some y ∧ (coreOf s 0).sampler = some p ∧ p.since + (p.turn + 1) * 2 ^ p.period ≤ cycleOf s 0 ∧
    (x.reason = 1 ∨ x.producer = 0) ∧ x.reason ≠ 15 ∧ strandAt s x.w x.st = some i ∧ i.core = 0 ∧
    i.warp.sub = p.turn / 2 % Config.subcores ∧ reasonFits i.warp i.st x.reason = true :=
  ⟨by constructor <;> decide, by decide, by decide, by decide, by decide, by decide, rfl, rfl, by decide, .inr rfl, by decide, rfl, rfl, by decide, by decide⟩
/-- A launch record that R338 takes: its work-id widths allow two blocks of one warp. -/
def goodRec : List Byte := (recordOf 0 2 0x9000 0x5000).take 16 ++ [5, 0, 1, 0, 0, 0] ++ (recordOf 0 2 0x9000 0x5000).drop 22
def part0 : Partition := { cores := [0, 1] }
/-- Launch 8 of that record in the arbiter's list beside launch 7, and an idle core 1 in its partition. -/
def scheduling (l : Launch) : State :=
  { base with launches := [(7, { lau0 with nextB := 2 }), (8, l)], parts := [(0, part0)], cores := [(0, { ctx := some 1 }), (1, {})] }
def lau8 : Launch := { ctx := 1, bytes := goodRec, scope := none, stage := .entered, order := 5 }

theorem placeAll_one {s : State} {id : Nat} {p : BlockPlace} {l : Launch} (h : mLook s.launches id = some l) (hb : p.b = l.nextB)
    (hp : placeOk s l p = true) (hr : recordsFree s l.ctx p.records = true) :
    ∃ es, placeAll id [p] none s = some es :=
  Option.isSome_iff_exists.mp (show (placeAll id [p] none s).isSome = true by simp [placeAll, h, hb, hp, hr])

set_option maxRecDepth 8000 in
/-- A good submission; two bad ones; a record that may enter; one that R338 rejects; a dispatch; a block that completes; a launch
that has ended. -/
theorem witness_SchedulerCompletes :
    let s := withMem 0x6000 goodRec base; let t := scheduling { lau8 with stage := .ready }; let u := scheduling { lau8 with bytes := recordOf 0 2 0x9000 0x5000 }
    let v := scheduling lau8; let p : BlockPlace := ⟨0, [1], [3], [0x10080]⟩
    let w := { base with warps := [(11, { warp0 with live := 0, strands := [] })] }
    let hold := (goodRec.take 0x16) ++ [1] ++ goodRec.drop 0x17; let h := withMem 0x6000 hold base
    let z := { base with launches := [(7, { lau0 with stage := .finished, status := 1, doneKey := some 0x9000, scope := some 3 })] }
    (s.Canonical ∧ mLook s.ctxs 1 = some ctx0 ∧ ctx0.terminated = false ∧ (0x6000 : DWord).toNat % 128 = 0 ∧ readVirt s ctx0 0x6000 128 = some goodRec ∧ doneOk s ctx0 goodRec = true ∧
      ringCount s 1 < ctx0.launchQuota ∧ recAt goodRec 48 2 = 0xFFFF ∧ recHold goodRec = false) ∧
    (h.Canonical ∧ readVirt h ctx0 0x6000 128 = some hold ∧ doneOk h ctx0 hold = true ∧ recAt hold 48 2 = 0xFFFF ∧ recHold hold = true) ∧
    (0x6008 % 128 ≠ 0 ∧ readVirt s ctx0 0x40000000 128 = none) ∧
    (mLook t.launches 8 = some { lau8 with stage := .ready } ∧ (t.launches.filter fun e => inList e.2 t).length < 4096 ∧
      ∀ e ∈ t.launches, e.2.stage = .ready → sameSource e.2 lau8 = true → lau8.order ≤ e.2.order) ∧
    (u.Canonical ∧ recordOk u ctx0 8 { lau8 with bytes := recordOf 0 2 0x9000 0x5000 } = false ∧ lau8.nextB < lau8.blocksN) ∧
    (mLook v.launches 8 = some lau8 ∧ waitsForCores lau8 = true ∧ recordOk v ctx0 8 lau8 = true ∧ hasSaved v 8 = false ∧
      rightPlaces v 8 lau8 [p] = true ∧ ∃ es, placeAll 8 [p] none v = some es) ∧
    (w.Canonical ∧ mLook w.blocks 10 = some blk0 ∧ (∀ x ∈ blk0.warps, liveOf w x = 0) ∧ (∀ e ∈ w.ops, e.2.blk ≠ 10) ∧
      (∀ e ∈ w.engs, e.2.blk ≠ 10) ∧ lau0.doneBlocks + 1 ≠ lau0.blocksN ∧ blk0.completed = false ∧ blk0.place = .resident) ∧
    mLook z.launches 7 = some { lau0 with stage := .finished, status := 1, doneKey := some 0x9000, scope := some 3 } :=
  ⟨⟨by constructor <;> decide, rfl, rfl, by decide, by decide, by decide, by decide, by decide, by decide⟩,
    ⟨by constructor <;> decide, by decide, by decide, by decide, by decide⟩, ⟨by decide, by decide⟩,
    ⟨by decide, by decide, by decide⟩, ⟨by constructor <;> decide, by decide, by decide⟩,
    ⟨by decide, by decide, by decide, by decide, by decide,
      placeAll_one (l := lau8) (by decide) (by decide) (by decide) (by decide)⟩,
    ⟨by constructor <;> decide, by decide, by decide, by decide, by decide, by decide, by decide, by decide⟩, by decide⟩

set_option maxRecDepth 8000 in
/-- A pending ready warp beside an active one that waits on a barrier, beside one at a header, and alone; a sub-core due for its scrub,
an idle one, and one that sleeps. -/
theorem witness_SubcoresComplete :
    let w2 : Warp := { warp0 with active := false, slotNo := 1, readySince := some 0, strands := [(5, { str0 with slot := none })] }
    let s := { base with warps := [(11, { warp0 with strands := [(3, { str0 with wait := .barrier false 0 0, idleAt := 1 })] }), (12, w2)] }
    let t := { base with now := 2048, warps := [(11, { warp0 with strands := [(3, { str0 with slot := none })] }), (12, w2)] }
    let a := { base with warps := [(12, w2)] }; let v := { base with now := 2 ^ 22 }
    let u := { base with cores := [(0, { ctx := some 1, asleep := [9] })] }
    (((mLook s.warps 11).any fun x => x.active && decide (x.place = .resident) && !warpReady s x &&
        x.strands.all fun e => longWait s 11 x e.2) = true ∧
      pendingReady s 0 0 = some (12, w2)) ∧
    (pendingReady t 0 0 = some (12, w2) ∧ ((youngest (activeSet t 0 0)).any fun e => decide (e.1 = 11) && warpAtRest e.2) = true ∧
      w2.readySince = some 0 ∧ 0 + 2048 ≤ cycleOf t 0) ∧
    ((activeSet a 0 0).length < Config.activeSet ∧ pendingReady a 0 0 = some (12, w2)) ∧ scrubDue v 0 0 = true ∧ scrubDue base 0 0 = false ∧
    maySleep base 0 9 = true ∧ maySleep base (Config.cores - 1) (Config.subcores - 1) = true ∧ (coreOf u 0).asleep.contains 9 = true :=
  ⟨⟨by decide, rfl⟩, ⟨rfl, by decide, rfl, by decide⟩, ⟨by decide, rfl⟩, by decide, by decide, by decide, by decide, by decide⟩

set_option maxRecDepth 8000 in
/-- A core with a strand inside a clause, one at rest, a block saved alone, and a barrier past its time. -/
theorem witness_PreemptionCompletes :
    let l : Launch := { lau8 with stage := .running }; let b : Block := { blk0 with launch := 8 }
    let s := { scheduling l with blocks := [(10, b)] }
    let t := { s with warps := [(11, { warp0 with strands := [(3, { str0 with slot := none })] })] }
    let v : Block := { b with place := .saved, savedAt := 4, rect := [] }
    let u := { s with blocks := [(10, v)], warps := [(11, { warp0 with place := .saved, active := false })] }
    let p : BlockPlace := ⟨0, [1], [3], []⟩
    let w := { base with now := 2 ^ 40, launches := [(7, { lau0 with bytes := (recordOf 0 2 0x9000 0x5000).set 45 20 })]
                         blocks := [(10, { blk0 with bars := [(15, { count := some 0, first := 1 })] })] }
    (s.Canonical ∧ saveReady s 0 = false) ∧
    (t.Canonical ∧ saveReady t 0 = true ∧ ∀ e ∈ saveSet t 0, ∀ c ∈ mLook t.ctxs e.2.ctx, areaWritable t c c.save.toNat 4 = true) ∧
    (u.Canonical ∧ mLook u.blocks 10 = some v ∧ launchOf u v = some l ∧ savedWith u v = [(10, v)] ∧
      imageReadable u v = true ∧ clusterFree u v.launch l (clusterBase (p.cores.headD 0) l.cluster) = true ∧ (∀ c ∈ p.cores, mayReturn u v l c = true) ∧ (restoreAll [(10, v)] [p] u).isSome = true) ∧
    w.Canonical ∧ ((expired w 1).find? fun y => decide (y.blk = 10) && decide (y.cluster = false) && decide (y.bid = 15)).isSome = true ∧
    (∀ y ∈ expired w 1, ∀ z ∈ expired w 1, expiresFirst y z = true) ∧ ctx0.terminated = false :=
  ⟨⟨by constructor <;> decide, by decide⟩, ⟨by constructor <;> decide, by decide, by decide⟩,
    ⟨by constructor <;> decide, by decide, by decide, by decide, by decide, by decide, by decide, by decide⟩, by constructor <;> decide, by decide, by decide, rfl⟩
/-! ### Encodings and steps -/

theorem witness_DecodeEncode :
    let f := vF 8 4 5 0 .f32 .vec 0; let l := { vF 8 4 5 0 .f32 .vec 0 with kind := .lit 0x3FC00000 }; let p : PFields := ⟨0, 12, 13, 20, 1, 17, 14, 0, 7, false⟩
    ((Instr.add f).legal = true ∧ ((encode (.add f)).any fun x => x.2.isNone) = true) ∧
    ((Instr.mul { l with b := 0 }).legal = true ∧ ((encode (.mul { l with b := 0 })).any fun x => x.2.isSome) = true) ∧
    (Instr.pairWord p).legal = true ∧ (encode (.pairWord p)).isSome = true := by decide

theorem witness_NopIsAsStated : opcodeOf 0x3800 = 0 ∧ opcodeOf 0xFF = 0 ∧ issuer base = some (me base) := ⟨by decide, by decide, rfl⟩

/-- The next input issues the strand; its slot holds a slot word, a slot word with a literal, and a pair word. -/
def issuing_ (word lit : Nat) (hdr : DWord) : State :=
  withMem 0x1008 (bytesOfNat 8 word ++ bytesOfNat 8 lit) { inStrand (fun x => { x with hdr := hdr }) with cur := none, agenda := [.issue 11 3] }

theorem witness_StepRunsDecoded :
    let ready (s : State) (word : DWord) : Prop := s.agenda = [.issue 11 3] ∧
      (let s0 := { s with agenda := [], tick := s.tick + 1 }
       let c := { s0 with cur := some (11, 3) }
       mayIssue s0 11 3 = true ∧ issuer c = some (me c) ∧ (me c).st.slot = some 0 ∧ (me c).st.reread = false ∧
       fetch (after (traceStart (me c)) c) (me c) (pcOf (me c).st).toNat = .word word 0x1008)
    let one := issuing_ 0x3800 0 0x03FFFF0000000000; let two := issuing_ 0x0304010000003918 0x3FC00000 0x03FFFF0000000000
    let pair := issuing_ 0x00180D0A0211071C 0 0x03FFFF0000000001
    let c := { two with agenda := [], tick := two.tick + 1, cur := some (11, 3) }
    (ready one 0x3800 ∧ slotMisplaced 0x03FFFF0000000000 0 0x3800 = false ∧
      slotsAfter false 0x3800 ≠ 2) ∧
    (ready two 0x0304010000003918 ∧ slotMisplaced 0x03FFFF0000000000 0 0x0304010000003918 = false ∧
      slotsAfter false 0x0304010000003918 = 2 ∧ (hdrPairs 0x03FFFF0000000000).testBit 0 = false ∧
      fetch (afterFetch (after (traceStart (me c)) c) (me c) 0x1008 0x1008 0x0304010000003918) (me c) 0x1010 = .word 0x3FC00000 0x1010) ∧
    ready pair 0x00180D0A0211071C ∧ (hdrPairs 0x03FFFF0000000001).testBit 0 = true :=
  ⟨⟨⟨rfl, by decide, rfl, rfl, rfl, by decide⟩, by decide, by decide⟩, ⟨⟨rfl, by decide, rfl, rfl, rfl, by decide⟩, by decide, by decide,
      by decide, by decide⟩, ⟨rfl, by decide, rfl, rfl, rfl, by decide⟩, by decide⟩

theorem witness_StepKeepsCanonical : let s := { base with agenda := [.tick 5] }
    s.Canonical ∧ ∃ t, step s = .next t :=
  ⟨by constructor <;> decide, _, rfl⟩

theorem witness_StepNeverStops :
    (encode (.nop (vF 0 0 0 0 .i32 .vec 0))).isSome = true ∧ (issuer base).isSome = true ∧ issuer State.reset = none ∧
    encode (.wdogExpire 0 false 0) = none := ⟨by decide, rfl, rfl, rfl⟩
/-! ## One step each, with results worked out from the rules -/

/-- Register `r` of lane `l` of warp 11 after a step. -/
def laneAfter (o : Host.Outcome State Fault Refusal) (r l : Nat) : Option Nat :=
  match o with | .next t => (mLook t.warps 11).map fun x => (vR x r l).toNat | _ => none
/-- What the strand in entry 3 is after a step. -/
def strandAfter (o : Host.Outcome State Fault Refusal) : Option (Nat × Option Nat × Nat) :=
  match o with
  | .next t => ((mLook t.warps 11).bind fun x => mLook x.strands 3).map fun y => (y.pc.toNat, y.slot, y.members.toNat)
  | _ => none
/-- A byte of global memory after a step. -/
def byteAfter (o : Host.Outcome State Fault Refusal) (k : Nat) : Option Nat :=
  match o with | .next t => some (mGet 0 t.mem k).toNat | _ => none
/-- v4 and v5 of lane 0. -/
def two (a b : Word) : State := withV [(128, a), (160, b)]

/-- R101: the integer sum wraps modulo 2^32. -/
theorem test_add_wraps : laneAfter (exec (.add (vF 8 4 5 0 .i32 .vec 0)) (two 0xFFFFFFFF 2)) 8 0 = some 1 := by decide
/-- R97: a lane whose guard is false keeps its register; here p1, true in no lane. -/
theorem test_add_guarded : laneAfter (exec (.add { vF 4 4 5 0 .i32 .vec 0 with gp := 1 }) (two 7 2)) 4 0 = some 7 := by decide
/-- R101: 1.5 + 2.25 = 3.75 in binary32. -/
theorem test_add_float : laneAfter (exec (.add (vF 8 4 5 0 .f32 .vec 0)) (two 0x3FC00000 0x40100000)) 8 0 = some 0x40700000 := by decide
/-- R101: 0 − 1 wraps. -/
theorem test_sub_wraps : laneAfter (exec (.sub (vF 8 4 5 0 .i32 .vec 0)) (two 0 1)) 8 0 = some 0xFFFFFFFF := by decide
/-- R108: bit reversal moves bit 0 to bit 31. -/
theorem test_brev : laneAfter (exec (.brev (vF 8 0 5 0 .b32 .vec 0)) (two 0 1)) 8 0 = some 0x80000000 := by decide
/-- R115: `bra` goes to H + 8·DISP, here two words back. -/
theorem test_bra : strandAfter (exec (.bra ⟨0xFFFFFE, 0, 0, 0, 7, false⟩) base) = some (0xFF0, none, 0xF) := by decide
set_option maxRecDepth 8000 in
/-- R382, R384: the record of `trap 5` has CAUSE 0x11 in its first byte and the code in EXTRA. -/
theorem test_trap_record :
    byteAfter (exec (.trap ⟨5, 0, 0, 0, 7, false⟩) base) 0x10040 = some 0x11 ∧
    strandAfter (exec (.trap ⟨5, 0, 0, 0, 7, false⟩) base) = some (0x5000, none, 0xF) := by decide
/-- R29: `exit` of every lane leaves the strand no entry. -/
theorem test_exit : strandAfter (exec (.exit ⟨0, 0, 0, 0, 7, false⟩) base) = none := rfl

/-- One access of lane 0 in flight. -/
def flying (k : MKind) (u : MUnit) : State :=
  withMem 0x8000 [1, 2, 3, 4] (inWarp fun x => { x with ld := 1, st := 1 }) |> fun s =>
    { s with ops := [(15, { w := 11, blk := 10, ctx := 1, core := 0, kind := k, lanes := 1, units := [u] })] }
/-- R214: bytes are little-endian. -/
theorem test_load_little_endian :
    laneAfter (exec (.loadReturn 15 0) (flying .load ⟨0, .glob 0x8000, 4, 6, 0, 0, false⟩)) 6 0 = some 0x04030201 := by decide
/-- R198: a store commits all its bytes in one event. -/
theorem test_store_commit :
    (List.range 4).map (fun j => byteAfter (exec (.storeCommit 15 0) (flying .store ⟨0, .glob 0x8000, 4, 0, 0xA1B2C3D4, 0, false⟩)) (0x8000 + j))
      = [some 0xD4, some 0xC3, some 0xB2, some 0xA1] := by decide
/-- R220: an atomic add writes the sum and returns the old value. -/
theorem test_atomic_add :
    let s := flying (.atom 0 true) ⟨0, .glob 0x8000, 4, 6, 1, 0, false⟩
    laneAfter (exec (.loadReturn 15 0) s) 6 0 = some 0x04030201 ∧ byteAfter (exec (.loadReturn 15 0) s) 0x8000 = some 2 := by decide
/-- R428: right after reset STATE is 0x00 and no context exists (R14). -/
theorem test_reset : State.reset.mgmt.stage = 0 ∧ State.reset.ctxs = [] := by decide

end Sys2Proof.Tests
end

/-! SUPPORT. `nop` (R100): its word to the bit, what its opcode decodes to, and the whole of its effect. -/

namespace Sys2Proof.Machine

/-! ## Fields of a word as bits under a mask -/

/-- The bits `lo + n - 1 : lo` set and no others. -/
def fieldMask (lo n : Nat) : DWord := (BitVec.allOnes n).setWidth 64 <<< lo

theorem getLsbD_fieldMask {lo n k : Nat} (h : lo + n ≤ 64) :
    (fieldMask lo n).getLsbD k = decide (lo ≤ k ∧ k < lo + n) := by
  rw [Bool.eq_iff_iff]
  simp only [fieldMask, BitVec.getLsbD_shiftLeft, BitVec.getLsbD_setWidth, BitVec.getLsbD_allOnes, Bool.and_eq_true,
    Bool.not_eq_true', decide_eq_true_eq, decide_eq_false_iff_not]
  omega

/-- A field is 0 exactly when its bits are clear in the word. -/
theorem bitsAt_eq_zero_iff (w : DWord) {lo n : Nat} (h : lo + n ≤ 64) :
    bitsAt w lo n = 0 ↔ w &&& fieldMask lo n = 0 := by
  constructor <;> intro e
  · refine BitVec.eq_of_getLsbD_eq fun k _ => ?_
    rw [BitVec.getLsbD_and, getLsbD_fieldMask h]
    by_cases hk : lo ≤ k ∧ k < lo + n
    · have := congrArg (·.getLsbD (k - lo)) e
      simpa [bitsAt, hk, show k - lo < n by omega, Nat.add_sub_cancel' hk.1] using this
    · simp [hk]
  · refine BitVec.eq_of_getLsbD_eq fun k hk => ?_
    have := congrArg (·.getLsbD (lo + k)) e
    simpa [bitsAt, BitVec.getLsbD_and, getLsbD_fieldMask h, hk] using this

theorem getLsbD_eq_false_iff (w : DWord) (k : Nat) : w.getLsbD k = false ↔ bitsAt w k 1 = 0 := by
  constructor <;> intro e
  · refine BitVec.eq_of_getLsbD_eq fun j hj => ?_
    obtain rfl : j = 0 := by omega
    simpa [bitsAt, -BitVec.getLsbD_eq_getElem] using e
  · simpa [bitsAt, -BitVec.getLsbD_eq_getElem] using congrArg (·.getLsbD 0) e

theorem and_or_eq_zero_iff (w a b : DWord) : w &&& (a ||| b) = 0 ↔ w &&& a = 0 ∧ w &&& b = 0 := by
  rw [BitVec.and_or_distrib_left]
  exact BitVec.or_eq_zero_iff

/-- The mask of R100 covers every field of the V format but GP and GN (R68). -/
theorem and_nopMask_eq_zero_iff (w : DWord) : w &&& 0xFFFFFFFFFFFFC3FF = 0 ↔
    bitsAt w 56 8 = 0 ∧ bitsAt w 47 9 = 0 ∧ bitsAt w 38 9 = 0 ∧ bitsAt w 29 9 = 0 ∧ bitsAt w 20 9 = 0 ∧
      bitsAt w 18 2 = 0 ∧ bitsAt w 16 2 = 0 ∧ bitsAt w 14 2 = 0 ∧ bitsAt w 6 4 = 0 ∧ bitsAt w 5 1 = 0 ∧
      bitsAt w 3 2 = 0 ∧ bitsAt w 0 3 = 0 := by
  have hmask : (0xFFFFFFFFFFFFC3FF : DWord) =
      fieldMask 56 8 ||| (fieldMask 47 9 ||| (fieldMask 38 9 ||| (fieldMask 29 9 ||| (fieldMask 20 9 |||
        (fieldMask 18 2 ||| (fieldMask 16 2 ||| (fieldMask 14 2 ||| (fieldMask 6 4 ||| (fieldMask 5 1 |||
        (fieldMask 3 2 ||| fieldMask 0 3)))))))))) := by decide
  simp only [hmask, and_or_eq_zero_iff, bitsAt_eq_zero_iff, Nat.reduceAdd, Nat.reduceLeDiff]

/-! ## The word of `nop` -/

/-- The fields of a `nop` under a guard: all but GP and GN are 0 (TYPE i32 and KIND vec have code 0). -/
def nopFields (gp : BitVec 3) (gn : Bool) : VFields := ⟨0, 0, 0, 0, 0, 0, 0, gp, gn, .i32, false, .vec, 0⟩

theorem tyOfCode_eq_i32_iff (c : BitVec 4) : Ty.ofCode c = some .i32 ↔ c = 0 := by
  revert c; decide

theorem kindOfCode_eq_vec_iff (c : BitVec 2) (lit : DWord) : Kind.ofCode c lit = .vec ↔ c = 0 := by
  rw [BitVec.toNat_eq]
  simp only [Kind.ofCode]
  split <;> simp_all

/-- The guard a V word names stands in its GP and GN fields (R68). -/
theorem vFields_guard {w lit : DWord} {f : VFields} (h : vFields w lit = some f) :
    f.gp = bitsAt w 11 3 ∧ f.gn = w.getLsbD 10 := by
  obtain ⟨ty, -, rfl⟩ := Option.map_eq_some_iff.1 h
  exact ⟨rfl, rfl⟩

/-- The V fields of an opcode-0 word are those of a `nop` exactly when no bit but GP and GN is set. -/
theorem vFields_eq_nopFields_iff {w : DWord} (h : opcodeOf w = 0) (lit : DWord) :
    vFields w lit = some (nopFields (bitsAt w 11 3) (w.getLsbD 10)) ↔ w &&& 0xFFFFFFFFFFFFC3FF = 0 := by
  have hop : bitsAt w 56 8 = 0 := BitVec.eq_of_toNat_eq h
  simp only [and_nopMask_eq_zero_iff, hop, true_and, vFields, nopFields, Option.map_eq_some_iff, VFields.mk.injEq,
    kindOfCode_eq_vec_iff, getLsbD_eq_false_iff, ← tyOfCode_eq_i32_iff]
  constructor
  · rintro ⟨ty, hty, hd, ha, hb, hc, hra, hrb, hrc, rfl, hown, hkind, hmod⟩
    exact ⟨hd, ha, hb, hc, hra, hrb, hrc, hty, hown, hkind, hmod⟩
  · rintro ⟨hd, ha, hb, hc, hra, hrb, hrc, hty, hown, hkind, hmod⟩
    exact ⟨.i32, hty, hd, ha, hb, hc, hra, hrb, hrc, rfl, hown, hkind, hmod⟩

/-- A V word of opcode 0 is legal exactly when its fields are those of a `nop` under its own guard (R100). -/
theorem vLegal_zero_iff (f : VFields) : vLegal 0 f = true ↔ f = nopFields f.gp f.gn := by
  obtain ⟨d, a, b, c, ra, rb, rc, gp, gn, ty, own, kind, mod⟩ := f
  simp [vLegal, nopFields, and_assoc]

/-- Only the V format holds opcode 0, and its instruction is `nop` (R79). -/
theorem decodeSlot_opcode_zero {w : DWord} (h : opcodeOf w = 0) (lit : DWord) :
    decodeSlot w lit = ((vFields w lit).filter (vLegal 0)).elim (.error .illenc) fun f => .ok (.nop f) := by
  simp only [decodeSlot, h]
  cases hv : vFields w lit with
  | none => simp [opAssigned, mOf, kOf, xOf, cOf]
  | some f => cases hf : vLegal 0 f <;> simp [Option.filter, opAssigned, vOf, mOf, kOf, xOf, cOf, hf]

/-- An opcode-0 word is the `nop` of its guard, or ILLENC where any other field is not 0 (R100). -/
theorem decodeSlot_nop {w : DWord} (h : opcodeOf w = 0) (lit : DWord) :
    decodeSlot w lit =
      if w &&& 0xFFFFFFFFFFFFC3FF = 0 then .ok (.nop (nopFields (bitsAt w 11 3) (w.getLsbD 10)))
      else .error .illenc := by
  rw [decodeSlot_opcode_zero h]
  split
  · next hz =>
    have hv := (vFields_eq_nopFields_iff h lit).2 hz
    have hl : vLegal 0 (nopFields (bitsAt w 11 3) (w.getLsbD 10)) = true := (vLegal_zero_iff _).2 rfl
    rw [hv, Option.filter_some_pos hl, Option.elim_some]
  · next hz =>
    have hnone : (vFields w lit).filter (vLegal 0) = none := by
      refine Option.filter_eq_none_iff.2 fun f hv hl => hz ((vFields_eq_nopFields_iff h lit).1 ?_)
      obtain ⟨hgp, hgn⟩ := vFields_guard hv
      rw [hv, (vLegal_zero_iff f).1 hl, hgp, hgn]
    rw [hnone, Option.elim_none]

/-! ## The effect of `nop` -/

/-- The whole of what `nop` does, whatever its guard (R100): the issuing strand stands one slot further, as `stepSlots`
and `mergeShadow` say, and the step counts as progress. -/
theorem exec_nop {s : State} {i : Iss} (h : issuer s = some i) (f : VFields) :
    exec (.nop f) s = .next { s with
      warps := mIns s.warps i.w (onStrand i.k (fun y => mergeShadow (stepSlots 1 y)) i.warp), epoch := s.epoch + 1 } := by
  obtain ⟨-, hw, -⟩ := issuer_spec h
  rw [show exec (.nop f) s = _ from atIssue_some h _, advance, after_andThen, updStrand, after_updWarp hw, after_bump]

/-- Settles O55: the decoder by `decodeSlot_nop`, the effect by `exec_nop`. -/
theorem nopIsAsStated : Obligations.NopIsAsStated := by
  unfold Obligations.NopIsAsStated
  refine ⟨fun w lit h => decodeSlot_nop h lit, decodeSlot_nop (w := 0) (by decide) 0, by decide, fun f s i h => ?_⟩
  refine ⟨_, exec_nop h f, rfl, fun w hw => mLook_mIns_ne _ _ hw, _, mLook_mIns_self _ _ _, onStrand_eq _ _ _, ?_⟩
  exact fun k hk => onStrand_others _ _ _ hk

end Sys2Proof.Machine

/-! SUPPORT. Conversion of zeros, infinities and NaNs into a narrow format (R254), one equation per row of the rule's
table; the statement is then read off format by format. -/

namespace Sys2Proof.Machine

/-- The sign bit of an element of a narrow format, where the source has one. -/
def nSign (fmt : Nat) (neg : Bool) : Nat := if neg then 2 ^ (nBits fmt - 1) else 0

section
variable {fmt r : Nat} {mode : RMode} {noclip : Bool}

/-! ## Zeros: the sign is kept, except by the two formats without a negative zero -/

theorem nConvert_zero (hs : fmt ≠ 14) (h8 : fmt ≠ 8) (h5 : fmt ≠ 5) (neg : Bool) (e : Int) :
    nConvert fmt mode r noclip (.fin neg 0 e) = ⟨nSign fmt neg, 0⟩ := by
  simp [nConvert, nSign, hs, h8, h5]

theorem nConvert_zero_unsigned (h : fmt = 8 ∨ fmt = 5) (neg : Bool) (e : Int) :
    nConvert fmt mode r noclip (.fin neg 0 e) = ⟨0, 0⟩ := by
  have hs : fmt ≠ 14 := by omega
  simp [nConvert, hs, h]

/-! ## Infinities: E5M2 alone holds them; every other format saturates -/

theorem nConvert_inf_e5m2 (neg : Bool) :
    nConvert 1 mode r noclip (.inf neg) = if noclip then ⟨nSign 1 neg + 0x7C, 0⟩ else ⟨nSign 1 neg + 0x7B, pSAT⟩ := rfl

theorem nConvert_inf_int8 (neg : Bool) : nConvert 8 mode r noclip (.inf neg) = ⟨if neg then 128 else 127, pSAT⟩ := rfl

theorem nConvert_inf_lns6 (neg : Bool) : nConvert 5 mode r noclip (.inf neg) = ⟨nSign 5 neg + 31, pSAT⟩ := rfl

/-- A float format without infinities gives its largest finite magnitude. -/
theorem nConvert_inf_float (hs : fmt ≠ 14) (h1 : fmt ≠ 1) (h8 : fmt ≠ 8) (h5 : fmt ≠ 5) (neg : Bool) :
    nConvert fmt mode r noclip (.inf neg) = ⟨nSign fmt neg + nMax fmt, pSAT⟩ := by
  simp [nConvert, nSign, hs]

/-! ## NaNs: kept where the format has one, else zero with IV -/

theorem nConvert_nan_e4m3_e5m2 (h : fmt = 0 ∨ fmt = 1) (q : Bool) :
    nConvert fmt mode r noclip (.nan q) = ⟨0x7F, 0⟩ := by
  obtain rfl | rfl := h <;> rfl

theorem nConvert_nan_lns6 (q : Bool) : nConvert 5 mode r noclip (.nan q) = ⟨0x20, 0⟩ := rfl

theorem nConvert_nan_invalid (hs : fmt ≠ 14) (h0 : fmt ≠ 0) (h1 : fmt ≠ 1) (h5 : fmt ≠ 5) (q : Bool) :
    nConvert fmt mode r noclip (.nan q) = ⟨0, pIV⟩ := by
  simp [nConvert, hs]

end

/-- Settles O56: each row of R254's table by its equation above, in the formats that the row names. -/
theorem nonFiniteConversions : Obligations.NonFiniteConversions := by
  unfold Obligations.NonFiniteConversions
  intro mode r noclip neg e sgn code
  refine ⟨?zeros, ?zeroInt8, ?zeroLns6, ?infE4M3, ?infE5M2, ?infSix, ?infE2M1, ?infInt8, ?infLns6,
    fun q => ⟨?nanE4M3, ?nanE5M2, ?nanLns6, ?nanInvalid⟩⟩
  case zeros => simp [code, sgn, nConvert_zero, nSign, nBits]
  case zeroInt8 => simp [code, nConvert_zero_unsigned]
  case zeroLns6 => simp [code, nConvert_zero_unsigned]
  case infE4M3 => cases neg <;> simp [code, nConvert_inf_float, nSign, nBits, nMax]
  case infE5M2 => cases noclip <;> cases neg <;> simp [code, nConvert_inf_e5m2, nSign, nBits]
  case infSix => simp [code, sgn, nConvert_inf_float, nSign, nBits, nMax]
  case infE2M1 => simp [code, sgn, nConvert_inf_float, nSign, nBits, nMax]
  case infInt8 => simp [code, nConvert_inf_int8]
  case infLns6 => cases neg <;> simp [code, nConvert_inf_lns6, nSign, nBits]
  case nanE4M3 => simp [code, nConvert_nan_e4m3_e5m2]
  case nanE5M2 => simp [code, nConvert_nan_e4m3_e5m2]
  case nanLns6 => simp [code, nConvert_nan_lns6]
  case nanInvalid => simp [code, nConvert_nan_invalid]

end Sys2Proof.Machine

namespace Sys2Proof.Machine

/-! SUPPORT. Decoding what `encode` writes (04_encoding R68 to R80): the fields of each format read back from its word,
the opcodes that each format holds, and the decoder's choice among the formats. -/

/-! ## The codes of the fields -/

theorem tyOfCode_code (t : Ty) : Ty.ofCode t.code = some t := by cases t <;> rfl
theorem spaceOfCode_code (x : Space) : Space.ofCode x.code = some x := by cases x <;> rfl
theorem widthOfCode_code (x : Width) : Width.ofCode x.code = some x := by cases x <;> rfl
theorem orderOfCode_code (x : MemOrder) : MemOrder.ofCode x.code = some x := by cases x <;> rfl
theorem scopeOfCode_code (x : MemScope) : MemScope.ofCode x.code = x := by cases x <;> rfl
theorem kindOfCode_code {k : Kind} {lit : DWord} (h : ∀ x, k = .lit x → lit = x) : Kind.ofCode k.code lit = k := by
  cases k with
  | lit x => rw [h x rfl]; rfl
  | _ => rfl
theorem kindCode_eq_three_iff (k : Kind) : k.code = 3 ↔ ∃ x, k = .lit x := by cases k <;> simp [Kind.code]

/-! ## Slices of a concatenation lie in the part that holds their bits -/

theorem slice_low {m n lo l : Nat} (x : BitVec m) (y : BitVec n) (h : lo + l ≤ n) :
    (x ++ y).extractLsb' lo l = y.extractLsb' lo l := BitVec.extractLsb'_append_eq_of_add_le h
theorem slice_high {m n lo l : Nat} (x : BitVec m) (y : BitVec n) (h : n ≤ lo) :
    (x ++ y).extractLsb' lo l = x.extractLsb' (lo - n) l := BitVec.extractLsb'_append_eq_of_le h
theorem slice_all {n lo : Nat} (x : BitVec n) (h : lo = 0) : x.extractLsb' lo n = x := by
  rw [h, BitVec.extractLsb'_eq_self]
theorem bit_low {m n k : Nat} (x : BitVec m) (y : BitVec n) (h : k < n) : (x ++ y).getLsbD k = y.getLsbD k := by
  rw [BitVec.getLsbD_append, if_pos h]
theorem bit_high {m n k : Nat} (x : BitVec m) (y : BitVec n) (h : n ≤ k) : (x ++ y).getLsbD k = x.getLsbD (k - n) := by
  rw [BitVec.getLsbD_append, if_neg (by omega)]
theorem getLsbD_bit {k : Nat} (b : Bool) (h : k = 0) : (bit b).getLsbD k = b := by subst h; cases b <;> rfl

/-! ## The fields of each format, read back from its word -/

theorem bitsAt_vWord (op : Nat) (f : VFields) (lo n : Nat) : bitsAt (vWord op f) lo n =
    (BitVec.ofNat 8 op ++ f.d ++ f.a ++ f.b ++ f.c ++ f.ra ++ f.rb ++ f.rc ++ f.gp ++ bit f.gn ++ f.ty.code ++ bit f.own
      ++ f.kind.code ++ f.mod).extractLsb' lo n := rfl
theorem getLsbD_vWord (op : Nat) (f : VFields) (k : Nat) : (vWord op f).getLsbD k =
    (BitVec.ofNat 8 op ++ f.d ++ f.a ++ f.b ++ f.c ++ f.ra ++ f.rb ++ f.rc ++ f.gp ++ bit f.gn ++ f.ty.code ++ bit f.own
      ++ f.kind.code ++ f.mod).getLsbD k := rfl
theorem vFields_vWord (op : Nat) {f : VFields} {lit : DWord} (h : ∀ x, f.kind = .lit x → lit = x) :
    vFields (vWord op f) lit = some f := by
  simp (disch := decide) only [vFields, bitsAt_vWord, getLsbD_vWord, slice_low, slice_high, slice_all, bit_low, bit_high,
    getLsbD_bit, tyOfCode_code, kindOfCode_code h, Option.map_some]
theorem kindBits_vWord (op : Nat) (f : VFields) : bitsAt (vWord op f) 3 2 = f.kind.code := by
  simp (disch := decide) only [bitsAt_vWord, slice_low, slice_high, slice_all]
theorem bitsAt_mWord (op : Nat) (f : MFields) (lo n : Nat) : bitsAt (mWord op f) lo n =
    (BitVec.ofNat 8 op ++ f.d ++ f.a ++ f.e ++ f.ofs ++ bit f.ak ++ f.rd ++ f.gp ++ bit f.gn ++ f.space.code ++ f.width.code
      ++ f.order.code ++ f.scope.code).extractLsb' lo n := rfl
theorem getLsbD_mWord (op : Nat) (f : MFields) (k : Nat) : (mWord op f).getLsbD k =
    (BitVec.ofNat 8 op ++ f.d ++ f.a ++ f.e ++ f.ofs ++ bit f.ak ++ f.rd ++ f.gp ++ bit f.gn ++ f.space.code ++ f.width.code
      ++ f.order.code ++ f.scope.code).getLsbD k := rfl
theorem mFields_mWord (op : Nat) (f : MFields) : mFields (mWord op f) = some f := by
  simp (disch := decide) only [mFields, bitsAt_mWord, getLsbD_mWord, slice_low, slice_high, slice_all, bit_low, bit_high,
    getLsbD_bit, spaceOfCode_code, widthOfCode_code, orderOfCode_code, scopeOfCode_code]
theorem bitsAt_kWord (op : Nat) (f : KFields) (lo n : Nat) : bitsAt (kWord op f) lo n =
    (BitVec.ofNat 8 op ++ f.a ++ f.b ++ f.c ++ f.tag ++ f.aux ++ f.gp ++ bit f.gn ++ f.mode ++ f.order.code ++ f.scope.code
      ++ (0 : BitVec 3)).extractLsb' lo n := rfl
theorem getLsbD_kWord (op : Nat) (f : KFields) (k : Nat) : (kWord op f).getLsbD k =
    (BitVec.ofNat 8 op ++ f.a ++ f.b ++ f.c ++ f.tag ++ f.aux ++ f.gp ++ bit f.gn ++ f.mode ++ f.order.code ++ f.scope.code
      ++ (0 : BitVec 3)).getLsbD k := rfl
theorem kFields_kWord (op : Nat) (f : KFields) : kFields (kWord op f) = some f := by
  simp (disch := decide) only [kFields, bitsAt_kWord, getLsbD_kWord, slice_low, slice_high, slice_all, bit_low, bit_high,
    getLsbD_bit, orderOfCode_code, scopeOfCode_code, if_true, Option.map_some]
theorem bitsAt_xWord (op : Nat) (f : XFields) (lo n : Nat) : bitsAt (xWord op f) lo n =
    (BitVec.ofNat 8 op ++ f.a ++ f.fw ++ f.g ++ f.h ++ f.tag ++ f.gp ++ bit f.gn ++ f.xmod).extractLsb' lo n := rfl
theorem getLsbD_xWord (op : Nat) (f : XFields) (k : Nat) : (xWord op f).getLsbD k =
    (BitVec.ofNat 8 op ++ f.a ++ f.fw ++ f.g ++ f.h ++ f.tag ++ f.gp ++ bit f.gn ++ f.xmod).getLsbD k := rfl
theorem xFields_xWord (op : Nat) (f : XFields) : xFields (xWord op f) = f := by
  simp (disch := decide) only [xFields, bitsAt_xWord, getLsbD_xWord, slice_low, slice_high, slice_all, bit_low, bit_high,
    getLsbD_bit]
theorem bitsAt_cWord (op : Nat) (f : CFields) (lo n : Nat) : bitsAt (cWord op f) lo n =
    (BitVec.ofNat 8 op ++ f.disp ++ f.a ++ f.b ++ f.c ++ f.gp ++ bit f.gn ++ (0 : BitVec 1)).extractLsb' lo n := rfl
theorem getLsbD_cWord (op : Nat) (f : CFields) (k : Nat) : (cWord op f).getLsbD k =
    (BitVec.ofNat 8 op ++ f.disp ++ f.a ++ f.b ++ f.c ++ f.gp ++ bit f.gn ++ (0 : BitVec 1)).getLsbD k := rfl
theorem cFields_cWord (op : Nat) (f : CFields) : cFields (cWord op f) = some f := by
  have h0 : (cWord op f).getLsbD 0 = false := by rw [getLsbD_cWord, bit_low _ _ (by decide)]; rfl
  rw [cFields, h0, if_neg Bool.false_ne_true]
  simp (disch := decide) only [bitsAt_cWord, getLsbD_cWord, slice_low, slice_high, slice_all, bit_low, bit_high, getLsbD_bit]
theorem bitsAt_pWord (f : PFields) (lo n : Nat) : bitsAt (pWord f) lo n =
    (f.opa ++ f.da ++ f.aa ++ f.bs ++ f.opb ++ f.db ++ f.ab ++ f.ptype ++ f.gp ++ bit f.gn ++ (0 : BitVec 1)).extractLsb' lo n := rfl
theorem getLsbD_pWord (f : PFields) (k : Nat) : (pWord f).getLsbD k =
    (f.opa ++ f.da ++ f.aa ++ f.bs ++ f.opb ++ f.db ++ f.ab ++ f.ptype ++ f.gp ++ bit f.gn ++ (0 : BitVec 1)).getLsbD k := rfl
theorem pFields_pWord (f : PFields) : pFields (pWord f) = f := by
  simp (disch := decide) only [pFields, bitsAt_pWord, getLsbD_pWord, slice_low, slice_high, slice_all, bit_low, bit_high,
    getLsbD_bit]
theorem pWord_bit_zero (f : PFields) : (pWord f).getLsbD 0 = false := by rw [getLsbD_pWord, bit_low _ _ (by decide)]; rfl

/-! ## The opcode of a word stands in its top byte (R67) -/

theorem opcodeOf_vWord {op : Nat} (h : op < 256) (f : VFields) : opcodeOf (vWord op f) = op := by
  simp (disch := decide) only [opcodeOf, bitsAt_vWord, slice_high, slice_all, BitVec.toNat_ofNat, Nat.mod_eq_of_lt h]
theorem opcodeOf_mWord {op : Nat} (h : op < 256) (f : MFields) : opcodeOf (mWord op f) = op := by
  simp (disch := decide) only [opcodeOf, bitsAt_mWord, slice_high, slice_all, BitVec.toNat_ofNat, Nat.mod_eq_of_lt h]
theorem opcodeOf_kWord {op : Nat} (h : op < 256) (f : KFields) : opcodeOf (kWord op f) = op := by
  simp (disch := decide) only [opcodeOf, bitsAt_kWord, slice_high, slice_all, BitVec.toNat_ofNat, Nat.mod_eq_of_lt h]
theorem opcodeOf_xWord {op : Nat} (h : op < 256) (f : XFields) : opcodeOf (xWord op f) = op := by
  simp (disch := decide) only [opcodeOf, bitsAt_xWord, slice_high, slice_all, BitVec.toNat_ofNat, Nat.mod_eq_of_lt h]
theorem opcodeOf_cWord {op : Nat} (h : op < 256) (f : CFields) : opcodeOf (cWord op f) = op := by
  simp (disch := decide) only [opcodeOf, bitsAt_cWord, slice_high, slice_all, BitVec.toNat_ofNat, Nat.mod_eq_of_lt h]

/-! ## The opcodes of each format (R79) -/

/-- The opcodes of the V and S formats. -/
def vOp (op : Nat) : Bool :=
  op < 0x2F || (0x41 ≤ op && op < 0x6F) || (0x80 ≤ op && op < 0x86) || (0x95 ≤ op && op < 0x98)
/-- The opcodes of the M format. -/
def mOp (op : Nat) : Bool := (0xA0 ≤ op && op < 0xAD) || op == 0xD4 || (0xDA ≤ op && op < 0xDD)
/-- The opcodes of the K format. -/
def kOp (op : Nat) : Bool := (0xB0 ≤ op && op < 0xBA) || (0xE0 ≤ op && op < 0xE3)
/-- The opcodes of the X format. -/
def xOp (op : Nat) : Bool := 0xC0 ≤ op && op < 0xCE
/-- The opcodes of the C format. -/
def cOp (op : Nat) : Bool :=
  (0x90 ≤ op && op < 0x95) || (0x98 ≤ op && op < 0x9C) || (0xD0 ≤ op && op < 0xD4) || (0xD5 ≤ op && op < 0xDA) ||
  (0xDD ≤ op && op < 0xE0) || (0xE8 ≤ op && op < 0xEF)

theorem vOp_of_vOf {op : Nat} {f : VFields} {i : Instr} (h : vOf op f = some i) : vOp op = true := by
  unfold vOf at h
  split at h
  case h_103 => cases h
  all_goals rfl
theorem mOp_of_mOf {op : Nat} {f : MFields} {i : Instr} (h : mOf op f = some i) : mOp op = true := by
  unfold mOf at h
  split at h
  case h_18 => cases h
  all_goals rfl
theorem kOp_of_kOf {op : Nat} {f : KFields} {i : Instr} (h : kOf op f = some i) : kOp op = true := by
  unfold kOf at h
  split at h
  case h_14 => cases h
  all_goals rfl
theorem xOp_of_xOf {op : Nat} {f : XFields} {i : Instr} (h : xOf op f = some i) : xOp op = true := by
  unfold xOf at h
  split at h
  case h_15 => cases h
  all_goals rfl
theorem cOp_of_cOf {op : Nat} {f : CFields} {i : Instr} (h : cOf op f = some i) : cOp op = true := by
  unfold cOf at h
  split at h
  case h_29 => cases h
  all_goals rfl

theorem vOf_eq_none {op : Nat} (h : vOp op = false) (f : VFields) : vOf op f = none :=
  Option.eq_none_iff_forall_ne_some.2 fun _ hi => by rw [vOp_of_vOf hi] at h; cases h
theorem mOf_eq_none {op : Nat} (h : mOp op = false) (f : MFields) : mOf op f = none :=
  Option.eq_none_iff_forall_ne_some.2 fun _ hi => by rw [mOp_of_mOf hi] at h; cases h
theorem kOf_eq_none {op : Nat} (h : kOp op = false) (f : KFields) : kOf op f = none :=
  Option.eq_none_iff_forall_ne_some.2 fun _ hi => by rw [kOp_of_kOf hi] at h; cases h
theorem xOf_eq_none {op : Nat} (h : xOp op = false) (f : XFields) : xOf op f = none :=
  Option.eq_none_iff_forall_ne_some.2 fun _ hi => by rw [xOp_of_xOf hi] at h; cases h

/-- An opcode that a format holds is assigned, and no format that the decoder tries before holds it. -/
theorem opAssigned_of_vOp {op : Nat} (h : vOp op = true) : opAssigned op = true ∧ op < 256 := by
  simp only [vOp, opAssigned, Bool.or_eq_true, Bool.and_eq_true, decide_eq_true_eq] at h ⊢; omega
theorem only_mOp {op : Nat} (h : mOp op = true) : opAssigned op = true ∧ op < 256 ∧ vOp op = false := by
  simp only [vOp, mOp, opAssigned, Bool.or_eq_true, Bool.and_eq_true, decide_eq_true_eq, beq_iff_eq, Bool.or_eq_false_iff,
    Bool.and_eq_false_iff, decide_eq_false_iff_not] at h ⊢
  omega
theorem only_kOp {op : Nat} (h : kOp op = true) :
    opAssigned op = true ∧ op < 256 ∧ vOp op = false ∧ mOp op = false := by
  simp only [vOp, mOp, kOp, opAssigned, Bool.or_eq_true, Bool.and_eq_true, decide_eq_true_eq, beq_eq_false_iff_ne,
    Bool.or_eq_false_iff, Bool.and_eq_false_iff, decide_eq_false_iff_not] at h ⊢
  omega
theorem only_xOp {op : Nat} (h : xOp op = true) :
    opAssigned op = true ∧ op < 256 ∧ vOp op = false ∧ mOp op = false ∧ kOp op = false := by
  simp only [vOp, mOp, kOp, xOp, opAssigned, Bool.or_eq_true, Bool.and_eq_true, decide_eq_true_eq, beq_eq_false_iff_ne,
    Bool.or_eq_false_iff, Bool.and_eq_false_iff, decide_eq_false_iff_not] at h ⊢
  omega
theorem only_cOp {op : Nat} (h : cOp op = true) :
    opAssigned op = true ∧ op < 256 ∧ vOp op = false ∧ mOp op = false ∧ kOp op = false ∧ xOp op = false := by
  simp only [vOp, mOp, kOp, xOp, cOp, opAssigned, Bool.or_eq_true, Bool.and_eq_true, decide_eq_true_eq, beq_eq_false_iff_ne,
    Bool.or_eq_false_iff, Bool.and_eq_false_iff, decide_eq_false_iff_not] at h ⊢
  omega

/-! ## The decoder on a word of each format -/

theorem decodeSlot_vWord {op : Nat} {f : VFields} {i : Instr} {lit : DWord} (hk : ∀ x, f.kind = .lit x → lit = x)
    (hi : vOf op f = some i) (hl : vLegal op f = true) : decodeSlot (vWord op f) lit = .ok i := by
  obtain ⟨ha, hop⟩ := opAssigned_of_vOp (vOp_of_vOf hi)
  simp [decodeSlot, opcodeOf_vWord hop, ha, vFields_vWord op hk, hi, hl]
theorem decodeSlot_mWord {op : Nat} {f : MFields} {i : Instr} (lit : DWord) (hi : mOf op f = some i)
    (hl : mLegal op f = true) : decodeSlot (mWord op f) lit = .ok i := by
  obtain ⟨ha, hop, hv⟩ := only_mOp (mOp_of_mOf hi)
  simp [decodeSlot, opcodeOf_mWord hop, ha, vOf_eq_none hv, mFields_mWord, hi, hl]
theorem decodeSlot_kWord {op : Nat} {f : KFields} {i : Instr} (lit : DWord) (hi : kOf op f = some i)
    (hl : kLegal op f = true) : decodeSlot (kWord op f) lit = .ok i := by
  obtain ⟨ha, hop, hv, hm⟩ := only_kOp (kOp_of_kOf hi)
  simp [decodeSlot, opcodeOf_kWord hop, ha, vOf_eq_none hv, mOf_eq_none hm, kFields_kWord, hi, hl]
theorem decodeSlot_xWord {op : Nat} {f : XFields} {i : Instr} (lit : DWord) (hi : xOf op f = some i)
    (hl : xLegal op f = true) : decodeSlot (xWord op f) lit = .ok i := by
  obtain ⟨ha, hop, hv, hm, hk⟩ := only_xOp (xOp_of_xOf hi)
  simp [decodeSlot, opcodeOf_xWord hop, ha, vOf_eq_none hv, mOf_eq_none hm, kOf_eq_none hk, xFields_xWord, hi, hl]
theorem decodeSlot_cWord {op : Nat} {f : CFields} {i : Instr} (lit : DWord) (hi : cOf op f = some i)
    (hl : cLegal op f = true) : decodeSlot (cWord op f) lit = .ok i := by
  obtain ⟨ha, hop, hv, hm, hk, hx⟩ := only_cOp (cOp_of_cOf hi)
  simp [decodeSlot, opcodeOf_cWord hop, ha, vOf_eq_none hv, mOf_eq_none hm, kOf_eq_none hk, xOf_eq_none hx, cFields_cWord,
    hi, hl]
theorem decodePair_pWord {f : PFields} (h : (Instr.pairWord f).legal = true) :
    decodePair (pWord f) = .ok (.pairWord f) := by
  simp only [Instr.legal, Bool.and_eq_true, decide_eq_true_eq] at h
  obtain ⟨⟨⟨ha, hb⟩, he⟩, hp⟩ := h
  simp [decodePair, pFields_pWord, pWord_bit_zero, he, hp, Nat.not_le.2 ha, Nat.not_le.2 hb, -BitVec.getLsbD_eq_getElem]

/-! ## The literal: a word of V format takes the slot after it exactly where KIND is 3 (R63) -/

theorem isVOp_eq_vOp {op : Nat} (ha : opAssigned op = true) : isVOp op = vOp op := by
  rw [Bool.eq_iff_iff]
  simp only [isVOp, vOp, opAssigned, Bool.or_eq_true, Bool.and_eq_true, decide_eq_true_eq] at ha ⊢
  omega
theorem isTransferOp_of_vOp {op : Nat} (h : vOp op = true) : isTransferOp op = false := by
  simp only [vOp, isTransferOp, Bool.or_eq_true, Bool.and_eq_true, decide_eq_true_eq, List.contains_eq_mem, List.mem_cons,
    List.not_mem_nil, or_false, decide_eq_false_iff_not] at h ⊢
  omega
theorem slotsAfter_eq (w : DWord) : slotsAfter false w =
    if isTransferOp (opcodeOf w) then 0 else if isVOp (opcodeOf w) && decide (bitsAt w 3 2 = 3) then 2 else 1 := rfl
theorem slotsAfter_of_vOp {w : DWord} (h : vOp (opcodeOf w) = true) : slotsAfter false w = 2 ↔ bitsAt w 3 2 = 3 := by
  have hv : isVOp (opcodeOf w) = true := (isVOp_eq_vOp (opAssigned_of_vOp h).1).trans h
  rw [slotsAfter_eq, isTransferOp_of_vOp h, hv]
  by_cases hb : bitsAt w 3 2 = 3 <;> simp [hb]
theorem slotsAfter_of_not_vOp {w : DWord} (ha : opAssigned (opcodeOf w) = true) (h : vOp (opcodeOf w) = false) :
    slotsAfter false w ≠ 2 := by
  have hv : isVOp (opcodeOf w) = false := (isVOp_eq_vOp ha).trans h
  rw [slotsAfter_eq, hv]
  by_cases ht : isTransferOp (opcodeOf w) = true <;> simp [ht]

/-! ## The format of an instruction -/

/-- The instruction belongs to the pair word or to one of the other five formats, and keeps its rules: what `legal` and
`encode` say of it, format by format. -/
inductive Encoded (i : Instr) (w : DWord) (lit : Option DWord) : Prop where
  | pair (f : PFields) (hi : i = .pairWord f) (hw : w = pWord f) (hl : lit = none)
  | v (op : Nat) (f : VFields) (hi : vOf op f = some i) (legal : vLegal op f = true) (hw : w = vWord op f)
      (hl : lit = match f.kind with | .lit x => some x | _ => none)
  | m (op : Nat) (f : MFields) (hi : mOf op f = some i) (legal : mLegal op f = true) (hw : w = mWord op f) (hl : lit = none)
  | k (op : Nat) (f : KFields) (hi : kOf op f = some i) (legal : kLegal op f = true) (hw : w = kWord op f) (hl : lit = none)
  | x (op : Nat) (f : XFields) (hi : xOf op f = some i) (legal : xLegal op f = true) (hw : w = xWord op f) (hl : lit = none)
  | c (op : Nat) (f : CFields) (hi : cOf op f = some i) (legal : cLegal op f = true) (hw : w = cWord op f) (hl : lit = none)

theorem encoded_of_legal {i : Instr} {w : DWord} {lit : Option DWord} (h : i.legal = true) (he : encode i = some (w, lit)) :
    Encoded i w lit := by
  unfold encode at he
  unfold Instr.legal at h
  split at he
  · next f =>
    simp only [Option.some.injEq, Prod.mk.injEq] at he
    exact .pair f rfl he.1.symm he.2.symm
  · next hp =>
    have hne : ∀ f, i ≠ .pairWord f := hp
    split at he
    · next op f hv =>
      simp only [Option.some.injEq, Prod.mk.injEq, Instr.literal, hv] at he
      simp only [hv, Bool.and_eq_true, beq_iff_eq] at h
      exact .v op f h.2 h.1 he.1.symm he.2.symm
    · next op f hv hm =>
      simp only [Option.some.injEq, Prod.mk.injEq] at he
      simp only [hv, hm, Bool.and_eq_true, beq_iff_eq] at h
      exact .m op f h.2 h.1 he.1.symm he.2.symm
    · next op f hv hm hk =>
      simp only [Option.some.injEq, Prod.mk.injEq] at he
      simp only [hv, hm, hk, Bool.and_eq_true, beq_iff_eq] at h
      exact .k op f h.2 h.1 he.1.symm he.2.symm
    · next op f hv hm hk hx =>
      simp only [Option.some.injEq, Prod.mk.injEq] at he
      simp only [hv, hm, hk, hx, Bool.and_eq_true, beq_iff_eq] at h
      exact .x op f h.2 h.1 he.1.symm he.2.symm
    · next op f hv hm hk hx hc =>
      simp only [Option.some.injEq, Prod.mk.injEq] at he
      simp only [hv, hm, hk, hx, hc, Bool.and_eq_true, beq_iff_eq] at h
      exact .c op f h.2 h.1 he.1.symm he.2.symm
    · cases he

/-- Settles O53: `legal` and `encode` put an instruction in one format; the fields of its word read back, and the decoder
reaches its format because no format tried before holds its opcode. -/
theorem decodeEncode : Obligations.DecodeEncode := by
  unfold Obligations.DecodeEncode
  intro i w lit hlegal henc
  refine ⟨?pair, fun hne next hnext => ?slot⟩
  case pair =>
    rintro f rfl
    obtain ⟨rfl, rfl⟩ : pWord f = w ∧ none = lit := by simpa [encode] using henc
    exact decodePair_pWord hlegal
  case slot =>
    cases encoded_of_legal hlegal henc with
    | pair f hi => exact absurd hi (hne f)
    | v op f hi legal hw hl =>
      subst hw
      have hv := vOp_of_vOf hi
      have hop := opcodeOf_vWord (opAssigned_of_vOp hv).2 f
      refine ⟨decodeSlot_vWord (fun x hx => (hnext x (by rw [hl, hx])).symm ▸ rfl) hi legal, ?_⟩
      rw [ne_eq, slotsAfter_of_vOp (by rw [hop]; exact hv), kindBits_vWord, kindCode_eq_three_iff, hl]
      cases f.kind <;> simp
    | m op f hi legal hw hl =>
      subst hw hl
      obtain ⟨ha, hop, hv⟩ := only_mOp (mOp_of_mOf hi)
      exact ⟨decodeSlot_mWord next hi legal, iff_of_true rfl (slotsAfter_of_not_vOp
        (by rwa [opcodeOf_mWord hop]) (by rwa [opcodeOf_mWord hop]))⟩
    | k op f hi legal hw hl =>
      subst hw hl
      obtain ⟨ha, hop, hv, -⟩ := only_kOp (kOp_of_kOf hi)
      exact ⟨decodeSlot_kWord next hi legal, iff_of_true rfl (slotsAfter_of_not_vOp
        (by rwa [opcodeOf_kWord hop]) (by rwa [opcodeOf_kWord hop]))⟩
    | x op f hi legal hw hl =>
      subst hw hl
      obtain ⟨ha, hop, hv, -⟩ := only_xOp (xOp_of_xOf hi)
      exact ⟨decodeSlot_xWord next hi legal, iff_of_true rfl (slotsAfter_of_not_vOp
        (by rwa [opcodeOf_xWord hop]) (by rwa [opcodeOf_xWord hop]))⟩
    | c op f hi legal hw hl =>
      subst hw hl
      obtain ⟨ha, hop, hv, -⟩ := only_cOp (cOp_of_cOf hi)
      exact ⟨decodeSlot_cWord next hi legal, iff_of_true rfl (slotsAfter_of_not_vOp
        (by rwa [opcodeOf_cWord hop]) (by rwa [opcodeOf_cWord hop]))⟩

end Sys2Proof.Machine

namespace Sys2Proof.Machine

/-! SUPPORT. One step of the device: an instruction word is a meaning at its issue, an event goes on by itself, and a
strand's step is a list of effects in a state that the same strand issues. What every step keeps, that none stops, and
what a step runs follow from these. -/

/-! ## Conditions and lists, from core Lean alone -/

theorem ite_of_iff {α : Sort _} {p q : Prop} [Decidable p] [Decidable q] (h : p ↔ q) {a b : α} : (if p then a else b) = if q then a else b :=
  ite_congr (propext h) (fun _ => rfl) fun _ => rfl

theorem foldl_congr_mem {α β : Type _} {f g : α → β → α} (l : List β) (a : α) (h : ∀ a, ∀ b ∈ l, f a b = g a b) : l.foldl f a = l.foldl g a := by
  induction l generalizing a with
  | nil => rfl
  | cons b l ih =>
    rw [List.foldl_cons, List.foldl_cons, h a b List.mem_cons_self]
    exact ih _ fun a c hc => h a c (List.mem_cons_of_mem b hc)

/-- `P` of each entry of a table that is written out, as one conjunction. -/
def AllHold {α : Type _} : List α → (α → Prop) → Prop
  | [], _ => True
  | [a], P => P a
  | a :: b :: l, P => P a ∧ AllHold (b :: l) P

theorem allHold_mem {α : Type _} {l : List α} {P : α → Prop} (h : AllHold l P) {a : α} (ha : a ∈ l) : P a := by
  induction l with
  | nil => cases ha
  | cons b l ih =>
    cases l with
    | nil => exact List.mem_singleton.1 ha ▸ h
    | cons c l => exact (List.mem_cons.1 ha).elim (fun e => e ▸ h.1) (ih h.2)

/-! ## The two shapes of a meaning -/

/-- A meaning in state `s`: at the issue of a strand (`word`), or of the device itself. -/
inductive Meaning (s : State) : Bool → Host.Outcome State Fault Refusal → Prop where
  | word (f : Iss → Act) : Meaning s true (atIssue s f)
  | event (a : Act) : Meaning s false (finish s a)

/-- The meanings of encodable instructions are those at the issue of a strand. -/
theorem meaning_exec (x : Instr) (s : State) : Meaning s (encode x).isSome (exec x s) := by
  cases x <;> constructor

theorem exec_of_issuer (x : Instr) {s : State} {i : Iss} (h : issuer s = some i) :
    ∃ es, exec x s = .next (applyAll es s) := by
  rcases exec_goesOn x s with ⟨hn, -⟩ | hgo
  · rw [h] at hn; cases hn
  · exact hgo

theorem exec_of_event {x : Instr} (h : encode x = none) (s : State) : ∃ es, exec x s = .next (applyAll es s) := by
  have hm := meaning_exec x s
  rw [h] at hm
  generalize exec x s = o at hm ⊢
  cases hm with
  | event a => exact ⟨a s, rfl⟩

theorem exec_of_no_issuer {x : Instr} (hx : (encode x).isSome = true) {s : State} (h : issuer s = none) :
    exec x s = .fault .noStrand := by
  have hm := meaning_exec x s
  rw [hx] at hm
  generalize exec x s = o at hm ⊢
  cases hm with
  | word f => exact atIssue_none h f

/-! ## What fetching and tracing leave -/

theorem issuer_congr {s t : State} (hcur : t.cur = s.cur) (hw : t.warps = s.warps) (hb : t.blocks = s.blocks)
    (hl : t.launches = s.launches) (hc : t.ctxs = s.ctxs) : issuer t = issuer s := by
  simp only [issuer, issAt, hcur, hw, hb, hl, hc]

/-- A strand issues as before where only the cores differ. -/
theorem issuer_of_only_cores {s t : State} (h : Only [.cores] s t) : issuer t = issuer s :=
  issuer_congr h.cur (h.warps (by decide)) (h.blocks (by decide)) (h.launches (by decide)) (h.ctxs (by decide))

theorem eq_of_only_cores {s t : State} (h : Only [.cores] s t) : t = { s with cores := t.cores } := by
  rw [h.eq]; simp

theorem each_traceTurn {P : Effect → Prop} {c : Nat} {start stop : Bool} (h : ∀ x, P (.core c x)) :
    Each P (traceTurn c start stop) := fun s e he => by
  unfold traceTurn at he
  split at he
  · next t _ =>
    dsimp only at he
    generalize (if stop = true then false else start || t.on) = on at he
    split at he
    · cases he
    · rw [List.mem_singleton.1 he]; exact h _
  · cases he

theorem only_traceStart (i : Iss) (s : State) : Only [.cores] s (after (traceStart i) s) :=
  only_of_each (each_look fun u => by
    split
    · exact each_traceTurn fun _ => by simp [Effect.table]
    · exact each_skip) s

theorem only_afterFetch (s : State) (i : Iss) (va k : Nat) (w : DWord) : Only [.cores] s (afterFetch s i va k w) :=
  only_of_each (fun u e he => by
    unfold cacheWord at he
    split at he
    · cases he
    · exact each_updCore (P := fun e => e.table ∈ [Table.cores]) (fun _ => by simp [Effect.table]) u e he) s

/-! ## A strand's step -/

/-- An outcome that goes on by a list of effects. -/
def GoesBy (s : State) (o : Host.Outcome State Fault Refusal) : Prop := ∃ es, o = .next (applyAll es s)

theorem goesBy_finish (s : State) (a : Act) : GoesBy s (finish s a) := ⟨a s, rfl⟩

/-- What goes on by effects after an act goes on by effects. -/
theorem goesBy_of_after {s : State} {a : Act} {o : Host.Outcome State Fault Refusal} (h : GoesBy (after a s) o) :
    GoesBy s o := by
  obtain ⟨es, rfl⟩ := h
  exact ⟨a s ++ es, by rw [applyAll_append]; rfl⟩

theorem goesBy_runDecoded {s : State} {i j : Iss} (h : issuer s = some j) (r : Except DecodeFate Instr) :
    GoesBy s (runDecoded s i r) := by
  cases r with
  | ok x => exact exec_of_issuer x h
  | error e => exact goesBy_finish _ _

theorem goesBy_slotStep {s : State} {i j : Iss} (h : issuer s = some j) (n : Nat) : GoesBy s (slotStep s i n) := by
  unfold slotStep
  dsimp only
  split
  · next w k hw =>
    apply goesBy_of_after (a := cacheWord i (pcOf i.st).toNat k w)
    have hi : issuer (afterFetch s i (pcOf i.st).toNat k w) = some j :=
      (issuer_of_only_cores (only_afterFetch ..)).trans h
    rw [← afterFetch]
    generalize afterFetch s i (pcOf i.st).toNat k w = t at hi ⊢
    split
    · exact goesBy_runDecoded hi _
    · split
      · exact goesBy_finish _ _
      · split
        · exact goesBy_finish _ _
        · split
          · split
            · next l k2 hl =>
              apply goesBy_of_after (a := cacheWord i ((pcOf i.st).toNat + 8) k2 l)
              rw [← afterFetch]
              exact goesBy_runDecoded ((issuer_of_only_cores (only_afterFetch ..)).trans hi) _
            · exact goesBy_finish _ _
          · exact goesBy_runDecoded hi _
  · exact goesBy_finish _ _

theorem goesBy_strandStep {s : State} {i j : Iss} (h : issuer s = some j) : GoesBy s (strandStep s i) := by
  unfold strandStep
  split
  · exact goesBy_finish _ _
  · split
    · exact goesBy_finish _ _
    · exact goesBy_slotStep h _

/-! ## A step -/

/-- An outcome that goes on, counts no tick of its own and keeps the canonical form: what a step does after it has
taken its input. -/
def Advances (s : State) (o : Host.Outcome State Fault Refusal) : Prop :=
  ∃ t, o = .next t ∧ t.tick = s.tick ∧ (s.Canonical → t.Canonical)

theorem advances_of_goesBy {s : State} {o : Host.Outcome State Fault Refusal} (h : GoesBy s o) : Advances s o := by
  obtain ⟨es, rfl⟩ := h
  exact ⟨_, rfl, applyAll_keeps_tick es s, fun hc => applyAll_canonical hc es⟩

theorem advances_finish (s : State) (a : Act) : Advances s (finish s a) := advances_of_goesBy (goesBy_finish s a)

theorem advances_refl (s : State) : Advances s (.next s) := ⟨s, rfl, rfl, id⟩

/-- Which strand issues is no part of the canonical form. -/
theorem canonical_cur {s : State} (h : s.Canonical) (c : Option (Nat × Nat)) : State.Canonical { s with cur := c } :=
  ⟨h.mem, h.dir, h.warps, h.blocks, h.groups, h.launches, h.ctxs, h.cores, h.parts, h.queues, h.pool, h.ops, h.engs, h.faults⟩
/-- Neither are the inputs to come and the count of steps. -/
theorem canonical_agenda {s : State} (h : s.Canonical) (l : List Input) (n : Nat) :
    State.Canonical { s with agenda := l, tick := n } :=
  ⟨h.mem, h.dir, h.warps, h.blocks, h.groups, h.launches, h.ctxs, h.cores, h.parts, h.queues, h.pool, h.ops, h.engs, h.faults⟩

theorem endIssue_tick (b : State) (i : Iss) (t : State) : (endIssue b i t).tick = t.tick := by
  unfold endIssue
  dsimp only
  split
  · rfl
  · rw [applyAll_keeps_tick]
theorem endIssue_canonical (b : State) (i : Iss) {t : State} (h : t.Canonical) : (endIssue b i t).Canonical := by
  unfold endIssue
  dsimp only
  split
  · exact canonical_cur h _
  · exact applyAll_canonical (canonical_cur h _) _

theorem advances_issueStrand (w k : Nat) (s : State) : Advances s (issueStrand w k s) := by
  unfold issueStrand
  split
  · exact advances_refl s
  · dsimp only
    split
    · exact advances_refl s
    · next i hi =>
      have hi' : issuer (after (traceStart i) { s with cur := some (w, k) }) = some i :=
        (issuer_of_only_cores (only_traceStart ..)).trans hi
      obtain ⟨es, he⟩ := goesBy_strandStep (i := i) hi'
      simp only [he]
      refine ⟨_, rfl, ?_, fun hc => ?_⟩
      · rw [endIssue_tick, applyAll_keeps_tick, after_def, applyAll_keeps_tick]
      · exact endIssue_canonical _ _ (applyAll_canonical (after_canonical (canonical_cur hc _) _) _)

theorem advances_takeInput (x : Input) (s : State) : Advances s (takeInput x s) := by
  cases x with
  | issue w k => exact advances_issueStrand w k s
  | event i =>
    simp only [takeInput]
    cases h : encode i with
    | some e => exact advances_refl s
    | none => exact advances_of_goesBy (exec_of_event h s)
  | _ => exact advances_finish s _

/-- A step takes its input in the state with the input gone and one tick counted. -/
theorem step_eq (s : State) : ∃ x rest, step s = takeInput x { s with agenda := rest, tick := s.tick + 1 } := by
  unfold step
  split
  · exact ⟨_, _, rfl⟩
  · next h => exact ⟨chosen s, s.agenda, rfl⟩

/-- Settles O59: a step is a list of effects, and each effect keeps the canonical form. -/
theorem stepKeepsCanonical : Obligations.StepKeepsCanonical := by
  unfold Obligations.StepKeepsCanonical
  intro s t hs ht
  obtain ⟨x, rest, hstep⟩ := step_eq s
  obtain ⟨u, hu, -, hcanon⟩ := advances_takeInput x { s with agenda := rest, tick := s.tick + 1 }
  obtain rfl : u = t := Host.Outcome.next.inj (hu.symm.trans (hstep.symm.trans ht))
  exact hcanon (canonical_agenda hs _ _)

/-- Settles O60: by the two shapes of a meaning, and because what a strand's step decodes runs where the strand issues. -/
theorem stepNeverStops : Obligations.StepNeverStops := by
  unfold Obligations.StepNeverStops
  refine ⟨fun s => ?_, fun x s _ h => ?_, fun x s hx h => exec_of_no_issuer hx h, fun x s h => ?_⟩
  · obtain ⟨x, rest, hstep⟩ := step_eq s
    obtain ⟨t, ht, htick, -⟩ := advances_takeInput x { s with agenda := rest, tick := s.tick + 1 }
    exact ⟨t, hstep.trans ht, htick⟩
  · obtain ⟨i, hi⟩ := Option.isSome_iff_exists.1 h
    obtain ⟨es, he⟩ := exec_of_issuer x hi
    exact ⟨_, he⟩
  · obtain ⟨es, he⟩ := exec_of_event h s
    exact ⟨_, he⟩

/-- Settles O58: after reset every table is empty, and an empty table is in canonical form. -/
theorem resetCanonical : Obligations.ResetCanonical := by
  unfold Obligations.ResetCanonical
  constructor <;> rfl

/-- Settles O54: each word by evaluating the decoder on it. -/
theorem decodeWords : Obligations.DecodeWords := by
  unfold Obligations.DecodeWords
  refine ⟨rfl, rfl, rfl, rfl, rfl, rfl, rfl, rfl, rfl⟩

/-- Settles O3: `exec_nop` gives the whole state after it; the strand stands one slot further. -/
theorem nopCompletes : Obligations.NopCompletes := by
  unfold Obligations.NopCompletes
  intro f s i h
  obtain ⟨-, hw, -⟩ := issuer_spec h
  obtain ⟨x, hframe, hx, hpast⟩ := (RegisterFrame.refl (b := i.warp.block) hw).advance (unmoved_issuer h rfl) 1
  exact ⟨_, x, atIssue_some h _, hframe, hpast, hx⟩

end Sys2Proof.Machine

namespace Sys2Proof.Machine

/-! SUPPORT. What a step of a strand leaves beside what its instruction does: the issue is charged to its core and its
warp, and nothing else (R28, R31, R51). -/

/-- A word that decodes to an instruction holds an assigned opcode (R80). -/
theorem opAssigned_of_decodeSlot {w lit : DWord} {x : Instr} (h : decodeSlot w lit = .ok x) :
    opAssigned (opcodeOf w) = true := by
  cases ha : opAssigned (opcodeOf w) with
  | true => rfl
  | false => simp [decodeSlot, ha] at h

/-- The trace unit's stop at the PC of an issue (R425), as `endIssue` runs it. -/
def traceStop (i : Iss) : Act := look fun s => match (coreOf s i.core).tracer with
  | some x => traceTurn i.core false (pcHit (pcOf i.st) x.args.stop)
  | none => skip

theorem only_traceStop (i : Iss) (s : State) : Only [.cores] s (after (traceStop i) s) :=
  only_of_each (each_look fun u => by
    split
    · exact each_traceTurn fun _ => by simp [Effect.table]
    · exact each_skip) s

theorem endIssue_stalled {b t : State} (i : Iss) (h : t.epoch = b.epoch) : endIssue b i t = { t with cur := none } := by
  simp only [endIssue, h, if_true]
theorem endIssue_charged {b t : State} (i : Iss) (h : t.epoch ≠ b.epoch) :
    endIssue b i t = after (traceStop i) (after (charge i) { t with cur := none }) := by
  rw [← after_andThen]
  exact if_neg h

/-- The warp of an issue as the charge leaves it: nothing is owed to what has issued (R31, R349). -/
def chargedWarp (k n : Nat) (y : Warp) : Warp :=
  { onStrand k (fun u => { u with readyAt := none }) y with lastIssue := n, readySince := none }

/-- A charge writes the core and the warp of the issue. -/
theorem after_charge (i : Iss) (s : State) : ∃ cs n, after (charge i) s =
    { s with cores := cs
             warps := (mLook s.warps i.w).elim s.warps fun y => mIns s.warps i.w (chargedWarp i.k n y) } := by
  simp only [charge, after_andThen, after_look, after_updCore]
  cases hw : mLook s.warps i.w with
  | none => exact ⟨_, 0, after_updWarp_none hw⟩
  | some y => exact ⟨_, _, after_updWarp hw⟩

/-- After the step of a strand no strand issues, and only the cores and the warp of the issue differ from what its
instruction left. -/
theorem endIssue_eq (b : State) (i : Iss) (t : State) : ∃ ws cs, endIssue b i t = { t with cur := none, warps := ws, cores := cs } ∧
    (ws = t.warps ∨ ∃ y n, mLook t.warps i.w = some y ∧ ws = mIns t.warps i.w (chargedWarp i.k n y)) := by
  by_cases h : t.epoch = b.epoch
  · exact ⟨t.warps, t.cores, endIssue_stalled i h, .inl rfl⟩
  · obtain ⟨cs, n, hc⟩ := after_charge i { t with cur := none }
    have ht := eq_of_only_cores (only_traceStop i (after (charge i) { t with cur := none }))
    rw [endIssue_charged i h, ht, hc]
    refine ⟨_, _, rfl, ?_⟩
    cases hw : mLook t.warps i.w with
    | none => exact .inl rfl
    | some y => exact .inr ⟨y, n, rfl, rfl⟩

/-- A charged warp differs in what the scheduler notes of it and of its strands. -/
theorem chargedWarp_spec (k n : Nat) (y : Warp) : let z := chargedWarp k n y
    z = { y with strands := z.strands, lastIssue := z.lastIssue, readySince := z.readySince } ∧
      ∀ l u, mLook y.strands l = some u → ∃ r, mLook z.strands l = some { u with readyAt := r } := by
  refine ⟨?_, fun l u hu => ?_⟩
  · simp only [chargedWarp]
    rw [onStrand_eq]
  · by_cases hl : l = k
    · subst hl; exact ⟨none, onStrand_here hu⟩
    · exact ⟨u.readyAt, (onStrand_others _ _ _ hl).trans hu⟩

/-- Every warp after the step of a strand is the one its instruction left, but for what the scheduler notes. -/
theorem endIssue_warps (b : State) (i : Iss) (t : State) (v : Nat) (y : Warp) (hy : mLook t.warps v = some y) :
    ∃ z, mLook (endIssue b i t).warps v = some z ∧ (v ≠ i.w → z = y) ∧
      z = { y with strands := z.strands, lastIssue := z.lastIssue, readySince := z.readySince } ∧
      ∀ l u, mLook y.strands l = some u → ∃ r, mLook z.strands l = some { u with readyAt := r } := by
  obtain ⟨ws, cs, he, hws⟩ := endIssue_eq b i t
  rw [he]
  rcases hws with rfl | ⟨x, n, hx, rfl⟩
  · exact ⟨y, hy, fun _ => rfl, rfl, fun l u hu => ⟨u.readyAt, hu⟩⟩
  · by_cases hv : v = i.w
    · subst hv
      obtain rfl : x = y := Option.some.inj (hx.symm.trans hy)
      obtain ⟨hz, hs⟩ := chargedWarp_spec i.k n x
      exact ⟨_, mLook_mIns_self _ _ _, fun h => absurd rfl h, hz, hs⟩
    · exact ⟨y, (mLook_mIns_ne _ _ hv).trans hy, fun _ => rfl, rfl, fun l u hu => ⟨u.readyAt, hu⟩⟩

/-- The step of a strand at a slot whose word runs as an instruction in state `v`, which differs in its cores: what the
statement on decoded steps says of it. -/
theorem step_of_slotStep {s v : State} {w k j : Nat} {rest : List Input} {i : Iss} {x : Instr}
    (ha : s.agenda = .issue w k :: rest) :
    let s0 := { s with agenda := rest, tick := s.tick + 1 }
    let c := { s0 with cur := some (w, k) }
    mayIssue s0 w k = true → issuer c = some i → i.st.slot = some j → i.st.reread = false →
    slotStep (after (traceStart i) c) i j = exec x v → Only [.cores] c v →
    v = { c with cores := v.cores } ∧ issuer v = some i ∧ ∃ t, exec x v = .next t ∧ step s = .next (endIssue s0 i t) ∧
      (endIssue s0 i t).cur = none ∧ (endIssue s0 i t).mem = t.mem ∧ (endIssue s0 i t).blocks = t.blocks ∧
      (endIssue s0 i t).ctxs = t.ctxs ∧
      ∀ n y, mLook t.warps n = some y → ∃ z, mLook (endIssue s0 i t).warps n = some z ∧ (n ≠ i.w → z = y) ∧
        z = { y with strands := z.strands, lastIssue := z.lastIssue, readySince := z.readySince } ∧
        ∀ l u, mLook y.strands l = some u → ∃ r, mLook z.strands l = some { u with readyAt := r } := by
  intro s0 c hmay hi hslot hre hrun hv
  have hiv : issuer v = some i := (issuer_of_only_cores hv).trans hi
  obtain ⟨es, he⟩ := exec_of_issuer x hiv
  have hstep : step s = .next (endIssue s0 i (applyAll es v)) := by
    have hs : strandStep (after (traceStart i) c) i = .next (applyAll es v) := by
      simp only [strandStep, hslot, hre, Bool.false_eq_true, if_false, hrun, he]
    simp only [step, ha, takeInput, issueStrand]
    rw [show mayIssue { s with agenda := rest, tick := s.tick + 1 } w k = true from hmay]
    simp only [Bool.not_true, Bool.false_eq_true, if_false]
    rw [show issuer { s with agenda := rest, tick := s.tick + 1, cur := some (w, k) } = some i from hi]
    dsimp only
    rw [show strandStep (after (traceStart i) { s with agenda := rest, tick := s.tick + 1, cur := some (w, k) }) i =
      .next (applyAll es v) from hs]
  obtain ⟨ws, cs, hend, -⟩ := endIssue_eq s0 i (applyAll es v)
  exact ⟨eq_of_only_cores hv, hiv, _, he, hstep, by rw [hend], by rw [hend], by rw [hend], by rw [hend],
    endIssue_warps s0 i _⟩

/-! ## A slot, by what its word is (R61 to R63, R67, R80) -/

section
variable {s : State} {i : Iss} {j k : Nat} {w : DWord} (hf : fetch s i (pcOf i.st).toNat = .word w k)
include hf

theorem slotStep_pair (hp : (hdrPairs i.st.hdr).testBit j = true) :
    slotStep s i j = runDecoded (afterFetch s i (pcOf i.st).toNat k w) i (decodePair w) := by
  simp only [slotStep, hf, hp, if_true]
theorem slotStep_plain (hp : (hdrPairs i.st.hdr).testBit j = false) (ho : opAssigned (opcodeOf w) = true)
    (hm : slotMisplaced i.st.hdr j w = false) (hs : slotsAfter false w ≠ 2) :
    slotStep s i j = runDecoded (afterFetch s i (pcOf i.st).toNat k w) i (decodeSlot w 0) := by
  simp only [slotStep, hf, hp, ho, hm, hs, Bool.not_true, Bool.false_eq_true, if_false]
theorem slotStep_literal {l : DWord} {k2 : Nat} (hp : (hdrPairs i.st.hdr).testBit j = false)
    (ho : opAssigned (opcodeOf w) = true) (hm : slotMisplaced i.st.hdr j w = false) (hs : slotsAfter false w = 2)
    (hl : fetch (afterFetch s i (pcOf i.st).toNat k w) i ((pcOf i.st).toNat + 8) = .word l k2) :
    slotStep s i j = runDecoded (afterFetch (afterFetch s i (pcOf i.st).toNat k w) i ((pcOf i.st).toNat + 8) k2 l) i
      (decodeSlot w l) := by
  simp only [slotStep, hf, hp, ho, hm, hs, hl, Bool.not_true, Bool.false_eq_true, if_false, if_true]
end

theorem runDecoded_ok {s : State} {i : Iss} {r : Except DecodeFate Instr} {x : Instr} (h : r = .ok x) :
    runDecoded s i r = exec x s := by rw [h]; rfl

/-- Settles O57: the fetches and the trace unit write the cores alone, so the strand still issues where its word runs. -/
theorem stepRunsDecoded : Obligations.StepRunsDecoded := by
  unfold Obligations.StepRunsDecoded
  intro s w k j key rest i x word ha s0 c hmay hi hslot hre b pc hfetch u Runs
  have hu : Only [.cores] c u := (chain_only _).trans (only_traceStart i c) (only_afterFetch ..)
  refine ⟨fun hp hx => ?pair, fun hp hm hs hx => ?plain, fun lit key2 hp hm hs hf2 hx => ?literal⟩
  case pair => exact step_of_slotStep ha hmay hi hslot hre ((slotStep_pair hfetch hp).trans (runDecoded_ok hx)) hu
  case plain =>
    exact step_of_slotStep ha hmay hi hslot hre
      ((slotStep_plain hfetch hp (opAssigned_of_decodeSlot hx) hm hs).trans (runDecoded_ok hx)) hu
  case literal =>
    exact step_of_slotStep ha hmay hi hslot hre
      ((slotStep_literal hfetch hp (opAssigned_of_decodeSlot hx) hm hs hf2).trans (runDecoded_ok hx))
      ((chain_only _).trans hu (only_afterFetch ..))

end Sys2Proof.Machine

namespace Sys2Proof.Machine

/-! SUPPORT. The ALU instructions (05_ref_integer_control R96, R97, R70): a V form writes its guarded lanes, an S form its
one result; each is the same shared operation whatever its element function. -/

/-- A meaning at its issue has the effect of the act it is there. -/
theorem atIssue_act {s : State} {i : Iss} (h : issuer s = some i) {f : Iss → Act} {a : Act} (hf : f i = a) :
    atIssue s f = .next (after a s) := by rw [atIssue_some h, hf]

/-! ## Results of the lanes of a mask -/

/-- The results `r` of the lanes of a mask, with the stochastic states `st` after them. -/
def maskResults (g : Mask) (r : Nat → Res) (st : Nat → Word) : List (Nat × Res × Word) :=
  (lanesIn g).map fun l => (l, r l, st l)

theorem maskResults_lt {g : Mask} {r : Nat → Res} {st : Nat → Word} : ∀ o ∈ maskResults g r st, o.1 < 32 := fun o ho => by
  obtain ⟨l, hl, rfl⟩ := List.mem_map.1 ho
  exact (mem_lanesIn.1 hl).1
theorem maskResults_nodup (g : Mask) (r : Nat → Res) (st : Nat → Word) : ((maskResults g r st).map (·.1)).Nodup := by
  simpa [maskResults, Function.comp_def] using lanesIn_nodup g

theorem vVal_putMask (x : Warp) (w : Bool) (d : Nat) {g : Mask} (r : Nat → Res) (st : Nat → Word) {l : Nat}
    (h : hasLane g l = true) :
    vVal (putResults x w d (maskResults g r st)) w d l = (r l).val % 2 ^ (32 * span w) :=
  vVal_putResults x w d _ maskResults_lt (maskResults_nodup g r st) (o := (l, r l, st l))
    (List.mem_map.2 ⟨l, mem_lanesIn.2 ⟨hasLane_lt h, h⟩, rfl⟩)
theorem vR_putMask_ne (x : Warp) (w : Bool) (d : Nat) (g : Mask) (r : Nat → Res) (st : Nat → Word) {q l : Nat} (hl : l < 32)
    (h : hasLane g l = false ∨ q ∉ regs d w) : vR (putResults x w d (maskResults g r st)) q l = vR x q l :=
  vR_putResults_ne x w d _ hl maskResults_lt <| h.symm.imp id fun hg o ho e => by
    obtain ⟨j, hj, rfl⟩ := List.mem_map.1 ho
    rw [← e, (mem_lanesIn.1 hj).2] at hg; cases hg
theorem find_maskResults (g : Mask) (r : Nat → Res) (st : Nat → Word) (l : Nat) :
    (maskResults g r st).find? (fun o => decide (o.1 = l)) = if hasLane g l then some (l, r l, st l) else none := by
  split
  · next h =>
    rw [maskResults, List.find?_map, Option.map_eq_some_iff]
    refine ⟨l, ?_, rfl⟩
    rw [List.find?_eq_some_iff_append]
    obtain ⟨as, bs, he⟩ := List.append_of_mem (mem_lanesIn.2 ⟨hasLane_lt h, h⟩)
    refine ⟨by simp, as, bs, he, fun a ha => ?_⟩
    have hn := he ▸ lanesIn_nodup g
    rw [List.nodup_append] at hn
    have := hn.2.2 a ha l (by simp)
    simpa using this
  · next h =>
    rw [List.find?_eq_none]
    intro o ho
    obtain ⟨j, hj, rfl⟩ := List.mem_map.1 ho
    have := (mem_lanesIn.1 hj).2
    simp only [decide_eq_true_eq]
    rintro rfl
    exact h this
theorem lanesRand_putMask (x : Warp) (w : Bool) (d : Nat) (g : Mask) (r : Nat → Res) (st : Nat → Word) (l : Nat) :
    mGet 0 (putResults x w d (maskResults g r st)).lanesRand l = if hasLane g l then st l else mGet 0 x.lanesRand l := by
  rw [lanesRand_putResults x w d _ (maskResults_nodup g r st), find_maskResults]
  by_cases h : hasLane g l = true <;> simp [h]

/-! ## How an instruction that acts on registers ends -/

/-- A write by `F` to a warp that stands as `y`, its strand at its instruction. -/
theorem RegisterFrame.vectorWrite {s t : State} {i : Iss} {y : Warp} (h : RegisterFrame s t i.w i.warp.block y)
    (F : Warp → Warp) (hm : Unmoved i (F y)) (hb : (F y).block = i.warp.block) (u : Uses) (g : Mask) (p : Byte) (n : Nat)
    (note : Nat → Region → Region) :
    ∃ x, RegisterFrame s (after (andThen (Machine.updWarp i.w F) <| andThen (Machine.updRegions i.w g note) <|
          andThen (wrote i u g) <| andThen (Machine.raisePennants i.w p) (Machine.advance i n)) t) i.w i.warp.block x ∧
      Past i n x ∧
      x = { F y with regions := x.regions, strands := x.strands, nstat := (F y).nstat ||| p.zeroExtend 32 } ∧
      ∀ l, hasLane g l = false → mLook x.regions l = mLook (F y).regions l := by
  simp only [after_andThen]
  obtain ⟨z, hz, ez, hreg⟩ := (h.updWarp F).updRegions g note
  obtain ⟨x, hx, ex, hpast⟩ := hz.ends (by rw [ez]; exact ⟨hm.here, hm.others⟩) (by rw [ez]; exact hb) u g p n
  simp only [after_andThen] at hx
  refine ⟨x, hx, hpast, by rw [ex, ez], fun l hl => ?_⟩
  rw [ex]
  exact (hreg l).trans (by rw [hl, if_neg Bool.false_ne_true])

section
variable {s : State} {i : Iss} (hi : issuer s = some i) (F : Warp → Warp) (hs : (F i.warp).strands = i.warp.strands)
  (hb : (F i.warp).block = i.warp.block) (u : Uses) (g : Mask) (p : Byte) (n : Nat)
include hi hs hb

/-- The warp's registers change by `F`, the regions of the guarded lanes by `note`, pennants rise, and the strand goes on:
the warp after, and nothing else (R60, R148). -/
theorem vectorWrite_ends (note : Nat → Region → Region) :
    ∃ x, RegisterFrame s (after (andThen (updWarp i.w F) <| andThen (updRegions i.w g note) <| andThen (wrote i u g) <|
          andThen (raisePennants i.w p) (advance i n)) s) i.w i.warp.block x ∧ Past i n x ∧
      x = { F i.warp with regions := x.regions, strands := x.strands, nstat := (F i.warp).nstat ||| p.zeroExtend 32 } ∧
      ∀ l, hasLane g l = false → mLook x.regions l = mLook (F i.warp).regions l := by
  obtain ⟨-, hw, -⟩ := issuer_spec hi
  exact RegisterFrame.vectorWrite (RegisterFrame.refl hw) F (unmoved_issuer hi hs) hb u g p n note

/-- The same with neither regions nor pennants. -/
theorem predWrite_ends :
    ∃ x, RegisterFrame s (after (andThen (updWarp i.w F) <| andThen (wrote i u g) (advance i n)) s) i.w i.warp.block x ∧
      Past i n x ∧ x = { F i.warp with strands := x.strands } := by
  obtain ⟨-, hw, -⟩ := issuer_spec hi
  simp only [after_andThen]
  obtain ⟨x, hx, ex, hpast⟩ := ((RegisterFrame.refl (b := i.warp.block) hw).updWarp F).endsQuiet
    (unmoved_issuer hi hs) hb u g n
  simp only [after_andThen] at hx
  exact ⟨x, hx, hpast, ex⟩

/-- The same for scalar registers, whose error marks clear. -/
theorem scalarWrite_ends (rs : List Nat) :
    ∃ x, RegisterFrame s (after (andThen (updWarp i.w F) <| andThen (clearBadS i.w rs) <|
          andThen (raisePennants i.w p) (advance i n)) s) i.w i.warp.block x ∧ Past i n x ∧
      x = { F i.warp with strands := x.strands, nstat := (F i.warp).nstat ||| p.zeroExtend 32 } := by
  obtain ⟨-, hw, -⟩ := issuer_spec hi
  simp only [after_andThen]
  have hraise := (((RegisterFrame.refl (b := i.warp.block) hw).updWarp F).clearBadS i.w rs).raisePennants hb p
  obtain ⟨x, hx, ex, hpast⟩ := hraise.advance (unmoved_issuer hi hs) n
  exact ⟨x, hx, hpast, ex⟩
end

/-- An instruction that only goes on. -/
theorem advance_ends {s : State} {i : Iss} (hi : issuer s = some i) (n : Nat) :
    ∃ x, RegisterFrame s (after (advance i n) s) i.w i.warp.block x ∧ Past i n x ∧
      x = { i.warp with strands := x.strands } := by
  obtain ⟨-, hw, -⟩ := issuer_spec hi
  obtain ⟨x, hx, ex, hpast⟩ := (RegisterFrame.refl (b := i.warp.block) hw).advance (unmoved_issuer hi rfl) n
  exact ⟨x, hx, hpast, ex⟩

@[simp] theorem after_raisePennants_zero (w : Nat) (s : State) : after (raisePennants w 0) s = s := rfl

/-- No pennant is raised: the raise may be left out. -/
theorem after_noPennant (i : Iss) (F : Warp → Warp) (note : Nat → Region → Region) (u : Uses) (g : Mask) (n : Nat) (s : State) :
    after (andThen (updWarp i.w F) <| andThen (updRegions i.w g note) <| andThen (wrote i u g) (advance i n)) s =
      after (andThen (updWarp i.w F) <| andThen (updRegions i.w g note) <| andThen (wrote i u g) <|
        andThen (raisePennants i.w 0) (advance i n)) s := by
  simp only [after_andThen, after_raisePennants_zero]

/-! ## V forms -/

/-- What a write of results in the lanes of a mask leaves (R96). -/
theorem putMask_ends {s : State} {i : Iss} (hi : issuer s = some i) (w : Bool) (d : Nat) (g : Mask) (r : Nat → Res)
    (st : Nat → Word) (note : Nat → Region → Region) (u : Uses) (p : Byte) (n : Nat) :
    ∃ x, RegisterFrame s (after (andThen (updWarp i.w fun x => putResults x w d (maskResults g r st)) <|
          andThen (updRegions i.w g note) <| andThen (wrote i u g) <| andThen (raisePennants i.w p) (advance i n)) s)
        i.w i.warp.block x ∧ Past i n x ∧
      x = { i.warp with v := x.v, lanesRand := x.lanesRand, regions := x.regions, strands := x.strands,
                        nstat := i.warp.nstat ||| p.zeroExtend 32 } ∧
      (∀ l, hasLane g l = true → vVal x w d l = (r l).val % 2 ^ (32 * span w) ∧ mGet 0 x.lanesRand l = st l) ∧
      VectorFrame i g (regs d w) x := by
  have hput := putResults_eq i.warp w d (maskResults g r st)
  obtain ⟨x, hx, hpast, ex, hreg⟩ := vectorWrite_ends hi (fun x => putResults x w d (maskResults g r st))
    (by rw [hput]) (by rw [hput]) u g p n note
  have hv : x.v = (putResults i.warp w d (maskResults g r st)).v := by rw [ex]
  have hr : x.lanesRand = (putResults i.warp w d (maskResults g r st)).lanesRand := by rw [ex]
  refine ⟨x, hx, hpast, by rw [ex, hput], fun l hl => ⟨?_, ?_⟩, ⟨fun q l hl hq => ?_, fun l hl => ?_, fun l hl => ?_⟩⟩
  · rw [vVal_congr hv, vVal_putMask _ _ _ _ _ hl]
  · rw [hr, lanesRand_putMask, if_pos hl]
  · rw [vR_congr hv, vR_putMask_ne _ _ _ _ _ _ hl hq]
  · rw [hr, lanesRand_putMask, hl, if_neg Bool.false_ne_true]
  · rw [hreg l hl, hput]

/-- Each V form is the shared vector operation with its own element function. -/
theorem exec_vectorForms (f : VFields) (s : State) : AllHold (vectorForms f s) fun x =>
    exec x.1 s = atIssue s fun i =>
      vecOp s i x.2.1 x.2.2.1 (kindSlots x.2.1.kind) (x.2.2.2.1 i.warp.nstat) (x.2.2.2.2 i) := by
  repeat' apply And.intro
  all_goals rfl

theorem unlessIv_of_none {i : Iss} {iv : Mask} (h : nsTrapIv i.warp.nstat = true → iv = 0) (a : Act) :
    unlessIv i iv a = a := by
  unfold unlessIv
  split
  · next hc =>
    simp only [Bool.and_eq_true, decide_eq_true_eq] at hc
    exact absurd (h hc.1) hc.2
  · rfl

/-- Settles O1: each form by `exec_vectorForms`, the effect by `putMask_ends`. -/
theorem vectorAluCompletes : Obligations.VectorAluCompletes := by
  unfold Obligations.VectorAluCompletes
  intro f s o e sh fn keep ho i g outs hmay hsym htag hiv
  have hexec := allHold_mem (exec_vectorForms f s) ho
  have hact : vecOp s i e sh (kindSlots e.kind) (fn i.warp.nstat) (keep i) = _ := gated_of_mayRun hmay _
  rw [if_neg (not_not_intro hsym), if_neg (not_not_intro htag), unlessIv_of_none hiv] at hact
  obtain ⟨x, hframe, hpast, hx, hval, hvec⟩ := putMask_ends hmay.here sh.wd e.d.toNat g
    (fun l => (fn i.warp.nstat (srcA i e sh l) (srcB s i e sh.wb l) (srcC i e sh l) (mGet 0 i.warp.lanesRand l)).1)
    (fun l => (fn i.warp.nstat (srcA i e sh l) (srcB s i e sh.wb l) (srcC i e sh l) (mGet 0 i.warp.lanesRand l)).2)
    (vecNote i e sh (keep i)) (vUses i e sh) (allPen outs) (kindSlots e.kind)
  exact ⟨_, x, hexec.trans (atIssue_act hmay.here hact), hframe, hpast, hx, fun l _ hl => hval l hl, hvec⟩

/-! ## S forms -/

/-- Each S form is the shared scalar operation with its own element function. -/
theorem exec_scalarForms (f : VFields) (s : State) : AllHold (scalarForms f) fun x =>
    exec x.1 s = atIssue s fun i => scalOp s i x.2.1 x.2.2.1 (kindSlots x.2.1.kind) (x.2.2.2 i.warp.nstat) := by
  repeat' apply And.intro
  all_goals rfl

/-- What an S-form instruction that nothing holds back leaves: with a true guard the write `put` of its result, the
warp's stochastic state and its pennants; with a false one nothing (R70, R148). -/
theorem scalWith_ends {s : State} {i : Iss} {f : VFields} {sh : AluShape} {dst ok : Bool} {fn : ElemFn}
    {put : Warp → Nat → Warp} (n : Nat)
    (hmay : MayRun s i (chkAll true (sOpnd i f sh && ok)) ((sUses f sh dst).on (guardScalar i f.gp f.gn)) 0)
    (hiv : guardScalar i f.gp f.gn = true → nsTrapIv i.warp.nstat = true → (scalResult i f sh fn).1.pen &&& pIV = 0)
    (hs : ∀ v, (put i.warp v).strands = i.warp.strands) (hb : ∀ v, (put i.warp v).block = i.warp.block) :
    ∃ x, RegisterFrame s (after (scalWith s i f sh dst ok n fn put) s) i.w i.warp.block x ∧ Past i n x ∧
      x = if guardScalar i f.gp f.gn then
            { put i.warp (scalResult i f sh fn).1.val with
                warpRand := (scalResult i f sh fn).2, strands := x.strands
                nstat := (put i.warp (scalResult i f sh fn).1.val).nstat ||| (scalResult i f sh fn).1.pen.zeroExtend 32 }
          else { i.warp with strands := x.strands } := by
  have hact : scalWith s i f sh dst ok n fn put = _ := gated_of_mayRun hmay _
  rw [hact]
  cases hg : guardScalar i f.gp f.gn with
  | false => exact advance_ends hmay.here n
  | true =>
    rw [if_pos rfl, unlessIv_of_none fun ht => if_neg (not_not_intro (hiv hg ht))]
    exact scalarWrite_ends hmay.here (fun y => { put y (scalResult i f sh fn).1.val with warpRand := (scalResult i f sh fn).2 })
      (hs _) (hb _) _ _ _

/-- Settles O2: each form by `exec_scalarForms`, the effect by `scalWith_ends`. -/
theorem scalarAluCompletes : Obligations.ScalarAluCompletes := by
  unfold Obligations.ScalarAluCompletes
  intro f s o e sh fn ho i r on hmay hiv
  have hexec := allHold_mem (exec_scalarForms f s) ho
  have hput := fun v => setSVal_eq i.warp sh.wd e.d.toNat v
  obtain ⟨x, hframe, hpast, hx⟩ := scalWith_ends (put := fun x v => setSVal x sh.wd e.d.toNat v) (kindSlots e.kind) hmay hiv
    (fun v => by rw [hput]) (fun v => by rw [hput])
  refine ⟨_, x, hexec.trans (atIssue_some hmay.here _), hframe, hpast, ?_⟩
  cases hg : guardScalar i e.gp e.gn with
  | false =>
    rw [hg, if_neg Bool.false_ne_true] at hx
    simp only [on, hg, Bool.false_eq_true, if_false]
    exact ⟨by rw [hx], fun h => absurd h (by simp), fun q _ => by rw [hx]; rfl⟩
  | true =>
    rw [hg, if_pos rfl] at hx
    have hsr : x.s = (setSVal i.warp sh.wd e.d.toNat r.1.val).s := by rw [hx]
    simp only [on, hg, if_true]
    refine ⟨by rw [hx, hput], fun _ => ?_, fun q hq => ?_⟩
    · rw [← sVal_setSVal_self i.warp]; simp only [sVal, sR, hsr]; rfl
    · rw [← sR_setSVal_ne i.warp sh.wd r.1.val (hq.resolve_left (by simp))]; simp only [sR, hsr]

end Sys2Proof.Machine

namespace Sys2Proof.Machine

/-! SUPPORT. Comparison, selection and predicates (05_ref_integer_control R103, R104, R113, R114) and the pair word
(04_encoding R72): registers and predicates after the writes each makes. -/

/-! ## Registers of warps that agree on a bank -/

theorem sR_congr {x y : Warp} (h : x.s = y.s) (r : Nat) : sR x r = sR y r := by simp only [sR, h]
theorem sVal_congr {x y : Warp} (h : x.s = y.s) (w : Bool) (r : Nat) : sVal x w r = sVal y w r := by simp only [sVal, sR, h]
theorem pR_congr {x y : Warp} (h : x.p = y.p) (m l : Nat) : pR x m l = pR y m l := by simp only [pR, h]
theorem qR_congr {x y : Warp} (h : x.q = y.q) (m : Nat) : qR x m = qR y m := by simp only [qR, h]

theorem nstat_or_zero (a : Word) : a ||| (0 : Byte).zeroExtend 32 = a := by simp

/-! ## Predicates -/

/-- One predicate written in the lanes of a mask. -/
theorem predWrite_foldl {i : Iss} {g : Mask} {n : Nat} {b : Nat → Bool} {x : Warp}
    (h : x.p = ((lanesIn g).foldl (fun y l => setP y n l (b l)) i.warp).p) : PredWrite i g n b x := by
  intro m l hl
  rw [pR_congr h, pR_foldl_setP _ (fun j hj => (mem_lanesIn.1 hj).1) n b i.warp m hl]
  simp only [mem_lanesIn, hl, true_and]

/-- Predicates p0 to pk of one lane written. -/
theorem foldl_setP_range_eq (k l : Nat) (b : Nat → Bool) (x : Warp) :
    (List.range k).foldl (fun z j => setP z j l (b j)) x =
      { x with p := ((List.range k).foldl (fun z j => setP z j l (b j)) x).p } := by
  induction k with
  | zero => rfl
  | succ k ih => rw [List.range_succ, List.foldl_append, List.foldl_cons, List.foldl_nil, setP_eq, ih]
theorem pR_foldl_setP_range {k : Nat} (hk : k ≤ 7) {l : Nat} (hl : l < 32) (b : Nat → Bool) (x : Warp) (m : Nat) {j : Nat}
    (hj : j < 32) :
    pR ((List.range k).foldl (fun z j => setP z j l (b j)) x) m j = if m < k ∧ j = l then b m else pR x m j := by
  induction k with
  | zero => simp
  | succ k ih =>
    rw [List.range_succ, List.foldl_append, List.foldl_cons, List.foldl_nil, pR_setP _ _ _ _ hl hj, ih (by omega)]
    by_cases hm : m = k
    · subst hm
      by_cases e : j = l
      · simp [e]; omega
      · simp [e]
    · simp [hm, show m < k + 1 ↔ m < k by omega]

/-- Predicates p0 to p6 written in each of a list of lanes. -/
theorem foldl_setPs_eq (ls : List Nat) (b : Nat → Nat → Bool) (x : Warp) :
    ls.foldl (fun y l => (List.range 7).foldl (fun z j => setP z j l (b l j)) y) x =
      { x with p := (ls.foldl (fun y l => (List.range 7).foldl (fun z j => setP z j l (b l j)) y) x).p } := by
  induction ls generalizing x with
  | nil => rfl
  | cons l ls ih => rw [List.foldl_cons, ih, foldl_setP_range_eq]
theorem pR_foldl_setPs (ls : List Nat) (hls : ∀ l ∈ ls, l < 32) (b : Nat → Nat → Bool) (x : Warp) {m j : Nat} (hm : m < 7)
    (hj : j < 32) :
    pR (ls.foldl (fun y l => (List.range 7).foldl (fun z j => setP z j l (b l j)) y) x) m j =
      if j ∈ ls then b j m else pR x m j := by
  induction ls generalizing x with
  | nil => simp
  | cons l ls ih =>
    rw [List.foldl_cons, ih fun k hk => hls k (by simp [hk]), pR_foldl_setP_range (by omega) (hls l (by simp)) _ _ _ hj]
    by_cases h1 : j ∈ ls
    · simp [h1]
    · by_cases h2 : j = l
      · subst h2; simp [h1, hm]
      · simp [h1, h2]

/-- The scalar predicates q0 to qk written. -/
theorem foldl_setQ_eq (k : Nat) (b : Nat → Bool) (x : Warp) :
    (List.range k).foldl (fun z j => setQ z j (b j)) x = { x with q := ((List.range k).foldl (fun z j => setQ z j (b j)) x).q } := by
  induction k with
  | zero => rfl
  | succ k ih => rw [List.range_succ, List.foldl_append, List.foldl_cons, List.foldl_nil, setQ_eq, ih]
theorem qR_foldl_setQ {k : Nat} (hk : k ≤ 7) (b : Nat → Bool) (x : Warp) {m : Nat} (hm : m < 8) :
    qR ((List.range k).foldl (fun z j => setQ z j (b j)) x) m = if m < k then b m else qR x m := by
  induction k with
  | zero => simp
  | succ k ih =>
    rw [List.range_succ, List.foldl_append, List.foldl_cons, List.foldl_nil, qR_setQ _ _ _ (by omega) hm, ih (by omega)]
    by_cases h : m = k
    · subst h; simp; omega
    · simp [h, show m < k + 1 ↔ m < k by omega]

/-! ## One vector register written in the lanes of a mask -/

theorem vR_putLanes_map (x : Warp) (d : Nat) {g : Mask} (f : Nat → Nat) {l : Nat} (h : hasLane g l = true) :
    vR (putLanes x false d ((lanesIn g).map fun l => (l, f l))) d l = BitVec.ofNat 32 (f l) :=
  BitVec.eq_of_toNat_eq (vVal_putLanes_map x false d g f h)

/-- The eight predicates of a lane fit in a byte. -/
theorem predBits_lt (p : Nat → Bool) : predBits p < 256 := by
  have h : ∀ k, (List.range k).foldl (fun n j => if p j then n + 2 ^ j else n) 0 < 2 ^ k := by
    intro k
    induction k with
    | zero => simp
    | succ k ih =>
      rw [List.range_succ, List.foldl_append, List.foldl_cons, List.foldl_nil, Nat.pow_succ]
      split <;> omega
  exact h 8

/-- A scalar register or pair after a write of it, and every other. -/
theorem scalar_of_write {x y : Warp} {w : Bool} {r n : Nat} (h : x.s = (setSVal y w r n).s) :
    sVal x w r = n % 2 ^ (32 * span w) ∧ ∀ q, q ∉ regs r w → sR x q = sR y q :=
  ⟨(sVal_congr h w r).trans (sVal_setSVal_self y w r n), fun q hq => (sR_congr h q).trans (sR_setSVal_ne y w n hq)⟩

/-- One scalar predicate after a write of it, and every other. -/
theorem qWrite_of_write {i : Iss} {n : Nat} (hn : n < 8) {b : Bool} {x : Warp} (h : x.q = (setQ i.warp n b).q) :
    QWrite i n b x := fun m hm => (qR_congr h m).trans (qR_setQ i.warp n b hn hm)

theorem pOk_lt {n : Nat} (h : pOk n = true) : n < 8 := by simpa [pOk] using h

/-! ## `cmp` and `sel` -/

/-- The outcome of `cmp` as the value its element function gives. -/
theorem cmpFn_val (f : VFields) (ns : Word) (a b c : Nat) (st : Word) :
    decide ((cmpFn f ns a b c st).1.val = 1) = (cmpOut f.ty f.mod.toNat ns a b).1 := by
  simp only [cmpFn, pureFn]
  by_cases h : (cmpOut f.ty f.mod.toNat ns a b).1 = true <;> simp [h]

theorem cmpFn_pen {f : VFields} {ns : Word} {a b c : Nat} {st : Word} (h : (cmpOut f.ty f.mod.toNat ns a b).2 = false) :
    (cmpFn f ns a b c st).1.pen &&& pIV = 0 := by
  simp [cmpFn, pureFn, h, pIf]

/-- The predicate writes of `cmp` from the results of its lanes. -/
def putOutcomes (n : Nat) (outs : List (Nat × Res × Word)) (x : Warp) : Warp :=
  outs.foldl (fun y o => setP y n o.1 (decide (o.2.1.val = 1))) x

/-- They are those of its outcomes. -/
theorem putOutcomes_eq (s : State) (i : Iss) (f : VFields) (g : Mask) (x : Warp) :
    putOutcomes f.d.toNat (laneResults s i f (plainShape f.ty) (cmpFn f i.warp.nstat) g) x =
      (lanesIn g).foldl (fun y l => setP y f.d.toNat l (cmpOut f.ty f.mod.toNat i.warp.nstat
        (srcA i f (plainShape f.ty) l) (srcB s i f (plainShape f.ty).wb l)).1) x := by
  simp only [putOutcomes, laneResults, List.foldl_map, cmpFn_val]

/-- Settles O4: the vector form by `vectorWrite_ends`, the scalar form by `scalWith_ends`. -/
theorem compareCompletes : Obligations.CompareCompletes := by
  unfold Obligations.CompareCompletes
  refine ⟨?vector, ?scalar⟩
  case vector =>
    intro f s i sh g outs hmay hsym hfull hiv
    have hact := gated_of_mayRun hmay
    have hF : putOutcomes f.d.toNat outs i.warp = _ := putOutcomes_eq s i f g i.warp
    have hP := foldl_setP_eq (lanesIn g) f.d.toNat (fun l => (cmpOut f.ty f.mod.toNat i.warp.nstat (srcA i f sh l) (srcB s i f sh.wb l)).1) i.warp
    obtain ⟨x, hframe, hpast, hx, -⟩ := vectorWrite_ends hmay.here
      (putOutcomes f.d.toNat outs)
      (by rw [hF, hP]) (by rw [hF, hP]) (cmpUses i f) g (allPen outs) (kindSlots f.kind)
      (fun l r => (cmpNote s i f r l
        (decide (((outs.find? fun o => decide (o.1 = l)).map fun o => o.2.1.val) = some 1))).getD r)
    refine ⟨_, x, atIssue_act hmay.here ((hact _).trans ?_), hframe, hpast, ?_, ?_⟩
    · rw [if_neg (not_not_intro hsym), if_neg (not_not_intro hfull), unlessIv_of_none hiv]; rfl
    · rw [hx, hF, hP]
    · exact predWrite_foldl (by rw [hx, hF])
  case scalar =>
    intro f s i sh on r out hmay hiv
    obtain ⟨x, hframe, hpast, hx⟩ := scalWith_ends (put := fun x v => setQ x f.d.toNat (decide (v = 1))) (kindSlots f.kind) hmay
      (fun h1 h2 => cmpFn_pen (hiv h1 h2)) (fun v => by rw [setQ_eq]) (fun v => by rw [setQ_eq])
    refine ⟨_, x, atIssue_some hmay.here _, hframe, hpast, ?_⟩
    have hd : f.d.toNat < 8 := pOk_lt ((Bool.and_eq_true _ _ ▸ (chkAll_none.1 hmay.legal).2).2)
    cases hg : guardScalar i f.gp f.gn with
    | false =>
      simp only [hg, on, Bool.false_eq_true, if_false] at hx ⊢
      exact ⟨by rw [hx], by rw [hx]⟩
    | true =>
      simp only [hg, on, if_true] at hx ⊢
      have hv : decide (r.1.val = 1) = out.1 := cmpFn_val ..
      exact ⟨by rw [hx, setQ_eq]; rfl, qWrite_of_write hd (by rw [hx]; simp only [← hv]; rfl)⟩

/-- Settles O5: the selected source is the result of a lane, or of the warp. -/
theorem selectCompletes : Obligations.SelectCompletes := by
  unfold Obligations.SelectCompletes
  refine ⟨?vector, ?scalar⟩
  case vector =>
    intro f s i sh g hmay hsym
    obtain ⟨x, hframe, hpast, hx, hval, hvec⟩ := putMask_ends hmay.here sh.wd f.d.toNat g
      (fun l => ⟨if pR i.warp f.c.toNat l then srcA i f sh l else srcB s i f sh.wb l, 0⟩) (mGet 0 i.warp.lanesRand)
      (fun _ r => regionNote r f.d.toNat (4 * span sh.wd) none (laneReads i f sh)) (selUses i f) 0 (kindSlots f.kind)
    rw [← after_noPennant] at hframe
    exact ⟨_, x, atIssue_act hmay.here ((gated_of_mayRun hmay _).trans (if_neg (not_not_intro hsym))), hframe, hpast,
      by rw [hx, nstat_or_zero], fun l _ hl => (hval l hl).1, hvec⟩
  case scalar =>
    intro f s i w on hmay
    obtain ⟨x, hframe, hpast, hx⟩ := scalWith_ends (put := fun x v => setSVal x (tyWide f.ty) f.d.toNat v)
      (fn := pureFn fun a b _ => ⟨if qR i.warp f.c.toNat then a else b, 0⟩) (kindSlots f.kind) hmay
      (fun _ _ => by simp [scalResult, pureFn]) (fun v => by rw [setSVal_eq]) (fun v => by rw [setSVal_eq])
    refine ⟨_, x, atIssue_some hmay.here _, hframe, hpast, ?_⟩
    cases hg : guardScalar i f.gp f.gn with
    | false =>
      simp only [hg, on, Bool.false_eq_true, if_false, false_implies, true_or, true_implies] at hx ⊢
      exact ⟨by rw [hx], trivial, fun q => by rw [hx]; rfl⟩
    | true =>
      simp only [hg, on, if_true, true_implies, Bool.true_eq_false, false_or] at hx ⊢
      have hxs : x.s = (setSVal i.warp w f.d.toNat (if qR i.warp f.c.toNat then sVal i.warp w f.a.toNat else srcS i f w)).s := by
        rw [hx]; rfl
      obtain ⟨hval, hrest⟩ := scalar_of_write hxs
      exact ⟨by rw [hx, setSVal_eq]; simp [scalResult, pureFn], hval, hrest⟩

end Sys2Proof.Machine

namespace Sys2Proof.Machine

/-! SUPPORT. Predicates as a whole (R113, R114, R165), the pair word (R72) and the lane instructions (R164 to R169). -/

theorem putLanes_foldl (x : Warp) (d : Nat) (ls : List Nat) (f : Nat → Nat) :
    ls.foldl (fun y l => setV y d l (BitVec.ofNat 32 (f l))) x = putLanes x false d (ls.map fun l => (l, f l)) := by
  simp only [putLanes, List.foldl_map]; rfl

/-- A scalar register or pair written: its error marks clear and the strand goes on. -/
theorem putScalar_ends {s : State} {i : Iss} (hi : issuer s = some i) (w : Bool) (r v n : Nat) :
    ∃ x, RegisterFrame s (after (andThen (putScalar i w r v) (advance i n)) s) i.w i.warp.block x ∧ Past i n x ∧
      x = { i.warp with s := x.s, strands := x.strands } ∧ sVal x w r = v % 2 ^ (32 * span w) ∧
      ∀ q, q ∉ regs r w → sR x q = sR i.warp q := by
  obtain ⟨x, hx, hpast, ex⟩ := scalarWrite_ends hi (fun x => setSVal x w r v) (by rw [setSVal_eq]) (by rw [setSVal_eq]) 0 n
    (regs r w)
  obtain ⟨hval, hrest⟩ := scalar_of_write (x := x) (y := i.warp) (w := w) (r := r) (n := v) (by rw [ex])
  refine ⟨x, ?_, hpast, by rw [ex, setSVal_eq, nstat_or_zero], hval, hrest⟩
  simpa only [putScalar, after_andThen, after_raisePennants_zero] using hx

/-- Warp predicates written by `F`. -/
theorem qWrite_ends {s : State} {i : Iss} (hi : issuer s = some i) (F : Warp → Warp)
    (hF : F i.warp = { i.warp with q := (F i.warp).q }) (n : Nat) :
    ∃ x, RegisterFrame s (after (andThen (updWarp i.w F) (advance i n)) s) i.w i.warp.block x ∧ Past i n x ∧
      x = { F i.warp with strands := x.strands } := by
  obtain ⟨-, hw, -⟩ := issuer_spec hi
  simp only [after_andThen]
  obtain ⟨x, hx, ex, hpast⟩ := ((RegisterFrame.refl (b := i.warp.block) hw).updWarp F).advance
    (unmoved_issuer hi (by rw [hF])) n
  exact ⟨x, hx, hpast, ex⟩

/-- Settles O6. -/
theorem predicateInstructionsComplete : Obligations.PredicateInstructionsComplete := by
  unfold Obligations.PredicateInstructionsComplete
  refine ⟨?pset, ?psetS, ?pmov, ?pmovSet, ?pmovS, ?pmovSetS, ?elect⟩
  case pset =>
    intro f s i g hmay
    have hF := foldl_setP_eq (lanesIn g) f.d.toNat (fun l => psetOut f.mod.toNat (pR i.warp f.a.toNat l) (pR i.warp f.b.toNat l)) i.warp
    obtain ⟨x, hframe, hpast, hx⟩ := predWrite_ends hmay.here (fun x => (lanesIn g).foldl (fun y l =>
      setP y f.d.toNat l (psetOut f.mod.toNat (pR x f.a.toNat l) (pR x f.b.toNat l))) x) (by rw [hF]) (by rw [hF]) (psetUses f) g 1
    exact ⟨_, x, atIssue_act hmay.here (gated_of_mayRun hmay _), hframe, hpast, by rw [hx, hF], predWrite_foldl (by rw [hx])⟩
  case psetS =>
    intro f s i hmay
    have hact := gated_of_mayRun hmay
    have hd : f.d.toNat < 8 := by
      have := (chkAll_none.1 hmay.legal).2
      simp only [Bool.and_eq_true] at this
      exact pOk_lt this.1.1
    cases hg : guardScalar i f.gp f.gn with
    | false =>
      obtain ⟨x, hframe, hpast, hx⟩ := advance_ends hmay.here 1
      refine ⟨_, x, atIssue_act hmay.here ((hact _).trans ?_), hframe, hpast, by rw [hx], by rw [if_neg Bool.false_ne_true, hx]⟩
      rw [hg]; rfl
    | true =>
      let b := psetOut f.mod.toNat (qR i.warp f.a.toNat) (qR i.warp f.b.toNat)
      obtain ⟨x, hframe, hpast, hx⟩ := qWrite_ends hmay.here (fun x =>
        setQ x f.d.toNat (psetOut f.mod.toNat (qR x f.a.toNat) (qR x f.b.toNat))) (setQ_eq _ _ _) 1
      refine ⟨_, x, atIssue_act hmay.here ((hact _).trans ?_), hframe, hpast, by rw [hx, setQ_eq], ?_⟩
      · rw [hg]; rfl
      · rw [if_pos rfl]
        exact qWrite_of_write (b := b) hd (by rw [hx])
  case pmov =>
    intro f s i g hmay
    have hF := putLanes_foldl i.warp f.d.toNat (lanesIn g) (fun l => predBits fun j => pR i.warp j l)
    have hP := putLanes_eq i.warp false f.d.toNat ((lanesIn g).map fun l => (l, predBits fun j => pR i.warp j l))
    obtain ⟨x, hframe, hpast, hx, hreg⟩ := vectorWrite_ends hmay.here (fun x => (lanesIn g).foldl (fun y l =>
      setV y f.d.toNat l (BitVec.ofNat 32 (predBits fun j => pR x j l))) x) (by rw [hF, hP]) (by rw [hF, hP]) (pmovUses f) g 0 1
      (fun _ r => untag r f.d.toNat 4)
    rw [← after_noPennant] at hframe
    have hv : x.v = (putLanes i.warp false f.d.toNat ((lanesIn g).map fun l => (l, predBits fun j => pR i.warp j l))).v := by
      rw [hx, hF]
    refine ⟨_, x, atIssue_act hmay.here (gated_of_mayRun hmay _), hframe, hpast, by rw [hx, hF, hP, nstat_or_zero], fun l _ hl => ?_, ?_⟩
    · rw [vR_congr hv, vR_putLanes_map _ _ _ hl, BitVec.toNat_ofNat]
      exact Nat.mod_eq_of_lt (Nat.lt_trans (predBits_lt _) (by decide))
    · refine ⟨fun r l hl hr => ?_, fun l hl => ?_, fun l hl => ?_⟩
      · rw [vR_congr hv]; exact vR_putLanes_map_ne _ _ _ _ _ hl hr
      · rw [hx, hF, hP]
      · rw [hreg l hl, hF, hP]
  case pmovSet =>
    intro f s i g hmay
    have hF := foldl_setPs_eq (lanesIn g) (fun l j => (srcB s i f false l).testBit j) i.warp
    obtain ⟨x, hframe, hpast, hx, hreg⟩ := vectorWrite_ends hmay.here (fun x => (lanesIn g).foldl (fun y l =>
      (List.range 7).foldl (fun z j => setP z j l ((srcB s i f false l).testBit j)) y) x) (by rw [hF]) (by rw [hF])
      (pmovSetUses i f) g 0 (kindSlots f.kind) (fun _ r => regionNote r 0 0 none (laneReads i f (oneShape .b32)))
    rw [← after_noPennant] at hframe
    refine ⟨_, x, atIssue_act hmay.here (gated_of_mayRun hmay _), hframe, hpast, by rw [hx, hF, nstat_or_zero], fun m l hm hl => ?_⟩
    rw [pR_congr (y := (lanesIn g).foldl (fun y l => (List.range 7).foldl
        (fun z j => setP z j l ((srcB s i f false l).testBit j)) y) i.warp) (by rw [hx]),
      pR_foldl_setPs (lanesIn g) (fun j hj => (mem_lanesIn.1 hj).1) (fun l j => (srcB s i f false l).testBit j) i.warp hm hl]
    simp only [mem_lanesIn, hl, true_and]
  case pmovS =>
    intro f s i hmod hmay
    have hact := gated_of_mayRun hmay
    cases hg : guardScalar i f.gp f.gn with
    | false =>
      obtain ⟨x, hframe, hpast, hx⟩ := advance_ends hmay.here 1
      refine ⟨_, x, atIssue_act hmay.here ((if_pos hmod).trans ((hact _).trans ?_)), hframe, hpast, by rw [hx], fun q => ?_⟩
      · rw [hg]; rfl
      · rw [if_neg (by simp)]; exact sR_congr (by rw [hx]) q
    | true =>
      obtain ⟨x, hframe, hpast, hx, hval, hrest⟩ := putScalar_ends hmay.here false f.d.toNat (predBits (qR i.warp)) 1
      refine ⟨_, x, atIssue_act hmay.here ((if_pos hmod).trans ((hact _).trans ?_)), hframe, hpast, hx, fun q => ?_⟩
      · rw [hg]; rfl
      · by_cases hq : q = f.d.toNat
        · simp only [hq, and_self, if_true]
          exact BitVec.eq_of_toNat_eq hval
        · simp only [hq, and_false, if_false]
          exact hrest q (by simpa [regs] using hq)
  case pmovSetS =>
    intro f s i hmod hmay
    have hact := gated_of_mayRun hmay
    cases hg : guardScalar i f.gp f.gn with
    | false =>
      obtain ⟨x, hframe, hpast, hx⟩ := advance_ends hmay.here (kindSlots f.kind)
      refine ⟨_, x, atIssue_act hmay.here ((if_neg hmod).trans ((hact _).trans ?_)), hframe, hpast, by rw [hx], fun m _ => ?_⟩
      · rw [hg]; rfl
      · rw [if_neg Bool.false_ne_true]; exact qR_congr (by rw [hx]) m
    | true =>
      have hF := foldl_setQ_eq 7 (fun j => (srcS i f false).testBit j) i.warp
      obtain ⟨x, hframe, hpast, hx⟩ := qWrite_ends hmay.here (fun x =>
        (List.range 7).foldl (fun y j => setQ y j ((srcS i f false).testBit j)) x) hF (kindSlots f.kind)
      refine ⟨_, x, atIssue_act hmay.here ((if_neg hmod).trans ((hact _).trans ?_)), hframe, hpast, by rw [hx, hF], fun m hm => ?_⟩
      · rw [hg]; rfl
      · rw [if_pos rfl, qR_congr (y := (List.range 7).foldl (fun y j => setQ y j ((srcS i f false).testBit j)) i.warp) (by rw [hx]),
          qR_foldl_setQ (Nat.le_refl 7) (fun j => (srcS i f false).testBit j) _ (by omega), if_pos hm]
  case elect =>
    intro f s i g hmay
    have hF := foldl_setP_eq (lanesIn g) f.d.toNat (fun l => decide (l = lowLane g)) i.warp
    obtain ⟨x, hframe, hpast, hx, -⟩ := vectorWrite_ends hmay.here (fun x => (lanesIn g).foldl (fun y l =>
      setP y f.d.toNat l (decide (l = lowLane g))) x) (by rw [hF]) (by rw [hF]) (electUses f) g 0 1
      (fun _ r => (electUses f).vw.foldl (fun y q => untag y q 4) r)
    rw [← after_noPennant] at hframe
    exact ⟨_, x, atIssue_act hmay.here (gated_of_mayRun hmay _), hframe, hpast, by rw [hx, hF, nstat_or_zero],
      predWrite_foldl (by rw [hx])⟩

end Sys2Proof.Machine

namespace Sys2Proof.Machine

/-! SUPPORT. The pair word (04_encoding R72) and the lane instructions (09_ref_float_lane R164 to R169). -/

theorem mem_regs_false {q r : Nat} : q ∈ regs r false ↔ q = r := by simp [regs]
theorem ne_of_bitVec_ne {n : Nat} {a b : BitVec n} (h : a ≠ b) : a.toNat ≠ b.toNat := fun e => h (BitVec.eq_of_toNat_eq e)

/-- Settles O7: the two writes touch different registers, and both results are of the registers before them. -/
theorem pairWordCompletes : Obligations.PairWordCompletes := by
  unfold Obligations.PairWordCompletes
  intro f s i g fa fb res hne hmay htag hiv
  have hact := gated_of_mayRun hmay
  have hdd : f.da.toNat ≠ f.db.toNat := ne_of_bitVec_ne hne
  let mid := putResults i.warp false f.da.toNat (pairOutA s i f)
  have hA := putResults_eq i.warp false f.da.toNat (pairOutA s i f)
  have hB := putResults_eq mid false f.db.toNat (pairOutB s i f)
  have hput : putResults mid false f.db.toNat (pairOutB s i f) = { i.warp with
      v := (putResults mid false f.db.toNat (pairOutB s i f)).v
      lanesRand := (putResults mid false f.db.toNat (pairOutB s i f)).lanesRand } := hB.trans (by rw [show mid = _ from hA])
  obtain ⟨x, hframe, hpast, hx, hreg⟩ := vectorWrite_ends hmay.here
    (fun x => putResults (putResults x false f.da.toNat (pairOutA s i f)) false f.db.toNat (pairOutB s i f))
    (by rw [hput]) (by rw [hput]) (pairUses i f) g (allPen (pairOutA s i f) ||| allPen (pairOutB s i f)) 1 (pairNote s i f)
  have hv : x.v = (putResults mid false f.db.toNat (pairOutB s i f)).v := by rw [hx]
  have hr : x.lanesRand = (putResults mid false f.db.toNat (pairOutB s i f)).lanesRand := by rw [hx]
  refine ⟨_, x, atIssue_act hmay.here ((hact _).trans ?_), hframe, hpast, by rw [hx, hput],
    fun l hl hg => ⟨?_, ?_⟩, fun q l hl hq => ?_, fun l hl => ?_, fun l hl => ?_⟩
  · rw [if_neg (not_not_intro htag), unlessIv_of_none hiv]
  · rw [vR_congr hv]
    refine Eq.trans (congrArg BitVec.toNat (vR_putMask_ne mid false f.db.toNat g _ _ hl (.inr ?_))) ?_
    · rwa [mem_regs_false]
    · exact vVal_putMask i.warp false f.da.toNat (fun l => (pairFn f.opa.toNat fa i.warp.nstat (srcA i fa (pairShape f.opa fa.ty) l)
        (srcB s i fa (pairShape f.opa fa.ty).wb l) (srcC i fa (pairShape f.opa fa.ty) l) (mGet 0 i.warp.lanesRand l)).1) _ hg
  · rw [vR_congr hv]
    exact vVal_putMask mid false f.db.toNat (fun l => (pairFn f.opb.toNat fb i.warp.nstat (srcA i fb (pairShape f.opb fb.ty) l)
        (srcB s i fb (pairShape f.opb fb.ty).wb l) (srcC i fb (pairShape f.opb fb.ty) l) (mGet 0 i.warp.lanesRand l)).1) _ hg
  · rw [vR_congr hv]
    simp only [List.mem_cons, List.not_mem_nil, or_false, not_or] at hq
    exact (vR_putMask_ne mid false f.db.toNat g _ _ hl (hq.imp id fun h => by rw [mem_regs_false]; exact h.2)).trans
      (vR_putMask_ne i.warp false f.da.toNat g _ _ hl (hq.imp id fun h => by rw [mem_regs_false]; exact h.1))
  · rw [hr]
    refine (lanesRand_putMask mid false f.db.toNat g _ _ l).trans ?_
    rw [hl, if_neg Bool.false_ne_true]
    refine (lanesRand_putMask i.warp false f.da.toNat g _ _ l).trans ?_
    rw [hl, if_neg Bool.false_ne_true]
  · rw [hreg l hl, hput]

/-! ## The lane instructions -/

/-- What a lane instruction's writes leave of a warp that stands as `y`: the registers as `put` makes them, the open regions
of its lanes without the tags of the registers it writes. -/
theorem laneWrite_ends {s t : State} {i : Iss} {y : Warp} (h : RegisterFrame s t i.w i.warp.block y) (hm : Unmoved i y)
    (hb : y.block = i.warp.block) (u : Uses) (g : Mask) (put : Warp → Warp) (n : Nat) {v : Map Word} {r : Map Word}
    (hput : put y = { y with v := v, lanesRand := r }) :
    ∃ x, RegisterFrame s (after (laneWrite i u g put n) t) i.w i.warp.block x ∧ Past i n x ∧
      x = { y with v := v, lanesRand := r, regions := x.regions, strands := x.strands } ∧
      x.v = v ∧ x.lanesRand = r ∧ ∀ l, hasLane g l = false → mLook x.regions l = mLook y.regions l := by
  obtain ⟨x, hframe, hpast, hx, hreg⟩ := h.vectorWrite put (by rw [hput]; exact ⟨hm.here, hm.others⟩) (by rw [hput]; exact hb)
    u g 0 n (fun _ r => u.vw.foldl (fun y q => untag y q 4) r)
  rw [← after_noPennant] at hframe
  exact ⟨x, hframe, hpast, by rw [hx, hput, nstat_or_zero], by rw [hx, hput], by rw [hx, hput], fun l hl => by rw [hreg l hl, hput]⟩

theorem RegisterFrame.atIssue {s : State} {i : Iss} (hi : issuer s = some i) : RegisterFrame s s i.w i.warp.block i.warp :=
  RegisterFrame.refl (issuer_spec hi).2.1

/-- Settles O8: each lane instruction writes its lanes by `laneWrite_ends`, but for `vget`, which writes a scalar register. -/
theorem laneInstructionsComplete : Obligations.LaneInstructionsComplete := by
  unfold Obligations.LaneInstructionsComplete
  refine ⟨?vote, ?redw, ?lanes, ?vput, ?vget⟩
  case vote =>
    intro f s i g hmay
    have hdc : f.d.toNat ≠ f.c.toNat := by
      have := (chkAll_none.1 hmay.legal).2
      simp only [Bool.and_eq_true, bne_iff_ne] at this
      exact (ne_of_bitVec_ne this.2).symm
    let out (_ : Nat) := voteOut f.mod.toNat (predMask i.warp f.b.toNat) g
    let gone (_ : Nat) := (absentLanes g).toNat
    let mid := putLanes i.warp false f.d.toNat ((lanesIn g).map fun l => (l, out l))
    have hput : putLanes mid false f.c.toNat ((lanesIn g).map fun l => (l, gone l)) = { i.warp with
        v := (putLanes mid false f.c.toNat ((lanesIn g).map fun l => (l, gone l))).v } :=
      (putLanes_eq ..).trans (by rw [show mid = _ from putLanes_eq ..])
    obtain ⟨x, hframe, hpast, hx, hv, -, hreg⟩ := laneWrite_ends (.atIssue hmay.here) (unmoved_issuer hmay.here rfl) rfl (voteUses f) g
      (fun x => putLanes (putLanes x false f.d.toNat ((lanesIn g).map fun l => (l, out l)))
        false f.c.toNat ((lanesIn g).map fun l => (l, gone l))) 1 (r := i.warp.lanesRand) hput
    refine ⟨_, x, atIssue_act hmay.here (gated_of_mayRun hmay _), hframe, hpast, by rw [hx], fun l hl hg => ⟨?_, ?_⟩,
      fun q l hl hq => ?_, fun l _ => by rw [hx], hreg⟩
    · rw [vR_congr hv]
      exact (vR_putLanes_map_ne mid false f.c.toNat g gone hl (.inr (by rwa [mem_regs_false]))).trans
        (vR_putLanes_map i.warp f.d.toNat out hg)
    · rw [vR_congr hv]
      exact (vR_putLanes_map mid f.c.toNat gone hg).trans ((BitVec.ofNat_toNat ..).trans (BitVec.setWidth_eq _))
    · rw [vR_congr hv]
      simp only [List.mem_cons, List.not_mem_nil, or_false, not_or] at hq
      exact (vR_putLanes_map_ne mid false f.c.toNat g gone hl (hq.imp id fun h => by rw [mem_regs_false]; exact h.2)).trans
        (vR_putLanes_map_ne i.warp false f.d.toNat g out hl (hq.imp id fun h => by rw [mem_regs_false]; exact h.1))
  case redw =>
    intro f s i g w hmay hsym hiv
    have hdc : f.c.toNat ∉ regs f.d.toNat w := by
      have := (chkAll_none.1 hmay.legal).2
      simp only [Bool.and_eq_true, Bool.not_eq_true', List.contains_eq_mem, decide_eq_false_iff_not] at this
      exact this.2
    let y : Warp := { i.warp with nstat := i.warp.nstat ||| (allPen (redwOuts i f g)).zeroExtend 32 }
    let gone (_ : Nat) := (absentLanes g).toNat
    let mid := putResults y w f.d.toNat (redwOuts i f g)
    have hput : putLanes mid false f.c.toNat ((lanesIn g).map fun l => (l, gone l)) = { y with
        v := (putLanes mid false f.c.toNat ((lanesIn g).map fun l => (l, gone l))).v, lanesRand := mid.lanesRand } :=
      (putLanes_eq ..).trans (by rw [show mid = _ from putResults_eq ..])
    have hframe := (RegisterFrame.atIssue hmay.here).raisePennants rfl (allPen (redwOuts i f g))
    obtain ⟨x, hframe, hpast, hx, hv, hr, hreg⟩ := laneWrite_ends hframe (unmoved_issuer hmay.here (x := y) rfl) rfl (redwUses i f) g
      (fun x => putLanes (putResults x w f.d.toNat (redwOuts i f g))
        false f.c.toNat ((lanesIn g).map fun l => (l, gone l))) 1 hput
    rw [← after_andThen] at hframe
    refine ⟨_, x, atIssue_act hmay.here ((gated_of_mayRun hmay _).trans ?_), hframe, hpast, by rw [hx], fun l hl hg => ⟨?_, ?_⟩,
      fun q l hl hq => ?_, fun l hl => ?_, hreg⟩
    · rw [if_neg (not_not_intro hsym), unlessIv_of_none hiv]
    · rw [vVal_congr hv]
      refine (vVal_of_vR fun q hq => ?_).trans (vVal_putMask y w f.d.toNat (redwOut i f g) (mGet 0 i.warp.lanesRand) hg)
      refine vR_putLanes_map_ne mid false f.c.toNat g gone hl (.inr ?_)
      rw [mem_regs_false]
      rintro rfl
      exact hdc hq
    · rw [vR_congr hv]
      exact (vR_putLanes_map mid f.c.toNat gone hg).trans ((BitVec.ofNat_toNat ..).trans (BitVec.setWidth_eq _))
    · rw [vR_congr hv]
      simp only [List.mem_append, List.mem_cons, List.not_mem_nil, or_false, not_or] at hq
      exact (vR_putLanes_map_ne mid false f.c.toNat g gone hl (hq.imp id fun h => by rw [mem_regs_false]; exact h.2)).trans
        (vR_putMask_ne y w f.d.toNat g (redwOut i f g) _ hl (hq.imp id fun h => h.1))
    · rw [hr]
      refine (lanesRand_putMask y w f.d.toNat g (redwOut i f g) (mGet 0 i.warp.lanesRand) l).trans ?_
      rw [hl, if_neg Bool.false_ne_true]
  case lanes =>
    intro f s i g mt hmay hsym
    have hput := putLanes_eq i.warp false f.d.toNat ((lanesIn g).map fun l => (l, lanesOut i f g l))
    obtain ⟨x, hframe, hpast, hx, hv, -, hreg⟩ := laneWrite_ends (.atIssue hmay.here) (unmoved_issuer hmay.here rfl) rfl (lanesUses i f) g
      (fun x => putLanes x false f.d.toNat ((lanesIn g).map fun l => (l, lanesOut i f g l))) 1 (r := i.warp.lanesRand) hput
    refine ⟨_, x, atIssue_act hmay.here ((gated_of_mayRun hmay _).trans (if_neg (not_not_intro hsym))), hframe, hpast,
      by rw [hx], fun l hl hg => ?_, fun q l hl hq => ?_, fun l _ => by rw [hx], hreg⟩
    · rw [vR_congr hv]
      exact vVal_putLanes_map i.warp false f.d.toNat g (lanesOut i f g) hg
    · rw [vR_congr hv]
      exact vR_putLanes_map_ne i.warp false f.d.toNat g (lanesOut i f g) hl (hq.imp id fun h => by simpa [regs] using h)
  case vput =>
    intro f s i j g w hmay
    have hput := putLanes_eq i.warp w f.d.toNat ((lanesIn g).map fun l => (l, srcB s i f w l))
    obtain ⟨x, hframe, hpast, hx, hv, -, hreg⟩ := laneWrite_ends (.atIssue hmay.here) (unmoved_issuer hmay.here rfl) rfl (vputUses f) g
      (fun x => putLanes x w f.d.toNat ((lanesIn g).map fun l => (l, srcB s i f w l))) (kindSlots f.kind)
      (r := i.warp.lanesRand) hput
    refine ⟨_, x, atIssue_act hmay.here (gated_of_mayRun hmay _), hframe, hpast,
      by rw [hx], fun hg => ?_, fun q l hl hq => ?_, fun l _ => by rw [hx], hreg⟩
    · rw [vVal_congr hv]
      exact vVal_putLanes_map i.warp w f.d.toNat g (srcB s i f w) hg
    · rw [vR_congr hv]
      exact vR_putLanes_map_ne i.warp w f.d.toNat g (srcB s i f w) hl hq
  case vget =>
    intro f s i j g w hmay hsym
    obtain ⟨x, hframe, hpast, hx, hval, hrest⟩ := putScalar_ends hmay.here w f.d.toNat
      (if hasLane g j then routed i f.rb f.own w f.b.toNat j else 0) 1
    exact ⟨_, x, atIssue_act hmay.here ((gated_of_mayRun hmay _).trans (if_neg (not_not_intro hsym))), hframe, hpast,
      hx, hval, hrest⟩

end Sys2Proof.Machine

namespace Sys2Proof.Machine

/-! SUPPORT. Control transfers (05_ref_integer_control R115), waits and hoists (02_execution_model R22, R119, R120), and
barriers that are past (23_ref_sync_launch R365). -/

/-! ## The strand that goes on, in any state -/

/-- The last of two writes of one key stands. -/
@[simp] theorem mIns_mIns {α : Type} (m : Map α) (k : Nat) (a b : α) : mIns (mIns m k a) k b = mIns m k b := by
  induction m with
  | nil => simp [mIns]
  | cons e m ih =>
    simp only [mIns]
    split
    · simp [mIns]
    · split
      · simp [mIns]
      · simp [mIns, *]

/-- The warp whose strand has gone on `n` slots. -/
def advanced (i : Iss) (n : Nat) (x : Warp) : Warp := onStrand i.k (fun z => mergeShadow (stepSlots n z)) x
theorem past_advanced {i : Iss} {x : Warp} (hm : Unmoved i x) (n : Nat) : Past i n (advanced i n x) := by
  obtain ⟨z, hz, h2, h3, h4, h5⟩ := hm.here
  refine ⟨⟨_, onStrand_here hz, ?_, ?_, ?_⟩, fun k hk => (onStrand_others _ _ _ hk).trans (hm.others k hk)⟩
  · simp [(stepSlots_congr n h2 h3 h4).1]
  · simp [(stepSlots_congr n h2 h3 h4).2]
  · simp [h5]

section
variable {t : State} {i : Iss} {x : Warp} (hx : mLook t.warps i.w = some x)
include hx

/-- The strand's own entry changed by `f`. -/
theorem after_updStrand {f : Strand → Strand} :
    after (updStrand i.w i.k f) t = { t with warps := mIns t.warps i.w (onStrand i.k f x) } := after_updWarp hx

/-- A strand that comes to wait. -/
theorem after_waitWith (z : Wait) : after (waitWith i z) t =
    { t with warps := mIns t.warps i.w (onStrand i.k (fun y => { y with idleAt := t.epoch, wait := z }) x) } := by
  rw [waitWith, after_look, after_updStrand hx]

/-- Going on writes the strand's entry and counts progress, whatever was done before. -/
theorem after_advance_eq (n : Nat) :
    after (advance i n) t = { t with warps := mIns t.warps i.w (advanced i n x), epoch := t.epoch + 1 } := by
  simp only [advance, after_andThen, after_updStrand hx, after_bump]; rfl
theorem after_advance (hm : Unmoved i x) (n : Nat) :
    ∃ y, after (advance i n) t = { t with warps := mIns t.warps i.w y, epoch := t.epoch + 1 } ∧
      y = { x with strands := y.strands } ∧ Past i n y :=
  ⟨_, after_advance_eq hx n, onStrand_eq .., past_advanced hm n⟩

/-- The same after the warp is changed by `F`. -/
theorem after_updWarp_advance (F : Warp → Warp) (hm : Unmoved i (F x)) (n : Nat) :
    ∃ y, after (andThen (updWarp i.w F) (advance i n)) t = { t with warps := mIns t.warps i.w y, epoch := t.epoch + 1 } ∧
      y = { F x with strands := y.strands } ∧ Past i n y := by
  obtain ⟨y, hy, ey, hpast⟩ := after_advance (t := { t with warps := mIns t.warps i.w (F x) }) (mLook_mIns_self ..) hm n
  refine ⟨y, ?_, ey, hpast⟩
  rw [after_andThen, after_updWarp hx, hy, mIns_mIns]
end

/-- A strand that goes on at a header, its warp as `F` makes it and the scalar registers `rs` free of error marks. -/
theorem jump_ends {s : State} {i : Iss} (hi : issuer s = some i) (F : Warp → Warp)
    (hF : (F i.warp).strands = i.warp.strands) (rs : List Nat) (pc : DWord) :
    ∃ x, RegisterFrame s (after (andThen (updWarp i.w F) (andThen (clearBadS i.w rs) (jump i pc))) s) i.w i.warp.block x ∧
      Stands i pc none x ∧ x = { F i.warp with strands := x.strands } := by
  obtain ⟨-, hw, -⟩ := issuer_spec hi
  simp only [after_andThen]
  obtain ⟨x, hx, ex, hstands⟩ := (((RegisterFrame.refl (b := i.warp.block) hw).updWarp F).clearBadS i.w rs).jump
    (unmoved_issuer hi hF) pc
  exact ⟨x, hx, hstands, ex⟩

theorem fallThrough_ends {s : State} {i : Iss} (hi : issuer s = some i) :
    ∃ x, RegisterFrame s (after (fallThrough i) s) i.w i.warp.block x ∧
      Stands i (nextHeader i.st.pc i.st.hdr) none x ∧ x = { i.warp with strands := x.strands } := by
  obtain ⟨-, hw, -⟩ := issuer_spec hi
  obtain ⟨x, hx, ex, hstands⟩ := (RegisterFrame.refl (b := i.warp.block) hw).jump (unmoved_issuer hi rfl)
    (nextHeader i.st.pc i.st.hdr)
  exact ⟨x, hx, hstands, ex⟩

/-! ## Control transfers -/

/-- The write of a transfer's link pair, where it has one. -/
def putLinked (i : Iss) : Option (BitVec 9) → Warp → Warp
  | none => id
  | some r => putLink i r

theorem putLinked_eq (i : Iss) (link : Option (BitVec 9)) (x : Warp) :
    putLinked i link x = { x with s := (putLinked i link x).s } := by
  cases link with
  | none => rfl
  | some r => exact setSVal_eq x true r.toNat (nextHeader i.st.pc i.st.hdr).toNat

/-- Each transfer is the shared one with its own target and link. -/
theorem exec_transfers {s : State} {i : Iss} (hi : issuer s = some i) (f : CFields) : AllHold (transfers f i) fun y =>
    exec y.1 s = .next (after (transfer s i f y.2.1 y.2.2.1 y.2.2.2.1 y.2.2.2.2.1 (putLinked i y.2.2.2.2.2)) s) := by
  repeat' apply And.intro
  all_goals exact atIssue_some hi _

/-- Settles O9: each transfer by `exec_transfers`; the link is the one scalar register pair written. -/
theorem transfersComplete : Obligations.TransfersComplete := by
  unfold Obligations.TransfersComplete
  intro f s i o ok u direct target link ho hmay
  have hexec := allHold_mem (exec_transfers hmay.here f) ho
  have hact : transfer s i f ok u direct target (putLinked i link) = _ := gated_of_mayRun hmay _
  refine ⟨fun hg hal => ?_, fun hg => ?_⟩
  · have hput := putLinked_eq i link i.warp
    obtain ⟨x, hframe, hstands, hx⟩ := jump_ends hmay.here (putLinked i link) (by rw [hput]) u.sw target
    have hmis : (!direct && decide (target.toNat % 8 ≠ 0)) = false := by
      rcases hal with h | h <;> simp [h]
    rw [hg, if_pos rfl, hmis, if_neg Bool.false_ne_true] at hact
    have hs : x.s = (putLinked i link i.warp).s := by rw [hx]
    refine ⟨_, x, hexec.trans (by rw [hact]), hframe, hstands, by rw [hx, hput], fun r hr => ?_, fun q hq => ?_⟩
    · subst hr
      rw [sVal_congr hs]
      refine (sVal_setSVal_self ..).trans (Nat.mod_eq_of_lt ?_)
      exact BitVec.isLt _
    · rw [sR_congr hs]
      cases link with
      | none => rfl
      | some r => exact sR_setSVal_ne _ _ _ (hq r rfl)
  · obtain ⟨x, hframe, hstands, hx⟩ := fallThrough_ends hmay.here
    rw [hg, if_neg Bool.false_ne_true] at hact
    exact ⟨_, x, hexec.trans (by rw [hact]), hframe, hstands, hx⟩

/-! ## `hoist`, `waitc` and `yield` -/

theorem noRegion_of_none {i : Iss} {g : Mask} (h : regionLanes i &&& g = 0) (n : Nat) (a : Act) : noRegion i g n a = a :=
  if_neg (not_not_intro h)

@[simp] theorem armAt_setArm_self (k : Fork) (b : Bool) (a : Arm) : armAt (setArm k b a) b = a := by cases b <;> rfl
theorem armAt_setArm_ne (k : Fork) {b c : Bool} (a : Arm) (h : c ≠ b) : armAt (setArm k b a) c = armAt k c := by
  obtain rfl : c = !b := Bool.eq_not.2 h
  cases b <;> rfl

/-- The lanes of register `r` that an arm has hoisted. -/
def hoisted (preds : Bool) (a : Arm) (r : Nat) : Mask := if preds then mGet 0 a.hoistP r else mGet 0 a.hoistV r

/-- Lane masks raised under each of some keys. -/
theorem hasLane_raise (rs : List Nat) (g : Mask) (m : Map Mask) (r l : Nat) :
    hasLane (mGet 0 (rs.foldl (fun y r => mPut 0 y r (mGet 0 y r ||| g)) m) r) l =
      (hasLane (mGet 0 m r) l || (decide (r ∈ rs) && hasLane g l)) := by
  induction rs generalizing m with
  | nil => simp
  | cons q rs ih =>
    rw [List.foldl_cons, ih, mGet_mPut]
    by_cases h : r = q
    · subst h; by_cases h2 : r ∈ rs <;> simp [h2]
    · simp [h]

theorem hasLane_hoisted_cover (preds : Bool) (rs : List Nat) (g : Mask) (a : Arm) (r l : Nat) :
    hasLane (hoisted preds (cover preds rs g a) r) l = (hasLane (hoisted preds a r) l || (decide (r ∈ rs) && hasLane g l)) := by
  cases preds <;> exact hasLane_raise ..

/-- One arm of the warp covered. -/
def coverArm (preds : Bool) (rs : List Nat) (g : Mask) (y : Warp) (a : Nat × Bool) : Warp :=
  match mLook y.forks a.1 with
  | some k => { y with forks := mIns y.forks a.1 (setArm k a.2 (cover preds rs g (armAt k a.2))) }
  | none => y

theorem coverArm_eq (preds : Bool) (rs : List Nat) (g : Mask) (y : Warp) (a : Nat × Bool) :
    coverArm preds rs g y a = { y with forks := (coverArm preds rs g y a).forks } := by
  simp only [coverArm]; split <;> rfl
theorem foldl_coverArm_eq (preds : Bool) (rs : List Nat) (g : Mask) (as : List (Nat × Bool)) (y : Warp) :
    as.foldl (coverArm preds rs g) y = { y with forks := (as.foldl (coverArm preds rs g) y).forks } := by
  induction as generalizing y with
  | nil => rfl
  | cons a as ih => rw [List.foldl_cons, ih, coverArm_eq]

/-- Covering one arm keeps what every arm has hoisted. -/
theorem hoisted_coverArm (preds : Bool) (rs : List Nat) (g : Mask) (y : Warp) (a : Nat × Bool) {n : Nat} {k : Fork}
    (h : mLook y.forks n = some k) : ∃ k', mLook (coverArm preds rs g y a).forks n = some k' ∧ ∀ sd r l,
      hasLane (hoisted preds (armAt k' sd) r) l =
        (hasLane (hoisted preds (armAt k sd) r) l || (decide (a = (n, sd)) && (decide (r ∈ rs) && hasLane g l))) := by
  obtain ⟨m, b⟩ := a
  simp only [coverArm]
  by_cases hn : n = m
  · subst hn
    rw [h]
    refine ⟨_, mLook_mIns_self .., fun sd r l => ?_⟩
    by_cases hb : sd = b
    · subst hb; simp [hasLane_hoisted_cover]
    · simp [armAt_setArm_ne _ _ hb, Ne.symm hb]
  · refine ⟨k, ?_, fun sd r l => by simp [Ne.symm hn]⟩
    split
    · simpa [hn] using h
    · exact h

theorem hoisted_foldl_coverArm (preds : Bool) (rs : List Nat) (g : Mask) (as : List (Nat × Bool)) (y : Warp) {n : Nat} {k : Fork}
    (h : mLook y.forks n = some k) : ∃ k', mLook (as.foldl (coverArm preds rs g) y).forks n = some k' ∧ ∀ sd r l,
      hasLane (hoisted preds (armAt k' sd) r) l =
        (hasLane (hoisted preds (armAt k sd) r) l || (decide ((n, sd) ∈ as) && (decide (r ∈ rs) && hasLane g l))) := by
  induction as generalizing y k with
  | nil => exact ⟨k, h, by simp⟩
  | cons a as ih =>
    obtain ⟨k1, h1, e1⟩ := hoisted_coverArm preds rs g y a h
    obtain ⟨k2, h2, e2⟩ := ih _ h1
    refine ⟨k2, h2, fun sd r l => ?_⟩
    rw [e2, e1, Bool.or_assoc, ← Bool.and_or_distrib_right]
    simp only [List.mem_cons, Bool.decide_or, eq_comm]

/-- Settles O12: a hoist only adds to what arms have hoisted, and each wait goes on as its bounds allow. -/
theorem hoistAndWaitsComplete : Obligations.HoistAndWaitsComplete := by
  unfold Obligations.HoistAndWaitsComplete
  refine ⟨?hoist, ?waitc, ?yield⟩
  case hoist =>
    intro f s i g preds hmay hreg
    let as := armsOf i.warp i.st
    have hF := foldl_coverArm_eq preds (hoistNames f) g as i.warp
    obtain ⟨-, hw, -⟩ := issuer_spec hmay.here
    obtain ⟨x, hframe, hx, hpast⟩ := ((RegisterFrame.atIssue hmay.here).updWarp fun x => as.foldl (coverArm preds (hoistNames f) g) x).advance
      (unmoved_issuer hmay.here (by rw [hF])) 1
    rw [← after_andThen] at hframe
    refine ⟨_, x, atIssue_act hmay.here ((gated_of_mayRun hmay _).trans (noRegion_of_none hreg ..)), hframe, hpast,
      by rw [hx, hF], fun a ha k hk => ?_⟩
    obtain ⟨k', hk', hcov⟩ := hoisted_foldl_coverArm preds (hoistNames f) g as i.warp hk
    refine ⟨k', by rw [hx, hF]; exact hk', fun r hr l hl => ?_⟩
    have := hcov a.2 r l
    rw [decide_eq_true (p := (a.1, a.2) ∈ as) ha, decide_eq_true hr, hl] at this
    simpa [hoisted] using this
  case waitc =>
    intro f s i hmay hbounds
    obtain ⟨x, hframe, hpast, hx⟩ := advance_ends hmay.here 1
    refine ⟨_, x, atIssue_act hmay.here ((gated_of_mayRun hmay _).trans ?_), hframe, hpast, hx⟩
    cases hg : guardScalar i f.gp f.gn with
    | false => rfl
    | true =>
      obtain ⟨hdue, hmet⟩ := hbounds hg
      simp only [unlessDue, hdue, hmet]
      rfl
  case yield =>
    intro f s i hmay
    cases hg : guardScalar i f.gp f.gn with
    | false =>
      obtain ⟨x, hframe, hstands, hx⟩ := fallThrough_ends hmay.here
      refine ⟨_, x, atIssue_act hmay.here (gated_of_mayRun hmay _), ?_, hstands, hx⟩
      rw [hg]; simpa using hframe
    | true =>
      obtain ⟨x, hframe, hx, hstands⟩ := ((RegisterFrame.atIssue hmay.here).updWarp fun x => { x with yielding := some i.k }).jump
        (unmoved_issuer hmay.here rfl) (nextHeader i.st.pc i.st.hdr)
      refine ⟨_, x, atIssue_act hmay.here (gated_of_mayRun hmay _), ?_, hstands, by rw [hx, if_pos rfl]⟩
      rw [hg]; simpa [fallThrough] using hframe

end Sys2Proof.Machine

namespace Sys2Proof.Machine

/-! SUPPORT. Barriers that are past (23_ref_sync_launch R365, R366) and the instructions on special registers, marks and
debug stops (26_ref_system R407 to R411). -/

/-! ## Barriers -/

/-- What a barrier instruction that waits already does: it goes on once its phase is past. -/
def barAgain (s : State) (i : Iss) (cl : Bool) (bid p : Nat) : Act :=
  gated s i none {} 0 <| if p < (barAt s i cl bid).phase then advance i 1 else waitWith i (.barrier cl bid p)

/-- What each barrier instruction does at its issue once its guard and its values allow it. -/
def barFresh (f : CFields) (s : State) (i : Iss) : Instr → Act
  | .bar _ => arriveThen s i false (barId i f) (barCount i f)
      (waitWith i (.barrier false (barId i f) (barAt s i false (barId i f)).phase))
  | .cbar _ => arriveThen s i true (barId i f) (barCount i f)
      (waitWith i (.barrier true (barId i f) (barAt s i true (barId i f)).phase))
  | .barr _ => arriveThen s i false (barId i f) (barCount i f) <|
      andThen (updWarp i.w fun x =>
        { x with barr := (lanesIn i.lanes).foldl (fun m l => mIns m (32 * barId i f + l) ((barAt s i false (barId i f)).phase + 1)) x.barr })
        (advance i 1)
  | _ =>
    if barwPhase i (barId i f) (barAt s i false (barId i f)).phase < (barAt s i false (barId i f)).phase then advance i 1
    else waitWith i (.barrier false (barId i f) (barwPhase i (barId i f) (barAt s i false (barId i f)).phase))

section
variable {f : CFields} {s : State} {i : Iss} (hi : issuer s = some i)
include hi

/-- A strand that waits at a barrier is tried again. -/
theorem exec_bar_waiting {o : Instr} (ho : o ∈ [.bar f, .cbar f, .barw f]) {cl : Bool} {bid p : Nat}
    (hw : i.st.wait = .barrier cl bid p) : exec o s = .next (after (barAgain s i cl bid p) s) := by
  simp only [List.mem_cons, List.not_mem_nil, or_false] at ho
  rcases ho with rfl | rfl | rfl <;> refine atIssue_act hi ?_
  · simp only [barMeans, hw, barAgain]
  · simp only [barMeans, hw, barAgain]
  · simp only [hw, barAgain]

/-- A strand that waits at no barrier begins at one. -/
theorem exec_bar_fresh {o : Instr} (ho : o ∈ [.bar f, .cbar f, .barr f, .barw f]) (hw : ∀ cl bid p, i.st.wait ≠ .barrier cl bid p)
    (hmay : MayRun s i (chkAll true (barOpnd i f && barCnt f))
      { sr := barReads f, mem := true, shadow := true, act := guardScalar i f.gp f.gn } 0) :
    exec o s = .next (after (barGo i f (barFresh f s i o)) s) := by
  simp only [List.mem_cons, List.not_mem_nil, or_false] at ho
  have hact := gated_of_mayRun hmay
  rcases ho with rfl | rfl | rfl | rfl <;> refine atIssue_act hi ?_
  · simp only [barMeans]
    exact hact _
  · simp only [barMeans]
    exact hact _
  · exact hact _
  · split
    · exact absurd ‹_› (hw _ _ _)
    · exact hact _

end

/-- With its guard true, legal values and no region a barrier instruction does what it is for. -/
theorem barGo_true {i : Iss} {f : CFields} (hg : guardScalar i f.gp f.gn = true) (hv : barValues i f = true)
    (hr : regionLanes i &&& i.lanes = 0) (a : Act) : barGo i f a = a := by
  simp only [barGo, hg, hv, noRegion_of_none hr]; rfl

/-- Settles O14: in each of the three ways the instruction comes to go on. -/
theorem barrierWaitsComplete : Obligations.BarrierWaitsComplete := by
  unfold Obligations.BarrierWaitsComplete
  refine ⟨?past, ?never, ?arrived⟩
  case past =>
    intro f s i o ho cl bid p hmay hw hp
    obtain ⟨x, hframe, hpast, hx⟩ := advance_ends hmay.here 1
    refine ⟨_, x, exec_bar_waiting hmay.here ho hw, ?_, hpast, hx⟩
    rwa [barAgain, gated_of_mayRun hmay, if_pos hp]
  case never =>
    intro f s i o ho hw hmay hg
    obtain ⟨x, hframe, hpast, hx⟩ := advance_ends hmay.here 1
    refine ⟨_, x, exec_bar_fresh hmay.here ho hw hmay, ?_, hpast, hx⟩
    rwa [barGo, hg]
  case arrived =>
    intro f s i hw hmay hg hv hr hp
    obtain ⟨x, hframe, hpast, hx⟩ := advance_ends hmay.here 1
    refine ⟨_, x, exec_bar_fresh hmay.here (o := .barw f) (by simp) hw hmay, ?_, hpast, hx⟩
    have hfresh : barFresh f s i (.barw f) = advance i 1 := if_pos hp
    rwa [barGo_true hg hv hr, hfresh]

/-! ## Special registers -/

/-- A table listed by its keys. -/
theorem mGet_map_keys {α : Type} (d : α) (ls : List Nat) (f : Nat → α) {l : Nat} (h : l ∈ ls) :
    mGet d (ls.map fun j => (j, f j)) l = f l := by
  induction ls with
  | nil => cases h
  | cons j ls ih =>
    by_cases e : l = j
    · subst e; simp [mGet, mLook]
    · simpa [mGet, mLook, e] using ih ((List.mem_cons.1 h).resolve_left e)

/-- A reseed sets the lane states and the state of the warp (R142). -/
theorem reseed_eq (a : Launch) (b : Nat) (x : Warp) : reseed a b x =
    { x with lanesRand := (reseed a b x).lanesRand
             warpRand := srSeed (BitVec.ofNat 64 (workId a b x.num 0)) (x.nstat >>> 16) 0xBB67AE85 } := by
  simp only [reseed, nsSeed]
theorem lanesRand_reseed (a : Launch) (b : Nat) (x : Warp) {l : Nat} (h : l < 32) : mGet 0 (reseed a b x).lanesRand l =
    srSeed (BitVec.ofNat 64 (workId a b x.num l)) (x.nstat >>> 16) 0x6A09E667 :=
  mGet_map_keys 0 (List.range 32) (fun l => srSeed (BitVec.ofNat 64 (workId a b x.num l)) (x.nstat >>> 16) 0x6A09E667)
    (List.mem_range.2 h)

/-- Settles O18: `srd` writes one scalar register or pair, `swr` the warp and its block, `nclr` the warp. -/
theorem specialRegisterInstructionsComplete : Obligations.SpecialRegisterInstructionsComplete := by
  unfold Obligations.SpecialRegisterInstructionsComplete
  refine ⟨?srd, ?swr, ?nclr⟩
  case srd =>
    intro f s i n w hlo hhi h64 hmay
    have hchk : chkAll (!w || !(decide (448 ≤ n) && decide (n ≤ 463)) || specialIs64 n)
        ((decide (448 ≤ n) && decide (n ≤ 463)) && decide (450 ≤ n) && sOk i f.b.toNat (span w)) =
        chkAll true (sOk i f.b.toNat (span w)) := by
      have hw : (!w || specialIs64 n) = true := by
        cases h : w with
        | false => rfl
        | true => simp [h64 h]
      simp [show 448 ≤ n by omega, hhi, hlo, hw]
    have hact := fun a => (congrArg (gated s i · { sw := regs f.b.toNat w, shadow := true, act := guardScalar i f.gp f.gn } 0 a) hchk).trans
      (gated_of_mayRun hmay a)
    cases hg : guardScalar i f.gp f.gn with
    | false =>
      obtain ⟨x, hframe, hpast, hx⟩ := advance_ends hmay.here 1
      refine ⟨_, x, atIssue_act hmay.here ((hact _).trans ?_), hframe, hpast, by rw [hx], fun h => absurd h (by simp),
        fun q _ => sR_congr (by rw [hx]) q⟩
      rw [hg]; rfl
    | true =>
      obtain ⟨x, hframe, hpast, hx, hval, hrest⟩ := putScalar_ends hmay.here w f.b.toNat (special s i n 0) 1
      refine ⟨_, x, atIssue_act hmay.here ((hact _).trans ?_), hframe, hpast, hx, fun _ => hval,
        fun q hq => hrest q (hq.resolve_left (by simp))⟩
      rw [hg]; rfl
  case swr =>
    intro f s i v seed hmay
    have hact := gated_of_mayRun hmay
    obtain ⟨-, hw, -, hb, -⟩ := issuer_spec hmay.here
    refine ⟨fun hg => ?_, fun hg => ?_⟩
    · obtain ⟨x, hx, ex, hpast⟩ := after_updWarp_advance (t := after (updBlock i.warp.block fun b =>
          { b with bstat := b.bstat ||| v.truncate 8 }) s) (i := i) (x := i.warp) (by rw [after_updBlock hb]; exact hw)
        (fun x => reseed i.lau i.blk.b { x with nstat := v }) (unmoved_issuer hmay.here rfl) 1
      rw [← after_andThen, after_updBlock hb] at hx
      refine ⟨_, x, (atIssue_act hmay.here ((hact _).trans ?_)).trans (congrArg _ hx), rfl, mLook_mIns_self .., hpast,
        fun w hw => mLook_mIns_ne _ _ hw, ?_, fun l hl => ?_, mLook_mIns_self .., fun c hc => mLook_mIns_ne _ _ hc⟩
      · rw [hg]; rfl
      · rw [ex]
        exact congrArg (fun z : Warp => { z with strands := x.strands }) (reseed_eq i.lau i.blk.b { i.warp with nstat := v })
      · rw [ex]
        exact lanesRand_reseed i.lau i.blk.b { i.warp with nstat := v } hl
    · obtain ⟨x, hframe, hpast, hx⟩ := advance_ends hmay.here 1
      refine ⟨_, x, atIssue_act hmay.here ((hact _).trans ?_), hframe, hpast, hx⟩
      rw [hg]; rfl
  case nclr =>
    intro f s i reg m hmay
    have hact := gated_of_mayRun hmay
    obtain ⟨-, hw, -⟩ := issuer_spec hmay.here
    cases hg : guardScalar i f.gp f.gn with
    | false =>
      obtain ⟨x, hx, ex, hpast⟩ := after_advance hw (unmoved_issuer hmay.here rfl) 1
      refine ⟨_, x, (atIssue_act hmay.here ((hact _).trans ?_)).trans (congrArg _ hx), rfl, mLook_mIns_self .., hpast,
        fun w hw => mLook_mIns_ne _ _ hw, ex⟩
      rw [hg]; rfl
    | true =>
      obtain ⟨x, hx, ex, hpast⟩ := after_updWarp_advance hw (fun x => { x with nstat := x.nstat &&& ~~~m })
        (unmoved_issuer hmay.here rfl) 1
      refine ⟨_, x, (atIssue_act hmay.here ((hact _).trans ?_)).trans (congrArg _ hx), rfl, mLook_mIns_self .., hpast,
        fun w hw => mLook_mIns_ne _ _ hw, ex⟩
      rw [hg]; rfl

/-! ## `mark` and `brk` -/

/-- A trace record leaves all but the trace unit of its core as it was. -/
theorem RegisterFrame.traceNote {s t : State} {w b : Nat} {x : Warp} (h : RegisterFrame s t w b x) (c : Nat) (r : TraceRecord) :
    RegisterFrame s (after (traceNote c r) t) w b x := by
  have hframe := only_of_each (ts := [.cores]) (each_traceNote (c := c) (r := r) (by simp [Effect.table])) t
  refine ⟨?_, by rw [hframe.warps (by simp)]; exact h.self, fun v hv => by rw [hframe.warps (by simp)]; exact h.warps v hv,
    fun d hd => by rw [hframe.blocks (by simp)]; exact h.blocks d hd, fun y hy => by rw [hframe.blocks (by simp)]; exact h.block y hy,
    fun d => ?_, fun y hy => h.bad y (by rwa [hframe.bad (by simp)] at hy)⟩
  · have hrest := h.rest
    have ht := hframe.eq
    simp at ht
    rw [ht, hrest]
  · rw [coreOf_traceNote, h.cores]

/-- The record stands in the stream of a trace unit that is on. -/
theorem tracer_traceNote {s : State} {c : Nat} {y : Tracer} (h : (coreOf s c).tracer = some y) (hon : y.on = true) (r : TraceRecord) :
    (coreOf (after (traceNote c r) s) c).tracer = some { y with stream := y.stream ++ [r] } := by
  simp only [after, traceNote, h]
  rw [hon, if_pos rfl]
  exact congrArg Core.tracer (mGet_mIns_self ..)

/-- A strand that may take a trap now is not held back by its other part (R34). -/
theorem splitReady_of_trapNow {i : Iss} (h : TrapNow i) : (!i.st.shadow.isEmpty && i.st.target.isNone) = false := by
  rcases h with h | h
  · simp [h]
  · cases ht : i.st.target with
    | none => rw [ht] at h; cases h
    | some _ => simp

/-- What `brk` does at its issue (R409). -/
theorem exec_brk {f : CFields} {s : State} {i : Iss} (hmay : MayRun s i none {} 0) (hw : i.st.wait ≠ .debugStop) :
    exec (.brk f) s = .next (after (if !guardScalar i f.gp f.gn then advance i 1
      else if !i.ctx.debugStop then takeTrap i (trapHere i .brk)
      else if !i.st.shadow.isEmpty && i.st.target.isNone then stall i 11
      else andThen (updMgmt fun m => { m with stops := m.stops ++ [stopBytes i] }) (andThen (waitWith i .debugStop) bump)) s) := by
  refine atIssue_act hmay.here ?_
  split
  · exact absurd ‹_› hw
  · exact gated_of_mayRun hmay _

/-- Settles O19: a mark is one trace record, a debug stop one entry of the controller's stops. -/
theorem markAndDebugStopComplete : Obligations.MarkAndDebugStopComplete := by
  unfold Obligations.MarkAndDebugStopComplete
  refine ⟨?mark, ?brk⟩
  case mark =>
    intro f s i val hmay
    have hact := gated_of_mayRun hmay
    cases hg : guardScalar i f.gp f.gn with
    | false =>
      obtain ⟨x, hframe, hpast, hx⟩ := advance_ends hmay.here 1
      refine ⟨_, x, atIssue_act hmay.here ((hact _).trans ?_), hframe, hpast, hx, fun y _ h => absurd h (by simp)⟩
      rw [hg]; rfl
    | true =>
      let r : TraceRecord := .marker (f.disp.toNat % 65536) (if val then sR i.warp f.a.toNat else 0) (pcOf i.st)
        (cycleOf s i.core) (lowName i)
      obtain ⟨x, hframe, hx, hpast⟩ := ((RegisterFrame.atIssue hmay.here).traceNote i.core r).advance
        (unmoved_issuer hmay.here rfl) 1
      rw [← after_andThen] at hframe
      refine ⟨_, x, atIssue_act hmay.here ((hact _).trans ?_), hframe, hpast, hx, fun y hy _ hon => ?_⟩
      · rw [hg]; rfl
      · rw [after_andThen]
        have hcores := (only_of_each (ts := [.warps, .epoch]) (each_advance (i := i) (n := 1) (by simp [Effect.table])
          (by simp [Effect.table])) (after (traceNote i.core r) s)).cores (by simp)
        simp only [coreOf, hcores]
        exact tracer_traceNote hy hon r
  case brk =>
    intro f s i hmay hw
    have hexec := exec_brk (f := f) hmay hw
    refine ⟨fun hg => ?_, fun hg hdbg hnow => ?_⟩
    · obtain ⟨x, hframe, hpast, hx⟩ := advance_ends hmay.here 1
      refine ⟨_, x, hexec.trans ?_, hframe, hpast, hx⟩
      rw [hg]; rfl
    · obtain ⟨-, hwarp, hst, -⟩ := issuer_spec hmay.here
      let u : State := { s with mgmt := { s.mgmt with stops := s.mgmt.stops ++ [stopBytes i] } }
      let x := onStrand i.k (fun t => { t with idleAt := s.epoch, wait := .debugStop }) i.warp
      have hafter : after (andThen (updMgmt fun m => { m with stops := m.stops ++ [stopBytes i] })
          (andThen (waitWith i .debugStop) bump)) s = { u with warps := mIns s.warps i.w x, epoch := s.epoch + 1 } := by
        rw [after_andThen, after_updMgmt, after_andThen, after_waitWith (t := u) (i := i) hwarp, after_bump]
      rw [hg, hdbg, splitReady_of_trapNow hnow] at hexec
      exact ⟨_, x, hexec.trans (congrArg _ hafter), rfl, fun v hv => mLook_mIns_ne _ _ hv, mLook_mIns_self ..,
        onStrand_eq .., onStrand_here hst⟩

end Sys2Proof.Machine

namespace Sys2Proof.Machine

/-! SUPPORT. Forks and joins (02_execution_model R19, R20, R23): the strands and the record that a fork leaves, and the
values that a join takes from either arm. -/

/-! ## Fork records -/

theorem prune_eq (x : Warp) : prune x = { x with forks := (prune x).forks } := rfl

/-- A record that a strand of the table still names stays. -/
theorem mLook_prune {x : Warp} {n : Nat} {k : Fork} (h : mLook x.forks n = some k) {j : Nat} {t : Strand}
    (ht : mLook x.strands j = some t) (hn : t.cont = some n ∨ t.arm.map (·.1) = some n) :
    mLook (prune x).forks n = some k := by
  refine mLook_filter h ?_
  rw [Bool.or_eq_true, List.any_eq_true]
  exact .inl ⟨t, by simp [mem_mVals ht], by simpa using hn⟩

/-- The warp whose strand has become one arm of a fork, in its own entry. -/
def inPlace (i : Iss) (f : Fork) (phase : Phase) (side : Bool) (pc : DWord) (x : Warp) : Warp :=
  prune { x with
    forks := mIns x.forks x.nextFork { f with phase := phase }
    nextFork := x.nextFork + 1
    strands := mIns x.strands i.k (renewed i.st (armAt f side).lanes pc (some (x.nextFork, side)) none) }

theorem inPlace_record (i : Iss) (f : Fork) (p : Phase) (sd : Bool) (pc : DWord) (x : Warp) :
    mLook (inPlace i f p sd pc x).forks x.nextFork = some { f with phase := p } :=
  mLook_prune (mLook_mIns_self ..) (j := i.k) (mLook_mIns_self ..) (.inr rfl)

/-- The strands of a fork in the strand's own entry and two free ones. -/
def threeStrands (i : Iss) (x : Warp) (k1 k2 : Nat) (t e : Mask) (next lelse ljoin : DWord) : Map Strand :=
  mIns (mIns (mIns x.strands i.k { renewed i.st t next (some (x.nextFork, false)) none with
        depth := i.st.depth + 1, age := x.nextAge })
      k1 { renewed i.st e lelse (some (x.nextFork, true)) none with depth := i.st.depth + 1, age := x.nextAge + 1 })
    k2 { renewed i.st i.lanes ljoin i.st.arm (some x.nextFork) with age := x.nextAge + 2 }

/-- The warp after a fork that makes three strands. -/
def forked (i : Iss) (f : Fork) (k1 k2 : Nat) (next : DWord) (x : Warp) : Warp :=
  prune { x with
    forks := mIns x.forks x.nextFork f
    nextFork := x.nextFork + 1
    nextAge := x.nextAge + 3
    strands := threeStrands i x k1 k2 f.t.lanes f.e.lanes next f.lelse f.ljoin }

theorem forked_record (i : Iss) (f : Fork) (k1 k2 : Nat) (next : DWord) (x : Warp) :
    mLook (forked i f k1 k2 next x).forks x.nextFork = some f :=
  mLook_prune (mLook_mIns_self ..) (j := k2) (mLook_mIns_self ..) (.inl rfl)

theorem mem_of_pick {α : Type} {xs : List α} {c : Nat} {a : α} (h : pick xs c = some a) : a ∈ xs :=
  List.mem_of_getElem? h

theorem freeEntries_nodup (s : State) (core sub : Nat) : (freeEntries s core sub).Nodup :=
  List.Pairwise.filter _ List.nodup_range

/-- Counting a serialised fork changes cores alone. -/
theorem only_countFork (c : Nat) (s : State) : Only [.cores] s (after (countFork c) s) :=
  only_of_each (each_andThen (each_updCore (by simp [Effect.table])) (each_look fun _ => each_look fun _ => by
    split
    · exact each_traceTurn (by simp [Effect.table])
    · exact each_skip)) s
theorem forkEvents_countFork {s : State} {w : Nat} {x : Warp} (h : mLook s.warps w = some x) (c : Nat) :
    (coreOf (after (countFork c) s) c).forkEvents = (coreOf s c).forkEvents + 1 := by
  let u : State := { s with cores := mIns s.cores c { coreOf s c with forkEvents := (coreOf s c).forkEvents + 1 } }
  have hframe := (RegisterFrame.refl (s := u) (b := x.block) h).traceTest c fun y => y.counts.contains (0, (coreOf u c).forkEvents)
  have hcore : coreOf u c = { coreOf s c with forkEvents := (coreOf s c).forkEvents + 1 } := mGet_mIns_self ..
  rw [countFork, after_andThen, after_updCore, after_look]
  exact (congrArg Core.forkEvents (hframe.cores c)).trans (congrArg Core.forkEvents hcore)

/-- The record (Ljoin, T, E) of a fork (R19). -/
def forkRecord (i : Iss) (f : CFields) : Fork :=
  let t := i.lanes &&& maskOf (pR i.warp f.a.toNat)
  let e := i.lanes &&& ~~~t
  ⟨labelAt i (joinDisp f), labelAt i f.disp.toInt, ⟨t, t, [], []⟩, ⟨e, e, [], []⟩, .split, i.st.arm, i.lanes⟩

/-- The strand goes on as one arm of the fork. -/
def goInPlace (i : Iss) (f : CFields) (p : Phase) (sd : Bool) (pc : DWord) : Act :=
  andThen (updWarp i.w (inPlace i (forkRecord i f) p sd pc)) bump
/-- The same as the then-arm of a serialised fork, which is counted. -/
def goSerial (i : Iss) (f : CFields) : Act :=
  andThen (goInPlace i f .runThen false (nextHeader i.st.pc i.st.hdr)) (countFork i.core)

/-- There is room for a fork record. -/
def forkRoom (s : State) (i : Iss) : Prop := stackDepth i.warp < 64 ∨ areaWritable s i.ctx i.ctx.save.toNat 4 = true
/-- `a` with room for the record, else CONT. -/
def withRoom (s : State) (i : Iss) (a : Act) : Act :=
  if 64 ≤ stackDepth i.warp && !areaWritable s i.ctx i.ctx.save.toNat 4 then trapLanes i .cont i.lanes i.ctx.save.toNat 0 else a
theorem withRoom_of_room {s : State} {i : Iss} (h : forkRoom s i) (a : Act) : withRoom s i a = a := by
  refine if_neg ?_
  rcases h with h | h
  · simp; omega
  · simp [h]

/-- The way a fork goes, in the order in which R19 and R20 ask. -/
def forkWay (s : State) (i : Iss) (f : CFields) : Act :=
  let next := nextHeader i.st.pc i.st.hdr
  let free := freeEntries s i.core i.warp.sub
  if (forkRecord i f).e.lanes = 0 then withRoom s i (goInPlace i f .only false next)
  else if (forkRecord i f).t.lanes = 0 then withRoom s i (goInPlace i f .only true (labelAt i f.disp.toInt))
  else match pick free (choice s 1) with
    | none => withRoom s i (goSerial i f)
    | some k1 => match pick (free.erase k1) (choice s 2) with
      | none => withRoom s i (goSerial i f)
      | some k2 =>
        if Config.strandsPerWarp < i.warp.strands.length + 2 || decide (i.st.depth = Config.maxDepth) then
          withRoom s i (goSerial i f)
        else andThen (updWarp i.w (forked i (forkRecord i f) k1 k2 next)) bump

/-- A fork whose guard holds goes one of its ways. -/
theorem exec_fork {s : State} {i : Iss} {f : CFields} (hmay : MayRun s i (chkAll true (pOk f.a.toNat))
      { pr := [f.a.toNat], po := [f.a.toNat], mem := true, shadow := true, act := guardScalar i f.gp f.gn } 0)
    (hg : guardScalar i f.gp f.gn = true) (hreg : regionLanes i &&& i.lanes = 0) :
    exec (.fork f) s = .next (after (forkWay s i f) s) := by
  refine atIssue_act hmay.here ((gated_of_mayRun hmay _).trans ?_)
  rw [hg]
  exact noRegion_of_none hreg ..

theorem forkWay_serial {s : State} {i : Iss} {f : CFields} (hroom : forkRoom s i) (ht : (forkRecord i f).t.lanes ≠ 0)
    (he : (forkRecord i f).e.lanes ≠ 0)
    (hfew : (∀ k1, pick (freeEntries s i.core i.warp.sub) (choice s 1) = some k1 →
        pick ((freeEntries s i.core i.warp.sub).erase k1) (choice s 2) = none) ∨
      Config.strandsPerWarp < i.warp.strands.length + 2 ∨ i.st.depth = Config.maxDepth) :
    forkWay s i f = goSerial i f := by
  rw [forkWay, if_neg he, if_neg ht]
  simp only [withRoom_of_room hroom]
  split
  · rfl
  · next k1 h1 =>
    split
    · rfl
    · next k2 h2 =>
      refine if_pos ?_
      rcases hfew with h | h
      · rw [h k1 h1] at h2; cases h2
      · simpa using h

/-- Settles O10: the four ways a fork ends, each the branch of `forkWay` that its premises choose. -/
theorem forkCompletes : Obligations.ForkCompletes := by
  unfold Obligations.ForkCompletes
  intro f s i m t e n next rec_ free room hmay
  obtain ⟨-, hw, hst, -⟩ := issuer_spec hmay.here
  refine ⟨fun hg => ?never, fun hg hreg => ⟨fun k1 k2 hk1 hk2 hne1 hne2 ht he hlen hdep => ?split, fun hroom ht he hfew => ?serial,
    fun hroom hone => ?one⟩⟩
  case never =>
    obtain ⟨x, hframe, hstands, hx⟩ := fallThrough_ends hmay.here
    refine ⟨_, x, atIssue_act hmay.here ((gated_of_mayRun hmay _).trans ?_), hframe, hstands, hx⟩
    rw [hg]; rfl
  case split =>
    have hne : k2 ≠ k1 := ((freeEntries_nodup ..).mem_erase_iff.1 (mem_of_pick hk2)).1
    have hway : forkWay s i f = andThen (updWarp i.w (forked i (forkRecord i f) k1 k2 next)) bump := by
      have hk2' : pick ((freeEntries s i.core i.warp.sub).erase k1) (choice s 2) = some k2 := hk2
      have he' : (forkRecord i f).e.lanes ≠ 0 := he
      have ht' : (forkRecord i f).t.lanes ≠ 0 := ht
      rw [forkWay, if_neg he', if_neg ht']
      simp only [show pick (freeEntries s i.core i.warp.sub) (choice s 1) = some k1 from hk1, hk2']
      exact if_neg (by simp [hdep]; omega)
    have hframe := ((RegisterFrame.atIssue hmay.here).updWarp (forked i (rec_ .split) k1 k2 next)).bump
    rw [← after_andThen] at hframe
    refine ⟨_, _, (exec_fork hmay hg hreg).trans (by rw [hway]; rfl), hframe, rfl, forked_record .., ?_, ?_,
      mLook_mIns_self .., fun k h0 h1 h2 => ?_⟩
    · exact (mLook_mIns_ne _ _ (Ne.symm hne2)).trans ((mLook_mIns_ne _ _ (Ne.symm hne1)).trans (mLook_mIns_self ..))
    · exact (mLook_mIns_ne _ _ (Ne.symm hne)).trans (mLook_mIns_self ..)
    · exact (mLook_mIns_ne _ _ h2).trans ((mLook_mIns_ne _ _ h1).trans (mLook_mIns_ne _ _ h0))
  case serial =>
    let x := inPlace i (forkRecord i f) .runThen false next i.warp
    let u : State := { s with warps := mIns s.warps i.w x, epoch := s.epoch + 1 }
    have hafter : after (goSerial i f) s = after (countFork i.core) u := by
      rw [goSerial, goInPlace, after_andThen, after_andThen, after_updWarp hw, after_bump]
    have honly := only_countFork i.core u
    rw [← hafter] at honly
    refine ⟨_, x, (exec_fork hmay hg hreg).trans (by rw [forkWay_serial hroom ht he hfew]), ?_, ?_, fun v hv => ?_, ?_, rfl,
      inPlace_record .., mLook_mIns_self .., fun k hk => mLook_mIns_ne _ _ hk⟩
    · rw [eq_of_only_cores honly]
    · rw [honly.warps (by simp)]; exact mLook_mIns_self ..
    · rw [honly.warps (by simp)]; exact mLook_mIns_ne _ _ hv
    · rw [hafter]; exact forkEvents_countFork (mLook_mIns_self ..) i.core
  case one =>
    by_cases he : e = 0
    · have hframe := ((RegisterFrame.atIssue hmay.here).updWarp (inPlace i (forkRecord i f) .only false next)).bump
      rw [← after_andThen] at hframe
      have hway : forkWay s i f = goInPlace i f .only false next := (if_pos he).trans (withRoom_of_room hroom _)
      refine ⟨_, _, (exec_fork hmay hg hreg).trans (by rw [hway]; rfl), hframe, rfl, inPlace_record .., ?_,
        fun k hk => mLook_mIns_ne _ _ hk⟩
      rw [if_pos he]; exact mLook_mIns_self ..
    · have hframe := ((RegisterFrame.atIssue hmay.here).updWarp (inPlace i (forkRecord i f) .only true (labelAt i f.disp.toInt))).bump
      rw [← after_andThen] at hframe
      have hway : forkWay s i f = goInPlace i f .only true (labelAt i f.disp.toInt) :=
        (if_neg he).trans ((if_pos (hone.resolve_right he)).trans (withRoom_of_room hroom _))
      refine ⟨_, _, (exec_fork hmay hg hreg).trans (by rw [hway]; rfl), hframe, rfl, inPlace_record .., ?_,
        fun k hk => mLook_mIns_ne _ _ hk⟩
      rw [if_neg he]; exact mLook_mIns_self ..

/-! ## Joins -/

/-- The values that a join gives the lanes of `g`: of each lane that ran on a side, that side's source. -/
def joinValues (i : Iss) (f : VFields) (k : Fork) (g : Mask) : List (Nat × Nat) :=
  (lanesIn g).filterMap fun l => (sideOf k l).map fun sd =>
    (l, vVal i.warp (tyWide f.ty) (if sd then f.b.toNat else f.a.toNat) l)

theorem putLanes_joinValues (i : Iss) (f : VFields) (k : Fork) (ls : List Nat) (x : Warp) :
    ls.foldl (fun y l => match sideOf k l with
      | some sd => setVal y (tyWide f.ty) f.d.toNat l (vVal i.warp (tyWide f.ty) (if sd then f.b.toNat else f.a.toNat) l)
      | none => y) x =
    putLanes x (tyWide f.ty) f.d.toNat (ls.filterMap fun l => (sideOf k l).map fun sd =>
      (l, vVal i.warp (tyWide f.ty) (if sd then f.b.toNat else f.a.toNat) l)) := by
  induction ls generalizing x with
  | nil => rfl
  | cons l ls ih =>
    rw [List.foldl_cons, ih, List.filterMap_cons]
    cases sideOf k l <;> rfl

theorem mem_joinValues {i : Iss} {f : VFields} {k : Fork} {g : Mask} {o : Nat × Nat} (h : o ∈ joinValues i f k g) :
    o.1 < 32 ∧ hasLane g o.1 = true := by
  obtain ⟨l, hl, he⟩ := List.mem_filterMap.1 h
  obtain ⟨sd, -, rfl⟩ := Option.map_eq_some_iff.1 he
  exact mem_lanesIn.1 hl

theorem joinValues_nodup (i : Iss) (f : VFields) (k : Fork) (g : Mask) : ((joinValues i f k g).map (·.1)).Nodup := by
  have hsub : ∀ ls : List Nat, ((ls.filterMap fun l => (sideOf k l).map fun sd =>
      (l, vVal i.warp (tyWide f.ty) (if sd then f.b.toNat else f.a.toNat) l)).map (·.1)).Sublist ls := by
    intro ls
    induction ls with
    | nil => exact List.Sublist.refl _
    | cons l ls ih =>
      rw [List.filterMap_cons]
      cases sideOf k l with
      | none => exact ih.cons _
      | some sd => exact ih.cons_cons _
  exact (lanesIn_nodup g).sublist (hsub _)

theorem vVal_lt (x : Warp) (w : Bool) (r l : Nat) : vVal x w r l < 2 ^ (32 * span w) := by
  have h1 := (vR x r l).isLt
  have h2 := (vR x (r + 1) l).isLt
  cases w
  · simpa [vVal, span] using h1
  · simp only [vVal, span, if_true]; omega

/-- Of a lane that ran on a side, the arm it ran in. -/
theorem sideOf_of_ran {k : Fork} {l : Nat} (h : hasLane (k.t.lanes ||| k.e.lanes) l = true) :
    sideOf k l = some (!hasLane k.t.lanes l) := by
  simp only [sideOf, hasLane_or, Bool.or_eq_true] at h ⊢
  by_cases ht : hasLane k.t.lanes l = true
  · simp [ht]
  · simp [ht, h.resolve_left ht]

/-- Settles O11: a join is one write of the values of the lanes that ran. -/
theorem joinsComplete : Obligations.JoinsComplete := by
  unfold Obligations.JoinsComplete
  refine ⟨?values, ?predicates⟩
  case values =>
    intro f s i k g w hcont hmay hready hreg
    let put (x : Warp) : Warp := (lanesIn g).foldl (fun y l => match sideOf k l with
      | some sd => setVal y (tyWide f.ty) f.d.toNat l (vVal i.warp (tyWide f.ty) (if sd then f.b.toNat else f.a.toNat) l)
      | none => y) x
    have hF : put i.warp = putLanes i.warp w f.d.toNat (joinValues i f k g) := putLanes_joinValues ..
    have hP := putLanes_eq i.warp w f.d.toNat (joinValues i f k g)
    obtain ⟨x, hframe, hpast, hx⟩ := predWrite_ends hmay.here put (by rw [hF, hP]) (by rw [hF, hP]) (joinUses i f k) g 1
    have hv : x.v = (putLanes i.warp w f.d.toNat (joinValues i f k g)).v := by rw [hx, hF]
    refine ⟨_, x, atIssue_act hmay.here ?_, hframe, hpast, by rw [hx, hF, hP], fun l _ hg sd hsd => ?_,
      fun q l hl hq => ?_, fun l _ => by rw [hx, hF, hP], fun l _ => by rw [hx, hF, hP]⟩
    · simp only [hcont]
      refine (gated_of_mayRun hmay _).trans ?_
      rw [hready]
      exact noRegion_of_none hreg ..
    · rw [vVal_congr hv]
      refine (vVal_putLanes i.warp w f.d.toNat _ (fun o ho => (mem_joinValues ho).1) (joinValues_nodup ..)
        (o := (l, vVal i.warp w (if sd then f.b.toNat else f.a.toNat) l)) ?_).trans (Nat.mod_eq_of_lt (vVal_lt ..))
      exact List.mem_filterMap.2 ⟨l, mem_lanesIn.2 ⟨hasLane_lt hg, hg⟩, by rw [hsd]; rfl⟩
    · rw [vR_congr hv]
      refine vR_putLanes_ne _ _ _ _ hl (fun o ho => (mem_joinValues ho).1) (hq.symm.imp id fun h o ho e => ?_)
      rw [← e, (mem_joinValues ho).2] at h; cases h
  case predicates =>
    intro f s i k g hcont hmay hready hreg hran
    let b (l : Nat) : Bool := pR i.warp (if hasLane k.t.lanes l then f.a.toNat else f.b.toNat) l
    let put (x : Warp) : Warp := (lanesIn g).foldl (fun y l => match sideOf k l with
      | some sd => setP y f.d.toNat l (pR i.warp (if sd then f.b.toNat else f.a.toNat) l)
      | none => y) x
    have hF : put i.warp = (lanesIn g).foldl (fun y l => setP y f.d.toNat l (b l)) i.warp := by
      refine foldl_congr_mem _ _ fun y l hl => ?_
      obtain ⟨hlt, hlg⟩ := mem_lanesIn.1 hl
      have hr : hasLane (k.t.lanes ||| k.e.lanes) l = true := by
        have h0 : hasLane (g &&& ~~~(k.t.lanes ||| k.e.lanes)) l = false := by rw [hran]; exact hasLane_zero l
        rwa [hasLane_and, hlg, hasLane_not hlt, Bool.true_and, Bool.not_eq_false'] at h0
      rw [sideOf_of_ran hr]
      cases h : hasLane k.t.lanes l <;> simp [b, h]
    have hP := foldl_setP_eq (lanesIn g) f.d.toNat b i.warp
    obtain ⟨x, hframe, hpast, hx⟩ := predWrite_ends hmay.here put (by rw [hF, hP]) (by rw [hF, hP]) (joinpUses f) g 1
    refine ⟨_, x, atIssue_act hmay.here ?_, hframe, hpast, by rw [hx, hF, hP], predWrite_foldl (by rw [hx, hF])⟩
    simp only [hcont]
    refine (gated_of_mayRun hmay _).trans ?_
    rw [hready]
    exact noRegion_of_none hreg ..

end Sys2Proof.Machine

namespace Sys2Proof.Machine

/-! SUPPORT. Arrivals at a barrier and what settles with them (23_ref_sync_launch R364 to R367). -/

/-- Whether a phase is done depends on the live lanes of the warps it covers alone. -/
theorem phaseDone_congr {s t : State} (h : ∀ w, liveOf t w = liveOf s w) (ws : List Nat) (b : Barrier) :
    phaseDone t ws b = phaseDone s ws b := by
  unfold phaseDone
  split
  · rfl
  · simp only [h]
  · rfl
theorem settled_congr {s t : State} (h : ∀ w, liveOf t w = liveOf s w) (ws : List Nat) (m : Map Barrier) :
    settled t ws m = settled s ws m := by simp only [settled, phaseDone_congr h]

/-- The value of a key after every value of a table is changed by `f`. -/
theorem mLook_mapAll {α : Type} (m : Map α) (f : α → α) (n : Nat) : mLook (m.map fun e => (e.1, f e.2)) n = (mLook m n).map f := by
  induction m with
  | nil => rfl
  | cons e m ih =>
    by_cases h : n = e.1
    · simp [mLook, h]
    · simpa [mLook, h] using ih

/-- One barrier of a table that has settled. -/
theorem mGet_settled (s : State) (ws : List Nat) (m : Map Barrier) (n : Nat) : mGet {} (settled s ws m) n =
    if phaseDone s ws (mGet {} m n) then nextPhase (mGet {} m n) else mGet {} m n := by
  rw [mGet, settled, mLook_mapAll m (fun b => if phaseDone s ws b then nextPhase b else b), mGet]
  cases mLook m n <;> rfl

/-- The warps of a group depend on its blocks alone. -/
theorem groupWarps_congr {s t : State} {g : Group}
    (h : ∀ b, (mLook t.blocks b).map (fun x => (x.completed, x.warps)) = (mLook s.blocks b).map fun x => (x.completed, x.warps)) :
    groupWarps t g = groupWarps s g := by
  unfold groupWarps
  congr 1
  funext b
  have hb := h b
  cases ht : mLook t.blocks b <;> cases hs : mLook s.blocks b <;> rw [ht, hs] at hb <;> simp_all

theorem after_updGroup_none {g : Nat} {f : Group → Group} {s : State} (h : mLook s.groups g = none) :
    after (updGroup g f) s = s := by simp only [after, updGroup, h, applyAll_nil]

/-- What settling the barriers of block `b` leaves: its own barriers and those of its group settled, nothing else. -/
structure Settled (t v : State) (n : Nat) (b : Block) : Prop where
  rest : v = { t with blocks := v.blocks, groups := v.groups, epoch := v.epoch }
  block : mLook v.blocks n = some { b with bars := settled t b.warps b.bars }
  blocks : ∀ c, c ≠ n → mLook v.blocks c = mLook t.blocks c
  group : ∀ g, mLook t.groups b.group = some g →
    mLook v.groups b.group = some { g with bars := settled t (groupWarps t g) g.bars }
  groups : ∀ c, c ≠ b.group → mLook v.groups c = mLook t.groups c

theorem settleBars_settled {t : State} {n : Nat} {b : Block} (hb : mLook t.blocks n = some b) :
    Settled t (after (settleBars n) t) n b := by
  let u : State := { t with blocks := mIns t.blocks n { b with bars := settled t b.warps b.bars } }
  have hafter : after (settleBars n) t = after bump (after (updGroup b.group fun g =>
      { g with bars := settled t (groupWarps t g) g.bars }) u) := by
    rw [settleBars, after_look]
    simp only [hb]
    rw [after_andThen, after_updBlock hb, after_andThen]
  cases hg : mLook t.groups b.group with
  | none =>
    rw [hafter, after_updGroup_none (s := u) hg, after_bump]
    exact ⟨rfl, mLook_mIns_self .., fun c hc => mLook_mIns_ne _ _ hc, fun g h => absurd (hg.symm.trans h) (by simp), fun c _ => rfl⟩
  | some g =>
    rw [hafter, after_updGroup (s := u) hg, after_bump]
    refine ⟨rfl, mLook_mIns_self .., fun c hc => mLook_mIns_ne _ _ hc, fun g' h => ?_, fun c hc => mLook_mIns_ne _ _ hc⟩
    cases hg.symm.trans h
    exact mLook_mIns_self ..

/-! ## Arrivals -/

/-- What an arrival leaves as it was. -/
def ArrivalFrame (s : State) (i : Iss) (t : State) : Prop :=
  t = { s with warps := t.warps, blocks := t.blocks, groups := t.groups, epoch := t.epoch } ∧
    (∀ v, v ≠ i.w → mLook t.warps v = mLook s.warps v) ∧
    (∀ b, b ≠ i.warp.block → mLook t.blocks b = mLook s.blocks b) ∧
    (∀ g, g ≠ i.blk.group → mLook t.groups g = mLook s.groups g) ∧
    (∃ y, mLook t.blocks i.warp.block = some y ∧ y = { i.blk with bars := y.bars }) ∧
    ∀ g, mLook s.groups i.blk.group = some g → ∃ h, mLook t.groups i.blk.group = some h ∧ h = { g with bars := h.bars }

/-- The strand's own part of an arrival: its warp becomes `x`, its live lanes as they were. -/
structure Steps (s : State) (i : Iss) (a : Act) (x : Warp) : Prop where
  live : x.live = i.warp.live
  run : ∀ u : State, u.warps = s.warps → u.epoch = s.epoch →
    ∃ e, after a u = { u with warps := mIns s.warps i.w x, epoch := e }

theorem steps_waitWith {s : State} {i : Iss} (hi : issuer s = some i) (z : Wait) :
    Steps s i (waitWith i z) (onStrand i.k (fun y => { y with idleAt := s.epoch, wait := z }) i.warp) := by
  obtain ⟨-, hw, -⟩ := issuer_spec hi
  refine ⟨by rw [onStrand_eq], fun u hu he => ⟨u.epoch, ?_⟩⟩
  rw [after_waitWith (by rw [hu]; exact hw), hu, he]
theorem steps_advance {s : State} {i : Iss} (hi : issuer s = some i) (F : Warp → Warp) (hF : (F i.warp).live = i.warp.live) (n : Nat) :
    Steps s i (andThen (updWarp i.w F) (advance i n)) (advanced i n (F i.warp)) := by
  obtain ⟨-, hw, -⟩ := issuer_spec hi
  refine ⟨by rw [advanced, onStrand_eq]; exact hF, fun u hu he => ⟨u.epoch + 1, ?_⟩⟩
  rw [after_andThen, after_updWarp (by rw [hu]; exact hw), after_advance_eq (mLook_mIns_self ..), hu, mIns_mIns]

/-- The lanes that live in a state whose one other warp has kept them. -/
theorem liveOf_mIns {s t : State} {w : Nat} {x y : Warp} (hs : mLook s.warps w = some y) (ht : t.warps = mIns s.warps w x)
    (h : x.live = y.live) (v : Nat) : liveOf t v = liveOf s v := by
  by_cases hv : v = w
  · subst hv; simp [liveOf, ht, hs, h]
  · simp [liveOf, ht, hv]

/-- An arrival that its barrier admits is entered. -/
theorem arriveThen_of_arrives {s : State} {i : Iss} {f : CFields} {cl : Bool} (h : Arrives s i f cl) (a : Act) :
    arriveThen s i cl (barId i f) (barCount i f) a =
      andThen (putBar i cl (barId i f) (arrive s i cl (barCount i f) (barAt s i cl (barId i f))))
        (andThen a (settleBars i.warp.block)) := by
  have hcount : ((barAt s i cl (barId i f)).count.isSome && decide ((barAt s i cl (barId i f)).count ≠ some (barCount i f))) = false := by
    cases hc : (barAt s i cl (barId i f)).count with
    | none => rfl
    | some n => simp [h.count n hc]
  rw [arriveThen, h.quiet, hcount, if_neg (not_not_intro h.fresh)]
  rfl

/-- An arrival at a barrier of the block. -/
theorem arrival_block {s : State} {i : Iss} {f : CFields} (h : Arrives s i f false) {a : Act} {x : Warp} (hx : Steps s i a x) :
    ∃ t y, after (arriveThen s i false (barId i f) (barCount i f) a) s = t ∧ ArrivalFrame s i t ∧ mLook t.warps i.w = some x ∧
      mLook t.blocks i.warp.block = some y ∧ mGet {} y.bars (barId i f) = afterArrival s i f false i.blk.warps ∧
      ∀ n, n ≠ barId i f → mGet {} y.bars n =
        if phaseDone s i.blk.warps (mGet {} i.blk.bars n) then nextPhase (mGet {} i.blk.bars n) else mGet {} i.blk.bars n := by
  obtain ⟨-, hw, -, hb, -⟩ := issuer_spec h.may.here
  let bars := mIns i.blk.bars (barId i f) (arrive s i false (barCount i f) (barAt s i false (barId i f)))
  let b : Block := { i.blk with bars := bars }
  let u : State := { s with blocks := mIns s.blocks i.warp.block b }
  obtain ⟨e, hu⟩ := hx.run u rfl rfl
  let v : State := { u with warps := mIns s.warps i.w x, epoch := e }
  have hafter : after (arriveThen s i false (barId i f) (barCount i f) a) s = after (settleBars i.warp.block) v := by
    have hput : after (putBar i false (barId i f) (arrive s i false (barCount i f) (barAt s i false (barId i f)))) s = u :=
      after_updBlock hb
    rw [arriveThen_of_arrives h, after_andThen, after_andThen, hput, hu]
  have hset : Settled v (after (settleBars i.warp.block) v) i.warp.block b := settleBars_settled (mLook_mIns_self ..)
  generalize after (settleBars i.warp.block) v = z at hset hafter
  have hlive : ∀ w, liveOf v w = liveOf s w := liveOf_mIns (t := v) hw rfl hx.live
  have hbars : settled v b.warps b.bars = settled s i.blk.warps bars := settled_congr hlive _ _
  have hwarps : z.warps = v.warps := by rw [hset.rest]
  refine ⟨_, _, hafter, ⟨hset.rest.trans (by rw [hwarps]), fun w hn => ?_, fun c hc => ?_, fun g hg => ?_, ⟨_, hset.block, rfl⟩, fun g hg => ⟨_, hset.group g hg, rfl⟩⟩,
    ?_, hset.block, ?_, fun n hn => ?_⟩
  · rw [hwarps]; exact mLook_mIns_ne _ _ hn
  · exact (hset.blocks c hc).trans (mLook_mIns_ne _ _ hc)
  · exact hset.groups g hg
  · rw [hwarps]; exact mLook_mIns_self ..
  · simp only [hbars, mGet_settled, bars, mGet_mIns_self]; rfl
  · simp only [hbars, mGet_settled, bars, mGet_mIns_ne _ _ _ hn]

/-- An arrival at a barrier of the block's group. -/
theorem arrival_group {s : State} {i : Iss} {f : CFields} (h : Arrives s i f true) {a : Act} {x : Warp} (hx : Steps s i a x)
    {g : Group} (hg : mLook s.groups i.blk.group = some g) :
    ∃ t y, after (arriveThen s i true (barId i f) (barCount i f) a) s = t ∧ ArrivalFrame s i t ∧ mLook t.warps i.w = some x ∧
      mLook t.groups i.blk.group = some y ∧ mGet {} y.bars (barId i f) = afterArrival s i f true (groupWarps s g) ∧
      ∀ n, n ≠ barId i f → mGet {} y.bars n =
        if phaseDone s (groupWarps s g) (mGet {} g.bars n) then nextPhase (mGet {} g.bars n) else mGet {} g.bars n := by
  obtain ⟨-, hw, -, hb, -⟩ := issuer_spec h.may.here
  let bars := mIns g.bars (barId i f) (arrive s i true (barCount i f) (barAt s i true (barId i f)))
  let g' : Group := { g with bars := bars }
  let u : State := { s with groups := mIns s.groups i.blk.group g' }
  obtain ⟨e, hu⟩ := hx.run u rfl rfl
  let v : State := { u with warps := mIns s.warps i.w x, epoch := e }
  have hafter : after (arriveThen s i true (barId i f) (barCount i f) a) s = after (settleBars i.warp.block) v := by
    have hput : after (putBar i true (barId i f) (arrive s i true (barCount i f) (barAt s i true (barId i f)))) s = u :=
      after_updGroup hg
    rw [arriveThen_of_arrives h, after_andThen, after_andThen, hput, hu]
  have hset : Settled v (after (settleBars i.warp.block) v) i.warp.block i.blk := settleBars_settled hb
  generalize after (settleBars i.warp.block) v = z at hset hafter
  have hlive : ∀ w, liveOf v w = liveOf s w := liveOf_mIns (t := v) hw rfl hx.live
  have hbars : settled v (groupWarps v g') g'.bars = settled s (groupWarps s g) bars := by
    rw [settled_congr hlive, show groupWarps v g' = groupWarps s g from groupWarps_congr (s := s) (t := v) (g := g') fun _ => rfl]
  have hwarps : z.warps = v.warps := by rw [hset.rest]
  have hgroup := hset.group g' (mLook_mIns_self ..)
  refine ⟨_, _, hafter, ⟨hset.rest.trans (by rw [hwarps]), fun w hn => ?_, fun c hc => ?_, fun n hn => ?_, ⟨_, hset.block, rfl⟩, fun k hk => ?_⟩,
    ?_, hgroup, ?_, fun n hn => ?_⟩
  · rw [hwarps]; exact mLook_mIns_ne _ _ hn
  · exact hset.blocks c hc
  · exact (hset.groups n hn).trans (mLook_mIns_ne _ _ hn)
  · cases hg.symm.trans hk
    exact ⟨_, hgroup, rfl⟩
  · rw [hwarps]; exact mLook_mIns_self ..
  · simp only [hbars, mGet_settled, bars, mGet_mIns_self]; rfl
  · simp only [hbars, mGet_settled, bars, mGet_mIns_ne _ _ _ hn]

/-- The lanes of a list take a value in a table keyed by lane. -/
theorem mLook_foldl_mIns {α : Type} (ls : List Nat) (k : Nat → Nat) (a : α) (m : Map α) (n : Nat) :
    mLook (ls.foldl (fun m l => mIns m (k l) a) m) n = if n ∈ ls.map k then some a else mLook m n := by
  induction ls generalizing m with
  | nil => simp
  | cons l ls ih =>
    rw [List.foldl_cons, ih, mLook_mIns]
    by_cases h : n ∈ ls.map k
    · simp only [h, if_true, List.map_cons, List.mem_cons, or_true]
    · simp only [h, if_false, List.map_cons, List.mem_cons, or_false]

/-- Settles O15: each arrival is one change of its barrier, a step of the strand, and what settles with it. -/
theorem barrierArrivals : Obligations.BarrierArrivals := by
  unfold Obligations.BarrierArrivals
  intro f s i hfresh bid p now frame
  refine ⟨fun h => ?bar, fun h g hg => ?cbar, fun h => ?barr⟩
  case bar =>
    obtain ⟨-, -, hst, -⟩ := issuer_spec h.may.here
    obtain ⟨t, y, ht, hframe, hw, hy, hbid, hbars⟩ := arrival_block h (steps_waitWith h.may.here (.barrier false bid (p false)))
    refine ⟨t, _, y, (exec_bar_fresh h.may.here (by simp) hfresh h.may).trans ?_, hframe, hw, onStrand_eq .., onStrand_here hst, hy, hbid, hbars⟩
    rw [barGo_true h.guard h.values h.region, ← ht]; rfl
  case cbar =>
    obtain ⟨-, -, hst, -⟩ := issuer_spec h.may.here
    obtain ⟨t, y, ht, hframe, hw, hy, hbid, hbars⟩ := arrival_group h (steps_waitWith h.may.here (.barrier true bid (p true))) hg
    refine ⟨t, _, y, (exec_bar_fresh h.may.here (by simp) hfresh h.may).trans ?_, hframe, hw, onStrand_eq .., onStrand_here hst, hy, hbid, hbars⟩
    rw [barGo_true h.guard h.values h.region, ← ht]; rfl
  case barr =>
    let F (x : Warp) : Warp := { x with barr := (lanesIn i.lanes).foldl (fun m l => mIns m (32 * bid + l) (p false + 1)) x.barr }
    have hm : Unmoved i (F i.warp) := unmoved_issuer h.may.here rfl
    obtain ⟨t, y, ht, hframe, hw, hy, hbid, hbars⟩ := arrival_block h (steps_advance h.may.here F rfl 1)
    have hbarr : (advanced i 1 (F i.warp)).barr = (F i.warp).barr := by rw [advanced, onStrand_eq]
    refine ⟨t, _, y, (exec_bar_fresh h.may.here (by simp) hfresh h.may).trans ?_, hframe, hw, ?_, past_advanced hm 1,
      fun l hl => ?_, fun n hn => ?_, hy, hbid, hbars⟩
    · rw [barGo_true h.guard h.values h.region, ← ht]; rfl
    · rw [advanced, onStrand_eq]
    · rw [hbarr, mLook_foldl_mIns, if_pos (List.mem_map.2 ⟨l, mem_lanesIn.2 ⟨hasLane_lt hl, hl⟩, rfl⟩)]
    · rw [hbarr, mLook_foldl_mIns, if_neg]
      rintro hmem
      obtain ⟨l, hl, rfl⟩ := List.mem_map.1 hmem
      exact hn l (mem_lanesIn.1 hl).2 rfl

end Sys2Proof.Machine

namespace Sys2Proof.Machine

/-! SUPPORT. Taking a trap and the end of a context (25_traps_faults R383 to R388, 24_program_barrier_watchdog R380). -/

theorem issAt_of_issuer {s : State} {i : Iss} (h : issuer s = some i) : issAt s i.w i.k = some i := by
  obtain ⟨hcur, -⟩ := issuer_spec h
  simpa only [issuer, hcur] using h

theorem issAt_spec {s : State} {w k : Nat} {i : Iss} (h : issAt s w k = some i) : i.w = w ∧ i.k = k ∧
    mLook s.warps w = some i.warp ∧ mLook i.warp.strands k = some i.st ∧ mLook s.blocks i.warp.block = some i.blk ∧
    mLook s.launches i.blk.launch = some i.lau ∧ mLook s.ctxs i.cid = some i.ctx := by
  unfold issAt at h
  split at h <;> try cases h
  next x hx =>
  split at h <;> try cases h
  next t b ht hb =>
  split at h <;> try cases h
  next l c hl hc => exact ⟨rfl, rfl, hx, ht, hb, hl, hc⟩

theorem issAt_of_strandAt {s : State} {w k : Nat} {i : Iss} (h : strandAt s w k = some i) : issAt s w k = some i := by
  rw [strandAt] at h; exact (Option.filter_eq_some_iff.1 h).1

/-! ## The end of a context -/

/-- What stands when the running work of a context has been ended and freed. -/
structure Freed (s t : State) (i : Iss) (diag : List Byte) (fpc : DWord) : Prop where
  records : t.mem = (after (andThen (writeVirt i.ctx i.ctx.diag.toNat diag)
    (forAll (fun (e : Nat × Launch) => look fun u => if doneOk u i.ctx e.2.bytes then
        writeVirt i.ctx (e.2.doneAt + 1) (completionTail 2 (endPennants (blocksOf s i.cid) e).toNat e.2.doneBlocks
          (if some i.blk.launch = some e.1 then fpc else 0))
      else skip) (openLaunches s i.cid))) s).mem
  ctxs : t.ctxs = s.ctxs
  mgmt : t.mgmt = s.mgmt
  blocks : ∀ b y, mLook t.blocks b = some y → y.ctx ≠ i.cid
  warps : ∀ v x, mLook t.warps v = some x → mLook s.warps v = some x

/-- The parts of an end, up to the context's own entry. -/
theorem freed_of_parts (s : State) (i : Iss) (diag : List Byte) (fpc : DWord) :
    Freed s (after (andThen (stopRunning i.cid (blocksOf s i.cid)) <| andThen (writeVirt i.ctx i.ctx.diag.toNat diag) <|
      andThen (forAll (cutLaunch i.ctx (blocksOf s i.cid) (some i.blk.launch) fpc 2) (openLaunches s i.cid)) <|
      andThen (freeHeld i.cid (blocksOf s i.cid)) (freeCores (blocksOf s i.cid))) s) i diag fpc := by
  simp only [after_andThen]
  have h1 := only_stopRunning i.cid (blocksOf s i.cid) s
  have hwarps := @stopRunning_warps i.cid (blocksOf s i.cid) s
  generalize after (stopRunning i.cid (blocksOf s i.cid)) s = s1 at h1 hwarps ⊢
  have h2 := only_writeVirt i.ctx i.ctx.diag.toNat diag s1
  have hmem2 := writeVirt_mem (h1.mem (by simp)) i.ctx i.ctx.diag.toNat diag
  generalize after (writeVirt i.ctx i.ctx.diag.toNat diag) s1 = s2 at h2 hmem2 ⊢
  have h3 := only_cutLaunches i.ctx (blocksOf s i.cid) (some i.blk.launch) fpc 2 (openLaunches s i.cid) s2
  have hmem3 := cutLaunches_mem (bs := blocksOf s i.cid) (u := some i.blk.launch) (p := fpc) (n := 2) (c := i.ctx) (openLaunches s i.cid) hmem2
  generalize after (forAll (cutLaunch i.ctx (blocksOf s i.cid) (some i.blk.launch) fpc 2) (openLaunches s i.cid)) s2 = s3 at h3 hmem3 ⊢
  have h4 := only_freeHeld i.cid (blocksOf s i.cid) s3
  have hblocks := @freeHeld_blocks i.cid (blocksOf s i.cid) s3
  generalize after (freeHeld i.cid (blocksOf s i.cid)) s3 = s4 at h4 hblocks ⊢
  have h5 := only_freeCores (blocksOf s i.cid) s4
  generalize after (freeCores (blocksOf s i.cid)) s4 = s5 at h5 ⊢
  refine ⟨?_, ?_, ?_, fun b y hb hc => ?_, fun v x hv => ?_⟩
  · rw [h5.mem (by simp), h4.mem (by simp), hmem3]
    simp only [ite_self, after_andThen]
  · rw [h5.ctxs (by simp), h4.ctxs (by simp), h3.ctxs (by simp), h2.ctxs (by simp), h1.ctxs (by simp)]
  · rw [h5.mgmt (by simp), h4.mgmt (by simp), h3.mgmt (by simp), h2.mgmt (by simp), h1.mgmt (by simp)]
  · rw [h5.blocks (by simp)] at hb
    obtain ⟨hb3, hnot⟩ := hblocks hb
    rw [h3.blocks (by simp), h2.blocks (by simp), h1.blocks (by simp)] at hb3
    exact hnot (b, y) (List.mem_filter.2 ⟨mem_of_mLook hb3, by simpa using hc⟩) rfl
  · rw [h5.warps (by simp), h4.warps (by simp), h3.warps (by simp), h2.warps (by simp)] at hv
    exact hwarps hv

/-- The context of the issuing strand ends (R380, R340). -/
theorem terminate_ended {s : State} {i : Iss} (hc : mLook s.ctxs i.cid = some i.ctx) (ht : i.ctx.terminated = false) (diag : List Byte)
    (fpc : DWord) : ContextEnded s (after (terminate i.cid diag (some i.blk.launch) fpc 2) s) i diag fpc := by
  have hfreed := freed_of_parts s i diag fpc
  have hafter : after (terminate i.cid diag (some i.blk.launch) fpc 2) s = after (andThen (updCtx i.cid endedContext) <|
      andThen (updMgmt fun m => { m with msi := mIns m.msi 3 (mGet 0 m.msi 3 + 1) }) bump) (after
        (andThen (stopRunning i.cid (blocksOf s i.cid)) <| andThen (writeVirt i.ctx i.ctx.diag.toNat diag) <|
          andThen (forAll (cutLaunch i.ctx (blocksOf s i.cid) (some i.blk.launch) fpc 2) (openLaunches s i.cid)) <|
          andThen (freeHeld i.cid (blocksOf s i.cid)) (freeCores (blocksOf s i.cid))) s) := by
    have hopen : (mLook s.ctxs i.cid).filter (fun c => !c.terminated) = some i.ctx := by
      rw [hc]; simp [ht]
    rw [terminate, after_look, hopen]
    simp only [after_andThen]
  rw [hafter]
  generalize after (andThen (stopRunning i.cid (blocksOf s i.cid)) <| andThen (writeVirt i.ctx i.ctx.diag.toNat diag) <|
    andThen (forAll (cutLaunch i.ctx (blocksOf s i.cid) (some i.blk.launch) fpc 2) (openLaunches s i.cid)) <|
    andThen (freeHeld i.cid (blocksOf s i.cid)) (freeCores (blocksOf s i.cid))) s = u at hfreed ⊢
  have hu : mLook u.ctxs i.cid = some i.ctx := by rw [hfreed.ctxs]; exact hc
  rw [after_andThen, after_updCtx hu, after_andThen, after_updMgmt, after_bump]
  refine ⟨hfreed.records, mLook_mIns_self .., hfreed.blocks, fun c hn => ?_, hfreed.warps, ?_⟩
  · exact (mLook_mIns_ne _ _ hn).trans (by rw [hfreed.ctxs])
  · exact (mGet_mIns_self ..).trans (by rw [hfreed.mgmt])

/-! ## Delivery -/

/-- A trap whose record can be written is delivered (R385, R386). -/
theorem deliver_entered {s : State} {i : Iss} (hi : issAt s i.w i.k = some i) (T : Trap)
    (hrec : areaWritable s i.ctx i.warp.recAt.toNat 64 = true) : TrapEntered s (after (deliver i.w i.k T) s) i T := by
  obtain ⟨-, -, hw, -⟩ := issAt_spec hi
  have hafter : after (deliver i.w i.k T) s = after bump (after (updWarp i.w (enterHandler i.k i.st i.lau.trap T))
      (after (traceNote i.core (.trap i.w T.cause T.name)) (after (writeVirt i.ctx i.warp.recAt.toNat (trapBytes T)) s))) := by
    rw [deliver, after_look, hi]
    simp only [hrec, Bool.not_true, Bool.false_eq_true, if_false, after_andThen]
  have h1 := only_writeVirt i.ctx i.warp.recAt.toNat (trapBytes T) s
  rw [hafter]
  generalize hs1 : after (writeVirt i.ctx i.warp.recAt.toNat (trapBytes T)) s = s1 at h1 ⊢
  have h2 := only_of_each (ts := [.cores]) (each_traceNote (c := i.core) (r := .trap i.w T.cause T.name) (by simp [Effect.table])) s1
  have hcores := coreOf_traceNote i.core (.trap i.w T.cause T.name) s1
  generalize after (traceNote i.core (.trap i.w T.cause T.name)) s1 = s2 at h2 hcores ⊢
  have hw2 : s2.warps = s.warps := by rw [h2.warps (by simp), h1.warps (by simp)]
  rw [after_updWarp (by rw [hw2]; exact hw), after_bump]
  refine ⟨?_, ?_, fun v hv => ?_, ⟨_, mLook_mIns_self .., rfl, mLook_mIns_self .., fun k hk => mLook_mIns_ne _ _ hk⟩, fun c => ?_⟩
  · have e1 := h1.eq
    have e2 := h2.eq
    simp at e1 e2
    rw [e2, e1]
  · rw [hs1]; exact h2.mem (by simp)
  · exact (mLook_mIns_ne _ _ hv).trans (by rw [hw2])
  · exact (hcores c).trans (by rw [show coreOf s1 c = coreOf s c by simp only [coreOf, h1.cores (by decide)]]; rfl)

/-- Settles O16: a trap that may be taken goes the one of four ways its warp and its launch say. -/
theorem trapsAreTaken : Obligations.TrapsAreTaken := by
  unfold Obligations.TrapsAreTaken
  intro f s i o T ho hg hnow
  obtain ⟨hi, hexec⟩ : issuer s = some i ∧ exec o s = .next (after (takeTrap i T) s) := by
    rcases ho with ⟨rfl, hmay, rfl⟩ | ⟨rfl, hmay, hw, hdbg, rfl⟩
    · refine ⟨hmay.here, atIssue_act hmay.here ((gated_of_mayRun hmay _).trans ?_)⟩
      rw [hg]; rfl
    · refine ⟨hmay.here, (exec_brk hmay hw).trans ?_⟩
      rw [hg, hdbg]; rfl
  obtain ⟨-, hw, hst, -, -, hc⟩ := issuer_spec hi
  have hsplit := splitReady_of_trapNow hnow
  refine ⟨fun hh ht hnone hrec => ?delivered, fun hh ht hsome => ?pending, fun h hh hrun ht => ?double, fun hh ht hopen => ?unhandled⟩
  case delivered =>
    have hact : takeTrap i T = deliver i.w i.k T := by simp [takeTrap, hsplit, hh, ht, hnone]
    exact ⟨_, hexec.trans (by rw [hact]), deliver_entered (issAt_of_issuer hi) T hrec⟩
  case pending =>
    have hact : takeTrap i T = andThen (updStrand i.w i.k fun x => { x with trap := some T, wait := .none, held := none }) bump := by
      simp [takeTrap, hsplit, hh, ht, hsome]
    refine ⟨_, _, hexec.trans (by rw [hact, after_andThen, after_updStrand hw, after_bump]), rfl, fun v hv => mLook_mIns_ne _ _ hv,
      mLook_mIns_self .., onStrand_eq .., onStrand_here hst, fun k hk => onStrand_others _ _ _ hk⟩
  case double =>
    have hact : takeTrap i T = terminate i.cid (trapBytes { T with cause := .double } ++ trapBytes h.trap) (some i.blk.launch) T.pc 2 := by
      simp [takeTrap, hsplit, hh, doubleTrap, hrun]
    exact ⟨_, hexec.trans (by rw [hact]), terminate_ended hc ht _ _⟩
  case unhandled =>
    have hact : takeTrap i T = terminate i.cid (trapBytes T) (some i.blk.launch) T.pc 2 := by
      simp [takeTrap, hsplit, hh, ht]
    exact ⟨_, hexec.trans (by rw [hact]), terminate_ended hc hopen _ _⟩

end Sys2Proof.Machine

namespace Sys2Proof.Machine

/-! SUPPORT. Held strands that take free entries (20_ref_regions_reduce R306) and the return from a trap
(25_traps_faults R387, R406). -/

/-! ## Held strands -/

/-- Warp `z` is `y` but that some of its held strands have taken entries that were free. -/
structure SeatedWarp (y z : Warp) : Prop where
  rest : z = { y with strands := z.strands, heldStrands := z.heldStrands }
  none : y.heldStrands = [] → z = y
  keeps : ∀ k t, mLook y.strands k = some t → mLook z.strands k = some t
  strands : ∀ e ∈ z.strands, e ∈ y.strands ∨ e.2 ∈ y.heldStrands
  held : ∀ t ∈ z.heldStrands, t ∈ y.heldStrands

theorem SeatedWarp.refl (y : Warp) : SeatedWarp y y :=
  ⟨rfl, fun _ => rfl, fun _ _ h => h, fun _ h => .inl h, fun _ h => h⟩
theorem SeatedWarp.trans {x y z : Warp} (h : SeatedWarp x y) (g : SeatedWarp y z) : SeatedWarp x z := by
  refine ⟨?_, fun hx => ?_, fun k t ht => g.keeps k t (h.keeps k t ht), fun e he => ?_, fun t ht => h.held t (g.held t ht)⟩
  · rw [g.rest, h.rest]
  · have hy := h.none hx
    rw [g.none (by rw [hy]; exact hx), hy]
  · rcases g.strands e he with hs | hs
    · exact h.strands e hs
    · exact .inr (h.held _ hs)

/-- Every warp of `t` is that of `s` with held strands seated; nothing else differs. -/
structure Seated (s t : State) : Prop where
  rest : t = { s with warps := t.warps }
  warp : ∀ v y, mLook s.warps v = some y → ∃ z, mLook t.warps v = some z ∧ SeatedWarp y z

theorem Seated.refl (s : State) : Seated s s := ⟨rfl, fun _ y hy => ⟨y, hy, .refl y⟩⟩
theorem Seated.trans {s t u : State} (h : Seated s t) (g : Seated t u) : Seated s u := by
  refine ⟨?_, fun v y hy => ?_⟩
  · rw [g.rest, h.rest]
  · obtain ⟨z, hz, hyz⟩ := h.warp v y hy
    obtain ⟨w, hw, hzw⟩ := g.warp v z hz
    exact ⟨w, hw, hyz.trans hzw⟩

/-- A choice by folding over a list is in the list. -/
theorem foldl_choose_mem {α : Type} (f : Option α → α → Option α) (hf : ∀ b a, f b a = b ∨ f b a = some a) (xs : List α) (a : α)
    (h : xs.foldl f none = some a) : a ∈ xs := by
  have key : ∀ (xs : List α) (b : Option α), xs.foldl f b = some a → b = some a ∨ a ∈ xs := by
    intro xs
    induction xs with
    | nil => exact fun b hb => .inl hb
    | cons x xs ih =>
      intro b hb
      rcases ih _ hb with h1 | h1
      · rcases hf b x with h2 | h2
        · exact .inl (h2 ▸ h1)
        · rw [h2] at h1; exact .inr (by simp [Option.some.inj h1])
      · exact .inr (List.mem_cons_of_mem _ h1)
  exact (key xs none h).resolve_left (by simp)

theorem nextHeld_spec {s : State} {core sub w : Nat} {x : Warp} (h : nextHeld s core sub = some (w, x)) :
    (w, x) ∈ s.warps ∧ x.core = core ∧ x.sub = sub ∧ x.place = .resident := by
  have hmem := foldl_choose_mem _ (fun b e => by
    cases b with
    | none => exact .inr rfl
    | some y =>
      simp only
      split
      · exact .inr rfl
      · exact .inl rfl) _ _ h
  simp only [List.mem_filter, Bool.and_eq_true, decide_eq_true_eq] at hmem
  exact ⟨hmem.1, hmem.2.1.1.1.1, hmem.2.1.1.1.2, hmem.2.1.1.2⟩

/-- A free entry of a sub-core is none of its resident warps'. -/
theorem freeEntries_unused {s : State} {core sub k w : Nat} {x : Warp} (hk : k ∈ freeEntries s core sub) (hx : (w, x) ∈ s.warps)
    (hcore : x.core = core) (hsub : x.sub = sub) (hplace : x.place = .resident) : mLook x.strands k = none := by
  have hfree := (List.mem_filter.1 hk).2
  cases hl : mLook x.strands k with
  | none => rfl
  | some t =>
    refine absurd ?_ (by simpa using hfree : k ∉ usedEntries s core sub)
    refine List.mem_flatMap.2 ⟨(w, x), hx, ?_⟩
    rw [if_pos ⟨hcore, hsub, hplace⟩]
    exact List.mem_map.2 ⟨(k, t), mem_of_mLook hl, rfl⟩

theorem seatOne_seated {s : State} (hc : s.Canonical) (core sub : Nat) : Seated s (after (seatOne core sub) s) := by
  rw [seatOne, after_look]
  split
  · next w x k ks hheld hfree =>
    obtain ⟨hmem, hcore, hsub, hplace⟩ := nextHeld_spec hheld
    have hx : mLook s.warps w = some x := mLook_of_mem hc.warps hmem
    have hk : mLook x.strands k = none := freeEntries_unused (by rw [hfree]; simp) hmem hcore hsub hplace
    split
    · next h hs heq =>
      refine ⟨rfl, fun v y hy => ?_⟩
      by_cases hv : v = w
      · subst hv
        cases hx.symm.trans hy
        refine ⟨_, mLook_mIns_self .., rfl, fun hn => absurd (heq.symm.trans hn) (by simp), fun j t hj => ?_, fun e he => ?_, fun t ht => ?_⟩
        · refine (mLook_mIns_ne _ _ ?_).trans hj
          rintro rfl
          rw [hk] at hj; cases hj
        · rcases mem_mIns he with rfl | he
          · exact .inr (by simp [heq])
          · exact .inl he
        · rw [heq]; exact List.mem_cons_of_mem _ ht
      · exact ⟨y, (mLook_mIns_ne _ _ hv).trans hy, .refl y⟩
    · exact .refl s
  · exact .refl s

/-- Seating held strands changes nothing else (R306). -/
theorem seatHeld_seated {s : State} (hc : s.Canonical) (core sub : Nat) : Seated s (after (seatHeld core sub) s) := by
  rw [seatHeld, after_look]
  generalize s.warps.flatMap _ = ts
  induction ts generalizing s with
  | nil => exact .refl s
  | cons t ts ih =>
    rw [after_forAll_cons]
    exact (seatOne_seated hc core sub).trans (ih (after_canonical hc _))

/-! ## No trap is pending -/

/-- A fold whose steps change nothing. -/
theorem foldl_fixed_mem {α β : Type} {f : β → α → β} {b : β} {xs : List α} (h : ∀ a ∈ xs, f b a = b) : xs.foldl f b = b := by
  induction xs with
  | nil => rfl
  | cons a xs ih => rw [List.foldl_cons, h a (by simp)]; exact ih fun c hc => h c (List.mem_cons_of_mem _ hc)

theorem pendingTrap_none {x : Warp} (h : ∀ e ∈ x.strands, e.2.trap = none) : pendingTrap x = none := by
  rw [pendingTrap, foldl_fixed_mem fun e he => by rw [h e he]]
  rfl

/-- A warp without a pending trap takes none. -/
theorem nextTrap_none {s : State} {w : Nat} {x : Warp} (hx : mLook s.warps w = some x) (h : ∀ e ∈ x.strands, e.2.trap = none) :
    after (nextTrap w) s = s := by
  rw [nextTrap, after_look, hx]
  simp only [pendingTrap_none h]
  split <;> rfl

/-! ## Returns -/

/-- The entry that the parked strand takes back. -/
def returnEntry (s : State) (i : Iss) (h : Handler) : Nat :=
  if decide (h.entry = i.k) || !(usedEntries s i.core i.warp.sub).contains h.entry then h.entry else i.k

/-- The warp `x` whose parked strand stands in its entry again, as `f` puts it. -/
def returnedFrom (s : State) (i : Iss) (h : Handler) (f : Strand → Strand) (x : Warp) : Warp :=
  { x with handler := none, strands := mIns (mDel x.strands i.k) (returnEntry s i h) (f { h.strand with members := i.st.members }) }
/-- The issuing warp after a return. -/
def returned (s : State) (i : Iss) (h : Handler) (f : Strand → Strand) : Warp := returnedFrom s i h f i.warp

theorem mem_of_mem_mDel {α : Type} {m : Map α} {k : Nat} {e : Nat × α} (h : e ∈ mDel m k) : e ∈ m := (List.mem_filter.1 h).1

/-- A return by a handler that still has the members of the strand it parked. -/
theorem return_ends {s : State} {i : Iss} {h : Handler} (hi : issuer s = some i) (hc : s.Canonical)
    (htraps : ∀ k y, mLook i.warp.strands k = some y → y.trap = none) (hsort : mSorted i.warp.strands = true)
    {f : Strand → Strand} (hf : (f { h.strand with members := i.st.members }).trap = none) :
    ∃ t x, after (andThen (returnFromTrap i h f) (seatHeld i.core i.warp.sub)) s = t ∧
      t = { s with warps := t.warps, epoch := t.epoch } ∧
      (∀ v y, v ≠ i.w → mLook s.warps v = some y → y.heldStrands = [] → mLook t.warps v = some y) ∧
      mLook t.warps i.w = some x ∧ SeatedWarp (returned s i h f) x := by
  obtain ⟨-, hw, -⟩ := issuer_spec hi
  let u : State := { s with warps := mIns s.warps i.w (returned s i h f), epoch := s.epoch + 1 }
  have hafter : after (andThen (returnFromTrap i h f) (seatHeld i.core i.warp.sub)) s = after (seatHeld i.core i.warp.sub) u := by
    have hput : after (fun s => updWarp i.w (fun x =>
        let free := decide (h.entry = i.k) || !(usedEntries s i.core i.warp.sub).contains h.entry
        { x with handler := none,
                 strands := mIns (mDel x.strands i.k) (if free then h.entry else i.k)
                   (f { h.strand with members := i.st.members }) }) s) s = { s with warps := mIns s.warps i.w (returned s i h f) } :=
      after_updWarp (f := returnedFrom s i h f) hw
    rw [after_andThen, returnFromTrap, after_andThen, hput, after_andThen, after_bump]
    refine congrArg _ (nextTrap_none (s := u) (x := returned s i h f) (mLook_mIns_self ..) fun e he => ?_)
    rcases mem_mIns he with rfl | he
    · exact hf
    · exact htraps e.1 e.2 (mLook_of_mem hsort (mem_of_mem_mDel he))
  have hu : u.Canonical := ⟨hc.mem, hc.dir, mSorted_mIns _ _ hc.warps, hc.blocks, hc.groups, hc.launches, hc.ctxs, hc.cores,
    hc.parts, hc.queues, hc.pool, hc.ops, hc.engs, hc.faults⟩
  have hseat := seatHeld_seated hu i.core i.warp.sub
  generalize after (seatHeld i.core i.warp.sub) u = t at hafter hseat
  obtain ⟨x, hx, hseated⟩ := hseat.warp i.w _ (mLook_mIns_self ..)
  refine ⟨t, x, hafter, ?_, fun v y hv hy hn => ?_, hx, hseated⟩
  · rw [hseat.rest]
  · obtain ⟨z, hz, hyz⟩ := hseat.warp v y ((mLook_mIns_ne _ _ hv).trans hy)
    rw [hz, hyz.none hn]

/-- Settles O17: where the strand resumes is all that the two returns differ in. -/
theorem returnsFromTrap : Obligations.ReturnsFromTrap := by
  unfold Obligations.ReturnsFromTrap
  intro f s i h hmay hg hhand hst harm hmem htraps htrap hc hsort e back
  have hback : ∀ (o : Instr) (F : Strand → Strand), (∀ y, (F y).trap = y.trap) →
      exec o s = .next (after (andThen (returnFromTrap i h F) (seatHeld i.core i.warp.sub)) s) → back o (F h.strand) := by
    intro o F hF hexec
    have hself : ({ h.strand with members := i.st.members } : Strand) = h.strand := by rw [hmem]
    obtain ⟨t, x, ht, hrest, hothers, hx, hseated⟩ := return_ends (h := h) hmay.here hc htraps hsort (f := F) (by rw [hF]; exact htrap)
    refine ⟨t, x, hexec.trans (by rw [ht]), hrest, hothers, hx, ?_, ?_, fun hnone => ⟨fun hne => ?_, fun k h1 h2 => ?_⟩⟩
    · rw [hseated.rest]; rfl
    · exact hseated.keeps _ _ ((mLook_mIns_self ..).trans (by rw [hself]))
    · rw [hseated.none hnone]
      exact (mLook_mIns_ne _ _ hne).trans (mLook_mDel_self ..)
    · rw [hseated.none hnone]
      exact (mLook_mIns_ne _ _ h2).trans (mLook_mDel_ne _ h1)
  have hdouble : (!i.st.handler || i.st.arm.isSome || decide (i.st.members ≠ h.strand.members)) = false := by
    simp [hst, harm, hmem]
  have hmeans : ∀ resume, rftMeans s i f resume = resume h.trap fun f => andThen (returnFromTrap i h f) (seatHeld i.core i.warp.sub) := by
    intro resume
    refine (gated_of_mayRun hmay _).trans ?_
    rw [hg, hhand]
    simp only [hdouble]
    rfl
  refine ⟨?here, fun hslot => ?header, fun j hd a w b hslot hh hw => ?slot⟩
  case here => exact hback _ _ (fun y => rfl) (atIssue_act hmay.here (hmeans _))
  case header =>
    refine hback _ _ (fun y => rfl) (atIssue_act hmay.here ((hmeans _).trans ?_))
    simp only [rftSlots, hslot]
  case slot =>
    refine hback _ _ (fun y => rfl) (atIssue_act hmay.here ((hmeans _).trans ?_))
    simp only [rftSlots, hslot, hh, hw]

end Sys2Proof.Machine

namespace Sys2Proof.Machine

/-! SUPPORT. The end of an arm and the exit of lanes (02_execution_model R20, R21, R29). -/

/-! ## What takes up an entry -/

/-- A fork record but for the phase it stands in. -/
def SameFork (k k' : Fork) : Prop := k' = { k with phase := k'.phase }
theorem SameFork.refl (k : Fork) : SameFork k k := rfl
theorem SameFork.trans {a b c : Fork} (h : SameFork a b) (g : SameFork b c) : SameFork a c := by
  rw [SameFork, g, h]
theorem SameFork.armAt {k k' : Fork} (h : SameFork k k') (sd : Bool) : armAt k' sd = armAt k sd := by rw [h]; cases sd <;> rfl

/-- The records of `m'` are those of `m`, but for the phases they stand in. -/
def SameForks (m m' : Map Fork) : Prop := ∀ n k', mLook m' n = some k' → ∃ k, mLook m n = some k ∧ SameFork k k'
theorem SameForks.refl (m : Map Fork) : SameForks m m := fun _ k h => ⟨k, h, .refl k⟩
theorem SameForks.trans {a b c : Map Fork} (h : SameForks a b) (g : SameForks b c) : SameForks a c := fun n k' hk => by
  obtain ⟨k1, h1, e1⟩ := g n k' hk
  obtain ⟨k2, h2, e2⟩ := h n k1 h1
  exact ⟨k2, h2, e2.trans e1⟩
theorem SameForks.mIns {m : Map Fork} {n : Nat} {k : Fork} (h : mLook m n = some k) (p : Phase) :
    SameForks m (mIns m n { k with phase := p }) := fun j k' hk => by
  by_cases hj : j = n
  · subst hj
    rw [mLook_mIns_self] at hk
    cases hk
    exact ⟨k, h, rfl⟩
  · exact ⟨k', (mLook_mIns_ne _ _ hj).symm.trans hk, .refl k'⟩

/-- What takes up the entry of a strand: a strand whose lanes are those left in the else-arm of a record, or all of the
record's; the records themselves move in phase alone. -/
structure TakenUp (x : Warp) (r : Warp × Option Strand) : Prop where
  rest : r.1 = { x with forks := r.1.forks }
  forks : SameForks x.forks r.1.forks
  taken : ∀ t, r.2 = some t → t.trap = none ∧ ∃ n k, mLook x.forks n = some k ∧ (t.members = k.e.left ∨ t.members = k.alive)

theorem takenUp_none (x : Warp) : TakenUp x (x, none) := ⟨rfl, .refl _, fun _ h => by cases h⟩

theorem takeUp_takenUp (x : Warp) (t : Strand) (n : Nat) (a : Option (Nat × Bool)) : TakenUp x (takeUp x t n a) := by
  induction n generalizing x a with
  | zero => exact takenUp_none x
  | succ n ih =>
    cases a with
    | none => exact takenUp_none x
    | some a =>
      obtain ⟨fid, side⟩ := a
      rw [takeUp]
      split
      · exact takenUp_none x
      · next f hf =>
        have hjoined : TakenUp x (if f.alive = 0 then takeUp { x with forks := mIns x.forks fid { f with phase := .joined } } t n f.outer
            else ({ x with forks := mIns x.forks fid { f with phase := .joined } }, some (renewed t f.alive f.ljoin f.outer (some fid)))) := by
          split
          · have h := ih { x with forks := mIns x.forks fid { f with phase := .joined } } f.outer
            refine ⟨h.rest, (SameForks.mIns hf _).trans h.forks, fun u hu => ?_⟩
            obtain ⟨htrap, m, k, hk, hm⟩ := h.taken u hu
            obtain ⟨k', hk', e⟩ := SameForks.mIns hf .joined m k hk
            refine ⟨htrap, m, k', hk', ?_⟩
            rw [e] at hm
            exact hm
          · refine ⟨rfl, SameForks.mIns hf _, fun u hu => ?_⟩
            cases hu
            exact ⟨rfl, fid, f, hf, .inr rfl⟩
        simp only
        split
        · exact takenUp_none x
        · split
          · split
            · refine ⟨rfl, SameForks.mIns hf _, fun u hu => ?_⟩
              cases hu
              exact ⟨rfl, fid, f, hf, .inl rfl⟩
            · exact hjoined
          · exact hjoined
          · exact hjoined
          · exact takenUp_none x

/-! ## The end of a strand -/

theorem reenter_eq (x : Warp) (k : Nat) (r : Option Strand) : reenter x k r =
    { x with strands := (reenter x k r).strands, heldStrands := (reenter x k r).heldStrands } := by
  unfold reenter
  split
  · rfl
  · split <;> rfl
theorem reenter_others (x : Warp) {k j : Nat} (r : Option Strand) (h : j ≠ k) :
    mLook (reenter x k r).strands j = mLook x.strands j := by
  unfold reenter
  split
  · exact mLook_mIns_ne _ _ h
  · split
    · exact mLook_mIns_ne _ _ h
    · exact mLook_mDel_ne _ h
/-- Who stands in the entries and in the held records afterwards. -/
theorem mem_reenter {x : Warp} {k : Nat} {r : Option Strand} {e : Nat × Strand} (h : e ∈ (reenter x k r).strands) :
    e ∈ x.strands ∨ r = some e.2 ∨ e.2 ∈ x.heldStrands := by
  unfold reenter at h
  split at h
  · rcases mem_mIns h with rfl | h
    · exact .inr (.inl rfl)
    · exact .inl h
  · split at h
    · next hs heq =>
      rcases mem_mIns h with rfl | h
      · exact .inr (.inr (by simp [heq]))
      · exact .inl h
    · exact .inl (mem_of_mem_mDel h)
theorem held_reenter {x : Warp} {k : Nat} {r : Option Strand} {t : Strand} (h : t ∈ (reenter x k r).heldStrands) : t ∈ x.heldStrands := by
  unfold reenter at h
  split at h
  · exact h
  · split at h
    · next heq => rw [heq]; exact List.mem_cons_of_mem _ h
    · exact h

theorem endStrand_eq (x : Warp) (k : Nat) (t : Strand) (a : Option (Nat × Bool)) : endStrand x k t a =
    { x with forks := (endStrand x k t a).forks, strands := (endStrand x k t a).strands
             heldStrands := (endStrand x k t a).heldStrands } := by
  unfold endStrand
  rw [reenter_eq, (takeUp_takenUp x t (x.forks.length + 1) a).rest]
theorem endStrand_forks (x : Warp) (k : Nat) (t : Strand) (a : Option (Nat × Bool)) : SameForks x.forks (endStrand x k t a).forks := by
  unfold endStrand
  rw [reenter_eq]
  exact (takeUp_takenUp x t (x.forks.length + 1) a).forks
theorem endStrand_others (x : Warp) {k j : Nat} (t : Strand) (a : Option (Nat × Bool)) (h : j ≠ k) :
    mLook (endStrand x k t a).strands j = mLook x.strands j := by
  unfold endStrand
  rw [reenter_others _ _ h, (takeUp_takenUp x t (x.forks.length + 1) a).rest]

/-! ## A warp that lanes have left -/

/-- No strand, in the table or held, and no record of the warp keeps a lane of `m`, and no trap is pending. -/
structure Cleared (m : Mask) (x : Warp) : Prop where
  strands : ∀ e ∈ x.strands, e.2.members &&& m = 0 ∧ e.2.trap = none
  held : ∀ t ∈ x.heldStrands, t.members &&& m = 0 ∧ t.trap = none
  forks : ∀ n k, mLook x.forks n = some k → k.e.left &&& m = 0 ∧ k.alive &&& m = 0

theorem Cleared.endStrand {m : Mask} {x : Warp} (h : Cleared m x) (k : Nat) (t : Strand) (a : Option (Nat × Bool)) :
    Cleared m (endStrand x k t a) := by
  have htaken := takeUp_takenUp x t (x.forks.length + 1) a
  unfold Machine.endStrand
  refine ⟨fun e he => ?_, fun u hu => ?_, fun n k' hk => ?_⟩
  · have hs : (takeUp x t (x.forks.length + 1) a).1.strands = x.strands := by rw [htaken.rest]
    have hh : (takeUp x t (x.forks.length + 1) a).1.heldStrands = x.heldStrands := by rw [htaken.rest]
    rcases mem_reenter he with he | he | he
    · exact h.strands e (hs ▸ he)
    · obtain ⟨htrap, n, f, hf, hm⟩ := htaken.taken _ he
      obtain ⟨hleft, halive⟩ := h.forks n f hf
      exact ⟨by rcases hm with hm | hm <;> rw [hm] <;> assumption, htrap⟩
    · exact h.held _ (hh ▸ he)
  · have hu := held_reenter hu
    rw [htaken.rest] at hu
    exact h.held u hu
  · rw [reenter_eq] at hk
    obtain ⟨f, hf, e⟩ := htaken.forks n k' hk
    rw [e]
    exact h.forks n f hf

/-- One strand without lanes retires; with the last lane of the handler the strand it parked retires too (R386). -/
def retireOne (y : Warp) (e : Nat × Strand) : Warp :=
  match y.handler with
  | some h =>
    if h.strand.members = 0 then
      let z := { y with handler := none }
      if e.2.handler then endStrand z e.1 h.strand h.strand.arm else endStrand z e.1 e.2 e.2.arm
    else endStrand y e.1 e.2 e.2.arm
  | none => endStrand y e.1 e.2 e.2.arm

/-- The retirement of a strand is the end of one in its entry. -/
theorem retireOne_cases (y : Warp) (e : Nat × Strand) :
    ∃ h t a, retireOne y e = endStrand { y with handler := h } e.1 t a := by
  unfold retireOne
  split
  · next hh =>
    split
    · simp only
      split <;> exact ⟨none, _, _, rfl⟩
    · exact ⟨y.handler, _, _, rfl⟩
  · exact ⟨y.handler, _, _, rfl⟩

theorem retireEmpty_eq_foldl (x : Warp) :
    retireEmpty x = (x.strands.filter fun e => decide (e.2.members = 0)).foldl retireOne x := rfl

/-- What the retirement of a list of strands leaves. -/
theorem foldl_retireOne {m : Mask} (es : List (Nat × Strand)) {x : Warp} (h : Cleared m x) :
    let y := es.foldl retireOne x
    Cleared m y ∧ y = { x with forks := y.forks, strands := y.strands, heldStrands := y.heldStrands, handler := y.handler } ∧
      ∀ j, (∀ e ∈ es, e.1 ≠ j) → mLook y.strands j = mLook x.strands j := by
  induction es generalizing x with
  | nil => exact ⟨h, rfl, fun _ _ => rfl⟩
  | cons e es ih =>
    obtain ⟨hd, t, a, hone⟩ := retireOne_cases x e
    have hx : Cleared m { x with handler := hd } := ⟨h.strands, h.held, h.forks⟩
    have hc : Cleared m (retireOne x e) := by rw [hone]; exact hx.endStrand ..
    obtain ⟨hclear, hrest, hothers⟩ := ih hc
    refine ⟨hclear, ?_, fun j hj => ?_⟩
    · rw [List.foldl_cons, hrest, hone, endStrand_eq]
    · rw [List.foldl_cons, hothers j fun d hd => hj d (List.mem_cons_of_mem _ hd), hone]
      exact endStrand_others _ _ _ (Ne.symm (hj e (by simp)))

theorem and_not_and_self (a m : Mask) : a &&& ~~~m &&& m = 0 := by
  rw [BitVec.and_assoc, BitVec.not_and_self]
  exact BitVec.and_zero

theorem removeLanes_cleared {x : Warp} (m : Mask) (h : ∀ e ∈ x.strands, e.2.trap = none) (hh : ∀ t ∈ x.heldStrands, t.trap = none) :
    Cleared m (removeLanes x m) := by
  refine ⟨fun e he => ?_, fun t ht => ?_, fun n k hk => ?_⟩
  · obtain ⟨d, hd, rfl⟩ := List.mem_map.1 he
    exact ⟨and_not_and_self .., h d hd⟩
  · obtain ⟨d, hd, rfl⟩ := List.mem_map.1 (List.mem_filter.1 ht).1
    exact ⟨and_not_and_self .., hh d hd⟩
  · have hmap := mLook_mapAll x.forks (fun f => { f with
      t := { f.t with left := f.t.left &&& ~~~m }, e := { f.e with left := f.e.left &&& ~~~m }, alive := f.alive &&& ~~~m }) n
    obtain ⟨f, -, rfl⟩ := Option.map_eq_some_iff.1 (hmap.symm.trans hk)
    exact ⟨and_not_and_self .., and_not_and_self ..⟩

theorem mLook_prune_of {x : Warp} {n : Nat} {k : Fork} (h : mLook (prune x).forks n = some k) : mLook x.forks n = some k :=
  mLook_of_filter (fun _ _ _ => rfl) h
theorem Cleared.prune {m : Mask} {x : Warp} (h : Cleared m x) : Cleared m (prune x) :=
  ⟨h.strands, h.held, fun n k hk => h.forks n k (mLook_prune_of hk)⟩

/-- The warp after the lanes `m` have left it. -/
def exited (x : Warp) (m : Mask) : Warp := prune (retireEmpty (removeLanes x m))

/-- What an exit leaves of the warp. -/
theorem exited_spec {x : Warp} (m : Mask) (h : ∀ e ∈ x.strands, e.2.trap = none) (hh : ∀ t ∈ x.heldStrands, t.trap = none) :
    Cleared m (exited x m) ∧
      exited x m = { x with
        live := x.live &&& ~~~m, forks := (exited x m).forks, strands := (exited x m).strands
        heldStrands := (exited x m).heldStrands, handler := (exited x m).handler
        regions := x.regions.filter fun e => !hasLane m e.1
        deferred := x.deferred.filter fun d => match d.elected with | some l => !hasLane m l | none => true } ∧
      ∀ k y, mLook x.strands k = some y → (∀ e ∈ x.strands, e.1 = k → e.2.members &&& ~~~m ≠ 0) →
        mLook (exited x m).strands k = some { y with members := y.members &&& ~~~m } := by
  obtain ⟨hclear, hrest, hothers⟩ := foldl_retireOne ((removeLanes x m).strands.filter fun e => decide (e.2.members = 0))
    (removeLanes_cleared m h hh)
  rw [← retireEmpty_eq_foldl] at hclear hrest hothers
  rw [exited]
  generalize retireEmpty (removeLanes x m) = y at hclear hrest hothers
  refine ⟨hclear.prune, ?_, fun k y hk hstay => ?_⟩
  · rw [prune_eq y, hrest]; rfl
  · refine (hothers k fun e he hek => ?_).trans ?_
    · obtain ⟨hmem, hzero⟩ := List.mem_filter.1 he
      obtain ⟨d, hd, rfl⟩ := List.mem_map.1 hmem
      exact hstay d hd hek (by simpa using hzero)
    · refine (mLook_mapAll x.strands (fun t => { t with members := t.members &&& ~~~m }) k).trans ?_
      rw [hk]; rfl

/-! ## Exit -/

/-- Forgetting the elected lane changes the multiplications of the warp alone. -/
theorem only_forgetElected (w : Nat) (m : Mask) (s : State) : Only [.engs] s (after (forgetElected w m) s) :=
  only_of_each (fun u e he => by
    obtain ⟨x, -, hx⟩ := List.mem_filterMap.1 he
    split at hx
    · split at hx
      · cases hx; simp [Effect.table]
      · cases hx
    · cases hx) s
theorem engs_forgetElected {w : Nat} {m : Mask} {s : State} (hc : mSorted s.engs = true) {n : Nat} {o : EngOp}
    (h : mLook s.engs n = some o) (hn : (∀ p, o.kind ≠ .mma p) ∨ o.w ≠ w) : mLook (after (forgetElected w m) s).engs n = some o := by
  have key : ∀ (es : List Effect) (u : State), (∀ e ∈ es, ∃ k x, e = .eng k x ∧ k ≠ n) → mLook (applyAll es u).engs n = mLook u.engs n := by
    intro es
    induction es with
    | nil => exact fun u _ => rfl
    | cons e es ih =>
      intro u hes
      obtain ⟨k, x, rfl, hk⟩ := hes e (by simp)
      rw [applyAll_cons, ih _ fun d hd => hes d (List.mem_cons_of_mem _ hd)]
      exact mLook_mIns_ne _ _ (Ne.symm hk)
  refine (key _ s fun e he => ?_).trans h
  obtain ⟨x, hx, hsome⟩ := List.mem_filterMap.1 he
  split at hsome
  · next p hp =>
    split at hsome
    · next hw =>
      refine ⟨_, _, (Option.some.inj hsome).symm, ?_⟩
      rintro rfl
      cases h.symm.trans (mLook_of_mem hc hx)
      rcases hn with hn | hn
      · exact hn p hp
      · exact hn hw.1
    · cases hsome
  · cases hsome

/-- A contribution that goes out without its strand changes its context alone. -/
theorem only_leaveContribution (w : Nat) (m : Mask) (s : State) : Only [.ctxs] s (after (leaveContribution w m) s) :=
  only_of_each (each_look fun u => by
    split
    · refine each_forAll fun e => ?_
      split
      · exact each_ite each_skip (each_updCtx (by simp [Effect.table]))
      · exact each_skip
    · exact each_skip) s
theorem leaveContribution_none {w : Nat} {m : Mask} {s : State} {x : Warp} (hx : mLook s.warps w = some x)
    (h : ∀ e ∈ x.strands, ∀ g n d p, e.2.wait ≠ .contributing g n d p) : after (leaveContribution w m) s = s := by
  have key : ∀ (es : List (Nat × Strand)) (f : Nat × Strand → Act), (∀ e ∈ es, f e = skip) → after (forAll f es) s = s := by
    intro es f
    induction es with
    | nil => exact fun _ => rfl
    | cons e es ih =>
      intro hes
      rw [after_forAll_cons, hes e (by simp)]
      exact ih fun d hd => hes d (List.mem_cons_of_mem _ hd)
  rw [leaveContribution, after_look, hx]
  split
  · next heq _ =>
    cases heq
    refine key _ _ fun e he => ?_
    split
    · exact absurd ‹_› (h e he _ _ _ _)
    · rfl
  · rfl

/-- What the exit of the issuing strand's members leaves. -/
theorem exitLanes_ends {s : State} {i : Iss} (hi : issuer s = some i) (hc : s.Canonical) (m : Mask)
    (htraps : ∀ e ∈ i.warp.strands, e.2.trap = none) (hheld : ∀ t ∈ i.warp.heldStrands, t.trap = none) :
    ∃ v t x, after (exitLanes i.w m) s = t ∧ v.warps = t.warps ∧ v.blocks = s.blocks ∧ v.groups = s.groups ∧
      Settled v t i.warp.block i.blk ∧ v = { s with warps := v.warps, ctxs := v.ctxs, engs := v.engs, epoch := v.epoch } ∧
      mLook t.warps i.w = some x ∧ SeatedWarp (exited i.warp m) x ∧
      (∀ w y, w ≠ i.w → mLook s.warps w = some y → y.heldStrands = [] → mLook t.warps w = some y) ∧
      v.engs = (after (forgetElected i.w m) s).engs ∧
      v.ctxs = (after (leaveContribution i.w m) (after (forgetElected i.w m) s)).ctxs := by
  obtain ⟨-, hw, -, hb, -⟩ := issuer_spec hi
  have h1 := only_forgetElected i.w m s
  have hc1 := after_canonical hc (forgetElected i.w m)
  generalize hs1 : after (forgetElected i.w m) s = s1 at h1 hc1
  have h2 := only_leaveContribution i.w m s1
  have hc2 := after_canonical hc1 (leaveContribution i.w m)
  generalize hs2 : after (leaveContribution i.w m) s1 = s2 at h2 hc2
  have hwarps : s2.warps = s.warps := by rw [h2.warps (by simp), h1.warps (by simp)]
  have hw2 : mLook s2.warps i.w = some i.warp := by rw [hwarps]; exact hw
  let u : State := { s2 with warps := mIns s2.warps i.w (exited i.warp m) }
  have hu : after (updWarp i.w fun y => prune (retireEmpty (removeLanes y m))) s2 = u := after_updWarp hw2
  have hcu : u.Canonical := by rw [← hu]; exact after_canonical hc2 _
  have hseat := seatHeld_seated hcu i.warp.core i.warp.sub
  have hafter : after (exitLanes i.w m) s = after (nextTrap i.w) (after (settleBars i.warp.block)
      (after (seatHeld i.warp.core i.warp.sub) u)) := by
    rw [exitLanes, after_andThen, after_andThen, hs1, hs2, after_look, hw2]
    simp only
    rw [after_andThen, after_andThen, after_andThen, hu]
  generalize after (seatHeld i.warp.core i.warp.sub) u = v at hseat hafter
  have hvb : v.blocks = s.blocks := by rw [hseat.rest]; exact (h2.blocks (by simp)).trans (h1.blocks (by simp))
  have hvg : v.groups = s.groups := by rw [hseat.rest]; exact (h2.groups (by simp)).trans (h1.groups (by simp))
  have hset : Settled v (after (settleBars i.warp.block) v) i.warp.block i.blk := settleBars_settled (by rw [hvb]; exact hb)
  generalize after (settleBars i.warp.block) v = t at hset hafter
  have htw : t.warps = v.warps := by rw [hset.rest]
  obtain ⟨x, hx, hseated⟩ := hseat.warp i.w _ (mLook_mIns_self ..)
  have hclear := (exited_spec m htraps hheld).1
  have hnext : after (nextTrap i.w) t = t := by
    refine nextTrap_none (x := x) (by rw [htw]; exact hx) fun e he => ?_
    rcases hseated.strands e he with h | h
    · exact (hclear.strands e h).2
    · exact (hclear.held _ h).2
  refine ⟨v, t, x, hafter.trans hnext, htw.symm, hvb, hvg, hset, ?_, by rw [htw]; exact hx, hseated, fun w y hn hy hnone => ?_, ?_, ?_⟩
  · have e1 := h1.eq
    have e2 := h2.eq
    simp at e1 e2
    rw [hseat.rest]
    simp only [u]
    rw [e2, e1]
  · obtain ⟨z, hz, hyz⟩ := hseat.warp w y ((mLook_mIns_ne _ _ hn).trans (by rw [hwarps]; exact hy))
    rw [htw, hz, hyz.none hnone]
  · rw [hseat.rest]; exact h2.engs (by simp)
  · rw [hseat.rest]

/-! ## The end of an arm -/

/-- A record whose arm `side` has lost the lanes `m`. -/
def leftArm (k : Fork) (side : Bool) (m : Mask) : Fork := setArm k side { armAt k side with left := (armAt k side).left &&& ~~~m }

theorem leaveArm_of_look {x : Warp} {fid : Nat} {k : Fork} (h : mLook x.forks fid = some k) (side : Bool) (m : Mask) :
    leaveArm x fid side m = { x with forks := mIns x.forks fid (leftArm k side m) } := by rw [leaveArm, h]; rfl

section
variable {x : Warp} {fid : Nat} {f : Fork} (hf : mLook x.forks fid = some f) (t : Strand) (n : Nat) {side : Bool}
include hf

/-- An arm that still has lanes, or one of a split fork, is taken up by nothing (R21). -/
theorem takeUp_nothing (h : (armAt f side).left ≠ 0 ∨ f.phase = .split) : takeUp x t (n + 1) (some (fid, side)) = (x, none) := by
  rw [takeUp, hf]
  simp only
  split
  · rfl
  · rw [h.resolve_left ‹_›]

/-- The then-arm of a serialised fork is taken up by its else-arm (R20). -/
theorem takeUp_elseArm (hl : (armAt f false).left = 0) (hp : f.phase = .runThen) (he : f.e.left ≠ 0) :
    (takeUp x t (n + 1) (some (fid, false))).2 = some (renewed t f.e.left f.lelse (some (fid, true)) none) := by
  rw [takeUp, hf]
  simp only [hl, hp, ne_eq, not_true_eq_false, if_false, he, not_false_eq_true, if_true]

/-- The last arm is taken up by the continuation of the fork's lanes (R20). -/
theorem takeUp_continuation (hl : (armAt f side).left = 0) (ha : f.alive ≠ 0)
    (hp : f.phase = .only ∨ side = true ∧ f.phase = .runElse ∨ side = false ∧ f.phase = .runThen ∧ f.e.left = 0) :
    (takeUp x t (n + 1) (some (fid, side))).2 = some (renewed t f.alive f.ljoin f.outer (some fid)) := by
  rw [takeUp, hf]
  simp only [hl, ne_eq, not_true_eq_false, if_false, ha]
  rcases hp with hp | ⟨rfl, hp⟩ | ⟨rfl, hp, he⟩
  · rw [hp]
  · rw [hp]
  · rw [hp]; simp [he]
end

theorem leftArm_alive (k : Fork) (sd : Bool) (m : Mask) : (leftArm k sd m).alive = k.alive := by cases sd <;> rfl
theorem leftArm_phase (k : Fork) (sd : Bool) (m : Mask) : (leftArm k sd m).phase = k.phase := by cases sd <;> rfl
theorem leftArm_ljoin (k : Fork) (sd : Bool) (m : Mask) : (leftArm k sd m).ljoin = k.ljoin := by cases sd <;> rfl
theorem leftArm_outer (k : Fork) (sd : Bool) (m : Mask) : (leftArm k sd m).outer = k.outer := by cases sd <;> rfl
theorem armAt_leftArm (k : Fork) (sd : Bool) (m : Mask) : armAt (leftArm k sd m) sd =
    { armAt k sd with left := (armAt k sd).left &&& ~~~m } := armAt_setArm_self ..

/-- The warp whose strand has ended its part of its arm. -/
def armEnded (i : Iss) (fid : Nat) (side : Bool) (x : Warp) : Warp :=
  prune (endStrand (leaveArm x fid side i.st.members) i.k i.st (some (fid, side)))

/-- The end of an arm writes the warp, and held strands take the entries that are free. -/
theorem armend_ends {f : CFields} {s : State} {i : Iss} {fid : Nat} {side : Bool} (hc : s.Canonical)
    (hmay : MayRun s i none { mem := true, shadow := true } 0) (hg : guardScalar i f.gp f.gn = true)
    (hreg : regionLanes i &&& i.lanes = 0) (harm : i.st.arm = some (fid, side)) :
    ∃ t x, exec (.armend f) s = .next t ∧ t = { s with warps := t.warps, epoch := t.epoch } ∧
      mLook t.warps i.w = some x ∧ SeatedWarp (armEnded i fid side i.warp) x ∧
      ∀ v y, v ≠ i.w → mLook s.warps v = some y → y.heldStrands = [] → mLook t.warps v = some y := by
  obtain ⟨-, hw, -⟩ := issuer_spec hmay.here
  let u : State := { s with warps := mIns s.warps i.w (armEnded i fid side i.warp) }
  have hu : after (updWarp i.w (armEnded i fid side)) s = u := after_updWarp hw
  have hexec : exec (.armend f) s = .next (after bump (after (seatHeld i.core i.warp.sub) u)) := by
    refine (atIssue_act hmay.here (a := andThen (updWarp i.w (armEnded i fid side)) (andThen (seatHeld i.core i.warp.sub) bump))
      ((gated_of_mayRun hmay _).trans ?_)).trans ?_
    · rw [hg]
      refine (noRegion_of_none hreg ..).trans ?_
      rw [harm]; rfl
    · rw [after_andThen, hu, after_andThen]
  have hseat := seatHeld_seated (s := u) (by rw [← hu]; exact after_canonical hc _) i.core i.warp.sub
  generalize after (seatHeld i.core i.warp.sub) u = v at hseat hexec
  obtain ⟨x, hx, hseated⟩ := hseat.warp i.w _ (mLook_mIns_self ..)
  refine ⟨_, x, hexec, ?_, hx, hseated, fun w y hn hy hnone => ?_⟩
  · rw [after_bump, hseat.rest]
  · obtain ⟨z, hz, hyz⟩ := hseat.warp w y ((mLook_mIns_ne _ _ hn).trans hy)
    rw [hyz.none hnone] at hz
    exact hz

/-- Settles O13: the end of an arm by `takeUp`, the exit of lanes by `exited_spec`. -/
theorem armendAndExitComplete : Obligations.ArmendAndExitComplete := by
  unfold Obligations.ArmendAndExitComplete
  refine ⟨?armend, ?armendNever, ?exit, ?exitNever⟩
  case armend =>
    intro f s i fid side k hc hmay hg hreg harm hk left empty
    obtain ⟨t, x, hexec, hrest, hx, hseated, hothers⟩ := armend_ends hc hmay hg hreg harm
    have hleave := leaveArm_of_look hk side i.st.members
    let y := leaveArm i.warp fid side i.st.members
    have hy : mLook y.forks fid = some (leftArm k side i.st.members) := by rw [show y = _ from hleave]; exact mLook_mIns_self ..
    have hstrands : y.strands = i.warp.strands := by rw [show y = _ from hleave]
    have hheld : y.heldStrands = i.warp.heldStrands := by rw [show y = _ from hleave]
    have hleft : (armAt (leftArm k side i.st.members) side).left = left := by rw [armAt_leftArm]
    have htaken : (takeUp y i.st (y.forks.length + 1) (some (fid, side))).1 = { y with
        forks := (takeUp y i.st (y.forks.length + 1) (some (fid, side))).1.forks } := (takeUp_takenUp ..).rest
    have hended : (armEnded i fid side i.warp).strands = (reenter (takeUp y i.st (y.forks.length + 1) (some (fid, side))).1 i.k
      (takeUp y i.st (y.forks.length + 1) (some (fid, side))).2).strands := rfl
    have htakes : ∀ z, (takeUp y i.st (y.forks.length + 1) (some (fid, side))).2 = some z → mLook x.strands i.k = some z := by
      intro z hz
      refine hseated.keeps _ _ ?_
      rw [hended, hz]
      exact mLook_mIns_self ..
    have hall (hnone : i.warp.heldStrands = []) : x = armEnded i fid side i.warp := by
      refine hseated.none (List.eq_nil_iff_forall_not_mem.2 fun z hz => ?_)
      have hz := held_reenter hz
      rw [(takeUp_takenUp ..).rest, hheld, hnone] at hz
      cases hz
    refine ⟨t, x, hexec, hrest, hx, ?_, hothers, fun k' hk' => ?_, fun hl hsd hp he => ?_, fun hempty halive => ?_,
      fun hstay hnone => ?_, fun hnone j hj => ?_⟩
    · rw [hseated.rest, armEnded, prune_eq, endStrand_eq, hleave]
    · rw [hseated.rest] at hk'
      obtain ⟨k1, h1, e1⟩ := endStrand_forks _ _ _ _ fid k' (mLook_prune_of hk')
      cases hy.symm.trans h1
      rw [e1.armAt, hleft]
    · subst hsd
      exact htakes _ (takeUp_elseArm hy i.st _ (hleft.trans hl) ((leftArm_phase ..).trans hp) he)
    · have hgo := takeUp_continuation hy i.st y.forks.length (hleft.trans hempty.1) (by rwa [leftArm_alive]) (by
        rw [leftArm_phase]
        refine hempty.2.imp id (Or.imp id ?_)
        rintro ⟨rfl, hp, he⟩
        exact ⟨rfl, hp, he⟩)
      rw [leftArm_alive, leftArm_ljoin, leftArm_outer] at hgo
      exact htakes _ hgo
    · have hgo := takeUp_nothing hy i.st y.forks.length (side := side) (hstay.imp (fun h => by rwa [hleft]) fun h => by rwa [leftArm_phase])
      rw [hall hnone, hended, hgo, reenter]
      simp only [hheld, hnone]
      exact mLook_mDel_self ..
    · rw [hall hnone]
      exact (endStrand_others _ _ _ hj).trans (by rw [hstrands])
  case armendNever =>
    intro f s i hg hmay
    obtain ⟨x, hframe, hstands, hx⟩ := fallThrough_ends hmay.here
    refine ⟨_, x, atIssue_act hmay.here ((gated_of_mayRun hmay _).trans ?_), hframe, hstands, hx⟩
    rw [hg]; rfl
  case exit =>
    intro f s i hc hmay hg htraps hheld m
    obtain ⟨v, t, x, hexit, htw, hvb, hvg, hset, hv, hx, hseated, hothers, hengs, hctxs⟩ :=
      exitLanes_ends hmay.here hc m htraps hheld
    obtain ⟨hclear, hrest, hkeeps⟩ := exited_spec m htraps hheld
    generalize exited i.warp m = z at hseated hclear hrest hkeeps
    have hlive : ∀ w, liveOf t w = liveOf v w := fun w => by simp only [liveOf, htw]
    refine ⟨t, x, (atIssue_act hmay.here ((gated_of_mayRun hmay _).trans (if_pos hg))).trans (by rw [hexit]), ?_, hx, ?_,
      fun e he => ?_, fun k y hk hstay => hseated.keeps _ _ (hkeeps k y hk hstay), hothers, ?_, fun b hb => ?_, fun h hh => ?_,
      fun n hn => ?_, fun n o ho hno => ?_, fun hnone => ?_⟩
    · rw [hset.rest, hv]
    · rw [hseated.rest, hrest] <;> rfl
    · rcases hseated.strands e he with h | h
      · exact (hclear.strands e h).1
      · exact (hclear.held _ h).1
    · rw [hset.block, settled_congr hlive]
    · rw [hset.blocks b hb, hvb]
    · rw [hset.group h (by rw [hvg]; exact hh), settled_congr hlive]
      refine congrArg (fun ws => some { h with bars := settled v ws h.bars }) (groupWarps_congr fun b => ?_)
      by_cases hb : b = i.warp.block
      · rw [hb, hset.block, hvb, (issuer_spec hmay.here).2.2.2.1]; rfl
      · rw [hset.blocks b hb]
    · rw [hset.groups n hn, hvg]
    · rw [hset.rest, hengs]
      exact engs_forgetElected hc.engs ho hno
    · have h1 := only_forgetElected i.w m s
      rw [hset.rest, hctxs, leaveContribution_none (x := i.warp) (by rw [h1.warps (by simp)]; exact (issuer_spec hmay.here).2.1) hnone]
      exact h1.ctxs (by simp)
  case exitNever =>
    intro f s i hg hmay
    obtain ⟨x, hframe, hstands, hx⟩ := fallThrough_ends hmay.here
    refine ⟨_, x, atIssue_act hmay.here ((gated_of_mayRun hmay _).trans ?_), hframe, hstands, hx⟩
    rw [hg]; rfl

end Sys2Proof.Machine

namespace Sys2Proof.Machine

/-! Issuing accesses (13_ref_memory_copy R214 to R220): what `ld`, `st`, `atom` and `red` do before their strand goes on. -/

/-! ## One warp changes -/

/-- `t` is `s` but that warp `w` stands as `y` and that some error marks may be gone. -/
structure WarpStep (s t : State) (w : Nat) (y : Warp) : Prop where
  rest : t = { s with warps := t.warps, bad := t.bad }
  self : mLook t.warps w = some y
  warps : ∀ v, v ≠ w → mLook t.warps v = mLook s.warps v
  bad : ∀ e ∈ t.bad, e ∈ s.bad

section
variable {s t : State} {w : Nat} {y : Warp}

theorem WarpStep.refl (h : mLook s.warps w = some y) : WarpStep s s w y := ⟨rfl, h, fun _ _ => rfl, fun _ h => h⟩

theorem WarpStep.updWarp (h : WarpStep s t w y) (f : Warp → Warp) : WarpStep s (after (updWarp w f) t) w (f y) := by
  rw [after_updWarp h.self]
  exact ⟨by rw [h.rest], mLook_mIns_self .., fun v hv => (mLook_mIns_ne _ _ hv).trans (h.warps v hv), h.bad⟩

theorem WarpStep.setBad (h : WarpStep s t w y) (f : BadWord → Bool) : WarpStep s { t with bad := t.bad.filter f } w y :=
  ⟨by conv => lhs; rw [h.rest], h.self, h.warps, fun e he => h.bad e (List.mem_filter.1 he).1⟩

theorem WarpStep.clearBad (h : WarpStep s t w y) (v : Nat) (rs : List Nat) (m : Mask) :
    WarpStep s (after (clearBad v rs m) t) w y := by
  simp only [after, Machine.clearBad]
  split
  · exact h
  · exact h.setBad _
end

/-- The strand of issue `i` in warp `y` stands as at issue, but for a continuation's written-mask (R26). -/
structure Noted (i : Iss) (y : Warp) (z : Strand) : Prop where
  warp : y = { i.warp with strands := y.strands, regions := y.regions, ld := y.ld, st := y.st }
  here : mLook y.strands i.k = some z
  same : z = { i.st with wrV := z.wrV, wrP := z.wrP }
  others : ∀ k, k ≠ i.k → mLook y.strands k = mLook i.warp.strands k

theorem Noted.unmoved {i : Iss} {y : Warp} {z : Strand} (h : Noted i y z) : Unmoved i y :=
  ⟨⟨z, h.here, by rw [h.same], by rw [h.same], by rw [h.same], by rw [h.same]⟩, h.others⟩

/-- The counters stand as in another warp. -/
def SameCounters (x y : Warp) : Prop := y.ld = x.ld ∧ y.st = x.st

section
variable {s t : State} {i : Iss} {y : Warp} {z : Strand} (h : WarpStep s t i.w y) (hn : Noted i y z)
include h hn

/-- Noting a continuation's writes moves nothing but its written-mask. -/
theorem WarpStep.noteWrites (u : Uses) (g : Mask) :
    ∃ x z', WarpStep s (after (noteWrites i u g) t) i.w x ∧ Noted i x z' ∧ SameCounters y x := by
  rw [Machine.noteWrites]
  split
  · exact ⟨y, z, h, hn, rfl, rfl⟩
  · refine ⟨_, _, h.updWarp _, ⟨?_, onStrand_here hn.here, ?_, fun k hk => ?_⟩, ?_⟩
    · rw [onStrand_eq, hn.warp]
    · rw [hn.same]
    · exact (onStrand_others _ _ _ hk).trans (hn.others k hk)
    · rw [onStrand_eq]; exact ⟨rfl, rfl⟩

theorem WarpStep.wrote (u : Uses) (g : Mask) :
    ∃ x z', WarpStep s (after (wrote i u g) t) i.w x ∧ Noted i x z' ∧ SameCounters y x := by
  obtain ⟨x, z', hx, hn', hs⟩ := h.noteWrites hn u g
  exact ⟨x, z', by rw [Machine.wrote, after_andThen]; exact hx.clearBad .., hn', hs⟩

theorem WarpStep.updRegions (m : Mask) (f : Nat → Region → Region) :
    ∃ x, WarpStep s (after (updRegions i.w m f) t) i.w x ∧ Noted i x z ∧ SameCounters y x := by
  refine ⟨_, h.updWarp _, ?_, ?_⟩
  · split
    · exact hn
    · exact ⟨by rw [hn.warp], hn.here, hn.same, hn.others⟩
  · split <;> exact ⟨rfl, rfl⟩
end

/-! ## Translations kept and sharers recorded -/

/-- `t` is `s` but for TLB entries and sharer records. -/
def Filled (s t : State) : Prop :=
  t = { s with cores := t.cores, dir := t.dir } ∧ ∀ c, coreOf t c = { coreOf s c with tlb := (coreOf t c).tlb }

theorem chain_filled : Chain Filled where
  refl _ := ⟨rfl, fun _ => rfl⟩
  trans h g := ⟨by rw [g.1, h.1], fun c => by rw [g.2, h.2]⟩

theorem filled_of_only_dir {s t : State} (h : Only [.dir] s t) : Filled s t := by
  have e := h.eq
  simp at e
  exact ⟨by rw [e], fun c => by simp only [coreOf, h.cores (by decide)]⟩

theorem filled_fillTlb (core cid va : Nat) (e : DWord) (n : Nat) : Keeps Filled (fillTlb core cid va e n) := fun s => by
  rw [fillTlb, after_updCore]
  refine ⟨rfl, fun c => ?_⟩
  by_cases hc : c = core
  · subst hc; simp [coreOf]
  · simp [coreOf, mGet_mIns_ne _ _ _ hc]

theorem filled_fillFor (i : Iss) (oks : List (Nat × Nat × Loc × Option DWord)) : Keeps Filled (fillFor i oks) :=
  keeps_forAll chain_filled fun x _ => keeps_look fun s => keeps_ite (fun _ => keeps_skip chain_filled) fun _ => by
    split
    · exact keeps_skip chain_filled
    · split
      · exact filled_fillTlb _ _ _ _ _
      · exact keeps_skip chain_filled

/-- Recording a sharer writes the directory alone (R182). -/
theorem each_recordShare {P : Effect → Prop} (h : ∀ k m, P (.share k m)) (line agent : Nat) (m : Mask) :
    Each P (recordShare line agent m) :=
  each_look fun s => each_andThen
    (each_ite each_skip (by
      split
      · exact fun u e he => by obtain ⟨x, -, rfl⟩ := List.mem_map.1 he; exact h _ _
      · exact each_skip))
    fun u e he => by rw [List.mem_singleton.1 he]; exact h _ _

theorem each_shareWords {P : Effect → Prop} (h : ∀ k m, P (.share k m)) (core k : Nat) (m : Mask) :
    Each P (shareWords core k m) :=
  each_andThen (each_recordShare h _ _ _) (each_ite (each_recordShare h _ _ _) each_skip)

theorem each_shareFor {P : Effect → Prop} (h : ∀ k m, P (.share k m)) (i : Iss) (n : Nat)
    (oks : List (Nat × Nat × Loc × Option DWord)) : Each P (shareFor i n oks) :=
  each_forAll fun x => by
    obtain ⟨l, va, loc, leaf⟩ := x
    cases loc with
    | scr b o => cases leaf <;> exact each_skip
    | glob k => cases leaf with
      | none => exact each_skip
      | some e => exact each_ite each_skip (each_shareWords h _ _ _)

theorem filled_shareFor (i : Iss) (n : Nat) (oks : List (Nat × Nat × Loc × Option DWord)) : Keeps Filled (shareFor i n oks) :=
  fun s => filled_of_only_dir (only_of_each (each_shareFor (by simp [Effect.table]) i n oks) s)

/-! ## The four accesses -/

/-- What an access does at issue besides, for the lanes it performs. -/
def alsoOf (i : Iss) (f : MFields) : MKind → Mask → Act
  | .load, m => andThen (wrote i (ldUses f) m)
      (updRegions i.w m fun _ r => regionNote r f.d.toNat (4 * widthRegs f.width) none (addrV f))
  | .atom _ _, m => wrote i (atomUses f) m
  | _, _ => skip

/-- The four accesses run to their shared end. -/
theorem exec_accessForms (f : MFields) (s : State) (i : Iss) : AllHold (accessForms f s i) fun y =>
    MayRun s i y.2.1 y.2.2.1 (guardMask i f.gp f.gn) → (y.2.2.2.1 ≠ .load → regionLanes i &&& guardMask i f.gp f.gn = 0) →
      exec y.1 s = .next (after (issueAccess i f y.2.2.2.1 y.2.2.2.2.1 y.2.2.2.2.2 (alsoOf i f y.2.2.2.1)) s) := by
  refine ⟨fun hmay _ => ?load, fun hmay hreg => ?store, fun hmay hreg => ?atom, fun hmay hreg => ?red⟩
  case load => exact atIssue_act hmay.here (gated_of_mayRun hmay _)
  case store => exact atIssue_act hmay.here ((gated_of_mayRun hmay _).trans (noRegion_of_none (hreg (by simp)) _ _))
  case atom => exact atIssue_act hmay.here ((gated_of_mayRun hmay _).trans (noRegion_of_none (hreg (by simp)) _ _))
  case red => exact atIssue_act hmay.here ((gated_of_mayRun hmay _).trans (noRegion_of_none (hreg (by simp)) _ _))

/-- The same of one of them. -/
theorem exec_access {f : MFields} {s : State} {i : Iss} {o : Instr} {chk : Option (Cause × Nat)} {u : Uses} {kind : MKind}
    {fs : List LaneFate} {units : Nat → Loc → List MUnit} (ho : (o, chk, u, kind, fs, units) ∈ accessForms f s i)
    (hmay : MayRun s i chk u (guardMask i f.gp f.gn)) (hreg : kind ≠ .load → regionLanes i &&& guardMask i f.gp f.gn = 0) :
    exec o s = .next (after (issueAccess i f kind fs units (alsoOf i f kind)) s) :=
  allHold_mem (exec_accessForms f s i) ho hmay hreg

/-! ## What issuing an access does before the strand goes on -/

/-- The state after the accesses of a strand have issued and before it goes on: its warp is `y`, its strand `z`, and the
access of the lanes performed is in flight. -/
structure AccessIssued (s t : State) (i : Iss) (f : MFields) (kind : MKind) (fs : List LaneFate)
    (units : Nat → Loc → List MUnit) (y : Warp) (z : Strand) : Prop where
  rest : t = { s with warps := t.warps, cores := t.cores, dir := t.dir, ops := t.ops, nextId := t.nextId, bad := t.bad }
  self : mLook t.warps i.w = some y
  noted : Noted i y z
  warps : ∀ v, v ≠ i.w → mLook t.warps v = mLook s.warps v
  cores : ∀ c, coreOf t c = { coreOf s c with tlb := (coreOf t c).tlb }
  bad : ∀ e ∈ t.bad, e ∈ s.bad
  none_ : okLanes fs = [] → t.ops = s.ops ∧ y.ld = i.warp.ld ∧ y.st = i.warp.st
  some_ : okLanes fs ≠ [] → t.ops = mIns s.ops s.nextId
      { opOf i f kind ((okLanes fs).flatMap fun x => units x.1 x.2.2.1) with since := cycleOf s i.core } ∧
    t.nextId = s.nextId + 1 ∧ y.ld = i.warp.ld + (if kind.onLd then 1 else 0) ∧ y.st = i.warp.st + (if kind.onLd then 0 else 1)

/-- What an access that passes its checks does before its strand goes on. -/
def accessHead (i : Iss) (f : MFields) (kind : MKind) (fs : List LaneFate) (units : Nat → Loc → List MUnit) : Act :=
  let oks := okLanes fs
  andThen (fillFor i oks) <|
  andThen (if kind.isRead && !kind.isWrite then shareFor i (widthBytes f.width) oks else skip) <|
  andThen (if oks.isEmpty then skip else issueOp i (opOf i f kind (oks.flatMap fun x => units x.1 x.2.2.1)))
    (alsoOf i f kind (oks.foldl (fun m x => m ||| laneBit x.1) (0 : Mask)))

section
variable {s : State} {i : Iss} {f : MFields} {kind : MKind} {fs : List LaneFate} {units : Nat → Loc → List MUnit}

theorem issueAccess_eq (hstop : firstStop fs = none) (hroom : okLanes fs ≠ [] → counterFull i.warp kind = false) :
    after (issueAccess i f kind fs units (alsoOf i f kind)) s =
      after (if (absentLanesOf fs).isEmpty then advance i 1
        else splitOff i (absentLanesOf fs) (if kind.isWrite then 1 else 0)
          (if f.rd = 0 then [] else routedData units (absentLanesOf fs)) (goOn 1))
        (after (accessHead i f kind fs units) s) := by
  have hfull : (!(okLanes fs).isEmpty && counterFull i.warp kind) = false := by
    cases h : okLanes fs with
    | nil => rfl
    | cons x xs => simp [hroom (by simp [h])]
  simp only [issueAccess, hstop, hfull, accessHead, after_andThen, Bool.false_eq_true, if_false]

/-- The warp with one more access of a kind in flight (R54). -/
def counted (x : Warp) (k : MKind) : Warp := if k.onLd then { x with ld := x.ld + 1 } else { x with st := x.st + 1 }

theorem after_issueOp {t : State} {x : Warp} (hx : mLook t.warps i.w = some x) (o : MemOp) : after (issueOp i o) t =
    { t with ops := mIns t.ops t.nextId { o with since := cycleOf t i.core }, nextId := t.nextId + 1
             warps := mIns t.warps i.w (counted x o.kind) } := by
  rw [issueOp, after_look, after_andThen, after_andThen, after_eff, after_eff,
    after_updWarp (by exact hx)]
  rfl

/-- The last part of the head: what the instruction does besides. -/
theorem WarpStep.alsoOf {u t : State} {y : Warp} {z : Strand} (h : WarpStep u t i.w y) (hn : Noted i y z) (m : Mask) :
    ∃ x z', WarpStep u (after (alsoOf i f kind m) t) i.w x ∧ Noted i x z' ∧ SameCounters y x := by
  cases kind with
  | load =>
    obtain ⟨x, z', hx, hn', hs⟩ := h.wrote hn (ldUses f) m
    obtain ⟨x2, hx2, hn2, hs2⟩ := hx.updRegions hn' m fun _ r => regionNote r f.d.toNat (4 * widthRegs f.width) none (addrV f)
    exact ⟨x2, z', by rw [Machine.alsoOf, after_andThen]; exact hx2, hn2, hs2.1.trans hs.1, hs2.2.trans hs.2⟩
  | atom sop ret => exact h.wrote hn (atomUses f) m
  | store | red sop | ald | fence => exact ⟨y, z, h, hn, rfl, rfl⟩

theorem accessHead_issued (hi : issuer s = some i) :
    ∃ y z, AccessIssued s (after (accessHead i f kind fs units) s) i f kind fs units y z := by
  obtain ⟨-, hw, hst, -⟩ := issuer_spec hi
  have hfill : Filled s (after (if kind.isRead && !kind.isWrite then shareFor i (widthBytes f.width) (okLanes fs) else skip)
      (after (fillFor i (okLanes fs)) s)) :=
    chain_filled.trans (filled_fillFor i _ s) (keeps_ite (fun _ => filled_shareFor i _ _) (fun _ => keeps_skip chain_filled) _)
  rw [accessHead, after_andThen, after_andThen, after_andThen]
  generalize after (if kind.isRead && !kind.isWrite then shareFor i (widthBytes f.width) (okLanes fs) else skip) _ = t2
    at hfill ⊢
  obtain ⟨e2, hcores⟩ := hfill
  have hw2 : mLook t2.warps i.w = some i.warp := by rw [e2]; exact hw
  have hn : Noted i i.warp i.st := ⟨rfl, hst, rfl, fun _ _ => rfl⟩
  by_cases hok : okLanes fs = []
  · rw [if_pos (by rw [hok]; rfl), after_skip]
    obtain ⟨y, z, hy, hyn, hc⟩ := (WarpStep.refl hw2).alsoOf (f := f) (kind := kind) hn
      ((okLanes fs).foldl (fun m x => m ||| laneBit x.1) (0 : Mask))
    generalize after (Machine.alsoOf i f kind _) t2 = t4 at hy ⊢
    exact ⟨y, z, by rw [hy.rest, e2], hy.self, hyn, fun v hv => (hy.warps v hv).trans (by rw [e2]),
      fun c => by rw [show coreOf t4 c = coreOf t2 c by rw [hy.rest]; rfl]; exact hcores c,
      fun e he => by have := hy.bad e he; rwa [e2] at this, fun _ => ⟨by rw [hy.rest, e2], hc⟩, fun h => absurd hok h⟩
  · rw [if_neg (by simpa using hok), after_issueOp hw2]
    obtain ⟨o, ho, ho_kind⟩ : ∃ o, o = opOf i f kind ((okLanes fs).flatMap fun x => units x.1 x.2.2.1) ∧ o.kind = kind := ⟨_, rfl, rfl⟩
    rw [← ho]
    have hcycle : cycleOf t2 i.core = cycleOf s i.core := by
      unfold cycleOf; rw [hcores, e2]
    have hn3 : Noted i (counted i.warp o.kind) i.st := by
      unfold counted; split <;> exact ⟨rfl, hst, rfl, fun _ _ => rfl⟩
    generalize ht3 : ({ t2 with ops := _, nextId := _, warps := _ } : State) = t3
    have hw3 : mLook t3.warps i.w = some (counted i.warp o.kind) := by rw [← ht3]; exact mLook_mIns_self ..
    obtain ⟨y, z, hy, hyn, hld, hsc⟩ := (WarpStep.refl hw3).alsoOf (f := f) (kind := kind) hn3
      ((okLanes fs).foldl (fun m x => m ||| laneBit x.1) (0 : Mask))
    generalize after (Machine.alsoOf i f kind _) t3 = t4 at hy ⊢
    refine ⟨y, z, by rw [hy.rest, ← ht3, e2], hy.self, hyn, fun v hv => (hy.warps v hv).trans ?_,
      fun c => by rw [show coreOf t4 c = coreOf t2 c by rw [hy.rest, ← ht3]; rfl]; exact hcores c,
      fun e he => by have := hy.bad e he; rwa [← ht3, e2] at this, fun h => absurd h hok, fun _ => ⟨?_, ?_, hld.trans ?_, hsc.trans ?_⟩⟩
    · rw [← ht3]; exact (mLook_mIns_ne _ _ hv).trans (by rw [e2])
    · rw [hy.rest, ← ht3, hcycle, ho, e2]
    · rw [hy.rest, ← ht3, e2]
    · rw [ho_kind]; unfold counted; split <;> rfl
    · rw [ho_kind]; unfold counted; split <;> rfl
end

/-- Settles O20: the head of the access, then the strand goes on. -/
theorem accessesIssue : Obligations.AccessesIssue := by
  unfold Obligations.AccessesIssue
  intro f s i o chk u kind fs units ho g hmay hreg hstop habs hfull
  obtain ⟨y, z, h⟩ := accessHead_issued (f := f) (kind := kind) (fs := fs) (units := units) hmay.here
  have hrun := (exec_access ho hmay hreg).trans (congrArg Host.Outcome.next (issueAccess_eq hstop fun _ => hfull))
  rw [habs, List.isEmpty_nil, if_pos rfl] at hrun
  generalize after (accessHead i f kind fs units) s = t at h hrun
  obtain ⟨x, hx, ex, hpast⟩ := after_advance h.self h.noted.unmoved 1
  rw [hx] at hrun
  have hld : x.ld = y.ld := by rw [ex]
  have hsc : x.st = y.st := by rw [ex]
  refine ⟨_, x, hrun, ⟨by rw [h.rest], mLook_mIns_self .., fun v hv => (mLook_mIns_ne _ _ hv).trans (h.warps v hv), fun k hk => ?_,
    h.cores, h.bad⟩, hpast, by rw [ex, h.noted.warp], fun hok => ?_, fun hok => ?_⟩
  · by_cases hok : okLanes fs = []
    · exact congrArg (mLook · k) (h.none_ hok).1
    · exact (congrArg (mLook · k) (h.some_ hok).1).trans (mLook_mIns_ne _ _ hk)
  · rw [hld, hsc]; exact h.none_ hok
  · obtain ⟨hops, hid, h1, h2⟩ := h.some_ hok
    rw [hld, hsc]
    exact ⟨(congrArg (mLook · _) hops).trans (mLook_mIns_self ..), hid, h1, h2⟩

/-- Settles O21: a check that fails ends the access in its trap. -/
theorem accessChecksTrap : Obligations.AccessChecksTrap := by
  unfold Obligations.AccessChecksTrap
  intro f s i o chk u kind fs units c m a e ho g hmay hreg hstop hnow hh ht hnone hrec
  have hact : issueAccess i f kind fs units (alsoOf i f kind) = deliver i.w i.k
      { trapHere i c with lanes := m, addr := BitVec.ofNat 64 a, extra := BitVec.ofNat 64 e,
                          name := nameOf i.warp i.blk.launch i.blk.b (lowLane m) } := by
    simp [issueAccess, hstop, trapLanes, takeTrap, splitReady_of_trapNow hnow, hh, ht, hnone]
  exact ⟨_, (exec_access ho hmay hreg).trans (by rw [hact]), deliver_entered (issAt_of_issuer hmay.here) _ hrec⟩

end Sys2Proof.Machine

namespace Sys2Proof.Machine

/-! Page faults that a strand's lanes raise, and the lanes that park at them (02_execution_model R33, 25_traps_faults R394). -/

theorem mem_mIns_of_ne {α : Type} {m : Map α} {e : Nat × α} (he : e ∈ m) {k : Nat} (h : e.1 ≠ k) (a : α) : e ∈ mIns m k a := by
  induction m with
  | nil => cases he
  | cons d m ih =>
    simp only [mIns]
    rcases List.mem_cons.1 he with rfl | he
    · rw [if_neg (Ne.symm h)]
      split <;> simp
    · split
      · simp [he]
      · split
        · simp [he]
        · simp [ih he]

theorem lt_faultId {s : State} {e : Nat × PageFault} (he : e ∈ s.faults) : e.1 < faultId s := by
  have key : ∀ (l : List (Nat × PageFault)) (n : Nat), let r := l.foldl (fun n e => max n (e.1 + 1)) n
      n ≤ r ∧ ∀ e ∈ l, e.1 < r := by
    intro l
    induction l with
    | nil => intro n; simp
    | cons d l ih =>
      intro n
      obtain ⟨h1, h2⟩ := ih (max n (d.1 + 1))
      simp only [List.foldl_cons] at h1 h2 ⊢
      exact ⟨by omega, fun e he => (List.mem_cons.1 he).elim (fun h => by subst h; omega) (h2 e)⟩
  exact (key s.faults s.mgmt.nextFault).2 e he

/-- `t` is `s` but for page faults raised besides those open. -/
structure Raised (s t : State) : Prop where
  rest : t = { s with faults := t.faults, mgmt := { s.mgmt with nextFault := t.mgmt.nextFault } }
  kept : ∀ k p, mLook s.faults k = some p → mLook t.faults k = some p
  opened : ∀ cid page, (openFault s cid page).isSome = true → (openFault t cid page).isSome = true

theorem chain_raised : Chain Raised where
  refl _ := ⟨rfl, fun _ _ h => h, fun _ _ h => h⟩
  trans h g := ⟨by rw [g.rest, h.rest], fun k p hp => g.kept k p (h.kept k p hp), fun c p hp => g.opened c p (h.opened c p hp)⟩

theorem openFault_isSome {s : State} {cid page : Nat} :
    (openFault s cid page).isSome = true ↔ ∃ e ∈ s.faults, e.2.ctx = cid ∧ e.2.page = page := by
  simp [openFault, List.find?_isSome]

/-- A fault that is raised is open, with every other (R394). -/
theorem raiseFault_raised (cid page kind die : Nat) (s : State) :
    Raised s (after (raiseFault cid page kind die) s) ∧ (openFault (after (raiseFault cid page kind die) s) cid page).isSome = true := by
  rw [raiseFault, after_look]
  split
  · next h => exact ⟨chain_raised.refl s, h⟩
  · rw [after_andThen, after_updMgmt, after_eff]
    refine ⟨⟨rfl, fun k p hk => ?_, fun c q h => ?_⟩, openFault_isSome.2 ⟨_, mem_of_mLook (mLook_mIns_self ..), rfl, rfl⟩⟩
    · exact (mLook_mIns_ne _ _ (Nat.ne_of_lt (lt_faultId (mem_of_mLook hk)))).trans hk
    · obtain ⟨e, he, h1⟩ := openFault_isSome.1 h
      exact openFault_isSome.2 ⟨e, mem_mIns_of_ne he (Nat.ne_of_lt (lt_faultId he)) _, h1⟩

/-- The faults of a list of pages are all open once they are raised. -/
theorem raiseFaults_raised (cid kind die : Nat) (ab : List (Nat × Nat)) (s : State) :
    let t := after (forAll (fun (x : Nat × Nat) => raiseFault cid (x.2 / 4096) kind die) ab) s
    Raised s t ∧ ∀ l ∈ ab, (openFault t cid (l.2 / 4096)).isSome = true := by
  induction ab generalizing s with
  | nil => exact ⟨chain_raised.refl s, fun l hl => by cases hl⟩
  | cons x ab ih =>
    obtain ⟨h1, h2⟩ := raiseFault_raised cid (x.2 / 4096) kind die s
    obtain ⟨h3, h4⟩ := ih (after (raiseFault cid (x.2 / 4096) kind die) s)
    rw [after_forAll_cons]
    exact ⟨chain_raised.trans h1 h3, fun l hl => (List.mem_cons.1 hl).elim (fun h => h ▸ h3.opened _ _ h2) (h4 l)⟩

theorem stepSlots_shadow (n : Nat) (t : Strand) : (stepSlots n t).shadow = t.shadow ∧ (stepSlots n t).target = t.target := by
  unfold stepSlots
  simp only
  split <;> exact ⟨rfl, rfl⟩

theorem mergeShadow_of_whole {t : Strand} (h : t.target = none) : mergeShadow t = t := by rw [mergeShadow, h]

/-- A strand none of whose parts runs ahead goes on without the lanes it parks (R33). -/
theorem parkLanes_goOn {p : Part} {z : Strand} (h : z.target = none) (n : Nat) : let y := parkLanes p (goOn n) z
    y.shadow = p :: z.shadow ∧ y.pc = (stepSlots n z).pc ∧ y.slot = (stepSlots n z).slot ∧ y.members = z.members := by
  have e : parkLanes p (goOn n) z = mergeShadow (stepSlots n { z with shadow := p :: z.shadow }) := by
    simp only [parkLanes, h]; rfl
  obtain ⟨es, ht⟩ := stepSlots_shadow n { z with shadow := p :: z.shadow }
  obtain ⟨e1, e2⟩ := stepSlots_congr n (t := { z with shadow := p :: z.shadow }) (u := z) rfl rfl rfl
  rw [e, mergeShadow_of_whole (ht.trans h)]
  exact ⟨es, e1, e2, stepSlots_members ..⟩

/-- Settles O22: the head of the access, the faults, and the parked part. -/
theorem absentPagesPark : Obligations.AbsentPagesPark := by
  unfold Obligations.AbsentPagesPark
  intro f s i o chk u kind fs units ho g ab part hmay hreg hstop hab hroom
  obtain ⟨y, z, h⟩ := accessHead_issued (f := f) (kind := kind) (fs := fs) (units := units) hmay.here
  have hrun := (exec_access ho hmay hreg).trans (congrArg Host.Outcome.next (issueAccess_eq hstop hroom))
  rw [if_neg (by simpa using hab), splitOff, after_andThen] at hrun
  generalize after (accessHead i f kind fs units) s = t at h hrun
  obtain ⟨hr, hopen⟩ := raiseFaults_raised i.cid (if kind.isWrite then 1 else 0) (i.core / Config.coresPerDie) ab t
  generalize after (forAll _ _) t = t2 at hr hopen hrun
  have hw2 : mLook t2.warps i.w = some y := by rw [hr.rest]; exact h.self
  have hz : z = { i.st with wrV := z.wrV, wrP := z.wrP } := h.noted.same
  have hld : y.ld = i.warp.ld + (if okLanes fs ≠ [] ∧ kind.onLd = true then 1 else 0) := by
    by_cases hok : okLanes fs = []
    · simp [hok, h.none_ hok]
    · simp [hok, h.some_ hok]
  have hsc : y.st = i.warp.st + (if okLanes fs ≠ [] ∧ kind.onLd = false then 1 else 0) := by
    by_cases hok : okLanes fs = []
    · simp [hok, h.none_ hok]
    · cases hk : kind.onLd <;> simp [hok, h.some_ hok, hk]
  have hpart : part = { part with pc := z.pc, slot := z.slot, hdr := z.hdr } := by rw [hz]
  have hwarp (x : Warp) (ex : x = { y with strands := x.strands }) : x = { i.warp with
      strands := x.strands
      regions := x.regions
      ld := i.warp.ld + (if okLanes fs ≠ [] ∧ kind.onLd = true then 1 else 0)
      st := i.warp.st + (if okLanes fs ≠ [] ∧ kind.onLd = false then 1 else 0) } := by
    rw [← hld, ← hsc, ex, h.noted.warp]
  rw [after_andThen, after_updStrand hw2, after_bump] at hrun
  refine ⟨_, _, parkLanes part (goOn 1) z, z, hrun, ?rest, fun v hv => ?warps, mLook_mIns_self .., ?warp, ?strand, rfl, hz, fun ht => ?goes,
    fun k hk => (onStrand_others _ _ _ hk).trans (h.noted.others k hk), fun k hk => ?ops, fun hok => ?op, fun k p hp => ?faults, hopen⟩
  case rest => rw [hr.rest, h.rest]
  case warps => exact (mLook_mIns_ne _ _ hv).trans (by rw [hr.rest]; exact h.warps v hv)
  case warp => exact hwarp _ (onStrand_eq ..)
  case strand => exact (onStrand_here h.noted.here).trans (congrArg (fun p => some (parkLanes p (goOn 1) z)) hpart.symm)
  case goes =>
    have hgo := parkLanes_goOn (p := part) (show z.target = none by rw [hz]; exact ht) 1
    obtain ⟨e1, e2⟩ := stepSlots_congr 1 (t := z) (u := i.st) (by rw [hz]) (by rw [hz]) (by rw [hz])
    rw [e1, e2, show z.shadow = i.st.shadow by rw [hz], show z.members = i.st.members by rw [hz]] at hgo
    exact hgo
  case ops =>
    by_cases hok : okLanes fs = []
    · exact congrArg (mLook · k) (by rw [hr.rest]; exact (h.none_ hok).1)
    · exact (congrArg (mLook · k) (by rw [hr.rest]; exact (h.some_ hok).1)).trans (mLook_mIns_ne _ _ hk)
  case op => exact (congrArg (mLook · _) (by rw [hr.rest]; exact (h.some_ hok).1)).trans (mLook_mIns_self ..)
  case faults => exact hr.kept k p (by rw [h.rest]; exact hp)

end Sys2Proof.Machine

namespace Sys2Proof.Machine

/-! Performing the units of accesses in flight (12_ordering R198, R201, 11_memory_hierarchy R183, 13_ref_memory_copy R216, R220). -/

/-! ## Bytes written and read back -/

theorem putList_bytesOfNat (m : Map Byte) (k n x : Nat) : putList m k (bytesOfNat n x) = putBytes m k n x := by
  induction n generalizing m k x with
  | zero => rfl
  | succ n ih => simp only [bytesOfNat, putList, putBytes, ih]

theorem bytesAt_putBytes (m : Map Byte) (k n x : Nat) : bytesAt (putBytes m k n x) k n = x % 2 ^ (8 * n) := by
  induction n generalizing m k x with
  | zero => simp [bytesAt, Nat.mod_one]
  | succ n ih =>
    rw [putBytes, bytesAt, mGet_putBytes_outside _ _ _ _ _ (by omega), mGet_mPut_self, ih,
      show 2 ^ (8 * (n + 1)) = 256 * 2 ^ (8 * n) by rw [Nat.mul_add, Nat.pow_add, Nat.mul_comm], Nat.mod_mul]
    simp

/-! ## What a unit writes -/

/-- The write of a unit at its home. -/
def homeWrite (s : State) (o : MemOp) (u : MUnit) : Act :=
  match unitWrites s o u with
  | some v => writeLoc u.loc u.n v
  | none => skip

/-- `t` is `s` but for what the unit writes at its home. -/
structure HomeWritten (s t : State) (o : MemOp) (u : MUnit) : Prop where
  rest : t = { s with mem := t.mem, blocks := t.blocks, bad := t.bad }
  mem : ∀ a, (unitWrites s o u).isNone = true ∨ ¬inUnit u a → mGet 0 t.mem a = mGet 0 s.mem a
  blocks : ∀ b z, mLook s.blocks b = some z → ∃ c, mLook t.blocks b = some { z with scratch := c } ∧
    ∀ a, (unitWrites s o u).isNone = true ∨ ¬inScratch u b a → mGet 0 c a = mGet 0 z.scratch a
  noBlock : ∀ b, mLook s.blocks b = none → mLook t.blocks b = none
  value : ∀ v, unitWrites s o u = some v → readLoc t u.loc u.n = v % 2 ^ (8 * u.n)
  bad : ∀ e ∈ t.bad, e ∈ s.bad

section
variable {s : State} {o : MemOp} {u : MUnit}

theorem HomeWritten.none_ (h : unitWrites s o u = none) : HomeWritten s s o u :=
  ⟨rfl, fun _ _ => rfl, fun _ z hz => ⟨z.scratch, hz, fun _ _ => rfl⟩, fun _ h => h, fun v hv => by simp [h] at hv, fun _ h => h⟩

/-- Error marks that go leave the rest as it is. -/
theorem HomeWritten.setBad {t : State} (h : HomeWritten s t o u) (f : BadWord → Bool) :
    HomeWritten s { t with bad := t.bad.filter f } o u :=
  ⟨by conv => lhs; rw [h.rest], h.mem, h.blocks, h.noBlock, h.value, fun e he => h.bad e (List.mem_filter.1 he).1⟩

theorem HomeWritten.glob {k v : Nat} (hl : u.loc = .glob k) (hv : unitWrites s o u = some v) :
    HomeWritten s { s with mem := putList s.mem k (bytesOfNat u.n v) } o u := by
  rw [putList_bytesOfNat]
  refine ⟨rfl, fun a ha => mGet_putBytes_outside _ _ _ _ _ ?_, fun b z hz => ⟨z.scratch, hz, fun _ _ => rfl⟩, fun _ h => h,
    fun w hw => ?_, fun _ h => h⟩
  · have hout : ¬inUnit u a := ha.resolve_left (by simp [hv])
    refine Classical.byContradiction fun hc => ?_
    exact hout ⟨k, hl, by omega, by omega⟩
  · obtain rfl : v = w := Option.some.inj (hv.symm.trans hw)
    rw [hl]; exact bytesAt_putBytes ..

theorem HomeWritten.scr {b k v : Nat} {z : Block} (hl : u.loc = .scr b k) (hv : unitWrites s o u = some v)
    (hb : mLook s.blocks b = some z) :
    HomeWritten s { s with blocks := mIns s.blocks b { z with scratch := putBytes z.scratch k u.n v } } o u := by
  refine ⟨rfl, fun _ _ => rfl, fun c y hy => ?_, fun c hc => ?_, fun w hw => ?_, fun _ h => h⟩
  · by_cases h : c = b
    · subst h
      obtain rfl : z = y := Option.some.inj (hb.symm.trans hy)
      refine ⟨_, mLook_mIns_self .., fun a ha => mGet_putBytes_outside _ _ _ _ _ ?_⟩
      have hout : ¬inScratch u c a := ha.resolve_left (by simp [hv])
      refine Classical.byContradiction fun hc => ?_
      exact hout ⟨k, hl, by omega, by omega⟩
    · exact ⟨y.scratch, (mLook_mIns_ne _ _ h).trans hy, fun _ _ => rfl⟩
  · exact (mLook_mIns_ne _ _ (by rintro rfl; simp [hb] at hc)).trans hc
  · obtain rfl : v = w := Option.some.inj (hv.symm.trans hw)
    rw [hl]
    simp only [readLoc, mLook_mIns_self]
    exact bytesAt_putBytes ..

theorem homeWrite_written (hb : ∀ b a, u.loc = .scr b a → (mLook s.blocks b).isSome = true) :
    HomeWritten s (after (homeWrite s o u) s) o u := by
  rw [homeWrite]
  split
  · next v hv =>
    cases hl : u.loc with
    | glob k =>
      have h := HomeWritten.glob hl hv
      simp only [writeLoc, after, applyAll_cons]
      split
      · exact h
      · exact h.setBad _
    | scr b k =>
      obtain ⟨z, hz⟩ := Option.isSome_iff_exists.1 (hb b k hl)
      have h := HomeWritten.scr hl hv hz
      rw [writeLoc, after_andThen, after_updBlock hz]
      simp only [after]
      split
      · exact h
      · exact h.setBad _
  · next hv => exact .none_ hv
end

/-! ## What a unit loads -/

/-- The registers and slots that a unit's old value goes to. -/
def homeLoad (id : Nat) (o : MemOp) (a : Nat) (v : MUnit) : Act :=
  if unitLoads o then andThen (putLoaded o.w v a) (if o.kind = .ald then fillSlot o.w id v a else skip) else skip

theorem after_unitEffect (id : Nat) (o : MemOp) (v : MUnit) (t : State) : after (unitEffect o.w id o.kind v) t =
    after (homeLoad id o (readLoc t v.loc v.n) v) (after (homeWrite t o v) t) := by
  rw [unitEffect, after_look]
  cases hk : o.kind with
  | atom sop ret =>
    cases ret <;> simp [homeWrite, homeLoad, unitWrites, unitLoads, hk] <;> rfl
  | red sop => simp [homeWrite, homeLoad, unitWrites, unitLoads, hk] <;> rfl
  | load | store | ald | fence => simp [homeWrite, homeLoad, unitWrites, unitLoads, hk]

/-- Warp `y` has taken value `a` in the registers of the units `us`, and no other register has changed. -/
structure Loaded (a : Nat) (us : List MUnit) (x y : Warp) : Prop where
  warp : y = { x with v := y.v, regions := y.regions }
  here : ∀ v ∈ us, vVal y (decide (v.n = 8)) v.reg v.lane = a % 2 ^ (32 * span (decide (v.n = 8)))
  others : ∀ r l, l < 32 → (∀ v ∈ us, l ≠ v.lane ∨ r ∉ regs v.reg (decide (v.n = 8))) → vR y r l = vR x r l

theorem Loaded.refl (a : Nat) (x : Warp) : Loaded a [] x x := ⟨rfl, fun _ hv => (List.not_mem_nil hv).elim, fun _ _ _ _ => rfl⟩

/-- One more unit, of another lane. -/
theorem Loaded.cons {a : Nat} {v : MUnit} {us : List MUnit} {x y z : Warp} (h : Loaded a us y z)
    (hy : y = { setVal x (decide (v.n = 8)) v.reg v.lane a with regions := y.regions }) (hv : v.lane < 32)
    (hne : ∀ e ∈ us, v.lane ≠ e.lane) : Loaded a (v :: us) x z := by
  have hv1 (q l : Nat) : vR y q l = vR (setVal x (decide (v.n = 8)) v.reg v.lane a) q l := vR_congr (by rw [hy]) q l
  refine ⟨by rw [h.warp, hy, setVal_eq], fun e he => ?_, fun r l hl hr => ?_⟩
  · rcases List.mem_cons.1 he with rfl | he
    · rw [vVal_of_vR fun q _ => (h.others q e.lane hv fun d hd => .inl (hne d hd)).trans (hv1 q e.lane), vVal_setVal_self]
    · exact h.here e he
  · rw [h.others r l hl fun d hd => hr d (List.mem_cons_of_mem _ hd), hv1]
    exact vR_setVal_ne _ _ _ hv hl (hr v List.mem_cons_self)

section
variable {s t : State} {id : Nat} {o : MemOp}

theorem WarpStep.homeLoad {y : Warp} (h : WarpStep s t o.w y) (hl : unitLoads o = true) (a : Nat) (v : MUnit) :
    ∃ z, WarpStep s (after (homeLoad id o a v) t) o.w z ∧
      z = { setVal y (decide (v.n = 8)) v.reg v.lane a with regions := z.regions } ∧ (o.kind ≠ .ald → z.regions = y.regions) := by
  have h1 := (h.updWarp fun x => setVal x (decide (v.n = 8)) v.reg v.lane a).clearBad o.w (regs v.reg (decide (v.n = 8)))
    (laneBit v.lane)
  rw [Machine.homeLoad, if_pos hl, after_andThen, putLoaded, after_andThen]
  by_cases hk : o.kind = .ald
  · rw [if_pos hk]
    refine ⟨_, h1.updWarp _, ?_, fun h => absurd hk h⟩
    split <;> rfl
  · rw [if_neg hk]
    exact ⟨_, h1, by rw [setVal_eq], fun _ => by rw [setVal_eq]⟩

theorem WarpStep.homeLoads {us : List MUnit} {y : Warp} (h : WarpStep s t o.w y) (hl : unitLoads o = true) (a : Nat)
    (hlane : ∀ v ∈ us, v.lane < 32) (hnd : (us.map (·.lane)).Nodup) :
    ∃ z, WarpStep s (after (forAll (Machine.homeLoad id o a) us) t) o.w z ∧ Loaded a us y z ∧
      (o.kind ≠ .ald → z.regions = y.regions) := by
  induction us generalizing t y with
  | nil => exact ⟨y, h, .refl a y, fun _ => rfl⟩
  | cons v us ih =>
    simp only [List.map_cons, List.nodup_cons] at hnd
    obtain ⟨z, hz, ez, hreg⟩ := h.homeLoad (id := id) hl a v
    rw [after_forAll_cons]
    obtain ⟨x, hx, hld, hreg2⟩ := ih hz (fun e he => hlane e (List.mem_cons_of_mem _ he)) hnd.2
    exact ⟨x, hx, hld.cons ez (hlane v List.mem_cons_self) fun e he hc => hnd.1 (hc ▸ List.mem_map_of_mem he),
      fun hk => (hreg2 hk).trans (hreg hk)⟩

theorem after_homeLoads_none (hl : unitLoads o = false) (a : Nat) (us : List MUnit) :
    after (forAll (homeLoad id o a) us) t = t := by
  induction us with
  | nil => rfl
  | cons v us ih => rw [after_forAll_cons, homeLoad, hl, if_neg Bool.false_ne_true, after_skip, ih]

theorem readLoc_congr {s t : State} (hm : t.mem = s.mem) (hb : t.blocks = s.blocks) (l : Loc) (n : Nat) :
    readLoc t l n = readLoc s l n := by cases l <;> simp only [readLoc, hm, hb]

/-- Loads of one value read it all alike: none of them changes memory. -/
theorem after_unitLoads (us : List MUnit) (u : MUnit) (y : Warp) (hy : mLook t.warps o.w = some y) (hl : unitLoads o = true)
    (hn : ∀ t v, unitWrites t o v = none) (hus : ∀ v ∈ us, v.loc = u.loc ∧ v.n = u.n) :
    after (forAll (unitEffect o.w id o.kind) us) t = after (forAll (homeLoad id o (readLoc t u.loc u.n)) us) t := by
  induction us generalizing t y with
  | nil => rfl
  | cons v us ih =>
    obtain ⟨e1, e2⟩ := hus v List.mem_cons_self
    obtain ⟨z, hz, -⟩ := (WarpStep.refl hy).homeLoad (id := id) hl (readLoc t u.loc u.n) v
    rw [after_forAll_cons, after_forAll_cons, after_unitEffect, homeWrite, hn, after_skip, e1, e2,
      ih z hz.self fun e he => hus e (List.mem_cons_of_mem _ he),
      readLoc_congr (s := t) (by rw [hz.rest]) (by rw [hz.rest])]

/-- The units served together, performed: the write at the home, then the loads. -/
theorem after_served {k : Nat} {u : MUnit} {y : Warp} (hy : mLook s.warps o.w = some y) (hk : o.units[k]? = some u)
    (hkind : o.kind ≠ .fence) (hnd : ((o.units.filter (served o u)).map (·.lane)).Nodup)
    (hsh : o.shared = true → o.kind.isWrite = false) :
    after (forAll (unitEffect o.w id o.kind) (o.units.filter (served o u))) s =
      after (forAll (homeLoad id o (readLoc s u.loc u.n)) (o.units.filter (served o u))) (after (homeWrite s o u) s) := by
  have hself : u ∈ o.units.filter (served o u) := List.mem_filter.2 ⟨List.mem_of_getElem? hk, by simp [served]⟩
  have hmem (v : MUnit) (hv : v ∈ o.units.filter (served o u)) : served o u v = true := (List.mem_filter.1 hv).2
  generalize o.units.filter (served o u) = us at hnd hself hmem
  cases hw : o.kind.isWrite with
  | false =>
    have hl : unitLoads o = true := by
      cases h : o.kind <;> simp_all [unitLoads, MKind.isWrite]
    have hn (t : State) (v : MUnit) : unitWrites t o v = none := by
      cases h : o.kind <;> simp_all [unitWrites, MKind.isWrite]
    rw [homeWrite, hn, after_skip]
    refine after_unitLoads us u y hy hl hn fun v hv => ?_
    have := hmem v hv
    simp only [served, Bool.or_eq_true, decide_eq_true_eq, Bool.and_eq_true] at this
    rcases this with rfl | ⟨⟨-, h1⟩, h2⟩
    · exact ⟨rfl, rfl⟩
    · exact ⟨h1, h2⟩
  | true =>
    have hshared : o.shared = false := by
      cases h : o.shared with
      | false => rfl
      | true => rw [hsh h] at hw; cases hw
    have heq (v : MUnit) (hv : v ∈ us) : v = u := by simpa [served, hshared] using hmem v hv
    have hone : us = [u] := by
      match us, hnd, hself, heq with
      | [], _, h, _ => cases h
      | [v], _, _, h => rw [h v (by simp)]
      | v :: d :: vs, h, _, he => simp [he v (by simp), he d (by simp)] at h
    rw [hone, after_forAll_cons, after_forAll_cons, after_forAll_nil, after_forAll_nil, after_unitEffect]
end

/-! ## An access that leaves -/

/-- Accesses dropped one by one. -/
theorem mLook_dropOps (l : List (Nat × MemOp)) (s : State) (j : Nat) :
    mLook (applyAll (l.map fun e => .dropOp e.1) s).ops j = if j ∈ l.map (·.1) then none else mLook s.ops j := by
  induction l generalizing s with
  | nil => simp
  | cons e l ih =>
    rw [List.map_cons, applyAll_cons, ih, applyEffect_dropOp]
    by_cases hj : j = e.1
    · subst hj; simp
    · simp only [List.map_cons, List.mem_cons, hj, false_or, mLook_mDel_ne _ hj]

theorem only_dropFences (w : Nat) (s : State) : Only [.ops] s (after (dropFences w) s) :=
  only_of_each (fun s e he => by obtain ⟨x, -, rfl⟩ := List.mem_map.1 he; simp [Effect.table]) s

/-- Dropping the fences that hold nothing leaves every other access, and adds none (R222). -/
theorem mLook_dropFences {w j : Nat} {s : State} (h : ∀ e ∈ s.ops, e.1 = j → e.2.kind ≠ .fence ∨ e.2.w ≠ w) :
    mLook (after (dropFences w) s).ops j = mLook s.ops j := by
  refine (mLook_dropOps _ s j).trans (if_neg fun hj => ?_)
  obtain ⟨e, he, hej⟩ := List.mem_map.1 hj
  simp only [List.mem_filter, Bool.and_eq_true, decide_eq_true_eq] at he
  obtain ⟨hmem, ⟨hw, hk⟩, -⟩ := he
  exact (h e hmem hej).elim (fun h => h hk) fun h => h hw

/-- An access with some units done: it leaves, with its counter, where none is left to do (R54). -/
structure Retired (t u : State) (id : Nat) (o : MemOp) (y z : Warp) : Prop where
  rest : u = { t with warps := u.warps, ops := u.ops }
  self : mLook u.warps o.w = some z
  warps : ∀ v, v ≠ o.w → mLook u.warps v = mLook t.warps v
  warp : z = { y with ld := y.ld - (if o.units.all (·.done) && o.kind.onLd then 1 else 0)
                      st := y.st - (if o.units.all (·.done) && !o.kind.onLd then 1 else 0) }
  op : mLook u.ops id = if o.units.all (·.done) then none else some o
  ops : ∀ j, j ≠ id → (∀ e ∈ t.ops, e.1 = j → e.2.kind ≠ .fence ∨ e.2.w ≠ o.w) → mLook u.ops j = mLook t.ops j

/-- The warp with its counter one lower. -/
def uncounted (o : MemOp) (y : Warp) : Warp := if o.kind.onLd then { y with ld := y.ld - 1 } else { y with st := y.st - 1 }

theorem retireOp_retired {t : State} {id : Nat} {o : MemOp} {y : Warp} (hy : mLook t.warps o.w = some y) :
    ∃ z, Retired t (after (retireOp id o) t) id o y z := by
  rw [retireOp]
  cases hlast : o.units.all (·.done) with
  | false =>
    rw [if_neg Bool.false_ne_true]
    refine ⟨y, rfl, hy, fun _ _ => rfl, by simp [hlast], ?_, fun j hj _ => mLook_mIns_ne _ _ hj⟩
    rw [hlast]; exact mLook_mIns_self ..
  | true =>
    rw [if_pos rfl, after_andThen, after_andThen]
    have h1 : after (updWarp o.w (uncounted o)) (after (eff (.dropOp id)) t) =
        { t with ops := mDel t.ops id, warps := mIns t.warps o.w (uncounted o y) } := after_updWarp hy
    change ∃ z, Retired t (after (dropFences o.w) (after (updWarp o.w (uncounted o)) _)) id o y z
    rw [h1]
    have hd := only_dropFences o.w { t with ops := mDel t.ops id, warps := mIns t.warps o.w (uncounted o y) }
    have hw := hd.warps (by decide)
    have hrest := hd.eq
    simp at hrest
    refine ⟨uncounted o y, hrest.trans (by rw [hw]), (congrArg (mLook · o.w) hw).trans (mLook_mIns_self ..),
      fun v hv => (congrArg (mLook · v) hw).trans (mLook_mIns_ne _ _ hv), ?_, ?_, fun j hj h => ?_⟩
    · rw [hlast, uncounted]; cases o.kind.onLd <;> rfl
    · rw [hlast, if_pos rfl]
      refine (mLook_dropOps _ _ id).trans ?_
      split
      · rfl
      · exact mLook_mDel_self ..
    · exact (mLook_dropFences fun e he hej => h e (List.mem_filter.1 he).1 hej).trans (mLook_mDel_ne _ hj)

/-- The event that performs a unit which may be performed. -/
theorem exec_performUnit {s : State} {id k : Nat} {o : MemOp} {u : MUnit} (hop : mLook s.ops id = some o)
    (hu : o.units[k]? = some u) (hmay : ∀ v ∈ o.units.filter (served o u), mayPerform s id o v = true) :
    exec (if o.kind.onLd then .loadReturn id k else .storeCommit id k) s = .next (after
      (andThen (forAll (unitEffect o.w id o.kind) (o.units.filter (served o u))) <|
        andThen (retireOp id { o with units := o.units.map fun v => if served o u v then { v with done := true } else v }) bump) s) := by
  have hact (want : MKind → Bool) (hw : want o.kind = true) : after (performUnit id k want) s = after
      (andThen (forAll (unitEffect o.w id o.kind) (o.units.filter (served o u))) <|
        andThen (retireOp id { o with units := o.units.map fun v => if served o u v then { v with done := true } else v }) bump) s := by
    have hself : u ∈ o.units.filter (served o u) := List.mem_filter.2 ⟨List.mem_of_getElem? hu, by simp [served]⟩
    rw [performUnit, after_look, hop]
    simp only [hu, hw, hmay u hself, List.all_eq_true.2 hmay, Bool.and_self, if_true]
  cases hk : o.kind.onLd with
  | true => exact congrArg Host.Outcome.next (hact _ hk)
  | false => exact congrArg Host.Outcome.next (hact _ (by simp [hk]))

/-- Settles O23: the write at the home, the loads, and the access that leaves. -/
theorem accessesPerform : Obligations.AccessesPerform := by
  unfold Obligations.AccessesPerform
  intro s id k o u x us done last hop hu hmay hw hkind hlane hnd hsh hblk
  have hrun := exec_performUnit (id := id) hop hu hmay
  rw [after_andThen, after_served hw hu hkind hnd hsh, after_andThen] at hrun
  have h1 := homeWrite_written (o := o) hblk
  generalize after (homeWrite s o u) s = t1 at h1 hrun
  have hw1 : mLook t1.warps o.w = some x := by rw [h1.rest]; exact hw
  obtain ⟨y, hy, hload, hld, hnone⟩ : ∃ y, WarpStep t1 (after (forAll (homeLoad id o (readLoc s u.loc u.n)) us) t1) o.w y ∧
      (y = { x with v := y.v, regions := y.regions } ∧ (o.kind ≠ .ald → y.regions = x.regions)) ∧
      (unitLoads o = true → Loaded (readLoc s u.loc u.n) us x y) ∧ (unitLoads o = false → y = x) := by
    cases hl : unitLoads o with
    | true =>
      obtain ⟨y, hy, hld, hreg⟩ := (WarpStep.refl hw1).homeLoads (id := id) hl (readLoc s u.loc u.n) hlane hnd
      exact ⟨y, hy, ⟨hld.warp, hreg⟩, fun _ => hld, fun h => Bool.noConfusion h⟩
    | false => exact ⟨x, by rw [after_homeLoads_none hl]; exact .refl hw1, ⟨rfl, fun _ => rfl⟩, fun h => Bool.noConfusion h, fun _ => rfl⟩
  generalize after (forAll (homeLoad id o (readLoc s u.loc u.n)) us) t1 = t2 at hy hrun
  obtain ⟨z, hz⟩ := retireOp_retired (o := { o with units := done }) (id := id) hy.self
  generalize after (retireOp id { o with units := done }) t2 = t3 at hz hrun
  have hzv : z.v = y.v := by rw [hz.warp]
  have hops : t2.ops = s.ops := by rw [hy.rest, h1.rest]
  have hmem : t3.mem = t1.mem := by rw [hz.rest, hy.rest]
  have hblocks : t3.blocks = t1.blocks := by rw [hz.rest, hy.rest]
  refine ⟨_, z, hrun, ?rest, ?mem, ?blocks, ?noBlock, ?value, ?bad, hz.self, ?warps, ?warp, ?regions, ?loads, ?others, ?ld, ?st, hz.op, ?ops⟩
  case rest => rw [after_bump, hz.rest, hy.rest, h1.rest]
  case mem => exact fun a ha => (congrArg (mGet 0 · a) hmem).trans (h1.mem a ha)
  case blocks => exact fun b c hb => (h1.blocks b c hb).imp fun d hd => ⟨(congrArg (mLook · b) hblocks).trans hd.1, hd.2⟩
  case noBlock => exact fun b hb => (congrArg (mLook · b) hblocks).trans (h1.noBlock b hb)
  case value => exact fun v hv => (readLoc_congr hmem hblocks _ _).trans (h1.value v hv)
  case bad => exact fun e he => h1.bad e (hy.bad e (by rw [after_bump, hz.rest] at he; exact he))
  case warps => exact fun v hv => ((hz.warps v hv).trans (hy.warps v hv)).trans (by rw [h1.rest])
  case warp => rw [hz.warp, hload.1]
  case regions => exact fun hk => (by rw [hz.warp] : z.regions = y.regions).trans (hload.2 hk)
  case loads => exact fun hl v hv => (vVal_congr hzv _ _ _).trans ((hld hl).here v hv)
  case others =>
    refine fun r l hl h => (vR_congr hzv r l).trans ?_
    cases hul : unitLoads o with
    | true => exact (hld hul).others r l hl (h.resolve_right (by simp [hul]))
    | false => rw [hnone hul]
  case ld => rw [hz.warp, hload.1]
  case st => rw [hz.warp, hload.1]
  case ops => exact fun j hj h => (hz.ops j hj (by rw [hops]; exact h)).trans (by rw [hops])

end Sys2Proof.Machine

namespace Sys2Proof.Machine

/-! `fence` and `prefetch`, memory waits, and seals (11_memory_hierarchy R192 to R195, 13_ref_memory_copy R222 to R226). -/

/-! ## A strand that goes on -/

/-- `t` is `u` but that the strand of issue `i` has gone on `n` slots, its warp `x` being `x0` but for that. -/
structure WentOn (u t : State) (i : Iss) (n : Nat) (x0 x : Warp) : Prop where
  rest : t = { u with warps := t.warps, epoch := t.epoch }
  warps : ∀ v, v ≠ i.w → mLook t.warps v = mLook u.warps v
  self : mLook t.warps i.w = some x
  warp : x = { x0 with strands := x.strands }
  past : Past i n x

theorem wentOn_advance {u : State} {i : Iss} {x0 : Warp} (hw : mLook u.warps i.w = some x0) (hm : Unmoved i x0) (n : Nat) :
    ∃ x, WentOn u (after (advance i n) u) i n x0 x := by
  obtain ⟨x, hx, ex, hpast⟩ := after_advance hw hm n
  exact ⟨x, by rw [hx], fun v hv => by rw [hx]; exact mLook_mIns_ne _ _ hv, by rw [hx]; exact mLook_mIns_self .., ex, hpast⟩

/-- What stands over the strand that an issue point names. -/
theorem unmoved_of_strands {i : Iss} (h : mLook i.warp.strands i.k = some i.st) {x : Warp} (hx : x.strands = i.warp.strands) :
    Unmoved i x := ⟨⟨i.st, by rw [hx]; exact h, rfl, rfl, rfl, rfl⟩, fun _ _ => by rw [hx]⟩
theorem unmoved_of_look {i : Iss} (h : mLook i.warp.strands i.k = some i.st) : Unmoved i i.warp := unmoved_of_strands h rfl

theorem gated_of_go {s : State} {i : Iss} {chk : Option (Cause × Nat)} {u : Uses} {g : Mask} (hc : chk = none)
    (hg : gate s i u g = .go) (a : Act) : gated s i chk u g a = a := by simp only [gated, hc, hg]

theorem eq_of_only_dir {s t : State} (h : Only [.dir] s t) : t = { s with dir := t.dir } := by
  have e := h.eq
  simp at e
  rw [e]

/-! ## `fence` and `prefetch` -/

/-- Settles O24: both only go on, besides the fence that enters flight and the sharer that is recorded. -/
theorem fenceAndPrefetchComplete : Obligations.FenceAndPrefetchComplete := by
  unfold Obligations.FenceAndPrefetchComplete
  refine ⟨?fence, ?prefetch⟩
  case fence =>
    intro f s i g hmay
    obtain ⟨-, hw, hst, -⟩ := issuer_spec hmay.here
    have hrun : exec (.fence f) s = .next (after (advance i 1) (after (if inFlight s i.w g then
        andThen (eff (.op s.nextId { opOf i f .fence [] with lanes := g })) (eff (.ids (s.nextId + 1))) else skip) s)) :=
      (atIssue_act hmay.here (gated_of_mayRun hmay _)).trans (by rw [after_andThen])
    cases hf : inFlight s i.w g with
    | true =>
      rw [hf, if_pos rfl] at hrun
      generalize hu : after (andThen (eff (.op s.nextId _)) _) s = u at hrun
      replace hu : u = { s with ops := mIns s.ops s.nextId { opOf i f .fence [] with lanes := g }, nextId := s.nextId + 1 } := hu.symm
      obtain ⟨x, hx⟩ := wentOn_advance (u := u) (by rw [hu]; exact hw) (unmoved_of_look hst) 1
      generalize after (advance i 1) u = t at hx hrun
      have hops : t.ops = mIns s.ops s.nextId { opOf i f .fence [] with lanes := g } := by rw [hx.rest, hu]
      exact ⟨t, x, hrun, by rw [hx.rest, hu], fun v hv => (hx.warps v hv).trans (by rw [hu]), hx.self, hx.warp, hx.past,
        fun k hk => by rw [hops, mLook_mIns_ne _ _ hk], fun _ => by rw [hops, mLook_mIns_self], fun h => Bool.noConfusion h⟩
    | false =>
      rw [hf, if_neg Bool.false_ne_true, after_skip] at hrun
      obtain ⟨x, hx⟩ := wentOn_advance hw (unmoved_of_look hst) 1
      exact ⟨_, x, hrun, by rw [hx.rest], hx.warps, hx.self, hx.warp, hx.past, fun k _ => by rw [hx.rest],
        fun h => Bool.noConfusion h, fun _ => by rw [hx.rest]⟩
  case prefetch =>
    intro f s i g hmay
    obtain ⟨-, hw, hst, -⟩ := issuer_spec hmay.here
    have hdir := only_of_each (ts := [.dir]) (each_shareFor (by simp [Effect.table]) i (widthBytes f.width)
      (okLanes (fatesOf s i f (addrAt i f) g true false))) s
    have hrun : exec (.prefetch f) s = .next (after (advance i 1) (after (shareFor i (widthBytes f.width)
        (okLanes (fatesOf s i f (addrAt i f) g true false))) s)) :=
      (atIssue_act hmay.here (gated_of_mayRun hmay _)).trans (by rw [after_andThen])
    generalize after (shareFor i _ _) s = u at hdir hrun
    have hu := eq_of_only_dir hdir
    obtain ⟨x, hx⟩ := wentOn_advance (u := u) (by rw [hu]; exact hw) (unmoved_of_look hst) 1
    exact ⟨_, x, hrun, by rw [hx.rest, hu], fun v hv => (hx.warps v hv).trans (by rw [hu]), hx.self, hx.warp, hx.past⟩

/-! ## `waitm` -/

/-- Settles O25: every evaluation that finds the lanes met records its sharers and goes on. -/
theorem memoryWaitsComplete : Obligations.MemoryWaitsComplete := by
  unfold Obligations.MemoryWaitsComplete
  intro f s i g fs hchk hgate hreg hstop habs hmet goes
  have hgo (hi : issAt s i.w i.k = some i) (o : Instr) (ho : exec o s = .next (after (waitmMeans f s i) s)) : goes o := by
    obtain ⟨-, -, hw, hst, -⟩ := issAt_spec hi
    obtain ⟨u, hu, hact⟩ : ∃ u, Only [.dir] s u ∧ after (waitmMeans f s i) s = after (advance i 1) u := by
      rw [waitmMeans, gated_of_go hchk hgate, noRegion_of_none hreg]
      split
      · exact ⟨s, (chain_only _).refl s, rfl⟩
      · refine ⟨_, only_of_each (each_shareFor (by simp [Effect.table]) i (widthBytes f.width) (okLanes fs)) s, ?_⟩
        simp only [fs, g] at hstop habs hmet ⊢
        simp only [hstop, habs, List.isEmpty_nil, Bool.not_true, Bool.false_eq_true, if_false, hmet, if_true, after_andThen]
    have hu' := eq_of_only_dir hu
    obtain ⟨x, hx⟩ := wentOn_advance (u := u) (by rw [hu']; exact hw) (unmoved_of_look hst) 1
    exact ⟨_, x, ho.trans (by rw [hact]), by rw [hx.rest, hu'], fun v hv => (hx.warps v hv).trans (by rw [hu']), hx.self, hx.warp, hx.past⟩
  refine ⟨fun hi => hgo (issAt_of_issuer hi) _ (atIssue_act hi rfl), fun hat hinstr hmet => ?_⟩
  obtain ⟨m, hm⟩ := hmet
  refine hgo (issAt_of_strandAt hat) _ (congrArg Host.Outcome.next ?_)
  rw [reevaluate, after_look, hat]
  simp only [hm, hinstr]

/-! ## Seals -/

/-- What `seal` does past its gate. -/
def sealWay (f : MFields) (s : State) (i : Iss) : Act :=
  if guardMask i f.gp f.gn = 0 then advance i 1
  else sealChecks s i (guardMask i f.gp f.gn) (sVal i.warp true f.a.toNat) (sVal i.warp true f.e.toNat) <|
    if 64 ≤ (sealedOrAsked s i.cid i.ctx).length then
      trapLanes i .sealed (guardMask i f.gp f.gn) (sVal i.warp true f.a.toNat) 1
    else if touchesAny (sealedOrAsked s i.cid i.ctx) (sVal i.warp true f.a.toNat) (sVal i.warp true f.e.toNat) then
      trapLanes i .sealed (guardMask i f.gp f.gn) (sVal i.warp true f.a.toNat) 2
    else andThen (waitWith i (.sealing (sVal i.warp true f.a.toNat) (sVal i.warp true f.e.toNat))) bump

/-- What `unseal` does past its gate. -/
def unsealWay (f : MFields) (s : State) (i : Iss) : Act :=
  if guardMask i f.gp f.gn = 0 then advance i 1
  else sealChecks s i (guardMask i f.gp f.gn) (sVal i.warp true f.a.toNat) (sVal i.warp true f.e.toNat) <|
    if !i.ctx.sealed.contains (sVal i.warp true f.a.toNat, sVal i.warp true f.e.toNat) then
      trapLanes i .sealed (guardMask i f.gp f.gn) (sVal i.warp true f.a.toNat) 3
    else andThen (waitWith i (.unsealing (sVal i.warp true f.a.toNat) (sVal i.warp true f.e.toNat))) bump

section
variable {f : MFields} {s : State} {i : Iss}

theorem exec_seal (hmay : MayRun s i (chkAll true (sealOpnd i f)) (sealUses f) (guardMask i f.gp f.gn))
    (hw : ∀ b n, i.st.wait ≠ .sealing b n) : exec (.sealRange f) s = .next (after (sealWay f s i) s) :=
  atIssue_act hmay.here (by
    split
    · next b n h => exact absurd h (hw b n)
    · exact gated_of_mayRun hmay _)

theorem exec_unseal (hmay : MayRun s i (chkAll true (sealOpnd i f)) (sealUses f) (guardMask i f.gp f.gn))
    (hw : ∀ b n, i.st.wait ≠ .unsealing b n) : exec (.unsealRange f) s = .next (after (unsealWay f s i) s) :=
  atIssue_act hmay.here (by
    split
    · next b n h => exact absurd h (hw b n)
    · exact gated_of_mayRun hmay _)

theorem sealChecks_pass {g : Mask} {base len : Nat} (h1 : base % 4096 = 0) (h2 : len % 4096 = 0) (h3 : len ≠ 0)
    (h4 : firstUnmapped s i.ctx base (len / 4096) = none) (a : Act) : sealChecks s i g base len a = a := by
  simp [sealChecks, h1, h2, h3, h4]
end

/-- A strand that comes to wait, as the statement says it. -/
theorem waits_ends {s : State} {i : Iss} (hi : issuer s = some i) {o : Instr} (x : Wait)
    (ho : exec o s = .next (after (andThen (waitWith i x) bump) s)) :
    ∃ t y, exec o s = .next t ∧ t = { s with warps := t.warps, epoch := t.epoch } ∧
      (∀ v, v ≠ i.w → mLook t.warps v = mLook s.warps v) ∧ mLook t.warps i.w = some y ∧
      y = { i.warp with strands := y.strands } ∧ mLook y.strands i.k = some { i.st with idleAt := s.epoch, wait := x } := by
  obtain ⟨-, hw, hst, -⟩ := issuer_spec hi
  rw [after_andThen, after_waitWith hw, after_bump] at ho
  exact ⟨_, _, ho, rfl, fun v hv => mLook_mIns_ne _ _ hv, mLook_mIns_self .., onStrand_eq .., onStrand_here hst⟩

/-- Sharer records cleared one by one. -/
theorem mGet_clearShares (l : List (Nat × Mask)) (s : State) (k : Nat) :
    mGet 0 (applyAll (l.map fun e => .share e.1 0) s).dir k = if k ∈ l.map (·.1) then 0 else mGet 0 s.dir k := by
  induction l generalizing s with
  | nil => simp
  | cons e l ih =>
    rw [List.map_cons, applyAll_cons, ih, applyEffect_share]
    by_cases hk : k = e.1
    · subst hk; simp [mGet_mPut_self]
    · simp only [List.map_cons, List.mem_cons, hk, false_or, mGet_mPut_ne _ _ _ hk]

/-- Drops the sharer records that a condition names. -/
def dropShares (c : State → Nat → Bool) : Act := fun s => (s.dir.filter fun e => c s e.1).map fun e => .share e.1 0

theorem only_dropShares (c : State → Nat → Bool) (s : State) : Only [.dir] s (after (dropShares c) s) :=
  only_of_each (fun v e he => by obtain ⟨x, -, rfl⟩ := List.mem_map.1 he; simp [Effect.table]) s

/-- Those records are gone, the others stand. -/
theorem mGet_dropShares (c : State → Nat → Bool) (s : State) (k : Nat) :
    mGet 0 (after (dropShares c) s).dir k = if c s k then 0 else mGet 0 s.dir k := by
  refine (mGet_clearShares _ s k).trans ?_
  by_cases hc : c s k
  · rw [if_pos hc]
    split
    · rfl
    · next hk =>
      cases hl : mLook s.dir k with
      | none => simp [mGet, hl]
      | some a => exact absurd (List.mem_map.2 ⟨(k, a), List.mem_filter.2 ⟨mem_of_mLook hl, hc⟩, rfl⟩) hk
  · rw [if_neg hc, if_neg]
    simp only [List.mem_map, List.mem_filter, not_exists, not_and]
    rintro e ⟨-, he⟩ rfl
    exact hc he

theorem keyInRange_congr {s t : State} (h : t.mem = s.mem) (c : Context) (base n k : Nat) :
    keyInRange t c base n k = keyInRange s c base n k := by
  induction n generalizing base with
  | zero => rfl
  | succ n ih => simp only [keyInRange, walk, h, ih]

/-- Settles O26: each instruction waits, and each event does its part of the region's change. -/
theorem sealsComplete : Obligations.SealsComplete := by
  unfold Obligations.SealsComplete
  intro f s i g base len waits
  refine ⟨fun hmay hw => ⟨fun hg => ?skips, fun hg hb hl hl0 hmap => ?waits⟩, fun b n hat hw => ⟨?mark, ?sealed⟩, ?unsealed⟩
  case skips =>
    have hgo (o : Instr) (ho : exec o s = .next (after (advance i 1) s)) :
        RunsTo s i (exec o s) 1 fun x => x = { i.warp with strands := x.strands } := by
      obtain ⟨x, hframe, hpast, hx⟩ := advance_ends hmay.here 1
      exact ⟨_, x, ho, hframe, hpast, hx⟩
    intro o ho
    rcases List.mem_cons.1 ho with rfl | ho
    · exact hgo _ ((exec_seal hmay fun b n => (hw b n).1).trans (by rw [sealWay, if_pos hg]))
    · obtain rfl := List.mem_singleton.1 ho
      exact hgo _ ((exec_unseal hmay fun b n => (hw b n).2).trans (by rw [unsealWay, if_pos hg]))
  case waits =>
    refine ⟨fun hroom hfree => waits_ends hmay.here _ ((exec_seal hmay fun b n => (hw b n).1).trans ?_),
      fun hhas => waits_ends hmay.here _ ((exec_unseal hmay fun b n => (hw b n).2).trans ?_)⟩
    · rw [sealWay, if_neg hg, sealChecks_pass hb hl hl0 hmap, if_neg (by omega), if_neg (by rw [hfree]; exact Bool.false_ne_true)]
    · rw [unsealWay, if_neg hg, sealChecks_pass hb hl hl0 hmap, if_neg (by rw [hhas]; exact Bool.false_ne_true)]
  case mark =>
    intro hm ht
    obtain ⟨-, -, -, -, -, -, hc⟩ := issAt_spec (issAt_of_strandAt hat)
    have hrun : exec (.sealComplete i.w i.k) s = .next (after (andThen (updCtx i.cid fun c => { c with marks := (b, n) :: c.marks }) bump) s) := by
      change execSealComplete i.w i.k s = _
      rw [execSealComplete, finish_eq, hat]
      simp only [hw, hm, ht, Bool.not_false, Bool.false_eq_true, if_true, if_false]
    rw [after_andThen, after_updCtx hc, after_bump] at hrun
    exact ⟨_, hrun, rfl, fun c h => mLook_mIns_ne _ _ h, mLook_mIns_self ..⟩
  case sealed =>
    intro hm hfl
    obtain ⟨-, -, hwp, hst, -, -, hc⟩ := issAt_spec (issAt_of_strandAt hat)
    have hrun : exec (.sealComplete i.w i.k) s = .next (after (andThen
        (updCtx i.cid fun c => { c with marks := c.marks.erase (b, n), sealed := (b, n) :: c.sealed }) <|
        andThen (dropShares fun s k => keyInRange s i.ctx b (n / 4096) (k / 1024 * 128)) (advance i 1)) s) := by
      change execSealComplete i.w i.k s = _
      rw [execSealComplete, finish_eq, hat]
      simp only [hw, hm, hfl, Bool.not_true, Bool.false_eq_true, if_false]
      rfl
    rw [after_andThen, after_updCtx hc, after_andThen] at hrun
    generalize hu : ({ s with ctxs := _ } : State) = u at hrun
    have hkey (k : Nat) : keyInRange u i.ctx b (n / 4096) k = keyInRange s i.ctx b (n / 4096) k := keyInRange_congr (by rw [← hu]) ..
    have hclear := mGet_dropShares (fun s k => keyInRange s i.ctx b (n / 4096) (k / 1024 * 128)) u
    have hdir := eq_of_only_dir (only_dropShares (fun s k => keyInRange s i.ctx b (n / 4096) (k / 1024 * 128)) u)
    generalize after (dropShares _) u = v at hrun hdir hclear
    obtain ⟨x, hx⟩ := wentOn_advance (u := v) (by rw [hdir, ← hu]; exact hwp) (unmoved_of_look hst) 1
    generalize after (advance i 1) v = t at hx hrun
    have hctxs : t.ctxs = mIns s.ctxs i.cid { i.ctx with marks := i.ctx.marks.erase (b, n), sealed := (b, n) :: i.ctx.sealed } := by
      rw [hx.rest, hdir, ← hu]
    refine ⟨t, x, hrun, by rw [hx.rest, hdir, ← hu], by rw [hctxs, mLook_mIns_self], fun c h => by rw [hctxs, mLook_mIns_ne _ _ h],
      fun v hv => (hx.warps v hv).trans (by rw [hdir, ← hu]), hx.self, hx.warp, hx.past, fun k => ?_⟩
    rw [show t.dir = v.dir by rw [hx.rest], hclear, hkey, show u.dir = s.dir by rw [← hu]]
  case unsealed =>
    intro b n hat hw hfl
    obtain ⟨-, -, hwp, hst, -, -, hc⟩ := issAt_spec (issAt_of_strandAt hat)
    have hrun : exec (.unsealComplete i.w i.k) s = .next (after (andThen
        (updCtx i.cid fun c => { c with sealed := c.sealed.erase (b, n) }) (advance i 1)) s) := by
      change execUnsealComplete i.w i.k s = _
      rw [execUnsealComplete, finish_eq, hat]
      simp only [hw, hfl, Bool.false_eq_true, if_false]
    rw [after_andThen, after_updCtx hc] at hrun
    generalize hu : ({ s with ctxs := _ } : State) = u at hrun
    obtain ⟨x, hx⟩ := wentOn_advance (u := u) (by rw [← hu]; exact hwp) (unmoved_of_look hst) 1
    generalize after (advance i 1) u = t at hx hrun
    have hctxs : t.ctxs = mIns s.ctxs i.cid { i.ctx with sealed := i.ctx.sealed.erase (b, n) } := by rw [hx.rest, ← hu]
    exact ⟨t, x, hrun, by rw [hx.rest, ← hu], by rw [hctxs, mLook_mIns_self], fun c h => by rw [hctxs, mLook_mIns_ne _ _ h],
      fun v hv => (hx.warps v hv).trans (by rw [← hu]), hx.self, hx.warp, hx.past⟩

end Sys2Proof.Machine

namespace Sys2Proof.Machine

/-! Issuing engine operations: copies (13_ref_memory_copy R228 to R235) and matrix instructions (17_ref_matrix R275 to
R286). -/

/-! ## The shared end: an operation enters flight -/

/-- The block with one more operation on the tag (R232). -/
def engTagged (o : EngOp) (b : Block) : Block :=
  match o.tag with
  | some n => { b with pending := mIns b.pending n (tagCount b n + 1), cdone := b.cdone &&& ~~~((1 : DWord) <<< n) }
  | none => b

/-- The warp with one more operation on its counter (R54, R271). -/
def engCounted (o : EngOp) (x : Warp) : Warp :=
  match o.kind.onCp with
  | some true => { x with cp := x.cp + 1, drains := x.drains + drainsOf o.kind }
  | some false => { x with tl := x.tl + 1, seq := x.seq + 1, drains := x.drains + drainsOf o.kind }
  | none => x

theorem engCounted_eq (o : EngOp) (x : Warp) : engCounted o x =
    { x with cp := x.cp + (if o.kind.onCp = some true then 1 else 0), tl := x.tl + (if o.kind.onCp = some false then 1 else 0),
             seq := x.seq + (if o.kind.onCp = some false then 1 else 0), drains := x.drains + drainsOf o.kind } := by
  unfold engCounted
  cases o.kind <;> rfl

/-- What issuing an operation does once nothing holds it back. -/
def enterEngine (i : Iss) (o : EngOp) (rs : List Range) : Act := look fun s =>
  andThen (eff (.eng s.nextId { o with since := cycleOf s i.core })) <|
  andThen (eff (.ids (s.nextId + 1))) <|
  andThen (eff (.locks (s.locks ++ rs.map fun r => ⟨r.core, i.cid, r.side, r.n, r.write, s.nextId⟩))) <|
  andThen (match o.tag with | some t => tagTaken i.warp.block t | none => skip) <|
  andThen (updWarp i.w (engCounted o)) (advance i 1)

theorem issueEngine_ready {s : State} {i : Iss} {o : EngOp} {release : Bool} {rs : List Range}
    (h : engineReady s i o release rs = true) : after (issueEngine i o release rs) s = after (enterEngine i o rs) s := by
  simp only [engineReady, Bool.and_eq_true, Bool.not_eq_true'] at h
  obtain ⟨⟨⟨⟨h1, h2⟩, h3⟩, h4⟩, h5⟩ := h
  have hfull : (match o.kind.onCp with
    | some true => decide (i.warp.cp = 63) | some false => decide (i.warp.tl = 63) | none => false) = false := h4
  rw [issueEngine, after_look, enterEngine, after_look]
  exact congrArg (after · s) (by
    refine (if_neg (by rw [h1]; exact Bool.false_ne_true)).trans <| (if_neg (by rw [h2]; exact Bool.false_ne_true)).trans <|
      (if_neg (by rw [h3]; exact Bool.false_ne_true)).trans <| (if_neg (fun hc => Bool.false_ne_true (hfull.symm.trans hc))).trans <|
      (if_neg (by rw [h5]; exact Bool.false_ne_true)).trans ?_
    rfl)

theorem after_takeTag {s : State} {blk : Nat} {b : Block} (hb : mLook s.blocks blk = some b) (o : EngOp) :
    ∃ m, after (match o.tag with | some t => tagTaken blk t | none => skip) s = { s with blocks := m } ∧
      mLook m blk = some (engTagged o b) ∧ ∀ c, c ≠ blk → mLook m c = mLook s.blocks c := by
  unfold engTagged
  cases o.tag with
  | none => exact ⟨s.blocks, rfl, hb, fun _ _ => rfl⟩
  | some n => exact ⟨_, after_updBlock hb, mLook_mIns_self .., fun c hc => mLook_mIns_ne _ _ hc⟩

/-- An operation that nothing holds back issues, its context as an act before it has made it. -/
theorem enterEngine_issued {s u : State} {i : Iss} {o : EngOp} {rs : List Range} {c : Context}
    (hu : u = { s with ctxs := u.ctxs }) (hc : mLook u.ctxs i.cid = some c) (hcs : ∀ k, k ≠ i.cid → mLook u.ctxs k = mLook s.ctxs k)
    (hw : mLook s.warps i.w = some i.warp) (hst : mLook i.warp.strands i.k = some i.st)
    (hb : mLook s.blocks i.warp.block = some i.blk) :
    EngineIssued s (after (enterEngine i o rs) u) i o rs c := by
  have hub : u.blocks = s.blocks := by rw [hu]
  obtain ⟨m, hm, hmb, hmo⟩ := after_takeTag (blk := i.warp.block) (s := { u with
    engs := mIns u.engs u.nextId { o with since := cycleOf u i.core }, nextId := u.nextId + 1
    locks := u.locks ++ rs.map fun r => ⟨r.core, i.cid, r.side, r.n, r.write, u.nextId⟩ }) (b := i.blk) (by rw [hub]; exact hb) o
  have hact : after (enterEngine i o rs) u = after (advance i 1) (after (updWarp i.w (engCounted o)) { u with
      engs := mIns u.engs u.nextId { o with since := cycleOf u i.core }, nextId := u.nextId + 1, blocks := m
      locks := u.locks ++ rs.map fun r => ⟨r.core, i.cid, r.side, r.n, r.write, u.nextId⟩ }) := by
    rw [enterEngine, after_look, after_andThen, after_andThen, after_andThen, after_andThen, after_andThen]
    exact congrArg (fun v => after (advance i 1) (after (updWarp i.w (engCounted o)) v)) hm
  rw [hact, after_updWarp (x := i.warp) (by rw [hu]; exact hw)]
  generalize hv : ({ u with engs := _, locks := _, nextId := _, blocks := m, warps := _ } : State) = v
  have hcyc : cycleOf u i.core = cycleOf s i.core := by rw [hu]; rfl
  rw [hcyc] at hv
  have hvw : v.warps = mIns s.warps i.w (engCounted o i.warp) := by rw [← hv, hu]
  have hm0 : Unmoved i (engCounted o i.warp) := unmoved_of_strands hst (by rw [engCounted_eq])
  obtain ⟨x, hx⟩ := wentOn_advance (u := v) (by rw [hvw]; exact mLook_mIns_self ..) hm0 1
  generalize after (advance i 1) v = t at hx
  have ht : t = { s with
      warps := t.warps, blocks := m, ctxs := u.ctxs, nextId := s.nextId + 1, epoch := t.epoch
      engs := mIns s.engs s.nextId { o with since := cycleOf s i.core }
      locks := s.locks ++ rs.map fun r => ⟨r.core, i.cid, r.side, r.n, r.write, s.nextId⟩ } := by
    rw [hx.rest, ← hv, hu]
  refine ⟨by rw [ht], by rw [ht]; exact mLook_mIns_self .., fun k hk => by rw [ht]; exact mLook_mIns_ne _ _ hk, by rw [ht]; exact hc,
    fun k hk => by rw [ht]; exact hcs k hk, ?_, fun b h => ?_, ⟨x, hx.self, hx.past, ?_⟩, fun v h => ?_⟩
  · rw [ht]; exact hmb
  · rw [ht]; exact (hmo b h).trans (by rw [hub])
  · rw [hx.warp, engCounted_eq]
  · exact (hx.warps v h).trans (by rw [hvw]; exact mLook_mIns_ne _ _ h)

/-! ## Records read at issue -/

/-- Reading a record either ends elsewhere, whatever is to follow, or shares its words and goes on. -/
theorem withRecord_cases (s : State) (i : Iss) (va words al : Nat) :
    (∃ T, ∀ a, withRecord s i va words al a = T) ∨
      ∃ bs, ∀ a, withRecord s i va words al a = andThen (shareRecord s i va words) (a bs) := by
  unfold withRecord
  split
  · exact .inl ⟨_, fun _ => rfl⟩
  · split
    · next bs _ =>
      split
      · exact .inl ⟨_, fun _ => rfl⟩
      · exact .inr ⟨bs, fun _ => rfl⟩
    · exact .inl ⟨_, fun _ => rfl⟩
    · exact .inl ⟨_, fun _ => rfl⟩

theorem checked_cases (i : Iss) (l : List (Bool × Nat)) : (∃ T, ∀ a, checked i l a = T) ∨ ∀ a, checked i l a = a := by
  unfold checked
  split
  · exact .inl ⟨_, fun _ => rfl⟩
  · exact .inr fun _ => rfl

theorem checked_of_none {i : Iss} {l : List (Bool × Nat)} (h : firstOf l = none) (a : Act) : checked i l a = a := by
  simp only [checked, h]

theorem andThen_assoc (a b c : Act) : andThen (andThen a b) c = andThen a (andThen b c) := by
  funext s
  have e := after_andThen a b s
  simp only [andThen, List.append_assoc] at e ⊢
  rw [e]

/-- The effects that record a sharer. -/
def Effect.shares (e : Effect) : Prop := e.table = .dir

theorem each_shareRecord (s : State) (i : Iss) (va words : Nat) : Each Effect.shares (shareRecord s i va words) :=
  each_shareFor (fun _ _ => rfl) _ _ _

/-- The same of a shape record, with the scale record that comes with it. -/
theorem withShape_cases (s : State) (i : Iss) (va : Nat) (useBox scales : Bool) :
    (∃ T, ∀ a, withShape s i va useBox scales a = T) ∨
      ∃ R sh, Each Effect.shares R ∧ ∀ a, withShape s i va useBox scales a = andThen R (a sh) := by
  unfold withShape
  obtain ⟨T, h⟩ | ⟨bs, h⟩ := withRecord_cases s i va 8 8
  · exact .inl ⟨T, fun a => h _⟩
  simp only [h]
  obtain ⟨T, h1⟩ | h1 := checked_cases i (shapeChecks bs useBox scales)
  · exact .inl ⟨_, fun a => by rw [h1]⟩
  simp only [h1]
  split
  · exact .inr ⟨_, _, each_shareRecord _ _ _ _, fun _ => rfl⟩
  · obtain ⟨T, h2⟩ | ⟨q, h2⟩ := withRecord_cases s i (ofInt 64 (va + 64 * signed 16 (recAt bs 58 2))) 8 8
    · exact .inl ⟨_, fun a => by rw [h2]⟩
    simp only [h2]
    obtain ⟨T, h3⟩ | h3 := checked_cases i [(!canonical (recAt q 0 8) || (q.drop 24).any (· ≠ 0) ||
      (List.range 4).any (fun j => decide ((shapeOf bs).rank ≤ j + 1) &&
        decide (((List.range 4).map fun j => recAt q (8 + 4 * j) 4).getD j 0 ≠ 0)), 58)]
    · exact .inl ⟨_, fun a => by rw [h3]⟩
    · exact .inr ⟨_, _, each_andThen (each_shareRecord _ _ _ _) (each_shareRecord _ _ _ _), fun a => by rw [h3, andThen_assoc]⟩

/-- What a good shape record is read with touches sharer records alone (R182). -/
theorem onlyDir_reads {s : State} {i : Iss} {va : Nat} {useBox scales : Bool} {reads : Act} {sh : Shape}
    (h : ∀ a, withShape s i va useBox scales a = andThen reads (a sh)) : OnlyDir s (after reads s) := by
  obtain ⟨T, hT⟩ | ⟨R, sh', hR, hgo⟩ := withShape_cases s i va useBox scales
  · have hsame : andThen reads skip s = andThen reads bump s :=
      congrFun ((h fun _ => skip).symm.trans ((hT _).trans ((hT _).symm.trans (h fun _ => bump)))) s
    exact absurd (congrArg List.length hsame) (by simp [andThen, skip, bump, eff])
  · have hsame : after reads s = after R s := by
      have := congrArg (after · s) ((h fun _ => skip).symm.trans (hgo _))
      simpa only [after_andThen, after_skip] using this
    rw [hsame]
    exact eq_of_only_dir (only_of_each (each_mono hR fun e he => List.mem_singleton.2 he) s)

/-! ## Copies -/

section
variable {f : KFields} {s : State} {i : Iss} {opnd ready scales hasNt : Bool} {u : Uses}

/-- A copy past its guard, its record and the limits of its box. -/
theorem copyMeans_goes {reads : Act} {sh : Shape} {a : Shape → List Int → Act}
    (hmay : MayRun s i (chkAll true (opnd && !tagBeyond i (copyTag f hasNt))) { u with mem := true, act := guardScalar i f.gp f.gn } 0)
    (hg : guardScalar i f.gp f.gn = true) (hreg : regionLanes i &&& i.lanes = 0) (hready : ready = true)
    (hshape : ∀ a, withShape s i (sVal i.warp true f.a.toNat) true scales a = andThen reads (a sh))
    (hbox : firstOf (boxChecks sh (coordRegs i f) f.mode.toNat) = none) :
    copyMeans s i f hasNt opnd u ready scales a = andThen reads (a sh (coordRegs i f)) := by
  rw [copyMeans, gated_of_mayRun hmay, hg, hready, noRegion_of_none hreg, hshape, checked_of_none hbox]
  rfl

theorem copyMeans_skips {a : Shape → List Int → Act}
    (hmay : MayRun s i (chkAll true (opnd && !tagBeyond i (copyTag f hasNt))) { u with mem := true, act := guardScalar i f.gp f.gn } 0)
    (hg : guardScalar i f.gp f.gn = false) : copyMeans s i f hasNt opnd u ready scales a = advance i 1 := by
  rw [copyMeans, gated_of_mayRun hmay, hg]
  rfl
end

/-- What a copy does once its record is good and its checks pass. -/
def copyWay (f : KFields) (i : Iss) (c : CopyForm) : Act :=
  issueEngine i (engOf i c.kind c.tag false) (isRelease f) c.ranges

/-- Each copy through a shape record: with a good record, and with a false guard. -/
theorem exec_copyForms (f : KFields) (s : State) (i : Iss) (sh : Shape) : AllHold (copyForms f s i sh) fun c =>
    MayRun s i (chkAll true (c.opnd && !tagBeyond i c.tag)) { c.uses with mem := true, act := guardScalar i f.gp f.gn } 0 →
    (∀ reads : Act, guardScalar i f.gp f.gn = true → regionLanes i &&& i.lanes = 0 → c.ready = true →
      (∀ a, withShape s i (sVal i.warp true f.a.toNat) true c.scales a = andThen reads (a sh)) →
      firstOf (boxChecks sh (coordRegs i f) f.mode.toNat) = none → firstOf c.checks = none →
      (∀ a, rangeTraps i c.fits sh (coordRegs i f) c.writes a = a) →
      exec c.ins s = .next (after (copyWay f i c) (after reads s))) ∧
    (guardScalar i f.gp f.gn = false → exec c.ins s = .next (after (advance i 1) s)) := by
  refine ⟨fun hmay => ⟨fun reads hg hreg hr hsh hbox hck hrt => ?_, fun hg => atIssue_act hmay.here (copyMeans_skips hmay hg)⟩,
    fun hmay => ⟨fun reads hg hreg hr hsh hbox hck hrt => ?_, fun hg => atIssue_act hmay.here (copyMeans_skips hmay hg)⟩,
    fun hmay => ⟨fun reads hg hreg hr hsh hbox hck hrt => ?_, fun hg => atIssue_act hmay.here (copyMeans_skips hmay hg)⟩,
    fun hmay => ⟨fun reads hg hreg hr hsh hbox hck hrt => ?_, fun hg => atIssue_act hmay.here (copyMeans_skips hmay hg)⟩,
    fun hmay => ⟨fun reads hg hreg hr hsh hbox hck hrt => ?_, fun hg => atIssue_act hmay.here (copyMeans_skips hmay hg)⟩⟩
  all_goals rw [← after_andThen]
  · exact atIssue_act hmay.here ((copyMeans_goes hmay hg hreg hr hsh hbox).trans (congrArg (andThen reads) (hrt _)))
  · exact atIssue_act hmay.here ((copyMeans_goes hmay hg hreg hr hsh hbox).trans
      (congrArg (andThen reads) ((checked_of_none hck _).trans (hrt _))))
  · exact atIssue_act hmay.here ((copyMeans_goes hmay hg hreg hr hsh hbox).trans
      (congrArg (andThen reads) ((checked_of_none hck _).trans (hrt _))))
  · simp only [Bool.and_eq_true, Bool.not_eq_true'] at hr
    exact atIssue_act hmay.here ((copyMeans_goes hmay hg hreg hr.1 hsh hbox).trans (congrArg (andThen reads)
      ((checked_of_none hck _).trans ((hrt _).trans (if_neg (by rw [hr.2]; exact Bool.false_ne_true))))))
  · exact atIssue_act hmay.here ((copyMeans_goes hmay hg hreg hr hsh hbox).trans (congrArg (andThen reads) (hrt _)))

/-- An instruction that only goes on. -/
theorem runsTo_advance {s : State} {i : Iss} (hi : issuer s = some i) {o : Instr} {n : Nat}
    (ho : exec o s = .next (after (advance i n) s)) : RunsTo s i (exec o s) n fun x => x = { i.warp with strands := x.strands } := by
  obtain ⟨x, hframe, hpast, hx⟩ := advance_ends hi n
  exact ⟨_, x, ho, hframe, hpast, hx⟩

/-- Readiness does not ask for sharer records. -/
theorem engineReady_of_onlyDir {s u : State} (h : OnlyDir s u) (i : Iss) (o : EngOp) (release : Bool) (rs : List Range) :
    engineReady u i o release rs = engineReady s i o release rs := by rw [h]; rfl

/-- An operation issues in the state that reading its record leaves. -/
theorem issueEngine_issued {s u : State} {i : Iss} {o : EngOp} {release : Bool} {rs : List Range} (hi : issuer s = some i)
    (hu : OnlyDir s u) (h : engineReady s i o release rs = true) :
    EngineIssued u (after (issueEngine i o release rs) u) i o rs i.ctx := by
  obtain ⟨-, hw, hst, hb, -, hc⟩ := issuer_spec hi
  rw [issueEngine_ready ((engineReady_of_onlyDir hu ..).trans h)]
  exact enterEngine_issued rfl (by rw [hu]; exact hc) (fun _ _ => rfl) (by rw [hu]; exact hw) hst (by rw [hu]; exact hb)

/-- What `cpx` does past its guard. -/
theorem exec_cpx {f : KFields} {s : State} {i : Iss} {b : Nat}
    (hmay : MayRun s i (chkAll true (sPair i f.a && sOk i f.b.toNat 1 && fiveOk i f && !tagBeyond i (copyTag f true)))
      { sr := regs f.a.toNat true ++ [f.b.toNat, f.c.toNat], mem := true, act := guardScalar i f.gp f.gn } 0)
    (hg : guardScalar i f.gp f.gn = true) (hreg : regionLanes i &&& i.lanes = 0)
    (hsize : firstOf [(decide ((sR i.warp f.c.toNat).toNat % 16 ≠ 0) || decide ((sR i.warp f.c.toNat).toNat = 0) ||
      decide (2 ^ 20 < (sR i.warp f.c.toNat).toNat) || decide ((sR i.warp f.b.toNat).toNat % 16 ≠ 0) ||
      decide (sVal i.warp true f.a.toNat % 2 ^ 32 % 16 ≠ 0), 0)] = none)
    (hplace : sVal i.warp true f.a.toNat < 2 ^ 36 ∧ sVal i.warp true f.a.toNat % 2 ^ 32 + (sR i.warp f.c.toNat).toNat ≤ 2 ^ 25 ∧
      sVal i.warp true f.a.toNat % 2 ^ 32 + (sR i.warp f.c.toNat).toNat ≤ i.lau.scratch ∧
      (sR i.warp f.b.toNat).toNat + (sR i.warp f.c.toNat).toNat ≤ i.lau.scratch)
    (hb : clusterBlock s i (sVal i.warp true f.a.toNat / 2 ^ 32) = some b)
    (hhit : firstOf [(decide (b = i.warp.block) && rangeHit (sR i.warp f.b.toNat).toNat (sR i.warp f.c.toNat).toNat
      (sVal i.warp true f.a.toNat % 2 ^ 32) (sR i.warp f.c.toNat).toNat, 0)] = none) :
    exec (.cpx f) s = .next (after (issueEngine i (engOf i (.move (.scr i.warp.block (sR i.warp f.b.toNat).toNat)
        (.scr b (sVal i.warp true f.a.toNat % 2 ^ 32)) (sR i.warp f.c.toNat).toNat) (copyTag f true) false) (isRelease f)
      [⟨i.core, .scr b (sVal i.warp true f.a.toNat % 2 ^ 32), (sR i.warp f.c.toNat).toNat, true⟩,
       ⟨i.core, .scr i.warp.block (sR i.warp f.b.toNat).toNat, (sR i.warp f.c.toNat).toNat, false⟩]) s) := by
  refine atIssue_act hmay.here ((gated_of_mayRun hmay _).trans ?_)
  rw [hg]
  refine (noRegion_of_none hreg _ _).trans ((checked_of_none hsize _).trans ?_)
  rw [if_pos hplace, hb]
  exact checked_of_none hhit _

theorem firstOf_singleton {b : Bool} (h : b = false) (n : Nat) : firstOf [(b, n)] = none := by subst h; rfl

/-- Settles O27: each copy reaches the shared end, and an operation that is ready issues. -/
theorem copiesIssue : Obligations.CopiesIssue := by
  unfold Obligations.CopiesIssue
  refine ⟨?shaped, ?cluster⟩
  case shaped =>
    intro f s i sh c hc hmay
    obtain ⟨hgo, hskip⟩ := allHold_mem (exec_copyForms f s i sh) hc hmay
    refine ⟨fun reads hg hreg hr hsh hbox hck hrt hready => ?_, fun hg => runsTo_advance hmay.here (hskip hg)⟩
    have hdir := onlyDir_reads hsh
    exact ⟨_, hgo reads hg hreg hr hsh hbox hck hrt, hdir, issueEngine_issued hmay.here hdir hready⟩
  case cluster =>
    intro f s i b va dest frm n o rs hmay
    refine ⟨fun hg hreg h1 h2 h3 h4 h5 h6 h7 h8 h9 hb hhit hready => ?_, fun hg => runsTo_advance hmay.here ?_⟩
    · refine ⟨_, exec_cpx hmay hg hreg (firstOf_singleton ?_ _) ⟨h6, h7, h8, h9⟩ hb (firstOf_singleton ?_ _), issueEngine_issued hmay.here rfl hready⟩
      · simp only [Bool.or_eq_false_iff, decide_eq_false_iff_not]
        exact ⟨⟨⟨⟨not_not_intro h1, h2⟩, by omega⟩, not_not_intro h4⟩, not_not_intro h5⟩
      · by_cases hbk : b = i.warp.block
        · rw [show rangeHit _ _ _ _ = false from hhit hbk, Bool.and_false]
        · rw [decide_eq_false hbk, Bool.false_and]
    · refine atIssue_act hmay.here ((gated_of_mayRun hmay _).trans ?_)
      rw [hg]
      rfl

end Sys2Proof.Machine

namespace Sys2Proof.Machine

/-! Issuing matrix instructions (17_ref_matrix R275 to R286). -/

section
variable {f : XFields} {s : State} {i : Iss} {opnd regionOk : Bool} {u : Uses} {tag : Option Nat}

/-- A matrix instruction past its guard. -/
theorem xMeans_goes (hmay : MayRun s i (chkAll true (opnd && !tagBeyond i tag)) { u with mem := true, act := guardScalar i f.gp f.gn } 0)
    (hg : guardScalar i f.gp f.gn = true) (hreg : regionOk = false → regionLanes i &&& i.lanes = 0) (a : Act) :
    xMeans s i f opnd u tag regionOk a = a := by
  rw [xMeans, gated_of_mayRun hmay, hg]
  cases regionOk with
  | true => rfl
  | false => exact noRegion_of_none (hreg rfl) _ _

theorem xMeans_skips (hmay : MayRun s i (chkAll true (opnd && !tagBeyond i tag)) { u with mem := true, act := guardScalar i f.gp f.gn } 0)
    (hg : guardScalar i f.gp f.gn = false) (a : Act) : xMeans s i f opnd u tag regionOk a = advance i 1 := by
  rw [xMeans, gated_of_mayRun hmay, hg]
  rfl
end

/-- `u`, in which an operation issues, is `s` but that its context stands as `c`. -/
structure CtxSet (s u : State) (i : Iss) (c : Context) : Prop where
  rest : u = { s with ctxs := u.ctxs }
  ctx : mLook u.ctxs i.cid = some c
  ctxs : ∀ k, k ≠ i.cid → mLook u.ctxs k = mLook s.ctxs k

/-- Each matrix instruction that reads no record comes to the shared end. -/
theorem exec_tileForms (f : XFields) (s : State) (i : Iss) : AllHold (tileForms f s i) fun c =>
    MayRun s i (chkAll true (c.opnd && !tagBeyond i c.tag)) { c.uses with mem := true, act := guardScalar i f.gp f.gn } 0 →
    guardScalar i f.gp f.gn = true → (c.anyRegion = false → regionLanes i &&& i.lanes = 0) → c.go = true →
    engineHeld s i false = false →
    ∃ u, CtxSet s u i c.ctx ∧ exec c.ins s = .next (after (issueEngine i c.op false c.ranges) u) := by
  have key {c : TileForm} (hi : issuer s = some i) (hc : c.ctx = i.ctx)
      (ho : exec c.ins s = .next (after (issueEngine i c.op false c.ranges) s)) :
      ∃ u, CtxSet s u i c.ctx ∧ exec c.ins s = .next (after (issueEngine i c.op false c.ranges) u) := by
    obtain ⟨-, -, -, -, -, hctx⟩ := issuer_spec hi
    exact ⟨s, ⟨rfl, by rw [hc]; exact hctx, fun _ _ => rfl⟩, ho⟩
  refine ⟨fun hmay hg hreg hgo hheld => ?tzero, fun hmay hg hreg hgo hheld => ?tload, fun hmay hg hreg hgo hheld => ?tread,
    fun hmay hg hreg hgo hheld => ?twrite, fun hmay hg hreg hgo hheld => ?tsave, fun hmay hg hreg hgo hheld => ?gacc,
    fun hmay hg hreg hgo hheld => ?gflush, fun hmay hg hreg hgo hheld => ?gpin, fun hmay hg hreg hgo hheld => ?tstat,
    fun hmay hg hreg hgo hheld => ?tclr⟩
  case tzero =>
    simp only [Option.isNone_iff_eq_none] at hgo
    exact key hmay.here rfl (atIssue_act hmay.here ((xMeans_goes hmay hg hreg _).trans (checked_of_none hgo _)))
  case tload =>
    simp only [Bool.and_eq_true, Option.isNone_iff_eq_none, decide_eq_true_eq] at hgo
    exact key hmay.here rfl (atIssue_act hmay.here ((xMeans_goes hmay hg hreg _).trans ((checked_of_none hgo.1 _).trans
      (if_neg (by omega)))))
  case tread =>
    simp only [Bool.and_eq_true, Option.isNone_iff_eq_none] at hgo
    exact key hmay.here rfl (atIssue_act hmay.here ((xMeans_goes hmay hg hreg _).trans ((if_neg (by rw [hgo.1]; decide)).trans
      (checked_of_none hgo.2 _))))
  case twrite =>
    simp only [Bool.and_eq_true, Option.isNone_iff_eq_none] at hgo
    exact key hmay.here rfl (atIssue_act hmay.here ((xMeans_goes hmay hg hreg _).trans ((if_neg (by rw [hgo.1]; decide)).trans
      (checked_of_none hgo.2 _))))
  case tsave =>
    simp only [Bool.and_eq_true, Option.isNone_iff_eq_none, decide_eq_true_eq] at hgo
    exact key hmay.here rfl (atIssue_act hmay.here ((xMeans_goes hmay hg hreg _).trans ((checked_of_none hgo.1 _).trans
      (if_neg (by omega)))))
  case gacc =>
    simp only [Bool.and_eq_true, Option.isNone_iff_eq_none, Option.any_eq_true, decide_eq_true_eq] at hgo
    obtain ⟨hck, p, hp, hlen⟩ := hgo
    refine key hmay.here rfl (atIssue_act hmay.here ((xMeans_goes hmay hg hreg _).trans ((checked_of_none hck _).trans ?_)))
    rw [hp]
    exact if_neg (by omega)
  case gflush =>
    simp only [Option.any_eq_true, Bool.not_eq_true'] at hgo
    obtain ⟨p, hp, hfree⟩ := hgo
    refine key hmay.here rfl (atIssue_act hmay.here ((xMeans_goes hmay hg hreg _).trans ?_))
    simp only [hp]
    exact if_neg (by rw [hfree]; exact Bool.false_ne_true)
  case gpin =>
    simp only [Bool.and_eq_true, Bool.not_eq_true', decide_eq_true_eq] at hgo
    obtain ⟨⟨⟨⟨⟨⟨⟨h1, h2⟩, h3⟩, h4⟩, h5⟩, h6⟩, h7⟩, h8⟩ := hgo
    obtain ⟨id, hid⟩ := Option.isSome_iff_exists.1 h8
    obtain ⟨-, -, -, -, -, hctx : mLook s.ctxs i.cid = _⟩ := issuer_spec hmay.here
    have hrun : exec (.gpin f) s = .next (after (andThen (updCtx i.cid fun _ => withPin i id (sVal i.warp true f.a.toNat)
        (sR i.warp f.g.toNat).toNat) (issueEngine i (engOf i (.pin id f.h.toNat) none false) false [])) s) := by
      refine atIssue_act hmay.here ((xMeans_goes hmay hg hreg _).trans ?_)
      rw [if_neg (not_not_intro h1), checked_of_none (firstOf_singleton (by simp [h2, h3]; omega) _), h5, h6, h7, hheld, hid]
      rfl
    rw [after_andThen, after_updCtx hctx] at hrun
    rw [hid]
    exact ⟨_, ⟨rfl, mLook_mIns_self .., fun k hk => mLook_mIns_ne _ _ hk⟩, hrun⟩
  case tstat =>
    simp only [Bool.and_eq_true, Bool.not_eq_true'] at hgo
    obtain ⟨⟨h1, h2⟩, h3⟩ := hgo
    refine key hmay.here rfl (atIssue_act hmay.here ((xMeans_goes hmay hg hreg _).trans ((checked_of_none ?_ _).trans
      (if_neg (by rw [h1]; decide)))))
    rw [h2, h3]; rfl
  case tclr =>
    simp only [Bool.and_eq_true, Bool.not_eq_true'] at hgo
    exact key hmay.here rfl (atIssue_act hmay.here ((xMeans_goes hmay hg hreg _).trans
      ((checked_of_none (firstOf_singleton hgo.2 _) _).trans (if_neg (by rw [hgo.1]; decide)))))

/-- With a false guard each matrix instruction only continues. -/
theorem exec_tileUses (f : XFields) (s : State) (i : Iss) : AllHold (tileUses f s i) fun y =>
    MayRun s i (chkAll true (y.2.1 && !tagBeyond i y.2.2.2)) { y.2.2.1 with mem := true, act := guardScalar i f.gp f.gn } 0 →
    guardScalar i f.gp f.gn = false → exec y.1 s = .next (after (advance i 1) s) := by
  refine ⟨?_, ?_, ?_, ?_, ?_, ?_, ?_, ?_, ?_, ?_, ?_, ?_, ?_⟩ <;>
    exact fun hmay hg => atIssue_act hmay.here (xMeans_skips hmay hg _)

/-- Settles O28: each matrix instruction reaches the shared end with its snapshot. -/
theorem matrixInstructionsIssue : Obligations.MatrixInstructionsIssue := by
  unfold Obligations.MatrixInstructionsIssue
  refine ⟨?tile, ?mma, ?drain, ?skips⟩
  case tile =>
    intro f s i c hc hmay hg hreg hgo hready
    have hheld : engineHeld s i false = false := by
      simp only [engineReady, Bool.and_eq_true, Bool.not_eq_true'] at hready
      obtain ⟨⟨⟨⟨h, -⟩, -⟩, -⟩, -⟩ := hready
      exact h
    obtain ⟨u, hu, hrun⟩ := allHold_mem (exec_tileForms f s i) hc hmay hg hreg hgo hheld
    obtain ⟨-, hw, hst, hb, -⟩ := issuer_spec hmay.here
    have hready' : engineReady u i c.op false c.ranges = true := by rw [hu.rest]; exact hready
    exact ⟨_, hrun.trans (by rw [issueEngine_ready hready']), enterEngine_issued hu.rest hu.ctx hu.ctxs hw hst hb⟩
  case mma =>
    intro f s i r ab fw va p hmay hg hreg hfw hal hrec hheld hab hck hout hready
    have hlanes : ¬((lanesIn i.lanes).any fun l => decide (vR i.warp f.fw.toNat l ≠ fw)) = true := by
      simp only [List.any_eq_true, decide_eq_true_eq, not_exists, not_and, Classical.not_not]
      exact fun l hl => hfw l (mem_lanesIn.1 hl).2
    have hrun : exec (.mma f) s = .next (after (andThen (shareRecord s i va 8)
        (issueEngine i (engOf i (.mma p) (tgTag f 0) true) false (mmaRanges i p))) s) := by
      refine atIssue_act hmay.here ((xMeans_goes hmay hg (fun _ => hreg) _).trans ((if_neg hlanes).trans ((if_neg (not_not_intro hal)).trans ?_)))
      simp only [va, fw, p] at *
      simp only [hrec, hheld, hab, Option.getD_some, checked_of_none hck, Option.isNone_some, hout, Bool.or_false, Bool.false_eq_true, if_false]
    have hdir : OnlyDir s (after (shareRecord s i va 8) s) :=
      eq_of_only_dir (only_of_each (each_mono (each_shareRecord _ _ _ _) fun e he => List.mem_singleton.2 he) s)
    rw [after_andThen] at hrun
    exact ⟨_, hrun, hdir, issueEngine_issued hmay.here hdir hready⟩
  case drain =>
    intro f s i sh0 reads w xw va tag c sh cs o hmay hg hreg hal htile hsh hck hrt hready
    have hdir := onlyDir_reads hsh
    have hrun : exec (.tdrain f) s = .next (after (andThen reads (issueEngine i o false (boxRanges i.core sh cs true))) s) :=
      atIssue_act hmay.here ((xMeans_goes hmay hg (fun _ => hreg) _).trans ((if_neg (not_not_intro hal)).trans
        ((checked_of_none htile _).trans ((hsh _).trans (congrArg (andThen reads) ((checked_of_none hck _).trans (hrt _)))))))
    rw [after_andThen] at hrun
    exact ⟨_, hrun, hdir, issueEngine_issued hmay.here hdir hready⟩
  case skips =>
    intro f s i o ok u tag ho hg hmay
    rw [← hg] at hmay
    exact runsTo_advance hmay.here (allHold_mem (exec_tileUses f s i) ho hmay hg)

end Sys2Proof.Machine

namespace Sys2Proof.Machine

/-! The tag instructions (13_ref_memory_copy R236) and the instructions on tile state (17_ref_matrix R277, R285, R286). -/

section
variable {f : KFields} {s : State} {i : Iss} {dst observes : Bool} {a : Nat → Nat → Act}
  (hmay : MayRun s i (chkAll true (sPair i f.a && (!dst || sOk i f.b.toNat 1)))
    { sr := regs f.a.toNat true, sw := if dst then [f.b.toNat] else [], mem := true, act := guardScalar i f.gp f.gn } 0)
include hmay

/-- A tag instruction past its guard and the failed operations it observes. -/
theorem tagMeans_goes (hg : guardScalar i f.gp f.gn = true)
    (hdue : dueTrap i.warp i.st { tags := if observes then BitVec.ofNat 64 (tagMask i f) else 0 } = none) :
    tagMeans s i f dst observes a = a (tagMask i f) (tagMask i f &&& i.blk.cdone.toNat) := by
  rw [tagMeans, gated_of_mayRun hmay, hg, unlessDue, hdue]
  rfl

theorem tagMeans_skips (hg : guardScalar i f.gp f.gn = false) : tagMeans s i f dst observes a = advance i 1 := by
  rw [tagMeans, gated_of_mayRun hmay, hg]
  rfl
end

/-- At a point that is no edge, no wait on a counter and observes no tag, no deferred trap is due (R231). -/
theorem dueTrap_no_tags (x : Warp) (t : Strand) : dueTrap x t { tags := 0 } = none := by
  unfold dueTrap
  split
  · rfl
  · refine List.find?_eq_none.2 fun d _ => ?_
    simp

/-- Bits cleared one by one. -/
def clearBits (c : Nat → Bool) (ls : List Nat) (d : DWord) : DWord :=
  ls.foldl (fun d t => if c t then d &&& ~~~((1 : DWord) <<< t) else d) d

theorem getLsbD_clearBits (c : Nat → Bool) (ls : List Nat) (d : DWord) {k : Nat} (hk : k < 64) :
    (clearBits c ls d).getLsbD k = (d.getLsbD k && !(decide (k ∈ ls) && c k)) := by
  unfold clearBits
  induction ls generalizing d with
  | nil => simp
  | cons t ls ih =>
    rw [List.foldl_cons, ih]
    have hbit : (d &&& ~~~((1 : DWord) <<< t)).getLsbD k = (d.getLsbD k && !decide (k = t)) := by
      simp [hk]
      by_cases h : k = t
      · simp [h]
      · rcases Nat.lt_or_gt_of_ne h with h' | h'
        · simp [h, h']
        · simp [h, show ¬k < t by omega, show k - t ≠ 0 by omega]
    by_cases hc : c t
    · rw [if_pos hc, hbit]
      by_cases h : k = t
      · subst h; simp [hc]
      · simp [h]
    · rw [if_neg hc]
      by_cases h : k = t
      · subst h; simp [hc]
      · simp [h]

/-- The block whose tags of a mask with no operation in flight are clear. -/
def tagsReleased (m : Nat) (b : Block) : Block :=
  { b with cdone := clearBits (fun t => m.testBit t && decide (tagCount b t = 0)) (List.range 64) b.cdone }

theorem getLsbD_tagsReleased (m : Nat) (b : Block) {k : Nat} (hk : k < 64) :
    (tagsReleased m b).cdone.getLsbD k = (b.cdone.getLsbD k && !(m.testBit k && decide (tagCount b k = 0))) := by
  rw [tagsReleased, getLsbD_clearBits _ _ _ hk, decide_eq_true (List.mem_range.2 hk), Bool.true_and]

/-- Settles O29. -/
theorem tagInstructionsComplete : Obligations.TagInstructionsComplete := by
  unfold Obligations.TagInstructionsComplete
  intro f s i m r may undue writes only
  have hwrites {o : Instr} (hi : issuer s = some i)
      (ho : exec o s = .next (after (andThen (putScalar i false f.b.toNat (lowestTag r)) (advance i 1)) s)) : writes o := by
    obtain ⟨x, hframe, hpast, hx, hval, hrest⟩ := putScalar_ends hi false f.b.toNat (lowestTag r) 1
    refine ⟨_, x, ho, hframe, hpast, hx, fun q => ?_⟩
    by_cases hq : q = f.b.toNat
    · rw [if_pos hq, hq]
      exact BitVec.eq_of_toNat_eq (by simpa [sVal, span] using hval)
    · rw [if_neg hq]
      exact hrest q (by simpa [regs] using hq)
  refine ⟨fun hg => ⟨fun hmay hdue => ⟨fun hr => ?_, ?_⟩, fun hmay => ⟨fun hdue hr => ?_, ?_⟩⟩,
    fun hg => ⟨fun hmay => ⟨?_, ?_⟩, fun hmay => ⟨?_, ?_⟩⟩⟩
  · have hrun : exec (.waitany f) s = .next (after (if m ≠ 0 ∧ r = 0 then stall i 6
        else andThen (putScalar i false f.b.toNat (lowestTag r)) (advance i 1)) s) :=
      atIssue_act hmay.here (tagMeans_goes hmay hg hdue)
    rw [if_neg fun h => hr.elim h.1 fun h' => h' h.2] at hrun
    exact hwrites hmay.here hrun
  · exact hwrites hmay.here (atIssue_act hmay.here (tagMeans_goes hmay hg hdue))
  · have hrun : exec (.waitall f) s = .next (after (if r ≠ m then stall i 6 else advance i 1) s) :=
      atIssue_act hmay.here (tagMeans_goes hmay hg hdue)
    rw [if_neg (not_not_intro hr)] at hrun
    exact runsTo_advance hmay.here hrun
  · obtain ⟨-, hw, hst, hb, -⟩ := issuer_spec hmay.here
    have hrun : exec (.tagrel f) s = .next (after (andThen (updBlock i.warp.block (tagsReleased m)) (advance i 1)) s) :=
      atIssue_act hmay.here (tagMeans_goes hmay hg (dueTrap_no_tags ..))
    rw [after_andThen, after_updBlock hb] at hrun
    obtain ⟨x, hx⟩ := wentOn_advance (u := { s with blocks := mIns s.blocks i.warp.block (tagsReleased m i.blk) }) hw
      (unmoved_of_look hst) 1
    generalize after (advance i 1) _ = t at hx hrun
    have hblocks : t.blocks = mIns s.blocks i.warp.block (tagsReleased m i.blk) := by rw [hx.rest]
    exact ⟨t, x, tagsReleased m i.blk, hrun, by rw [hx.rest], hx.warps, hx.self, hx.warp, hx.past, by rw [hblocks, mLook_mIns_self],
      fun b hb => by rw [hblocks, mLook_mIns_ne _ _ hb], rfl, fun k hk => getLsbD_tagsReleased m i.blk hk⟩
  all_goals exact runsTo_advance hmay.here (atIssue_act hmay.here (tagMeans_skips hmay hg))

end Sys2Proof.Machine

namespace Sys2Proof.Machine

/-! The instructions on tile state (17_ref_matrix R277, R285, R286). -/

/-- A matrix instruction that names no tag, past its guard. -/
theorem xMeans_untagged {f : XFields} {s : State} {i : Iss} {opnd regionOk : Bool} {u : Uses}
    (hmay : MayRun s i (chkAll true opnd) { u with mem := true, act := true } 0) (hg : guardScalar i f.gp f.gn = true)
    (hreg : regionOk = false → regionLanes i &&& i.lanes = 0) (a : Act) : xMeans s i f opnd u none regionOk a = a := by
  refine xMeans_goes ?_ hg hreg a
  rw [hg, show tagBeyond i none = false from rfl, Bool.not_false, Bool.and_true]
  exact hmay

/-! ## `tshape` -/

theorem grant_le (x step cap : Nat) : grant x step cap ≤ cap := by
  unfold grant
  split
  · exact Nat.zero_le _
  · exact Nat.min_le_right _ _

/-- The three fields of a shape word that keep their limits. -/
theorem shape_fields {m n k : Nat} (hm : m < 1024) (hn : n < 1024) (hk : k < 1024) (x : Warp)
    (hx : x.tshape = BitVec.ofNat 32 (m + 1024 * n + 2 ^ 20 * k)) : shapeM x = m ∧ shapeN x = n ∧ shapeK x = k := by
  have e : x.tshape.toNat = m + 1024 * n + 2 ^ 20 * k := by
    rw [hx, BitVec.toNat_ofNat]; exact Nat.mod_eq_of_lt (by omega)
  unfold shapeM shapeN shapeK
  rw [e]
  omega

/-- The shape word that a request is granted (R263). -/
def grantedShape (i : Iss) (q : Nat) : Word :=
  let m := grant (q % 1024) 16 (min 128 i.lau.arows)
  let n := grant (q / 1024 % 1024) 16 (min 128 i.lau.acols)
  BitVec.ofNat 32 (m + 1024 * n + 2 ^ 20 * grant (q / 2 ^ 20 % 1024) 32 512)

/-! ## `tstat` -/

/-- Consecutive scalar registers written one after the other. -/
theorem sR_foldl_setS (r n : Nat) (ws : Nat → Word) (x : Warp) (q : Nat) :
    sR ((List.range n).foldl (fun y j => setS y (r + j) (ws j)) x) q = if q ∈ spanRegs r n then ws (q - r) else sR x q := by
  induction n with
  | zero => simp [spanRegs]
  | succ n ih =>
    rw [List.range_succ, List.foldl_append, List.foldl_cons, List.foldl_nil]
    have hmem : q ∈ spanRegs r (n + 1) ↔ q = r + n ∨ q ∈ spanRegs r n := by
      simp only [spanRegs, List.mem_map, List.mem_range]
      constructor
      · rintro ⟨j, hj, rfl⟩
        by_cases h : j = n
        · exact .inl (by rw [h])
        · exact .inr ⟨j, by omega, rfl⟩
      · rintro (rfl | ⟨j, hj, rfl⟩)
        · exact ⟨n, by omega, rfl⟩
        · exact ⟨j, by omega, rfl⟩
    by_cases hq : q = r + n
    · rw [if_pos (hmem.2 (.inl hq)), hq, sR_setS_self, Nat.add_sub_cancel_left]
    · rw [sR_setS_ne _ _ hq, ih]
      by_cases h : q ∈ spanRegs r n
      · rw [if_pos h, if_pos (hmem.2 (.inr h))]
      · rw [if_neg h, if_neg fun h' => (hmem.1 h').elim hq h]

theorem foldl_setS_eq (r n : Nat) (ws : Nat → Word) (x : Warp) :
    (List.range n).foldl (fun y j => setS y (r + j) (ws j)) x =
      { x with s := ((List.range n).foldl (fun y j => setS y (r + j) (ws j)) x).s } := by
  induction n with
  | zero => rfl
  | succ n ih => rw [List.range_succ, List.foldl_append, List.foldl_cons, List.foldl_nil, setS_eq, ih]

/-! ## `gfree` -/

/-- Pages of the pool dropped one by one. -/
theorem mLook_dropPages (l : List (Nat × PoolPage)) (s : State) (j : Nat) :
    mLook (applyAll (l.map fun e => .dropPage e.1) s).pool j = if j ∈ l.map (·.1) then none else mLook s.pool j := by
  induction l generalizing s with
  | nil => simp
  | cons e l ih =>
    rw [List.map_cons, applyAll_cons, ih, applyEffect_dropPage]
    by_cases hj : j = e.1
    · subst hj; simp
    · simp only [List.map_cons, List.mem_cons, hj, false_or, mLook_mDel_ne _ hj]

/-- Drops the pages of the pool whose keys a condition names. -/
def dropPages (c : Nat → Bool) : Act := fun s => (s.pool.filter fun e => c e.1).map fun e => .dropPage e.1

theorem after_dropPages (c : Nat → Bool) (s : State) :
    ∃ m, after (dropPages c) s = { s with pool := m } ∧ ∀ k, mLook m k = if c k then none else mLook s.pool k := by
  have honly := (only_of_each (ts := [.pool]) (a := dropPages c)
    (fun v e he => by obtain ⟨x, -, rfl⟩ := List.mem_map.1 he; simp [Effect.table]) s).eq
  simp at honly
  refine ⟨_, honly, fun k => (mLook_dropPages _ s k).trans ?_⟩
  by_cases hc : c k
  · rw [if_pos hc]
    split
    · rfl
    · next hk =>
      cases hl : mLook s.pool k with
      | none => rfl
      | some a => exact absurd (List.mem_map.2 ⟨(k, a), List.mem_filter.2 ⟨mem_of_mLook hl, hc⟩, rfl⟩) hk
  · rw [if_neg hc, if_neg]
    simp only [List.mem_map, List.mem_filter, not_exists, not_and]
    rintro e ⟨-, he⟩ rfl
    exact hc he

theorem after_freePin {s : State} {cid id : Nat} {c : Context} (hc : mLook s.ctxs cid = some c) :
    ∃ m, after (freePin cid id) s = { s with pool := m, ctxs := mIns s.ctxs cid { c with pins := mDel c.pins id } } ∧
      ∀ k, mLook m k = if k / 2 ^ 16 = poolKey cid id 0 / 2 ^ 16 then none else mLook s.pool k := by
  obtain ⟨m, hm, hlook⟩ := after_dropPages (fun k => decide (k / 2 ^ 16 = poolKey cid id 0 / 2 ^ 16)) s
  refine ⟨m, ?_, fun k => (hlook k).trans (by simp only [decide_eq_true_eq])⟩
  rw [freePin, after_andThen]
  exact (congrArg (after (updCtx cid _)) hm).trans (after_updCtx (by exact hc))

section
variable {f : XFields} {s : State} {i : Iss}

/-- The release of a region, then the strand goes on. -/
theorem gfree_freed {id : Nat} (hi : issuer s = some i)
    (ho : exec (.gfree f) s = .next (after (andThen (freePin i.cid id) (advance i 1)) s)) :
    ∃ t x, exec (.gfree f) s = .next t ∧ t = { s with warps := t.warps, ctxs := t.ctxs, pool := t.pool, epoch := t.epoch } ∧
      (∀ v, v ≠ i.w → mLook t.warps v = mLook s.warps v) ∧ mLook t.warps i.w = some x ∧
      x = { i.warp with strands := x.strands } ∧ Past i 1 x ∧
      mLook t.ctxs i.cid = some { i.ctx with pins := mDel i.ctx.pins id } ∧
      ∀ k, mLook t.pool k = if k / 2 ^ 16 = poolKey i.cid id 0 / 2 ^ 16 then none else mLook s.pool k := by
  obtain ⟨-, hw, hst, -, -, hc : mLook s.ctxs i.cid = _⟩ := issuer_spec hi
  obtain ⟨m, hm, hlook⟩ := after_freePin (id := id) hc
  rw [after_andThen, hm] at ho
  obtain ⟨x, hx⟩ := wentOn_advance (u := { s with pool := m, ctxs := mIns s.ctxs i.cid { i.ctx with pins := mDel i.ctx.pins id } })
    hw (unmoved_of_look hst) 1
  generalize after (advance i 1) _ = t at hx ho
  have hpool : t.pool = m := by rw [hx.rest]
  have hctxs : t.ctxs = mIns s.ctxs i.cid { i.ctx with pins := mDel i.ctx.pins id } := by rw [hx.rest]
  exact ⟨t, x, ho, by rw [hx.rest], hx.warps, hx.self, hx.warp, hx.past, by rw [hctxs, mLook_mIns_self], by rw [hpool]; exact hlook⟩

theorem exec_gfree (hmay : MayRun s i (chkAll true (xs1 i f.h)) { sr := [f.h.toNat], mem := true } 0)
    (hg : guardScalar i f.gp f.gn = true) (hreg : regionLanes i &&& i.lanes = 0) (hw : ∀ k, i.st.wait ≠ .freed k) {p : Pin}
    (hp : livePin i (sR i.warp f.h.toNat).toNat = some p) : exec (.gfree f) s = .next (after
      (if pinBusy s i.cid (sR i.warp f.h.toNat).toNat then
        andThen (updCtx i.cid fun c => { c with pins := mIns c.pins (sR i.warp f.h.toNat).toNat { p with freed := true } })
          (waitWith i (.freed (sR i.warp f.h.toNat).toNat))
      else andThen (freePin i.cid (sR i.warp f.h.toNat).toNat) (advance i 1)) s) := by
  refine atIssue_act hmay.here ?_
  split
  · next k h => exact absurd h (hw k)
  · exact (xMeans_untagged (u := { sr := [f.h.toNat] }) hmay hg (fun _ => hreg) _).trans (by rw [hp])

theorem exec_gfree_again {k : Nat} (hi : issuer s = some i) (hw : i.st.wait = .freed k) (hb : pinBusy s i.cid k = false) :
    exec (.gfree f) s = .next (after (andThen (freePin i.cid k) (advance i 1)) s) := by
  refine atIssue_act hi ?_
  rw [hw]
  exact if_neg (by rw [hb]; exact Bool.false_ne_true)
end

/-- Settles O30. -/
theorem tileStateInstructionsComplete : Obligations.TileStateInstructionsComplete := by
  unfold Obligations.TileStateInstructionsComplete
  intro f s i hg w q key pin freed
  refine ⟨fun hmay => ?tshape, fun hmay hpos hok hq => ?tstat, fun hmay hpos hq => ?tclr,
    fun hmay hreg hw p hp => ⟨fun hb => ?gone, fun hb => ?busy⟩, fun hi k hw hb => gfree_freed hi (exec_gfree_again hi hw hb)⟩
  case tshape =>
    obtain ⟨-, hwp, -⟩ := issuer_spec hmay.here
    have hrun : exec (.tshape f) s = .next (after (andThen (updWarp i.w fun x => { x with tshape := grantedShape i q }) (advance i 1)) s) :=
      atIssue_act hmay.here (xMeans_untagged (u := { sr := [f.g.toNat] }) hmay hg (fun h => Bool.noConfusion h) _)
    rw [after_andThen] at hrun
    obtain ⟨x, hframe, hx, hpast⟩ := ((RegisterFrame.refl (b := i.warp.block) hwp).updWarp fun x => { x with tshape := grantedShape i q }).advance
      (unmoved_issuer hmay.here rfl) 1
    have hm := grant_le (q % 1024) 16 (min 128 i.lau.arows)
    have hn := grant_le (q / 1024 % 1024) 16 (min 128 i.lau.acols)
    have hk := grant_le (q / 2 ^ 20 % 1024) 32 512
    have hshape : x.tshape = grantedShape i q := by rw [hx]
    exact ⟨_, x, hrun, hframe, hpast, hx.trans (by rw [hshape]), shape_fields (by omega) (by omega) (by omega) x hshape⟩
  case tstat =>
    obtain ⟨-, -, -, hb, hl, -⟩ := issuer_spec hmay.here
    let ws (j : Nat) : Word := (statWords (statAt i.blk key)).getD j 0
    have hact : after (actStat i.w i.warp.block i.core (wordRow w) (wordCol w) f.h.toNat) s = after (andThen
        (updWarp i.w fun x => (List.range 8).foldl (fun y j => setS y (f.h.toNat + j) (ws j)) x)
        (clearBadS i.w (spanRegs f.h.toNat 8))) s := by
      rw [actStat, after_look, hb]
      simp only [ws, acrossOf, hl, key]
    have hrun : exec (.tstat f) s = .next (after (andThen (actStat i.w i.warp.block i.core (wordRow w) (wordCol w) f.h.toNat)
        (advance i 1)) s) := by
      refine atIssue_act hmay.here ((xMeans_untagged (u := { sr := [f.g.toNat], sw := spanRegs f.h.toNat 8 }) hmay hg
        (fun h => Bool.noConfusion h) _).trans ((checked_of_none ?_ _).trans (if_pos hq)))
      rw [hpos, hok]; rfl
    rw [after_andThen, hact, after_andThen] at hrun
    obtain ⟨x, hframe, hpast, hx⟩ := scalarWrite_ends hmay.here (fun x => (List.range 8).foldl (fun y j => setS y (f.h.toNat + j) (ws j)) x)
      (by rw [foldl_setS_eq]) (by rw [foldl_setS_eq]) 0 1 (spanRegs f.h.toNat 8)
    have hs (r : Nat) : sR x r = if r ∈ spanRegs f.h.toNat 8 then ws (r - f.h.toNat) else sR i.warp r :=
      (sR_congr (by rw [hx]) r).trans (sR_foldl_setS f.h.toNat 8 ws i.warp r)
    simp only [after_andThen, after_raisePennants_zero] at hframe
    refine ⟨_, x, hrun, hframe, hpast, by rw [hx, foldl_setS_eq, nstat_or_zero], fun j hj => ?_, fun r hr => by rw [hs, if_neg hr]⟩
    rw [hs, if_pos (show f.h.toNat + j ∈ spanRegs f.h.toNat 8 from List.mem_map.2 ⟨j, List.mem_range.2 hj, rfl⟩), Nat.add_sub_cancel_left]
  case tclr =>
    obtain ⟨-, hwp, hst, hb, hl, -⟩ := issuer_spec hmay.here
    have hact : after (actClr i.warp.block i.core (wordRow w) (wordCol w)) s =
        { s with blocks := mIns s.blocks i.warp.block { i.blk with stats := mDel i.blk.stats key } } := by
      rw [actClr, after_look, after_updBlock hb]
      simp only [acrossOf, hl, key]
    have hrun : exec (.tclr f) s = .next (after (andThen (actClr i.warp.block i.core (wordRow w) (wordCol w)) (advance i 1)) s) :=
      atIssue_act hmay.here ((xMeans_untagged (u := { sr := [f.g.toNat] }) hmay hg (fun h => Bool.noConfusion h) _).trans
        ((checked_of_none (firstOf_singleton hpos _) _).trans (if_pos hq)))
    rw [after_andThen, hact] at hrun
    obtain ⟨x, hx⟩ := wentOn_advance (u := { s with blocks := mIns s.blocks i.warp.block { i.blk with stats := mDel i.blk.stats key } })
      hwp (unmoved_of_look hst) 1
    generalize after (advance i 1) _ = t at hx hrun
    have hblocks : t.blocks = mIns s.blocks i.warp.block { i.blk with stats := mDel i.blk.stats key } := by rw [hx.rest]
    exact ⟨t, x, hrun, by rw [hx.rest], hx.warps, hx.self, hx.warp, hx.past, by rw [hblocks, mLook_mIns_self],
      fun b hb => by rw [hblocks, mLook_mIns_ne _ _ hb]⟩
  case gone =>
    have hrun := exec_gfree hmay hg hreg hw hp
    rw [show pinBusy s i.cid (sR i.warp f.h.toNat).toNat = false from hb, if_neg Bool.false_ne_true] at hrun
    exact gfree_freed hmay.here hrun
  case busy =>
    obtain ⟨-, hwp, hst, -, -, hc : mLook s.ctxs i.cid = _⟩ := issuer_spec hmay.here
    have hrun := exec_gfree hmay hg hreg hw hp
    rw [show pinBusy s i.cid (sR i.warp f.h.toNat).toNat = true from hb, if_pos rfl, after_andThen, after_updCtx hc,
      after_waitWith (by exact hwp)] at hrun
    exact ⟨_, _, hrun, rfl, mLook_mIns_self .., onStrand_eq .., onStrand_here hst, mLook_mIns_self ..⟩

end Sys2Proof.Machine


/-! # Engine operations that complete, and those that fail (R230 to R232) -/

namespace Sys2Proof.Machine

/-! ## An update of an entry that may not stand -/

theorem updBlock_spec (b : Nat) (f : Block → Block) (s : State) :
    ∃ m, after (updBlock b f) s = { s with blocks := m } ∧ (∀ y, mLook s.blocks b = some y → mLook m b = some (f y)) ∧
      ∀ c, c ≠ b → mLook m c = mLook s.blocks c := by
  cases h : mLook s.blocks b with
  | none => exact ⟨s.blocks, by simp [after, updBlock, h], fun y hy => by simp at hy, fun _ _ => rfl⟩
  | some x =>
    refine ⟨_, after_updBlock h, fun y hy => ?_, fun c hc => mLook_mIns_ne _ _ hc⟩
    cases hy; exact mLook_mIns_self ..

theorem updWarp_spec (w : Nat) (f : Warp → Warp) (s : State) :
    ∃ m, after (updWarp w f) s = { s with warps := m } ∧ (∀ y, mLook s.warps w = some y → mLook m w = some (f y)) ∧
      ∀ c, c ≠ w → mLook m c = mLook s.warps c := by
  cases h : mLook s.warps w with
  | none => exact ⟨s.warps, after_updWarp_none h, fun y hy => by simp at hy, fun _ _ => rfl⟩
  | some x =>
    refine ⟨_, after_updWarp h, fun y hy => ?_, fun c hc => mLook_mIns_ne _ _ hc⟩
    cases hy; exact mLook_mIns_self ..

/-! ## An operation leaves -/

theorem retireEngine_left (u : State) (op : Nat) (o : EngOp) : EngineLeft u (after (retireEngine op o) u) op o := by
  let u1 : State := { u with engs := mDel u.engs op, locks := u.locks.filter fun l => decide (l.op ≠ op) }
  have htag : ∃ m, after (match o.tag with | some t => tagDone o.blk t | none => skip) u1 = { u1 with blocks := m } ∧
      (∀ y, mLook u.blocks o.blk = some y → mLook m o.blk = some (match o.tag with
        | some n => { y with pending := mPut 0 y.pending n (tagCount y n - 1),
                             cdone := if tagCount y n ≤ 1 then y.cdone ||| ((1 : DWord) <<< n) else y.cdone }
        | none => y)) ∧ ∀ c, c ≠ o.blk → mLook m c = mLook u.blocks c := by
    cases o.tag with
    | none => exact ⟨u.blocks, rfl, fun y hy => hy, fun _ _ => rfl⟩
    | some n => exact updBlock_spec o.blk _ u1
  obtain ⟨m, hm, hblock, hblocks⟩ := htag
  obtain ⟨v, hv, hwarp, hwarps⟩ := updWarp_spec o.w (fun x => match o.kind.onCp with
    | some true => { x with cp := x.cp - 1 }
    | some false => { x with tl := x.tl - 1 }
    | none => x) { u1 with blocks := m }
  have e : after (retireEngine op o) u = { u1 with blocks := m, warps := v, epoch := u.epoch + 1 } := by
    simp only [retireEngine, after_andThen]
    exact congrArg (after bump) ((congrArg (after (updWarp o.w _)) hm).trans hv)
  rw [e]
  exact {
    rest := rfl
    gone := mLook_mDel_self ..
    ops := fun k hk => mLook_mDel_ne _ hk
    block := hblock
    blocks := hblocks
    warp := fun x hx => (hwarp x hx).trans (by rcases o.kind.onCp with _ | (_ | _) <;> rfl)
    warps := hwarps }

/-! ## The transfers of a copy, one after the other -/

/-- What the sides of a transfer stand in, and the error marks. -/
def sideTables : List Table := [.mem, .blocks, .warps, .cores, .bad]

def Effect.onSide (e : Effect) : Prop := e.table ∈ sideTables

theorem onSide_bytes (k : Nat) (b : List Byte) : (Effect.bytes k b).onSide := by simp [Effect.onSide, Effect.table, sideTables]
theorem onSide_bad (l : List BadWord) : (Effect.bad l).onSide := by simp [Effect.onSide, Effect.table, sideTables]
theorem onSide_block (b : Nat) (y : Block) : (Effect.block b y).onSide := by simp [Effect.onSide, Effect.table, sideTables]
theorem onSide_warp (w : Nat) (x : Warp) : (Effect.warp w x).onSide := by simp [Effect.onSide, Effect.table, sideTables]
theorem onSide_core (c : Nat) (x : Core) : (Effect.core c x).onSide := by simp [Effect.onSide, Effect.table, sideTables]

theorem onSide_of_badFilter {b : Bool} {l : List BadWord} {e : Effect} (he : e ∈ if b then [] else [Effect.bad l]) : e.onSide := by
  split at he
  · cases he
  · cases List.mem_singleton.1 he; exact onSide_bad _

theorem each_clearBad_onSide (w : Nat) (rs : List Nat) (g : Mask) : Each Effect.onSide (clearBad w rs g) :=
  fun _ _ he => onSide_of_badFilter he

theorem each_writeLoc_onSide (l : Loc) (n v : Nat) : Each Effect.onSide (writeLoc l n v) := by
  unfold writeLoc
  split
  · intro s e he
    obtain rfl | he := List.mem_cons.1 he
    · exact onSide_bytes _ _
    · exact onSide_of_badFilter he
  · exact each_andThen (each_updBlock (onSide_block _)) (fun _ _ he => onSide_of_badFilter he)

theorem each_dropBad_onSide (l : List BadWord) : Each Effect.onSide (eff (.bad l)) := each_eff (onSide_bad _)

theorem each_sidePut_onSide (o : EngOp) (d : Side) (n v : Nat) : Each Effect.onSide (sidePut o d n v) := by
  refine each_look fun s => ?_
  cases d with
  | virt va =>
    change Each Effect.onSide (match engLoc s o va with | some l => writeLoc l n v | none => skip)
    split
    · exact each_writeLoc_onSide _ _ _
    · exact each_skip
  | scr b ofs => exact each_writeLoc_onSide _ _ _
  | bst c ofs =>
    exact each_andThen (each_updCore (onSide_core c)) (each_ite each_skip (each_dropBad_onSide _))
  | reg w ofs =>
    exact each_andThen (each_updWarp (onSide_warp w)) (each_ite (each_clearBad_onSide _ _ _) each_skip)

theorem each_putMove_onSide (o : EngOp) (m : Move) (v : Nat) : Each Effect.onSide (putMove o m v) := by
  refine each_look fun s => ?_
  split
  · exact each_skip
  · exact each_sidePut_onSide _ _ _ _

theorem each_unmark_onSide (o : EngOp) (w : Side) : Each Effect.onSide (unmark o w) := by
  refine each_look fun s => each_ite each_skip ?_
  cases w with
  | virt va =>
    simp only
    split
    · exact each_dropBad_onSide _
    · exact each_skip
  | scr b ofs => exact each_dropBad_onSide _
  | bst c ofs => exact each_dropBad_onSide _
  | reg w ofs => exact each_clearBad_onSide _ _ _

/-- `id` is an operation in flight, not in a queue. -/
def Unqueued (id : Nat) (s : State) : Prop := ∃ y, mLook s.engs id = some y ∧ y.queued = false

theorem updEng_unqueued {s : State} {id : Nat} {f : EngOp → EngOp} (h : Unqueued id s) (hf : ∀ y, (f y).queued = y.queued) :
    Unqueued id (after (updEng id f) s) := by
  obtain ⟨y, hy, hq⟩ := h
  exact ⟨f y, by rw [after_updEng hy]; exact mLook_mIns_self .., (hf y).trans hq⟩

theorem nextEvent_unqueued {s : State} {id k : Nat} {o : EngOp} (m : Move) (h : Unqueued id s) :
    Unqueued id (after (nextEvent id o k m) s) := by
  unfold nextEvent
  split
  · exact updEng_unqueued h fun _ => rfl
  · unfold putWord
    simp only
    split
    · exact h
    · simp only [after_andThen]
      refine updEng_unqueued ?_ fun _ => rfl
      have hkeep {a : Act} (ha : Each Effect.onSide a) {t : State} (ht : Unqueued id t) : Unqueued id (after a t) := by
        unfold Unqueued; rw [(only_of_each ha t).engs (by decide)]; exact ht
      exact hkeep (each_ite (each_unmark_onSide _ _) each_skip) (hkeep (each_forAll fun _ => each_putMove_onSide _ _ _) h)
  · exact updEng_unqueued h fun _ => rfl

theorem element_eventsMade {id : Nat} {u : State} (ks : List Nat) {s : State} (h : Unqueued id s) (he : eventsMade id ks s = some u) :
    after (forAll (element id) ks) s = u := by
  induction ks generalizing s with
  | nil => exact Option.some.inj he
  | cons k ks ih =>
    obtain ⟨o, ho, hq⟩ := h
    rw [eventsMade, ho, Option.bind_some] at he
    have hel : after (element id k) s = after (nextTransfer id o k) s := by
      rw [element, after_look]; simp only [ho, hq, Bool.false_eq_true, if_false]
    rw [after_forAll_cons, hel, nextTransfer, after_look]
    split at he
    · next hdone => rw [if_pos hdone]; exact ih ⟨o, ho, hq⟩ he
    · next hdone =>
      rw [if_neg hdone]
      obtain ⟨m, hm, he⟩ := Option.bind_eq_some_iff.1 he
      split at he
      · next hfine => simp only [hm, hfine]; exact ih (nextEvent_unqueued m ⟨o, ho, hq⟩) he
      · cases he

/-- Settles O31. -/
theorem copiesComplete : Obligations.CopiesComplete := by
  unfold Obligations.CopiesComplete
  intro s op o ho hq hcp
  refine ⟨fun u y hmade hy hdone => ?complete, fun why addr x w hx hw => ?fail⟩
  case complete =>
    refine ⟨_, ?_, retireEngine_left u op y⟩
    change execCopyComplete op s = _
    rw [execCopyComplete, finish_eq, ho]
    simp only [hq, hcp, ne_eq, not_true, Bool.false_eq_true, decide_false, Bool.or_self, if_false, after_andThen,
      element_eventsMade _ ⟨o, ho, hq⟩ hmade, after_look, hy, if_pos hdone]
  case fail =>
    refine ⟨_, ?_, retireEngine_left _ op o⟩
    change execCopyFail op why addr s = _
    rw [execCopyFail, finish_eq, ho]
    simp only [hq, hcp, ne_eq, not_true, Bool.false_eq_true, decide_false, Bool.or_self, if_false, hx, failEngine,
      after_andThen, after_updWarp hw]

end Sys2Proof.Machine


/-! # What the operations of a matrix queue do at their turn (R261, R267, R279 to R283, R286) -/

namespace Sys2Proof.Machine

/-! ## Words written one after the other -/

theorem mGet_foldl_mPut_ne {β α : Type} [DecidableEq α] (d : α) (κ : β → Nat) (w : β → α) (l : List β) (m : Map α) {k : Nat}
    (h : ∀ x ∈ l, κ x ≠ k) : mGet d (l.foldl (fun m x => mPut d m (κ x) (w x)) m) k = mGet d m k := by
  induction l generalizing m with
  | nil => rfl
  | cons x l ih =>
    rw [List.foldl_cons, ih _ fun y hy => h y (List.mem_cons_of_mem _ hy), mGet_mPut_ne _ _ _ (h x List.mem_cons_self).symm]

theorem mGet_foldl_mPut_of_mem {β α : Type} [DecidableEq α] (d : α) (κ : β → Nat) (w : β → α) (l : List β) (m : Map α) {k : Nat}
    {a : α} (hx : ∃ x ∈ l, κ x = k) (hw : ∀ x ∈ l, κ x = k → w x = a) :
    mGet d (l.foldl (fun m x => mPut d m (κ x) (w x)) m) k = a := by
  induction l generalizing m with
  | nil => obtain ⟨x, hx, -⟩ := hx; cases hx
  | cons x l ih =>
    rw [List.foldl_cons]
    by_cases hl : ∃ y ∈ l, κ y = k
    · exact ih _ hl fun y hy => hw y (List.mem_cons_of_mem _ hy)
    · obtain ⟨y, hy, hk⟩ := hx
      obtain rfl | hy := List.mem_cons.1 hy
      · rw [mGet_foldl_mPut_ne _ _ _ _ _ fun z hz h => hl ⟨z, hz, h⟩, hk, mGet_mPut_self]
        exact hw y List.mem_cons_self hk
      · exact absurd ⟨y, hy, hk⟩ hl

theorem accKey_inj {b : Block} {core r c r' c' : Nat} (hc : c < 512) (hc' : c' < 512)
    (h : accKey b core r c = accKey b core r' c') : r = r' ∧ c = c' := by
  unfold accKey at h; omega

/-- Elements of the accumulator of a core, written. -/
def accPut (b : Block) (core : Nat) (l : List (Nat × Nat × Word)) : Block :=
  { b with acc := l.foldl (fun m x => mPut 0 m (accKey b core x.1 x.2.1) x.2.2) b.acc }

theorem putAcc_written {s : State} {blk core : Nat} {b : Block} (hb : mLook s.blocks blk = some b) {l : List (Nat × Nat × Word)}
    {val : Nat → Nat → Option Word} (hval : ∀ r c w, (r, c, w) ∈ l ↔ val r c = some w) (hcol : ∀ x ∈ l, x.2.1 < 512) :
    AccWritten s (after (putAcc blk core l) s) blk core val := by
  have hput : ∃ y, after (putAcc blk core l) s = { s with blocks := mIns s.blocks blk (accPut b core l), bad := y } ∧
      ∀ z ∈ y, z ∈ s.bad := by
    refine ⟨(after (putAcc blk core l) s).bad, ?_, fun z hz => ?_⟩ <;> by_cases hbad : s.bad.isEmpty
    · simp [after, putAcc, updBlock, hb, hbad, applyEffect, accPut]
    · simp only [after, putAcc, updBlock, hb, hbad]; rfl
    · simpa [after, putAcc, updBlock, hb, hbad, applyEffect] using hz
    · simp only [after, putAcc, updBlock, hb, hbad] at hz
      exact (List.mem_filter.1 hz).1
  obtain ⟨y, e, hsub⟩ := hput
  rw [e]
  refine ⟨rfl, fun b' hb' => ?_, fun c hc => mLook_mIns_ne _ _ hc, hsub⟩
  cases hb.symm.trans hb'
  refine ⟨_, mLook_mIns_self .., fun r c hc => ?_⟩
  cases hv : val r c with
  | some w =>
    have hmem := (hval r c w).2 hv
    refine mGet_foldl_mPut_of_mem (0 : Word) (fun x : Nat × Nat × Word => accKey b core x.1 x.2.1) (fun x => x.2.2) l b.acc
      ⟨_, hmem, rfl⟩ fun x hx hk => ?_
    obtain ⟨h1, h2⟩ := accKey_inj (hcol x hx) hc hk
    have hxv := (hval x.1 x.2.1 x.2.2).1 hx
    rw [h1, h2, hv] at hxv
    exact (Option.some.inj hxv).symm
  | none =>
    refine mGet_foldl_mPut_ne (0 : Word) (fun x : Nat × Nat × Word => accKey b core x.1 x.2.1) (fun x => x.2.2) l b.acc
      fun x hx hk => ?_
    obtain ⟨h1, h2⟩ := accKey_inj (hcol x hx) hc hk
    have hxv := (hval x.1 x.2.1 x.2.2).1 hx
    rw [h1, h2, hv] at hxv
    cases hxv

/-! ## Tiles -/

theorem mem_tileCells {m n : Nat} {x : Nat × Nat} : x ∈ tileCells m n ↔ x.1 < m ∧ x.2 < n := by
  obtain ⟨i, j⟩ := x
  simp [tileCells]

theorem tileVal_eq_some {row col m n : Nat} {f : Nat → Nat → Word} {r c : Nat} {w : Word} :
    tileVal row col m n f r c = some w ↔ ∃ i < m, ∃ j < n, r = row + i ∧ c = col + j ∧ f i j = w := by
  unfold tileVal
  constructor
  · intro h
    split at h
    · exact ⟨r - row, by omega, c - col, by omega, by omega, by omega, Option.some.inj h⟩
    · cases h
  · rintro ⟨i, hi, j, hj, rfl, rfl, rfl⟩
    rw [if_pos (by omega), Nat.add_sub_cancel_left, Nat.add_sub_cancel_left]

theorem putAcc_tile {s : State} {blk core : Nat} {b : Block} (hb : mLook s.blocks blk = some b) {row col m n : Nat}
    (f : Nat → Nat → Word) (hn : col + n ≤ 512) :
    AccWritten s (after (putAcc blk core ((tileCells m n).map fun x => (row + x.1, col + x.2, f x.1 x.2))) s) blk core
      (tileVal row col m n f) := by
  refine putAcc_written hb (fun r c w => ?_) fun x hx => ?_
  · rw [tileVal_eq_some]
    simp only [List.mem_map, mem_tileCells, Prod.mk.injEq, Prod.exists]
    exact ⟨fun ⟨i, j, ⟨hi, hj⟩, h1, h2, h3⟩ => ⟨i, hi, j, hj, h1.symm, h2.symm, h3⟩,
      fun ⟨i, hi, j, hj, h1, h2, h3⟩ => ⟨i, j, ⟨hi, hj⟩, h1.symm, h2.symm, h3⟩⟩
  · obtain ⟨y, hy, rfl⟩ := List.mem_map.1 hx
    have := (mem_tileCells.1 hy).2
    exact show col + y.2 < 512 by omega

/-! ## The registers of `tread` -/

theorem mem_moveCells {row col n : Nat} {x : Nat × Nat × Nat × Nat} :
    x ∈ moveCells row col n false ↔ ∃ j < n, ∃ l < 32, x = (row + l, col + j, j, l) := by
  simp [moveCells, eq_comm]

theorem putAcc_columns {s : State} {blk core : Nat} {b : Block} (hb : mLook s.blocks blk = some b) {row col n : Nat}
    (f : Nat → Nat → Word) (hn : col + n ≤ 512) :
    AccWritten s (after (putAcc blk core ((moveCells row col n false).map fun c => (c.1, c.2.1, f c.2.2.2 c.2.2.1))) s) blk core
      (tileVal row col 32 n f) := by
  refine putAcc_written hb (fun r c w => ?_) fun x hx => ?_
  · rw [tileVal_eq_some]
    simp only [List.mem_map, mem_moveCells]
    constructor
    · rintro ⟨x, ⟨j, hj, l, hl, rfl⟩, hx⟩
      obtain ⟨h1, h2, h3⟩ : row + l = r ∧ col + j = c ∧ f l j = w := by simpa using hx
      exact ⟨l, hl, j, hj, h1.symm, h2.symm, h3⟩
    · rintro ⟨l, hl, j, hj, rfl, rfl, rfl⟩
      exact ⟨_, ⟨j, hj, l, hl, rfl⟩, rfl⟩
  · obtain ⟨y, hy, rfl⟩ := List.mem_map.1 hx
    obtain ⟨j, hj, l, hl, rfl⟩ := mem_moveCells.1 hy
    exact show col + j < 512 by omega

/-- Vector registers written one after the other. -/
theorem foldl_setV_eq {β : Type} (r k : β → Nat) (w : β → Word) (l : List β) (x : Warp) :
    l.foldl (fun y c => setV y (r c) (k c) (w c)) x =
      { x with v := l.foldl (fun m c => mPut 0 m (32 * r c + k c) (w c)) x.v } := by
  induction l generalizing x with
  | nil => rfl
  | cons c l ih => rw [List.foldl_cons, ih]; rfl

theorem foldl_setV_v {β : Type} (r k : β → Nat) (w : β → Word) (l : List β) (x : Warp) :
    l.foldl (fun y c => setV y (r c) (k c) (w c)) x =
      { x with v := (l.foldl (fun y c => setV y (r c) (k c) (w c)) x).v } := by
  rw [foldl_setV_eq]

theorem vR_treadCells (x : Warp) (row col n reg : Nat) (w : Nat → Nat → Word) (q : Nat) {l : Nat} (hl : l < 32) :
    vR ((moveCells row col n false).foldl (fun y c => setV y (reg + c.2.2.1) c.2.2.2 (w c.1 c.2.1)) x) q l =
      if reg ≤ q ∧ q < reg + n then w (row + l) (col + (q - reg)) else vR x q l := by
  rw [foldl_setV_eq fun c : Nat × Nat × Nat × Nat => reg + c.2.2.1]
  split
  · next hq =>
    refine mGet_foldl_mPut_of_mem (0 : Word) (fun c : Nat × Nat × Nat × Nat => 32 * (reg + c.2.2.1) + c.2.2.2) _ _ _
      ⟨_, mem_moveCells.2 ⟨q - reg, by omega, l, hl, rfl⟩, ?_⟩ fun c hc hk => ?_
    · exact show 32 * (reg + (q - reg)) + l = 32 * q + l by omega
    · obtain ⟨j, hj, k, hk', rfl⟩ := mem_moveCells.1 hc
      replace hk : 32 * (reg + j) + k = 32 * q + l := hk
      obtain ⟨rfl, rfl⟩ : k = l ∧ j = q - reg := by omega
      rfl
  · next hq =>
    refine mGet_foldl_mPut_ne (0 : Word) (fun c : Nat × Nat × Nat × Nat => 32 * (reg + c.2.2.1) + c.2.2.2) _ _ _ fun c hc hk => ?_
    obtain ⟨j, hj, k, hk', rfl⟩ := mem_moveCells.1 hc
    replace hk : 32 * (reg + j) + k = 32 * q + l := hk
    omega

theorem after_clearBad (w : Nat) (rs : List Nat) (g : Mask) (s : State) :
    ∃ l, after (clearBad w rs g) s = { s with bad := l } ∧ ∀ z ∈ l, z ∈ s.bad := by
  refine ⟨(after (clearBad w rs g) s).bad, ?_, fun z hz => ?_⟩ <;> by_cases hbad : s.bad.isEmpty
  · simp [after, clearBad, hbad]
  · simp only [after, clearBad, hbad]; rfl
  · simpa [after, clearBad, hbad] using hz
  · simp only [after, clearBad, hbad] at hz
    exact (List.mem_filter.1 hz).1

theorem after_clearBadS (w : Nat) (rs : List Nat) (s : State) :
    ∃ l, after (clearBadS w rs) s = { s with bad := l } ∧ ∀ z ∈ l, z ∈ s.bad := by
  refine ⟨(after (clearBadS w rs) s).bad, ?_, fun z hz => ?_⟩ <;> by_cases hbad : s.bad.isEmpty
  · simp [after, clearBadS, hbad]
  · simp only [after, clearBadS, hbad]; rfl
  · simpa [after, clearBadS, hbad] using hz
  · simp only [after, clearBadS, hbad] at hz
    exact (List.mem_filter.1 hz).1

/-! ## The head of a queue -/

theorem queueHead_spec {s : State} {core id : Nat} {o : EngOp} (hs : mSorted s.engs = true) (h : queueHead s core = some (id, o)) :
    mLook s.engs id = some o :=
  mLook_of_mem (x := (id, o)) hs (List.mem_filter.1 (List.mem_of_mem_head? h)).1

theorem exec_queued {s : State} {core id : Nat} {o : EngOp} (h : queueHead s core = some (id, o)) :
    exec (.queuedTileOpPerform core) s = .next (after (performQueued id o) s) := by
  change execQueuedTileOpPerform core s = _
  rw [execQueuedTileOpPerform, finish_eq, h]

/-- An `mma` of one segment in which no NaN arises. -/
theorem mmaSegments_single {s : State} {o : EngOp} {p : MmaParams} {b : Block} (hb : mLook s.blocks o.blk = some b) (k0 k1 : Nat)
    {out : Nat → Nat → Word × Bool}
    (hout : out = fun r c =>
      if fwMode p.fw = 2 then (segInt p (scratchSeen o p.ablock (match mLook s.blocks p.ablock with | some x => x.scratch | none => []))
        (bstoreSeen o (coreOf s o.core).bstore) r c k0 k1 (accAt b o.core (p.row0 + r) (p.col0 + c)), false)
      else segElem (segValue p (scratchSeen o p.ablock (match mLook s.blocks p.ablock with | some x => x.scratch | none => []))
        (scratchSeen o o.blk b.scratch) (bstoreSeen o (coreOf s o.core).bstore) r c k0 k1) (decide (fwMode p.fw = 1) && decide (k0 = 0))
        (accAt b o.core (p.row0 + r) (p.col0 + c)))
    (hnan : ∀ r < p.m, ∀ c < p.n, (out r c).2 = false) :
    after (mmaSegments o p [(k0, k1)]) s =
      after (putAcc o.blk o.core ((tileCells p.m p.n).map fun x => (p.row0 + x.1, p.col0 + x.2, (out x.1 x.2).1))) s := by
  subst hout
  rw [mmaSegments, after_look]
  simp only [hb]
  rw [if_pos]
  · rw [after_andThen, List.map_map]; rfl
  · simp only [List.isEmpty_iff, List.map_eq_nil_iff, List.filter_eq_nil_iff, List.mem_map, mem_tileCells]
    rintro y ⟨x, ⟨h1, h2⟩, rfl⟩
    exact (Bool.eq_false_iff.1 (hnan x.1 h1 x.2 h2))

theorem each_raisePennants_onSide (w : Nat) (p : Byte) : Each Effect.onSide (raisePennants w p) := by
  refine each_ite each_skip (each_look fun s => ?_)
  split
  · exact each_skip
  · refine each_andThen (each_look fun u => ?_) (each_andThen (each_eff (onSide_warp _ _)) (each_updBlock (onSide_block _)))
    split
    · exact each_traceTurn (onSide_core _)
    · exact each_skip

/-- Counting the clipped elements touches the block and the warp. -/
theorem engs_countClips (o : EngOp) (c : DrainCtl) (outs : List (Nat × Nat × Nat × Bool)) (s : State) :
    (after (countClips o c outs) s).engs = s.engs := by
  have hside : Each Effect.onSide (countClips o c outs) :=
    each_look fun s => each_ite each_skip (each_andThen (each_updBlock (onSide_block _)) (each_raisePennants_onSide _ _))
  exact (only_of_each hside s).engs (by decide)

/-- Settles O32. -/
theorem queuedOperationsPerform : Obligations.QueuedOperationsPerform := by
  unfold Obligations.QueuedOperationsPerform
  intro s core id o b x hq hcore hb hx hcan word leaves tile row
  subst hcore
  have hturn : exec tile s = .next (after (performQueued id o) s) := exec_queued hq
  refine ⟨fun p hk hbad hseg hcol => ?mma, fun r c m n hk hcol => ?zero, fun r c m n ofs stride hk hcol hbad => ?tload,
    fun r c n vals hk hcol => ?twrite, fun r c n reg hk hbad => ?tread, fun r c reg hk => ?stat, fun r c hk => ?clr,
    fun sh cs c addIt hk hbad => ?drain⟩
  all_goals try simp only [performQueued, after_look, hb, hk] at hturn
  case mma =>
    intro a bs out hnan
    refine ⟨_, putAcc_tile hb (fun r c => (out r c).1) hcol, _, ?_, retireEngine_left _ id o⟩
    change execMmaPerform o.core s = _
    rw [execMmaPerform, finish_eq, hq]
    simp only [hk, hbad, hseg, runsTo]
    rw [after_andThen, mmaSegments_single hb 0 p.k (out := out) (by simp only [decide_true, Bool.and_true]; rfl) hnan]
  case zero =>
    refine ⟨_, putAcc_tile hb (fun _ _ => 0) hcol, _, ?_, retireEngine_left _ id o⟩
    rw [hturn, after_andThen]
  case tload =>
    refine ⟨_, putAcc_tile hb (fun j k => BitVec.ofNat 32 (bytesAt (scratchSeen o o.blk b.scratch) (ofs + j * stride + 4 * k) 4)) hcol, _, ?_,
      retireEngine_left _ id o⟩
    rw [hturn, hbad]
    simp only [after_andThen]
  case twrite =>
    refine ⟨_, putAcc_columns hb (fun l j => vals.getD (32 * j + l) 0) hcol, _, ?_, retireEngine_left _ id o⟩
    rw [hturn, after_andThen]
  case tread =>
    let y := (moveCells r c n false).foldl (fun y c => setV y (reg + c.2.2.1) c.2.2.2 (accAt b o.core c.1 c.2.1)) x
    obtain ⟨l, hl, hsub⟩ := after_clearBad o.w (spanRegs reg n) (~~~0) { s with warps := mIns s.warps o.w y }
    refine ⟨y, l, ⟨_, ?_, retireEngine_left _ id o⟩, hsub,
      foldl_setV_v (fun c : Nat × Nat × Nat × Nat => reg + c.2.2.1) _ _ _ x,
      fun q l hl => vR_treadCells x r c n reg (accAt b o.core) q hl⟩
    rw [hturn]
    simp only [Bool.false_eq_true, if_false, hbad, after_andThen, after_updWarp hx]
    rw [hl]
  case stat =>
    let ws (j : Nat) : Word := (statWords (statAt b (slotKey b (acrossOf s b) o.core r c))).getD j 0
    let y := (List.range 8).foldl (fun y j => setS y (reg + j) (ws j)) x
    obtain ⟨l, hl, hsub⟩ := after_clearBadS o.w (spanRegs reg 8) { s with warps := mIns s.warps o.w y }
    refine ⟨y, l, ⟨_, ?_, retireEngine_left _ id o⟩, hsub, foldl_setS_eq reg 8 ws x, fun j hj => ?_⟩
    · rw [hturn, after_andThen, actStat, after_look, hb]
      simp only [after_andThen, after_updWarp hx]
      rw [hl]
    · rw [sR_foldl_setS, if_pos (show reg + j ∈ spanRegs reg 8 from List.mem_map.2 ⟨j, List.mem_range.2 hj, rfl⟩),
        Nat.add_sub_cancel_left]
  case clr =>
    refine ⟨_, ?_, retireEngine_left _ id o⟩
    rw [hturn, after_andThen, actClr, after_look, after_updBlock hb]
  case drain =>
    intro d u
    have hid : mLook u.engs id = some o := by rw [engs_countClips]; exact queueHead_spec hcan.engs hq
    rw [hbad] at hturn
    simp only [Bool.false_eq_true, if_false] at hturn
    have hends : after (andThen (updEng id fun y => { y with queued := false, vals := tileCodes d }) bump) u =
        { u with engs := mIns s.engs id { o with queued := false, vals := tileCodes d }, epoch := u.epoch + 1 } := by
      rw [after_andThen, after_updEng hid, engs_countClips]; rfl
    exact ⟨_, hturn, by rw [after_andThen]; exact hends.trans (by rw [hends])⟩

end Sys2Proof.Machine


/-! # Pinned regions and what the queue does to them (R272, R273, R283 to R285) -/

namespace Sys2Proof.Machine

/-- What an operation notes of its own progress before it leaves leaves with it. -/
theorem EngineLeft.of_engs {u v t : State} {op : Nat} {o : EngOp} (h : EngineLeft v t op o) (e : v = { u with engs := v.engs })
    (hk : ∀ k, k ≠ op → mLook v.engs k = mLook u.engs k) : EngineLeft u t op o := by
  rw [e] at h
  exact ⟨h.rest, h.gone, fun k hne => (h.ops k hne).trans (hk k hne), h.block, h.blocks, h.warp, h.warps⟩

/-- An operation notes its progress in itself alone. -/
theorem after_updEng_eq (id : Nat) (f : EngOp → EngOp) (s : State) :
    ∃ m, after (updEng id f) s = { s with engs := m } ∧ ∀ k, k ≠ id → mLook m k = mLook s.engs k := by
  cases h : mLook s.engs id with
  | none => exact ⟨s.engs, by simp [after, updEng, h], fun _ _ => rfl⟩
  | some x => exact ⟨_, after_updEng h, fun k hk => mLook_mIns_ne _ _ hk⟩

theorem toFlush_nil {s : State} {o : EngOp} {pin : Nat}
    (h : (s.pool.all fun e => e.2.spilled || decide (e.1 / 2 ^ 16 ≠ poolKey o.ctx pin 0 / 2 ^ 16) || decide (e.1 < o.pos)) = true) :
    toFlush s o pin = [] := by
  refine List.filter_eq_nil_iff.2 fun e he => ?_
  have := List.all_eq_true.1 h e he
  simp only [Bool.or_eq_true, Bool.and_eq_true, decide_eq_true_eq, Bool.not_eq_true'] at this ⊢
  rintro ⟨⟨h1, h2⟩, h3⟩
  obtain (h4 | h4) | h4 := this
  · rw [h4] at h2; cases h2
  · exact h4 h1
  · omega

/-- The last element of a `gacc` in a resident page. -/
theorem after_gaccAdd_resident {s : State} {op : Nat} {o : EngOp} {b : Block} {c : Context} {p : Pin} {pin row col n ofs stride e : Nat}
    (next : Act) (hb : mLook s.blocks o.blk = some b) (hc : mLook s.ctxs o.ctx = some c) (hp : mLook c.pins pin = some p)
    {pg : PoolPage} {key w : Nat} (hkey : key = poolKey o.ctx pin ((ofs + e / n * stride + 4 * (e % n)) / 4096))
    (hw : w = (ofs + e / n * stride + 4 * (e % n)) % 4096 / 4) (hpg : mLook s.pool key = some pg) (hsp : pg.spilled = false)
    (hbad : s.bad.contains (.pool key w) = false) :
    after (gaccAdd op o pin row col n ofs stride e next) s =
      after (andThen (updEng op fun y => { y with pos := e + 1 }) next) { s with pool := mIns s.pool key { pg with
        last := s.tick, words := mPut 0 pg.words w (BitVec.ofNat 32 (poolAdd (mGet 0 pg.words w)
          (accAt b o.core (row + e / n) (col + e % n)))) } } := by
  subst hkey hw
  rw [gaccAdd, after_look]
  simp only [hb, hc, Option.bind_some, hp, hpg, Option.isSome_some, if_true, after_look, hbad, hsp, Bool.false_eq_true, if_false]
  rfl

/-- Settles O33. -/
theorem pinnedOperationsPerform : Obligations.PinnedOperationsPerform := by
  unfold Obligations.PinnedOperationsPerform
  intro s op o b x c hb hx hc hcan turn leaves tile
  have hturn (h : turn) : exec tile s = .next (after (performQueued op o) s) := exec_queued h
  refine ⟨fun id reg p ho hk hp => ?pin, fun ofs stride d hq hk hbad => ?tsave,
    fun pin row col m n ofs stride p pg hq hk hacc hpos hp => ?gacc, fun pin hq hk hall => ?gflush⟩
  case pin =>
    let y := setS x reg (BitVec.ofNat 32 id)
    obtain ⟨l, hl, hsub⟩ := after_clearBadS o.w [reg] { s with
      ctxs := mIns s.ctxs o.ctx { c with pins := mIns c.pins id { p with ready := true } }, warps := mIns s.warps o.w y }
    refine ⟨y, l, ⟨_, ?_, retireEngine_left _ op o⟩, hsub, rfl, fun q => ?_⟩
    · change execGpinReservationRecorded op s = _
      rw [execGpinReservationRecorded, finish_eq, ho]
      simp only [hk, after_andThen, after_updCtx hc, hp]
      rw [after_updWarp (by exact hx), hl]
    · by_cases h : q = reg
      · rw [h, if_pos rfl]; exact sR_setS_self ..
      · rw [if_neg h]; exact sR_setS_ne _ _ h
  case tsave =>
    refine ⟨_, ?_, retireEngine_left _ op o⟩
    rw [hturn hq, performQueued, after_look, hb]
    simp only [hk, hbad, Bool.false_eq_true, if_false, after_andThen]
  case gacc =>
    intro byte key w hpg hsp hbad
    let u := { s with pool := mIns s.pool key { pg with
        last := s.tick, words := mPut 0 pg.words w (BitVec.ofNat 32 (poolAdd (mGet 0 pg.words w)
          (accAt b o.core (row + o.pos / n) (col + o.pos % n)))) } }
    obtain ⟨e, he, hne⟩ := after_updEng_eq op (fun y => { y with pos := o.pos + 1 }) u
    have hrun : exec tile s = .next (after (retireEngine op o) { u with engs := e }) := by
      rw [hturn hq, performQueued, after_look, hb]
      simp only [hk, hacc, Bool.false_eq_true, if_false]
      rw [show m * n - o.pos = 0 + 1 by omega, gaccFrom, after_gaccAdd_resident _ hb hc hp rfl rfl hpg hsp hbad, after_andThen, he]
      rfl
    exact ⟨_, hrun, (retireEngine_left _ op o).of_engs rfl hne⟩
  case gflush =>
    refine ⟨_, ?_, retireEngine_left s op o⟩
    rw [hturn hq, performQueued, after_look, hb]
    simp only [hk]
    rw [toFlush_nil hall]
    rfl

end Sys2Proof.Machine


/-! # Deferred traps, and parked parts that execute again (R34, R231, R269) -/

namespace Sys2Proof.Machine

theorem issAt_of_parts {s : State} {w k : Nat} {x : Warp} {t : Strand} {b : Block} {l : Launch} {c : Context}
    (hw : mLook s.warps w = some x) (ht : mLook x.strands k = some t) (hb : mLook s.blocks x.block = some b)
    (hl : mLook s.launches b.launch = some l) (hc : mLook s.ctxs b.ctx = some c) : issAt s w k = some ⟨w, k, x, t, b, l, c⟩ := by
  simp only [issAt, hw, ht, hb, hl, hc]

/-- A deferred trap that is due, where no part runs ahead of a parked one. -/
theorem exec_deferredTrapDeliver {s : State} {i : Iss} {d : Trap} (hat : strandAt s i.w i.k = some i) (hslot : i.st.slot = none)
    (htrap : i.st.trap = none) (hheld : i.st.held = none) (hdue : dueTrap i.warp i.st { edge := true } = some d) (hnow : TrapNow i) :
    exec (.deferredTrapDeliver i.w i.k) s = .next (after
      (if i.lau.trap = 0 then terminate i.cid (trapBytes (deferredAt i d)) (some i.blk.launch) d.pc 2 else deliver i.w i.k (deferredAt i d))
      { s with warps := mIns s.warps i.w { i.warp with deferred := i.warp.deferred.erase d } }) := by
  obtain ⟨-, -, hw, -⟩ := issAt_spec (issAt_of_strandAt hat)
  change execDeferredTrapDeliver i.w i.k s = _
  rw [execDeferredTrapDeliver, finish_eq, hat]
  simp only [hslot, htrap, hheld, Option.isSome_none, Bool.or_self, Bool.false_eq_true, if_false, unlessDue, hdue, takeDeferred,
    splitReady_of_trapNow hnow, after_andThen, after_updWarp hw, deferredAt]

/-- Settles O34. -/
theorem deferredTrapsAndShadows : Obligations.DeferredTrapsAndShadows := by
  unfold Obligations.DeferredTrapsAndShadows
  intro s i hat
  obtain ⟨-, -, hw, hst, hb, hl, hc⟩ := issAt_spec (issAt_of_strandAt hat)
  refine ⟨fun d hslot htrap hheld hdue hnow => ?deferred, fun p rest hsh htg hans hpage hwait => ?again⟩
  case deferred =>
    intro x u
    have hexec := exec_deferredTrapDeliver hat hslot htrap hheld hdue hnow
    refine ⟨fun ht hrec => ?_, fun ht hopen => ?_⟩
    · rw [if_neg ht] at hexec
      have hu : issAt u i.w i.k = some { i with warp := x } := issAt_of_parts (mLook_mIns_self ..) hst hb hl hc
      exact ⟨_, hexec, deliver_entered (i := { i with warp := x }) hu (deferredAt i d) hrec⟩
    · rw [if_pos ht] at hexec
      exact ⟨_, hexec, terminate_ended (s := u) (i := { i with warp := x }) hc hopen _ _⟩
  case again =>
    intro y
    have hrun : exec (.faultShadowReexecute i.w i.k) s = .next (after (andThen (updStrand i.w i.k fun t =>
        if p.pc = i.st.pc ∧ p.slot = i.st.slot then { t with shadow := rest, failed := p.failed, sent := p.sent, idleAt := 0 }
        else { t with pc := p.pc, slot := p.slot, hdr := p.hdr, wait := p.wait, shadow := rest, held := none, failed := p.failed,
                      sent := p.sent, target := some (waitingPart i), idleAt := 0 }) bump) s) := by
      change execFaultShadowReexecute i.w i.k s = _
      rw [execFaultShadowReexecute, finish_eq, hat]
      have hopen : (p.pages.any fun q => (openFault s p.ctx q).isSome) = false :=
        List.any_eq_false.2 fun q hq => by rw [hans q hq]; exact Bool.false_ne_true
      have hstill : (decide (i.st.wait = .none) && decide (i.lanes ≠ 0)) = false := by
        rcases hwait with h | h <;> simp [h]
      simp only [hsh, htg, hopen, hpage, hstill, Option.isSome_none, Bool.or_self, Bool.false_eq_true, if_false]
      split <;> rfl
    rw [after_andThen, after_updStrand hw] at hrun
    exact ⟨_, _, hrun, rfl, fun v hv => mLook_mIns_ne _ _ hv, mLook_mIns_self .., onStrand_eq .., onStrand_here hst,
      fun k hk => onStrand_others _ _ _ hk⟩

end Sys2Proof.Machine


/-! # `abeg`, `ald` and `st.rgn` (R298, R299, R302, R318, R319, R322) -/

namespace Sys2Proof.Machine

/-! ## The lanes of an access -/

theorem okLanes_keys (fs : List LaneFate) : ((okLanes fs).map (·.1)).Sublist (fs.map (·.1)) := by
  induction fs with
  | nil => exact List.Sublist.slnil
  | cons x fs ih =>
    obtain ⟨l, va, fate⟩ := x
    cases fate with
    | ok p e => exact ih.cons_cons l
    | absent => exact ih.cons l
    | stop r c x => exact ih.cons l

section
variable {g : Mask} {va : Nat → Nat} {fate : Nat → Fate}

theorem okLanes_nodup : ((okLanes ((lanesIn g).map fun l => (l, va l, fate l))).map (·.1)).Nodup := by
  refine (okLanes_keys _).nodup ?_
  simpa [Function.comp_def] using lanesIn_nodup g

theorem mem_okLanes {o : Nat × Nat × Loc × Option DWord} (h : o ∈ okLanes ((lanesIn g).map fun l => (l, va l, fate l))) :
    o.1 < 32 ∧ hasLane g o.1 = true := by
  have hmem := (okLanes_keys _).subset (List.mem_map_of_mem h)
  simp only [List.map_map, Function.comp_def, List.map_id'] at hmem
  exact mem_lanesIn.1 hmem
end

/-- Entries of distinct keys, inserted one after the other. -/
theorem mLook_foldl_mIns_of_mem {β α : Type} (κ : β → Nat) (w : β → α) (l : List β) (m : Map α) (hn : (l.map κ).Nodup) {y : β}
    (hy : y ∈ l) : mLook (l.foldl (fun m x => mIns m (κ x) (w x)) m) (κ y) = some (w y) := by
  induction l generalizing m with
  | nil => cases hy
  | cons x l ih =>
    obtain ⟨hx, hn⟩ := List.nodup_cons.1 hn
    rw [List.foldl_cons]
    obtain rfl | hy := List.mem_cons.1 hy
    · have hkeep (m : Map α) (l : List β) (h : κ y ∉ l.map κ) :
          mLook (l.foldl (fun m x => mIns m (κ x) (w x)) m) (κ y) = mLook m (κ y) := by
        induction l generalizing m with
        | nil => rfl
        | cons z l ih =>
          rw [List.map_cons, List.mem_cons, not_or] at h
          rw [List.foldl_cons, ih _ h.2, mLook_mIns_ne _ _ h.1]
      rw [hkeep _ _ hx, mLook_mIns_self]
    · exact ih _ hn hy

/-! ## What a region instruction leaves of the strand and the warp -/

section
variable {s t : State} {i : Iss} {y : Warp} (h : WarpStep s t i.w y) (hm : Unmoved i y)
include h hm

/-- A register write is noted in a strand that has not moved. -/
theorem WarpStep.wrote_unmoved (u : Uses) (g : Mask) :
    ∃ x, WarpStep s (after (Machine.wrote i u g) t) i.w x ∧ x = { y with strands := x.strands } ∧ Unmoved i x := by
  have hnote : ∃ x, WarpStep s (after (Machine.noteWrites i u g) t) i.w x ∧ x = { y with strands := x.strands } ∧ Unmoved i x := by
    rw [Machine.noteWrites]
    split
    · exact ⟨y, h, rfl, hm⟩
    · refine ⟨_, h.updWarp _, onStrand_eq .., ?_, fun k hk => (onStrand_others _ _ _ hk).trans (hm.others k hk)⟩
      obtain ⟨z, h1, h2⟩ := hm.here
      exact ⟨_, onStrand_here h1, h2⟩
  obtain ⟨x, hx, hrest⟩ := hnote
  exact ⟨x, by rw [Machine.wrote, after_andThen]; exact hx.clearBad .., hrest⟩
end

/-! ## `abeg` -/

theorem mLook_foldl_lanes {α : Type} (g : Mask) (a : α) (m : Map α) {l : Nat} (hl : l < 32) :
    mLook ((lanesIn g).foldl (fun r l => mIns r l a) m) l = if hasLane g l then some a else mLook m l := by
  refine (mLook_foldl_mIns (lanesIn g) id a m l).trans ?_
  simp only [List.map_id, mem_lanesIn, hl, true_and]

theorem abeg_opens (f : MFields) (s : State) (i : Iss)
    (hmay : MayRun s i none { pr := guardReads f.gp, mem := true, shadow := true } (guardMask i f.gp f.gn))
    (hreg : regionLanes i &&& guardMask i f.gp f.gn = 0) :
    RunsTo s i (exec (.abeg f) s) 1 fun x => x = { i.warp with regions := x.regions, strands := x.strands } ∧
      ∀ l < 32, mLook x.regions l = if hasLane (guardMask i f.gp f.gn) l then some { fallback := labelAt i (fallbackDisp f) }
        else mLook i.warp.regions l := by
  obtain ⟨-, hw, -⟩ := issuer_spec hmay.here
  let F (x : Warp) : Warp := { x with
    regions := (lanesIn (guardMask i f.gp f.gn)).foldl (fun r l => mIns r l { fallback := labelAt i (fallbackDisp f) }) x.regions }
  have hrun : exec (.abeg f) s = .next (after (andThen (updWarp i.w F) (advance i 1)) s) :=
    atIssue_act hmay.here ((gated_of_mayRun hmay _).trans (noRegion_of_none hreg _ _))
  rw [after_andThen] at hrun
  obtain ⟨x, hframe, hx, hpast⟩ := ((RegisterFrame.refl (b := i.warp.block) hw).updWarp F).advance (unmoved_issuer hmay.here rfl) 1
  have hr : x.regions = (F i.warp).regions := by rw [hx]
  exact ⟨_, x, hrun, hframe, hpast, hx.trans (by rw [hr]), fun l hl => by rw [hr]; exact mLook_foldl_lanes _ _ _ hl⟩

/-! ## `ald` -/

/-- The value that a lane of an `ald` brings at once. -/
def AldCase.value : AldCase → Option Nat
  | .held v _ => some v
  | _ => none

/-- The lanes of an `ald` with a value at once. -/
def heldLanes (case_ : Nat × Nat × Loc × Option DWord → AldCase) (oks : List (Nat × Nat × Loc × Option DWord)) : List (Nat × Nat) :=
  oks.filterMap fun o => (case_ o).value.map (o.1, ·)

theorem foldl_held {F : Warp → Nat × Nat × Loc × Option DWord → Warp} (w : Bool) (d : Nat)
    (case_ : Nat × Nat × Loc × Option DWord → AldCase)
    (hF : ∀ y o, F y o = match (case_ o).value with | some v => setVal y w d o.1 v | none => y)
    (oks : List (Nat × Nat × Loc × Option DWord)) (x : Warp) : oks.foldl F x = putLanes x w d (heldLanes case_ oks) := by
  induction oks generalizing x with
  | nil => rfl
  | cons o os ih =>
    rw [List.foldl_cons, ih, hF]
    simp only [heldLanes, List.filterMap_cons]
    cases (case_ o).value <;> rfl

section
variable {case_ : Nat × Nat × Loc × Option DWord → AldCase} {oks : List (Nat × Nat × Loc × Option DWord)}

theorem mem_heldLanes {p : Nat × Nat} (h : p ∈ heldLanes case_ oks) : ∃ o ∈ oks, o.1 = p.1 := by
  obtain ⟨o, ho, hp⟩ := List.mem_filterMap.1 h
  obtain ⟨v, -, rfl⟩ := Option.map_eq_some_iff.1 hp
  exact ⟨o, ho, rfl⟩

theorem heldLanes_nodup (h : (oks.map (·.1)).Nodup) : ((heldLanes case_ oks).map (·.1)).Nodup := by
  refine List.Sublist.nodup ?_ h
  clear h
  induction oks with
  | nil => exact List.Sublist.slnil
  | cons o os ih =>
    rw [heldLanes, List.filterMap_cons]
    cases (case_ o).value with
    | none => exact ih.cons o.1
    | some v => exact ih.cons_cons o.1
end

/-- The warp with the values that an `ald` of the lanes `oks` brings at once, and their regions. -/
def aldWarp (case_ : Nat × Nat × Loc × Option DWord → AldCase) (new : Nat × Nat × Loc × Option DWord → Region) (w : Bool) (d : Nat)
    (oks : List (Nat × Nat × Loc × Option DWord)) (x : Warp) : Warp :=
  { putLanes x w d (heldLanes case_ oks) with regions := oks.foldl (fun r o => mIns r o.1 (new o)) x.regions }

theorem aldWarp_eq (case_ : Nat × Nat × Loc × Option DWord → AldCase) (new : Nat × Nat × Loc × Option DWord → Region) (w : Bool)
    (d : Nat) (oks : List (Nat × Nat × Loc × Option DWord)) (x : Warp) : aldWarp case_ new w d oks x =
      { x with v := (aldWarp case_ new w d oks x).v, regions := (aldWarp case_ new w d oks x).regions } := by
  unfold aldWarp; rw [putLanes_eq]

section
variable {f : MFields} {s : State} {i : Iss}

/-- What an `ald` past its checks does before its strand goes on. -/
def aldHead (f : MFields) (s : State) (i : Iss) : Act :=
  let n := widthBytes f.width
  let oks := okLanes (aldFates s i f (guardMask i f.gp f.gn))
  let case_ (x : Nat × Nat × Loc × Option DWord) : AldCase := aldCase (laneRegion i.warp x.1) (keyOf x.2.2.1) n
  let new (x : Nat × Nat × Loc × Option DWord) : Region :=
    aldNote (laneRegion i.warp x.1) f.d.toNat n (keyOf x.2.2.1) x.2.1 (addrV f) s.nextId
  let fresh := oks.filter fun x => decide (case_ x = .fresh)
  andThen (fillFor i oks) <|
  andThen (shareFor i n fresh) <|
  andThen (updWarp i.w (aldWarp case_ new (decide (n = 8)) f.d.toNat oks)) <|
  andThen (if fresh.isEmpty then skip
    else issueOp i (opOf i f .ald (fresh.map fun o => ⟨o.1, o.2.2.1, n, f.d.toNat, 0, 0, false⟩)))
    (wrote i (aldUses f) (oks.foldl (fun m x => m ||| laneBit x.1) (0 : Mask)))

theorem exec_ald (hmay : MayRun s i (chkAll true (addrOk i f && vOk i f.d.toNat (widthRegs f.width))) (aldUses f) (guardMask i f.gp f.gn))
    (hreg : regionless i (guardMask i f.gp f.gn) = 0) (hstop : firstStop (aldFates s i f (guardMask i f.gp f.gn)) = none)
    (habs : absentLanesOf (aldFates s i f (guardMask i f.gp f.gn)) = [])
    (hok : ∀ x ∈ okLanes (aldFates s i f (guardMask i f.gp f.gn)), isHome x.2.2.1 = true ∧
      aldCase (laneRegion i.warp x.1) (keyOf x.2.2.1) (widthBytes f.width) ≠ .refuse ∧
      aldCase (laneRegion i.warp x.1) (keyOf x.2.2.1) (widthBytes f.width) ≠ .pending ∧
      (aldNote (laneRegion i.warp x.1) f.d.toNat (widthBytes f.width) (keyOf x.2.2.1) x.2.1 (addrV f) s.nextId).tags.length ≤ 8)
    (hfull : counterFull i.warp .ald = false) :
    exec (.ald f) s = .next (after (advance i 1) (after (aldHead f s i) s)) := by
  rw [← after_andThen]
  refine atIssue_act hmay.here ((gated_of_mayRun hmay _).trans ((if_neg (not_not_intro hreg)).trans ?_))
  rw [hstop, habs, hfull]
  simp only
  rw [if_neg, if_neg, if_neg]
  · simp only [aldHead, andThen_assoc, List.isEmpty_nil, if_true]
    refine congrArg (andThen _) (congrArg (andThen _) (congrArg (fun F => andThen (updWarp i.w F) _) (funext fun x => ?_)))
    rw [foldl_held _ _ fun x => aldCase (laneRegion i.warp x.1) (keyOf x.2.2.1) (widthBytes f.width)]
    · rfl
    · intro y o
      cases aldCase (laneRegion i.warp o.1) (keyOf o.2.2.1) (widthBytes f.width) <;> rfl
  · rw [Bool.and_false]; exact Bool.false_ne_true
  · simp only [List.any_eq_true, decide_eq_true_eq, not_exists, not_and]
    exact fun x hx => (hok x hx).2.2.1
  · simp only [Bool.not_eq_true', Bool.not_eq_false, List.isEmpty_iff, List.filter_eq_nil_iff]
    intro x hx
    obtain ⟨h1, h2, -, h4⟩ := hok x hx
    simp [h1, h2, h4]

/-- An access that counts on ld, issued unless there is nothing to issue. -/
theorem after_issueUnless {t : State} {x : Warp} (hx : mLook t.warps i.w = some x) {o : MemOp} (ho : o.kind = .ald) (b : Bool) :
    ∃ m k n, after (if b then skip else issueOp i o) t = { t with ops := m, nextId := n, warps := k } ∧
      mLook k i.w = some { x with ld := x.ld + (if b then 0 else 1) } ∧ (∀ v, v ≠ i.w → mLook k v = mLook t.warps v) ∧
      (∀ j, j ≠ t.nextId → mLook m j = mLook t.ops j) ∧
      (b = false → mLook m t.nextId = some { o with since := cycleOf t i.core }) := by
  cases b with
  | true => exact ⟨t.ops, t.warps, t.nextId, rfl, hx, fun _ _ => rfl, fun _ _ => rfl, fun h => Bool.noConfusion h⟩
  | false =>
    have hk : counted x o.kind = { x with ld := x.ld + 1 } := by rw [ho]; rfl
    refine ⟨_, _, _, after_issueOp hx o, ?_, fun v hv => mLook_mIns_ne _ _ hv, fun j hj => mLook_mIns_ne _ _ hj,
      fun _ => mLook_mIns_self ..⟩
    rw [mLook_mIns_self, hk]; rfl

/-- An `ald` is in flight where some lane found nothing; its warp stands as `y`. -/
theorem aldHead_spec (hi : issuer s = some i) :
    let n := widthBytes f.width
    let oks := okLanes (aldFates s i f (guardMask i f.gp f.gn))
    let case_ (x : Nat × Nat × Loc × Option DWord) : AldCase := aldCase (laneRegion i.warp x.1) (keyOf x.2.2.1) n
    let new (x : Nat × Nat × Loc × Option DWord) : Region :=
      aldNote (laneRegion i.warp x.1) f.d.toNat n (keyOf x.2.2.1) x.2.1 (addrV f) s.nextId
    let fresh := oks.filter fun x => decide (case_ x = .fresh)
    ∃ t y, after (aldHead f s i) s = t ∧ AccessFrame s t i y ∧ Unmoved i y ∧
      y = { aldWarp case_ new (decide (n = 8)) f.d.toNat oks i.warp with
        strands := y.strands, ld := i.warp.ld + (if fresh.isEmpty then 0 else 1) } ∧
      (fresh.isEmpty = false → mLook t.ops s.nextId =
        some { opOf i f .ald (fresh.map fun o => ⟨o.1, o.2.2.1, n, f.d.toNat, 0, 0, false⟩) with since := cycleOf s i.core }) := by
  intro n oks case_ new fresh
  obtain ⟨-, hw, hst, -⟩ := issuer_spec hi
  let x1 := aldWarp case_ new (decide (n = 8)) f.d.toNat oks i.warp
  have e1 : x1 = { i.warp with v := x1.v, regions := x1.regions } := aldWarp_eq ..
  have hfill : Filled s (after (shareFor i n fresh) (after (fillFor i oks) s)) :=
    chain_filled.trans (filled_fillFor i _ s) (filled_shareFor i _ _ _)
  have hhead : after (aldHead f s i) s = after (wrote i (aldUses f) (oks.foldl (fun m x => m ||| laneBit x.1) (0 : Mask)))
      (after (if fresh.isEmpty then skip
        else issueOp i (opOf i f .ald (fresh.map fun o => ⟨o.1, o.2.2.1, n, f.d.toNat, 0, 0, false⟩)))
        (after (updWarp i.w (aldWarp case_ new (decide (n = 8)) f.d.toNat oks))
          (after (shareFor i n fresh) (after (fillFor i oks) s)))) := by
    simp only [aldHead, after_andThen]; rfl
  rw [hhead]
  generalize after (shareFor i n fresh) (after (fillFor i oks) s) = t2 at hfill ⊢
  obtain ⟨e2, hcores⟩ := hfill
  have hcycle : cycleOf t2 i.core = cycleOf s i.core := by unfold cycleOf; rw [hcores, e2]
  rw [after_updWarp (by rw [e2]; exact hw)]
  obtain ⟨m, k, j, e3, hk, hothers, hops, hop⟩ := after_issueUnless (t := { t2 with warps := mIns t2.warps i.w x1 })
    (mLook_mIns_self t2.warps i.w x1) (o := opOf i f .ald (fresh.map fun o => ⟨o.1, o.2.2.1, n, f.d.toNat, 0, 0, false⟩)) rfl fresh.isEmpty
  rw [e3]
  let x2 : Warp := { x1 with ld := x1.ld + (if fresh.isEmpty then 0 else 1) }
  have hx2 : Unmoved i x2 := unmoved_of_strands hst (show x1.strands = _ by rw [e1])
  obtain ⟨y, hy, ey, hm⟩ := (WarpStep.refl (s := { t2 with ops := m, nextId := j, warps := k }) hk).wrote_unmoved hx2
    (aldUses f) (oks.foldl (fun m x => m ||| laneBit x.1) (0 : Mask))
  have hid : t2.nextId = s.nextId := by rw [e2]
  generalize after (wrote i (aldUses f) _) _ = t4 at hy ⊢
  have hops4 : t4.ops = m := by rw [hy.rest]
  have hld : x1.ld = i.warp.ld := by rw [e1]
  refine ⟨t4, y, rfl, ⟨by rw [hy.rest, e2], hy.self, fun v hv => (hy.warps v hv).trans ((hothers v hv).trans
    ((mLook_mIns_ne _ _ hv).trans (by rw [e2]))), fun q hq => ?_, fun c => ?_, fun e he => ?_⟩, hm, ?_, fun hf => ?_⟩
  · rw [hops4, hops q (by exact hid ▸ hq), e2]
  · rw [show coreOf t4 c = coreOf t2 c by rw [hy.rest]; rfl]; exact hcores c
  · have := hy.bad e he; rwa [e2] at this
  · rw [← hld]; exact ey
  · rw [hops4, ← hid, ← hcycle]; exact hop hf

theorem ald_completes (hmay : MayRun s i (chkAll true (addrOk i f && vOk i f.d.toNat (widthRegs f.width))) (aldUses f) (guardMask i f.gp f.gn))
    (hreg : regionless i (guardMask i f.gp f.gn) = 0) (hstop : firstStop (aldFates s i f (guardMask i f.gp f.gn)) = none)
    (habs : absentLanesOf (aldFates s i f (guardMask i f.gp f.gn)) = [])
    (hok : ∀ x ∈ okLanes (aldFates s i f (guardMask i f.gp f.gn)), isHome x.2.2.1 = true ∧
      aldCase (laneRegion i.warp x.1) (keyOf x.2.2.1) (widthBytes f.width) ≠ .refuse ∧
      aldCase (laneRegion i.warp x.1) (keyOf x.2.2.1) (widthBytes f.width) ≠ .pending ∧
      (aldNote (laneRegion i.warp x.1) f.d.toNat (widthBytes f.width) (keyOf x.2.2.1) x.2.1 (addrV f) s.nextId).tags.length ≤ 8)
    (hfull : counterFull i.warp .ald = false) :
    let n := widthBytes f.width
    let oks := okLanes (aldFates s i f (guardMask i f.gp f.gn))
    let case_ (x : Nat × Nat × Loc × Option DWord) : AldCase := aldCase (laneRegion i.warp x.1) (keyOf x.2.2.1) n
    let new (x : Nat × Nat × Loc × Option DWord) : Region :=
      aldNote (laneRegion i.warp x.1) f.d.toNat n (keyOf x.2.2.1) x.2.1 (addrV f) s.nextId
    let fresh := oks.filter fun x => decide (case_ x = .fresh)
    ∃ t x, exec (.ald f) s = .next t ∧ AccessFrame s t i x ∧ Past i 1 x ∧
      x = { i.warp with v := x.v, regions := x.regions, strands := x.strands, ld := i.warp.ld + (if fresh = [] then 0 else 1) } ∧
      (fresh ≠ [] → mLook t.ops s.nextId =
        some { opOf i f .ald (fresh.map fun o => ⟨o.1, o.2.2.1, n, f.d.toNat, 0, 0, false⟩) with since := cycleOf s i.core }) ∧
      (∀ y ∈ oks, mLook x.regions y.1 = some (new y) ∧
        ∀ v tg, case_ y = .held v tg → vVal x (decide (n = 8)) f.d.toNat y.1 = v % 2 ^ (32 * span (decide (n = 8)))) ∧
      ∀ r l, l < 32 → hasLane (guardMask i f.gp f.gn) l = false ∨ r ∉ regs f.d.toNat (decide (n = 8)) → vR x r l = vR i.warp r l := by
  intro n oks case_ new fresh
  obtain ⟨t, y, ht, hframe, hm, ey, hop⟩ := aldHead_spec (f := f) hmay.here
  have hrun := exec_ald hmay hreg hstop habs hok hfull
  obtain ⟨x, hx, ex, hpast⟩ := after_advance hframe.self hm 1
  rw [ht, hx] at hrun
  have hv : x.v = (aldWarp case_ new (decide (n = 8)) f.d.toNat oks i.warp).v := by rw [ex, ey]
  have hr : x.regions = (aldWarp case_ new (decide (n = 8)) f.d.toNat oks i.warp).regions := by rw [ex, ey]
  have hempty : (if fresh.isEmpty then 0 else 1) = if fresh = [] then 0 else 1 := by cases fresh <;> rfl
  have hlt (o : Nat × Nat) (ho : o ∈ heldLanes case_ oks) : o.1 < 32 := by
    obtain ⟨q, hq, e⟩ := mem_heldLanes ho
    exact e ▸ (mem_okLanes hq).1
  refine ⟨_, x, hrun, ⟨by rw [hframe.rest], mLook_mIns_self .., fun v hv => (mLook_mIns_ne _ _ hv).trans (hframe.warps v hv), hframe.ops,
    hframe.cores, hframe.bad⟩, hpast, ?_, fun hf => hop (Bool.eq_false_iff.2 fun h => hf (List.isEmpty_iff.1 h)),
    fun q hq => ⟨?_, fun v tg hc => ?_⟩, fun r l hl h => ?_⟩
  · refine ex.trans ?_
    rw [hv, hr, ← hempty, ey, aldWarp_eq]
  · rw [hr]; exact mLook_foldl_mIns_of_mem (fun o : Nat × Nat × Loc × Option DWord => o.1) new oks i.warp.regions okLanes_nodup hq
  · refine (vVal_of_vR fun r _ => vR_congr hv r q.1).trans ?_
    exact vVal_putLanes i.warp _ _ _ hlt (heldLanes_nodup okLanes_nodup) (o := (q.1, v))
      (List.mem_filterMap.2 ⟨q, hq, by rw [hc]; rfl⟩)
  · refine (vR_congr hv r l).trans (vR_putLanes_ne i.warp _ _ _ hl hlt (h.symm.imp_right fun hg o ho e => ?_))
    obtain ⟨q, hq, eq⟩ := mem_heldLanes ho
    have := (mem_okLanes hq).2
    rw [eq, e, hg] at this
    cases this

/-! ## `st.rgn` -/

/-- The warp with the regions in which the stores of the lanes `oks` are buffered. -/
def buffered (note : Nat × Nat × Loc × Option DWord → Option Region) (oks : List (Nat × Nat × Loc × Option DWord)) (x : Warp) : Warp :=
  { x with regions := oks.foldl (fun r o => mIns r o.1 ((note o).getD { fallback := 0 })) x.regions }

theorem stRgn_completes (hmay : MayRun s i (chkAll true (addrOk i f && vOk i f.d.toNat (widthRegs f.width))) (stRgnUses f) (guardMask i f.gp f.gn))
    (hform : stRgnForm f = true) (hreg : regionless i (guardMask i f.gp f.gn) = 0)
    (hstop : firstStop (stRgnFates s i f (guardMask i f.gp f.gn)) = none)
    (habs : absentLanesOf (stRgnFates s i f (guardMask i f.gp f.gn)) = []) :
    let note (x : Nat × Nat × Loc × Option DWord) : Option Region :=
      stRgnNote i x.1 f.d.toNat (widthBytes f.width) (keyOf x.2.2.1) x.2.1 (addrV f)
    (∀ x ∈ okLanes (stRgnFates s i f (guardMask i f.gp f.gn)), isHome x.2.2.1 = true ∧ (note x).isSome = true) →
    ∃ t x, exec (.stRgn f) s = .next t ∧ AccessFrame s t i x ∧ t.ops = s.ops ∧ Past i 1 x ∧
      x = { i.warp with regions := x.regions, strands := x.strands } ∧
      ∀ y ∈ okLanes (stRgnFates s i f (guardMask i f.gp f.gn)), mLook x.regions y.1 = note y := by
  intro note hok
  obtain ⟨-, hw, hst, -⟩ := issuer_spec hmay.here
  let oks := okLanes (stRgnFates s i f (guardMask i f.gp f.gn))
  have hrun : exec (.stRgn f) s = .next (after (andThen (fillFor i oks) (andThen (updWarp i.w (buffered note oks)) (advance i 1))) s) := by
    refine atIssue_act hmay.here ?_
    have hform' := hform
    simp only [stRgnForm, Bool.and_eq_true, decide_eq_true_eq] at hform'
    obtain ⟨-, hrd⟩ := hform'
    rw [show routeOk i f.rd = true by rw [hrd]; rfl]
    refine (gated_of_mayRun hmay _).trans ?_
    rw [hform, Bool.not_true, Bool.false_and, if_neg Bool.false_ne_true, if_neg (not_not_intro hreg), hstop, habs]
    simp only
    rw [if_neg]
    · refine congrArg (andThen _) (congrArg (fun F => andThen (updWarp i.w F) _) (funext fun x => ?_))
      refine congrArg (fun r => ({ x with regions := r } : Warp)) (foldl_congr_mem _ _ fun r o ho => ?_)
      obtain ⟨q, hq⟩ := Option.isSome_iff_exists.1 (hok o ho).2
      rw [show stRgnNote i o.1 _ _ _ _ _ = some q from hq, hq]; rfl
    · simp only [Bool.not_eq_true', Bool.not_eq_false, List.isEmpty_iff, List.filter_eq_nil_iff]
      intro x hx
      obtain ⟨h1, h2⟩ := hok x hx
      obtain ⟨q, hq⟩ := Option.isSome_iff_exists.1 h2
      rw [h1, show stRgnNote i x.1 _ _ _ _ _ = some q from hq]
      exact Bool.false_ne_true
  have hfill := filled_fillFor i oks s
  rw [after_andThen, after_andThen] at hrun
  generalize after (fillFor i oks) s = t2 at hfill hrun
  obtain ⟨e2, hcores⟩ := hfill
  rw [after_updWarp (by rw [e2]; exact hw)] at hrun
  obtain ⟨x, hx, ex, hpast⟩ := after_advance (t := { t2 with warps := mIns t2.warps i.w (buffered note oks i.warp) })
    (mLook_mIns_self ..) (unmoved_of_strands hst rfl) 1
  rw [hx] at hrun
  have hr : x.regions = (buffered note oks i.warp).regions := by rw [ex]
  refine ⟨_, x, hrun, ⟨by rw [e2], mLook_mIns_self .., fun v hv => ?_, fun k _ => by rw [e2], hcores, fun y hy => by rw [e2] at hy; exact hy⟩,
    by rw [e2], hpast, ex.trans (by rw [hr]; rfl), fun y hy => ?_⟩
  · exact (mLook_mIns_ne _ _ hv).trans ((mLook_mIns_ne _ _ hv).trans (by rw [e2]))
  · obtain ⟨q, hq⟩ := Option.isSome_iff_exists.1 (hok y hy).2
    rw [hr, hq]
    refine (mLook_foldl_mIns_of_mem (fun o : Nat × Nat × Loc × Option DWord => o.1) (fun o => (note o).getD { fallback := 0 }) oks
      i.warp.regions okLanes_nodup hy).trans ?_
    rw [hq]; rfl
end

/-- Settles O35. -/
theorem regionInstructionsComplete : Obligations.RegionInstructionsComplete :=
  ⟨abeg_opens, fun _ _ _ hmay hreg hstop habs hok hfull => ald_completes hmay hreg hstop habs hok hfull,
    fun _ _ _ hmay hform hreg hstop habs hok => stRgn_completes hmay hform hreg hstop habs hok⟩

end Sys2Proof.Machine


/-! # A lane's commit (R211, R304, R305) -/

namespace Sys2Proof.Machine

/-! ## The stores of a commit -/

theorem only_commitWrites (g : Region) (now : List Nat) (s : State) : Only [.mem, .bad] s (after (commitWrites g now) s) :=
  only_of_each (each_forAll fun b => by
    intro s e he
    obtain rfl | he := List.mem_cons.1 he
    · simp [Effect.table]
    · split at he
      · cases he
      · cases List.mem_singleton.1 he; simp [Effect.table]) s

theorem mem_writeLoc (k n v : Nat) (s : State) : (after (writeLoc (.glob k) n v) s).mem = putList s.mem k (bytesOfNat n v) := by
  rw [writeLoc, after]
  simp only [applyAll_cons]
  split <;> rfl

/-- Outside the places of its stores a commit leaves memory as it was. -/
theorem mem_commitWrites (g : Region) (now : List Nat) (s : State) {a : Nat} (h : ∀ b ∈ g.stores, a < b.key ∨ b.key + b.n ≤ a) :
    mGet 0 (after (commitWrites g now) s).mem a = mGet 0 s.mem a := by
  unfold commitWrites
  generalize g.stores = bs at h
  induction bs generalizing s with
  | nil => rfl
  | cons b bs ih =>
    rw [after_forAll_cons, ih _ fun c hc => h c (List.mem_cons_of_mem _ hc), mem_writeLoc, putList_bytesOfNat]
    exact mGet_putBytes_outside _ _ _ _ _ (h b List.mem_cons_self)

/-! ## How a commit is reported -/

section
variable {s u : State} {i : Iss} {y : Warp}

/-- The strand with what came of lane `l`'s commit noted. -/
def reported (left : Mask) (l : Nat) (won again ab : Mask) (t : Strand) : Strand :=
  { t with wait := .commit (left &&& ~~~(laneBit l)) won again ab, idleAt := 0 }

def report (i : Iss) (left : Mask) (l : Nat) (won again ab : Mask) : Act :=
  andThen (updStrand i.w i.k (reported left l won again ab)) bump

theorem after_report (hu : mLook u.warps i.w = some y) (hst : mLook y.strands i.k = some i.st) (left : Mask) (l : Nat)
    (won again ab : Mask) :
    ∃ x, after (report i left l won again ab) u = { u with warps := mIns u.warps i.w x, epoch := u.epoch + 1 } ∧
      x = { y with strands := x.strands } ∧ mLook x.strands i.k = some (reported left l won again ab i.st) :=
  ⟨_, by rw [report, after_andThen, after_updStrand hu, after_bump], onStrand_eq .., onStrand_here hst⟩

/-- Lane `l` of warp `w` has no region left. -/
def closeRegion (w l : Nat) : Act := updWarp w fun x => { x with regions := mDel x.regions l }

/-- The registers that carry changed tags, rewritten in lane `l`. -/
def retagged (now : List Nat) (l : Nat) (ts : List RTag) (x : Warp) : Warp :=
  ts.foldl (fun y c => setVal y (decide (c.n = 8)) c.reg l ((now.getD c.slot 0 + c.ofs) % 2 ^ (8 * c.n))) x

theorem retagged_eq (now : List Nat) (l : Nat) (ts : List RTag) (x : Warp) :
    retagged now l ts x = { x with v := (retagged now l ts x).v } := by
  induction ts generalizing x with
  | nil => rfl
  | cons c ts ih =>
    rw [retagged, List.foldl_cons, ← retagged, ih, setVal_eq]

theorem after_rewriteTags (hu : mLook u.warps i.w = some y) (l : Nat) (g : Region) (now : List Nat) :
    ∃ b, after (rewriteTags i.w l g now) u =
      { u with warps := mIns u.warps i.w (retagged now l (changedTags y g now) y), bad := b } := by
  rw [rewriteTags, after_look, hu]
  simp only [after_andThen, after_updWarp hu]
  obtain ⟨b, hb, -⟩ := after_clearBad i.w ((changedTags y g now).flatMap fun t : RTag => regs t.reg (decide (t.n = 8))) (laneBit l)
    { u with warps := mIns u.warps i.w (retagged now l (changedTags y g now) y) }
  exact ⟨b, hb⟩

/-- No dependence and no constraint stands on a changed slot. -/
def commitKeeps (g : Region) (now : List Nat) : Bool := (List.range g.slots.length).all fun k => !slotChanged g now k ||
  (!g.dep.getLsbD k && g.cons.all fun c => decide (c.slot ≠ k) || conHolds c (now.getD k 0))

/-- A commit that may take place now, by what has become of its slots. -/
theorem exec_regionCommit {l : Nat} {left won again ab : Mask} (hat : strandAt s i.w i.k = some i)
    (hwait : i.st.wait = .commit left won again ab) (hleft : hasLane left l = true) (hq : quiet s i.w (laneBit l) = true)
    (hfirst : ∀ k < l, hasLane left k = true → shareWord (laneRegion i.warp k) (laneRegion i.warp l) = false) :
    let g := laneRegion i.warp l
    exec (.regionCommit i.w i.k l) s = .next (after
      (if commitBarred s i.core i.cid i.ctx g then report i left l won again (ab ||| laneBit l)
      else if ((List.range g.slots.length).filter (slotChanged g (slotNow s g))).isEmpty then
        andThen (commitWrites g (slotNow s g)) (andThen (closeRegion i.w l) (report i left l (won ||| laneBit l) again ab))
      else if commitKeeps g (slotNow s g) then
        andThen (commitWrites g (slotNow s g)) (andThen (rewriteTags i.w l g (slotNow s g))
          (andThen (closeRegion i.w l) (report i left l won (again ||| laneBit l) ab)))
      else report i left l won again (ab ||| laneBit l)) s) := by
  intro g
  have hnone : ((lanesIn left).any fun k => decide (k < l) && shareWord (laneRegion i.warp k) (laneRegion i.warp l)) = false := by
    refine List.any_eq_false.2 fun k hk h => ?_
    simp only [Bool.and_eq_true, decide_eq_true_eq] at h
    rw [hfirst k h.1 (mem_lanesIn.1 hk).2] at h
    exact Bool.false_ne_true h.2
  change execRegionCommit i.w i.k l s = _
  rw [execRegionCommit, finish_eq, hat]
  simp only [hwait, hleft, hq, hnone, Bool.not_true, Bool.or_self, Bool.false_eq_true, if_false, List.all_filter]
  rfl
end

/-- Settles O36. -/
theorem regionsCommit : Obligations.RegionsCommit := by
  unfold Obligations.RegionsCommit
  intro s i l left won again ab hat hwait hleft hq hfirst g now barred written keeps
  obtain ⟨-, -, hw, hst, -⟩ := issAt_spec (issAt_of_strandAt hat)
  have hsame : (List.range g.slots.length).all (fun k => !slotChanged g now k) = true →
      ((List.range g.slots.length).filter (slotChanged g now)).isEmpty = true := fun h => by
    rw [List.isEmpty_iff, List.filter_eq_nil_iff]
    exact fun k hk hc => by have := List.all_eq_true.1 h k hk; rw [hc] at this; cases this
  have hdiff : (List.range g.slots.length).any (slotChanged g now) = true →
      ((List.range g.slots.length).filter (slotChanged g now)).isEmpty = false := fun h => by
    obtain ⟨k, hk, hc⟩ := List.any_eq_true.1 h
    exact Bool.eq_false_iff.2 fun he => List.filter_eq_nil_iff.1 (List.isEmpty_iff.1 he) k hk hc
  have hkeeps : ((List.range g.slots.length).filter (slotChanged g now)).isEmpty = true → keeps = true := fun h =>
    List.all_eq_true.2 fun k hk => by
      rw [Bool.eq_false_iff.2 (List.filter_eq_nil_iff.1 (List.isEmpty_iff.1 h) k hk)]; rfl
  have hwritten : Only [.mem, .bad] s written := only_commitWrites g now s
  have hwritten_eq : written = { s with mem := written.mem, bad := written.bad } := by
    have e := hwritten.eq
    simp at e
    rw [e]
  have hwrote : mLook written.warps i.w = some i.warp := by rw [hwritten.warps (by decide)]; exact hw
  have hcases : exec (.regionCommit i.w i.k l) s = .next (after (report i left l won again (ab ||| laneBit l)) s) ∧
        (barred = true ∨ keeps = false) ∨
      exec (.regionCommit i.w i.k l) s = .next (after (andThen (closeRegion i.w l) (report i left l (won ||| laneBit l) again ab))
        written) ∧ barred = false ∧ ((List.range g.slots.length).filter (slotChanged g now)).isEmpty = true ∨
      exec (.regionCommit i.w i.k l) s = .next (after (andThen (rewriteTags i.w l g now)
          (andThen (closeRegion i.w l) (report i left l won (again ||| laneBit l) ab))) written) ∧ barred = false ∧
        ((List.range g.slots.length).filter (slotChanged g now)).isEmpty = false ∧ keeps = true := by
    have hexec := exec_regionCommit hat hwait hleft hq hfirst
    change exec (.regionCommit i.w i.k l) s = .next (after (if barred then _ else _) s) at hexec
    by_cases hb : barred = true
    · exact .inl ⟨hexec.trans (by rw [if_pos hb]), .inl hb⟩
    rw [if_neg hb] at hexec
    by_cases hempty : ((List.range g.slots.length).filter (slotChanged g now)).isEmpty = true
    · exact .inr (.inl ⟨hexec.trans (by rw [if_pos hempty, after_andThen]), Bool.eq_false_iff.2 hb, hempty⟩)
    rw [if_neg hempty] at hexec
    by_cases hk : keeps = true
    · exact .inr (.inr ⟨hexec.trans (by rw [if_pos (show commitKeeps g now = true from hk), after_andThen]), Bool.eq_false_iff.2 hb, Bool.eq_false_iff.2 hempty, hk⟩)
    · exact .inl ⟨hexec.trans (by rw [if_neg (show ¬ commitKeeps g now = true from hk)]), .inr (Bool.eq_false_iff.2 hk)⟩
  rcases hcases with ⟨hexec, hwhy⟩ | ⟨hexec, hb, hempty⟩ | ⟨hexec, hb, hempty, hk⟩
  · obtain ⟨x, hx, ex, hst'⟩ := after_report hw hst left l won again (ab ||| laneBit l)
    rw [hx] at hexec
    refine ⟨_, x, hexec, rfl, fun v hv => mLook_mIns_ne _ _ hv, mLook_mIns_self .., by rw [ex], fun _ _ => rfl, fun hb hall => ?_,
      fun hb _ hk => ?_, fun _ => ⟨rfl, by rw [ex], by rw [ex], hst'⟩⟩
    · rw [hb, hkeeps (hsame hall)] at hwhy
      rcases hwhy with h | h <;> cases h
    · rw [hb, hk] at hwhy
      rcases hwhy with h | h <;> cases h
  · rw [after_andThen, closeRegion, after_updWarp hwrote] at hexec
    obtain ⟨x, hx, ex, hst'⟩ := after_report (u := { written with
      warps := mIns written.warps i.w { i.warp with regions := mDel i.warp.regions l } }) (mLook_mIns_self ..) hst
      left l (won ||| laneBit l) again ab
    rw [hx] at hexec
    refine ⟨_, x, hexec, by rw [hwritten_eq], fun v hv => ?_, mLook_mIns_self .., by rw [ex], fun a ha => mem_commitWrites g now s ha,
      fun _ _ => ⟨rfl, by rw [ex], hst'⟩, fun _ hany _ => ?_, fun hwhy => ?_⟩
    · exact (mLook_mIns_ne _ _ hv).trans ((mLook_mIns_ne _ _ hv).trans (by rw [hwritten.warps (by decide)]))
    · rw [hdiff hany] at hempty; cases hempty
    · rw [hb, hkeeps hempty] at hwhy
      rcases hwhy with h | h <;> cases h
  · rw [after_andThen] at hexec
    obtain ⟨b, hr⟩ := after_rewriteTags hwrote l g now
    rw [hr, after_andThen, closeRegion, after_updWarp (by exact mLook_mIns_self ..)] at hexec
    let y := retagged now l (changedTags i.warp g now) i.warp
    obtain ⟨x, hx, ex, hst'⟩ := after_report (u := { written with
        bad := b, warps := mIns (mIns written.warps i.w y) i.w { y with regions := mDel y.regions l } }) (mLook_mIns_self ..)
      (show mLook y.strands i.k = some i.st by rw [show y = _ from retagged_eq ..]; exact hst) left l won (again ||| laneBit l) ab
    rw [hx] at hexec
    refine ⟨_, x, hexec, by rw [hwritten_eq], fun v hv => ?_, mLook_mIns_self .., ?_, fun a ha => mem_commitWrites g now s ha,
      fun _ hall => ?_, fun _ _ _ => ⟨rfl, by rw [ex]; rfl, hst'⟩, fun hwhy => ?_⟩
    · exact (mLook_mIns_ne _ _ hv).trans ((mLook_mIns_ne _ _ hv).trans ((mLook_mIns_ne _ _ hv).trans
        (by rw [hwritten.warps (by decide)])))
    · have ey : y = { i.warp with v := y.v } := retagged_eq ..
      have hv : x.v = y.v := by rw [ex]
      have hr : x.regions = mDel y.regions l := by rw [ex]
      refine ex.trans ?_
      rw [hv, hr, ey]
    · rw [hsame hall] at hempty; cases hempty
    · rw [hb, hk] at hwhy
      rcases hwhy with h | h <;> cases h

end Sys2Proof.Machine


/-! # `aend` and `aabort` (R304, R306, R320, R321) -/

namespace Sys2Proof.Machine

/-! ## `aend` -/

section
variable {f : MFields} {s : State} {i : Iss}

theorem after_abortLanes_none {t : State} {x : Warp} (h : mLook t.warps i.w = some x) :
    after (abortLanes i 0) t = after (advance i 1) t := by
  rw [abortLanes, after_look, h]
  simp only [if_true]

/-- The commits of the strand have all reported and none aborted. -/
theorem finishAend_ends (hi : issuer s = some i) (won again g : Mask) :
    ∃ x, RegisterFrame s (after (finishAend i f (aendUses f) g won again 0) s) i.w i.warp.block x ∧ Past i 1 x ∧
      x = { i.warp with p := x.p, s := x.s, strands := x.strands } ∧
      PredWrite i g f.d.toNat (fun l => hasLane (won ||| again) l) x ∧
      x.s = (if f.ak && decide (won ||| again ≠ 0) then setS i.warp f.e.toNat (BitVec.ofNat 32 (laneCount again)) else i.warp).s := by
  obtain ⟨-, hw, -⟩ := issuer_spec hi
  have hF := foldl_setP_eq (lanesIn g) f.d.toNat (fun l => hasLane (won ||| again) l) i.warp
  let F (x : Warp) : Warp := (lanesIn g).foldl (fun y l => setP y f.d.toNat l (hasLane (won ||| again) l)) x
  have h1 := (RegisterFrame.refl (b := i.warp.block) hw).updWarp F
  obtain ⟨y, h2, ey, hm⟩ := h1.noteWrites (unmoved_issuer hi (by rw [show F i.warp = _ from hF])) (aendUses f) g
  have h3 := h2.clearBad i.w (if g = 0 then [] else (aendUses f).vw) g
  have hscalar : ∃ z, RegisterFrame s (after (if f.ak && decide (won ||| again ||| 0 ≠ 0) then putScalar i false f.e.toNat (laneCount again) else skip)
      (after (wrote i (aendUses f) g) (after (updWarp i.w F) s))) i.w i.warp.block z ∧ Unmoved i z ∧
      z = { y with s := z.s } ∧ z.s = (if f.ak && decide (won ||| again ≠ 0) then
        setS i.warp f.e.toNat (BitVec.ofNat 32 (laneCount again)) else i.warp).s := by
    have hs : y.s = i.warp.s := by rw [ey, show F i.warp = _ from hF]
    rw [show won ||| again ||| (0 : Mask) = won ||| again from BitVec.or_zero, wrote, after_andThen]
    split
    · rw [putScalar, after_andThen]
      refine ⟨_, (h3.updWarp fun x => setSVal x false f.e.toNat (laneCount again)).clearBadS i.w (regs f.e.toNat false), ?_,
        setSVal_eq .., ?_⟩
      · rw [setSVal_eq]; exact ⟨hm.here, hm.others⟩
      · simp only [setSVal, setS, hs]; rfl
    · exact ⟨y, h3, hm, rfl, hs⟩
  obtain ⟨z, h4, hmz, ez, hs⟩ := hscalar
  obtain ⟨x, h5, ex, hpast⟩ := h4.advance hmz 1
  have hfin : after (finishAend i f (aendUses f) g won again 0) s = after (advance i 1)
      (after (if f.ak && decide (won ||| again ||| 0 ≠ 0) then putScalar i false f.e.toNat (laneCount again) else skip)
        (after (wrote i (aendUses f) g) (after (updWarp i.w F) s))) := by
    rw [finishAend, after_andThen, after_andThen, after_andThen]
    exact after_abortLanes_none h4.self
  rw [hfin]
  have hp : x.p = (F i.warp).p := by rw [ex, ez, ey]
  refine ⟨x, h5, hpast, ?_, predWrite_foldl hp, by rw [ex]; exact hs⟩
  refine ex.trans ?_
  rw [hp, show x.s = z.s by rw [ex], ez, ey, show F i.warp = _ from hF]

end

/-! ## Lanes that abort -/

theorem hasLane_foldr (ls : List Nat) (hls : ∀ l ∈ ls, l < 32) (j : Nat) :
    hasLane (ls.foldr (fun l m => m ||| laneBit l) 0) j = decide (j ∈ ls) := by
  induction ls with
  | nil => simp
  | cons l ls ih =>
    rw [List.foldr_cons, hasLane_or, ih fun k hk => hls k (List.mem_cons_of_mem _ hk), hasLane_laneBit (hls l List.mem_cons_self),
      Bool.eq_iff_iff]
    simp [or_comm]

theorem foldr_lanesIn (m : Mask) : (lanesIn m).foldr (fun l m => m ||| laneBit l) 0 = m := by
  refine BitVec.eq_of_getLsbD_eq fun j hj => ?_
  refine (hasLane_foldr (lanesIn m) (fun l hl => (mem_lanesIn.1 hl).1) j).trans ?_
  rw [Bool.eq_iff_iff, decide_eq_true_eq, mem_lanesIn]
  exact ⟨fun h => h.2, fun h => ⟨hj, h⟩⟩

/-- Lanes of one fallback form one group. -/
theorem byFallback_single {x : Warp} {pc : DWord} (l : Nat) (ls : List Nat) (h : ∀ k ∈ l :: ls, (laneRegion x k).fallback = pc) :
    byFallback x (l :: ls) = [(pc, (l :: ls).foldr (fun l m => m ||| laneBit l) 0)] := by
  induction ls generalizing l with
  | nil =>
    have hl := h l List.mem_cons_self
    simp [byFallback, hl]
  | cons k ls ih =>
    rw [byFallback, ih k fun j hj => h j (List.mem_cons_of_mem _ hj)]
    simp [h l List.mem_cons_self]

theorem byFallback_lanes {x : Warp} {pc : DWord} {ab : Mask} (hab : ab ≠ 0)
    (h : ∀ l, hasLane ab l = true → (laneRegion x l).fallback = pc) : byFallback x (lanesIn ab) = [(pc, ab)] := by
  have hsum := foldr_lanesIn ab
  cases hl : lanesIn ab with
  | nil => rw [hl] at hsum; exact absurd hsum.symm hab
  | cons l ls =>
    rw [hl] at hsum
    rw [byFallback_single l ls fun k hk => h k (mem_lanesIn.1 (hl ▸ hk)).2, hsum]

theorem mLook_filter_key {α : Type} (m : Map α) (c : Nat → Bool) (k : Nat) :
    mLook (m.filter fun e => c e.1) k = if c k then mLook m k else none := by
  induction m with
  | nil => simp [mLook]
  | cons e m ih =>
    obtain ⟨j, a⟩ := e
    by_cases hj : c j = true
    · rw [List.filter_cons_of_pos (by exact hj), mLook, ih, mLook]
      by_cases hk : k = j
      · rw [if_pos hk, if_pos hk, hk, if_pos hj]
      · rw [if_neg hk, if_neg hk]
    · rw [List.filter_cons_of_neg (by exact hj), ih, mLook]
      by_cases hk : k = j
      · rw [hk, if_neg hj, if_neg hj]
      · rw [if_neg hk]

/-- The warp with the regions of some lanes gone. -/
def dropRegions (ab : Mask) (x : Warp) : Warp := { x with regions := x.regions.filter fun e => !hasLane ab e.1 }

theorem mLook_dropRegions (ab : Mask) (x : Warp) (l : Nat) :
    mLook (dropRegions ab x).regions l = if hasLane ab l then none else mLook x.regions l := by
  refine (mLook_filter_key x.regions (fun l => !hasLane ab l) l).trans ?_
  cases hasLane ab l <;> rfl

/-! ## Free entries -/

/-- What an update of one entry leaves of a property of the entries. -/
theorem exists_mem_mIns {α : Type} {m : Map α} {k : Nat} {a b : α} (h : mLook m k = some b) {Q : Nat × α → Prop}
    (hQ : Q (k, a) ↔ Q (k, b)) : (∃ e ∈ mIns m k a, Q e) ↔ ∃ e ∈ m, Q e := by
  induction m with
  | nil => cases h
  | cons e m ih =>
    obtain ⟨j, c⟩ := e
    rw [mLook] at h
    rw [mIns]
    split at h
    · next hj =>
      cases h
      subst hj
      rw [if_pos rfl]
      simp only [List.mem_cons, exists_eq_or_imp, hQ]
    · next hj =>
      rw [if_neg hj]
      split
      · have hb : Q (k, b) → ∃ e ∈ m, Q e := fun hq => ⟨_, mem_of_mLook h, hq⟩
        simp only [List.mem_cons, exists_eq_or_imp, hQ]
        exact ⟨fun hq => hq.elim (fun hq => .inr (hb hq)) id, .inr⟩
      · simp only [List.mem_cons, exists_eq_or_imp, ih h]

theorem mem_usedEntries {s : State} {core sub k : Nat} : k ∈ usedEntries s core sub ↔
    ∃ e ∈ s.warps, (e.2.core = core ∧ e.2.sub = sub ∧ e.2.place = .resident) ∧ k ∈ e.2.strands.map (·.1) := by
  rw [usedEntries, List.mem_flatMap]
  refine exists_congr fun e => and_congr_right fun _ => ?_
  by_cases h : e.2.core = core ∧ e.2.sub = sub ∧ e.2.place = .resident
  · rw [if_pos h]; exact ⟨fun hk => ⟨h, hk⟩, fun hk => hk.2⟩
  · rw [if_neg h]; exact ⟨fun hk => (by cases hk), fun hk => absurd hk.1 h⟩

/-- A warp that keeps its place and its entries takes and gives none. -/
theorem freeEntries_congr {s t : State} {w : Nat} {x y : Warp} (hx : mLook s.warps w = some x) (ht : t.warps = mIns s.warps w y)
    (hy : y = { x with strands := y.strands, regions := y.regions }) (hk : ∀ k, k ∈ y.strands.map (·.1) ↔ k ∈ x.strands.map (·.1)) (core sub : Nat) :
    freeEntries t core sub = freeEntries s core sub := by
  refine List.filter_congr fun k _ => ?_
  rw [Bool.not_inj_iff, Bool.eq_iff_iff, List.contains_iff_mem, List.contains_iff_mem, mem_usedEntries, mem_usedEntries, ht]
  refine exists_mem_mIns (Q := fun e => (e.2.core = core ∧ e.2.sub = sub ∧ e.2.place = .resident) ∧ k ∈ e.2.strands.map (·.1)) hx ?_
  rw [hk]
  rw [hy]

theorem mem_keys_mIns {α : Type} {m : Map α} {k : Nat} {a b : α} (h : mLook m k = some b) (j : Nat) :
    j ∈ (mIns m k a).map (·.1) ↔ j ∈ m.map (·.1) := by
  rw [List.mem_map, List.mem_map]
  exact exists_mem_mIns (Q := fun e => e.1 = j) h Iff.rfl

theorem length_mIns {α : Type} (m : Map α) (k : Nat) (a b : α) : (mIns m k a).length = (mIns m k b).length := by
  induction m with
  | nil => rfl
  | cons e m ih =>
    simp only [mIns]
    split
    · rfl
    · split
      · rfl
      · rw [List.length_cons, List.length_cons, ih]

/-- The warp that holds the strand which the aborting lanes form, and the warp with it in entry `k`. -/
def abortHeld (i : Iss) (ab : Mask) (pc : DWord) (tick : Nat) (y : Warp) : Warp :=
  { y with nextAge := y.nextAge + 1, heldStrands := y.heldStrands ++ [{ abortStrand i.st ab pc y.nextAge with heldAt := tick }] }
def abortSeated (i : Iss) (ab : Mask) (pc : DWord) (k : Nat) (y : Warp) : Warp :=
  { y with nextAge := y.nextAge + 1, strands := mIns y.strands k (abortStrand i.st ab pc y.nextAge) }

/-- The strand that the aborting lanes form takes a free entry of its sub-core, or is held. -/
theorem after_seatAborted {i : Iss} {u : State} {y : Warp} (hu : mLook u.warps i.w = some y) (ab : Mask) (pc : DWord) :
    ∃ z, after (seatAborted i ab pc) u = { u with warps := mIns u.warps i.w z } ∧
      z = { y with strands := z.strands, heldStrands := z.heldStrands, nextAge := y.nextAge + 1 } ∧
      (freeEntries u i.core i.warp.sub = [] ∨ y.heldStrands ≠ [] ∨ Config.strandsPerWarp ≤ y.strands.length →
        z.heldStrands = y.heldStrands ++ [{ abortStrand i.st ab pc y.nextAge with heldAt := u.tick }] ∧ z.strands = y.strands) ∧
      (∀ k, pick (freeEntries u i.core i.warp.sub) (choice u 1) = some k → y.heldStrands = [] → y.strands.length < Config.strandsPerWarp →
        z.heldStrands = [] ∧ z.strands = mIns y.strands k (abortStrand i.st ab pc y.nextAge)) ∧
      (z.strands = y.strands ∨ ∃ k ∈ freeEntries u i.core i.warp.sub, z.strands = mIns y.strands k (abortStrand i.st ab pc y.nextAge)) := by
  rw [seatAborted, after_look, after_updWarp hu]
  cases hp : pick (freeEntries u i.core i.warp.sub) (choice u 1) with
  | none => exact ⟨abortHeld i ab pc u.tick y, rfl, rfl, fun _ => ⟨rfl, rfl⟩, fun k hk => (by cases hk), .inl rfl⟩
  | some k =>
    by_cases hroom : (y.heldStrands.isEmpty && decide (y.strands.length < Config.strandsPerWarp)) = true
    · refine ⟨abortSeated i ab pc k y, congrArg (fun z => { u with warps := mIns u.warps i.w z }) (if_pos hroom), rfl,
        fun hfull => ?_, fun j hj hheld _ => ?_, .inr ⟨k, mem_of_pick hp, rfl⟩⟩
      · simp only [Bool.and_eq_true, List.isEmpty_iff, decide_eq_true_eq] at hroom
        rcases hfull with h | h | h
        · rw [h] at hp; cases hp
        · exact absurd hroom.1 h
        · omega
      · cases hj
        exact ⟨hheld, rfl⟩
    · refine ⟨abortHeld i ab pc u.tick y, congrArg (fun z => { u with warps := mIns u.warps i.w z }) (if_neg hroom), rfl,
        fun _ => ⟨rfl, rfl⟩, fun j hj hheld hlen => ?_, .inl rfl⟩
      exact absurd (by rw [hheld]; simpa using hlen) hroom

section
variable {s : State} {i : Iss} {ab : Mask} {pc : DWord} (hw : mLook s.warps i.w = some i.warp) (hab : ab ≠ 0)
  (hpc : ∀ l, hasLane ab l = true → (laneRegion i.warp l).fallback = pc)
include hw hab hpc

/-- Every lane of the strand aborts. -/
theorem after_abortLanes_all (hall : i.st.members &&& ~~~ab = 0) : after (abortLanes i ab) s = after (jump i pc)
    { s with warps := mIns s.warps i.w (onStrand i.k (fun t => { t with members := ab }) (dropRegions ab i.warp)) } := by
  have hdrop : after (updWarp i.w fun y => { y with regions := y.regions.filter fun e => !hasLane ab e.1 }) s =
      { s with warps := mIns s.warps i.w (dropRegions ab i.warp) } := after_updWarp hw
  rw [abortLanes, after_look, hw]
  simp only [if_neg hab, if_pos hall, byFallback_lanes hab hpc, after_andThen, after_forAll_nil, hdrop]
  rw [after_updStrand (by exact mLook_mIns_self ..), mIns_mIns]

/-- Some lanes abort and leave the strand. -/
theorem after_abortLanes_some (hsome : i.st.members &&& ~~~ab ≠ 0) : after (abortLanes i ab) s = after (advance i 1)
    (after (seatAborted i ab pc) { s with
      warps := mIns s.warps i.w (onStrand i.k (fun t => { t with members := t.members &&& ~~~ab }) (dropRegions ab i.warp)) }) := by
  have hdrop : after (updWarp i.w fun y => { y with regions := y.regions.filter fun e => !hasLane ab e.1 }) s =
      { s with warps := mIns s.warps i.w (dropRegions ab i.warp) } := after_updWarp hw
  rw [abortLanes, after_look, hw]
  simp only [if_neg hab, if_neg hsome, byFallback_lanes hab hpc, after_andThen, after_forAll_cons, after_forAll_nil, hdrop]
  rw [after_updStrand (by exact mLook_mIns_self ..), mIns_mIns]
end

theorem onStrand_onStrand_eq (k : Nat) (f g : Strand → Strand) (x : Warp) : onStrand k f (onStrand k g x) =
    { x with strands := (onStrand k f (onStrand k g x)).strands } := (onStrand_eq k f _).trans (by rw [onStrand_eq k g x])

/-- Settles O37. -/
theorem regionsEnd : Obligations.RegionsEnd := by
  unfold Obligations.RegionsEnd
  refine ⟨?aend, ?aabort⟩
  case aend =>
    intro f s i g
    refine ⟨fun hmay hnot => ⟨fun hreg => ?none_, fun hreg => ?waits⟩, fun hi won again hwait => ?ended⟩
    case none_ =>
      obtain ⟨x, hframe, hpast, hx, hp, hs⟩ := finishAend_ends (f := f) hmay.here 0 0 g
      refine ⟨_, x, atIssue_act hmay.here ?_, hframe, hpast, ?_, fun m l hl => (hp m l hl).trans ?_⟩
      · split
        · next a b c d h => exact absurd h (hnot a b c d)
        · exact (gated_of_mayRun hmay _).trans (if_pos hreg)
      · have hs' : x.s = i.warp.s := by rw [hs]; simp
        exact hx.trans (by rw [hs'])
      · simp
    case waits =>
      refine waits_ends hmay.here _ (atIssue_act hmay.here ?_)
      split
      · next a b c d h => exact absurd h (hnot a b c d)
      · exact (gated_of_mayRun hmay _).trans (if_neg hreg)
    case ended =>
      obtain ⟨x, hframe, hpast, hx, hp, hs⟩ := finishAend_ends (f := f) hi won again g
      refine ⟨_, x, atIssue_act hi ?_, hframe, hpast, hx, hp, fun q => (sR_congr hs q).trans ?_⟩
      · rw [hwait]; exact if_pos rfl
      · have hiff : (f.ak && decide (won ||| again ≠ 0)) = true ↔ f.ak = true ∧ won ||| again ≠ 0 := by
          rw [Bool.and_eq_true, decide_eq_true_eq]
        by_cases hc : (f.ak && decide (won ||| again ≠ 0)) = true
        · obtain ⟨hak, hne⟩ := hiff.1 hc
          rw [if_pos hc]
          by_cases hq : q = f.e.toNat
          · rw [if_pos ⟨hak, hne, hq⟩, hq, sR_setS_self]
          · rw [if_neg fun h => hq h.2.2, sR_setS_ne _ _ hq]
        · rw [if_neg hc, if_neg fun h => hc (hiff.2 ⟨h.1, h.2.1⟩)]
  case aabort =>
    intro f s i ab hmay
    obtain ⟨-, hw, hst, -⟩ := issuer_spec hmay.here
    have hrun : exec (.aabort f) s = .next (after (abortLanes i ab) s) := atIssue_act hmay.here (gated_of_mayRun hmay _)
    refine ⟨fun hab => ?noRegion, fun pc hab hpc => ⟨fun hall => ?all, fun hsome hnot => ?some_⟩⟩
    case noRegion =>
      rw [hab, after_abortLanes_none hw] at hrun
      exact runsTo_advance hmay.here hrun
    case all =>
      rw [after_abortLanes_all hw hab hpc hall, jump, after_andThen, after_updStrand (by exact mLook_mIns_self ..), after_bump] at hrun
      let x := onStrand i.k (fun t => mergeShadow (goto pc t)) (onStrand i.k (fun t => { t with members := ab }) (dropRegions ab i.warp))
      have hx : x = { dropRegions ab i.warp with strands := x.strands } := onStrand_onStrand_eq ..
      have hr : x.regions = (dropRegions ab i.warp).regions := by rw [hx]
      refine ⟨_, x, _, hrun, rfl, fun v hv => ?_, mLook_mIns_self .., hx.trans (by rw [hr]; rfl), fun l => ?_, fun j hj => ?_,
        onStrand_here (onStrand_here hst), ?_, ?_, ?_⟩
      · exact (mLook_mIns_ne _ _ hv).trans (mLook_mIns_ne _ _ hv)
      · rw [hr]; exact mLook_dropRegions ab i.warp l
      · exact (onStrand_others _ _ _ hj).trans (onStrand_others _ _ _ hj)
      · exact mergeShadow_pc _
      · exact mergeShadow_slot _
      · exact mergeShadow_members _
    case some_ =>
      rw [after_abortLanes_some hw hab hpc hsome] at hrun
      obtain ⟨y, hy⟩ : ∃ y, y = onStrand i.k (fun t => { t with members := t.members &&& ~~~ab }) (dropRegions ab i.warp) := ⟨_, rfl⟩
      rw [← hy] at hrun
      have ey : y = { dropRegions ab i.warp with strands := y.strands } := hy ▸ onStrand_eq ..
      have hstrands : y.strands = mIns i.warp.strands i.k { i.st with members := i.st.members &&& ~~~ab } := by
        rw [hy, onStrand, show mLook (dropRegions ab i.warp).strands i.k = some i.st from hst]; rfl
      have hyr : y.regions = (dropRegions ab i.warp).regions := by rw [ey]
      have hyh : y.heldStrands = i.warp.heldStrands := by rw [ey]; rfl
      have hyn : y.nextAge = i.warp.nextAge := by rw [ey]; rfl
      have hlen : y.strands.length = (mIns i.warp.strands i.k i.st).length := by rw [hstrands, length_mIns]
      have hfree : freeEntries { s with warps := mIns s.warps i.w y } i.core i.warp.sub = freeEntries s i.core i.warp.sub :=
        freeEntries_congr hw rfl (ey.trans (by rw [hyr]; rfl)) (fun k => by rw [hstrands]; exact mem_keys_mIns hst k) _ _
      obtain ⟨z, hz, ez, hheld, hseated, hkept⟩ := after_seatAborted (i := i) (u := { s with warps := mIns s.warps i.w y })
        (mLook_mIns_self ..) ab pc
      rw [hz, after_advance_eq (by exact mLook_mIns_self ..)] at hrun
      rw [hfree, hyh, hyn, hlen] at hheld hseated
      rw [hfree] at hkept
      have hzk : mLook z.strands i.k = some { i.st with members := i.st.members &&& ~~~ab } := by
        rcases hkept with h | ⟨k, hk, h⟩
        · rw [h, hstrands, mLook_mIns_self]
        · have hne : i.k ≠ k := fun e => by
            rw [← e, ← List.contains_iff_mem, hnot] at hk; cases hk
          rw [h, mLook_mIns_ne _ _ hne, hstrands, mLook_mIns_self]
      let x := advanced i 1 z
      have ex : x = { z with strands := x.strands } := onStrand_eq ..
      have hxr : x.regions = (dropRegions ab i.warp).regions := by rw [ex, ez]; exact hyr
      have hxh : x.heldStrands = z.heldStrands := by rw [ex]
      have hothers (j : Nat) (hj : j ≠ i.k) : mLook x.strands j = mLook z.strands j := onStrand_others _ _ _ hj
      have hstep := stepSlots_congr 1 (t := { i.st with members := i.st.members &&& ~~~ab }) (u := i.st) rfl rfl rfl
      refine ⟨_, x, _, hrun, rfl, fun v hv => ?_, mLook_mIns_self .., ?_, fun l => ?_, onStrand_here hzk, ?_, ?_, ?_,
        fun hfull => ?_, fun k hk hheld hroom => ?_⟩
      · exact (mLook_mIns_ne _ _ hv).trans ((mLook_mIns_ne _ _ hv).trans (mLook_mIns_ne _ _ hv))
      · refine ex.trans ?_
        rw [hxr, hxh, ez, ey]
        rfl
      · rw [hxr]; exact mLook_dropRegions ab i.warp l
      · rw [mergeShadow_pc, hstep.1]
      · rw [mergeShadow_slot, hstep.2]
      · rw [mergeShadow_members, stepSlots_members]
      · obtain ⟨h1, h2⟩ := hheld hfull
        refine ⟨hxh.trans h1, fun j hj => ?_⟩
        rw [hothers j hj, h2, hstrands, mLook_mIns_ne _ _ hj]
      · obtain ⟨h1, h2⟩ := hseated k hk hheld hroom
        have hne : k ≠ i.k := fun e => by
          have := mem_of_pick hk
          rw [e, ← List.contains_iff_mem, hnot] at this; cases this
        refine ⟨hxh.trans h1, ?_, fun j hj hjk => ?_⟩
        · rw [hothers k hne, h2, mLook_mIns_self]
        · rw [hothers j hj, h2, mLook_mIns_ne _ _ hjk, hstrands, mLook_mIns_ne _ _ hj]

end Sys2Proof.Machine


/-! # Launches from device code (R330 to R333, R342, R369) -/

namespace Sys2Proof.Machine

/-! ## A new launch -/

/-- A context with a launch of scope `sc` registered. -/
def registered (sc : Option Nat) (c : Context) : Context :=
  { c with scopes := match sc with | some n => addScope c.scopes n | none => c.scopes }

theorem after_addLaunch {u : State} (l : Launch) {c : Context} (hc : mLook u.ctxs l.ctx = some c) :
    ∃ m, after (addLaunch l) u = { u with
        launches := mIns u.launches (freshId u).toNat { l with order := u.nextId }
        nextLaunch := freshId u + 1, nextId := u.nextId + 1, ctxs := m } ∧
      mLook m l.ctx = some (registered l.scope c) ∧ ∀ k, k ≠ l.ctx → mLook m k = mLook u.ctxs k := by
  rw [addLaunch, after_look]
  simp only [after_andThen]
  cases h : l.scope with
  | none => exact ⟨u.ctxs, rfl, hc, fun _ _ => rfl⟩
  | some n => exact ⟨_, after_updCtx (by exact hc), mLook_mIns_self .., fun k hk => mLook_mIns_ne _ _ hk⟩

/-- The launch that a record of device code becomes. -/
def placedAs (core cid : Nat) (bs : List Byte) (sc : Option Nat) (inQueue : Bool) : Launch :=
  { ctx := cid, bytes := bs, scope := sc, stage := if recHold bs then .held else .ready
    queue := if inQueue then some core else none, placed := true }

theorem after_placeLaunch {u : State} {core cid : Nat} {bs : List Byte} {sc : Option Nat} {c : Context}
    (hc : mLook u.ctxs cid = some c) (hhold : recHold bs = true → sc.isSome = true) {q : Bool} (hq : decide (queueCount u core < 4) = q) :
    ∃ m y, after (placeLaunch core cid bs sc) u = { u with
        launches := mIns u.launches (freshId u).toNat { placedAs core cid bs sc q with order := u.nextId }
        nextLaunch := freshId u + 1, nextId := u.nextId + 1, ctxs := m } ∧
      mLook m cid = some y ∧ y = { registered sc c with high := y.high, spills := c.spills + (if q then 0 else 1) } ∧
      ∀ k, k ≠ cid → mLook m k = mLook u.ctxs k := by
  subst hq
  have hno : (recHold bs && sc.isNone) = false := by
    cases h : recHold bs with
    | false => rfl
    | true => rw [Bool.true_and, Option.isNone_eq_false_iff]; exact hhold h
  rw [placeLaunch, after_look, hno]
  simp only [Bool.false_eq_true, if_false, after_andThen]
  obtain ⟨m, hm, hself, hothers⟩ := after_addLaunch (u := u) (placedAs core cid bs sc (decide (queueCount u core < 4))) hc
  refine ⟨_, _, (congrArg (after (look _)) hm).trans (after_updCtx (by exact hself)), mLook_mIns_self .., ?_,
    fun k hk => (mLook_mIns_ne _ _ hk).trans (hothers k hk)⟩
  cases decide (queueCount u core < 4) <;> rfl

/-! ## `launch` -/

section
variable {f : MFields} {s : State} {i : Iss}

theorem exec_launch (hmay : MayRun s i (chkAll true (addrOk i f && vOk i f.d.toNat 1 && vOk i f.e.toNat 1)) (launchUses f) (guardMask i f.gp f.gn))
    (hrest : placedRest i = []) (hreg : regionLanes i &&& guardMask i f.gp f.gn = 0)
    {fs : List LaneFate} (hfs : launchFates s i f (guardMask i f.gp f.gn &&& ~~~(placedBefore i)) = fs)
    (hstop : firstStop fs = none) (habs : absentLanesOf fs = []) {recs : List (Nat × List Byte × Option Nat)}
    (hrecs : launchRecords s i f fs = recs) (hopen : ∀ b ∈ recs, ∀ n, b.2.2 = some n → scopeOpen i.ctx n = true)
    (hq : quiet s i.w i.lanes = true) (hheld : ∀ b ∈ recs, recordHeld s i (plainAt i f b.1) 16 = false) :
    exec (.launch f) s = .next (after (placeLanes i f (guardMask i f.gp f.gn) recs (placedBefore i)) (after (shareFor i 128 (okLanes fs)) s)) := by
  rw [← after_andThen]
  refine atIssue_act hmay.here ?_
  rw [hrest]
  refine (gated_of_mayRun hmay _).trans ((noRegion_of_none hreg _ _).trans ?_)
  have hshut : (recs.filter fun b => b.2.2.any fun n => !scopeOpen i.ctx n) = [] :=
    List.filter_eq_nil_iff.2 fun b hb h => by
      cases hsc : b.2.2 with
      | none => rw [hsc] at h; cases h
      | some n => rw [hsc, Option.any_some, hopen b hb n hsc] at h; cases h
  have hany : (recs.any fun b => recordHeld s i (plainAt i f b.1) 16) = false :=
    List.any_eq_false.2 fun b hb => by rw [hheld b hb]; exact Bool.false_ne_true
  simp only [hfs, hstop, hrecs, hshut, habs, hq, hany, List.isEmpty_nil, Bool.not_true, Bool.or_self, Bool.false_eq_true, if_false, if_true]

end

theorem launch_none {f : MFields} {s : State} {i : Iss} (hg : guardMask i f.gp f.gn = 0)
    (hmay : MayRun s i (chkAll true (addrOk i f && vOk i f.d.toNat 1 && vOk i f.e.toNat 1)) (launchUses f) 0)
    (hrest : placedRest i = []) (hq : quiet s i.w i.lanes = true) :
    RunsTo s i (exec (.launch f) s) 1 fun x => x = { i.warp with strands := x.strands } := by
  have hnone (m : Mask) : (0 : Mask) &&& m = 0 := BitVec.zero_and
  have hrun := exec_launch (f := f) (fs := []) (recs := []) (by rw [hg]; exact hmay) hrest (by rw [hg]; exact BitVec.and_zero)
    (by rw [hg, hnone]; rfl) rfl rfl rfl (fun _ h => by cases h) hq (fun _ h => by cases h)
  rw [placeLanes, if_pos (by rw [hg, hnone])] at hrun
  obtain ⟨-, hw, -⟩ := issuer_spec hmay.here
  obtain ⟨x, hframe, hx, hpast⟩ := (RegisterFrame.refl (b := i.warp.block) hw).endsQuiet (unmoved_issuer hmay.here rfl) rfl
    (launchUses f) (placedBefore i) 1
  exact ⟨_, x, hrun, hframe, hpast, hx⟩

theorem launch_one {f : MFields} {s : State} {i : Iss} {l : Nat} {loc : Loc} {e : Option DWord} (hrest : placedRest i = [])
    (hl : lanesIn (guardMask i f.gp f.gn &&& ~~~(placedBefore i)) = [l])
    (hmay : MayRun s i (chkAll true (addrOk i f && vOk i f.d.toNat 1 && vOk i f.e.toNat 1)) (launchUses f) (guardMask i f.gp f.gn))
    (hreg : regionLanes i &&& guardMask i f.gp f.gn = 0) (hfate : fateOf s i .glob (plainAt i f l) 128 true false = .ok loc e)
    (hopen : ∀ n, laneScope i f l (bytesOfNat 128 (readLoc s loc 128)) = some n → scopeOpen i.ctx n = true)
    (hq : quiet s i.w i.lanes = true) (hheld : recordHeld s i (plainAt i f l) 16 = false) :
    exec (.launch f) s = .next (after (placeLanes i f (guardMask i f.gp f.gn)
      [(l, bytesOfNat 128 (readLoc s loc 128), laneScope i f l (bytesOfNat 128 (readLoc s loc 128)))] (placedBefore i))
      (after (shareFor i 128 [(l, plainAt i f l, loc, e)]) s)) := by
  have hfs : launchFates s i f (guardMask i f.gp f.gn &&& ~~~(placedBefore i)) = [(l, plainAt i f l, .ok loc e)] := by
    rw [launchFates, hl, List.map_cons, List.map_nil, hfate]
  refine exec_launch hmay hrest hreg hfs rfl rfl rfl (fun b hb n hn => ?_) hq fun b hb => ?_
  · cases List.mem_singleton.1 hb; exact hopen n hn
  · cases List.mem_singleton.1 hb; exact hheld

theorem one_lane_done {g m : Mask} {l : Nat} (h : lanesIn (g &&& ~~~m) = [l]) : g &&& ~~~(m ||| laneBit l) = 0 := by
  have hl : l < 32 := (mem_lanesIn.1 (by rw [h]; exact List.mem_cons_self)).1
  refine BitVec.eq_of_getLsbD_eq fun j hj => ?_
  change hasLane (g &&& ~~~(m ||| laneBit l)) j = hasLane 0 j
  rw [hasLane_and, hasLane_not hj, hasLane_or, hasLane_laneBit hl]
  have hmem : j ∈ lanesIn (g &&& ~~~m) ↔ j = l := by rw [h, List.mem_singleton]
  rw [mem_lanesIn, hasLane_and, hasLane_not hj] at hmem
  by_cases e : j = l
  · simp [e]
  · have := mt hmem.1 e
    simp only [hj, true_and, Bool.and_eq_true, Bool.not_eq_true'] at this
    cases hg : hasLane g j <;> cases hm : hasLane m j <;> simp_all

/-- Settles O38. -/
theorem launchesArePlaced : Obligations.LaunchesArePlaced := by
  unfold Obligations.LaunchesArePlaced
  refine ⟨fun f s i hg hmay hrest hq => launch_none hg hmay hrest hq, ?one⟩
  case one =>
    intro f s i l loc e g va bs sc id inQueue hrest hl hmay hreg hfate hopen hq hheld hhold hroom
    obtain ⟨-, hw, hst, -, -, hc : mLook s.ctxs i.cid = _⟩ := issuer_spec hmay.here
    have hl32 : l < 32 := (mem_lanesIn.1 (by rw [hl]; exact List.mem_cons_self)).1
    have hrun : exec (.launch f) s = .next (after (placeLanes i f g [(l, bs, sc)] (placedBefore i))
      (after (shareFor i 128 [(l, plainAt i f l, loc, e)]) s)) := launch_one hrest hl hmay hreg hfate hopen hq hheld
    have hshare := eq_of_only_dir (only_of_each (each_shareFor (by simp [Effect.table]) i 128 [(l, plainAt i f l, loc, e)]) s)
    rw [hshare] at hrun
    generalize (after (shareFor i 128 [(l, plainAt i f l, loc, e)]) s).dir = d at hrun
    rw [placeLanes, after_look, if_neg] at hrun
    case hnc =>
      rw [show launchRoom { s with dir := d } i.core i.cid i.ctx = true from hroom, Bool.not_true, Bool.and_false]
      exact Bool.false_ne_true
    let x1 := setV i.warp f.d.toNat l id
    obtain ⟨m, y, hplace, hself, ey, hothers⟩ := after_placeLaunch (core := i.core) (cid := i.cid) (bs := bs) (sc := sc) (q := inQueue)
      (u := { s with dir := d, warps := mIns s.warps i.w x1 }) hc hhold rfl
    have hput : after (updWarp i.w fun x => setV x f.d.toNat l (freshId { s with dir := d })) { s with dir := d } =
        { s with dir := d, warps := mIns s.warps i.w x1 } := after_updWarp hw
    rw [after_andThen, after_andThen, after_andThen, hput, hplace, after_bump, placeLanes, if_pos (one_lane_done hl), after_andThen] at hrun
    have hx1 : Unmoved i x1 := unmoved_of_strands hst rfl
    let u : State := { s with
      dir := d
      warps := mIns s.warps i.w x1
      launches := mIns s.launches id.toNat { placedAs i.core i.cid bs sc inQueue with order := s.nextId }
      nextLaunch := id + 1
      nextId := s.nextId + 1
      ctxs := m
      epoch := s.epoch + 1 }
    obtain ⟨z, hz, ez, hmz⟩ := (WarpStep.refl (s := u) (mLook_mIns_self ..)).wrote_unmoved hx1 (launchUses f) (placedBefore i ||| laneBit l)
    replace hrun : exec (.launch f) s = .next (after (advance i 1) (after (wrote i (launchUses f) (placedBefore i ||| laneBit l)) u)) := hrun
    generalize after (wrote i (launchUses f) (placedBefore i ||| laneBit l)) u = t at hz hrun
    obtain ⟨x, hx, ex, hpast⟩ := after_advance hz.self hmz 1
    rw [hx] at hrun
    have hctxs : t.ctxs = m := by rw [hz.rest]
    have hlaunches : t.launches = mIns s.launches id.toNat { placedAs i.core i.cid bs sc inQueue with order := s.nextId } := by rw [hz.rest]
    have hv : x.v = x1.v := by rw [ex, ez]
    refine ⟨_, x, y, hrun, by rw [hz.rest], fun k hk => by rw [hctxs]; exact hothers k hk, ?_, fun k hk => ?_, by rw [hctxs]; exact hself,
      ?_, by rw [ey]; rfl, mLook_mIns_self .., fun v hv => ?_, hpast, ?_, fun r k hk => ?_⟩
    · rw [hlaunches, mLook_mIns_self]; rfl
    · rw [hlaunches, mLook_mIns_ne _ _ hk]
    · have hy : y.scopes = (registered sc i.ctx).scopes := by rw [ey]
      refine ey.trans ?_
      rw [hy]
      rfl
    · exact (mLook_mIns_ne _ _ hv).trans ((hz.warps v hv).trans (mLook_mIns_ne _ _ hv))
    · refine ex.trans ?_
      rw [hv, ez]
      rfl
    · refine (vR_congr hv r k).trans ?_
      by_cases h : r = f.d.toNat ∧ k = l
      · rw [if_pos h, h.1, h.2, vR_setV_self]
      · rw [if_neg h, vR_setV_ne]
        omega

end Sys2Proof.Machine


/-! # Finish scopes and the tape (R330, R332, R333, R355 to R357, R370, R371) -/

namespace Sys2Proof.Machine

/-! ## The context changes and the strand goes on -/

section
variable {u : State} {i : Iss} (hw : mLook u.warps i.w = some i.warp) (hst : mLook i.warp.strands i.k = some i.st)
include hw hst

/-- A scalar register is written and the strand goes on. -/
theorem after_putScalar_advance (r v n : Nat) :
    ∃ x l, after (andThen (putScalar i false r v) (advance i n)) u =
        { u with warps := mIns u.warps i.w x, bad := l, epoch := u.epoch + 1 } ∧
      (∀ z ∈ l, z ∈ u.bad) ∧ x = { i.warp with s := x.s, strands := x.strands } ∧ Past i n x ∧
      ∀ q, sR x q = if q = r then BitVec.ofNat 32 v else sR i.warp q := by
  let y := setSVal i.warp false r v
  obtain ⟨l, hl, hsub⟩ := after_clearBadS i.w (regs r false) { u with warps := mIns u.warps i.w y }
  obtain ⟨x, hx, ex, hpast⟩ := after_advance (t := { u with warps := mIns u.warps i.w y, bad := l }) (mLook_mIns_self u.warps i.w y)
    (unmoved_of_strands hst rfl) n
  have hs : x.s = y.s := by rw [ex]
  refine ⟨x, l, ?_, hsub, ex.trans (by rw [hs]; rfl), hpast, fun q => (sR_congr hs q).trans ?_⟩
  · rw [after_andThen, putScalar, after_andThen, after_updWarp hw, hl, hx, mIns_mIns]
  · by_cases h : q = r
    · rw [if_pos h, h]; exact sR_setS_self ..
    · rw [if_neg h]; exact sR_setS_ne _ _ h

variable (hc : mLook u.ctxs i.cid = some i.ctx)
include hc

/-- The context of the strand takes a new value and the strand goes on. -/
theorem updCtx_advance (F : Context → Context) (n : Nat) :
    ∃ x, ContextFrame u (after (andThen (updCtx i.cid F) (advance i n)) u) i x (F i.ctx) ∧ Past i n x ∧
      x = { i.warp with strands := x.strands } := by
  obtain ⟨x, hx, ex, hpast⟩ := after_advance (t := { u with ctxs := mIns u.ctxs i.cid (F i.ctx) }) hw (unmoved_of_look hst) n
  rw [after_andThen, after_updCtx hc, hx]
  exact ⟨x, ⟨rfl, mLook_mIns_self .., fun v hv => mLook_mIns_ne _ _ hv, mLook_mIns_self .., fun k hk => mLook_mIns_ne _ _ hk,
    fun _ h => h⟩, hpast, ex⟩
end

/-! ## `fopen` -/

theorem fopen_opens (f : CFields) (s : State) (i : Iss) :
    let child := f.c == 1
    let p := (sR i.warp f.b.toNat).toNat
    let m := if child then addScope i.ctx.scopes p else i.ctx.scopes
    let id := pick ((List.range 256).filter fun n => (mLook i.ctx.scopes n).isNone) (choice s 1)
    MayRun s i (chkAll true (sOk i f.a.toNat 1 && (!child || sOk i f.b.toNat 1)))
      { sr := if child then [f.b.toNat] else [], sw := [f.a.toNat], shadow := true } 0 → guardScalar i f.gp f.gn = true →
    (child = true → scopeOpen i.ctx p = true) →
    ∃ t x c, exec (.fopen f) s = .next t ∧ ContextFrame s t i x c ∧ Past i 1 x ∧
      x = { i.warp with s := x.s, strands := x.strands } ∧
      (∀ q, sR x q = if q = f.a.toNat then BitVec.ofNat 32 (id.getD 0xFFFFFFFF) else sR i.warp q) ∧
      c = match id with
        | some n => withScopes i.ctx (mIns m n { parent := if child then some p else none })
        | none => i.ctx := by
  intro child p m id hmay hg hopen
  obtain ⟨-, hw, hst, -, -, hc : mLook s.ctxs i.cid = _⟩ := issuer_spec hmay.here
  have hshut : (child && !scopeOpen i.ctx p) = false := by
    cases h : child with
    | false => rfl
    | true => rw [hopen h]; rfl
  have hexec {a : Act} (ha : (match id with
      | none => andThen (putScalar i false f.a.toNat 0xFFFFFFFF) (advance i 1)
      | some n => andThen (updScopes i.cid fun m => mIns (if child then addScope m p else m) n { parent := if child then some p else none })
          (andThen (putScalar i false f.a.toNat n) (advance i 1))) = a) : exec (.fopen f) s = .next (after a s) := by
    refine atIssue_act hmay.here ?_
    rw [hg]
    refine (gated_of_mayRun hmay _).trans ((if_neg Bool.false_ne_true).trans ((if_neg ?_).trans ?_))
    · rw [show (f.c == 1 && !scopeOpen i.ctx _) = false from hshut]; exact Bool.false_ne_true
    · exact ha
  cases hid : id with
  | none =>
    have hrun := hexec (by rw [hid])
    obtain ⟨x, l, hx, hsub, ex, hpast, hs⟩ := after_putScalar_advance hw hst f.a.toNat 0xFFFFFFFF 1
    rw [hx] at hrun
    exact ⟨_, x, i.ctx, hrun, ⟨rfl, mLook_mIns_self .., fun v hv => mLook_mIns_ne _ _ hv, hc, fun _ _ => rfl, hsub⟩, hpast, ex, hs, rfl⟩
  | some n =>
    have hrun := hexec (by rw [hid])
    rw [after_andThen, updScopes, after_updCtx hc] at hrun
    obtain ⟨x, l, hx, hsub, ex, hpast, hs⟩ := after_putScalar_advance (u := { s with ctxs := mIns s.ctxs i.cid _ }) hw hst f.a.toNat n 1
    rw [hx] at hrun
    exact ⟨_, x, _, hrun, ⟨rfl, mLook_mIns_self .., fun v hv => mLook_mIns_ne _ _ hv, mLook_mIns_self .., fun k hk => mLook_mIns_ne _ _ hk,
      hsub⟩, hpast, ex, hs, rfl⟩

/-! ## `fclose` -/

theorem mem_byOrder {e : Nat × Launch} {l : List (Nat × Launch)} : e ∈ byOrder l ↔ e ∈ l := by
  have hins (y : Nat × Launch) (l : List (Nat × Launch)) : e ∈ insertLaunch y l ↔ e = y ∨ e ∈ l := by
    induction l with
    | nil => simp [insertLaunch]
    | cons z l ih =>
      rw [insertLaunch]
      split
      · exact List.mem_cons
      · rw [List.mem_cons, ih, List.mem_cons, or_left_comm]
  induction l with
  | nil => rfl
  | cons y l ih =>
    rw [byOrder, List.foldr_cons, hins]
    exact (or_congr_right ih).trans List.mem_cons.symm

/-- A held launch becomes ready. -/
def readyAct (e : Nat × Launch) : Act := look fun s =>
  andThen (eff (.launch e.1 { e.2 with stage := .ready, order := s.nextId })) (eff (.ids (s.nextId + 1)))

theorem only_readyAll (l : List (Nat × Launch)) (s : State) : Only [.launches, .nextId] s (after (forAll readyAct l) s) :=
  only_of_each (each_forAll fun e => each_look fun s =>
    each_andThen (each_eff (by simp [Effect.table])) (each_eff (by simp [Effect.table]))) s

/-- Each launch of the list is ready, every other as it was. -/
theorem mLook_readyAll (l : List (Nat × Launch)) (s : State) (k : Nat) :
    (k ∉ l.map (·.1) → mLook (after (forAll readyAct l) s).launches k = mLook s.launches k) ∧
    (k ∈ l.map (·.1) → ∃ e ∈ l, e.1 = k ∧ ∃ n, mLook (after (forAll readyAct l) s).launches k = some { e.2 with stage := .ready, order := n }) := by
  induction l generalizing s with
  | nil => exact ⟨fun _ => rfl, fun h => by cases h⟩
  | cons e l ih =>
    rw [after_forAll_cons]
    obtain ⟨hout, hin⟩ := ih (after (readyAct e) s)
    have hlook : (after (readyAct e) s).launches = mIns s.launches e.1 { e.2 with stage := .ready, order := s.nextId } := rfl
    by_cases hl : k ∈ l.map (·.1)
    · refine ⟨fun h => absurd (List.mem_cons_of_mem _ hl) h, fun _ => ?_⟩
      obtain ⟨d, hd, hrest⟩ := hin hl
      exact ⟨d, List.mem_cons_of_mem _ hd, hrest⟩
    · have hk := hout hl
      rw [hlook, mLook_mIns] at hk
      refine ⟨fun h => ?_, fun h => ⟨e, List.mem_cons_self, ?_⟩⟩
      · rw [hk, if_neg fun he => h (List.mem_map.2 ⟨e, List.mem_cons_self, he.symm⟩)]
      · have he : k = e.1 := by
          rcases List.mem_cons.1 h with h | h
          · exact h
          · exact absurd h hl
        exact ⟨he.symm, _, hk.trans (if_pos he)⟩

/-- The launches that a scope holds. -/
def heldOf (s : State) (cid n : Nat) : List (Nat × Launch) :=
  s.launches.filter fun e => decide (e.2.ctx = cid) && decide (e.2.stage = .held) && decide (e.2.scope = some n)

theorem releaseHeld_eq (cid n : Nat) (s : State) : after (releaseHeld cid n) s = after (forAll readyAct (byOrder (heldOf s cid n))) s := rfl

theorem only_releaseHeld (cid n : Nat) (s : State) : Only [.launches, .nextId] s (after (releaseHeld cid n) s) := only_readyAll _ s

theorem mLook_releaseHeld {s : State} (hs : mSorted s.launches = true) (cid n : Nat) {k : Nat} {y : Launch} (hy : mLook s.launches k = some y) :
    ∃ z, mLook (after (releaseHeld cid n) s).launches k = some z ∧ z = { y with stage := z.stage, order := z.order } ∧
      z.stage = if y.ctx = cid ∧ y.stage = .held ∧ y.scope = some n then .ready else y.stage := by
  have hmem : k ∈ (byOrder (heldOf s cid n)).map (·.1) ↔ y.ctx = cid ∧ y.stage = .held ∧ y.scope = some n := by
    simp only [List.mem_map, mem_byOrder, heldOf, List.mem_filter, Bool.and_eq_true, decide_eq_true_eq]
    constructor
    · rintro ⟨e, ⟨he, ⟨h1, h2⟩, h3⟩, rfl⟩
      cases hy.symm.trans (mLook_of_mem hs he)
      exact ⟨h1, h2, h3⟩
    · exact fun ⟨h1, h2, h3⟩ => ⟨(k, y), ⟨mem_of_mLook hy, ⟨h1, h2⟩, h3⟩, rfl⟩
  rw [releaseHeld_eq]
  obtain ⟨hout, hin⟩ := mLook_readyAll (byOrder (heldOf s cid n)) s k
  by_cases h : y.ctx = cid ∧ y.stage = .held ∧ y.scope = some n
  · obtain ⟨e, he, rfl, m, hm⟩ := hin (hmem.2 h)
    have hey : e.2 = y := by
      have := (List.mem_filter.1 (mem_byOrder.1 he)).1
      exact Option.some.inj ((mLook_of_mem hs this).symm.trans hy)
    rw [hey] at hm
    exact ⟨_, hm, rfl, (if_pos h).symm⟩
  · exact ⟨y, (hout (mt hmem.1 h)).trans hy, rfl, (if_neg h).symm⟩

/-- Settles O39. -/
theorem scopesAndTapeComplete : Obligations.ScopesAndTapeComplete := by
  unfold Obligations.ScopesAndTapeComplete
  refine ⟨fopen_opens, ?fclose, ?push, ?run, ?pop⟩
  case fclose =>
    intro f s i x0 n hmay hg hx0 hopen hcan
    obtain ⟨-, hw, hst, -, -, hc : mLook s.ctxs i.cid = _⟩ := issuer_spec hmay.here
    have hrun : exec (.fclose f) s = .next (after (andThen (updScopes i.cid fun m => settleScope 257 (mIns m n { x0 with opened := false }) n)
        (andThen (releaseHeld i.cid n) (advance i 1))) s) := by
      refine atIssue_act hmay.here ?_
      rw [hg]
      refine (gated_of_mayRun hmay _).trans ((if_neg Bool.false_ne_true).trans ?_)
      rw [show mLook i.ctx.scopes _ = some x0 from hx0]
      exact if_neg (by rw [hopen]; exact Bool.false_ne_true)
    rw [after_andThen, updScopes, after_updCtx hc, after_andThen] at hrun
    have hlook (k : Nat) (y : Launch) (hy : mLook s.launches k = some y) := mLook_releaseHeld (s := { s with
      ctxs := mIns s.ctxs i.cid { i.ctx with scopes := settleScope 257 (mIns i.ctx.scopes n { x0 with opened := false }) n } }) hcan.launches i.cid n hy
    have honly := only_releaseHeld i.cid n { s with
      ctxs := mIns s.ctxs i.cid { i.ctx with scopes := settleScope 257 (mIns i.ctx.scopes n { x0 with opened := false }) n } }
    generalize after (releaseHeld i.cid n) _ = u at hrun hlook honly
    have eu := honly.eq
    simp at eu
    obtain ⟨x, hx, ex, hpast⟩ := after_advance (i := i) (t := u) (by rw [eu]; exact hw) (unmoved_of_look hst) 1
    rw [hx] at hrun
    exact ⟨_, x, hrun, by rw [eu], mLook_mIns_self .., ex, hpast, by rw [eu]; exact mLook_mIns_self .., hlook⟩
  case push =>
    intro f s i bs hmay hg hrec hlen
    obtain ⟨-, hw, hst, -, -, hc : mLook s.ctxs i.cid = _⟩ := issuer_spec hmay.here
    have hrun : exec (.tapePush f) s = .next (after (andThen (shareRecord s i (sVal i.warp true f.a.toNat) 16)
        (andThen (updCtx i.cid fun c => { c with tape := bs :: c.tape }) (advance i 1))) s) := by
      refine atIssue_act hmay.here ?_
      rw [hg]
      refine (gated_of_mayRun hmay _).trans ((if_neg Bool.false_ne_true).trans ((hrec _).trans ?_))
      rw [if_neg (Nat.not_le.2 hlen)]
    have hdir : OnlyDir s (after (shareRecord s i (sVal i.warp true f.a.toNat) 16) s) :=
      eq_of_only_dir (only_of_each (each_mono (each_shareRecord s i (sVal i.warp true f.a.toNat) 16) fun e he => by rw [he]; exact List.mem_cons_self) s)
    rw [after_andThen] at hrun
    generalize after (shareRecord s i (sVal i.warp true f.a.toNat) 16) s = u at hrun hdir
    obtain ⟨x, hframe, hpast, ex⟩ := updCtx_advance (u := u) (i := i) (by rw [hdir]; exact hw) hst (by rw [hdir]; exact hc)
      (fun c => { c with tape := bs :: c.tape }) 1
    exact ⟨_, x, hrun, hdir, hframe, hpast, ex⟩
  case run =>
    intro f s i n hmay hg hopen hnone
    obtain ⟨-, hw, hst, -, -, hc : mLook s.ctxs i.cid = _⟩ := issuer_spec hmay.here
    have hrun : exec (.tapeRun f) s = .next (after (andThen (updCtx i.cid fun c =>
        { c with tapeRun := some (n, none), scopes := addScope c.scopes n }) (advance i 1)) s) := by
      refine atIssue_act hmay.here ?_
      rw [hg]
      refine (gated_of_mayRun hmay _).trans ((if_neg Bool.false_ne_true).trans ?_)
      rw [show scopeOpen i.ctx _ = true from hopen, hnone]
      rfl
    obtain ⟨x, hframe, hpast, ex⟩ := updCtx_advance hw hst hc (fun c => { c with tapeRun := some (n, none), scopes := addScope c.scopes n }) 1
    exact ⟨_, x, hrun, hframe, hpast, ex⟩
  case pop =>
    intro s cid n c cur hc hrun hended
    have hdone : (cur.any fun id => (mLook s.launches id).isSome) = false := by
      cases h : cur with
      | none => rfl
      | some id => rw [Option.any_some, hended id h]; rfl
    have hexec : exec (.tapePop cid) s = .next (after (match c.tape with
        | [] => andThen (updCtx cid fun c => { c with tapeRun := none, scopes := dropScope c.scopes n }) bump
        | bs :: rest => andThen (updCtx cid fun c => { c with tapeRun := some (n, some (freshId s).toNat), tape := rest })
            (andThen (addLaunch { ctx := cid, bytes := bs, scope := some n, stage := .ready, tape := true }) bump)) s) := by
      change execTapePop cid s = _
      rw [execTapePop, finish_eq, hc]
      simp only [hrun, hdone, Bool.false_eq_true, if_false] <;> rfl
    refine ⟨fun htape => hexec.trans ?_, fun bs rest htape => ?_⟩
    · split
      · rw [after_andThen, after_updCtx hc, after_bump]
      · next h => cases htape.symm.trans h
    · obtain ⟨m, hm, hself, -⟩ := after_addLaunch (u := { s with
        ctxs := mIns s.ctxs cid { c with tapeRun := some (n, some (freshId s).toNat), tape := rest } })
        { ctx := cid, bytes := bs, scope := some n, stage := .ready, tape := true } (mLook_mIns_self ..)
      rw [htape] at hexec
      simp only [after_andThen, after_updCtx hc] at hexec
      rw [hm, after_bump] at hexec
      exact ⟨_, hexec, rfl, hself, mLook_mIns_self ..⟩

end Sys2Proof.Machine


/-! # `await` and `fwait`, and the resumption of a record (22_scheduling R352 to R354, 23_ref_sync_launch R372) -/

namespace Sys2Proof.Machine

/-! ## Held strands of a warp that is not resident -/

/-- Only resident warps seat their held strands. -/
theorem mLook_seatOne_away {s : State} (hs : mSorted s.warps = true) (core sub : Nat) {w : Nat} {x : Warp}
    (hx : mLook s.warps w = some x) (hp : x.place ≠ .resident) : mLook (after (seatOne core sub) s).warps w = some x := by
  rw [seatOne, after_look]
  split
  · next v y k ks hheld hfree =>
    obtain ⟨hmem, -, -, hplace⟩ := nextHeld_spec hheld
    have hv : w ≠ v := by
      rintro rfl
      cases hx.symm.trans (mLook_of_mem hs hmem)
      exact hp hplace
    split
    · exact (mLook_mIns_ne _ _ hv).trans hx
    · exact hx
  · exact hx

theorem mLook_seatHeld_away {s : State} (hc : s.Canonical) (core sub : Nat) {w : Nat} {x : Warp}
    (hx : mLook s.warps w = some x) (hp : x.place ≠ .resident) : mLook (after (seatHeld core sub) s).warps w = some x := by
  rw [seatHeld, after_look]
  generalize s.warps.flatMap _ = ts
  induction ts generalizing s with
  | nil => exact hx
  | cons t ts ih =>
    rw [after_forAll_cons]
    exact ih (after_canonical hc _) (mLook_seatOne_away hc.warps core sub hx hp)

/-! ## The parts of an `await` -/

/-- What the end of a wait does to its context. -/
theorem after_leaveCond {s : State} {cid : Nat} {c : Context} (hc : mLook s.ctxs cid = some c) (k : Cond) :
    ∃ m, after (leaveCond cid k) s = { s with ctxs := m } ∧ mLook m cid = some (leftCtx c k) ∧
      ∀ j, j ≠ cid → mLook m j = mLook s.ctxs j := by
  cases k with
  | fwait n =>
    exact ⟨_, by rw [leaveCond, updScopes, after_updCtx hc]; rfl, mLook_mIns_self .., fun j hj => mLook_mIns_ne _ _ hj⟩
  | _ => exact ⟨s.ctxs, rfl, hc, fun _ _ => rfl⟩

/-- A device write clears error marks and sets none. -/
theorem bad_writeVirt (c : Context) (va : Nat) (bs : List Byte) (s : State) : ∀ y ∈ (after (writeVirt c va bs) s).bad, y ∈ s.bad := by
  intro y hy
  rw [writeVirt, after_andThen] at hy
  have hbytes : (after (virtBytes c va bs) s).bad = s.bad :=
    (only_of_each (ts := [.mem]) (each_virtBytes fun _ _ => by simp [Effect.table]) s).bad (by simp)
  generalize after (virtBytes c va bs) s = t at hy hbytes
  rw [← hbytes]
  unfold after at hy
  dsimp only at hy
  split at hy
  · exact hy
  · exact (List.mem_filter.1 hy).1

/-- The writing of a record, and the warp that is one then. -/
def recordOf (i : Iss) (k : Cond) (tags : DWord) (r : List Byte) (va : Nat) (x : Warp) : Warp :=
  { x with record := r, recordAt := BitVec.ofNat 64 va, kept := some (stepSlots 1 i.st), place := .record, cond := some k,
           condTags := tags, strands := [], v := [], s := [], p := [], q := 0, nstat := 0, tshape := 0, drains := 0,
           active := false }

section
variable {s u : State} {i : Iss} {c : Context} (hw : mLook s.warps i.w = some i.warp) (hcan : u.Canonical) (hu : CtxSet s u i c)
include hw hcan hu

theorem suspend_ends (k : Cond) (tags : DWord) (vb n va : Nat) :
    Suspended s (after (suspend i k tags vb n va) u) i k tags (recordBytes i.warp (stepSlots 1 i.st) vb n) va c := by
  have hmem := writeVirt_mem (s := s) (t := u) (by rw [hu.rest]) i.ctx va (recordBytes i.warp (stepSlots 1 i.st) vb n)
  have hbad := bad_writeVirt i.ctx va (recordBytes i.warp (stepSlots 1 i.st) vb n) u
  have honly := only_writeVirt i.ctx va (recordBytes i.warp (stepSlots 1 i.st) vb n) u
  have hcan1 := after_canonical hcan (writeVirt i.ctx va (recordBytes i.warp (stepSlots 1 i.st) vb n))
  have hact : after (suspend i k tags vb n va) u = after bump (after (seatHeld i.core i.warp.sub)
      (after (updWarp i.w (recordOf i k tags (recordBytes i.warp (stepSlots 1 i.st) vb n) va))
        (after (writeVirt i.ctx va (recordBytes i.warp (stepSlots 1 i.st) vb n)) u))) := by
    simp only [suspend, after_andThen]
    rfl
  generalize after (writeVirt i.ctx va _) u = u1 at hmem hbad honly hcan1 hact
  have eu1 : u1 = { u with mem := u1.mem, bad := u1.bad } := by have e := honly.eq; simp at e; exact e
  have hcan2 := after_canonical hcan1 (updWarp i.w (recordOf i k tags (recordBytes i.warp (stepSlots 1 i.st) vb n) va))
  have hw1 : mLook u1.warps i.w = some i.warp := by rw [eu1, hu.rest]; exact hw
  rw [after_updWarp hw1] at hact hcan2
  have hseat := seatHeld_seated hcan2 i.core i.warp.sub
  have haway := mLook_seatHeld_away hcan2 i.core i.warp.sub (mLook_mIns_self ..) (show (recordOf i k tags
    (recordBytes i.warp (stepSlots 1 i.st) vb n) va i.warp).place ≠ .resident by simp [recordOf])
  generalize after (seatHeld i.core i.warp.sub) _ = u2 at hact hseat haway
  rw [after_bump] at hact
  rw [hact]
  refine ⟨?_, by rw [hseat.rest]; exact hmem, fun y hy => ?_, ?_, fun j hj => ?_, haway, fun v y hv hy hn => ?_⟩
  · rw [hseat.rest, eu1, hu.rest]
  · rw [hseat.rest] at hy
    have := hbad y hy
    rw [hu.rest] at this
    exact this
  · rw [hseat.rest, eu1]; exact hu.ctx
  · rw [hseat.rest, eu1]; exact hu.ctxs j hj
  · have hy1 : mLook u1.warps v = some y := by rw [eu1, hu.rest]; exact hy
    obtain ⟨z, hz, hyz⟩ := hseat.warp v y ((mLook_mIns_ne _ _ hv).trans hy1)
    rw [← hyz.none hn]
    exact hz

/-- A strand past its checks does what the statement says of it, in a state whose context is that of the wait. -/
theorem awaitGo_goes (hst : mLook i.warp.strands i.k = some i.st) {o : Host.Outcome State Fault Refusal} (k : Cond) (tags : DWord)
    (stay : Bool) (vb n : Nat) (ho : o = .next (after (awaitGo s i k tags stay vb n) u)) : AwaitGoes s i o k tags stay vb n c := by
  have hwu : mLook u.warps i.w = some i.warp := by rw [hu.rest]; exact hw
  refine ⟨fun hstay hdue hcond hread => ?goes, fun hstay hdue hcond => ?waits, fun hstay hdue hdrained harea => ?record⟩
  case goes =>
    obtain ⟨m, hm, hself, hothers⟩ := after_leaveCond hu.ctx k
    rw [awaitGo, if_pos hstay, unlessDue, hdue] at ho
    simp only [hcond, hread, Bool.and_self, if_true] at ho
    rw [after_andThen, hm] at ho
    obtain ⟨x, hx, ex, hpast⟩ := after_advance (t := { u with ctxs := m }) hwu (unmoved_of_look hst) 1
    rw [hx] at ho
    refine ⟨_, x, ho, ⟨?_, mLook_mIns_self .., fun v hv => ?_, hself, fun j hj => (hothers j hj).trans (hu.ctxs j hj), fun y hy => ?_⟩, hpast, ex⟩
    · rw [hu.rest]
    · exact (mLook_mIns_ne _ _ hv).trans (by rw [hu.rest])
    · rw [hu.rest] at hy; exact hy
  case waits =>
    rw [awaitGo, if_pos hstay, unlessDue, hdue] at ho
    simp only [hcond, Bool.false_and, Bool.false_eq_true, if_false] at ho
    rw [after_waitWith hwu] at ho
    have hepoch : u.epoch = s.epoch := by rw [hu.rest]
    refine ⟨_, _, ho, ⟨?_, mLook_mIns_self .., fun v hv => ?_, hu.ctx, hu.ctxs, fun y hy => ?_⟩, onStrand_eq .., ?_⟩
    · rw [hu.rest]
    · exact (mLook_mIns_ne _ _ hv).trans (by rw [hu.rest])
    · rw [hu.rest] at hy; exact hy
    · rw [onStrand_here hst, hepoch]
  case record =>
    rw [awaitGo, if_neg (by rw [hstay]; exact Bool.false_ne_true), unlessDue, hdue] at ho
    simp only [hdrained, harea, Bool.not_true, Bool.false_eq_true, if_false] at ho
    exact ⟨_, ho, suspend_ends hw hcan hu k tags vb n _⟩
end

/-! ## The forms -/

/-- What the first execution of `a` does, its checks passed: its reads are shared, and the wait starts in its context. -/
structure Starts (s : State) (i : Iss) (a : AwaitForm) (act : Act) : Prop where
  shares : OnlyDir s (after a.shares s)
  begins : ∃ u, CtxSet (after a.shares s) u i (waitedCtx i a.cond) ∧ u.Canonical ∧
    after act s = after (awaitStart s i a.cond a.vb a.n) u

theorem onlyDir_skip (s : State) : OnlyDir s (after skip s) := rfl

theorem starts_of_eq {s : State} {i : Iss} {a : AwaitForm} (hcan : s.Canonical) (hc : mLook s.ctxs i.cid = some i.ctx)
    (hshares : OnlyDir s (after a.shares s)) (hcond : waitedCtx i a.cond = i.ctx) {act : Act}
    (hact : act = andThen a.shares (awaitStart s i a.cond a.vb a.n)) : Starts s i a act := by
  refine ⟨hshares, _, ⟨rfl, ?_, fun _ _ => rfl⟩, after_canonical hcan _, by rw [hact, after_andThen]⟩
  rw [hshares, hcond]
  exact hc

/-- Every form comes to the meaning that all of them share. -/
theorem exec_awaitForms {f : CFields} {s : State} {i : Iss} {r : List Byte} {a : AwaitForm} (hcan : s.Canonical)
    (ha : a ∈ awaitForms f s i r) (hi : issuer s = some i) : ∃ act,
      exec a.ins s = .next (after (awaitMeans s i f a.opnd { sr := a.reads } a.vb a.n act) s) ∧ (a.go → Starts s i a act) := by
  obtain ⟨-, -, -, -, -, hc : mLook s.ctxs i.cid = _⟩ := issuer_spec hi
  simp only [awaitForms, List.mem_cons, List.not_mem_nil, or_false] at ha
  rcases ha with rfl | rfl | rfl | rfl | rfl | rfl
  case inl => exact ⟨_, atIssue_act hi rfl, fun _ => starts_of_eq hcan hc (onlyDir_skip s) rfl rfl⟩
  case inr.inl =>
    refine ⟨_, atIssue_act hi rfl, fun ⟨p, e, h⟩ => starts_of_eq hcan hc (onlyDir_skip s) rfl ?_⟩
    rw [h]
    rfl
  case inr.inr.inl =>
    refine ⟨_, atIssue_act hi rfl, fun ⟨h1, h2⟩ => starts_of_eq hcan hc (onlyDir_skip s) rfl ?_⟩
    refine (if_neg ?_).trans rfl
    rw [not_or, Option.isNone_iff_eq_none]
    exact ⟨Nat.not_le.2 h1, Option.isSome_iff_ne_none.1 h2⟩
  case inr.inr.inr.inl =>
    refine ⟨_, atIssue_act hi rfl, fun h => starts_of_eq hcan hc (onlyDir_skip s) rfl ?_⟩
    refine (if_neg ?_).trans rfl
    rw [Option.isNone_iff_eq_none]
    exact Option.isSome_iff_ne_none.1 h
  case inr.inr.inr.inr.inl =>
    refine ⟨_, atIssue_act hi rfl, fun ⟨h1, h2⟩ => starts_of_eq hcan hc ?_ rfl ?_⟩
    · exact eq_of_only_dir (only_of_each (each_mono (each_shareRecord s i _ 8) fun e he => by rw [he]; exact List.mem_cons_self) s)
    · rw [h1]
      obtain ⟨p, hp⟩ := Option.isSome_iff_exists.1 h2
      rw [hp]
      rfl
  case inr.inr.inr.inr.inr =>
    refine ⟨_, atIssue_act hi rfl, fun h => ⟨onlyDir_skip s, ?_⟩⟩
    obtain ⟨x, hx⟩ := Option.isSome_iff_exists.1 h
    refine ⟨after (updScopes i.cid fun m => mIns m (sR i.warp f.a.toNat).toNat { x with waited := true }) s, ?_, after_canonical hcan _, ?_⟩
    · rw [updScopes, after_updCtx hc]
      refine ⟨rfl, ?_, fun k hk => mLook_mIns_ne _ _ hk⟩
      rw [waitedCtx, hx]
      exact mLook_mIns_self ..
    · rw [hx, after_andThen]

/-! ## Resumption -/

theorem record_resumes (s : State) (w core sub n k : Nat) (x : Warp) (b : Block) (l : Launch) (c : Context) (r : List Byte) :
     recordNow s c x = some r → mLook s.warps w = some x → mLook s.blocks x.block = some b → mLook s.launches b.launch = some l →
     mLook s.ctxs b.ctx = some c →
     x.place = .record → recordReady s x = true → b.place = .resident → b.cores.contains core = true →
     sub = servingSub s core x.num →
     (∀ e ∈ s.warps, e.2.block = x.block → e.2.age < x.age → recordReady s e.2 = false) →
     resumeSlot s x core sub = some n →
     pick (freeEntries s core sub) (choice s 1) = some k →
     ∃ t, exec (.contRecordResume w core sub) s = .next t ∧ t = { s with warps := t.warps, ctxs := t.ctxs, epoch := t.epoch } ∧
       (∀ v, v ≠ w → mLook t.warps v = mLook s.warps v) ∧
       (∀ j, j ≠ b.ctx → mLook t.ctxs j = mLook s.ctxs j) ∧
       mLook t.ctxs b.ctx = some (match x.cond with | some y => leftCtx c y | none => c) ∧
       mLook t.warps w = some { reseed l b.b (fromRecord r x) with
         place := .resident, core := core, sub := sub, slotNo := n, cond := none, condTags := 0, record := [], recordAt := 0,
         kept := none, strands := [(k, recordStrand r x)], readySince := none } := by
  intro hr hw hb hl hc hp hready hbp hcore hsub hold hslot hentry
  have hnone : (s.warps.any fun e => decide (e.2.block = x.block) && decide (e.2.age < x.age) && recordReady s e.2) = false :=
    List.any_eq_false.2 fun e he h => by
      simp only [Bool.and_eq_true, decide_eq_true_eq] at h
      rw [hold e he h.1.1 h.1.2] at h
      exact Bool.noConfusion h.2
  have hrun : exec (.contRecordResume w core sub) s = .next (after (andThen (updWarp w fun y =>
      { reseed l b.b (fromRecord r y) with
        place := .resident, core := core, sub := sub, slotNo := n, cond := none, condTags := 0, record := [],
        recordAt := 0, kept := none, strands := [(k, recordStrand r y)], readySince := none }) bump)
      (after (match x.cond with | some c => leaveCond b.ctx c | none => skip) s)) := by
    change execContRecordResume w core sub s = _
    rw [execContRecordResume, finish_eq, hw]
    simp only [hb, hp, hready, hbp, hcore, hsub.symm, hnone, hslot, hentry, hl, hc, hr, ne_eq, not_true_eq_false, if_false,
      Bool.not_true, Bool.false_eq_true, decide_false, Bool.or_self]
    exact congrArg Host.Outcome.next (after_andThen ..)
  have hleave : ∃ m, after (match x.cond with | some c => leaveCond b.ctx c | none => skip) s = { s with ctxs := m } ∧
      mLook m b.ctx = some (match x.cond with | some y => leftCtx c y | none => c) ∧ ∀ j, j ≠ b.ctx → mLook m j = mLook s.ctxs j := by
    cases x.cond with
    | none => exact ⟨s.ctxs, rfl, hc, fun _ _ => rfl⟩
    | some y => exact after_leaveCond hc y
  obtain ⟨m, hm, hself, hothers⟩ := hleave
  rw [hm, after_andThen, after_updWarp (show mLook { s with ctxs := m }.warps w = some x from hw), after_bump] at hrun
  exact ⟨_, hrun, rfl, fun v hv => mLook_mIns_ne _ _ hv, hothers, hself, mLook_mIns_self ..⟩

/-- Settles O40: each form makes its checks and comes to `awaitGo`, in the context of the wait. -/
theorem awaitsComplete : Obligations.AwaitsComplete := by
  unfold Obligations.AwaitsComplete
  refine ⟨fun f s i r a hcan ha => ⟨fun hmay hwait => ⟨fun hg hreg hgo => ?start, fun hg => ?skips⟩, fun hi k tags stay hwait => ?again⟩,
    record_resumes⟩
  case again =>
    obtain ⟨-, hw, hst, -, -, hc : mLook s.ctxs i.cid = _⟩ := issuer_spec hi
    obtain ⟨act, hrun, -⟩ := exec_awaitForms hcan ha hi
    rw [awaitMeans, hwait] at hrun
    exact awaitGo_goes hw hcan ⟨rfl, hc, fun _ _ => rfl⟩ hst k tags stay a.vb a.n hrun
  case skips =>
    obtain ⟨act, hrun, -⟩ := exec_awaitForms hcan ha hmay.here
    refine runsTo_advance hmay.here (hrun.trans (congrArg (fun a => Host.Outcome.next (after a s)) ?_))
    rw [awaitMeans]
    split
    · next h => exact absurd h (hwait _ _ _)
    · rw [gated_of_mayRun hmay, hg]
      rfl
  case start =>
    obtain ⟨-, hw, hst, -⟩ := issuer_spec hmay.here
    obtain ⟨act, hrun, hstarts⟩ := exec_awaitForms hcan ha hmay.here
    obtain ⟨hdir, u, hu, hcanu, hact⟩ := hstarts hgo
    have hmeans : awaitMeans s i f a.opnd { sr := a.reads } a.vb a.n act = act := by
      rw [awaitMeans]
      split
      · next h => exact absurd h (hwait _ _ _)
      · rw [gated_of_mayRun hmay, hg, if_neg (by simp), noRegion_of_none hreg]
    rw [hmeans, hact] at hrun
    refine ⟨hdir, awaitGo_goes (by rw [hdir]; exact hw) hcanu hu hst _ _ _ _ _ (hrun.trans ?_)⟩
    have hsame (v : State) (hv : OnlyDir s v) (k : Cond) (tags : DWord) (stay : Bool) (vb n : Nat) :
        awaitGo s i k tags stay vb n = awaitGo v i k tags stay vb n := by rw [hv]; cases k <;> rfl
    rw [awaitStart, hsame _ hdir]

end Sys2Proof.Machine


/-! # `rgrow` and `rshrink`, and the save that breaks their deadlock (03_registers R52, R53, 23_ref_sync_launch R378) -/

namespace Sys2Proof.Machine

/-- Marks of registers go, and nothing else. -/
theorem after_cutMarks (w n : Nat) (u : State) : ∃ l, after (cutMarks w n) u = { u with bad := l } ∧ ∀ y ∈ l, y ∈ u.bad := by
  unfold after cutMarks
  split
  · exact ⟨_, rfl, fun _ h => h⟩
  · exact ⟨_, rfl, fun _ h => (List.mem_filter.1 h).1⟩

/-- The warp of the issuing strand changes outside its strands, some marks go, and the strand goes on. -/
theorem runsTo_changed {s : State} {i : Iss} (hi : issuer s = some i) {F : Warp → Warp} (hF : (F i.warp).strands = i.warp.strands)
    {marks : Act} (hm : ∀ u, ∃ l, after marks u = { u with bad := l } ∧ ∀ y ∈ l, y ∈ u.bad) {o : Instr}
    (ho : exec o s = .next (after (andThen (updWarp i.w F) (andThen marks (advance i 1))) s)) :
    RunsTo s i (exec o s) 1 fun x => x = { F i.warp with strands := x.strands } := by
  obtain ⟨-, hw, hst, -⟩ := issuer_spec hi
  obtain ⟨l, hl, hsub⟩ := hm { s with warps := mIns s.warps i.w (F i.warp) }
  obtain ⟨x, hx, ex, hpast⟩ := after_advance (t := { s with warps := mIns s.warps i.w (F i.warp), bad := l }) (mLook_mIns_self ..)
    (unmoved_of_strands hst hF) 1
  rw [after_andThen, after_updWarp hw, after_andThen, hl, hx, mIns_mIns] at ho
  exact ⟨_, x, ho, ⟨rfl, mLook_mIns_self .., fun v hv => mLook_mIns_ne _ _ hv, fun _ _ => rfl, fun y hy => ⟨0, by simpa using hy⟩,
    fun _ => rfl, hsub⟩, hpast, ex⟩

theorem vR_cutRegs (n : Nat) (x : Warp) (r : Nat) {l : Nat} (hl : l < 32) : vR (cutRegs n x) r l = if n ≤ r then 0 else vR x r l := by
  rw [vR, cutRegs, mGet, mLook_filter_key x.v fun k => decide (k < 32 * n)]
  by_cases h : n ≤ r
  · rw [if_pos h, if_neg (by simp; omega)]; rfl
  · rw [if_neg h, if_pos (by simp; omega)]; rfl

theorem vR_of_cut {n : Nat} {x y : Warp} (hx : x.v = (cutRegs n y).v) (r : Nat) {l : Nat} (hl : l < 32) :
    vR x r l = if n ≤ r then 0 else vR y r l := by
  rw [← vR_cutRegs n y r hl, vR, hx, vR]

/-- A strand that waits for registers. -/
theorem rgrow_waits {s : State} {i : Iss} (hi : issuer s = some i) (n : Nat) {o : Instr}
    (ho : exec o s = .next (after (andThen (updWarp i.w fun x => { x with growTo := n }) (stall i 1)) s)) :
    ∃ t x, exec o s = .next t ∧ t = { s with warps := t.warps } ∧ mLook t.warps i.w = some x ∧
      (∀ v, v ≠ i.w → mLook t.warps v = mLook s.warps v) ∧ x = { i.warp with growTo := n, strands := x.strands } := by
  obtain ⟨-, hw, -⟩ := issuer_spec hi
  rw [after_andThen, after_updWarp hw, stall, stallOn, after_look, after_updStrand (mLook_mIns_self ..), mIns_mIns] at ho
  exact ⟨_, _, ho, rfl, mLook_mIns_self .., fun v hv => mLook_mIns_ne _ _ hv, onStrand_eq ..⟩

/-! ## The save of the youngest, and its restore -/

/-- A wake of one sub-core leaves it alone among the sleeping ones. -/
theorem after_wakeSub (core sub : Nat) (s : State) : ∃ m, after (wakeSubs core [sub]) s = { s with cores := m } ∧
    (∀ c, c ≠ core → mGet {} m c = coreOf s c) ∧
    (mGet {} m core).asleep = (coreOf s core).asleep.filter fun k => decide (k ≠ sub) := by
  have hfilter : ((coreOf s core).asleep.filter fun k => !([sub].contains k)) = (coreOf s core).asleep.filter fun k => decide (k ≠ sub) :=
    List.filter_congr fun k _ => by simp
  rw [wakeSubs, after_look]
  dsimp only
  split
  · next h =>
    refine ⟨s.cores, rfl, fun _ _ => rfl, ?_⟩
    rw [← hfilter, List.filter_eq_self.2 fun k hk => List.all_eq_true.1 h k hk]
    rfl
  · rw [after_updCore]
    refine ⟨_, rfl, fun c hc => ?_, ?_⟩
    · rw [mGet, mLook_mIns_ne _ _ hc]; rfl
    · rw [mGet, mLook_mIns_self]; exact hfilter

theorem deadlock_saves (s : State) (core sub w : Nat) (x : Warp) (e : Nat × Strand) (i : Iss) :
    let ws := residents s core sub
    s.Canonical → ws ≠ [] → (∀ y ∈ ws, growing y.2 = true ∧ mayGrow s y.1 y.2 y.2.growTo = false) → youngest ws = some (w, x) →
    mLook s.warps w = some x → drained s x w = true → x.strands.head? = some e → strandAt s w e.1 = some i →
    areaWritable s i.ctx i.ctx.save.toNat 4 = true →
    ∃ t, exec (.rgrowDeadlockSave core sub) s = .next t ∧
      t = { s with warps := t.warps, cores := t.cores, epoch := s.epoch + 1 } ∧
      mLook t.warps w = some { x with place := .regSaved, active := false } ∧
      (∀ v y, v ≠ w → mLook s.warps v = some y → y.heldStrands = [] → mLook t.warps v = some y) ∧
      (∀ c, c ≠ core → coreOf t c = coreOf s c) ∧
      (coreOf t core).asleep = (coreOf s core).asleep.filter fun k => decide (k ≠ sub) := by
  intro ws hcan hne hall hyoung hw hdrained hhead hat harea
  have hstuck : (ws.isEmpty || !ws.all fun e => growing e.2 && !mayGrow s e.1 e.2 e.2.growTo) = false := by
    rw [List.isEmpty_eq_false_iff.2 hne, List.all_eq_true.2 fun y hy => by rw [(hall y hy).1, (hall y hy).2]; rfl]
    rfl
  have hrun : exec (.rgrowDeadlockSave core sub) s = .next (after (andThen (updWarp w fun y => { y with place := .regSaved, active := false })
      (andThen (seatHeld core sub) bump)) (after (wakeSubs core [sub]) s)) := by
    change execRgrowDeadlockSave core sub s = _
    rw [execRgrowDeadlockSave, finish_eq]
    refine (congrArg (fun a => Host.Outcome.next (after a s)) ((if_neg ?_).trans ?_)).trans (congrArg Host.Outcome.next (after_andThen ..))
    · rw [hstuck]; exact Bool.false_ne_true
    · rw [hyoung]
      simp only [hdrained, hhead, hat, harea, Option.bind_some, Bool.not_true, Bool.false_eq_true, if_false]
  obtain ⟨m, hm, hothers, hself⟩ := after_wakeSub core sub s
  have hcan2 := after_canonical (after_canonical hcan (wakeSubs core [sub])) (updWarp w fun y => { y with place := .regSaved, active := false })
  rw [after_andThen, hm, after_updWarp (show mLook { s with cores := m }.warps w = some x from hw), after_andThen, after_bump] at hrun
  rw [hm, after_updWarp (show mLook { s with cores := m }.warps w = some x from hw)] at hcan2
  have hseat := seatHeld_seated hcan2 core sub
  have haway := mLook_seatHeld_away hcan2 core sub (mLook_mIns_self ..)
    (show ({ x with place := .regSaved, active := false } : Warp).place ≠ .resident by simp)
  generalize after (seatHeld core sub) _ = u at hrun hseat haway
  refine ⟨_, hrun, by rw [hseat.rest], haway, fun v y hv hy hn => ?_, fun c hc => ?_, ?_⟩
  · obtain ⟨z, hz, hyz⟩ := hseat.warp v y ((mLook_mIns_ne _ _ hv).trans hy)
    rw [← hyz.none hn]
    exact hz
  · rw [hseat.rest]; exact hothers c hc
  · rw [hseat.rest]; exact hself

theorem saved_restored (s : State) (w n : Nat) (x y : Warp) : mLook s.warps w = some x → x.place = .regSaved → blockHere s x.block = true →
    max x.alloc x.growTo ≤ openRegs s x.core x.sub → olderServed s x = false →
    (freeSlots s x.core x.sub ++ openSlots s x.core x.sub).head? = some n →
    reseat x (freeEntries s x.core x.sub) = some y →
    exec (.savedWarpRestore w) s = .next { s with
      warps := mIns s.warps w { y with place := .resident, slotNo := n, readySince := none }, epoch := s.epoch + 1 } := by
  intro hw hp hhere hroom holder hslot hseat
  change execSavedWarpRestore w s = _
  rw [execSavedWarpRestore, finish_eq, hw]
  simp only [hp, hhere, holder, hslot, hseat, decide_eq_false (Nat.not_lt.2 hroom), ne_eq, not_true_eq_false, decide_false, Bool.not_true,
    Bool.or_self, Bool.false_eq_true, if_false]
  rw [after_andThen, after_bump]
  rfl

/-- Settles O41. -/
theorem registerGrowthCompletes : Obligations.RegisterGrowthCompletes := by
  unfold Obligations.RegisterGrowthCompletes
  refine ⟨?change, deadlock_saves, saved_restored⟩
  case change =>
    intro f s i n hmay
    have hnone (u : State) : ∃ l, after skip u = { u with bad := l } ∧ ∀ y ∈ l, y ∈ u.bad := ⟨u.bad, rfl, fun _ h => h⟩
    refine ⟨fun hg hone => ⟨fun hle => ?kept, fun hlt hgrow => ?grown, fun hlt hgrow => ?waits, fun hpend hsort => ?shrunk⟩, fun hg o ho => ?skips⟩
    case kept =>
      refine runsTo_changed hmay.here (F := fun x => { x with growTo := 0 }) rfl hnone (atIssue_act hmay.here ?_)
      refine (gated_of_mayRun hmay _).trans ?_
      rw [hg, hone]
      exact (if_neg Bool.false_ne_true).trans ((if_neg Bool.false_ne_true).trans (if_pos hle))
    case grown =>
      have h := runsTo_changed (o := .rgrow f) hmay.here (F := fun x => { cutRegs x.alloc x with alloc := n, growTo := 0 }) rfl
        (after_cutMarks i.w i.warp.alloc) (atIssue_act hmay.here ((gated_of_mayRun hmay _).trans (by
          rw [hg, hone]
          exact (if_neg Bool.false_ne_true).trans ((if_neg Bool.false_ne_true).trans ((if_neg (Nat.not_le.2 hlt)).trans (if_pos hgrow))))))
      obtain ⟨t, x, ho, hframe, hpast, ex⟩ := h
      exact ⟨t, x, ho, hframe, hpast, ex, fun _ r l hl => vR_of_cut (by rw [ex]) r hl⟩
    case waits =>
      refine rgrow_waits hmay.here n (atIssue_act hmay.here ((gated_of_mayRun hmay _).trans ?_))
      rw [hg, hone]
      refine (if_neg Bool.false_ne_true).trans ((if_neg Bool.false_ne_true).trans ((if_neg (Nat.not_le.2 hlt)).trans (if_neg ?_)))
      rw [hgrow]; exact Bool.false_ne_true
    case shrunk =>
      by_cases hle : i.warp.alloc ≤ n
      · have h := runsTo_advance (o := .rshrink f) (n := 1) hmay.here (atIssue_act hmay.here ((gated_of_mayRun hmay _).trans (by
            rw [hg, hone]
            exact (if_neg Bool.false_ne_true).trans ((if_neg Bool.false_ne_true).trans (if_pos hle)))))
        obtain ⟨t, x, ho, hframe, hpast, ex⟩ := h
        refine ⟨t, x, ho, hframe, hpast, ?_, fun r l _ => ?_⟩
        · rw [if_neg (Nat.not_lt.2 hle), Nat.min_eq_right hle]; exact ex
        · rw [if_neg fun h => Nat.not_lt.2 hle h.2, ex]; rfl
      · have hlt := Nat.not_le.1 hle
        have hfree : ((spanRegs n (i.warp.alloc - n)).any fun r => decide (pendingV s i.w r ≠ 0)) = false :=
          List.any_eq_false.2 fun r hr h => of_decide_eq_true h (of_decide_eq_true (List.all_eq_true.1 (hpend.resolve_left hle) r hr))
        have h := runsTo_changed (o := .rshrink f) hmay.here (F := fun x => { cutRegs n x with alloc := n }) rfl
          (after_cutMarks i.w n) (atIssue_act hmay.here ((gated_of_mayRun hmay _).trans (by
            rw [hg, hone]
            refine (if_neg Bool.false_ne_true).trans ((if_neg Bool.false_ne_true).trans ((if_neg hle).trans (if_neg ?_)))
            rw [hfree]; exact Bool.false_ne_true)))
        obtain ⟨t, x, ho, hframe, hpast, ex⟩ := h
        refine ⟨t, x, ho, hframe, hpast, ?_, fun r l hl => ?_⟩
        · rw [if_pos hlt, Nat.min_eq_left (Nat.le_of_lt hlt)]; exact ex
        · rw [vR_of_cut (y := i.warp) (by rw [ex]) r hl]
          exact ite_of_iff (and_iff_left hlt).symm
    case skips =>
      have key {o : Instr} {a : Iss → Act} (ho : exec o s = atIssue s fun i => gated s i (chkAll true (growOk f)) {} 0
          (if !guardScalar i f.gp f.gn then advance i 1 else a i)) : RunsTo s i (exec o s) 1 fun x => x = { i.warp with strands := x.strands } :=
        runsTo_advance hmay.here (ho.trans (atIssue_act hmay.here ((gated_of_mayRun hmay _).trans (by rw [hg]; rfl))))
      simp only [List.mem_cons, List.not_mem_nil, or_false] at ho
      rcases ho with rfl | rfl
      · exact key rfl
      · exact key rfl

end Sys2Proof.Machine


/-! # Hardware queues: pushes and pops (22_scheduling R358 to R360, 23_ref_sync_launch R374, R375) -/

namespace Sys2Proof.Machine

/-! ## One warp changes and its strand goes on -/

/-- `t` is `u` but that warp `i.w` stands as `y`, which is `y0` with its strand `n` slots further; some marks may be gone. -/
structure StepsOn (u t : State) (i : Iss) (n : Nat) (y0 y : Warp) : Prop where
  rest : t = { u with warps := t.warps, bad := t.bad, epoch := t.epoch }
  self : mLook t.warps i.w = some y
  warps : ∀ v, v ≠ i.w → mLook t.warps v = mLook u.warps v
  bad : ∀ e ∈ t.bad, e ∈ u.bad
  warp : y = { y0 with strands := y.strands }
  past : Past i n y

theorem WarpStep.stepsOn {u t : State} {i : Iss} {y0 : Warp} (h : WarpStep u t i.w y0) (hm : Unmoved i y0) (n : Nat) :
    ∃ y, StepsOn u (after (advance i n) t) i n y0 y := by
  obtain ⟨y, hy, ey, hpast⟩ := after_advance h.self hm n
  rw [hy]
  exact ⟨y, by rw [h.rest], mLook_mIns_self .., fun v hv => (mLook_mIns_ne _ _ hv).trans (h.warps v hv), h.bad, ey, hpast⟩

theorem StepsOn.frame {s t : State} {i : Iss} {n : Nat} {y0 y : Warp} (h : StepsOn s t i n y0 y) : RegisterFrame s t i.w i.warp.block y :=
  ⟨by rw [h.rest], h.self, h.warps, fun c _ => by rw [h.rest], fun y hy => ⟨0, by rw [h.rest]; simpa using hy⟩,
    fun c => by rw [coreOf, h.rest]; rfl, h.bad⟩

/-! ## The words of an entry go to a lane -/

/-- The registers, lanes and words of a delivery. -/
def entryCells (d : Nat) (ls : List Nat) (es : List (Nat × List Word)) : List (Nat × Nat × Word) :=
  (List.zip ls es).flatMap fun p => (List.range 4).map fun j => (d + j, p.1, p.2.2.getD j 0)

theorem takeEntries_cells (d : Nat) (ls : List Nat) (es : List (Nat × List Word)) (x : Warp) :
    takeEntries d ls es x = (entryCells d ls es).foldl (fun y c => setV y c.1 c.2.1 c.2.2) x := by
  rw [entryCells, List.foldl_flatMap, takeEntries]
  simp only [List.foldl_map]

theorem takeEntries_eq (d : Nat) (ls : List Nat) (es : List (Nat × List Word)) (x : Warp) :
    takeEntries d ls es x = { x with v := (takeEntries d ls es x).v } := by
  rw [takeEntries_cells]
  exact foldl_setV_v (fun c : Nat × Nat × Word => c.1) (·.2.1) (·.2.2) _ x

theorem mem_zip_nodup {α : Type} {ls : List Nat} (hn : ls.Nodup) {es : List α} {j l : Nat} {e : α} (hl : ls[j]? = some l)
    (he : es[j]? = some e) {p : Nat × α} (hp : p ∈ List.zip ls es) (hpl : p.1 = l) : p.2 = e := by
  obtain ⟨k, hk⟩ := List.mem_iff_getElem?.1 hp
  obtain ⟨h1, h2⟩ := List.getElem?_zip_eq_some.1 hk
  have hkj : k = j := by
    obtain ⟨hklt, -⟩ := List.getElem?_eq_some_iff.1 h1
    exact (List.getElem?_inj hklt hn).1 (by rw [h1, hl, hpl])
  subst hkj
  exact Option.some.inj (h2.symm.trans he)

theorem takeEntries_takes {ls : List Nat} (hn : ls.Nodup) (hlt : ∀ l ∈ ls, l < 32) (d : Nat) (es : List (Nat × List Word)) (x : Warp) :
    TakesEntries x (takeEntries d ls es x) d ls es := by
  have hv (r l : Nat) : vR (takeEntries d ls es x) r l =
      mGet 0 ((entryCells d ls es).foldl (fun m c => mPut 0 m (32 * c.1 + c.2.1) c.2.2) x.v) (32 * r + l) := by
    rw [takeEntries_cells, foldl_setV_eq (fun c : Nat × Nat × Word => c.1) (·.2.1) (·.2.2), vR]
  have hcell {c : Nat × Nat × Word} (hc : c ∈ entryCells d ls es) : ∃ p ∈ List.zip ls es, ∃ j < 4, c = (d + j, p.1, p.2.2.getD j 0) := by
    obtain ⟨p, hp, hc⟩ := List.mem_flatMap.1 hc
    obtain ⟨j, hj, rfl⟩ := List.mem_map.1 hc
    exact ⟨p, hp, j, List.mem_range.1 hj, rfl⟩
  have hlane {p : Nat × Nat × List Word} (hp : p ∈ List.zip ls es) : p.1 < 32 := hlt _ (List.of_mem_zip hp).1
  refine ⟨fun j l e hl he k hk => ?_, fun r l hl hout => ?_⟩
  · rw [hv]
    have hlen : l < 32 := hlt l (List.mem_of_getElem? hl)
    have hmem : (l, e) ∈ List.zip ls es := List.mem_iff_getElem?.2 ⟨j, List.getElem?_zip_eq_some.2 ⟨hl, he⟩⟩
    refine mGet_foldl_mPut_of_mem (0 : Word) (fun c : Nat × Nat × Word => 32 * c.1 + c.2.1) (·.2.2) _ _
      ⟨(d + k, l, e.2.getD k 0), List.mem_flatMap.2 ⟨(l, e), hmem, List.mem_map.2 ⟨k, List.mem_range.2 hk, rfl⟩⟩, rfl⟩ fun c hc hkey => ?_
    obtain ⟨p, hp, m, hm, rfl⟩ := hcell hc
    have hpl := hlane hp
    replace hkey : 32 * (d + m) + p.1 = 32 * (d + k) + l := hkey
    obtain ⟨rfl, hpe⟩ : m = k ∧ p.1 = l := by omega
    exact congrArg (fun a : Nat × List Word => a.2.getD m 0) (mem_zip_nodup hn hl he hp hpe)
  · rw [hv]
    refine mGet_foldl_mPut_ne (0 : Word) (fun c : Nat × Nat × Word => 32 * c.1 + c.2.1) (·.2.2) _ _ fun c hc hkey => ?_
    obtain ⟨p, hp, m, hm, rfl⟩ := hcell hc
    have hpl := hlane hp
    replace hkey : 32 * (d + m) + p.1 = 32 * r + l := hkey
    obtain ⟨rfl, rfl⟩ : d + m = r ∧ p.1 = l := by omega
    rcases hout with h | h
    · exact h (List.mem_map.2 ⟨m, List.mem_range.2 hm, rfl⟩)
    · obtain ⟨n, hn'⟩ := List.mem_iff_getElem?.1 hp
      obtain ⟨h1, h2⟩ := List.getElem?_zip_eq_some.1 hn'
      obtain ⟨hlen, -⟩ := List.getElem?_eq_some_iff.1 h2
      exact h (List.mem_iff_getElem?.2 ⟨n, by rw [List.getElem?_take, if_pos hlen]; exact h1⟩)

/-- The lanes of a list, one by one. -/
theorem hasLane_foldl (ls : List Nat) (hls : ∀ l ∈ ls, l < 32) (m : Mask) (j : Nat) :
    hasLane (ls.foldl (fun m l => m ||| laneBit l) m) j = (hasLane m j || decide (j ∈ ls)) := by
  induction ls generalizing m with
  | nil => simp
  | cons l ls ih =>
    rw [List.foldl_cons, ih fun k hk => hls k (List.mem_cons_of_mem _ hk), hasLane_or, hasLane_laneBit (hls l List.mem_cons_self),
      Bool.or_assoc]
    simp [Bool.decide_or]

theorem hasLane_lanes {ls : List Nat} (hls : ∀ l ∈ ls, l < 32) (j : Nat) :
    hasLane (ls.foldl (fun m l => m ||| laneBit l) (0 : Mask)) j = decide (j ∈ ls) :=
  (hasLane_foldl ls hls 0 j).trans ((congrArg (· || _) (hasLane_zero j)).trans (Bool.false_or _))

/-! ## Pushes -/

theorem spillEntries_only (q : Nat) (es : List (Nat × List Word)) (s : State) : Only [.mem, .bad] s (after (spillEntries q es) s) :=
  only_of_each (each_look fun _ => by
    split
    · exact each_skip
    · split
      · exact each_skip
      · exact each_forAll fun _ => each_writeVirt (by simp [Effect.table]) (by simp [Effect.table])) s

theorem bad_writes {α : Type} (c : Context) (va : α → Nat) (bs : α → List Byte) (l : List α) (s : State) :
    ∀ y ∈ (after (forAll (fun e => writeVirt c (va e) (bs e)) l) s).bad, y ∈ s.bad := by
  induction l generalizing s with
  | nil => exact fun _ h => h
  | cons e l ih =>
    rw [after_forAll_cons]
    exact fun y hy => bad_writeVirt c _ _ s y (ih _ y hy)

theorem spillEntries_bad (q : Nat) (es : List (Nat × List Word)) (s : State) : ∀ y ∈ (after (spillEntries q es) s).bad, y ∈ s.bad := by
  rw [spillEntries, after_look]
  split
  · exact fun _ h => h
  · split
    · exact fun _ h => h
    · next x _ c _ => exact bad_writes c _ _ _ s

/-- No pop waits, and none is fed. -/
theorem feed_none {t : State} {q : Nat} (h : getters t q = []) : after (look fun s => feedQueue q ((getters s q).length + 1)) t = t := by
  rw [after_look, feedQueue, after_look, h]
  rfl

/-- A push with no pop waiting: what it spills, and the queue. -/
theorem after_pushEntries {s : State} {q : Nat} {x : Queue} (hx : mLook s.queues q = some x) (hg : getters s q = []) (es : List (List Word)) :
    after (pushEntries q es) s =
      { after (spillEntries q (numbered x es)) s with queues := mIns s.queues q (pushed x es) } := by
  have honly := (spillEntries_only q (numbered x es) s).eq
  rw [pushEntries, after_andThen, after_andThen, show after (look _) s = after (spillEntries q (numbered x es)) s by rw [after_look, hx]]
  generalize after (spillEntries q (numbered x es)) s = u at honly ⊢
  simp at honly
  rw [after_updQueue (x := x) (by rw [honly]; exact hx)]
  refine (feed_none ?_).trans ?_
  · rw [honly]; exact hg
  · rw [honly]; rfl

/-! ## The predicates of the lanes -/

section
variable {u t : State} {i : Iss} {y : Warp} (h : WarpStep u t i.w y) (hp : y.p = i.warp.p)
include h hp

theorem WarpStep.writePreds (f : MFields) (g m : Mask) :
    ∃ x, WarpStep u (after (writePreds i f g m) t) i.w x ∧ x = { y with p := x.p } ∧
      if queueNb f then PredWrite i g (queuePred f) (hasLane m) x else x.p = i.warp.p := by
  rw [Machine.writePreds]
  cases queueNb f with
  | false => exact ⟨y, h, rfl, hp⟩
  | true =>
    refine ⟨_, h.updWarp _, foldl_setP_eq .., fun k l hl => ?_⟩
    rw [pR_foldl_setP _ (fun j hj => (mem_lanesIn.1 hj).1) _ _ _ _ hl, pR_congr hp]
    simp only [mem_lanesIn, hl, true_and]
end

/-! ## `qput` -/

/-- A push with its predicates, past its checks. -/
def pushAct (f : MFields) (i : Iss) (q : Nat) : Act :=
  andThen (pushEntries q ((lanesIn (guardMask i f.gp f.gn)).map (laneEntry i f.d.toNat))) <|
  andThen (writePreds i f (guardMask i f.gp f.gn) (guardMask i f.gp f.gn)) <|
  andThen (if queueNb f then wrote i { queueUses f with vr := spanRegs f.d.toNat 4 } (guardMask i f.gp f.gn) else skip) (advance i 1)

/-- The lanes' predicates are written, noted, and the strand goes on. -/
theorem predicates_end {u : State} {i : Iss} (hw : mLook u.warps i.w = some i.warp) (hst : mLook i.warp.strands i.k = some i.st)
    (f : MFields) (g m : Mask) (v : Uses) : ∃ y0 y,
      StepsOn u (after (andThen (writePreds i f g m) (andThen (if queueNb f then wrote i v g else skip) (advance i 1))) u) i 1 y0 y ∧
      y = { i.warp with p := y.p, regions := y.regions, strands := y.strands } ∧
      if queueNb f then PredWrite i g (queuePred f) (hasLane m) y else y.p = i.warp.p := by
  obtain ⟨x, hx, ex, hp⟩ := (WarpStep.refl hw).writePreds rfl f g m
  have hm : Unmoved i x := unmoved_of_strands hst (by rw [ex])
  obtain ⟨z, hz, ez, hmz⟩ : ∃ z, WarpStep u (after (if queueNb f then wrote i v g else skip) (after (writePreds i f g m) u)) i.w z ∧
      z = { x with strands := z.strands } ∧ Unmoved i z := by
    split
    · exact hx.wrote_unmoved hm v g
    · exact ⟨x, hx, rfl, hm⟩
  obtain ⟨y, hy⟩ := hz.stepsOn hmz 1
  have hyp : y.p = x.p := by rw [hy.warp, ez]
  refine ⟨z, y, by rw [after_andThen, after_andThen]; exact hy, ?_, ?_⟩
  · rw [hy.warp, ez, ex]
  · by_cases hq : queueNb f = true
    all_goals simp only [hq, if_true] at hp ⊢
    · exact fun k l hl => (pR_congr hyp k l).trans (hp k l hl)
    · exact hyp.trans hp

/-- `t` is `s` but for what a queue instruction changes, with the queue as `z` and the ids as they were in `u`. -/
theorem queueFrame_of {s u t : State} {i : Iss} {q n : Nat} {y0 y : Warp} {z : Option Queue} {spill : Act}
    (hu : u = { s with mem := u.mem, queues := u.queues, nextId := u.nextId, bad := u.bad, epoch := u.epoch })
    (hmem : u.mem = (after spill s).mem) (hz : mLook u.queues q = z) (hq : ∀ k, k ≠ q → mLook u.queues k = mLook s.queues k)
    (hbad : ∀ e ∈ u.bad, e ∈ s.bad) (h : StepsOn u t i n y0 y) : QueueFrame s t i q y z spill ∧ t.nextId = u.nextId := by
  refine ⟨⟨?_, ?_, h.self, fun v hv => (h.warps v hv).trans (by rw [hu]), ?_, fun k hk => ?_, fun e he => hbad e (h.bad e he)⟩, ?_⟩
  · rw [h.rest, hu]
  · rw [h.rest]; exact hmem
  · rw [h.rest]; exact hz
  · rw [h.rest]; exact hq k hk
  · rw [h.rest]

theorem predWrite_congr {i : Iss} {g : Mask} {n : Nat} {b c : Nat → Bool} (h : ∀ l, l < 32 → hasLane g l = true → b l = c l) {x : Warp}
    (hx : PredWrite i g n b x) : PredWrite i g n c x := fun m l hl => by
  rw [hx m l hl]
  by_cases hm : m = n ∧ hasLane g l = true ∧ n ≠ 7
  · rw [if_pos hm, if_pos hm, h l hl hm.2.1]
  · rw [if_neg hm, if_neg hm]

/-- What a push leaves. -/
theorem push_ends {s : State} {i : Iss} {q : Nat} {x : Queue} (hw : mLook s.warps i.w = some i.warp)
    (hst : mLook i.warp.strands i.k = some i.st) (hx : mLook s.queues q = some x) (hg : getters s q = []) (f : MFields) :
    let es := (lanesIn (guardMask i f.gp f.gn)).map (laneEntry i f.d.toNat)
    ∃ y, QueueFrame s (after (pushAct f i q) s) i q y (some (pushed x es)) (spillEntries q (numbered x es)) ∧
      (after (pushAct f i q) s).nextId = s.nextId ∧ Past i 1 y ∧
      y = { i.warp with p := y.p, regions := y.regions, strands := y.strands } ∧
      if queueNb f then PredWrite i (guardMask i f.gp f.gn) (queuePred f) (fun _ => true) y else y.p = i.warp.p := by
  intro es
  have honly := (spillEntries_only q (numbered x es) s).eq
  have hbad := spillEntries_bad q (numbered x es) s
  have hact : after (pushAct f i q) s = after (andThen (writePreds i f (guardMask i f.gp f.gn) (guardMask i f.gp f.gn))
      (andThen (if queueNb f then wrote i { queueUses f with vr := spanRegs f.d.toNat 4 } (guardMask i f.gp f.gn) else skip) (advance i 1)))
      { after (spillEntries q (numbered x es)) s with queues := mIns s.queues q (pushed x es) } := by
    rw [pushAct, after_andThen, after_pushEntries hx hg]
  obtain ⟨v, hv⟩ : ∃ v, after (spillEntries q (numbered x es)) s = v := ⟨_, rfl⟩
  rw [hv] at honly hbad hact
  obtain ⟨u, hu⟩ : ∃ u, { v with queues := mIns s.queues q (pushed x es) } = u := ⟨_, rfl⟩
  rw [hu] at hact
  simp at honly
  have hwu : mLook u.warps i.w = some i.warp := by rw [← hu, honly]; exact hw
  obtain ⟨y0, y, hy, ey, hpred⟩ := predicates_end hwu hst f (guardMask i f.gp f.gn) (guardMask i f.gp f.gn)
    { queueUses f with vr := spanRegs f.d.toNat 4 }
  rw [← hact] at hy
  obtain ⟨hframe, hid⟩ := queueFrame_of (s := s) (q := q) (z := some (pushed x es)) (spill := spillEntries q (numbered x es))
    (by rw [← hu, honly]) (by rw [hv, ← hu]) (by rw [← hu]; exact mLook_mIns_self ..)
    (fun k hk => by rw [← hu]; exact mLook_mIns_ne _ _ hk) (by rw [← hu]; exact hbad) hy
  refine ⟨y, hframe, hid.trans (by rw [← hu, honly]), hy.past, ey, ?_⟩
  by_cases hq : queueNb f = true
  all_goals simp only [hq, if_true] at hpred ⊢
  · exact predWrite_congr (fun l _ hl => hl) hpred
  · exact hpred

/-! ## Pops -/

/-- What a delivery leaves. -/
theorem deliver_ends {u : State} {i : Iss} (hw : mLook u.warps i.w = some i.warp) (hst : mLook i.warp.strands i.k = some i.st)
    (f : MFields) (v : Uses) (g : Mask) (es : List (Nat × List Word)) : ∃ y0 y,
      StepsOn u (after (deliverEntries i f v g es) u) i 1 y0 y ∧
      y = { i.warp with v := y.v, p := y.p, regions := y.regions, strands := y.strands } ∧
      (if queueNb f then PredWrite i g (queuePred f) (fun l => decide (l ∈ (lanesIn g).take es.length)) y else y.p = i.warp.p) ∧
      TakesEntries i.warp y f.d.toNat (lanesIn g) es := by
  let ls := (lanesIn g).take es.length
  let m := ls.foldl (fun m l => m ||| laneBit l) (0 : Mask)
  have hls : ∀ l ∈ lanesIn g, l < 32 := fun l hl => (mem_lanesIn.1 hl).1
  have htake := takeEntries_takes (lanesIn_nodup g) hls f.d.toNat es i.warp
  have heq := takeEntries_eq f.d.toNat (lanesIn g) es i.warp
  obtain ⟨x, hx, ex, hp⟩ := ((WarpStep.refl hw).updWarp (takeEntries f.d.toNat (lanesIn g) es)).writePreds (by rw [heq]) f g m
  have hm : Unmoved i x := unmoved_of_strands hst (by rw [ex, heq])
  have hact : after (deliverEntries i f v g es) u = after (advance i 1) (after (if queueNb f then
      andThen (wrote i { v with vw := [] } g) (wrote i { v with pw := [] } m) else wrote i v m)
        (after (writePreds i f g m) (after (updWarp i.w (takeEntries f.d.toNat (lanesIn g) es)) u))) := by
    simp only [deliverEntries, after_andThen]
    rfl
  obtain ⟨z, hz, ez, hmz⟩ : ∃ z, WarpStep u (after (if queueNb f then andThen (wrote i { v with vw := [] } g) (wrote i { v with pw := [] } m)
      else wrote i v m) (after (writePreds i f g m) (after (updWarp i.w (takeEntries f.d.toNat (lanesIn g) es)) u))) i.w z ∧
      z = { x with strands := z.strands } ∧ Unmoved i z := by
    split
    · obtain ⟨z1, hz1, ez1, hm1⟩ := hx.wrote_unmoved hm { v with vw := [] } g
      obtain ⟨z2, hz2, ez2, hm2⟩ := hz1.wrote_unmoved hm1 { v with pw := [] } m
      exact ⟨z2, by rw [after_andThen]; exact hz2, by rw [ez2, ez1], hm2⟩
    · exact hx.wrote_unmoved hm v m
  obtain ⟨y, hy⟩ := hz.stepsOn hmz 1
  rw [← hact] at hy
  have hyp : y.p = x.p := by rw [hy.warp, ez]
  have hyv : y.v = (takeEntries f.d.toNat (lanesIn g) es i.warp).v := by rw [hy.warp, ez, ex]
  have hr (r l : Nat) : vR y r l = vR (takeEntries f.d.toNat (lanesIn g) es i.warp) r l := by rw [vR, hyv, vR]
  refine ⟨z, y, hy, ?_, ?_, ⟨fun j l e hl he k hk => ?_, fun r l hl hout => ?_⟩⟩
  · rw [hy.warp, ez, ex, heq]
  · by_cases hq : queueNb f = true
    all_goals simp only [hq, if_true] at hp ⊢
    · refine fun k l hl => (pR_congr hyp k l).trans (predWrite_congr (c := fun l => decide (l ∈ (lanesIn g).take es.length)) (fun j hj _ => ?_) hp k l hl)
      exact hasLane_lanes (fun l hl => hls l (List.mem_of_mem_take hl)) j
    · exact hyp.trans hp
  · exact (hr _ _).trans (htake.1 j l e hl he k hk)
  · exact (hr _ _).trans (htake.2 r l hl hout)

/-! ## Requests that wait -/

/-- A strand that waits at a queue with the next id, in the state `u` that the instruction has left. -/
theorem after_request {u : State} {i : Iss} (hw : mLook u.warps i.w = some i.warp) (hst : mLook i.warp.strands i.k = some i.st)
    (n : Nat) (x : Wait) : ∃ y, after (andThen (eff (.ids n)) (andThen (waitWith i x) bump)) u =
        { u with warps := mIns u.warps i.w y, nextId := n, epoch := u.epoch + 1 } ∧
      y = { i.warp with strands := y.strands } ∧ mLook y.strands i.k = some { i.st with idleAt := u.epoch, wait := x } := by
  refine ⟨_, ?_, onStrand_eq i.k (fun y => { y with idleAt := u.epoch, wait := x }) i.warp, onStrand_here hst⟩
  rw [after_andThen, after_andThen, after_bump, after_eff, applyEffect, after_waitWith (x := i.warp) (by exact hw)]

theorem look_of_ownQueue {s : State} {i : Iss} {q : Nat} {x : Queue} (h : ownQueue s i q = some x) :
    mLook s.queues (queueKey i q) = some x := (Option.filter_eq_some_iff.1 h).1

section
variable {s : State} {i : Iss} {f : MFields}

theorem exec_qput (hmay : MayRun s i (chkAll true (queueOpnd i f)) { queueUses f with vr := spanRegs f.d.toNat 4 } (guardMask i f.gp f.gn))
    (hwait : ∀ p a, i.st.wait ≠ .putting p a) : exec (.qput f) s = .next (after (
      if guardMask i f.gp f.gn = 0 then advance i 1
      else noRegion i (guardMask i f.gp f.gn) 0 <|
        match ownQueue s i (queueNo i f) with
        | none => trapLanes i .prot (guardMask i f.gp f.gn) 0 0
        | some x =>
          if !quiet s i.w (guardMask i f.gp f.gn) then stall i 4
          else if (putters s (queueKey i (queueNo i f))).isEmpty && queueRoom s i.ctx x (laneCount (guardMask i f.gp f.gn)) then
            pushAct f i (queueKey i (queueNo i f))
          else if queueNb f then andThen (writePreds i f (guardMask i f.gp f.gn) 0)
            (andThen (wrote i { queueUses f with vr := spanRegs f.d.toNat 4 } (guardMask i f.gp f.gn)) (advance i 1))
          else andThen (eff (.ids (s.nextId + 1))) (andThen (waitWith i (.putting (queueKey i (queueNo i f)) s.nextId)) bump)) s) :=
  atIssue_act hmay.here (by
    rw [qputMeans]
    split
    · next p a h => exact absurd h (hwait p a)
    · exact gated_of_mayRun hmay _)

theorem exec_qget (hmay : MayRun s i (chkAll true (queueOpnd i f)) { queueUses f with vw := spanRegs f.d.toNat 4 } (guardMask i f.gp f.gn))
    (hwait : ∀ p a m o l, i.st.wait ≠ .getting p a m o l) : exec (.qget f) s = .next (after (
      if guardMask i f.gp f.gn = 0 then advance i 1
      else noRegion i (guardMask i f.gp f.gn) 0 <|
        match ownQueue s i (queueNo i f) with
        | none => trapLanes i .prot (guardMask i f.gp f.gn) 0 0
        | some x =>
          let q := queueKey i (queueNo i f)
          let n := laneCount (guardMask i f.gp f.gn)
          let ready := if (getters s q).isEmpty then x.entries else []
          let take := andThen (eff (.queue q (dropEntries s (min n ready.length) x))) bump
          if queueNb f || decide (n ≤ ready.length) then andThen take
            (deliverEntries i f { queueUses f with vw := spanRegs f.d.toNat 4 } (guardMask i f.gp f.gn) (ready.take n))
          else andThen take (andThen (eff (.ids (s.nextId + 1))) (andThen (waitWith i (.getting q s.nextId n false ready)) bump))) s) :=
  atIssue_act hmay.here (by
    rw [qgetMeans]
    split
    · next p a m o l h => exact absurd h (hwait p a m o l)
    · exact gated_of_mayRun hmay _)
end

/-- Settles O42: pushes and pops come to `pushEntries` and `deliverEntries`, at issue and when they are served. -/
theorem queueInstructionsComplete : Obligations.QueueInstructionsComplete := by
  unfold Obligations.QueueInstructionsComplete
  intro f s i x g q n nb es preds pushed popped
  have hno (h : putters s q ≠ [] ∨ queueRoom s i.ctx x n = false) : ¬((putters s q).isEmpty && queueRoom s i.ctx x n) = true := by
    rw [Bool.and_eq_true, List.isEmpty_iff]
    rintro ⟨h1, h2⟩
    rcases h with h | h
    · exact h h1
    · exact Bool.noConfusion (h.symm.trans h2)
  refine ⟨fun hmay hwait => ⟨fun hg => ?putNone, fun hg hreg hown hquiet => ⟨fun hput hroom hget => ?push, fun hfull => ⟨fun hnb => ?full, fun hnb => ?putWaits⟩⟩⟩,
    fun hmay hwait => ⟨fun hg => ?getNone, fun hg hreg hown hget => ⟨fun hready => ?pop, fun hnb hfew => ?getWaits⟩⟩,
    fun hat => ⟨fun p a hinstr hwait hx hfirst hroom hget => ?served, fun p a m once got hinstr hwait hdone => ?delivered⟩⟩
  case putNone => exact runsTo_advance hmay.here ((exec_qput hmay hwait).trans (by rw [if_pos hg]))
  case getNone => exact runsTo_advance hmay.here ((exec_qget hmay hwait).trans (by rw [if_pos hg]))
  case push =>
    obtain ⟨-, hw, hst, -⟩ := issuer_spec hmay.here
    obtain ⟨y, hy⟩ := push_ends hw hst (look_of_ownQueue hown) hget f
    have hgo : ((putters s q).isEmpty && queueRoom s i.ctx x n) = true := by rw [hput, hroom]; rfl
    refine ⟨_, y, (exec_qput hmay hwait).trans ?_, hy⟩
    rw [if_neg hg, noRegion_of_none hreg, hown, hquiet]
    exact congrArg (fun a => Host.Outcome.next (after a s)) (if_pos hgo)
  case full =>
    obtain ⟨-, hw, hst, -⟩ := issuer_spec hmay.here
    obtain ⟨y0, y, hy, ey, hp⟩ := predicates_end hw hst f g 0 { queueUses f with vr := spanRegs f.d.toNat 4 }
    have hnb' : queueNb f = true := hnb
    rw [hnb', if_pos rfl] at hy
    rw [hnb', if_pos rfl] at hp
    refine ⟨_, y, (exec_qput hmay hwait).trans ?_, hy.frame, hy.past, ey, predWrite_congr (fun l _ _ => hasLane_zero l) hp⟩
    rw [if_neg hg, noRegion_of_none hreg, hown, hquiet]
    exact congrArg (fun a => Host.Outcome.next (after a s)) ((if_neg (hno hfull)).trans (if_pos hnb'))
  case putWaits =>
    obtain ⟨-, hw, hst, -⟩ := issuer_spec hmay.here
    obtain ⟨y, hy, ey, hstrand⟩ := after_request hw hst (s.nextId + 1) (.putting q s.nextId)
    have hrun := exec_qput hmay hwait
    have hact (a b c : Act) : (if ((putters s q).isEmpty && queueRoom s i.ctx x n) = true then a else if queueNb f = true then b else c) = c :=
      (if_neg (hno hfull)).trans (if_neg (by rw [show queueNb f = false from hnb]; exact Bool.false_ne_true))
    rw [if_neg hg, noRegion_of_none hreg, hown, hquiet] at hrun
    replace hrun := hrun.trans (congrArg (fun a => Host.Outcome.next (after a s)) (hact _ _ _))
    rw [hy] at hrun
    exact ⟨_, y, hrun, ⟨rfl, rfl, mLook_mIns_self .., fun v hv => mLook_mIns_ne _ _ hv, look_of_ownQueue hown, fun _ _ => rfl,
      fun _ h => h⟩, rfl, ey, hstrand⟩
  case pop =>
    obtain ⟨-, hw, hst, -⟩ := issuer_spec hmay.here
    have hqs (k : Nat) (hk : k ≠ q) (z : Queue) : mLook (mIns s.queues q z) k = mLook s.queues k := mLook_mIns_ne _ _ hk
    let u : State := { s with queues := mIns s.queues q (dropEntries s (min n x.entries.length) x), epoch := s.epoch + 1 }
    obtain ⟨y0, y, hy, ey, hp, htakes⟩ := deliver_ends (u := u) hw hst f { queueUses f with vw := spanRegs f.d.toNat 4 } g (x.entries.take n)
    obtain ⟨hframe, hid⟩ := queueFrame_of (s := s) (u := u) (q := q) (z := some (dropEntries s (min n x.entries.length) x))
      (spill := skip) rfl rfl (mLook_mIns_self ..) (fun k hk => hqs k hk _) (fun _ h => h) hy
    refine ⟨_, y, (exec_qget hmay hwait).trans ?_, hframe, hid, hy.past, ey, hp, htakes⟩
    have hgo : (queueNb f || decide (n ≤ x.entries.length)) = true := by rw [Bool.or_eq_true, decide_eq_true_eq]; exact hready
    rw [if_neg hg, noRegion_of_none hreg, hown]
    dsimp only
    rw [show getters s (queueKey i (queueNo i f)) = [] from hget]
    refine congrArg Host.Outcome.next ((congrArg (fun a => after a s) (if_pos hgo)).trans (after_andThen ..))
  case getWaits =>
    obtain ⟨-, hw, hst, -⟩ := issuer_spec hmay.here
    let u : State := { s with queues := mIns s.queues q (dropEntries s (min n x.entries.length) x), epoch := s.epoch + 1 }
    obtain ⟨y, hy, ey, hstrand⟩ := after_request (u := u) hw hst (s.nextId + 1) (.getting q s.nextId n false x.entries)
    have hdrop : dropEntries s (min n x.entries.length) x = { x with entries := [] } := by
      rw [dropEntries, Nat.min_eq_right (Nat.le_of_lt hfew), List.drop_length]
      rfl
    have hstay : ¬(queueNb f || decide (n ≤ x.entries.length)) = true := by
      rw [Bool.or_eq_true, decide_eq_true_eq, show queueNb f = false from hnb]
      rintro (h | h)
      · exact Bool.noConfusion h
      · exact Nat.not_le.2 hfew h
    have hrun : exec (.qget f) s = .next (after (andThen (eff (.ids (s.nextId + 1)))
        (andThen (waitWith i (.getting q s.nextId n false x.entries)) bump)) u) := by
      refine (exec_qget hmay hwait).trans ?_
      rw [if_neg hg, noRegion_of_none hreg, hown]
      dsimp only
      rw [show getters s (queueKey i (queueNo i f)) = [] from hget]
      refine congrArg Host.Outcome.next ((congrArg (fun a => after a s) (if_neg hstay)).trans (after_andThen ..))
    rw [hy] at hrun
    exact ⟨_, y, hrun, ⟨rfl, rfl, mLook_mIns_self .., fun v hv => mLook_mIns_ne _ _ hv, by rw [← hdrop]; exact mLook_mIns_self ..,
      fun k hk => mLook_mIns_ne _ _ hk, fun _ h => h⟩, rfl, ey, _, hstrand, rfl⟩
  case served =>
    obtain ⟨-, -, hw, hst, -⟩ := issAt_spec (issAt_of_strandAt hat)
    obtain ⟨y, hy⟩ := push_ends hw hst hx hget f
    refine ⟨_, y, ?_, hy⟩
    change execQueueBlockedServe i.w i.k s = _
    rw [execQueueBlockedServe, finish_eq, hat]
    have hgo : (firstPutter s p a && queueRoom s i.ctx x n) = true := by rw [hfirst, hroom]; rfl
    simp only [hwait, hinstr, qputMeans, hx]
    exact congrArg (fun a => Host.Outcome.next (after a s)) (if_pos hgo)
  case delivered =>
    obtain ⟨-, -, hw, hst, -⟩ := issAt_spec (issAt_of_strandAt hat)
    obtain ⟨y0, y, hy, ey, hp, htakes⟩ := deliver_ends hw hst f { queueUses f with vw := spanRegs f.d.toNat 4 } g got
    obtain ⟨hframe, hid⟩ := queueFrame_of (s := s) (u := s) (q := p) (z := mLook s.queues p) (spill := skip)
      rfl rfl rfl (fun _ _ => rfl) (fun _ h => h) hy
    refine ⟨_, y, ?_, hframe, hid, hy.past, ey, hp, htakes⟩
    change execQueueBlockedServe i.w i.k s = _
    rw [execQueueBlockedServe, finish_eq, hat]
    simp only [hwait, hinstr, qgetMeans]
    exact congrArg (fun a => Host.Outcome.next (after a s)) (if_pos hdone)

end Sys2Proof.Machine


/-! # `refill` and the status of queues (02_execution_model R35, R36, 22_scheduling R361, 23_ref_sync_launch R376, R377) -/

namespace Sys2Proof.Machine

/-! ## One warp changes -/

section
variable {s t : State} {i : Iss} {y : Warp} (h : WarpStep s t i.w y)
include h

/-- A continuation's written-mask is all that a note of writes moves in the strand. -/
theorem WarpStep.noteWrites_unmoved (hm : Unmoved i y) (u : Uses) (g : Mask) :
    ∃ x, WarpStep s (after (Machine.noteWrites i u g) t) i.w x ∧ x = { y with strands := x.strands } ∧ Unmoved i x := by
  rw [Machine.noteWrites]
  split
  · exact ⟨y, h, rfl, hm⟩
  · refine ⟨_, h.updWarp _, onStrand_eq .., ?_, fun k hk => (onStrand_others _ _ _ hk).trans (hm.others k hk)⟩
    obtain ⟨z, h1, h2⟩ := hm.here
    exact ⟨_, onStrand_here h1, h2⟩

theorem WarpStep.updRegions_alone (m : Mask) (f : Nat → Region → Region) :
    ∃ x, WarpStep s (after (Machine.updRegions i.w m f) t) i.w x ∧ x = { y with regions := x.regions } := by
  refine ⟨_, h.updWarp _, ?_⟩
  split <;> rfl
end

/-! ## `qstat` -/

theorem getD_words (ws : List Nat) (j : Nat) : (ws.map (BitVec.ofNat 32)).getD j 0 = BitVec.ofNat 32 (ws.getD j 0) := by
  rw [List.getD_eq_getElem?_getD, List.getD_eq_getElem?_getD, List.getElem?_map]
  cases ws[j]? <;> rfl

/-- The words of a status are an entry of every lane. -/
theorem queueWords_cells (d : Nat) (g : Mask) (ws : List Nat) (x : Warp) :
    (lanesIn g).foldl (fun y l => (List.range 4).foldl (fun z j => setV z (d + j) l (BitVec.ofNat 32 (ws.getD j 0))) y) x =
      takeEntries d (lanesIn g) ((lanesIn g).map fun _ => (0, ws.map (BitVec.ofNat 32))) x := by
  rw [takeEntries, List.zip_eq_zipWith, List.zipWith_map_right, List.zipWith_self, List.foldl_map]
  simp only [getD_words]

theorem queueWords_ends {s : State} {i : Iss} (hi : issuer s = some i) (f : MFields) (u : Uses) (g : Mask) (ws : List Nat) {o : Instr}
    (ho : exec o s = .next (after (queueWords i f u g ws) s)) :
    RunsTo s i (exec o s) 1 fun x => x = { i.warp with v := x.v, regions := x.regions, strands := x.strands } ∧
      (∀ l < 32, hasLane g l = true → ∀ j < 4, vR x (f.d.toNat + j) l = BitVec.ofNat 32 (ws.getD j 0)) ∧
      ∀ r l, l < 32 → hasLane g l = false ∨ r ∉ spanRegs f.d.toNat 4 → vR x r l = vR i.warp r l := by
  obtain ⟨-, hw, hst, -⟩ := issuer_spec hi
  let es := (lanesIn g).map fun _ => (0, ws.map (BitVec.ofNat 32))
  let F (x : Warp) := (lanesIn g).foldl (fun y l => (List.range 4).foldl (fun z j => setV z (f.d.toNat + j) l (BitVec.ofNat 32 (ws.getD j 0))) y) x
  have hF : F i.warp = takeEntries f.d.toNat (lanesIn g) es i.warp := queueWords_cells ..
  have heq := takeEntries_eq f.d.toNat (lanesIn g) es i.warp
  have htake := takeEntries_takes (lanesIn_nodup g) (fun l hl => (mem_lanesIn.1 hl).1) f.d.toNat es i.warp
  obtain ⟨x, hx, ex⟩ := ((WarpStep.refl hw).updWarp F).updRegions_alone g fun _ r => untag r f.d.toNat 16
  obtain ⟨z, hz, ez, hm⟩ := hx.wrote_unmoved (unmoved_of_strands hst (by rw [ex, hF, heq])) u g
  obtain ⟨y, hy⟩ := hz.stepsOn hm 1
  have hact : after (queueWords i f u g ws) s = after (advance i 1) (after (wrote i u g) (after (updRegions i.w g fun _ r => untag r f.d.toNat 16)
      (after (updWarp i.w F) s))) := by simp only [queueWords, after_andThen]; rfl
  rw [← hact] at hy
  have hv : y.v = (takeEntries f.d.toNat (lanesIn g) es i.warp).v := by rw [hy.warp, ez, ex, hF]
  have hr (r l : Nat) : vR y r l = vR (takeEntries f.d.toNat (lanesIn g) es i.warp) r l := by rw [vR, hv, vR]
  refine ⟨_, y, ho, hy.frame, hy.past, ?_, fun l hl hg j hj => ?_, fun r l hl hout => ?_⟩
  · rw [hy.warp, ez, ex, hF, heq]
  · obtain ⟨n, hn⟩ := List.mem_iff_getElem?.1 (mem_lanesIn.2 ⟨hl, hg⟩)
    rw [hr, htake.1 n l _ hn (by rw [List.getElem?_map, hn]; rfl) j hj]
    exact getD_words ..
  · rw [hr]
    refine htake.2 r l hl (hout.symm.imp_right fun h hl' => ?_)
    rw [(mem_lanesIn.1 (List.mem_of_mem_take hl')).2] at h
    exact Bool.noConfusion h

/-! ## Lanes join a strand -/

theorem joinArms_eq (n : Nat) (a : Option (Nat × Bool)) (m : Mask) (x : Warp) :
    joinArms n a m x = { x with forks := (joinArms n a m x).forks } := by
  induction n generalizing a x with
  | zero => rfl
  | succ n ih =>
    cases a with
    | none => rfl
    | some b =>
      rw [joinArms]
      split
      · rfl
      · rw [ih]

theorem joinArms_forks (n : Nat) (a : Option (Nat × Bool)) (m : Mask) {x y : Warp} (h : x.forks = y.forks) :
    (joinArms n a m x).forks = (joinArms n a m y).forks := by
  induction n generalizing a x y with
  | zero => exact h
  | succ n ih =>
    cases a with
    | none => exact h
    | some b =>
      rw [joinArms, joinArms, h]
      split
      · exact h
      · exact ih _ rfl

/-- A scalar predicate beyond the eight is none. -/
theorem qR_setQ_any (x : Warp) (n : Nat) (b : Bool) {m : Nat} (hm : m < 8) :
    qR (setQ x n b) m = if m = n ∧ n ≠ 7 then b else qR x m := by
  by_cases hn : n < 8
  · exact qR_setQ x n b hn hm
  · have h0 : (1 : BitVec 8) <<< n = 0 := BitVec.shiftLeft_eq_zero (by omega)
    have hx : setQ x n b = x := by
      have hkeep : x.q &&& ~~~(0 : BitVec 8) = x.q := BitVec.and_allOnes
      rw [setQ, if_neg (by omega), h0]
      cases b with
      | true => rw [if_pos rfl, show x.q ||| (0 : BitVec 8) = x.q from BitVec.or_zero]
      | false => rw [if_neg Bool.false_ne_true, hkeep]
    rw [hx, if_neg (by omega)]

/-- The lanes that take entries, lowest first. -/
def filledLanes (i : Iss) (es : List (Nat × List Word)) : List Nat := (lanesIn (~~~i.warp.live)).take es.length
def filledMask (i : Iss) (es : List (Nat × List Word)) : Mask := (filledLanes i es).foldl (fun m l => m ||| laneBit l) (0 : Mask)

/-- The warp whose vacant lanes have taken entries, and joined the arms of the strand. -/
def refilled (i : Iss) (f : CFields) (q : Nat) (es : List (Nat × List Word)) (x : Warp) : Warp :=
  { x with
    v := (takeEntries f.b.toNat (filledLanes i es) es x).v
    live := x.live ||| filledMask i es
    names := (List.zip (filledLanes i es) es).foldl (fun t p => mIns t p.1 (.refilled i.blk.launch q p.2.1)) x.names
    lanesRand := (List.zip (filledLanes i es) es).foldl
      (fun t p => mIns t p.1 (srSeed (BitVec.ofNat 64 p.2.1) (nsSeed i.warp.nstat) 0x6A09E667)) x.lanesRand
    barr := x.barr.filter fun e => !hasLane (filledMask i es) (e.1 % 32) }

/-- A strand whose lanes are joined by others. -/
def joinedBy (m : Mask) (t : Strand) : Strand := { t with members := t.members ||| m }

theorem stepSlots_joinedBy (n : Nat) (m : Mask) (t : Strand) : stepSlots n (joinedBy m t) = joinedBy m (stepSlots n t) := by
  rw [stepSlots, stepSlots]
  dsimp only
  rw [apply_ite (joinedBy m)]
  rfl

theorem refillLanes_eq (i : Iss) (f : CFields) (q : Nat) (es : List (Nat × List Word)) : refillLanes i f q es =
    (andThen (updWarp i.w (refilled i f q es)) <|
     andThen (updWarp i.w (joinArms i.warp.forks.length i.st.arm (filledMask i es))) <|
     andThen (updStrand i.w i.k (joinedBy (filledMask i es))) <|
     andThen (noteWrites i { vw := spanRegs f.b.toNat 4 } (filledMask i es)) <|
     andThen (clearBad i.w (spanRegs f.b.toNat 4) (filledMask i es)) (refillDone i f true)) := by
  have h : (fun x : Warp =>
      let y := takeEntries f.b.toNat (filledLanes i es) es x
      { y with
        live := y.live ||| filledMask i es
        names := (List.zip (filledLanes i es) es).foldl (fun t p => mIns t p.1 (.refilled i.blk.launch q p.2.1)) y.names
        lanesRand := (List.zip (filledLanes i es) es).foldl
          (fun t p => mIns t p.1 (srSeed (BitVec.ofNat 64 p.2.1) (nsSeed i.warp.nstat) 0x6A09E667)) y.lanesRand
        barr := y.barr.filter fun e => !hasLane (filledMask i es) (e.1 % 32) }) = refilled i f q es := by
    funext x
    dsimp only
    rw [takeEntries_eq]
    rfl
  rw [← h]
  rfl

theorem mem_filledLanes {i : Iss} {es : List (Nat × List Word)} {l : Nat} (h : l ∈ filledLanes i es) : l < 32 :=
  (mem_lanesIn.1 (List.mem_of_mem_take h)).1
theorem filledLanes_nodup (i : Iss) (es : List (Nat × List Word)) : (filledLanes i es).Nodup :=
  (lanesIn_nodup _).sublist (List.take_sublist _ _)

/-- What a lane that joined has, with entry `e`. -/
theorem filled_lane {i : Iss} {es : List (Nat × List Word)} {j l : Nat} {e : Nat × List Word}
    (hl : (lanesIn (~~~i.warp.live))[j]? = some l) (he : es[j]? = some e) {α : Type} (w : Nat × Nat × List Word → α) (m : Map α) :
    mLook ((List.zip (filledLanes i es) es).foldl (fun t p => mIns t p.1 (w p)) m) l = some (w (l, e)) := by
  obtain ⟨hlen, -⟩ := List.getElem?_eq_some_iff.1 he
  have hl' : (filledLanes i es)[j]? = some l := by rw [filledLanes, List.getElem?_take, if_pos hlen]; exact hl
  refine mLook_foldl_mIns_of_mem (fun p : Nat × Nat × List Word => p.1) w _ m ?_ (y := (l, e))
    (List.mem_iff_getElem?.2 ⟨j, List.getElem?_zip_eq_some.2 ⟨hl', he⟩⟩)
  exact (List.map_fst_zip (List.length_take_le es.length (lanesIn (~~~i.warp.live)))).symm ▸ filledLanes_nodup i es

/-- What a refill leaves, from a state `u` in which its queue has given the entries. -/
theorem refillLanes_ends {u : State} {i : Iss} (hw : mLook u.warps i.w = some i.warp) (hst : mLook i.warp.strands i.k = some i.st)
    (f : CFields) (q : Nat) (es : List (Nat × List Word)) :
    let free := lanesIn (~~~i.warp.live)
    let m := (free.take es.length).foldl (fun m l => m ||| laneBit l) (0 : Mask)
    let j : Iss := { i with st := joinedBy m i.st }
    ∃ y0 y, StepsOn u (after (refillLanes i f q es) u) j 1 y0 y ∧
      y = { i.warp with v := y.v, q := y.q, live := i.warp.live ||| m, names := y.names, lanesRand := y.lanesRand,
                        barr := y.barr, strands := y.strands,
                        forks := (joinArms i.warp.forks.length i.st.arm m i.warp).forks } ∧ QWrite i f.c.toNat true y ∧
      (∃ st, mLook y.strands i.k = some st ∧ st.members = i.st.members ||| m ∧ st.pc = (stepSlots 1 i.st).pc ∧
        st.slot = (stepSlots 1 i.st).slot) ∧ TakesEntries i.warp y f.b.toNat free es ∧
      ∀ (j l : Nat) (e : Nat × List Word), free[j]? = some l → es[j]? = some e → mLook y.names l = some (.refilled i.blk.launch q e.1) ∧
        mLook y.lanesRand l = some (srSeed (BitVec.ofNat 64 e.1) (nsSeed i.warp.nstat) 0x6A09E667) := by
  intro free m j
  have hm : m = filledMask i es := rfl
  let x1 := refilled i f q es i.warp
  let x2 := joinArms i.warp.forks.length i.st.arm m x1
  have h2 : x2 = { x1 with forks := x2.forks } := joinArms_eq ..
  have hs2 : x2.strands = i.warp.strands := by rw [h2]; rfl
  have hstep := (((WarpStep.refl hw).updWarp (refilled i f q es)).updWarp (joinArms i.warp.forks.length i.st.arm m)).updWarp
    (onStrand i.k (joinedBy m))
  have hmoved : Unmoved j (onStrand i.k (joinedBy m) x2) := by
    refine ⟨⟨_, onStrand_here (by rw [hs2]; exact hst), rfl, rfl, rfl, rfl⟩, fun k hk => ?_⟩
    rw [onStrand_others _ _ _ hk, hs2]
  obtain ⟨x4, hx4, e4, hm4⟩ := WarpStep.noteWrites_unmoved (i := j) hstep hmoved { vw := spanRegs f.b.toNat 4 } m
  have hm6 : Unmoved j (setQ x4 f.c.toNat true) := by
    rw [setQ_eq]
    exact ⟨hm4.here, hm4.others⟩
  obtain ⟨y, hy⟩ := WarpStep.stepsOn (i := j) ((hx4.clearBad i.w (spanRegs f.b.toNat 4) m).updWarp fun x => setQ x f.c.toNat true) hm6 1
  have hact : after (refillLanes i f q es) u = after (advance j 1) (after (updWarp i.w fun x => setQ x f.c.toNat true)
      (after (clearBad i.w (spanRegs f.b.toNat 4) m) (after (noteWrites j { vw := spanRegs f.b.toNat 4 } m)
        (after (updWarp i.w (onStrand i.k (joinedBy m))) (after (updWarp i.w (joinArms i.warp.forks.length i.st.arm m))
          (after (updWarp i.w (refilled i f q es)) u)))))) := by
    rw [refillLanes_eq]
    simp only [after_andThen, refillDone]
    rfl
  rw [← hact] at hy
  have e4' : x4 = { x1 with forks := x2.forks, strands := x4.strands } :=
    e4.trans ((congrArg (fun x : Warp => { x with strands := x4.strands }) (onStrand_eq i.k (joinedBy m) x2)).trans
      (congrArg (fun x : Warp => { x with strands := x4.strands }) h2))
  have ey : y = { x1 with forks := x2.forks, q := (setQ x4 f.c.toNat true).q, strands := y.strands } :=
    hy.warp.trans ((congrArg (fun x : Warp => { x with strands := y.strands }) (setQ_eq x4 f.c.toNat true)).trans
      (congrArg (fun x : Warp => { x with q := (setQ x4 f.c.toNat true).q, strands := y.strands }) e4'))
  have hq : y.q = (setQ x4 f.c.toNat true).q := by rw [hy.warp]
  have hv : y.v = x1.v := by rw [ey]
  have hnames : y.names = x1.names := by rw [ey]
  have hrand : y.lanesRand = x1.lanesRand := by rw [ey]
  have hbarr : y.barr = x1.barr := by rw [ey]
  have hforks : x2.forks = (joinArms i.warp.forks.length i.st.arm m i.warp).forks := joinArms_forks _ _ _ rfl
  have hr (r l : Nat) : vR y r l = vR (takeEntries f.b.toNat (filledLanes i es) es i.warp) r l := by rw [vR, hv, vR]; rfl
  have htake := takeEntries_takes (filledLanes_nodup i es) (fun l hl => mem_filledLanes hl) f.b.toNat es i.warp
  refine ⟨_, y, hy, ?_, fun k hk => ?_, ?_, ⟨fun j l e hl he k hk => ?_, fun r l hl hout => ?_⟩, fun j l e hl he => ⟨?_, ?_⟩⟩
  · refine ey.trans ?_
    rw [hv, hnames, hrand, hbarr, hq, hforks]
    rfl
  · rw [qR_congr hq, qR_setQ_any _ _ _ hk, qR_congr (x := x4) (y := i.warp)]
    rw [e4']
    rfl
  · obtain ⟨z, hz, hpc, hslot, hmem⟩ := hy.past.here
    exact ⟨z, hz, hmem, hpc.trans (congrArg (·.pc) (stepSlots_joinedBy 1 m i.st)), hslot.trans (congrArg (·.slot) (stepSlots_joinedBy 1 m i.st))⟩
  · obtain ⟨hlen, -⟩ := List.getElem?_eq_some_iff.1 he
    exact (hr _ _).trans (htake.1 j l e (by rw [filledLanes, List.getElem?_take, if_pos hlen]; exact hl) he k hk)
  · refine (hr _ _).trans (htake.2 r l hl (hout.imp_right fun h hl' => h (List.mem_of_mem_take hl')))
  · rw [hnames]; exact filled_lane hl he _ _
  · rw [hrand]; exact filled_lane hl he _ _

/-! ## `refill` -/

/-- What `refill` does past its gate with its guard true, in a warp of one strand. -/
def refillWay (f : CFields) (s : State) (i : Iss) (x : Queue) : Act :=
  let p := queueKey i (f.disp.toNat % 1024)
  let n := laneCount (~~~i.warp.live)
  if n = 0 then refillDone i f false
  else if !x.entries.isEmpty && (getters s p).isEmpty then
    andThen (eff (.queue p (dropEntries s n x))) (refillLanes i f (f.disp.toNat % 1024) (x.entries.take n))
  else if f.disp.getLsbD 10 then refillDone i f false
  else andThen (eff (.ids (s.nextId + 1))) (andThen (waitWith i (.getting p s.nextId n true [])) bump)

section
variable {f : CFields} {s : State} {i : Iss}
    (hmay : MayRun s i (chkAll true (vOk i f.b.toNat 4 && pOk f.c.toNat)) { mem := true, shadow := true } 0)
    (hwait : ∀ p a m o l, i.st.wait ≠ .getting p a m o l)
include hmay hwait

theorem exec_refill_skips (hg : guardScalar i f.gp f.gn = false) : exec (.refill f) s = .next (after (advance i 1) s) :=
  atIssue_act hmay.here (by
    rw [refillMeans]
    split
    · next p a m o l h => exact absurd h (hwait p a m o l)
    · rw [gated_of_mayRun hmay, hg]
      rfl)

theorem exec_refill {x : Queue} (hg : guardScalar i f.gp f.gn = true) (hreg : regionLanes i &&& i.lanes = 0)
    (hq : f.disp.toNat % 1024 = i.lau.refillQ) (hown : ownQueue s i (f.disp.toNat % 1024) = some x) (hone : singleStrand i.warp = true)
    (hpend : ∀ r ∈ spanRegs f.b.toNat 4, pendingV s i.w r = 0) : exec (.refill f) s = .next (after (refillWay f s i x) s) :=
  atIssue_act hmay.here (by
    rw [refillMeans]
    split
    · next p a m o l h => exact absurd h (hwait p a m o l)
    · have hfree : ((spanRegs f.b.toNat 4).any fun r => decide (pendingV s i.w r ≠ 0)) = false :=
        List.any_eq_false.2 fun r hr h => of_decide_eq_true h (hpend r hr)
      rw [gated_of_mayRun hmay, hg, noRegion_of_none hreg, hown, hone]
      refine (if_neg (by simp)).trans ((if_neg (not_not_intro hq)).trans ((if_neg (by simp)).trans ((if_neg ?_).trans rfl)))
      rw [hfree]
      exact Bool.false_ne_true)
end

/-- The predicate of a `refill` that takes nothing. -/
theorem refill_fails {s : State} {i : Iss} (hi : issuer s = some i) {f : CFields} (hc : f.c.toNat < 8) {o : Instr}
    (ho : exec o s = .next (after (refillDone i f false) s)) : RunsTo s i (exec o s) 1 fun y =>
      y = { i.warp with q := y.q, strands := y.strands } ∧ QWrite i f.c.toNat false y := by
  obtain ⟨x, hframe, hpast, ex⟩ := qWrite_ends hi (fun x => setQ x f.c.toNat false) (setQ_eq ..) 1
  have hq : x.q = (setQ i.warp f.c.toNat false).q := by rw [ex]
  refine ⟨_, x, ho, hframe, hpast, ?_, qWrite_of_write hc hq⟩
  rw [hq]
  exact ex.trans (congrArg (fun y : Warp => { y with strands := x.strands }) (setQ_eq ..))

/-- Settles O43: a `refill`, at issue or when it is served, comes to `refillLanes`; a status is an entry of every lane. -/
theorem refillAndStatusComplete : Obligations.RefillAndStatusComplete := by
  unfold Obligations.RefillAndStatusComplete
  refine ⟨?refill, ?status⟩
  case status =>
    intro f s i o ok ws g hforms hmay
    rcases hforms with ⟨rfl, rfl, rfl⟩ | ⟨rfl, rfl, hws⟩
    · rw [Bool.and_true] at hmay
      exact queueWords_ends hmay.here f _ g _ (atIssue_act hmay.here (gated_of_mayRun hmay _))
    · by_cases hg : g = 0
      · obtain ⟨t, x, ho, hframe, hpast, ex⟩ := runsTo_advance (o := .qstat f) (n := 1) hmay.here
          (atIssue_act hmay.here ((gated_of_mayRun hmay _).trans (if_pos hg)))
        refine ⟨t, x, ho, hframe, hpast, ?_, fun l _ h => ?_, fun r l _ _ => ?_⟩
        · rw [ex]
        · rw [hg] at h
          exact Bool.noConfusion ((hasLane_zero l).symm.trans h)
        · rw [ex]; rfl
      · obtain ⟨x, hx, rfl⟩ := hws.resolve_left hg
        refine queueWords_ends hmay.here f (qstatUses f) g _ (atIssue_act hmay.here ((gated_of_mayRun hmay _).trans ((if_neg hg).trans ?_)))
        rw [hx]
  case refill =>
    intro f s i x q p free joined
    have hjoin {o : Instr} {u : State} {z : Option Queue} {k : Nat} {es : List (Nat × List Word)} (hw : mLook u.warps i.w = some i.warp)
        (hst : mLook i.warp.strands i.k = some i.st) (hu : u = { s with queues := u.queues }) (hz : mLook u.queues k = z)
        (hk : ∀ j, j ≠ k → mLook u.queues j = mLook s.queues j) (ho : exec o s = .next (after (refillLanes i f q es) u)) : joined o z k es := by
      obtain ⟨y0, y, hy, hrest⟩ := refillLanes_ends hw hst f q es
      obtain ⟨hframe, hid⟩ := queueFrame_of (s := s) (u := u) (q := k) (z := z) (spill := skip) (by rw [hu]) (by rw [hu]; rfl) hz hk
        (by rw [hu]; exact fun _ h => h) hy
      exact ⟨_, y, ho, ⟨hframe.rest, hframe.mem, hframe.self, hframe.warps, hframe.queue, hframe.queues, hframe.bad⟩,
        hid.trans (by rw [hu]), hrest⟩
    have hno (h : x.entries = [] ∨ getters s p ≠ []) : ¬(!x.entries.isEmpty && (getters s p).isEmpty) = true := by
      rw [Bool.and_eq_true, Bool.not_eq_true', List.isEmpty_eq_false_iff, List.isEmpty_iff]
      rintro ⟨h1, h2⟩
      exact h.elim (fun h => h1 h) fun h => h h2
    have hcount (h : free ≠ []) : ¬laneCount (~~~i.warp.live) = 0 := fun h0 => h (List.length_eq_zero_iff.1 h0)
    refine ⟨fun hmay hwait => ⟨fun hg => ?skips, fun hg hreg hq hown hone hpend => ⟨fun hnone => ?fails, fun hfree hent hget => ?fills,
      fun hfree hnone hnb => ?waits⟩⟩, fun hat hinstr k a m once got hwait hdone => ?served⟩
    case skips => exact runsTo_advance hmay.here (exec_refill_skips hmay hwait hg)
    case fails =>
      have hc : f.c.toNat < 8 := pOk_lt ((Bool.and_eq_true _ _ ▸ (chkAll_none.1 hmay.legal).2).2)
      refine refill_fails hmay.here hc ((exec_refill hmay hwait hg hreg hq hown hone hpend).trans ?_)
      refine congrArg (fun a => Host.Outcome.next (after a s)) ?_
      rw [refillWay]
      by_cases hn : laneCount (~~~i.warp.live) = 0
      · exact if_pos hn
      · obtain ⟨hent, hnb⟩ := hnone.resolve_left fun h => hn (congrArg List.length h)
        exact (if_neg hn).trans ((if_neg (hno hent)).trans (if_pos hnb))
    case fills =>
      obtain ⟨-, hw, hst, -⟩ := issuer_spec hmay.here
      let u : State := { s with queues := mIns s.queues p (dropEntries s free.length x) }
      have hgo : (!x.entries.isEmpty && (getters s p).isEmpty) = true := by
        rw [Bool.and_eq_true, Bool.not_eq_true', List.isEmpty_eq_false_iff, List.isEmpty_iff]
        exact ⟨hent, hget⟩
      refine hjoin (u := u) hw hst rfl (mLook_mIns_self ..) (fun j hj => mLook_mIns_ne _ _ hj)
        ((exec_refill hmay hwait hg hreg hq hown hone hpend).trans (congrArg Host.Outcome.next ?_))
      refine (congrArg (fun a => after a s) ((if_neg (hcount hfree)).trans (if_pos hgo))).trans ?_
      rw [after_andThen]
      rfl
    case waits =>
      obtain ⟨-, hw, hst, -⟩ := issuer_spec hmay.here
      obtain ⟨y, hy, ey, hstrand⟩ := after_request hw hst (s.nextId + 1) (.getting p s.nextId free.length true [])
      have hrun := exec_refill hmay hwait hg hreg hq hown hone hpend
      have hact : refillWay f s i x = _ := (if_neg (hcount hfree)).trans ((if_neg (hno hnone)).trans (if_neg (by rw [hnb]; exact Bool.false_ne_true)))
      rw [hact] at hrun
      exact ⟨_, y, hrun.trans (congrArg Host.Outcome.next hy), rfl, mLook_mIns_self .., ey, hstrand⟩
    case served =>
      obtain ⟨-, -, hw, hst, -⟩ := issAt_spec (issAt_of_strandAt hat)
      refine hjoin hw hst rfl rfl (fun _ _ => rfl) ?_
      change execQueueBlockedServe i.w i.k s = _
      rw [execQueueBlockedServe, finish_eq, hat]
      simp only [hwait, hinstr, refillMeans]
      exact congrArg (fun a => Host.Outcome.next (after a s)) (if_pos hdone)

end Sys2Proof.Machine


/-! # Reduction groups: `dgrp` and `dgrp.free` (18_program_bucket R292, R293, 20_ref_regions_reduce R325) -/

namespace Sys2Proof.Machine

theorem onlyDir_shareRecord (s : State) (i : Iss) (va n : Nat) : OnlyDir s (after (shareRecord s i va n) s) :=
  eq_of_only_dir (only_of_each (each_mono (each_shareRecord s i va n) fun e he => by rw [he]; exact List.mem_cons_self) s)

/-- A strand goes on in a state that only its core's sharer records set apart from its own. -/
theorem runsTo_onlyDir {s u : State} {i : Iss} (hi : issuer s = some i) (hu : OnlyDir s u) {o : Instr} {n : Nat}
    (ho : exec o s = .next (after (advance i n) u)) : RunsTo u i (exec o s) n fun x => x = { i.warp with strands := x.strands } := by
  obtain ⟨-, hw, hst, -⟩ := issuer_spec hi
  obtain ⟨x, hx, ex, hpast⟩ := after_advance (i := i) (t := u) (by rw [hu]; exact hw) (unmoved_of_look hst) n
  rw [hx] at ho
  exact ⟨_, x, ho, ⟨rfl, mLook_mIns_self .., fun v hv => mLook_mIns_ne _ _ hv, fun _ _ => rfl, fun y hy => ⟨0, by simpa using hy⟩,
    fun _ => rfl, fun _ h => h⟩, hpast, ex⟩

/-- A tag of a block set or cleared. -/
def withTag (t : Nat) (b : Bool) (x : Block) : Block :=
  { x with cdone := if b then x.cdone ||| ((1 : DWord) <<< t) else x.cdone &&& ~~~((1 : DWord) <<< t) }

theorem after_setTag {s : State} {blk : Nat} {x : Block} (h : mLook s.blocks blk = some x) (t : Nat) (b : Bool) :
    after (setTag blk t b) s = { s with blocks := mIns s.blocks blk (withTag t b x) } := after_updBlock h

section
variable {f : KFields} {s : State} {i : Iss}
    (hmay : MayRun s i (chkAll true (sPair i f.a)) ((redUses f).on (guardScalar i f.gp f.gn)) 0)
include hmay

theorem exec_dgrp (hwait : ∀ a b c, i.st.wait ≠ .registering a b c) : exec (.dgrp f) s = .next (after (
    if !guardScalar i f.gp f.gn then advance i 1
    else withGroup s i f false fun n r d =>
      checked i [(decide (i.lau.tags ≤ f.tag.toNat) || decide (i.lau.tags ≤ f.aux.toNat % 64) || decide (f.tag.toNat = f.aux.toNat % 64), 0x64)] <|
        if areaBad i r.result (areaBytes r) || areaBad i r.corr (areaBytes r) then trapLanes i .prot i.st.members 0 0
        else
          if (d.getD (withEarly s i.ctx n r)).parts.any fun p => decide (p.1 = i.warp.block) then advance i 1
          else
            andThen (updCtx i.cid fun c => { c with groups := mIns c.groups n (d.getD (withEarly s i.ctx n r)), early := mDel c.early n }) <|
            andThen (setTag i.warp.block f.tag.toNat false) <|
            andThen (setTag i.warp.block (f.aux.toNat % 64) false) <|
            andThen (waitWith i (.registering n f.tag.toNat (f.aux.toNat % 64))) bump) s) :=
  atIssue_act hmay.here (by
    refine (if_neg fun h => ?_).trans (gated_of_mayRun hmay _)
    split at h
    · next a b c hw => exact hwait a b c hw
    · exact Bool.noConfusion h)

theorem exec_dgrpFree (hwait : ∀ a, i.st.wait ≠ .releasing a) : exec (.dgrpFree f) s = .next (after (
    if !guardScalar i f.gp f.gn then advance i 1
    else withGroup s i f false fun n _ d =>
      match d with
      | none => advance i 1
      | some g =>
        if g.began then
          andThen (updCtx i.cid fun c => { c with groups := mIns c.groups n { g with freeing := true } }) <|
          waitWith i (.releasing n)
        else andThen (updCtx i.cid fun c => { c with groups := mDel c.groups n }) (advance i 1)) s) :=
  atIssue_act hmay.here (by
    split
    · next a h => exact absurd h (hwait a)
    · exact gated_of_mayRun hmay _)
end

/-- Settles O44. -/
theorem reductionGroupsComplete : Obligations.ReductionGroupsComplete := by
  unfold Obligations.ReductionGroupsComplete
  refine ⟨?issue, ?releasing, ?recorded⟩
  case issue =>
    intro f s i n r d rt ct g shares u hreg hrel hmay
    obtain ⟨-, hw, hst, hb : mLook s.blocks i.warp.block = _, -, hc : mLook s.ctxs i.cid = _⟩ := issuer_spec hmay.here
    have hdir : OnlyDir s u := onlyDir_shareRecord ..
    have hgoes {o : Instr} {a : Nat → RedGroup → Option RedGroup → Act} (hg : guardScalar i f.gp f.gn = true)
        (hgroup : ∀ a, withGroup s i f false a = andThen shares (a n r d))
        (ho : exec o s = .next (after (if !guardScalar i f.gp f.gn then advance i 1 else withGroup s i f false a) s)) :
        exec o s = .next (after (a n r d) u) := by
      rw [hg, hgroup] at ho
      exact ho.trans (congrArg Host.Outcome.next (after_andThen ..))
    have hdgrp (hg : guardScalar i f.gp f.gn = true) (hgroup : ∀ a, withGroup s i f false a = andThen shares (a n r d))
        (hrt : rt < i.lau.tags) (hct : ct < i.lau.tags) (hne : rt ≠ ct) (hres : areaBad i r.result (areaBytes r) = false)
        (hcorr : areaBad i r.corr (areaBytes r) = false) :=
      (hgoes hg hgroup (exec_dgrp hmay hreg)).trans (congrArg (fun a => Host.Outcome.next (after a u))
        ((checked_of_none (firstOf_singleton (by simp [rt, ct] at hrt hct hne ⊢; omega) _) _).trans
          (if_neg (by rw [hres, hcorr]; exact Bool.false_ne_true))))
    refine ⟨fun hg o ho => ?skips, fun hg hgroup => ⟨hdir, fun hrt hct hne hres hcorr => ⟨fun hhas => ?has, fun hnew => ?new⟩,
      fun hd => ?undefined, fun y hd => ⟨fun hbegan => ?deleted, fun hbegan => ?asked⟩⟩⟩
    case skips =>
      simp only [List.mem_cons, List.not_mem_nil, or_false] at ho
      rcases ho with rfl | rfl
      · exact runsTo_advance hmay.here ((exec_dgrp hmay hreg).trans (by rw [hg]; rfl))
      · exact runsTo_advance hmay.here ((exec_dgrpFree hmay hrel).trans (by rw [hg]; rfl))
    case has =>
      refine runsTo_onlyDir hmay.here hdir ((hdgrp hg hgroup hrt hct hne hres hcorr).trans (congrArg (fun a => Host.Outcome.next (after a u)) (if_pos ?_)))
      obtain ⟨p, hp, hb⟩ := hhas
      exact List.any_eq_true.2 ⟨p, hp, decide_eq_true hb⟩
    case new =>
      have hno : ¬(g.parts.any fun p => decide (p.1 = i.warp.block)) = true := fun h => by
        obtain ⟨p, hp, hb⟩ := List.any_eq_true.1 h
        exact hnew p hp (of_decide_eq_true hb)
      have hrun := (hdgrp hg hgroup hrt hct hne hres hcorr).trans (congrArg (fun a => Host.Outcome.next (after a u)) (if_neg hno))
      let c := { i.ctx with groups := mIns i.ctx.groups n g, early := mDel i.ctx.early n }
      have h1 : after (setTag i.warp.block rt false) { u with ctxs := mIns u.ctxs i.cid c } =
          { u with ctxs := mIns u.ctxs i.cid c, blocks := mIns u.blocks i.warp.block (withTag rt false i.blk) } :=
        after_setTag (by rw [hdir]; exact hb) ..
      have h2 : after (setTag i.warp.block ct false)
          { u with ctxs := mIns u.ctxs i.cid c, blocks := mIns u.blocks i.warp.block (withTag rt false i.blk) } =
          { u with
            ctxs := mIns u.ctxs i.cid c
            blocks := mIns (mIns u.blocks i.warp.block (withTag rt false i.blk)) i.warp.block (withTag ct false (withTag rt false i.blk)) } :=
        after_setTag (mLook_mIns_self ..) ..
      rw [after_andThen, after_updCtx (show mLook u.ctxs i.cid = some i.ctx by rw [hdir]; exact hc), after_andThen, h1, after_andThen, h2,
        after_andThen, after_waitWith (x := i.warp) (by rw [hdir]; exact hw), after_bump, mIns_mIns] at hrun
      refine ⟨_, _, hrun, rfl, mLook_mIns_self .., fun k hk => (mLook_mIns_ne _ _ hk).trans (by rw [hdir]), mLook_mIns_self ..,
        fun k hk => (mLook_mIns_ne _ _ hk).trans (by rw [hdir]), mLook_mIns_self .., fun v hv => (mLook_mIns_ne _ _ hv).trans (by rw [hdir]),
        onStrand_eq .., ?_⟩
      rw [onStrand_here hst, hdir]
    case undefined => exact runsTo_onlyDir hmay.here hdir ((hgoes hg hgroup (exec_dgrpFree hmay hrel)).trans (by rw [hd]))
    case deleted =>
      obtain ⟨x, hframe, hpast, ex⟩ := updCtx_advance (u := u) (by rw [hdir]; exact hw) hst (by rw [hdir]; exact hc)
        (fun c => { c with groups := mDel c.groups n }) 1
      refine ⟨_, x, (hgoes hg hgroup (exec_dgrpFree hmay hrel)).trans ?_, hframe, hpast, ex⟩
      rw [hd]
      exact congrArg (fun a => Host.Outcome.next (after a u)) (if_neg (by rw [hbegan]; exact Bool.false_ne_true))
    case asked =>
      have hrun := hgoes hg hgroup (exec_dgrpFree hmay hrel)
      rw [hd] at hrun
      replace hrun := hrun.trans (congrArg (fun a => Host.Outcome.next (after a u)) (if_pos hbegan))
      rw [after_andThen, after_updCtx (show mLook u.ctxs i.cid = some i.ctx by rw [hdir]; exact hc),
        after_waitWith (x := i.warp) (by rw [hdir]; exact hw)] at hrun
      refine ⟨_, _, hrun, ⟨rfl, mLook_mIns_self .., fun v hv => mLook_mIns_ne _ _ hv, mLook_mIns_self .., fun k hk => mLook_mIns_ne _ _ hk,
        fun _ h => h⟩, onStrand_eq .., ?_⟩
      rw [onStrand_here hst, hdir]
  case releasing =>
    intro f s i n hi hwait
    obtain ⟨-, hw, hst, -⟩ := issuer_spec hi
    have hrun : exec (.dgrpFree f) s = .next (after (if (mLook i.ctx.groups n).any (·.freeing) then waitWith i i.st.wait else advance i 1) s) :=
      atIssue_act hi (by rw [hwait])
    refine ⟨fun h => runsTo_advance hi (hrun.trans (by rw [h]; rfl)), fun h => ?_⟩
    rw [h, if_pos rfl, after_waitWith hw] at hrun
    exact ⟨_, _, hrun, rfl, mLook_mIns_self .., fun v hv => mLook_mIns_ne _ _ hv, onStrand_eq .., onStrand_here hst⟩
  case recorded =>
    intro s i n rt ct g hat hwait hgroup hnew hres hcorr
    obtain ⟨-, -, hw, hst, -, -, hc : mLook s.ctxs i.cid = _⟩ := issAt_spec (issAt_of_strandAt hat)
    obtain ⟨x, hframe, hpast, ex⟩ := updCtx_advance hw hst hc
      (fun c => { c with groups := mIns c.groups n { g with parts := g.parts ++ [(i.warp.block, rt, ct)] } }) 1
    refine ⟨_, x, ?_, hframe, hpast, ex⟩
    have hno : (g.parts.any fun p => decide (p.1 = i.warp.block)) = false := List.any_eq_false.2 fun p hp h => hnew p hp (of_decide_eq_true h)
    change execDgrpRegistrationRecorded i.w i.k s = _
    rw [execDgrpRegistrationRecorded, finish_eq, hat]
    simp only [hwait, hgroup, hno, hres, hcorr, Bool.false_eq_true, if_false]
    rfl

end Sys2Proof.Machine


/-! # Deadline reductions: `dred`, rounds at the root, and `dfix` (19_regions_and_deadlines R309 to R315, 20_ref_regions_reduce
R326, R327) -/

namespace Sys2Proof.Machine

/-! ## Checks that pass -/

/-- No fate of a list stops the lanes. -/
theorem stopping_none {l : List (Nat × Fate)} (h : ∀ x ∈ l, ∀ r c e, x.2 ≠ .stop r c e) (i : Iss) (a : Act) : stopping i l a = a := by
  have hnone : l.findSome? (fun x => match x.2 with | .stop r c e => some (x.1, r, c, e) | _ => none) = none :=
    List.findSome?_eq_none_iff.2 fun x hx => by
      split
      · next r c e hf => exact absurd hf (h x hx r c e)
      · rfl
  unfold stopping
  split
  · next hs => exact absurd (hnone.symm.trans hs) (by simp)
  · rfl

/-! ## Rounds -/

/-- Between `u` and `t` only tags of blocks were cleared: those that `L` names. -/
structure TagsCleared (u t : State) (L : Nat → Nat → Bool) : Prop where
  rest : t = { u with blocks := t.blocks }
  blocks : ∀ b y, mLook u.blocks b = some y → ∃ c, mLook t.blocks b = some { y with cdone := c } ∧
    ∀ j < 64, c.getLsbD j = (y.cdone.getLsbD j && !L b j)

theorem tagsCleared_none (u : State) : TagsCleared u u fun _ _ => false :=
  ⟨rfl, fun b y hy => ⟨y.cdone, hy, fun j _ => by simp⟩⟩

theorem TagsCleared.trans {u v t : State} {L M : Nat → Nat → Bool} (h : TagsCleared u v L) (g : TagsCleared v t M) :
    TagsCleared u t fun b j => L b j || M b j := by
  refine ⟨by rw [g.rest, h.rest], fun b y hy => ?_⟩
  obtain ⟨c, hc, hbits⟩ := h.blocks b y hy
  obtain ⟨d, hd, hbits'⟩ := g.blocks b _ hc
  refine ⟨d, hd, fun j hj => ?_⟩
  rw [hbits' j hj, hbits j hj, Bool.not_or, Bool.and_assoc]

theorem setTag_cleared (blk t : Nat) (u : State) :
    TagsCleared u (after (setTag blk t false) u) fun b j => decide (blk = b) && decide (t = j) := by
  cases hb : mLook u.blocks blk with
  | none =>
    have hskip : after (setTag blk t false) u = u := by rw [setTag, after, updBlock, hb]; rfl
    rw [hskip]
    refine ⟨rfl, fun b y hy => ⟨y.cdone, hy, fun j _ => ?_⟩⟩
    have hne : blk ≠ b := by rintro rfl; rw [hb] at hy; cases hy
    simp [hne]
  | some x =>
    rw [after_setTag hb]
    refine ⟨rfl, fun b y hy => ?_⟩
    by_cases h : blk = b
    · subst h
      cases hb.symm.trans hy
      refine ⟨_, mLook_mIns_self .., fun j hj => ?_⟩
      rw [if_neg Bool.false_ne_true, BitVec.getLsbD_and, BitVec.getLsbD_not, show (1 : DWord) <<< t = BitVec.twoPow 64 t from rfl,
        BitVec.getLsbD_twoPow]
      by_cases htj : t = j
      · subst htj; simp [hj]
      · simp [htj, hj]
    · refine ⟨y.cdone, (mLook_mIns_ne _ _ (Ne.symm h)).trans hy, fun j _ => ?_⟩
      simp [h]

theorem forAll_cleared {α : Type} {f : α → Act} {L : α → Nat → Nat → Bool} (hf : ∀ x u, TagsCleared u (after (f x) u) (L x)) (l : List α)
    (u : State) : TagsCleared u (after (forAll f l) u) fun b j => l.any fun x => L x b j := by
  induction l generalizing u with
  | nil => exact tagsCleared_none u
  | cons x l ih =>
    rw [after_forAll_cons]
    exact (hf x u).trans (ih _)

/-- A group takes its new form, and the tags that its deliveries clear are clear. -/
theorem after_putRound {u : State} {cid n : Nat} {k : Context} (hk : mLook u.ctxs cid = some k) (h : RedGroup) :
    RoundPut u (after (putRound cid n h) u) cid n k h := by
  have hclear := forAll_cleared (fun (d : Delivery) u => forAll_cleared (fun t u => setTag_cleared d.blk t u) d.clears u) h.sending u
  rw [putRound, after_andThen, after_andThen, after_bump]
  generalize after (forAll _ h.sending) u = v at hclear ⊢
  rw [after_updCtx (x := k) (by rw [hclear.rest]; exact hk)]
  refine ⟨by rw [hclear.rest], mLook_mIns_self .., fun c hc => ?_, fun b y hy => ?_⟩
  · exact (mLook_mIns_ne _ _ hc).trans (by rw [hclear.rest])
  · obtain ⟨c, hc, hbits⟩ := hclear.blocks b y hy
    refine ⟨c, hc, fun j hj => (hbits j hj).trans ?_⟩
    congr 2
    refine List.any_congr rfl fun d => ?_
    rw [Bool.eq_iff_iff]
    simp only [List.any_eq_true, Bool.and_eq_true, decide_eq_true_eq, List.contains_iff_mem]
    exact ⟨fun ⟨t, ht, hb, e⟩ => ⟨hb, e ▸ ht⟩, fun ⟨hb, ht⟩ => ⟨j, ht, hb, rfl⟩⟩

/-! ## `dred` and `dfix` -/

section
variable {s u : State} {i : Iss} (hi : issuer s = some i) (hu : OnlyDir s u)
include hi hu

theorem waitsAs_of {o : Host.Outcome State Fault Refusal} (x : Wait)
    (ho : o = .next (after (waitWith i x) u) ∨ o = .next (after (andThen (waitWith i x) bump) u)) : WaitsAs s u o i x := by
  obtain ⟨-, hw, hst, -⟩ := issuer_spec hi
  have hwu : mLook u.warps i.w = some i.warp := by rw [hu]; exact hw
  have hepoch : u.epoch = s.epoch := by rw [hu]
  rw [after_andThen, after_waitWith hwu] at ho
  rcases ho with ho | ho
  all_goals
    refine ⟨_, _, ho, rfl, mLook_mIns_self .., fun v hv => (mLook_mIns_ne _ _ hv).trans (by rw [hu]), onStrand_eq .., ?_⟩
    rw [onStrand_here hst, hepoch]

theorem dredRead_reads (n idx dl ofs words : Nat) (hq : quiet s i.w (~~~0) = true)
    (hf : ∀ b c e, scratchFate s i ofs (4 * words) false ≠ .stop b c e) {o : Host.Outcome State Fault Refusal}
    (ho : o = .next (after (dredRead s i n idx dl ofs words) u)) : WaitsAs s u o i (.contributing n idx dl (payloadAt s i ofs words)) := by
  have hact : dredRead s i n idx dl ofs words = andThen (waitWith i (.contributing n idx dl (payloadAt s i ofs words))) bump := by
    rw [dredRead, hq]
    refine (if_neg Bool.false_ne_true).trans (stopping_none (fun x hx => ?_) i _)
    rw [List.mem_singleton.1 hx]
    exact hf
  rw [hact] at ho
  exact waitsAs_of hi hu _ (.inr ho)
end

section
variable {f : KFields} {s : State} {i : Iss}
    (hmay : MayRun s i (chkAll true (sPair i f.a && sOk i f.b.toNat 1 && sOk i f.c.toNat 1 && sOk i (f.c.toNat + 1) 1))
      { redUses f with sr := regs f.a.toNat true ++ [f.b.toNat, f.c.toNat, f.c.toNat + 1], act := guardScalar i f.gp f.gn } 0)
include hmay

theorem exec_dred (hc : ∀ a b c e, i.st.wait ≠ .contributing a b c e) (hp : ∀ a b c e k, i.st.wait ≠ .promised a b c e k) :
    exec (.dred f) s = .next (after (
      if !guardScalar i f.gp f.gn then advance i 1
      else noRegion i i.lanes 0 <|
        withGroup s i f true fun n r _ =>
          checked i [(decide (r.count ≤ (sR i.warp f.c.toNat).toNat) || decide (2 ^ 24 ≤ (sR i.warp (f.c.toNat + 1)).toNat), 0x66)] <|
            if areaBad i (sR i.warp f.b.toNat).toNat (4 * r.words) then trapLanes i .prot i.st.members 0 0
            else dredRead s i n (sR i.warp f.c.toNat).toNat (sR i.warp (f.c.toNat + 1)).toNat (sR i.warp f.b.toNat).toNat r.words) s) :=
  atIssue_act hmay.here (by
    split
    · next a b c e h => exact absurd h (hc a b c e)
    · next a b c e k h => exact absurd h (hp a b c e k)
    · exact gated_of_mayRun hmay _)
end

/-- The store that `dfix` issues. -/
def fixStore (s : State) (i : Iss) (r : RedGroup) (ro co dest : Nat) : MemOp :=
  let ws := areaWords r (mergeAreas r (readArea s i.warp.block r ro) (readArea s i.warp.block r co))
  { w := i.w
    blk := i.warp.block
    ctx := i.cid
    core := i.core
    kind := .store
    chain := (armsOf i.warp i.st).map (·.1)
    units := (List.range ws.length).map fun j =>
      ⟨lowLane i.lanes, .scr i.warp.block (dest + 4 * j), 4, 0, (ws.getD j 0).toNat, 0, false⟩ }

/-- What `dfix` does with its group known. -/
def fixWay (s : State) (i : Iss) (r : RedGroup) (ro co dest : Nat) : Act :=
  if areaBad i ro (areaBytes r) || areaBad i co (areaBytes r) || areaBad i dest (areaBytes r) then trapLanes i .prot i.st.members 0 0
  else if readHeld s i (.scr i.warp.block ro) (areaBytes r) || readHeld s i (.scr i.warp.block co) (areaBytes r) then stall i 4
  else stopping i [(ro, scratchFate s i ro (areaBytes r) false), (co, scratchFate s i co (areaBytes r) false),
      (dest, scratchFate s i dest (areaBytes r) true)] <|
    if (readArea s i.warp.block r ro).cover &&& (readArea s i.warp.block r co).cover ≠ 0 then trapLanes i .illopnd i.st.members 0 0x60
    else if i.warp.st = 63 then stall i 2
    else andThen (issueOp i (fixStore s i r ro co dest)) (advance i 1)

section
variable {s : State} {i : Iss} {r : RedGroup} {ro co dest : Nat}

theorem fixWay_stores (harea : ∀ o ∈ [ro, co, dest], areaBad i o (areaBytes r) = false)
    (h1 : readHeld s i (.scr i.warp.block ro) (areaBytes r) = false) (h2 : readHeld s i (.scr i.warp.block co) (areaBytes r) = false)
    (f1 : ∀ x c e, scratchFate s i ro (areaBytes r) false ≠ .stop x c e) (f2 : ∀ x c e, scratchFate s i co (areaBytes r) false ≠ .stop x c e)
    (f3 : ∀ x c e, scratchFate s i dest (areaBytes r) true ≠ .stop x c e)
    (hcover : (readArea s i.warp.block r ro).cover &&& (readArea s i.warp.block r co).cover = 0) (hst : i.warp.st ≠ 63) :
    fixWay s i r ro co dest = andThen (issueOp i (fixStore s i r ro co dest)) (advance i 1) := by
  have hbad (o : Nat) (ho : o ∈ [ro, co, dest]) := harea o ho
  rw [fixWay, hbad ro (by simp), hbad co (by simp), hbad dest (by simp), h1, h2]
  refine (if_neg (by simp)).trans ((if_neg (by simp)).trans ((stopping_none ?_ i _).trans ((if_neg (not_not_intro hcover)).trans (if_neg hst))))
  intro x hx
  simp only [List.mem_cons, List.not_mem_nil, or_false] at hx
  rcases hx with rfl | rfl | rfl
  · exact f1
  · exact f2
  · exact f3
end

/-- Settles O45: the record read, each instruction acts in a state that sharer records alone set apart; a round is put as a whole. -/
theorem reductionsComplete : Obligations.ReductionsComplete := by
  unfold Obligations.ReductionsComplete
  refine ⟨?issue, ?promised, ?accepted, ?rounds⟩
  case issue =>
    intro f s i n r d ofs two three shares u hcont hprom hmay
    obtain ⟨-, hw, hst, -⟩ := issuer_spec hmay.here
    have hdir : OnlyDir s u := onlyDir_shareRecord ..
    have hgoes {o : Instr} {a : Nat → RedGroup → Option RedGroup → Act} (hg : guardScalar i f.gp f.gn = true)
        (hreg : regionLanes i &&& i.lanes = 0) (hgroup : ∀ a, withGroup s i f true a = andThen shares (a n r d))
        (ho : exec o s = .next (after (if !guardScalar i f.gp f.gn then advance i 1 else noRegion i i.lanes 0 (withGroup s i f true a)) s)) :
        exec o s = .next (after (a n r d) u) := by
      rw [hg, noRegion_of_none hreg, hgroup] at ho
      exact ho.trans (congrArg Host.Outcome.next (after_andThen ..))
    have hdred (hg : guardScalar i f.gp f.gn = true) (hreg : regionLanes i &&& i.lanes = 0)
        (hgroup : ∀ a, withGroup s i f true a = andThen shares (a n r d)) (htwo : two < r.count) (hthree : three < 2 ^ 24)
        (hofs : areaBad i ofs (4 * r.words) = false) : exec (.dred f) s = .next (after (dredRead s i n two three ofs r.words) u) :=
      (hgoes hg hreg hgroup (exec_dred hmay hcont hprom)).trans (congrArg (fun a => Host.Outcome.next (after a u))
        ((checked_of_none (firstOf_singleton (by
          rw [Bool.or_eq_false_iff, decide_eq_false_iff_not, decide_eq_false_iff_not]
          exact ⟨Nat.not_le.2 htwo, Nat.not_le.2 hthree⟩) _) _).trans (if_neg (by rw [hofs]; exact Bool.false_ne_true))))
    refine ⟨fun hg o ho => ?skips, fun hg hreg hgroup => ⟨hdir, fun htwo hthree hofs => ⟨fun hquiet hfate => ?reads, fun hquiet => ?waits⟩, ?fix⟩⟩
    case skips =>
      simp only [List.mem_cons, List.not_mem_nil, or_false] at ho
      rcases ho with rfl | rfl
      · exact runsTo_advance hmay.here ((exec_dred hmay hcont hprom).trans (by rw [hg]; rfl))
      · exact runsTo_advance hmay.here (atIssue_act hmay.here ((gated_of_mayRun hmay _).trans (by rw [hg]; rfl)))
    case reads => exact dredRead_reads hmay.here hdir n two three ofs r.words hquiet hfate (hdred hg hreg hgroup htwo hthree hofs)
    case waits =>
      refine waitsAs_of hmay.here hdir _ (.inl ((hdred hg hreg hgroup htwo hthree hofs).trans
        (congrArg (fun a => Host.Outcome.next (after a u)) (if_pos ?_))))
      rw [hquiet]
      rfl
    case fix =>
      intro len a b ws harea h1 h2 f1 f2 f3 hcover hst63
      have hrun : exec (.dfix f) s = .next (after (fixWay s i r ofs two three) u) :=
        hgoes (a := fun _ g _ => fixWay s i g ofs two three) hg hreg hgroup (atIssue_act hmay.here (gated_of_mayRun hmay _))
      rw [fixWay_stores harea h1 h2 f1 f2 f3 hcover hst63, after_andThen,
        after_issueOp (x := i.warp) (by rw [hdir]; exact hw)] at hrun
      obtain ⟨x, hx, ex, hpast⟩ := after_advance (i := i) (t := { u with
        ops := mIns u.ops u.nextId { fixStore s i r ofs two three with since := cycleOf u i.core }
        nextId := u.nextId + 1
        warps := mIns u.warps i.w (counted i.warp .store) }) (mLook_mIns_self ..) (unmoved_of_strands hst rfl) 1
      have hid : u.nextId = s.nextId := by rw [hdir]
      have hops : u.ops = s.ops := by rw [hdir]
      refine ⟨_, x, { fixStore s i r ofs two three with since := cycleOf u i.core }, hrun.trans (congrArg Host.Outcome.next hx), ?_, mLook_mIns_self .., fun v hv => ?_, ex, hpast, fun k hk => ?_, ?_, rfl, rfl⟩
      · rw [hid]
      · exact (mLook_mIns_ne _ _ hv).trans ((mLook_mIns_ne _ _ hv).trans (by rw [hdir]))
      · rw [hops, hid]
        exact mLook_mIns_ne _ _ hk
      · rw [hid]
        exact mLook_mIns_self ..
  case promised =>
    intro f s i n idx dl ofs k hi hwait hgroup hquiet hfate
    refine dredRead_reads (u := s) hi rfl n idx dl ofs k hquiet hfate (atIssue_act hi ?_)
    rw [hwait]
    exact if_pos hgroup
  case accepted =>
    intro s i n idx dl ws g hat hwait hgroup hnew
    obtain ⟨-, -, hw, hst, -, -, hc : mLook s.ctxs i.cid = _⟩ := issAt_spec (issAt_of_strandAt hat)
    obtain ⟨x, hframe, hpast, ex⟩ := updCtx_advance hw hst hc
      (fun c => { c with groups := mIns c.groups n (takeContribution s g ⟨idx, dl, ws⟩) }) 1
    refine ⟨_, x, ?_, hframe, hpast, ex⟩
    have hno : (g.waiting.any fun c => decide (c.index = idx)) = false := List.any_eq_false.2 fun p hp h => hnew p hp (of_decide_eq_true h)
    change execDredRouterAccept i.w i.k s = _
    rw [execDredRouterAccept, finish_eq, hat]
    simp only [hwait, hgroup, hno, Bool.false_eq_true, if_false]
  case rounds =>
    intro s cid n idx k g hk hg now
    have hgroup : groupAt s cid n = some g := by rw [groupAt, hk]; exact hg
    have hblk {blk : Nat} {d : Delivery} (hd : g.sending.find? (fun d => decide (d.blk = blk)) = some d) : d.blk = blk :=
      of_decide_eq_true (List.find?_some (p := fun d : Delivery => decide (d.blk = blk)) hd)
    have hdone {blk : Nat} {d : Delivery} (hd : g.sending.find? (fun d => decide (d.blk = blk)) = some d) (h : d.left = [] ∨ gone s blk = true) :
        takeInput (.areaDone cid n blk) s =
          .next (after (putRound cid n (finishRound now { g with sending := g.sending.erase d })) (after (deliverTo d) s)) := by
      have hgo : (!d.left.isEmpty && !gone s blk && (mLook s.blocks blk).any fun b => decide (b.place = .resident)) = false := by
        rcases h with h | h
        · rw [h]; rfl
        · rw [h, Bool.not_true, Bool.and_false, Bool.false_and]
      change finish s (areaDone cid n blk) = _
      rw [finish_eq, areaDone, after_look, hgroup]
      simp only [hd, hgo, Bool.false_eq_true, if_false]
      rw [after_andThen]
    refine ⟨fun c hc hroot hwait => ?arrive, fun hover => ?expire, fun blk d hd => ⟨fun j w hw hgone => ?word, fun hleft hgone => ?done, fun hgone => ?away⟩⟩
    case arrive =>
      have hno : (g.waiting.any fun x => decide (x.index = idx)) = false := List.any_eq_false.2 fun p hp h => hwait p hp (of_decide_eq_true h)
      refine ⟨_, ?_, after_putRound hk _⟩
      change execDredArrive cid n idx s = _
      rw [execDredArrive, finish_eq, hgroup]
      simp only [hc, hroot, hno, Bool.not_true, Bool.or_self, Bool.false_eq_true, if_false]
      rfl
    case expire =>
      refine ⟨_, ?_, after_putRound hk _⟩
      change execDeadlineExpire cid n s = _
      rw [execDeadlineExpire, finish_eq, hgroup]
      exact congrArg (fun a => Host.Outcome.next (after a s)) (if_pos hover)
    case word =>
      have hctxs : (after (writeLoc (.scr blk w.1) 4 w.2.toNat) s).ctxs = s.ctxs :=
        (only_of_each (each_writeLoc_onSide (.scr blk w.1) 4 w.2.toNat) s).ctxs (by simp [sideTables])
      refine ⟨_, ?_, after_putRound (by rw [hctxs]; exact hk) _⟩
      change finish s (areaWord cid n blk j) = _
      rw [finish_eq, areaWord, after_look, hgroup]
      simp only [hd, hw, hgone, Bool.false_eq_true, if_false]
      rw [after_andThen]
    case done =>
      have hctxs : (after (setTag blk d.tag true) s).ctxs = s.ctxs :=
        (only_of_each (ts := [.blocks]) (each_updBlock (by simp [Effect.table])) s).ctxs (by simp)
      refine ⟨_, (hdone hd (.inl hleft)).trans ?_, after_putRound (by rw [hctxs]; exact hk) _⟩
      rw [deliverTo, after_look, hblk hd, hgone, hleft, if_neg Bool.false_ne_true, after_andThen]
      rfl
    case away =>
      refine ⟨_, (hdone hd (.inr hgone)).trans ?_, after_putRound hk _⟩
      rw [deliverTo, after_look, hblk hd, hgone]
      rfl

end Sys2Proof.Machine


/-! # Accesses from outside and the directory (11_memory_hierarchy R182, R184, R193, 27_system_interfaces R400, R414, R415, R422) -/

namespace Sys2Proof.Machine

/-! ## Sharer masks -/

/-- The masks of entries of a list, rewritten one by one. -/
theorem mGet_putShares (f : Mask → Mask) (l : List (Nat × Mask)) (s : State) (k : Nat) :
    (k ∉ l.map (·.1) → mGet 0 (applyAll (l.map fun e => .share e.1 (f e.2)) s).dir k = mGet 0 s.dir k) ∧
    (∀ m, (∀ e ∈ l, e.1 = k → e.2 = m) → k ∈ l.map (·.1) → mGet 0 (applyAll (l.map fun e => .share e.1 (f e.2)) s).dir k = f m) := by
  have hdir : (applyAll (l.map fun e => .share e.1 (f e.2)) s).dir = l.foldl (fun d e => mPut 0 d e.1 (f e.2)) s.dir := by
    induction l generalizing s with
    | nil => rfl
    | cons e l ih => rw [List.map_cons, applyAll_cons, ih]; rfl
  rw [hdir]
  refine ⟨fun h => mGet_foldl_mPut_ne (0 : Mask) (·.1) (fun e => f e.2) l s.dir fun e he hk => h (List.mem_map.2 ⟨e, he, hk⟩), fun m hm h => ?_⟩
  obtain ⟨e, he, hk⟩ := List.mem_map.1 h
  exact mGet_foldl_mPut_of_mem (0 : Mask) (·.1) (fun e => f e.2) l s.dir ⟨e, he, hk⟩ fun x hx hxk => congrArg f (hm x hx hxk)

theorem mGet_dropEntry (line : Nat) (s : State) (k : Nat) :
    mGet 0 (after (dropEntry line) s).dir k = if k / 1024 = line then 0 else mGet 0 s.dir k :=
  (mGet_dropShares (fun _ k => decide (k / 1024 = line)) s k).trans (ite_of_iff decide_eq_true_iff)

theorem only_dropEntry (line : Nat) (s : State) : Only [.dir] s (after (dropEntry line) s) :=
  only_dropShares (fun _ k => decide (k / 1024 = line)) s

/-- The block whose entry a recording frees, if it frees one. -/
def freedBlock (s : State) (line : Nat) : Option Nat :=
  let set := if s.dir.length < Config.dirWays then [] else (dirBlocks s).filter fun b => decide (Config.dirSet b = Config.dirSet line)
  if set.contains line || decide (set.length < Config.dirWays) then none else pick set (choice s 2)

theorem freedBlock_spec {s : State} {line b : Nat} (h : freedBlock s line = some b) :
    b ≠ line ∧ Config.dirSet b = Config.dirSet line ∧ Config.dirWays ≤ s.dir.length := by
  rw [freedBlock] at h
  by_cases hlen : s.dir.length < Config.dirWays
  · rw [if_pos hlen] at h
    exact absurd h (by simp [Config.dirWays])
  · rw [if_neg hlen] at h
    split at h
    · cases h
    · next hset =>
      rw [Bool.or_eq_true, not_or] at hset
      have hmem := mem_of_pick h
      refine ⟨fun he => hset.1 ?_, of_decide_eq_true (List.mem_filter.1 hmem).2, Nat.not_lt.1 hlen⟩
      exact List.contains_iff_mem.2 (he ▸ hmem)

theorem after_freedBlock (line agent : Nat) (m : Mask) (s : State) : after (recordShare line agent m) s =
    after (andThen ((freedBlock s line).elim skip dropEntry)
      fun s => [.share (line * 1024 + agent) (mGet 0 s.dir (line * 1024 + agent) ||| m)]) s := by
  rw [recordShare, after_look, freedBlock]
  refine congrArg (fun a => after (andThen a _) s) ?_
  generalize (if s.dir.length < Config.dirWays then [] else _) = set
  split
  · rfl
  · cases pick _ (choice s 2) <;> rfl

theorem after_recordShare (line agent : Nat) (m : Mask) (s : State) : ∃ u, Only [.dir] s u ∧
    (∀ k, mGet 0 u.dir k = if freedBlock s line = some (k / 1024) then 0 else mGet 0 s.dir k) ∧
    after (recordShare line agent m) s =
      { u with dir := mPut 0 u.dir (line * 1024 + agent) (mGet 0 u.dir (line * 1024 + agent) ||| m) } := by
  rw [after_freedBlock, after_andThen]
  refine ⟨after ((freedBlock s line).elim skip dropEntry) s, ?_, fun k => ?_, rfl⟩
  · cases freedBlock s line with
    | none => exact (chain_only _).refl s
    | some b => exact only_dropEntry b s
  · cases freedBlock s line with
    | none => rfl
    | some b =>
      exact (mGet_dropEntry b s k).trans (ite_of_iff (by rw [Option.some.injEq, eq_comm]))

/-- Recording a sharer adds to its mask; a set that is full gives up another block. -/
theorem recordShare_spec (s : State) (line agent : Nat) (m : Mask) (ha : agent < 1024) : let t := after (recordShare line agent m) s
    OnlyDir s t ∧ mGet 0 t.dir (line * 1024 + agent) = mGet 0 s.dir (line * 1024 + agent) ||| m ∧
    ∀ k, k ≠ line * 1024 + agent → mGet 0 t.dir k = mGet 0 s.dir k ∨
      (mGet 0 t.dir k = 0 ∧ k / 1024 ≠ line ∧ Config.dirSet (k / 1024) = Config.dirSet line ∧ Config.dirWays ≤ s.dir.length) := by
  intro t
  obtain ⟨u, hu, hmask, ht⟩ := after_recordShare line agent m s
  replace ht : t = _ := ht
  have hline : (line * 1024 + agent) / 1024 = line := by omega
  have hkeep : mGet 0 u.dir (line * 1024 + agent) = mGet 0 s.dir (line * 1024 + agent) :=
    (hmask _).trans (if_neg fun h => (freedBlock_spec h).1 hline)
  refine ⟨?_, ?_, fun k hk => ?_⟩
  · rw [ht, eq_of_only_dir hu]; rfl
  · rw [ht]
    exact (mGet_mPut_self ..).trans (by rw [hkeep])
  · have htk : mGet 0 t.dir k = mGet 0 u.dir k := by rw [ht]; exact mGet_mPut_ne _ _ _ hk
    rw [htk, hmask k]
    split
    · next h => exact .inr ⟨rfl, freedBlock_spec h⟩
    · exact .inl rfl

/-! ## Writes at the home -/

theorem after_writeEvent (k : Nat) (bs : List Byte) (s : State) : ∃ l, (∀ y ∈ l, y ∈ s.bad) ∧
    after (writeEvent k bs) s = { s with mem := putList s.mem k bs, bad := l } := by
  rw [writeEvent, after_andThen, after_eff]
  unfold after
  dsimp only
  split
  · exact ⟨s.bad, fun _ h => h, rfl⟩
  · exact ⟨_, fun _ h => (List.mem_filter.1 h).1, rfl⟩

/-! ## Peers -/

/-- A peer's request runs to its result and its answer. -/
theorem exec_buryxPeerAccess (s : State) (dev : Nat) (x : PeerAccess) : exec (.buryxPeerAccess dev x) s =
    .next { after (peerResult s x).2 s with mgmt := { (after (peerResult s x).2 s).mgmt with peerReply := (peerResult s x).1 } } := by
  change execBuryxPeerAccess dev x s = _
  rw [execBuryxPeerAccess, finish_eq, after_andThen, after_updMgmt]

section
variable {s : State} {x : PeerAccess} {pa n : Nat} {ok : Bool} (hx : peerSpan x = (pa, n, ok))
include hx

theorem peerResult_refused (h : (ok && buryxUp s && decide (n ≠ 0) && decide (pa % n = 0) && deviceRange pa n) = false) :
    peerResult s x = (.refused, skip) := by
  rw [peerResult, hx]
  have hnot : (!ok || !buryxUp s || decide (n = 0) || decide (pa % n ≠ 0) || !deviceRange pa n) =
      !(ok && buryxUp s && decide (n ≠ 0) && decide (pa % n = 0) && deviceRange pa n) := by
    simp only [Bool.not_and, ne_eq, decide_not, Bool.not_not]
  exact if_pos (by rw [hnot, h]; rfl)

variable (hok : ok = true) (hb : buryxUp s = true) (hn : n ≠ 0) (hm : pa % n = 0) (hd : deviceRange pa n = true)
include hok hb hn hm hd

theorem peerResult_made : peerResult s x =
    if peerWrites x && sealedBytes s pa n then (.trap .sealed, skip)
    else if peerReads x && locBad s (.glob pa) n then (.trap .dataerr, skip)
    else (.data (peerEffect s x).1, andThen (peerEffect s x).2 bump) := by
  rw [peerResult, hx]
  refine if_neg ?_
  rw [hok, hb, hd, decide_eq_false hn, decide_eq_false (not_not_intro hm)]
  exact Bool.false_ne_true

theorem peerResult_done (hw : (peerWrites x && sealedBytes s pa n) = false) (hr : (peerReads x && locBad s (.glob pa) n) = false) :
    peerResult s x = (.data (peerEffect s x).1, andThen (peerEffect s x).2 bump) := by
  rw [peerResult_made hx hok hb hn hm hd, hw, hr]
  rfl
end

theorem sealedBytes_false {s : State} {pa n : Nat} (h : ∀ j < n, sealedKey s (pa + j) = false) : sealedBytes s pa n = false :=
  List.any_eq_false.2 fun j hj he => Bool.noConfusion ((h j (List.mem_range.1 hj)).symm.trans he)

/-- A write of another agent that is performed, and answered. -/
theorem exec_peerWrite {s : State} {dev : Nat} {x : PeerAccess} {pa : Nat} {bs rs : List Byte}
    (h : peerResult s x = (.data rs, andThen (writeEvent pa bs) bump)) : ∃ l, (∀ y ∈ l, y ∈ s.bad) ∧
      exec (.buryxPeerAccess dev x) s = .next { s with
        mem := putList s.mem pa bs, bad := l, mgmt := { s.mgmt with peerReply := .data rs }, epoch := s.epoch + 1 } := by
  obtain ⟨l, hl, hw⟩ := after_writeEvent pa bs s
  refine ⟨l, hl, ?_⟩
  rw [exec_buryxPeerAccess, h, after_andThen, hw]
  rfl

/-- A request that is answered and changes nothing. -/
theorem exec_peerAnswer {s : State} {dev : Nat} {x : PeerAccess} {r : PeerReply} (h : peerResult s x = (r, skip)) :
    exec (.buryxPeerAccess dev x) s = .next { s with mgmt := { s.mgmt with peerReply := r } } := by
  rw [exec_buryxPeerAccess, h]
  rfl

/-- Settles O46. -/
theorem outsideAccessesComplete : Obligations.OutsideAccessesComplete := by
  unfold Obligations.OutsideAccessesComplete
  intro s hcan masks hostSays peerSays stores
  refine ⟨recordShare_spec s, ?evict, ?entry, ?snoop, ?read, ?unread, ?write, ?load, ?store, ?atom, ?answers⟩
  case evict =>
    intro core line words hcore
    refine ⟨{ s with dir := mPut 0 s.dir (line * 1024 + core) (mGet 0 s.dir (line * 1024 + core) &&& ~~~words) }, ?_, rfl, fun k => ?_⟩
    · change execL1EvictDrop core line words s = _
      rw [execL1EvictDrop, if_pos hcore, finish_eq, after_eff]
      rfl
    · refine (mGet_mPut ..).trans ?_
      dsimp only
      split
      · next h => rw [h]
      · rfl
  case entry =>
    intro line
    refine ⟨after (dropEntry line) s, rfl, eq_of_only_dir (only_dropEntry line s), mGet_dropEntry line s⟩
  case snoop =>
    intro line hline hup
    let l := s.dir.filter fun e => decide (e.1 / 1024 = line / 2)
    let f (m : Mask) : Mask := m &&& ~~~(lineMask line)
    let a : Act := fun s => (s.dir.filter fun e => decide (e.1 / 1024 = line / 2)).map fun e => .share e.1 (f e.2)
    have hrun : exec (.hostSnoop line) s = .next (after a s) := by
      change execHostSnoop line s = _
      rw [execHostSnoop, finish_eq]
      exact congrArg (fun es => Host.Outcome.next (applyAll es s)) (if_pos ⟨hline, hup⟩)
    refine ⟨after a s, hrun, eq_of_only_dir (only_of_each (fun v e he => by obtain ⟨x, -, rfl⟩ := List.mem_map.1 he; simp [Effect.table]) s),
      fun k => ?_⟩
    have hsort : mSorted s.dir = true := (Bool.and_eq_true _ _ ▸ hcan.dir).1
    obtain ⟨hout, hin⟩ := mGet_putShares f l s k
    change mGet 0 (applyAll (l.map fun e => .share e.1 (f e.2)) s).dir k = if k / 1024 = line / 2 then f (mGet 0 s.dir k) else mGet 0 s.dir k
    by_cases hk : k ∈ l.map (·.1)
    · obtain ⟨e, he, rfl⟩ := List.mem_map.1 hk
      obtain ⟨hmem, hline⟩ := List.mem_filter.1 he
      have hval : mGet 0 s.dir e.1 = e.2 := by rw [mGet, mLook_of_mem hsort hmem]; rfl
      rw [if_pos (of_decide_eq_true hline), hval]
      refine hin e.2 (fun x hx hxk => ?_) hk
      have := mLook_of_mem hsort (List.mem_filter.1 hx).1
      rw [hxk, mLook_of_mem hsort hmem] at this
      exact (Option.some.inj this).symm
    · rw [hout hk]
      split
      · next hline =>
        have hnone : mLook s.dir k = none := by
          cases hl : mLook s.dir k with
          | none => rfl
          | some m => exact absurd (List.mem_map.2 ⟨(k, m), List.mem_filter.2 ⟨mem_of_mLook hl, decide_eq_true hline⟩, rfl⟩) hk
        rw [mGet, hnone]
        exact BitVec.zero_and.symm
      · rfl
  case read =>
    intro pa hr hup hgood
    have hgo : ¬(!deviceRange pa 1 || !cxlUp s) = true := by rw [hr, hup]; exact Bool.false_ne_true
    have hopen : ¬(secureKey s pa || locBad s (.glob (64 * (pa / 64))) 64) = true := by rw [hgood]; exact Bool.false_ne_true
    change execHostMemRead pa s = _
    rw [execHostMemRead, finish_eq]
    refine congrArg Host.Outcome.next ((congrArg (fun a => after a s) ((if_neg hgo).trans (if_neg hopen))).trans ?_)
    rw [after_andThen, after_updMgmt]
    by_cases hquiet : (ucsKey s pa || sealedKey s pa) = true
    · rw [if_pos hquiet, if_pos hquiet]
      rfl
    · rw [if_neg hquiet, if_neg hquiet]
      have hdir := (recordShare_spec s (pa / 64 / 2) 1000 (lineMask (pa / 64)) (by decide)).1
      generalize after (recordShare _ _ _) s = u at hdir ⊢
      rw [hdir]
  case unread =>
    intro pa hr hup hbad
    have hgo : ¬(!deviceRange pa 1 || !cxlUp s) = true := by rw [hr, hup]; exact Bool.false_ne_true
    change execHostMemRead pa s = _
    rw [execHostMemRead, finish_eq]
    exact congrArg (fun a => Host.Outcome.next (after a s)) ((if_neg hgo).trans (if_pos hbad))
  case write =>
    intro pa bs hr hup hline barred
    have hgo : ¬(!deviceRange pa bs.length || !cxlUp s || decide (64 < pa % 64 + bs.length)) = true := by
      rw [hr, hup, decide_eq_false (Nat.not_lt.2 hline)]
      exact Bool.false_ne_true
    have hact : exec (.hostMemWrite pa bs) s = .next (after (if barred = true then updMgmt fun m => { m with hostReply := none }
        else andThen (writeEvent pa bs) (andThen (updMgmt fun m => { m with hostReply := some [] }) bump)) s) := by
      change execHostMemWrite pa bs s = _
      rw [execHostMemWrite, finish_eq]
      exact congrArg (fun a => Host.Outcome.next (after a s)) (if_neg hgo)
    refine ⟨fun h => ?_, fun h => by rw [hact, if_pos h]; rfl⟩
    obtain ⟨l, hl, hw⟩ := after_writeEvent pa bs s
    refine ⟨l, hl, hact.trans ?_⟩
    rw [if_neg (by rw [h]; exact Bool.false_ne_true), after_andThen, hw]
    rfl
  case load =>
    intro dev pa n hb hd hn hm hbad
    have h := peerResult_done (s := s) (x := .load pa n) rfl rfl hb hn hm hd rfl hbad
    rw [exec_buryxPeerAccess, h]
    rfl
  case store =>
    intro dev pa bs hb hd hn hm hs
    exact exec_peerWrite (peerResult_done (s := s) (x := .store pa bs) rfl rfl hb (fun h => hn (List.length_eq_zero_iff.1 h)) hm hd
      (sealedBytes_false hs) rfl)
  case atom =>
    intro dev pa sop wide e e2 n new said hsop hb hd hm hbad hs
    have hn : n ≠ 0 := by cases wide <;> decide
    have h := peerResult_done (s := s) (x := .atom pa sop wide e e2) (pa := pa) (n := n) rfl (decide_eq_true hsop) hb hn hm hd
      (sealedBytes_false hs) hbad
    have heffect : peerEffect s (.atom pa sop wide e e2) =
        (bytesOfNat n (bytesAt s.mem pa n), match new with | some v => writeEvent pa (bytesOfNat n v) | none => skip) := rfl
    refine ⟨fun v hv => exec_peerWrite (h.trans ?_), fun hv => ?_⟩
    · rw [heffect, hv]
    · rw [exec_buryxPeerAccess, h, heffect, hv]
      rfl
  case answers =>
    intro dev x pa n good shut answers
    refine ⟨fun h => exec_peerAnswer (peerResult_refused (ok := (peerSpan x).2.2) rfl h), fun h hshut => ?sealed, fun h hshut hread hbad => ?bad⟩
    all_goals
      simp only [good, Bool.and_eq_true, decide_eq_true_eq] at h
      obtain ⟨⟨⟨⟨hok, hb⟩, hn⟩, hm⟩, hd⟩ := h
      have hmade := peerResult_made (x := x) (ok := (peerSpan x).2.2) rfl hok hb hn hm hd
    case sealed => exact exec_peerAnswer (hmade.trans (if_pos hshut))
    case bad =>
      refine exec_peerAnswer (hmade.trans ((if_neg ?_).trans (if_pos ?_)))
      · exact fun h => Bool.noConfusion (hshut.symm.trans h)
      · rw [hread]; exact hbad

end Sys2Proof.Machine


/-! # Links, the fault ring and the answers to page faults (25_traps_faults R394, R399, 27_system_interfaces R416, R422) -/

namespace Sys2Proof.Machine

/-! ## Entries rewritten one by one -/

section
variable {β α : Type} {κ : β → Nat} {w : β → α} {l : List β} {k : Nat}

theorem mLook_foldl_mIns_ne (m : Map α) (h : ∀ x ∈ l, κ x ≠ k) : mLook (l.foldl (fun m x => mIns m (κ x) (w x)) m) k = mLook m k := by
  induction l generalizing m with
  | nil => rfl
  | cons x l ih =>
    rw [List.foldl_cons, ih _ fun y hy => h y (List.mem_cons_of_mem _ hy), mLook_mIns_ne _ _ (h x List.mem_cons_self).symm]

theorem mLook_foldl_mIns_all (m : Map α) {a : α} (hx : ∃ x ∈ l, κ x = k) (hw : ∀ x ∈ l, κ x = k → w x = a) :
    mLook (l.foldl (fun m x => mIns m (κ x) (w x)) m) k = some a := by
  induction l generalizing m with
  | nil => obtain ⟨x, hx, -⟩ := hx; cases hx
  | cons x l ih =>
    rw [List.foldl_cons]
    by_cases hl : ∃ y ∈ l, κ y = k
    · exact ih _ hl fun y hy => hw y (List.mem_cons_of_mem _ hy)
    · obtain ⟨y, hy, hk⟩ := hx
      obtain rfl | hy := List.mem_cons.1 hy
      · rw [mLook_foldl_mIns_ne _ fun z hz hzk => hl ⟨z, hz, hzk⟩, hk, mLook_mIns_self, hw y List.mem_cons_self hk]
      · exact absurd ⟨y, hy, hk⟩ hl
end

/-- The entries of a table that a test takes, rewritten. -/
def rewritten {α : Type} (c : Nat × α → Bool) (g : α → α) (m : Map α) : Map α := (m.filter c).foldl (fun m e => mIns m e.1 (g e.2)) m

theorem mLook_rewritten {α : Type} {m : Map α} (hm : mSorted m = true) (c : Nat × α → Bool) (g : α → α) {k : Nat} {a : α}
    (ha : mLook m k = some a) : mLook (rewritten c g m) k = some (if c (k, a) then g a else a) := by
  have huniq {e : Nat × α} (he : e ∈ m) (hk : e.1 = k) : e.2 = a := by
    have := mLook_of_mem hm he
    rw [hk, ha] at this
    exact (Option.some.inj this).symm
  by_cases hc : c (k, a) = true
  · rw [if_pos hc]
    exact mLook_foldl_mIns_all (κ := fun e : Nat × α => e.1) (w := fun e => g e.2) m
      ⟨(k, a), List.mem_filter.2 ⟨mem_of_mLook ha, hc⟩, rfl⟩ fun e he hk => congrArg g (huniq (List.mem_filter.1 he).1 hk)
  · rw [if_neg hc]
    refine (mLook_foldl_mIns_ne (κ := fun e : Nat × α => e.1) (w := fun e => g e.2) m fun e he hk => hc ?_).trans ha
    obtain ⟨hmem, hce⟩ := List.mem_filter.1 he
    rw [← huniq hmem hk, ← hk]
    exact hce

theorem after_warpEach (c : Nat × Warp → Bool) (g : Warp → Warp) (s : State) :
    after (fun s => (s.warps.filter c).map fun e => .warp e.1 (g e.2)) s = { s with warps := rewritten c g s.warps } := by
  have key (l : List (Nat × Warp)) (s : State) : applyAll (l.map fun e => .warp e.1 (g e.2)) s =
      { s with warps := l.foldl (fun m e => mIns m e.1 (g e.2)) s.warps } := by
    induction l generalizing s with
    | nil => rfl
    | cons e l ih => rw [List.map_cons, applyAll_cons, ih]; rfl
  exact key (s.warps.filter c) s

theorem after_engEach (c : Nat × EngOp → Bool) (g : EngOp → EngOp) (l : List (Nat × EngOp)) (s : State) :
    after (forAll (fun e => if c e then eff (.eng e.1 (g e.2)) else skip) l) s =
      { s with engs := (l.filter c).foldl (fun m e => mIns m e.1 (g e.2)) s.engs } := by
  induction l generalizing s with
  | nil => rfl
  | cons e l ih =>
    rw [after_forAll_cons, ih]
    by_cases hc : c e = true
    · rw [if_pos hc, List.filter_cons_of_pos hc]; rfl
    · rw [if_neg hc, List.filter_cons_of_neg hc]; rfl

/-! ## Answers -/

/-- A strand as an answer to a fault of page `page` leaves it. -/
def answeredStrand (cid page : Nat) (fail : Bool) (t : Strand) : Strand :=
  { t with
    held := if t.held = some (page, false) then (if fail then some (page, true) else none) else t.held
    shadow := if fail then t.shadow.map fun p =>
        if p.ctx = cid ∧ p.pages.contains page then { p with failed := page :: p.failed } else p
      else t.shadow }

/-- An engine operation as an answer leaves it. -/
def answeredEngine (cid page : Nat) (fail : Bool) (o : EngOp) : EngOp :=
  { o with asked := o.asked.erase (cid, page), failed := if fail then (cid, page) :: o.failed else o.failed }

theorem after_answerWaiters (cid page : Nat) (fail : Bool) (s : State) : after (answerWaiters cid page fail) s =
    { s with
      warps := rewritten (fun e => decide (ctxOfWarp s e.2 = some cid)) (onEvery (answeredStrand cid page fail)) s.warps
      engs := rewritten (fun e => e.2.asked.contains (cid, page)) (answeredEngine cid page fail) s.engs } := by
  rw [answerWaiters, after_look, after_andThen]
  refine (congrArg _ (after_warpEach (fun e => decide (ctxOfWarp s e.2 = some cid)) (onEvery (answeredStrand cid page fail)) s)).trans ?_
  exact after_engEach (fun e => e.2.asked.contains (cid, page)) (answeredEngine cid page fail) s.engs _

theorem exec_faultAnswer (fail : Bool) (id : Nat) (s : State) :
    exec (if fail then .faultFail id else .faultRetry id) s = .next (after (answerFault id fail) s) := by cases fail <;> rfl

/-- An answer to a fault that was reported. -/
theorem after_answerFault {s : State} {id : Nat} {f : PageFault} (hf : mLook s.faults id = some f) (hrep : f.reported = true) (fail : Bool) :
    after (answerFault id fail) s = { s with
      faults := mDel s.faults id
      warps := rewritten (fun e => decide (ctxOfWarp s e.2 = some f.ctx)) (onEvery (answeredStrand f.ctx f.page fail)) s.warps
      engs := rewritten (fun e => e.2.asked.contains (f.ctx, f.page)) (answeredEngine f.ctx f.page fail) s.engs
      epoch := s.epoch + 1 } := by
  rw [answerFault, after_look, hf]
  simp only [hrep, Bool.not_true, Bool.false_eq_true, if_false]
  rw [after_andThen, after_andThen, after_answerWaiters, after_bump]
  rfl

/-- Settles O47. -/
theorem linksAndFaultsComplete : Obligations.LinksAndFaultsComplete := by
  unfold Obligations.LinksAndFaultsComplete
  intro s
  refine ⟨?route, ?down, ?busy, ?poll, ?record, ?unrecorded, ?index, ?ignored, ?answer⟩
  case route =>
    intro dev r hr
    change execBuryxLinkDown dev true s = _
    rw [execBuryxLinkDown, finish_eq]
    refine congrArg Host.Outcome.next ((congrArg (fun a => after a s) (if_pos rfl)).trans ?_)
    rw [after_updMgmt]
    simp only [hr]
  case down =>
    intro dev hout
    change execBuryxLinkDown dev false s = _
    rw [execBuryxLinkDown, finish_eq]
    refine congrArg Host.Outcome.next ((congrArg (fun a => after a s) ((if_neg Bool.false_ne_true).trans (if_neg fun h => ?_))).trans ?_)
    · obtain ⟨e, he, h⟩ := List.any_eq_true.1 h
      obtain ⟨u, hu, h⟩ := List.any_eq_true.1 h
      obtain ⟨hdone, hloc⟩ := (Bool.and_eq_true _ _).mp h
      rcases hout e he u hu with hd | hk
      · rw [hd] at hdone
        exact Bool.noConfusion hdone
      · split at hloc
        · next k hk' => exact hk k hk' (of_decide_eq_true hloc)
        · exact Bool.noConfusion hloc
    · rw [after_andThen, after_updMgmt, after_bump]
  case busy =>
    intro dev e he u hu k hdone hloc hk
    change execBuryxLinkDown dev false s = _
    rw [execBuryxLinkDown, finish_eq]
    refine congrArg (fun a => Host.Outcome.next (after a s)) ((if_neg Bool.false_ne_true).trans (if_pos ?_))
    refine List.any_eq_true.2 ⟨e, he, List.any_eq_true.2 ⟨u, hu, ?_⟩⟩
    rw [hdone, hloc]
    exact decide_eq_true hk
  case poll =>
    intro w k i hat
    refine ⟨fun m hm => ?_, fun va n rel val tags stay hm => ?_⟩
    · change execPeerWordPoll w k s = execWaitmMet w k s
      rw [execPeerWordPoll, hat, execWaitmMet]
      simp only [hm]
    · obtain ⟨rfl, rfl, hw, hst, -⟩ := issAt_spec (issAt_of_strandAt hat)
      have hrun : exec (.peerWordPoll i.w i.k) s = .next (after (andThen (updStrand i.w i.k fun t => { t with idleAt := 0 }) bump) s) := by
        change execPeerWordPoll i.w i.k s = _
        rw [execPeerWordPoll, finish_eq, hat]
        simp only [hm]
      rw [after_andThen, after_updStrand hw, after_bump] at hrun
      exact ⟨_, _, hrun, rfl, mLook_mIns_self .., onStrand_eq .., onStrand_here hst⟩
  case record =>
    intro id f base hf hbase hnext hroom
    change execPageFaultRecord id s = _
    rw [execPageFaultRecord, finish_eq, hf, hbase]
    simp only [hnext, ne_eq, not_true_eq_false, decide_false, decide_eq_false (Nat.not_le.2 hroom), Bool.or_self, Bool.false_eq_true, if_false]
    rw [after_andThen, after_andThen, after_andThen, after_bump, after_updMgmt, after_eff, after_eff, applyEffect, applyEffect]
  case unrecorded =>
    intro id h
    change execPageFaultRecord id s = _
    rw [execPageFaultRecord, finish_eq]
    split
    · next f base hf hbase =>
      refine congrArg (fun a => Host.Outcome.next (after a s)) (if_pos ?_)
      rw [Bool.or_eq_true, decide_eq_true_eq, decide_eq_true_eq]
      rcases h with h | h | h | h
      · exact absurd (hf.symm.trans h) (by simp)
      · exact absurd (hbase.symm.trans h) (by simp)
      · exact .inl h
      · exact .inr h
    · rfl
  case index =>
    intro v hup
    change execFciWrite v s = _
    rw [execFciWrite, finish_eq, hup, Bool.true_and, ringUsed]
    by_cases hv : (v - s.mgmt.fci).toNat ≤ (s.mgmt.fpi - s.mgmt.fci).toNat
    · rw [if_pos hv, if_pos (decide_eq_true hv), after_andThen, after_updMgmt, after_bump]
    · rw [if_neg hv, if_neg fun h => hv (of_decide_eq_true h)]
      rfl
  case ignored =>
    intro fail id h
    rw [exec_faultAnswer, answerFault, after_look]
    split
    · rfl
    · next f hf =>
      rw [h f hf]
      rfl
  case answer =>
    intro fail id f hcan hf hrep answered
    refine ⟨_, (exec_faultAnswer fail id s).trans (congrArg Host.Outcome.next (after_answerFault hf hrep fail)), rfl, mLook_mDel_self ..,
      fun k hk => mLook_mDel_ne _ hk, fun w x hx => ?_, fun k o ho hno => ?_, fun k o ho hyes => ?_⟩
    · exact (mLook_rewritten hcan.warps _ _ hx).trans (congrArg some (ite_of_iff decide_eq_true_iff))
    · exact (mLook_rewritten hcan.engs _ _ ho).trans (congrArg some (if_neg (by rw [hno]; exact Bool.false_ne_true)))
    · exact (mLook_rewritten hcan.engs _ _ ho).trans (congrArg some (if_pos hyes))

end Sys2Proof.Machine


/-! # Management commands (27_system_interfaces R417 to R428) -/

namespace Sys2Proof.Machine

/-! ## A command as its port runs it -/

theorem answer_eq (p : Port) (r : Reply) : answer p r = updMgmt (answered p r) := by cases p <;> rfl

theorem after_answer (p : Port) (r : Reply) (s : State) : after (answer p r) s = onMgmt (answered p r) s := by
  rw [answer_eq, after_updMgmt]
  rfl

/-- What a command does once its port has been heard. -/
def ruling (p : Port) (k : CommandClass) (sem : Bool) (a : Act) (s : State) : Act :=
  match screen s.mgmt p k with
  | some .silent => skip
  | some r => answer p r
  | none => if sem && decide (s.mgmt.holder ≠ some p) then answer p .busy else a

theorem after_command (p : Port) (k : CommandClass) (sem : Bool) (a : Act) (s : State) :
    after (command p k sem a) s = after (ruling p k sem a s) (heard p s) := by
  rw [command, after_andThen, after_look, after_look]
  rfl

section
variable {p : Port} {k : CommandClass} {sem : Bool} {s : State} (a : Act)

theorem ruling_runs (hs : screen s.mgmt p k = none) (hsem : sem = true → s.mgmt.holder = some p) : ruling p k sem a s = a := by
  rw [ruling, hs]
  refine if_neg fun h => ?_
  rw [Bool.and_eq_true, decide_eq_true_eq] at h
  exact h.2 (hsem h.1)

theorem ruling_busy (hs : screen s.mgmt p k = none) (hsem : sem = true) (hh : s.mgmt.holder ≠ some p) :
    ruling p k sem a s = answer p .busy := by
  rw [ruling, hs]
  exact if_pos (by rw [hsem, decide_eq_true hh]; rfl)

theorem ruling_silent (hs : screen s.mgmt p k = some .silent) : ruling p k sem a s = skip := by rw [ruling, hs]

theorem ruling_answers {r : Reply} (hs : screen s.mgmt p k = some r) (hr : r ≠ .silent) : ruling p k sem a s = answer p r := by
  rw [ruling]
  split
  · next h => exact absurd (Option.some.inj (hs.symm.trans h)) hr
  · next h => rw [Option.some.inj (hs.symm.trans h)]
  · next h => exact absurd (hs.symm.trans h) (by simp)
end

/-! ## What each command does -/

theorem cycleOf_updCore {f : Core → Core} (c : Nat) (hf : ∀ k, (f k).extra = k.extra) (u : State) (d : Nat) :
    cycleOf (after (updCore c f) u) d = cycleOf u d := by
  have hextra : (coreOf (after (updCore c f) u) d).extra = (coreOf u d).extra := by
    rw [after_updCore, coreOf]
    by_cases h : d = c
    · subst h
      rw [mGet, mLook_mIns_self]
      exact hf _
    · rw [mGet_mIns_ne _ _ _ h]
      rfl
  rw [cycleOf, cycleOf, hextra]
  rfl

/-- The samplers of some cores started one by one. -/
theorem after_sampleCfg (x : SampleArgs) (s : State) (l : List Nat) (u : State) (hu : ∀ c, cycleOf u c = cycleOf s c) :
    after (forAll (fun c => look fun s => updCore c fun k =>
      { k with sampler := some { period := x.period, buffer := x.buffer, since := cycleOf s c } }) l) u =
    { u with cores := l.foldl (fun m c => mIns m c
      { mGet {} m c with sampler := some { period := x.period, buffer := x.buffer, since := cycleOf s c } }) u.cores } := by
  induction l generalizing u with
  | nil => rfl
  | cons c l ih =>
    rw [after_forAll_cons, after_look, ih _ fun d => (cycleOf_updCore (f := fun k => { k with sampler := some _ }) c (fun _ => rfl) u d).trans (hu d),
      after_updCore, hu c]
    rfl

/-- A command is one that its port accepts, and does `f` in the state that has heard it. -/
structure Accepts (p : Port) (s : State) (o : Instr) (k : CommandClass) (sem good : Bool) (f : State → State) (a : Act) : Prop where
  runs : exec o s = .next (after (command p k sem (accepted p good a)) s)
  does : after a (heard p s) = f (heard p s)

theorem exec_command {p : Port} {s : State} {o : Instr} {k : CommandClass} {sem good : Bool} {f : State → State}
    (h : Command p s o k sem good f) : ∃ a, Accepts p s o k sem good f a := by
  cases h with
  | ctxCreate x => exact ⟨_, rfl, rfl⟩
  | ctxDestroy c => exact ⟨_, rfl, rfl⟩
  | partSet x =>
    refine ⟨_, rfl, ?_⟩
    rw [after_look, after_andThen]
    rfl
  | coreMove c q => exact ⟨_, rfl, after_andThen ..⟩
  | queueCreate x => exact ⟨_, rfl, rfl⟩
  | debugStop c on =>
    refine ⟨_, rfl, ?_⟩
    change after (updCtx c fun x => { x with debugStop := on }) (heard p s) = _
    cases hc : mLook (heard p s).ctxs c with
    | none => rw [after, updCtx, hc]; rfl
    | some x => rw [after_updCtx hc]
  | debugResume c n i hi =>
    refine ⟨advance i 1, ?_, rfl⟩
    change execDebugResume p c n s = _
    rw [execDebugResume, finish_eq, hi]
  | debugMiss c n hi =>
    refine ⟨skip, ?_, rfl⟩
    change execDebugResume p c n s = _
    rw [execDebugResume, finish_eq, hi]
    rfl
  | traceCfg c x => exact ⟨_, rfl, after_updCore ..⟩
  | sampleCfg x => exact ⟨_, rfl, after_sampleCfg x s x.cores (heard p s) fun _ => rfl⟩
  | xlateInv c base len hout =>
    refine ⟨_, ?_, rfl⟩
    change execXlateInv p c base len s = _
    rw [execXlateInv, finish_eq]
    refine congrArg (fun a => Host.Outcome.next (after a s)) (if_neg fun h => ?_)
    obtain ⟨e, he, h⟩ := List.any_eq_true.1 h
    rw [Bool.and_eq_true, decide_eq_true_eq] at h
    obtain ⟨u, hu, h2⟩ := List.any_eq_true.1 h.2
    obtain ⟨hdone, hloc⟩ := (Bool.and_eq_true _ _).mp h2
    rcases hout e he h.1 u hu with hd | hk
    · rw [hd] at hdone
      exact Bool.noConfusion hdone
    · split at hloc
      · next k hk' => exact hk k hk'
      · exact Bool.noConfusion hloc
  | faultRing base n hfree =>
    refine ⟨updMgmt fun m => { m with ringBase := some base, ringCount := n, fpi := 0, fci := 0 }, ?_, rfl⟩
    change execFaultRing p base n s = _
    rw [execFaultRing, finish_eq]
    refine congrArg (fun a => Host.Outcome.next (after (command p .faultRing true a) s)) ?_
    cases hg : decide (base.toNat % 4096 = 0) && (List.range 13).any fun j => decide (n = 16 * 2 ^ j) with
    | false => rfl
    | true =>
      refine (if_neg Bool.false_ne_true).trans (if_neg fun h => ?_)
      rw [Bool.and_eq_true, decide_eq_true_eq] at h
      rcases hfree with hf | hf
      · rw [hf] at h
        exact Bool.noConfusion h.1
      · exact h.2 hf
  | powerStep n => exact ⟨_, rfl, rfl⟩
  | buryxRoute d r => exact ⟨_, rfl, rfl⟩
  | semAcquire hnone hlast =>
    refine ⟨updMgmt fun m => { m with holder := some p, acquisitions := (m.acquisitions + 1) % 2 ^ 32, heardAt := s.now }, ?_, rfl⟩
    change execSemAcquire p s = _
    rw [execSemAcquire, finish_eq]
    refine congrArg (fun a => Host.Outcome.next (after (command p .sem false a) s)) (if_neg fun h => ?_)
    rw [hnone, Bool.or_eq_true, Bool.and_eq_true, decide_eq_true_eq] at h
    rcases h with h | ⟨h1, h2⟩
    · exact Bool.noConfusion h
    · exact Bool.noConfusion ((hlast h1).symm.trans h2)
  | semRelease => exact ⟨_, rfl, rfl⟩

/-! ## SPDM -/

/-- An SPDM message runs as its class, changes what it says and answers on its port's side. -/
theorem exec_spdm {p : Port} {s : State} {o : Instr} {k : CommandClass} {n : Nat} {ws : List Nat} {f : Mgmt → Mgmt}
    (h : SpdmMessage p s o k n ws f) : ∃ a, exec o s = .next (after (spdm p k n ws a) s) ∧ after a (heard p s) = onMgmt f (heard p s) := by
  cases h with
  | keyExchange => exact ⟨updMgmt fun m => { m with keyed := true }, rfl, rfl⟩
  | finish => exact ⟨updMgmt fun m => { m with session := m.session || m.keyed, keyed := false }, rfl, rfl⟩
  | _ => exact ⟨skip, rfl, rfl⟩

/-- The answer to an SPDM message. -/
theorem after_spdmAnswer (p : Port) (n : Nat) (ws : List Nat) (u : State) : after (spdmAnswer p n ws) u = match p with
    | .i3c => onMgmt (answered p (.ok (Config.spdmBody n u.tick :: ws))) u
    | .mailbox => onMgmt (fun m => { m with doe := m.doe ++ (Config.spdmBody n u.tick :: ws).map fun w => (n, w) }) u := by
  cases p <;> rfl

/-- Settles O48: every command is heard, screened by its class and the semaphore, and accepted by its inputs. -/
theorem commandsComplete : Obligations.CommandsComplete := by
  unfold Obligations.CommandsComplete
  intro p s h reply
  refine ⟨fun ins k sem good f hcmd => ?command, fun hs => ?log, fun ins k n ws f hmsg hs => ?message⟩
  case command =>
    obtain ⟨a, hruns, hdoes⟩ := exec_command hcmd
    rw [after_command] at hruns
    have hanswer {r : Reply} (hr : ruling p k sem (accepted p good a) s = answer p r) : exec ins s = reply r := by
      rw [hruns, hr, after_answer]
    refine ⟨fun hs hsem => ⟨fun hgood => ?_, fun hgood => ?_⟩, fun hs hsem hh => hanswer (ruling_busy _ hs hsem hh), fun hs => ?_,
      fun r hs hr => hanswer (ruling_answers _ hs hr)⟩
    · rw [hruns, ruling_runs _ hs hsem, hgood, accepted, if_pos rfl, after_andThen, hdoes, after_andThen, after_answer, after_bump]
      rfl
    · exact hanswer ((ruling_runs _ hs hsem).trans (by rw [hgood]; rfl))
    · rw [hruns, ruling_silent _ hs]
      rfl
  case log =>
    have hruns : exec (.errLog p) s = .next (after (command p .errLog false (answer p (.log s.mgmt.errLog))) s) := rfl
    rw [hruns, after_command, ruling_runs _ hs fun h => Bool.noConfusion h, after_answer]
  case message =>
    intro u
    obtain ⟨a, hruns, hdoes⟩ := exec_spdm hmsg
    rw [hruns, spdm, after_command, ruling_runs _ hs fun h => Bool.noConfusion h, after_andThen, hdoes, after_spdmAnswer]
    cases p <;> rfl

end Sys2Proof.Machine


/-! # What the controller does by itself (25_traps_faults R401, 27_system_interfaces R418, R420, R423 to R428) -/

namespace Sys2Proof.Machine

/-! ## The loss of everything -/

/-- `get` and `set` are a field of the state. -/
structure IsField {β : Type} (get : State → β) (set : State → β → State) : Prop where
  get_set : ∀ u b, get (set u b) = b
  set_set : ∀ u b c, set (set u b) c = set u c
  set_get : ∀ u, set u (get u) = u

/-- Effects on one field, one for each entry of a list, are a fold over the field. -/
theorem applyAll_map {α β : Type} {get : State → β} {set : State → β → State} (hf : IsField get set) {mk : α → Effect} {step : β → α → β}
    (hstep : ∀ u a, applyEffect u (mk a) = set u (step (get u) a)) (l : List α) (u : State) :
    applyAll (l.map mk) u = set u (l.foldl step (get u)) := by
  induction l generalizing u with
  | nil => exact (hf.set_get u).symm
  | cons a l ih => rw [List.map_cons, applyAll_cons, ih, hstep, hf.get_set, hf.set_set, List.foldl_cons]

theorem foldl_mDel_nil {α : Type} (l : List (Nat × α)) (m : Map α) (h : ∀ e ∈ m, e.1 ∈ l.map (·.1)) :
    l.foldl (fun m e => mDel m e.1) m = [] := by
  induction l generalizing m with
  | nil =>
    cases m with
    | nil => rfl
    | cons e m => exact absurd (h e List.mem_cons_self) (by simp)
  | cons x l ih =>
    rw [List.foldl_cons]
    refine ih _ fun e he => ?_
    obtain ⟨hmem, hne⟩ := List.mem_filter.1 he
    refine (List.mem_cons.1 (h e hmem)).resolve_left fun hx => ?_
    simp [hx] at hne

theorem foldl_mDel_self {α : Type} (m : Map α) : m.foldl (fun m e => mDel m e.1) m = [] :=
  foldl_mDel_nil m m fun e he => List.mem_map.2 ⟨e, he, rfl⟩

/-- What is left when everything is lost. -/
def lost (s : State) : State :=
  { s with
    warps := [], blocks := [], groups := [], launches := [], ctxs := [], queues := [], pool := [], ops := [], engs := []
    faults := []
    dir := s.dir.foldl (fun d e => mPut 0 d e.1 0) s.dir
    cores := s.cores.foldl (fun m e => mIns m e.1 {}) s.cores
    locks := []
    bad := []
    mem := s.mem.filter fun c => decide (deviceKeys ≤ c.1) }

theorem after_loseAll (s : State) : after loseAll s = lost s := by
  have warps : IsField (·.warps) fun s m => { s with warps := m } := ⟨fun _ _ => rfl, fun _ _ _ => rfl, fun _ => rfl⟩
  have blocks : IsField (·.blocks) fun s m => { s with blocks := m } := ⟨fun _ _ => rfl, fun _ _ _ => rfl, fun _ => rfl⟩
  have groups : IsField (·.groups) fun s m => { s with groups := m } := ⟨fun _ _ => rfl, fun _ _ _ => rfl, fun _ => rfl⟩
  have launches : IsField (·.launches) fun s m => { s with launches := m } := ⟨fun _ _ => rfl, fun _ _ _ => rfl, fun _ => rfl⟩
  have ctxs : IsField (·.ctxs) fun s m => { s with ctxs := m } := ⟨fun _ _ => rfl, fun _ _ _ => rfl, fun _ => rfl⟩
  have queues : IsField (·.queues) fun s m => { s with queues := m } := ⟨fun _ _ => rfl, fun _ _ _ => rfl, fun _ => rfl⟩
  have pool : IsField (·.pool) fun s m => { s with pool := m } := ⟨fun _ _ => rfl, fun _ _ _ => rfl, fun _ => rfl⟩
  have ops : IsField (·.ops) fun s m => { s with ops := m } := ⟨fun _ _ => rfl, fun _ _ _ => rfl, fun _ => rfl⟩
  have engs : IsField (·.engs) fun s m => { s with engs := m } := ⟨fun _ _ => rfl, fun _ _ _ => rfl, fun _ => rfl⟩
  have faults : IsField (·.faults) fun s m => { s with faults := m } := ⟨fun _ _ => rfl, fun _ _ _ => rfl, fun _ => rfl⟩
  have dir : IsField (·.dir) fun s m => { s with dir := m } := ⟨fun _ _ => rfl, fun _ _ _ => rfl, fun _ => rfl⟩
  have cores : IsField (·.cores) fun s m => { s with cores := m } := ⟨fun _ _ => rfl, fun _ _ _ => rfl, fun _ => rfl⟩
  unfold after loseAll
  have hwarps := applyAll_map warps (mk := fun e => .dropWarp e.1) (step := fun m e => mDel m e.1) (fun _ _ => rfl) s.warps
  have hblocks := applyAll_map blocks (mk := fun e => .dropBlock e.1) (step := fun m e => mDel m e.1) (fun _ _ => rfl) s.blocks
  have hgroups := applyAll_map groups (mk := fun e => .dropGroup e.1) (step := fun m e => mDel m e.1) (fun _ _ => rfl) s.groups
  have hlaunches := applyAll_map launches (mk := fun e => .dropLaunch e.1) (step := fun m e => mDel m e.1) (fun _ _ => rfl) s.launches
  have hctxs := applyAll_map ctxs (mk := fun e => .dropCtx e.1) (step := fun m e => mDel m e.1) (fun _ _ => rfl) s.ctxs
  have hqueues := applyAll_map queues (mk := fun e => .dropQueue e.1) (step := fun m e => mDel m e.1) (fun _ _ => rfl) s.queues
  have hpool := applyAll_map pool (mk := fun e => .dropPage e.1) (step := fun m e => mDel m e.1) (fun _ _ => rfl) s.pool
  have hops := applyAll_map ops (mk := fun e => .dropOp e.1) (step := fun m e => mDel m e.1) (fun _ _ => rfl) s.ops
  have hengs := applyAll_map engs (mk := fun e => .dropEng e.1) (step := fun m e => mDel m e.1) (fun _ _ => rfl) s.engs
  have hfaults := applyAll_map faults (mk := fun e => .dropFault e.1) (step := fun m e => mDel m e.1) (fun _ _ => rfl) s.faults
  have hdir := applyAll_map dir (mk := fun e => .share e.1 0) (step := fun m e => mPut 0 m e.1 0) (fun _ _ => rfl) s.dir
  have hcores := applyAll_map cores (mk := fun e => .core e.1 {}) (step := fun m e => mIns m e.1 {}) (fun _ _ => rfl) s.cores
  simp only [applyAll_append, foldl_mDel_self, hwarps, hblocks, hgroups, hlaunches, hctxs, hqueues, hpool, hops, hengs, hfaults, hdir, hcores]
  rfl

theorem mGet_foldl_reset {α β : Type} (d : α) (put : Map α → Nat → Map α) (hself : ∀ m k, mGet d (put m k) k = d)
    (hne : ∀ m k j, j ≠ k → mGet d (put m k) j = mGet d m j) (l : List (Nat × β)) (m : Map α) (k : Nat)
    (h : k ∈ l.map (·.1) ∨ mGet d m k = d) : mGet d (l.foldl (fun m e => put m e.1) m) k = d := by
  induction l generalizing m with
  | nil => exact h.resolve_left (by simp)
  | cons e l ih =>
    rw [List.foldl_cons]
    refine ih _ ?_
    by_cases hk : k = e.1
    · exact .inr (by rw [hk]; exact hself ..)
    · rw [hne _ _ _ hk]
      exact h.imp_left fun h => (List.mem_cons.1 h).resolve_left hk

theorem mGet_default_or {α : Type} (d : α) (m : Map α) (k : Nat) : k ∈ m.map (·.1) ∨ mGet d m k = d := by
  cases h : mLook m k with
  | none => exact .inr (by rw [mGet, h]; rfl)
  | some a => exact .inl (List.mem_map.2 ⟨(k, a), mem_of_mLook h, rfl⟩)

theorem coreOf_lost (s : State) (c : Nat) : coreOf (lost s) c = {} :=
  mGet_foldl_reset ({} : Core) (fun m k => mIns m k {}) (fun m k => by rw [mGet, mLook_mIns_self]; rfl) (fun _ _ _ h => mGet_mIns_ne _ _ _ h) s.cores s.cores c
    (mGet_default_or ..)

theorem dir_lost (s : State) (k : Nat) : mGet 0 (lost s).dir k = 0 :=
  mGet_foldl_reset (0 : Mask) (fun m k => mPut 0 m k 0) (fun _ _ => mGet_mPut_self ..) (fun _ _ _ h => mGet_mPut_ne _ _ _ h) s.dir s.dir k
    (mGet_default_or ..)

theorem mem_lost (s : State) (k : Nat) : mGet 0 (lost s).mem k = if k < deviceKeys then 0 else mGet 0 s.mem k := by
  rw [mGet, show (lost s).mem = s.mem.filter fun e => (fun k => decide (deviceKeys ≤ k)) e.1 from rfl, mLook_filter_key s.mem fun k => decide (deviceKeys ≤ k)]
  by_cases h : k < deviceKeys
  · rw [if_pos h, if_neg (by simpa using h)]; rfl
  · rw [if_neg h, if_pos (by simpa using h)]; rfl

/-! ## A start of the boot ROM -/

/-- The controller after a start of the boot ROM. -/
def bootMgmt (x : BootOutcome) (log : List LogEntry) : Mgmt :=
  { booting := some x.verified, errLog := log, goodCores := x.goodCores, cabled := x.cabled }

theorem after_boot (x : BootOutcome) (log : List LogEntry) (s : State) :
    after (boot x log) s = { lost s with parts := [], mgmt := bootMgmt x log, nextLaunch := 1 } := by
  have parts : IsField (·.parts) fun s m => { s with parts := m } := ⟨fun _ _ => rfl, fun _ _ _ => rfl, fun _ => rfl⟩
  rw [boot, after_andThen, after_loseAll, after_andThen]
  have hparts : after (fun s => s.parts.map fun e => .dropPart e.1) (lost s) = { lost s with parts := [] } := by
    have hp := applyAll_map parts (mk := fun e => .dropPart e.1) (step := fun m e => mDel m e.1) (fun _ _ => rfl) s.parts (lost s)
    exact hp.trans (congrArg (fun m => { lost s with parts := m }) (foldl_mDel_self s.parts))
  rw [hparts, after_andThen]
  rfl

theorem booted (x : BootOutcome) (log : List LogEntry) (s : State) : Booted s (after (boot x log) s) x log := by
  rw [after_boot]
  exact ⟨⟨rfl, rfl, rfl, rfl, rfl, rfl, rfl, rfl, rfl, rfl, rfl, rfl, rfl⟩, coreOf_lost s, dir_lost s, mem_lost s, rfl, rfl, rfl⟩

/-! ## Power, retirement and the trace unit -/

/-- The controller after a move to power step `n`. -/
def movedTo (n : Nat) (m : Mgmt) : Mgmt :=
  if m.step = n then m
  else { m with step := n, errLog := m.errLog ++ [.powerMove n], msi := mIns m.msi 2 (mGet 0 m.msi 2 + 1) }

theorem after_logEntry (e : LogEntry) (s : State) :
    after (logEntry e) s = onMgmt (fun m => { m with errLog := m.errLog ++ [e], msi := mIns m.msi 2 (mGet 0 m.msi 2 + 1) }) s := rfl

theorem after_moveStep (n : Nat) (s : State) : after (moveStep n) s = { s with mgmt := movedTo n s.mgmt } := by
  unfold moveStep
  rw [after_look, movedTo]
  by_cases h : s.mgmt.step = n
  · rw [if_pos h, if_pos h]; rfl
  · rw [if_neg h, if_neg h, after_andThen, after_logEntry, after_updMgmt]; rfl

theorem markLasting_of_contains {src : ErrSource} {m : Mgmt} (h : m.lasting.contains src = true) : markLasting src m = m :=
  if_pos h

/-- What the retirement of a source does to the cores. -/
structure SourceRetired (src : ErrSource) (s t : State) : Prop where
  rest : t = { s with cores := t.cores }
  sub : ∀ c n, src = .subcore c n → (coreOf t c).retiredSubs = n :: (coreOf s c).retiredSubs ∧
    ((coreOf s c).retiredSubs.contains (n ^^^ 1) = true → (coreOf t c).outOfService = true)
  column : ∀ c n, src = .columnStore c n → (coreOf t c).outOfService = true

theorem coreOf_updCore_self (c : Nat) (f : Core → Core) (s : State) : coreOf (after (updCore c f) s) c = f (coreOf s c) := by
  rw [after_updCore]
  exact mGet_mIns_self ..

theorem retireSource_spec (src : ErrSource) (s : State) : SourceRetired src s (after (retireSource src) s) := by
  cases src with
  | subcore core sub =>
    let f (x : Core) : Core := { x with retiredSubs := sub :: x.retiredSubs, retiring := x.retiring.erase sub }
    have hf := coreOf_updCore_self core f s
    cases hp : (coreOf s core).retiredSubs.contains (sub ^^^ 1) with
    | false =>
      have e : after (retireSource (.subcore core sub)) s = after (updCore core f) s := by
        rw [retireSource, after_look, after_andThen, hp]; rfl
      rw [e]
      refine ⟨by rw [after_updCore], fun c n h => ?_, fun _ _ h => by cases h⟩
      cases h
      exact ⟨by rw [hf], fun h => absurd (hp.symm.trans h) Bool.false_ne_true⟩
    | true =>
      have e : after (retireSource (.subcore core sub)) s = after (retireCore core) (after (updCore core f) s) := by
        rw [retireSource, after_look, after_andThen, hp]; rfl
      have hc : coreOf (after (retireSource (.subcore core sub)) s) core = { f (coreOf s core) with outOfService := true } := by
        rw [e, retireCore, coreOf_updCore_self, hf]
      refine ⟨by rw [e, retireCore, after_updCore, after_updCore], fun c n h => ?_, fun _ _ h => by cases h⟩
      cases h
      exact ⟨by rw [hc], fun _ => by rw [hc]⟩
  | columnStore core n =>
    refine ⟨by rw [retireSource, retireCore, after_updCore], (fun _ _ h => by cases h), fun c n h => ?_⟩
    cases h
    rw [retireSource, retireCore, coreOf_updCore_self]
  | dramRow die row => exact ⟨rfl, (fun _ _ h => by cases h), fun _ _ h => by cases h⟩
  | l2Slice die slice loc => exact ⟨rfl, (fun _ _ h => by cases h), fun _ _ h => by cases h⟩

theorem traceTurn_spec {s : State} {c : Nat} {y : Tracer} (h : (coreOf s c).tracer = some y) (start stop : Bool) :
    (coreOf (after (traceTurn c start stop) s) c).tracer = some { y with on := if stop then false else start || y.on } ∧
      ∀ k, k ≠ c → coreOf (after (traceTurn c start stop) s) k = coreOf s k := by
  by_cases hon : (if stop then false else start || y.on) = y.on
  · have e : after (traceTurn c start stop) s = s := by
      rw [after, traceTurn, h]
      exact congrArg (applyAll · s) (if_pos hon)
    rw [e, h, hon]
    exact ⟨rfl, fun _ _ => rfl⟩
  · have e : after (traceTurn c start stop) s =
        after (updCore c fun k => { k with tracer := some { y with on := if stop then false else start || y.on } }) s := by
      rw [after, traceTurn, h]
      exact congrArg (applyAll · s) (if_neg hon)
    rw [e, coreOf_updCore_self]
    refine ⟨rfl, fun k hk => ?_⟩
    rw [after_updCore]
    exact mGet_mIns_ne _ _ _ hk

/-- Settles O49, each event by what its act leaves: a start of the boot ROM through what is left when everything is lost. -/
theorem controllerEventsComplete : Obligations.ControllerEventsComplete := by
  unfold Obligations.ControllerEventsComplete
  intro s _
  refine ⟨?power, ?timeout, ?trip, ?reset, ?thermal, ?firmware, ?window, ?retire, ?trace, ?sample, ?register⟩
  case power =>
    rintro o n (⟨rfl, rfl⟩ | ⟨rfl, rfl⟩ | ⟨rfl, rfl⟩) <;> exact congrArg _ (after_moveStep _ s)
  case timeout =>
    intro hh ht
    change execSemTimeout s = _
    rw [execSemTimeout, finish_eq, if_pos ⟨hh, ht⟩, after_updMgmt]
  case trip =>
    intro die temp
    have hrun : exec (.thermalTrip die temp) s = .next (after (andThen loseAll (updMgmt fun m =>
      { m with stage := 0xF2, errLog := m.errLog ++ [.trip die temp] })) s) := rfl
    rw [after_andThen, after_loseAll, after_updMgmt] at hrun
    exact ⟨_, hrun, rfl, rfl, rfl, rfl, mem_lost s⟩
  case reset => exact fun x => ⟨_, rfl, booted x [] s⟩
  case thermal =>
    intro x h
    refine ⟨_, ?_, booted x s.mgmt.errLog s⟩
    change execThermalReset x s = _
    rw [execThermalReset, finish_eq, if_pos h]
  case firmware =>
    intro x h
    refine ⟨_, _, ?_, booted x s.mgmt.errLog s, rfl⟩
    change execFirmwareUpdate .i3c x s = _
    rw [execFirmwareUpdate, finish_eq, if_pos ⟨h, rfl⟩, after_andThen, after_answer]
  case window =>
    intro src
    have hrun : exec (.errorCountWindowEnd src) s = .next { s with mgmt := inWindow s src s.mgmt } := rfl
    exact ⟨fun h => hrun.trans (congrArg (fun m => Host.Outcome.next { s with mgmt := m }) (if_neg h)),
      fun h => hrun.trans (congrArg (fun m => Host.Outcome.next { s with mgmt := m }) (if_pos h))⟩
  case retire =>
    intro src hlast hpart hidle
    have hrun : exec (.resourceRetire src) s = .next (after (andThen (retireSource src) <|
        andThen (updMgmt fun m => { m with lasting := m.lasting.erase src }) (andThen (logEntry (.retired src)) bump)) s) := by
      change execResourceRetire src s = _
      unfold execResourceRetire
      rw [finish_eq, markLasting_of_contains hlast]
      exact congrArg (fun a => Host.Outcome.next (after a s))
        ((if_neg (by simp only [hlast]; decide)).trans ((if_neg (by rw [hpart]; decide)).trans (if_pos hidle)))
    obtain ⟨hrest, hsub, hcol⟩ := retireSource_spec src s
    rw [after_andThen, after_andThen, after_andThen, after_logEntry, after_updMgmt] at hrun
    generalize after (retireSource src) s = u at hrun hrest hsub hcol
    obtain ⟨k, rfl⟩ : ∃ k, u = { s with cores := k } := ⟨_, hrest⟩
    exact ⟨_, hrun, rfl, rfl, hsub, hcol⟩
  case trace =>
    intro c start stop y hy
    obtain ⟨hself, hne⟩ := traceTurn_spec hy start stop
    exact ⟨_, rfl, eq_of_only_cores (only_of_each (each_traceTurn fun _ => by simp [Effect.table]) s), hself, hne⟩
  case sample =>
    intro c x p i hp htime hprod hreason hat hcore hsub hfits
    change execStallSample c x s = _
    rw [execStallSample, finish_eq, hp]
    simp only [hat, ← hsub]
    rw [if_neg (not_or.2 ⟨Nat.not_lt.2 htime, fun h => hprod.elim h.1 h.2⟩), if_neg hreason, if_neg (by simp [hcore, hfits]), after_updCore]
  case register => exact fun _ _ _ => rfl

end Sys2Proof.Machine


/-! # The active set, scrubbing and sleep (22_scheduling R350, R351, 03_registers R50, R51) -/

namespace Sys2Proof.Machine

/-- The warp when it takes a place in the active set. -/
def joinsActive (s : State) (x : Warp) : Warp := { x with active := true, activeSince := cycleOf s x.core, readySince := none }

/-- The trace record of a swap. -/
def swapNote (s : State) (w p : Nat) : Act :=
  match mLook s.warps w, mLook s.warps p with
  | some x, some y => traceNote x.core (.swap w p (warpName s x) (warpName s y))
  | _, _ => skip

theorem only_swapNote (s : State) (w p : Nat) (u : State) : Only [.cores] u (after (swapNote s w p) u) := by
  refine only_of_each ?_ u
  unfold swapNote
  split
  · exact each_traceNote fun _ => by simp [Effect.table]
  · exact each_skip

theorem coreOf_swapNote (s : State) (w p : Nat) (u : State) (c : Nat) :
    coreOf (after (swapNote s w p) u) c = { coreOf u c with tracer := (coreOf (after (swapNote s w p) u) c).tracer } := by
  unfold swapNote
  split
  · exact coreOf_traceNote _ _ u c
  · rfl

/-- Warp `w` has left the active set, and warp `p` has taken its place. -/
structure SwappedOut (s t : State) (w p : Nat) : Prop where
  rest : t = { s with warps := t.warps, cores := t.cores, epoch := s.epoch + 1 }
  left : ∀ x, mLook s.warps w = some x → w ≠ p → mLook t.warps w = some { leaveActive x with readySince := none }
  joined : ∀ x, mLook s.warps p = some x → w ≠ p → mLook t.warps p = some (joinsActive s x)
  others : ∀ v, v ≠ w → v ≠ p → mLook t.warps v = mLook s.warps v
  cores : ∀ c, coreOf t c = { coreOf s c with tracer := (coreOf t c).tracer }

theorem swapOut_spec (w p : Nat) (s : State) : SwappedOut s (after (swapOut w p) s) w p := by
  obtain ⟨m, em, hw, hm⟩ := updWarp_spec w (fun x => { leaveActive x with readySince := none }) s
  obtain ⟨n, en, hp, hn⟩ := updWarp_spec p (joinsActive s) { s with warps := m }
  have e : after (swapOut w p) s = after bump (after (swapNote s w p) { s with warps := n }) := by
    rw [swapOut, after_look, after_andThen, em, after_andThen]
    exact (congrArg (after (andThen (swapNote s w p) bump)) en).trans (after_andThen ..)
  have hrest := eq_of_only_cores (only_swapNote s w p { s with warps := n })
  have hcores := coreOf_swapNote s w p { s with warps := n }
  rw [e]
  generalize after (swapNote s w p) { s with warps := n } = u at hrest hcores
  obtain ⟨k, rfl⟩ : ∃ k, u = { s with warps := n, cores := k } := ⟨_, hrest⟩
  exact {
    rest := rfl
    left := fun x hx hne => (hn w hne).trans (hw x hx)
    joined := fun x hx hne => hp x ((hm p hne.symm).trans hx)
    others := fun v hv hvp => (hn v hvp).trans (hm v hv)
    cores := hcores }

/-- Settles O51, the two swaps by what `swapOut` leaves. -/
theorem subcoresComplete : Obligations.SubcoresComplete := by
  unfold Obligations.SubcoresComplete
  intro s core sub
  refine ⟨?leaves, ?forced, ?joins, ?scrub, ?sleep, ?wake⟩
  case leaves =>
    intro w x p y hw hact hres hready hwait hpend
    have hrun : exec (.warpLeaveActive w) s = .next (after (swapOut w p) s) := by
      have hall : (mVals x.strands).all (longWait s w x) = true := List.all_eq_true.2 fun t ht => by
        obtain ⟨e, he, rfl⟩ := List.mem_map.1 ht
        exact hwait e he
      change execWarpLeaveActive w s = _
      rw [execWarpLeaveActive, finish_eq, hw]
      simp only [hact, hres, hready, hall, hpend]
      rfl
    obtain ⟨hrest, hleft, hjoined, hothers, hcores⟩ := swapOut_spec w p s
    exact ⟨_, hrun, hrest, hleft, hjoined, hothers, hcores⟩
  case forced =>
    intro w x p y r hpend hyoung hr hlate hrest
    have hrun : exec (.activeSetForcedLeave core sub) s = .next (after (swapOut w p) s) := by
      change execActiveSetForcedLeave core sub s = _
      rw [execActiveSetForcedLeave, finish_eq, hpend, hyoung]
      simp only [hr, hrest, Option.any_some, decide_eq_true hlate]
      rfl
    obtain ⟨hrest, hleft, hjoined, hothers, hcores⟩ := swapOut_spec w p s
    exact ⟨_, hrun, hrest, hleft, hjoined, hothers, hcores⟩
  case joins =>
    intro w x y hw hroom hpend
    change finish s (activateWarp w) = _
    rw [finish_eq, activateWarp, after_look, hw]
    refine congrArg (fun a => Host.Outcome.next (after a s)) (if_pos ?_) |>.trans ?_
    · rw [hpend, decide_eq_true hroom]; simp
    · rw [after_andThen, after_updWarp hw, after_bump]
  case scrub =>
    change execScrubVisit core sub s = _
    rw [execScrubVisit, finish_eq]
    cases h : scrubDue s core sub with
    | false => rfl
    | true =>
      refine congrArg (fun a => Host.Outcome.next (after a s)) (if_neg (by decide)) |>.trans ?_
      rw [after_andThen, after_updCore, after_updMgmt]
      rfl
  case sleep =>
    intro h
    change execSubcoreSleep core sub s = _
    rw [execSubcoreSleep, finish_eq, if_pos h, after_updCore]
  case wake =>
    intro h
    have hfilter : ((coreOf s core).asleep.filter fun k => !([sub].contains k)) = (coreOf s core).asleep.filter fun k => decide (k ≠ sub) :=
      List.filter_congr fun k _ => by simp
    have hsome : ¬ ((coreOf s core).asleep.all fun k => !([sub].contains k)) = true := fun hall => by
      have := List.all_eq_true.1 hall sub (List.contains_iff_mem.1 h)
      simp at this
    change execSubcoreWake core sub s = _
    rw [execSubcoreWake, finish_eq, if_pos h, after_andThen, wakeSubs, after_look]
    refine congrArg (fun a => Host.Outcome.next (after bump (after a s))) (if_neg hsome) |>.trans ?_
    rw [after_updCore, hfilter]
    rfl

end Sys2Proof.Machine


/-! # Pre-emption, restore and the watchdog (25_traps_faults R396 to R398, 24_program_barrier_watchdog R380, R381) -/

namespace Sys2Proof.Machine

/-! ## One change for every entry of a list -/

/-- A change that says no more the second time, made to each warp of a list. -/
theorem mLook_forAll_updWarp {f : Warp → Warp} (hf : ∀ x, f (f x) = f x) (ws : List Nat) (s : State) (v : Nat) :
    mLook (after (forAll (fun w => updWarp w f) ws) s).warps v = if v ∈ ws then (mLook s.warps v).map f else mLook s.warps v := by
  induction ws generalizing s with
  | nil => rw [if_neg (by simp)]; rfl
  | cons w ws ih =>
    obtain ⟨m, em, hself, hne⟩ := updWarp_spec w f s
    rw [after_forAll_cons, em, ih]
    by_cases hv : v = w
    · rw [if_pos (show v ∈ w :: ws from hv ▸ List.mem_cons_self), hv]
      cases hx : mLook s.warps w with
      | none =>
        have hm : mLook m w = none := by
          rw [after_updWarp_none hx] at em
          rw [show m = s.warps from (congrArg State.warps em).symm, hx]
        simp [hm]
      | some x => simp [hself x hx, hf]
    · simp [hne v hv, hv]

theorem only_forAll_updWarp (f : Warp → Warp) (ws : List Nat) (s : State) : Only [.warps] s (after (forAll (fun w => updWarp w f) ws) s) :=
  only_of_each (each_forAll fun _ => each_updWarp (by simp [Effect.table])) s

/-- A block told to stop, with its core and not by R39. -/
def toldToStop (x : Block) : Block := { x with stopping := true, forced := false }

theorem mLook_toldToStop (bs : List (Nat × Block)) (s : State) {b : Nat} {x : Block} (h : mLook s.blocks b = some x) :
    mLook (after (forAll (fun (e : Nat × Block) => updBlock e.1 toldToStop) bs) s).blocks b =
      some (if bs.any (fun e => decide (e.1 = b)) then toldToStop x else x) := by
  induction bs generalizing s x with
  | nil => exact h
  | cons e bs ih =>
    obtain ⟨m, em, hself, hne⟩ := updBlock_spec e.1 toldToStop s
    rw [after_forAll_cons, em]
    by_cases hb : e.1 = b
    · rw [ih { s with blocks := m } (hb ▸ hself x (hb ▸ h))]
      simp [hb, toldToStop]
    · rw [ih { s with blocks := m } ((hne b fun h => hb h.symm).trans h)]
      rw [List.any_cons, decide_eq_false hb, Bool.false_or]

/-! ## A core that is emptied, and records that are seated -/

/-- The tables that a core that falls idle may change. -/
def idleTables : List Table := [.cores, .dir, .bad, .parts, .launches]

theorem only_emptyCore (c : Nat) (s : State) : Only idleTables s (after (emptyCore c) s) := by
  refine only_of_each (each_look fun u => each_ite (each_andThen (fun v e he => ?_) ?_) each_skip) s
  · obtain ⟨x, -, rfl⟩ := List.mem_map.1 he
    simp [Effect.table, idleTables]
  · exact each_joinIdle (by simp [Effect.table, idleTables]) (by simp [Effect.table, idleTables]) (by simp [Effect.table, idleTables])
      (by simp [Effect.table, idleTables]) (by simp [Effect.table, idleTables])

theorem only_emptyCores (cs : List Nat) (s : State) : Only idleTables s (after (forAll emptyCore cs) s) := by
  induction cs generalizing s with
  | nil => exact (chain_only _).refl s
  | cons c cs ih => rw [after_forAll_cons]; exact (chain_only _).trans (only_emptyCore c s) (ih _)

theorem emptyCore_busy {c : Nat} {s : State} (h : blocksOn s c ≠ []) : after (emptyCore c) s = s := by
  rw [emptyCore, after_look, if_neg (by simpa using h)]
  rfl

/-- Held records have been seated; a warp that is not resident is as it was, and one that is gone stays gone. -/
structure Reseated (s t : State) : Prop where
  seated : Seated s t
  away : ∀ w x, mLook s.warps w = some x → x.place ≠ .resident → mLook t.warps w = some x
  gone : ∀ w, mLook s.warps w = none → mLook t.warps w = none

theorem mLook_seatHeld_none {s : State} (hc : s.Canonical) (core sub : Nat) {w : Nat} (hx : mLook s.warps w = none) :
    mLook (after (seatHeld core sub) s).warps w = none := by
  rw [seatHeld, after_look]
  generalize s.warps.flatMap _ = ts
  induction ts generalizing s with
  | nil => exact hx
  | cons t ts ih =>
    rw [after_forAll_cons]
    refine ih (after_canonical hc _) ?_
    rw [seatOne, after_look]
    split
    · next v y k ks hheld hfree =>
      obtain ⟨hmem, -⟩ := nextHeld_spec hheld
      have hv : w ≠ v := by
        rintro rfl
        cases hx.symm.trans (mLook_of_mem hc.warps hmem)
      split
      · exact (mLook_mIns_ne _ _ hv).trans hx
      · exact hx
    · exact hx

theorem forAll_reseated {α : Type} {f : α → Act} (hf : ∀ x (u : State), u.Canonical → Reseated u (after (f x) u)) (l : List α) {s : State}
    (hs : s.Canonical) : Reseated s (after (forAll f l) s) := by
  induction l generalizing s with
  | nil => exact ⟨.refl s, fun _ _ h _ => h, fun _ h => h⟩
  | cons x l ih =>
    have h := hf x s hs
    have g := ih (after_canonical hs (f x))
    rw [after_forAll_cons]
    exact ⟨h.seated.trans g.seated, fun w y hw hp => g.away w y (h.away w y hw hp) hp, fun w hw => g.gone w (h.gone w hw)⟩

theorem seatAll_reseated (cs : List Nat) {s : State} (hs : s.Canonical) :
    Reseated s (after (forAll (fun c => forAll (seatHeld c) (List.range Config.subcores)) cs) s) :=
  forAll_reseated (fun c _ hu => forAll_reseated
    (fun sub _ hv => ⟨seatHeld_seated hv c sub, fun _ _ hw hp => mLook_seatHeld_away hv c sub hw hp, fun _ hw => mLook_seatHeld_none hv c sub hw⟩) _ hu) cs hs

/-! ## Saving (R397) -/

/-- A warp as a save leaves it. -/
def savedWarp (x : Warp) : Warp :=
  { onEvery (fun y => { y with wait := savedWait y.wait }) (leaveActive x) with place := .saved, yielding := none }

/-- What a save does to a warp of its blocks. -/
def saveWarp (x : Warp) : Warp := if x.place = .resident then savedWarp x else x

theorem saveWarp_saveWarp (x : Warp) : saveWarp (saveWarp x) = saveWarp x := by
  unfold saveWarp
  split
  · rw [if_neg (by simp [savedWarp])]
  · rfl

/-- Some blocks have left their cores, the save being number `order`. -/
structure BlocksSaved (order : Nat) (bs : List (Nat × Block)) (s t : State) : Prop where
  only : Only [.warps, .blocks, .cores] s t
  blocks : ∀ b x, mLook s.blocks b = some x → ∃ y, mLook t.blocks b = some y ∧ y.scratch = x.scratch ∧ y.acc = x.acc ∧
    ((∃ e ∈ bs, e.1 = b) → y.place = .saved ∧ y.savedAt = order ∧ y.stopping = false) ∧ ((∀ e ∈ bs, e.1 ≠ b) → y = x)
  warps : ∀ v x, mLook s.warps v = some x →
    mLook t.warps v = some (if ∃ e ∈ bs, v ∈ e.2.warps then saveWarp x else x)

/-- What a save does to a block, by its entry `b` at the request. -/
def saveMark (s : State) (order : Nat) (b x : Block) : Block :=
  { x with place := .saved, savedAt := order, stopping := false, forced := false,
           bars := pauseBars (cycleOf s (countingCore s b false)) x.bars,
           bsave := b.cores.map fun c => ((coreOf s c).bstore.filter fun y => (coreOf s c).bpages.contains (y.1 / 65536),
             (coreOf s c).bpages) }

theorem after_saveBlock (order : Nat) (e : Nat × Block) (s : State) :
    after (saveBlock order e) s = after (updBlock e.1 (saveMark s order e.2)) (after (forAll (fun w => updWarp w saveWarp) e.2.warps)
      (after (forAll (fun c => wakeSubs c (List.range Config.subcores)) e.2.cores) s)) := by
  rw [saveBlock, after_look, after_andThen, after_andThen]
  rfl

theorem saveBlock_saved (order : Nat) (e : Nat × Block) (s : State) : BlocksSaved order [e] s (after (saveBlock order e) s) := by
  have honly : Only [.warps, .blocks, .cores] s (after (saveBlock order e) s) :=
    only_of_each (each_look fun _ => each_andThen (each_forAll fun c => each_look fun _ => each_ite each_skip
        (each_updCore (by simp [Effect.table])))
      (each_andThen (each_forAll fun _ => each_updWarp (by simp [Effect.table])) (each_updBlock (by simp [Effect.table])))) s
  have h1 : Only [.cores] s (after (forAll (fun c => wakeSubs c (List.range Config.subcores)) e.2.cores) s) :=
    only_of_each (each_forAll fun c => each_look fun _ => each_ite each_skip (each_updCore (by simp [Effect.table]))) s
  rw [after_saveBlock] at honly ⊢
  generalize after (forAll (fun c => wakeSubs c (List.range Config.subcores)) e.2.cores) s = s1 at h1 honly ⊢
  have h2 := only_forAll_updWarp saveWarp e.2.warps s1
  have hw := mLook_forAll_updWarp saveWarp_saveWarp e.2.warps s1
  generalize after (forAll (fun w => updWarp w saveWarp) e.2.warps) s1 = s2 at h2 hw honly ⊢
  obtain ⟨m, em, hself, hne⟩ := updBlock_spec e.1 (saveMark s order e.2) s2
  have hblocks : s2.blocks = s.blocks := (h2.blocks (by decide)).trans (h1.blocks (by decide))
  refine ⟨honly, fun b x hx => ?_, fun v x hx => ?_⟩
  · rw [em]
    by_cases hb : b = e.1
    · exact ⟨saveMark s order e.2 x, hb ▸ hself x (by rw [hblocks, ← hb, hx]), rfl, rfl, fun _ => ⟨rfl, rfl, rfl⟩,
        fun h => absurd hb.symm (h e List.mem_cons_self)⟩
    · refine ⟨x, (hne b hb).trans (by rw [hblocks, hx]), rfl, rfl, fun ⟨d, hd, hdb⟩ => ?_, fun _ => rfl⟩
      exact absurd ((List.mem_singleton.1 hd) ▸ hdb).symm hb
  · rw [em]
    refine (hw v).trans ?_
    rw [h1.warps (by decide), hx]
    simp only [List.mem_singleton, exists_eq_left]
    split <;> rfl

theorem forAll_saveBlock_saved (order : Nat) (bs : List (Nat × Block)) (s : State) :
    BlocksSaved order bs s (after (forAll (saveBlock order) bs) s) := by
  induction bs generalizing s with
  | nil => exact ⟨(chain_only _).refl s, fun b x hx => ⟨x, hx, rfl, rfl, (fun h => by simp at h), fun _ => rfl⟩,
      fun v x hx => hx.trans (congrArg some (if_neg (by simp)).symm)⟩
  | cons e bs ih =>
    have h := saveBlock_saved order e s
    have g := ih (after (saveBlock order e) s)
    rw [after_forAll_cons]
    refine ⟨(chain_only _).trans h.only g.only, fun b x hx => ?_, fun v x hx => ?_⟩
    · obtain ⟨y, hy, hys, hya, hyin, hyout⟩ := h.blocks b x hx
      obtain ⟨z, hz, hzs, hza, hzin, hzout⟩ := g.blocks b y hy
      refine ⟨z, hz, hzs.trans hys, hza.trans hya, fun ⟨d, hd, hdb⟩ => ?_, fun hn => ?_⟩
      · by_cases hin : ∃ d ∈ bs, d.1 = b
        · exact hzin hin
        · rw [hzout fun d hd hdb => hin ⟨d, hd, hdb⟩]
          exact hyin ⟨e, List.mem_cons_self, (List.mem_cons.1 hd).elim (fun h => h ▸ hdb) fun h => absurd ⟨d, h, hdb⟩ hin⟩
      · rw [hzout fun d hd => hn d (List.mem_cons_of_mem _ hd), hyout fun d hd => hn d (List.mem_singleton.1 hd ▸ List.mem_cons_self)]
    · rw [g.warps v _ (h.warps v x hx)]
      have hone : (∃ d ∈ [e], v ∈ d.2.warps) ↔ v ∈ e.2.warps := by simp only [List.mem_singleton, exists_eq_left]
      have hcons : (∃ d ∈ e :: bs, v ∈ d.2.warps) ↔ v ∈ e.2.warps ∨ ∃ d ∈ bs, v ∈ d.2.warps := by
        simp only [List.mem_cons, or_and_right, exists_or, exists_eq_left]
      simp only [hone, hcons]
      by_cases hin : ∃ d ∈ bs, v ∈ d.2.warps
      · by_cases hv : v ∈ e.2.warps
        · rw [if_pos hin, if_pos hv, if_pos (.inl hv), saveWarp_saveWarp]
        · rw [if_pos hin, if_neg hv, if_pos (.inr hin)]
      · by_cases hv : v ∈ e.2.warps
        · rw [if_neg hin, if_pos hv, if_pos (.inl hv)]
        · rw [if_neg hin, if_neg hv, if_neg (fun h => h.elim hv hin)]

/-- The groups of blocks that leave count no further. -/
def pauseGroups (bs : List (Nat × Block)) : Act :=
  forAll (fun g => look fun s => match bs.find? fun e => decide (e.2.group = g) with
    | some e => updGroup g fun x => { x with bars := pauseBars (cycleOf s (countingCore s e.2 true)) x.bars }
    | none => skip) (bs.map (·.2.group)).eraseDups

theorem only_pauseGroups (bs : List (Nat × Block)) (s : State) : Only [.groups] s (after (pauseGroups bs) s) :=
  only_of_each (each_forAll fun g => each_look fun u => by
    split
    · exact each_updGroup (by simp [Effect.table])
    · exact each_skip) s

/-- The cores of some blocks, each once. -/
def coresOf (bs : List (Nat × Block)) : List Nat := (bs.flatMap (·.2.cores)).eraseDups

theorem after_saveBlocks {bs : List (Nat × Block)} {s : State}
    (harea : ∀ e ∈ bs, ∀ c, mLook s.ctxs e.2.ctx = some c → areaWritable s c c.save.toNat 4 = true) :
    after (saveBlocks bs) s = after bump (after (forAll emptyCore (coresOf bs))
      (after (forAll (fun c => forAll (seatHeld c) (List.range Config.subcores)) (coresOf bs))
        (after (eff (.ids (s.nextId + 1))) (after (forAll (saveBlock s.nextId) bs) (after (pauseGroups bs) s))))) := by
  have hfind : (bs.find? fun e => !(match mLook s.ctxs e.2.ctx with | some c => areaWritable s c c.save.toNat 4 | none => true)) = none := by
    refine List.find?_eq_none.2 fun e he => ?_
    cases hc : mLook s.ctxs e.2.ctx with
    | none => simp
    | some c => simp [harea e he c hc]
  unfold saveBlocks
  rw [after_look]
  split
  · next h => exact absurd (h.symm.trans hfind) (by simp)
  · simp only [after_andThen]
    rfl

/-- What a save leaves, whatever the cores it emptied do next. -/
structure CoreSaved (s t : State) (bs : List (Nat × Block)) : Prop where
  mem : t.mem = s.mem
  blocks : ∀ b x, mLook s.blocks b = some x → (∃ e ∈ bs, e.1 = b) → ∃ y, mLook t.blocks b = some y ∧ y.place = .saved ∧
    y.scratch = x.scratch ∧ y.acc = x.acc ∧ y.savedAt = s.nextId ∧ y.stopping = false
  saved : ∀ e ∈ bs, ∀ w ∈ e.2.warps, ∀ x, mLook s.warps w = some x → x.place = .resident → mLook t.warps w = some (savedWarp x)
  others : ∀ w x, mLook s.warps w = some x → ((∀ e ∈ bs, w ∉ e.2.warps) ∨ x.place ≠ .resident) → x.heldStrands = [] →
    mLook t.warps w = some x

theorem saveBlocks_saved {bs : List (Nat × Block)} {s : State} (hs : s.Canonical)
    (harea : ∀ e ∈ bs, ∀ c, mLook s.ctxs e.2.ctx = some c → areaWritable s c c.save.toNat 4 = true) (core : Nat) :
    CoreSaved s (after (emptyCore core) (after (saveBlocks bs) s)) bs := by
  rw [after_saveBlocks harea]
  have h1 := only_pauseGroups bs s
  have hc1 := after_canonical hs (pauseGroups bs)
  generalize after (pauseGroups bs) s = s1 at h1 hc1 ⊢
  obtain ⟨h2, hblocks, hwarps⟩ := forAll_saveBlock_saved s.nextId bs s1
  have hc2 := after_canonical (after_canonical hc1 (forAll (saveBlock s.nextId) bs)) (eff (.ids (s.nextId + 1)))
  generalize after (forAll (saveBlock s.nextId) bs) s1 = s2 at h2 hblocks hwarps hc2 ⊢
  obtain ⟨hseat, haway, -⟩ := seatAll_reseated (coresOf bs) hc2
  generalize after (forAll (fun c => forAll (seatHeld c) (List.range Config.subcores)) (coresOf bs)) (after (eff (.ids (s.nextId + 1))) s2) = s3 at hseat haway ⊢
  have h4 := only_emptyCores (coresOf bs) s3
  generalize after (forAll emptyCore (coresOf bs)) s3 = s4 at h4 ⊢
  have h5 := only_emptyCore core (after bump s4)
  generalize after (emptyCore core) (after bump s4) = s5 at h5 ⊢
  have hw : s5.warps = s3.warps := (h5.warps (by decide)).trans (h4.warps (by decide))
  have hb : s5.blocks = s2.blocks := ((h5.blocks (by decide)).trans (h4.blocks (by decide))).trans (by rw [hseat.rest]; rfl)
  have hm : s5.mem = s2.mem := ((h5.mem (by decide)).trans (h4.mem (by decide))).trans (by rw [hseat.rest]; rfl)
  refine ⟨hm.trans ((h2.mem (by decide)).trans (h1.mem (by decide))), fun b x hx hin => ?_, fun e he w hwe x hx hres => ?_, fun w x hx hout hheld => ?_⟩
  · obtain ⟨y, hy, hys, hya, hyin, -⟩ := hblocks b x (by rw [h1.blocks (by decide), hx])
    obtain ⟨hp, ho, hst⟩ := hyin hin
    exact ⟨y, by rw [hb, hy], hp, hys, hya, ho, hst⟩
  · have h := hwarps w x (by rw [h1.warps (by decide), hx])
    rw [if_pos ⟨e, he, hwe⟩, saveWarp, if_pos hres] at h
    rw [hw]
    exact haway w _ h (by simp [savedWarp])
  · have h := hwarps w x (by rw [h1.warps (by decide), hx])
    have hsame : (if ∃ e ∈ bs, w ∈ e.2.warps then saveWarp x else x) = x := by
      rcases hout with hout | hout
      · exact if_neg fun ⟨e, he, hwe⟩ => hout e he hwe
      · rw [saveWarp, if_neg hout, ite_self]
    rw [hsame] at h
    obtain ⟨z, hz, hxz⟩ := hseat.warp w x h
    rw [hw, hz, hxz.none hheld]

/-! ## Restoring (R398) -/

/-- Memory and the accumulator of block `id` are as they were. -/
def AccKept (id : Nat) (s t : State) : Prop :=
  t.mem = s.mem ∧ ∀ b, mLook s.blocks id = some b → ∃ y, mLook t.blocks id = some y ∧ y.acc = b.acc

theorem chain_accKept (id : Nat) : Chain (AccKept id) where
  refl _ := ⟨rfl, fun b hb => ⟨b, hb, rfl⟩⟩
  trans h g := ⟨g.1.trans h.1, fun b hb => by
    obtain ⟨y, hy, hya⟩ := h.2 b hb
    obtain ⟨z, hz, hza⟩ := g.2 y hy
    exact ⟨z, hz, hza.trans hya⟩⟩

theorem accKept_of_only {id : Nat} {ts : List Table} {s t : State} (h : Only ts s t) (hm : .mem ∉ ts) (hb : .blocks ∉ ts) : AccKept id s t :=
  ⟨h.mem hm, fun b hk => ⟨b, by rw [h.blocks hb, hk], rfl⟩⟩

theorem keeps_accKept_updBlock {id : Nat} (b : Nat) {f : Block → Block} (hf : ∀ x, (f x).acc = x.acc) : Keeps (AccKept id) (updBlock b f) := by
  intro s
  obtain ⟨m, em, hself, hne⟩ := updBlock_spec b f s
  rw [em]
  refine ⟨rfl, fun x hx => ?_⟩
  by_cases h : id = b
  · exact ⟨f x, h ▸ hself x (h ▸ hx), hf x⟩
  · exact ⟨x, (hne id h).trans hx, rfl⟩

theorem keeps_accKept_writeScratch {id : Nat} (b o n v : Nat) : Keeps (AccKept id) (writeLoc (.scr b o) n v) := by
  unfold writeLoc
  refine keeps_andThen (chain_accKept id) (keeps_accKept_updBlock b fun _ => rfl) fun s =>
    accKept_of_only (ts := [.bad]) (only_of_each (fun u e he => ?_) s) (by decide) (by decide)
  split at he
  · cases he
  · rw [List.mem_singleton.1 he]; simp [Effect.table]

theorem keeps_accKept_areaDone {id : Nat} (cid n blk : Nat) : Keeps (AccKept id) (areaDone cid n blk) := by
  have hchain := chain_accKept id
  have htag (b t : Nat) (v : Bool) : Keeps (AccKept id) (setTag b t v) := keeps_accKept_updBlock b fun _ => rfl
  have hdeliver (d : Delivery) : Keeps (AccKept id) (deliverTo d) := keeps_look fun s => keeps_ite (fun _ => keeps_skip hchain)
    fun _ => keeps_andThen hchain (keeps_forAll hchain fun w _ => keeps_accKept_writeScratch d.blk w.1 4 w.2.toNat) (htag _ _ _)
  have hput (g : RedGroup) : Keeps (AccKept id) (putRound cid n g) :=
    keeps_andThen hchain (keeps_forAll hchain fun d _ => keeps_forAll hchain fun t _ => htag _ _ _) <|
    keeps_andThen hchain (fun s => accKept_of_only (only_of_each (ts := [.ctxs]) (each_updCtx (by simp [Effect.table])) s) (by decide) (by decide))
      fun s => accKept_of_only (only_of_each (ts := [.epoch]) (each_bump (by simp [Effect.table])) s) (by decide) (by decide)
  refine keeps_look fun s => ?_
  split
  · exact keeps_skip hchain
  · split
    · exact keeps_skip hchain
    · exact keeps_ite (fun _ => keeps_skip hchain) fun _ => keeps_andThen hchain (hdeliver _) (hput _)

theorem keeps_accKept_receiveAreas {id : Nat} (cid blk : Nat) : Keeps (AccKept id) (receiveAreas cid blk) := by
  refine keeps_look fun s => ?_
  split
  · exact keeps_skip (chain_accKept id)
  · exact keeps_forAll (chain_accKept id) fun e _ => keeps_forAll (chain_accKept id) fun _ _ => keeps_accKept_areaDone _ _ _

theorem receiveAreas_none {cid blk : Nat} {s : State}
    (h : ∀ c, mLook s.ctxs cid = some c → ∀ g ∈ c.groups, ∀ d ∈ g.2.sending, d.blk ≠ blk) : after (receiveAreas cid blk) s = s := by
  unfold receiveAreas
  rw [after_look]
  split
  · rfl
  · next c hc =>
    have key (l : List (Nat × RedGroup)) (hl : ∀ g ∈ l, ∀ d ∈ g.2.sending, d.blk ≠ blk) :
        after (forAll (fun (e : Nat × RedGroup) => forAll (fun _ => areaDone cid e.1 blk) (e.2.sending.filter fun d => decide (d.blk = blk))) l) s = s := by
      induction l with
      | nil => rfl
      | cons g l ih =>
        have hnil : (g.2.sending.filter fun d => decide (d.blk = blk)) = [] :=
          List.filter_eq_nil_iff.2 fun d hd => by simpa using hl g List.mem_cons_self d hd
        rw [after_forAll_cons, hnil]
        exact ih fun g hg => hl g (List.mem_cons_of_mem _ hg)
    exact key _ (h c hc)

/-- The cores of a block that comes back, taken by its context. -/
def returnCores (l : Launch) (b : Block) (p : BlockPlace) : Act :=
  forAll (fun j => look fun s =>
    let c := p.cores.getD j 0
    andThen (takeCore l.ctx c) <| andThen (reclaim c (pieceBytes l b.cores.length / 65536)) <|
      if (blocksOn s c).isEmpty then updCore c (putImage (b.bsave.getD j ([], []))) else skip)
    (List.range p.cores.length)

/-- The block in its new place. -/
def returnBlock (id : Nat) (l : Launch) (b : Block) (p : BlockPlace) : Act := look fun s => updBlock id fun x =>
  { x with place := .resident, cores := p.cores, bsave := [],
           rect := p.cores.map fun c => (c, if b.completed then [] else (freeRect (slotsUsed s c) (rectOf l).1 (rectOf l).2).getD []) }

/-- The barriers of the block count on. -/
def resumeBars (id : Nat) (p : BlockPlace) : Act := look fun s => updBlock id fun x =>
  { x with bars := pauseBars (cycleOf s (p.cores.headD 0)) x.bars }

/-- The warps of the block at their new homes. -/
def returnWarps (hs : List (Nat × Warp × Nat × Nat × Nat)) : Act :=
  forAll (fun (h : Nat × Warp × Nat × Nat × Nat) => look fun s =>
    match reseat h.2.1 (freeEntries s h.2.2.1 h.2.2.2.1) with
    | some y => eff (.warp h.1
        { y with core := h.2.2.1, sub := h.2.2.2.1, slotNo := h.2.2.2.2, active := false, readySince := none,
                 place := if y.place = .saved then .resident else y.place })
    | none => skip) hs

theorem after_restoreBlock (id : Nat) (b : Block) (l : Launch) (p : BlockPlace) (s : State) :
    after (restoreBlock id b l p) s = after (returnWarps (homesOf s l b p)) (after (resumeBars id p) (after (returnBlock id l b p)
      (after (returnCores l b p) (after (receiveAreas l.ctx id) s)))) := by
  rw [restoreBlock, after_look, after_andThen, after_andThen, after_andThen, after_andThen]
  rfl

theorem only_returnCores (l : Launch) (b : Block) (p : BlockPlace) (s : State) : Only [.cores, .dir, .bad] s (after (returnCores l b p) s) := by
  refine only_of_each (each_forAll fun j => each_look fun _ => each_andThen (each_look fun _ => each_ite each_skip
    (each_andThen (each_cleanCore (by simp [Effect.table]) (by simp [Effect.table]) (by simp [Effect.table])) (each_updCore (by simp [Effect.table]))))
    (each_andThen (fun u e he => ?_) (each_ite (each_updCore (by simp [Effect.table])) each_skip))) s
  unfold reclaim at he
  split at he
  · cases he
  · obtain ⟨x, -, rfl⟩ := List.mem_map.1 he
    simp [Effect.table]

theorem only_returnWarps (hs : List (Nat × Warp × Nat × Nat × Nat)) (s : State) : Only [.warps] s (after (returnWarps hs) s) :=
  only_of_each (each_forAll fun h => each_look fun _ => by
    split
    · exact each_eff (by simp [Effect.table])
    · exact each_skip) s

/-- Block `id` has come back to the place `p`. -/
structure BlockBack (id : Nat) (b : Block) (l : Launch) (p : BlockPlace) (s t : State) : Prop where
  mem : t.mem = s.mem
  block : ∃ y, mLook t.blocks id = some y ∧ y.place = .resident ∧ y.cores = p.cores ∧ y.acc = b.acc ∧
    ((∀ c, mLook s.ctxs l.ctx = some c → ∀ g ∈ c.groups, ∀ d ∈ g.2.sending, d.blk ≠ id) → y.scratch = b.scratch)

theorem restoreBlock_back {id : Nat} {b : Block} {s : State} (hb : mLook s.blocks id = some b) (l : Launch) (p : BlockPlace) :
    BlockBack id b l p s (after (restoreBlock id b l p) s) := by
  rw [after_restoreBlock]
  obtain ⟨hmem, hacc⟩ := keeps_accKept_receiveAreas (id := id) l.ctx id s
  obtain ⟨x, hx, hxacc⟩ := hacc b hb
  have hxscr : (∀ c, mLook s.ctxs l.ctx = some c → ∀ g ∈ c.groups, ∀ d ∈ g.2.sending, d.blk ≠ id) → x.scratch = b.scratch := fun h => by
    rw [receiveAreas_none h, hb] at hx
    rw [Option.some.inj hx]
  generalize after (receiveAreas l.ctx id) s = s1 at hmem hx ⊢
  have h2 := only_returnCores l b p s1
  generalize after (returnCores l b p) s1 = s2 at h2 ⊢
  have hx2 : mLook s2.blocks id = some x := by rw [h2.blocks (by decide), hx]
  rw [returnBlock, after_look, after_updBlock hx2, resumeBars, after_look, after_updBlock (mLook_mIns_self ..)]
  refine ⟨((only_returnWarps _ _).mem (by decide)).trans ((h2.mem (by decide)).trans hmem), ?_⟩
  rw [(only_returnWarps _ _).blocks (by decide)]
  exact ⟨_, mLook_mIns_self .., rfl, rfl, hxacc, hxscr⟩

/-- The groups of the blocks that came back, at their new bases. -/
def returnGroups (gs : List (Nat × Nat)) : Act :=
  forAll (fun (g : Nat × Nat) => look fun s => updGroup g.1 fun x =>
    { x with base := g.2
             bars := match x.blocks.head?.bind (mLook s.blocks) with
               | some k => pauseBars (cycleOf s (k.cores.headD 0)) x.bars
               | none => x.bars }) gs

theorem only_returnGroups (gs : List (Nat × Nat)) (s : State) : Only [.groups] s (after (returnGroups gs) s) :=
  only_of_each (each_forAll fun _ => each_look fun _ => each_updGroup (by simp [Effect.table])) s

/-! ## The end of a context by its watchdog -/

theorem terminate_entry {s : State} {cid : Nat} {c : Context} (hc : mLook s.ctxs cid = some c) (ht : c.terminated = false) (diag : List Byte)
    (culprit : Option Nat) (fpc : DWord) (status : Nat) :
    mLook (after (terminate cid diag culprit fpc status) s).ctxs cid = some (endedContext c) := by
  have hopen : (mLook s.ctxs cid).filter (fun c => !c.terminated) = some c := by rw [hc]; simp [ht]
  rw [terminate, after_look, hopen]
  simp only [after_andThen]
  have h1 := only_stopRunning cid (blocksOf s cid) s
  generalize after (stopRunning cid (blocksOf s cid)) s = s1 at h1 ⊢
  have h2 := only_writeVirt c c.diag.toNat diag s1
  generalize after (writeVirt c c.diag.toNat diag) s1 = s2 at h2 ⊢
  have h3 := only_cutLaunches c (blocksOf s cid) culprit fpc status (openLaunches s cid) s2
  generalize after (forAll (cutLaunch c (blocksOf s cid) culprit fpc status) (openLaunches s cid)) s2 = s3 at h3 ⊢
  have h4 := only_freeHeld cid (blocksOf s cid) s3
  generalize after (freeHeld cid (blocksOf s cid)) s3 = s4 at h4 ⊢
  have h5 := only_freeCores (blocksOf s cid) s4
  generalize after (freeCores (blocksOf s cid)) s4 = s5 at h5 ⊢
  have hu : mLook s5.ctxs cid = some c := by
    rw [h5.ctxs (by simp), h4.ctxs (by simp), h3.ctxs (by simp), h2.ctxs (by simp), h1.ctxs (by simp), hc]
  rw [after_updCtx hu, after_updMgmt, after_bump]
  exact mLook_mIns_self ..

/-- Settles O52: a save through what it does to each of its blocks and warps, a restore through the steps of one block's
return, and the watchdog through the end of a context. -/
theorem preemptionCompletes : Obligations.PreemptionCompletes := by
  unfold Obligations.PreemptionCompletes
  intro s hcan
  refine ⟨?request, ?save, ?restore, ?watchdog⟩
  case request =>
    intro core hready
    have hrun : exec (.preemptSave core) s = .next (after (emptyCore core) (after bump
        (after (forAll (fun (e : Nat × Block) => updBlock e.1 toldToStop) (saveSet s core)) s))) := by
      change execPreemptSave core s = _
      rw [execPreemptSave, finish_eq, requestSave, after_look, after_andThen, requestBlocks, after_look]
      refine congrArg (fun a => Host.Outcome.next (after (emptyCore core) (after a s))) (if_neg ?_) |>.trans ?_
      · exact fun h => absurd (hready.symm.trans h) Bool.false_ne_true
      · rw [after_andThen]; rfl
    have honly : Only [.blocks] s (after (forAll (fun (e : Nat × Block) => updBlock e.1 toldToStop) (saveSet s core)) s) :=
      only_of_each (each_forAll fun _ => each_updBlock (by simp [Effect.table])) s
    have htold (b : Nat) (x : Block) := mLook_toldToStop (saveSet s core) s (b := b) (x := x)
    generalize after (forAll (fun (e : Nat × Block) => updBlock e.1 toldToStop) (saveSet s core)) s = u at hrun honly htold
    have hbusy : blocksOn (after bump u) core ≠ [] := by
      obtain ⟨e, he, -⟩ := List.all_eq_false.1 hready
      obtain ⟨k, hk, -⟩ := List.any_eq_true.1 (List.mem_filter.1 he).2
      obtain ⟨hks, hkon⟩ := List.mem_filter.1 hk
      have hku := mem_of_mLook (htold k.1 k.2 (mLook_of_mem hcan.blocks hks))
      refine List.ne_nil_of_mem (List.mem_filter.2 ⟨hku, ?_⟩)
      split
      · exact hkon
      · exact hkon
    rw [emptyCore_busy hbusy, after_bump] at hrun
    refine ⟨_, hrun, ?_, htold⟩
    have e := honly.eq
    simp at e
    rw [e]
  case save =>
    intro core hready harea
    have hrun : exec (.preemptSave core) s = .next (after (emptyCore core) (after (saveBlocks (saveSet s core)) s)) := by
      change execPreemptSave core s = _
      rw [execPreemptSave, finish_eq, requestSave, after_look, after_andThen, requestBlocks, after_look]
      exact congrArg (fun a => Host.Outcome.next (after (emptyCore core) (after a s))) (if_pos hready)
    obtain ⟨hmem, hblocks, hsaved, hothers⟩ := saveBlocks_saved hcan harea core
    refine ⟨_, hrun, hmem, fun e he => ?_, hsaved, hothers⟩
    exact hblocks e.1 e.2 (mLook_of_mem hcan.blocks (List.mem_filter.1 he).1) ⟨e, he, rfl⟩
  case restore =>
    intro id b l p es hb hl hplace hwith hread hfree hcores hes
    have hback : es = restoreBlock id b l p s := by
      simp only [restoreAll, hl] at hes
      split at hes
      · cases hes
      · simpa using hes.symm
    have hrun : exec (.blockRestore id [p]) s = .next (after bump (after
        (returnGroups [(b.group, clusterBase (p.cores.headD 0) l.cluster)]) (after (restoreBlock id b l p) s))) := by
      have hall : (p.cores.all fun c => mayReturn s b l c) = true := List.all_eq_true.2 hcores
      change execBlockRestore id [p] s = _
      unfold execBlockRestore
      rw [finish_eq, hb]
      simp [hl, hwith, hplace, hread, hfree, hall, hes, -List.headD_eq_head?_getD]
      rw [hback]
      rfl
    obtain ⟨hmem, y, hy, hyplace, hycores, hyacc, hyscr⟩ := restoreBlock_back hb l p
    have hg := only_returnGroups [(b.group, clusterBase (p.cores.headD 0) l.cluster)] (after (restoreBlock id b l p) s)
    refine ⟨_, y, hrun, ?_, hyplace, hycores, hyacc, ?_, hyscr⟩
    · rw [after_bump]
      exact (congrArg (mLook · id) (hg.blocks (by decide))).trans hy
    · exact (hg.mem (by decide)).trans hmem
  case watchdog =>
    intro id b c cl bid y hb hc ht hfind hfirst g x bs fpc u
    refine ⟨?_, terminate_entry hc ht ..⟩
    change execWdogExpire id cl bid s = _
    have hall : (expired s b.ctx).all (expiresFirst y) = true := List.all_eq_true.2 hfirst
    rw [execWdogExpire, finish_eq, hb]
    simp only [hfind, hall]
    rfl

end Sys2Proof.Machine


/-! # Submission, arbitration and the end of a launch (22_scheduling R338 to R343) -/

namespace Sys2Proof.Machine

/-! ## The record of a launch that ends -/

/-- A launch that has ended with status `st`, byte +0 of its record still to come. -/
def endedLaunch (s : State) (c : Context) (l : Launch) (st : Nat) : Launch :=
  { l with stage := .finished, status := st, doneKey := if doneOk s c l.bytes then ownKey s c l.doneAt else none }

/-- Memory with the bytes +1 to +15 of its completion record. -/
def tailWritten (s : State) (c : Context) (l : Launch) (st penn blocks : Nat) : List Host.Cell :=
  if doneOk s c l.bytes then (after (writeVirt c (l.doneAt + 1) (completionTail st penn blocks 0)) s).mem else s.mem

/-- Where the device writes for a context depends on what it keeps of its tables and seals alone. -/
theorem writeVirt_congr {c d : Context} (h : ∀ s va, writeKey s d va = writeKey s c va) (va : Nat) (bs : List Byte) : writeVirt d va bs = writeVirt c va bs := by
  have hbytes (bs : List Byte) (va : Nat) : virtBytes d va bs = virtBytes c va bs := by
    induction bs generalizing va with
    | nil => rfl
    | cons b bs ih => simp only [virtBytes, h, ih]
  simp only [writeVirt, hbytes, h]

theorem after_beginRecord {s u : State} (hm : u.mem = s.mem) {c d : Context} (hw : ∀ s va, writeKey s d va = writeKey s c va)
    (hdone : ∀ bs, doneOk u d bs = doneOk u c bs) (hkey : ∀ va, ownKey u d va = ownKey u c va) (id : Nat) (l : Launch) (st penn blocks : Nat) :
    ∃ bd, after (beginRecord d id l st penn blocks 0) u =
      { u with mem := tailWritten s c l st penn blocks, bad := bd, launches := mIns u.launches id (endedLaunch s c l st) } := by
  rw [beginRecord, after_look, after_andThen, hdone, hkey, doneOk_congr hm, ownKey_congr hm, writeVirt_congr hw]
  unfold tailWritten endedLaunch
  cases h : doneOk s c l.bytes with
  | false =>
    rw [← hm]
    exact ⟨u.bad, rfl⟩
  | true =>
    have honly := only_writeVirt c (l.doneAt + 1) (completionTail st penn blocks 0) u
    have hmem := writeVirt_mem hm c (l.doneAt + 1) (completionTail st penn blocks 0)
    rw [if_pos rfl, if_pos rfl, if_pos rfl]
    generalize after (writeVirt c (l.doneAt + 1) (completionTail st penn blocks 0)) u = v at honly hmem ⊢
    have e := honly.eq
    simp at e
    refine ⟨v.bad, ?_⟩
    rw [← hmem, e]
    rfl

/-! ## Submission (R341) -/

section
variable {s : State} {cid : Nat} {c : Context} {addr : DWord}

/-- The context counts one refused submission more. -/
def refusedOne (s : State) (cid : Nat) (c : Context) : State := { s with ctxs := mIns s.ctxs cid { c with refused := c.refused + 1 } }

/-- The scope that a record names. -/
def scopeNamed (bs : List Byte) : Option Nat := if recAt bs 48 2 = 0xFFFF then none else some (recAt bs 48 2)

/-- The launch that a submitted record becomes. -/
def submitted (cid : Nat) (bs : List Byte) : Launch :=
  { ctx := cid, bytes := bs, scope := scopeNamed bs, stage := if recHold bs then .held else .ready, placed := true }

variable (hc : mLook s.ctxs cid = some c) (ht : c.terminated = false)
include hc ht

theorem exec_hostSubmit_misaligned (ha : addr.toNat % 128 ≠ 0) : exec (.hostSubmit cid addr) s = .next (refusedOne s cid c) := by
  change execHostSubmit cid addr s = _
  rw [execHostSubmit, finish_eq, hc]
  refine congrArg (fun a => Host.Outcome.next (after a s)) ((if_neg (by rw [ht]; decide)).trans (if_pos ha)) |>.trans ?_
  rw [after_updCtx hc]
  rfl

theorem exec_hostSubmit_unreadable (ha : addr.toNat % 128 = 0) (hr : readVirt s c addr.toNat 128 = none) :
    exec (.hostSubmit cid addr) s = .next (refusedOne s cid c) := by
  change execHostSubmit cid addr s = _
  rw [execHostSubmit, finish_eq, hc]
  refine congrArg (fun a => Host.Outcome.next (after a s)) ((if_neg (by rw [ht]; decide)).trans (if_neg (not_not_intro ha))) |>.trans ?_
  rw [hr]
  refine (congrArg Host.Outcome.next (after_updCtx hc)).trans rfl

/-- A record that can be read, and what R341 asks of it. -/
theorem exec_hostSubmit_read (ha : addr.toNat % 128 = 0) {bs : List Byte} (hr : readVirt s c addr.toNat 128 = some bs) {bad : Bool}
    (hbad : (!doneOk s c bs || decide (c.launchQuota ≤ ringCount s cid) || (scopeNamed bs).any fun n => !scopeOpen c n) = bad) :
    exec (.hostSubmit cid addr) s = .next (if bad then refusedOne s cid c else
      after bump (after (if recHold bs && (scopeNamed bs).isNone then refuseHeld cid bs
        else addLaunch (submitted cid bs))
        { s with ctxs := mIns s.ctxs cid { c with lastId := freshId s } })) := by
  change execHostSubmit cid addr s = _
  rw [execHostSubmit, finish_eq, hc]
  refine congrArg (fun a => Host.Outcome.next (after a s)) ((if_neg (by rw [ht]; decide)).trans (if_neg (not_not_intro ha))) |>.trans ?_
  rw [hr]
  cases bad with
  | true => exact (congrArg (fun a => Host.Outcome.next (after a s)) (if_pos hbad)).trans (congrArg Host.Outcome.next (after_updCtx hc))
  | false =>
    refine (congrArg (fun a => Host.Outcome.next (after a s)) (if_neg fun h => Bool.false_ne_true (hbad.symm.trans h))).trans ?_
    rw [after_andThen, after_updCtx hc, after_andThen]
    rfl

end

/-! ## The end of a launch (R338 to R340) -/

theorem after_endLaunch {s u : State} (hm : u.mem = s.mem) {c : Context} {l : Launch} (hc : mLook u.ctxs l.ctx = some c) (id st penn blocks : Nat) :
    ∃ bd, after (endLaunch id l st penn blocks) u =
      { u with mem := tailWritten s c l st penn blocks, bad := bd, launches := mIns u.launches id (endedLaunch s c l st), epoch := u.epoch + 1 } := by
  obtain ⟨bd, h⟩ := after_beginRecord hm (c := c) (fun _ _ => rfl) (fun _ => rfl) (fun _ => rfl) id l st penn blocks
  refine ⟨bd, ?_⟩
  rw [endLaunch, after_look, hc]
  refine (after_andThen ..).trans ?_
  rw [h, after_bump]

/-- Byte +0 of the record of a launch that has ended. -/
def statusAct (l : Launch) : Act := match l.doneKey with | some k => writeLoc (.glob k) 1 l.status | none => skip

theorem only_statusAct (l : Launch) (s : State) : Only [.mem, .bad] s (after (statusAct l) s) := by
  refine only_of_each ?_ s
  unfold statusAct
  split
  · intro u e he
    rcases List.mem_cons.1 he with rfl | he
    · simp [Effect.table]
    · split at he
      · cases he
      · rw [List.mem_singleton.1 he]; simp [Effect.table]
  · exact each_skip

/-- A context with one item less in a scope. -/
def scopeDropped (sc : Option Nat) (c : Context) : Context :=
  match sc with | some n => withScopes c (dropScope c.scopes n) | none => c

theorem after_scopeDrop (cid : Nat) (sc : Option Nat) (s : State) :
    ∃ m, after (match sc with | some n => updScopes cid fun m => dropScope m n | none => skip) s = { s with ctxs := m } ∧
      (∀ c, mLook s.ctxs cid = some c → mLook m cid = some (scopeDropped sc c)) ∧ ∀ j, j ≠ cid → mLook m j = mLook s.ctxs j := by
  cases sc with
  | none => exact ⟨s.ctxs, rfl, fun _ h => h, fun _ _ => rfl⟩
  | some n =>
    cases hc : mLook s.ctxs cid with
    | none => exact ⟨s.ctxs, by simp [updScopes, updCtx, after, hc], (fun _ h => by cases h), fun _ _ => rfl⟩
    | some c =>
      exact ⟨_, after_updCtx hc, fun d hd => by cases hd; exact mLook_mIns_self .., fun j hj => mLook_mIns_ne _ _ hj⟩

theorem finishRecord_spec {s : State} {id : Nat} {l : Launch} (hl : mLook s.launches id = some l) (hst : l.stage = .finished) :
    ∃ t, takeInput (.finishLaunch id) s = .next t ∧
      t = { s with mem := t.mem, bad := t.bad, ctxs := t.ctxs, launches := mDel s.launches id, epoch := s.epoch + 1 } ∧
      t.mem = (after (statusAct l) s).mem ∧ (∀ c, mLook s.ctxs l.ctx = some c → mLook t.ctxs l.ctx = some (scopeDropped l.scope c)) ∧
      ∀ j, j ≠ l.ctx → mLook t.ctxs j = mLook s.ctxs j := by
  have hrun : takeInput (.finishLaunch id) s = .next (after bump (after (eff (.dropLaunch id))
      (after (match l.scope with | some n => updScopes l.ctx fun m => dropScope m n | none => skip) (after (statusAct l) s)))) := by
    change finish s (finishRecord id) = _
    rw [finish_eq, finishRecord, after_look, hl]
    refine (congrArg (fun a => Host.Outcome.next (after a s)) (if_neg (not_not_intro hst))).trans ?_
    rw [after_andThen, after_andThen, after_andThen]
    rfl
  have h1 := only_statusAct l s
  generalize after (statusAct l) s = s1 at hrun h1 ⊢
  obtain ⟨m, em, hself, hothers⟩ := after_scopeDrop l.ctx l.scope s1
  rw [em] at hrun
  have hctxs := h1.ctxs (by decide)
  refine ⟨_, hrun, ?_, rfl, fun c hc => hself c (by rw [hctxs, hc]), fun j hj => (hothers j hj).trans (by rw [hctxs])⟩
  have e := h1.eq
  simp at e
  rw [e]
  rfl

end Sys2Proof.Machine


/-! # Dispatch (22_scheduling R344, 02_execution_model R11, 03_registers R45) -/

namespace Sys2Proof.Machine

/-! ## The warps of a new block -/

/-- The strand that a warp starts with. -/
def startStrand (l : Launch) (x : Warp) : Strand := { members := x.live, pc := BitVec.ofNat 64 l.entry }

/-- The warp with its first strand, in an entry or held for want of one. -/
def Started (l : Launch) (x y : Warp) : Prop :=
  (∃ k, y = { x with strands := [(k, startStrand l x)] }) ∨ y = { x with heldStrands := [startStrand l x] }

theorem after_addWarp (id : Nat) (x : Warp) (l : Launch) (s : State) :
    ∃ y, after (addWarp id x l) s = { s with warps := mIns s.warps id y } ∧ Started l x y := by
  unfold addWarp
  rw [after_look]
  split
  · next k _ => exact ⟨_, rfl, .inl ⟨k, rfl⟩⟩
  · exact ⟨_, rfl, .inr rfl⟩

/-- Warps that are added one by one, the one for `w` at `base + w`. -/
theorem after_addWarps {f : Nat → Act} {base : Nat} {P : Nat → Warp → Prop}
    (hf : ∀ w (u : State), ∃ y, after (f w) u = { u with warps := mIns u.warps (base + w) y } ∧ P w y) (ws : List Nat) (s : State) :
    ∃ m, after (forAll f ws) s = { s with warps := m } ∧ (∀ w ∈ ws, ∃ y, mLook m (base + w) = some y ∧ P w y) ∧
      ∀ k, (∀ w ∈ ws, k ≠ base + w) → mLook m k = mLook s.warps k := by
  induction ws generalizing s with
  | nil => exact ⟨s.warps, rfl, (fun _ h => by cases h), fun _ _ => rfl⟩
  | cons w ws ih =>
    obtain ⟨y, hy, hP⟩ := hf w s
    obtain ⟨m, hm, hin, hout⟩ := ih { s with warps := mIns s.warps (base + w) y }
    refine ⟨m, by rw [after_forAll_cons, hy, hm], fun v hv => ?_, fun k hk => ?_⟩
    · by_cases hvs : v ∈ ws
      · exact hin v hvs
      · obtain rfl := (List.mem_cons.1 hv).resolve_right hvs
        exact ⟨y, (hout _ fun u hu he => hvs ((show v = u from Nat.add_left_cancel he) ▸ hu)).trans (mLook_mIns_self ..), hP⟩
    · rw [hout k fun v hv => hk v (List.mem_cons_of_mem _ hv)]
      exact mLook_mIns_ne _ _ (hk w List.mem_cons_self)

/-! ## The parts of a placement -/

theorem each_takeCore {P : Effect → Prop} {cid k : Nat} (h1 : ∀ c x, P (.core c x)) (h2 : ∀ a b, P (.share a b)) (hb : ∀ l, P (.bad l)) :
    Each P (takeCore cid k) :=
  each_look fun _ => each_ite each_skip (each_andThen (each_cleanCore h1 h2 hb) (each_updCore fun _ => h1 _ _))

theorem each_reclaim {P : Effect → Prop} {k n : Nat} (h : ∀ a b, P (.share a b)) : Each P (reclaim k n) := fun u e he => by
  unfold reclaim at he
  split at he
  · cases he
  · obtain ⟨x, -, rfl⟩ := List.mem_map.1 he
    exact h _ _

/-- The cores of a new block, taken by its context. -/
def takeCores (l : Launch) (p : BlockPlace) : Act :=
  forAll (fun c => andThen (takeCore l.ctx c) <| andThen (reclaim c (pieceBytes l p.cores.length / 65536)) <|
    updCore c fun x => { x with icache := [] }) p.cores

theorem only_takeCores (l : Launch) (p : BlockPlace) (s : State) : Only [.cores, .dir, .bad] s (after (takeCores l p) s) :=
  only_of_each (each_forAll fun _ => each_andThen
    (each_takeCore (by simp [Effect.table]) (by simp [Effect.table]) (by simp [Effect.table]))
    (each_andThen (each_reclaim (by simp [Effect.table])) (each_updCore (by simp [Effect.table])))) s

/-- A new block. -/
def newBlock (s : State) (id : Nat) (l : Launch) (p : BlockPlace) (gid blk : Nat) : Block :=
  { launch := id, ctx := l.ctx, b := p.b, cores := p.cores, warps := (List.range l.warpsN).map (blk + 1 + ·), group := gid,
    rect := p.cores.map fun c => (c, (freeRect (slotsUsed s c) (rectOf l).1 (rectOf l).2).getD []) }

/-- The warps of a new block. -/
def addWarps (l : Launch) (p : BlockPlace) (blk : Nat) : Act :=
  forAll (fun w => look fun s =>
    let c := p.cores.getD (w / runOf l p.cores.length) 0
    addWarp (blk + 1 + w) (freshWarp l p blk w c (servingSub s c w) (blk + 1 + w)) l) (List.range l.warpsN)

theorem after_placeBlock (id : Nat) (l : Launch) (p : BlockPlace) (gid : Nat) (s : State) :
    after (placeBlock id l p gid) s = after (updLaunch id fun x => { x with nextB := p.b + 1, stage := .running })
      (after (traceNote (p.cores.headD 0) (.dispatch s.nextId (.ordinary id p.b 0)))
        (after (updGroup gid fun g => { g with blocks := g.blocks ++ [s.nextId] })
          (after (addWarps l p s.nextId)
            (after (look fun u => eff (.block s.nextId (newBlock u id l p gid s.nextId)))
              (after (takeCores l p) (after (eff (.ids (s.nextId + 1 + l.warpsN))) s)))))) := by
  rw [placeBlock, after_look]
  simp only [after_andThen]
  rfl

/-- A warp as R45 has it at dispatch, with its first strand. -/
structure Dispatched (l : Launch) (p : BlockPlace) (blk w : Nat) (x : Warp) : Prop where
  block : x.block = blk
  num : x.num = w
  alloc : x.alloc = l.vregs
  live : x.live = liveAtDispatch l w
  nstat : x.nstat = ((BitVec.ofNat 32 l.nstat0 &&& 0x3F00) ||| (if l.trapnan then 0x1000 else 0))
  args : sVal x true 0 = l.args % 2 ^ 64
  vregs : x.v = []
  record : x.recAt = p.records.getD w 0
  strand : (∃ k, x.strands = [(k, startStrand l x)] ∧ x.heldStrands = []) ∨ (x.strands = [] ∧ x.heldStrands = [startStrand l x])

theorem dispatched_of_started {l : Launch} {p : BlockPlace} {blk w core sub age : Nat} {x : Warp}
    (h : Started l (freshWarp l p blk w core sub age) x) : Dispatched l p blk w x := by
  have hargs (y : Warp) (hs : y.s = (freshWarp l p blk w core sub age).s) : sVal y true 0 = l.args % 2 ^ 64 :=
    (sVal_congr (y := setSVal { block := blk, num := w, core := core, sub := sub, slotNo := 0, alloc := l.vregs } true 0 l.args) hs true 0).trans
      (sVal_setSVal_self ..)
  rcases h with ⟨k, rfl⟩ | rfl
  · exact ⟨rfl, rfl, rfl, rfl, rfl, hargs _ rfl, rfl, rfl, .inl ⟨k, rfl, rfl⟩⟩
  · exact ⟨rfl, rfl, rfl, rfl, rfl, hargs _ rfl, rfl, rfl, .inr ⟨rfl, rfl⟩⟩

/-- A block of launch `id` has taken its place, as block `blk` of group `gid`. -/
structure BlockPlaced (s t : State) (id : Nat) (l : Launch) (p : BlockPlace) (gid blk : Nat) : Prop where
  mem : t.mem = s.mem
  block : ∃ u, mLook t.blocks blk = some (newBlock u id l p gid blk)
  launch : ∀ x, mLook s.launches id = some x → mLook t.launches id = some { x with nextB := p.b + 1, stage := .running }
  warps : ∀ w < l.warpsN, ∃ x, mLook t.warps (blk + 1 + w) = some x ∧ Dispatched l p blk w x

theorem placeBlock_placed (id : Nat) (l : Launch) (p : BlockPlace) (gid : Nat) (s : State) :
    BlockPlaced s (after (placeBlock id l p gid) s) id l p gid s.nextId := by
  rw [after_placeBlock]
  generalize s.nextId = blk
  have h1 := only_takeCores l p (after (eff (.ids (blk + 1 + l.warpsN))) s)
  generalize after (takeCores l p) (after (eff (.ids (blk + 1 + l.warpsN))) s) = s1 at h1 ⊢
  obtain ⟨m, hm, hin, -⟩ := after_addWarps (base := blk + 1) (P := Dispatched l p blk)
    (f := fun w => look fun s => addWarp (blk + 1 + w) (freshWarp l p blk w (p.cores.getD (w / runOf l p.cores.length) 0)
      (servingSub s (p.cores.getD (w / runOf l p.cores.length) 0) w) (blk + 1 + w)) l)
    (fun w u => by
      obtain ⟨y, hy, hst⟩ := after_addWarp (blk + 1 + w) (freshWarp l p blk w (p.cores.getD (w / runOf l p.cores.length) 0)
        (servingSub u (p.cores.getD (w / runOf l p.cores.length) 0) w) (blk + 1 + w)) l u
      exact ⟨y, hy, dispatched_of_started hst⟩) (List.range l.warpsN)
    (after (look fun u => eff (.block blk (newBlock u id l p gid blk))) s1)
  have hwarps : after (addWarps l p blk) (after (look fun u => eff (.block blk (newBlock u id l p gid blk))) s1) =
      { s1 with blocks := mIns s1.blocks blk (newBlock s1 id l p gid blk), warps := m } := hm
  rw [hwarps]
  generalize hs2 : ({ s1 with blocks := mIns s1.blocks blk (newBlock s1 id l p gid blk), warps := m } : State) = s2
  have h3 : Only [.groups, .cores] s2 (after (traceNote (p.cores.headD 0) (.dispatch blk (.ordinary id p.b 0)))
      (after (updGroup gid fun g => { g with blocks := g.blocks ++ [blk] }) s2)) := by
    rw [← after_andThen]
    exact only_of_each (each_andThen (each_updGroup (by simp [Effect.table])) (each_traceNote (by simp [Effect.table]))) s2
  generalize after (traceNote _ _) _ = s3 at h3 ⊢
  have h4 : Only [.launches] s3 (after (updLaunch id fun x => { x with nextB := p.b + 1, stage := .running }) s3) :=
    only_of_each (each_updLaunch (by simp [Effect.table])) s3
  have hb : s2.blocks = mIns s1.blocks blk (newBlock s1 id l p gid blk) := by rw [← hs2]
  have hw : s2.warps = m := by rw [← hs2]
  have hl : s2.launches = s.launches := by rw [← hs2]; exact h1.launches (by decide)
  have hmem : s2.mem = s.mem := by rw [← hs2]; exact h1.mem (by decide)
  refine ⟨?_, ⟨s1, ?_⟩, fun x hx => ?_, fun w hwn => ?_⟩
  · rw [h4.mem (by decide), h3.mem (by decide), hmem]
  · rw [h4.blocks (by decide), h3.blocks (by decide), hb, mLook_mIns_self]
  · have hx3 : mLook s3.launches id = some x := by rw [h3.launches (by decide), hl, hx]
    rw [after_updLaunch hx3]
    exact mLook_mIns_self ..
  · obtain ⟨x, hx, hd⟩ := hin w (List.mem_range.2 hwn)
    exact ⟨x, by rw [h4.warps (by decide), h3.warps (by decide), hw, hx], hd⟩

end Sys2Proof.Machine


/-! # Completion of a block (02_execution_model R15, 22_scheduling R339), and the scheduler as a whole -/

namespace Sys2Proof.Machine

/-! ## Entries dropped one by one -/

theorem mLook_foldl_mDel {α : Type} (ks : List Nat) (m : Map α) (k : Nat) :
    mLook (ks.foldl mDel m) k = if k ∈ ks then none else mLook m k := by
  induction ks generalizing m with
  | nil => rfl
  | cons j ks ih =>
    rw [List.foldl_cons, ih]
    by_cases h : k = j
    · simp [h]
    · simp [h]

theorem after_dropWarps (ws : List Nat) (s : State) : after (fun _ => ws.map .dropWarp) s = { s with warps := ws.foldl mDel s.warps } :=
  applyAll_map (get := (·.warps)) (set := fun s m => { s with warps := m }) ⟨fun _ _ => rfl, fun _ _ _ => rfl, fun _ => rfl⟩
    (fun _ _ => rfl) ws s

theorem after_dropBlocks (bs : List Nat) (s : State) : after (fun _ => bs.map .dropBlock) s = { s with blocks := bs.foldl mDel s.blocks } :=
  applyAll_map (get := (·.blocks)) (set := fun s m => { s with blocks := m }) ⟨fun _ _ => rfl, fun _ _ _ => rfl, fun _ => rfl⟩
    (fun _ _ => rfl) bs s

/-! ## Launches that leave a core's queue -/

/-- Every launch stands, at most its place in a core's queue given up. -/
structure Requeued (s t : State) : Prop where
  canonical : t.Canonical
  launch : ∀ k l, mLook s.launches k = some l → ∃ q, (q = l.queue ∨ q = none) ∧ mLook t.launches k = some { l with queue := q }

/-- What an act that moves launches to the rings keeps. -/
def RequeuesOf (s t : State) : Prop := s.Canonical → Requeued s t

theorem chain_requeues : Chain RequeuesOf where
  refl _ hc := ⟨hc, fun _ l hl => ⟨l.queue, .inl rfl, hl⟩⟩
  trans h g hc := by
    obtain ⟨hc1, h1⟩ := h hc
    obtain ⟨hc2, h2⟩ := g hc1
    refine ⟨hc2, fun k l hl => ?_⟩
    obtain ⟨q, hq, hlk⟩ := h1 k l hl
    obtain ⟨r, hr, hlr⟩ := h2 k _ hlk
    exact ⟨r, hr.elim (fun h => h ▸ hq) .inr, hlr⟩

theorem requeues_of_each {ts : List Table} {a : Act} (h : Each (fun e => e.table ∈ ts) a) (hn : .launches ∉ ts) : Keeps RequeuesOf a := fun s hc =>
  ⟨after_canonical hc a, fun _ l hl => ⟨l.queue, .inl rfl, by rw [(only_of_each h s).launches hn]; exact hl⟩⟩

theorem requeues_toRings (c : Nat) : Keeps RequeuesOf (toRings c) := fun s hc => by
  refine ⟨after_canonical hc _, fun k l hl => ?_⟩
  have hafter : (after (toRings c) s).launches =
      (s.launches.filter fun e => decide (e.2.queue = some c)).foldl (fun m e => mIns m e.1 { e.2 with queue := none }) s.launches :=
    congrArg State.launches (applyAll_map (get := (·.launches)) (set := fun s m => { s with launches := m })
      (mk := fun e : Nat × Launch => .launch e.1 { e.2 with queue := none }) ⟨fun _ _ => rfl, fun _ _ _ => rfl, fun _ => rfl⟩ (fun _ _ => rfl) _ s)
  rw [hafter]
  by_cases hin : ∃ e ∈ s.launches.filter fun e => decide (e.2.queue = some c), e.1 = k
  · refine ⟨none, .inr rfl, mLook_foldl_mIns_all _ hin fun e he hek => ?_⟩
    have := mLook_of_mem hc.launches (List.mem_filter.1 he).1
    rw [hek, hl] at this
    rw [← Option.some.inj this]
  · exact ⟨l.queue, .inl rfl, (mLook_foldl_mIns_ne _ fun e he hek => hin ⟨e, he, hek⟩).trans hl⟩

theorem requeues_joinIdle (c : Nat) : Keeps RequeuesOf (joinIdle c) := by
  refine keeps_look fun s => ?_
  split
  · exact keeps_skip chain_requeues
  · refine keeps_ite (fun _ => keeps_skip chain_requeues) fun _ => keeps_andThen chain_requeues (requeues_toRings c) ?_
    refine requeues_of_each (ts := [.cores, .dir, .bad, .parts]) ?_ (by decide)
    refine each_andThen (each_cleanCore (by simp [Effect.table]) (by simp [Effect.table]) (by simp [Effect.table]))
      (each_andThen (each_updCore (by simp [Effect.table])) (each_andThen (fun u e he => ?_) fun u e he => ?_))
    · obtain ⟨x, -, rfl⟩ := List.mem_map.1 he
      simp [Effect.table]
    · rw [List.mem_singleton.1 he]; simp [Effect.table]

/-- What the end of a group leaves. -/
structure GroupLeft (s t : State) : Prop where
  only : Only [.blocks, .groups, .cores, .dir, .bad, .parts, .launches] s t
  block : ∀ b y, mLook t.blocks b = some y → mLook s.blocks b = some y
  launch : ∀ k l, mLook s.launches k = some l → ∃ q, (q = l.queue ∨ q = none) ∧ mLook t.launches k = some { l with queue := q }

theorem dropGroupIfDone_left {s : State} (hc : s.Canonical) (gid : Nat) : GroupLeft s (after (dropGroupIfDone gid) s) := by
  have hrefl : GroupLeft s s := ⟨(chain_only _).refl s, fun _ _ h => h, fun _ l hl => ⟨l.queue, .inl rfl, hl⟩⟩
  rw [dropGroupIfDone, after_look]
  split
  · exact hrefl
  · next g _ =>
    split
    · dsimp only
      generalize ((g.blocks.filterMap (mLook s.blocks)).flatMap (·.cores)).eraseDups = cs
      have honly : Only [.blocks, .groups, .cores, .dir, .bad, .parts, .launches] s
          (after (andThen (fun _ => g.blocks.map .dropBlock) (andThen (eff (.dropGroup gid)) (forAll joinIdle cs))) s) :=
        only_of_each (each_andThen (fun u e he => by obtain ⟨x, -, rfl⟩ := List.mem_map.1 he; simp [Effect.table])
          (each_andThen (each_eff (by simp [Effect.table])) (each_forAll fun _ => each_joinIdle (by simp [Effect.table]) (by simp [Effect.table])
            (by simp [Effect.table]) (by simp [Effect.table]) (by simp [Effect.table])))) s
      have hdropped : after (eff (.dropGroup gid)) (after (fun _ => g.blocks.map .dropBlock) s) =
          { s with blocks := g.blocks.foldl mDel s.blocks, groups := mDel s.groups gid } := by rw [after_dropBlocks]; rfl
      have hcan : ({ s with blocks := g.blocks.foldl mDel s.blocks, groups := mDel s.groups gid } : State).Canonical := by
        rw [← hdropped]
        exact after_canonical (after_canonical hc _) _
      rw [after_andThen, after_andThen, hdropped] at honly ⊢
      have hjoin : Only idleTables { s with blocks := g.blocks.foldl mDel s.blocks, groups := mDel s.groups gid } _ :=
        only_of_each (a := forAll joinIdle cs) (each_forAll fun _ => each_joinIdle (by simp [Effect.table, idleTables]) (by simp [Effect.table, idleTables])
          (by simp [Effect.table, idleTables]) (by simp [Effect.table, idleTables]) (by simp [Effect.table, idleTables])) _
      refine ⟨honly, fun b y hy => ?_, (keeps_forAll chain_requeues (fun c _ => requeues_joinIdle c) _ hcan).launch⟩
      rw [hjoin.blocks (by decide)] at hy
      have h := (mLook_foldl_mDel g.blocks s.blocks b).symm.trans hy
      split at h
      · cases h
      · exact h
    · exact hrefl

/-! ## A block that completes -/

/-- A launch with one more of its blocks complete. -/
def oneBlockMore (b : Block) (l : Launch) (q : Option Nat) : Launch :=
  { l with doneBlocks := l.doneBlocks + 1, penn := l.penn ||| b.bstat, queue := q }

/-- What stands when a block has completed, before its launch ends. -/
structure BlockCompleted (s t : State) (id : Nat) (b : Block) (l : Launch) (q : Option Nat) : Prop where
  canonical : t.Canonical
  queue : q = l.queue ∨ q = none
  mem : t.mem = s.mem
  ctxs : t.ctxs = s.ctxs
  warps : ∀ w ∈ b.warps, mLook t.warps w = none
  blocks : ∀ y, mLook t.blocks id = some y → y.completed = true
  launch : mLook t.launches b.launch = some (oneBlockMore b l q)

/-- The steps of a completion up to the end of the launch. -/
def completeSteps (id : Nat) (b : Block) : Act :=
  andThen (fun _ => b.warps.map .dropWarp) <|
  andThen (updBlock id fun x => { x with completed := true }) <|
  andThen (settleBars id) <|
  andThen (updLaunch b.launch fun l => { l with doneBlocks := l.doneBlocks + 1, penn := l.penn ||| b.bstat }) <|
  andThen (forAll (fun c => forAll (fun sub => seatHeld c sub) (List.range Config.subcores)) b.cores) (dropGroupIfDone b.group)

theorem settleBars_completed {id : Nat} {s : State} (h : ∀ y, mLook s.blocks id = some y → y.completed = true) :
    Only [.blocks, .groups, .epoch] s (after (settleBars id) s) ∧
      ∀ y, mLook (after (settleBars id) s).blocks id = some y → y.completed = true := by
  rw [settleBars, after_look]
  split
  · exact ⟨(chain_only _).refl s, h⟩
  · next b hb =>
    refine ⟨only_of_each (each_andThen (each_updBlock (by simp [Effect.table]))
      (each_andThen (each_updGroup (by simp [Effect.table])) (each_bump (by simp [Effect.table])))) s, fun y hy => ?_⟩
    have hgroup (u : State) : Only [.groups, .epoch] u (after (andThen (updGroup b.group fun g => { g with bars := settled s (groupWarps s g) g.bars }) bump) u) :=
      only_of_each (each_andThen (each_updGroup (by simp [Effect.table])) (each_bump (by simp [Effect.table]))) u
    rw [after_andThen, (hgroup _).blocks (by decide), after_updBlock hb] at hy
    cases (mLook_mIns_self ..).symm.trans hy
    exact h b hb

theorem completeSteps_completed {s : State} (hcan : s.Canonical) {id : Nat} {b : Block} {l : Launch} (hb : mLook s.blocks id = some b)
    (hl : mLook s.launches b.launch = some l) : ∃ q, BlockCompleted s (after (completeSteps id b) s) id b l q := by
  have hb1 : mLook ({ s with warps := b.warps.foldl mDel s.warps } : State).blocks id = some b := hb
  rw [completeSteps]
  simp only [after_andThen]
  rw [after_dropWarps, after_updBlock hb1]
  have hc1 : ({ s with warps := b.warps.foldl mDel s.warps, blocks := mIns s.blocks id { b with completed := true } } : State).Canonical := by
    have := after_canonical (after_canonical hcan (fun _ => b.warps.map .dropWarp)) (updBlock id fun x => { x with completed := true })
    rwa [after_dropWarps, after_updBlock hb1] at this
  obtain ⟨h2, hblk⟩ := settleBars_completed (id := id)
    (s := { s with warps := b.warps.foldl mDel s.warps, blocks := mIns s.blocks id { b with completed := true } }) fun y hy => by
      cases (mLook_mIns_self ..).symm.trans hy; rfl
  have hc2 := after_canonical hc1 (settleBars id)
  generalize after (settleBars id) _ = s2 at h2 hblk hc2 ⊢
  have hl2 : mLook s2.launches b.launch = some l := by rw [h2.launches (by decide), hl]
  have hc3 := after_canonical hc2 (updLaunch b.launch fun l => { l with doneBlocks := l.doneBlocks + 1, penn := l.penn ||| b.bstat })
  rw [after_updLaunch hl2] at hc3 ⊢
  obtain ⟨hseat, -, hgone⟩ := seatAll_reseated b.cores hc3
  have hc4 := after_canonical hc3 (forAll (fun c => forAll (fun sub => seatHeld c sub) (List.range Config.subcores)) b.cores)
  generalize after (forAll (fun c => forAll (seatHeld c) (List.range Config.subcores)) b.cores) _ = s4 at hseat hgone hc4 ⊢
  obtain ⟨h5, hblocks, hlaunch⟩ := dropGroupIfDone_left hc4 b.group
  obtain ⟨q, hq, hlq⟩ := hlaunch b.launch { l with doneBlocks := l.doneBlocks + 1, penn := l.penn ||| b.bstat }
    (by rw [hseat.rest]; exact mLook_mIns_self ..)
  refine ⟨q, after_canonical hc4 _, hq, ?_, ?_, fun w hw => ?_, fun y hy => ?_, hlq⟩
  · rw [h5.mem (by decide), hseat.rest]; exact h2.mem (by decide)
  · rw [h5.ctxs (by decide), hseat.rest]; exact h2.ctxs (by decide)
  · rw [h5.warps (by decide)]
    refine hgone w ?_
    exact (congrArg (mLook · w) (h2.warps (by decide))).trans ((mLook_foldl_mDel ..).trans (if_pos hw))
  · refine hblk y ?_
    have := hblocks id y hy
    rwa [hseat.rest] at this

/-- The launch ends with its last block. -/
def endIfDone (b : Block) : Act := look fun s => match mLook s.launches b.launch with
  | some l => if l.doneBlocks = l.blocksN then endLaunch b.launch l 1 l.penn.toNat l.doneBlocks else skip
  | none => skip

theorem exec_blockComplete {s : State} {id : Nat} {b : Block} (hb : mLook s.blocks id = some b) (hopen : b.completed = false)
    (hres : b.place = .resident) (hlive : ∀ w ∈ b.warps, liveOf s w = 0) (hops : ∀ e ∈ s.ops, e.2.blk ≠ id) (hengs : ∀ e ∈ s.engs, e.2.blk ≠ id) :
    exec (.blockComplete id) s = .next (after bump (after (endIfDone b) (after (completeSteps id b) s))) := by
  have h1 : (b.warps.any fun w => decide (liveOf s w ≠ 0)) = false := List.any_eq_false.2 fun w hw => by simp [hlive w hw]
  have h2 : (s.ops.any fun e => decide (e.2.blk = id)) = false := List.any_eq_false.2 fun e he => by simp [hops e he]
  have h3 : (s.engs.any fun e => decide (e.2.blk = id)) = false := List.any_eq_false.2 fun e he => by simp [hengs e he]
  change execBlockComplete id s = _
  rw [execBlockComplete, finish_eq, hb]
  refine (congrArg (fun a => Host.Outcome.next (after a s)) (if_neg (by rw [hopen, hres, h1, h2, h3]; decide))).trans ?_
  simp only [after_andThen, completeSteps]
  rfl

/-! ## The arbiter and the checks of a record -/

theorem arbiterEnter_enters {s : State} {id : Nat} {l : Launch} (hl : mLook s.launches id = some l) (hst : l.stage = .ready)
    (hroom : (s.launches.filter fun e => inList e.2 s).length < 4096)
    (hfirst : ∀ e ∈ s.launches, e.2.stage = .ready → sameSource e.2 l = true → l.order ≤ e.2.order) :
    exec (.arbiterEnter id) s = .next { s with
      launches := mIns s.launches id { l with stage := .entered, order := s.nextId, queue := none }, nextId := s.nextId + 1,
      epoch := s.epoch + 1 } := by
  have hany : (s.launches.any fun e => decide (e.2.stage = .ready) && sameSource e.2 l && decide (e.2.order < l.order)) = false :=
    List.any_eq_false.2 fun e he h => by
      simp only [Bool.and_eq_true, decide_eq_true_eq] at h
      obtain ⟨⟨hready, hsame⟩, hlt⟩ := h
      exact absurd hlt (Nat.not_lt.2 (hfirst e he hready hsame))
  change execArbiterEnter id s = _
  rw [execArbiterEnter, finish_eq, hl]
  refine (congrArg (fun a => Host.Outcome.next (after a s)) (if_neg ?_)).trans ?_
  · rw [hany, hst, decide_eq_false (Nat.not_le.2 hroom)]
    decide
  · rfl

theorem waits_or_empty {l : Launch} (hst : l.stage = .entered) (h : l.nextB < l.blocksN ∨ l.blocksN = 0) :
    (!waitsForCores l && !(decide (l.stage = .entered) && decide (l.blocksN = 0))) = false := by
  rw [waitsForCores, hst]
  rcases h with h | h <;> simp [h]

theorem exec_blockDispatch_rejects {s : State} {id : Nat} {l : Launch} {c : Context} (ps : List BlockPlace) (hl : mLook s.launches id = some l)
    (hc : mLook s.ctxs l.ctx = some c) (hst : l.stage = .entered) (hbad : recordOk s c id l = false) (h : l.nextB < l.blocksN ∨ l.blocksN = 0) :
    exec (.blockDispatch id ps) s = .next (after (rejectLaunch id l) s) := by
  change execBlockDispatch id ps s = _
  rw [execBlockDispatch, finish_eq, hl]
  simp only [hc]
  refine congrArg (fun a => Host.Outcome.next (after a s)) ((if_neg ?_).trans (if_pos ?_))
  · rw [waits_or_empty hst h]; decide
  · rw [hst, hbad]; decide

/-- One block is placed. -/
theorem exec_blockDispatch_places {s : State} {id : Nat} {l : Launch} {c : Context} {p : BlockPlace} {es : List Effect} (hl : mLook s.launches id = some l)
    (hc : mLook s.ctxs l.ctx = some c) (hwait : waitsForCores l = true) (hok : l.stage = .entered → recordOk s c id l = true)
    (hsaved : hasSaved s id = false) (hright : rightPlaces s id l [p] = true) (hes : placeAll id [p] none s = some es) :
    exec (.blockDispatch id [p]) s = .next (after bump (after (placeBlock id l p s.nextId)
      { s with groups := mIns s.groups s.nextId { blocks := [], base := clusterBase (p.cores.headD 0) l.cluster }, nextId := s.nextId + 1 })) := by
  have hplace : after (fun _ => es) s = after (placeBlock id l p s.nextId)
      { s with groups := mIns s.groups s.nextId { blocks := [], base := clusterBase (p.cores.headD 0) l.cluster }, nextId := s.nextId + 1 } := by
    simp only [placeAll, hl] at hes
    split at hes
    · cases hes
    · simp only [Option.any_none, Bool.and_false, Bool.false_eq_true, if_false, Option.map_some, List.append_nil, Option.some.injEq] at hes
      rw [← hes]
      change after (andThen (andThen _ _) _) s = _
      rw [after_andThen, after_andThen]
      rfl
  change execBlockDispatch id [p] s = _
  rw [execBlockDispatch, finish_eq, hl]
  simp only [hc, hwait, hsaved, hright, hes, Bool.not_true, Bool.false_and, Bool.or_self, Bool.false_eq_true, if_false]
  refine (congrArg (fun a => Host.Outcome.next (after a s)) (if_neg ?_)).trans ?_
  · intro h
    simp only [Bool.and_eq_true, decide_eq_true_eq, Bool.not_eq_true'] at h
    exact absurd ((hok h.1).symm.trans h.2) (by decide)
  · rw [← hplace]
    refine congrArg Host.Outcome.next ?_
    exact applyAll_append es [.bump] s

/-! ## What a submission comes to (R341) -/

section
variable {s : State} {cid : Nat} {c : Context} {addr : DWord} (hc : mLook s.ctxs cid = some c) (ht : c.terminated = false)
include hc ht

/-- A record that breaks R341. -/
theorem hostSubmit_refuses (h : addr.toNat % 128 ≠ 0 ∨ readVirt s c addr.toNat 128 = none ∨
      ∃ bs, readVirt s c addr.toNat 128 = some bs ∧ (doneOk s c bs = false ∨ c.launchQuota ≤ ringCount s cid ∨
        (recAt bs 48 2 ≠ 0xFFFF ∧ scopeOpen c (recAt bs 48 2) = false))) :
    exec (.hostSubmit cid addr) s = .next (refusedOne s cid c) := by
  by_cases ha : addr.toNat % 128 = 0
  · cases hr : readVirt s c addr.toNat 128 with
    | none => exact exec_hostSubmit_unreadable hc ht ha hr
    | some bs =>
      obtain ⟨bs', hbs', hbad⟩ := (h.resolve_left (not_not_intro ha)).resolve_left (by rw [hr]; simp)
      cases hr.symm.trans hbs'
      refine exec_hostSubmit_read hc ht ha hr (bad := true) ?_
      rcases hbad with hd | hq | ⟨hn, hs⟩
      · rw [hd]; rfl
      · rw [decide_eq_true hq, Bool.or_true, Bool.true_or]
      · rw [scopeNamed, if_neg hn, Option.any_some, hs, Bool.not_false, Bool.or_true]
  · exact exec_hostSubmit_misaligned hc ht ha

variable (ha : addr.toNat % 128 = 0) {bs : List Byte} (hr : readVirt s c addr.toNat 128 = some bs) (hd : doneOk s c bs = true)
  (hq : ringCount s cid < c.launchQuota)
include ha hr hd hq

/-- A record that keeps R341. -/
theorem exec_hostSubmit_good (hopen : ∀ n, scopeNamed bs = some n → scopeOpen c n = true) :
    exec (.hostSubmit cid addr) s = .next (after bump (after (if recHold bs && (scopeNamed bs).isNone then refuseHeld cid bs
        else addLaunch (submitted cid bs))
        { s with ctxs := mIns s.ctxs cid { c with lastId := freshId s } })) := by
  have hany : ((scopeNamed bs).any fun n => !scopeOpen c n) = false := by
    cases h : scopeNamed bs with
    | none => rfl
    | some n => rw [Option.any_some, hopen n h]; rfl
  refine exec_hostSubmit_read hc ht ha hr (bad := false) ?_
  rw [hd, hany, decide_eq_false (Nat.not_le.2 hq)]
  rfl

theorem hostSubmit_places (hopen : ∀ n, scopeNamed bs = some n → scopeOpen c n = true)
    (hhold : recHold bs = true → (scopeNamed bs).isSome = true) :
    ∃ m, exec (.hostSubmit cid addr) s = .next { s with
        launches := mIns s.launches (freshId s).toNat { submitted cid bs with order := s.nextId },
        nextLaunch := freshId s + 1, nextId := s.nextId + 1, ctxs := m, epoch := s.epoch + 1 } ∧
      mLook m cid = some (registered (scopeNamed bs) { c with lastId := freshId s }) ∧ ∀ k, k ≠ cid → mLook m k = mLook s.ctxs k := by
  have hno : ¬ (recHold bs && (scopeNamed bs).isNone) = true := by
    cases h : recHold bs with
    | false => exact Bool.false_ne_true
    | true =>
      obtain ⟨n, hn⟩ := Option.isSome_iff_exists.1 (hhold h)
      rw [hn]
      exact Bool.false_ne_true
  have hrun := exec_hostSubmit_good hc ht ha hr hd hq hopen
  obtain ⟨m, hm, hself, hothers⟩ := after_addLaunch (u := { s with ctxs := mIns s.ctxs cid { c with lastId := freshId s } })
    (submitted cid bs) (mLook_mIns_self ..)
  rw [if_neg hno, hm, after_bump] at hrun
  exact ⟨m, hrun, hself, fun k hk => (hothers k hk).trans (mLook_mIns_ne _ _ hk)⟩

/-- A record with HOLD and no scope. -/
theorem hostSubmit_ends (hhold : recHold bs = true) (hnone : scopeNamed bs = none) :
    let l : Launch := { ctx := cid, bytes := bs, scope := none, stage := .finished }
    ∃ bd, exec (.hostSubmit cid addr) s = .next { s with
        mem := tailWritten s c l 4 0 0, bad := bd, ctxs := mIns s.ctxs cid { c with lastId := freshId s },
        launches := mIns s.launches (freshId s).toNat (endedLaunch s c l 4), nextLaunch := freshId s + 1, epoch := s.epoch + 1 } := by
  intro l
  have hrun := exec_hostSubmit_good hc ht ha hr hd hq fun n h => by rw [hnone] at h; cases h
  rw [if_pos (by rw [hhold, hnone]; rfl), refuseHeld, after_look, mLook_mIns_self] at hrun
  obtain ⟨bd, hbd⟩ := after_beginRecord (s := s)
    (u := { s with ctxs := mIns s.ctxs cid { c with lastId := freshId s }, nextLaunch := freshId s + 1 }) rfl (c := c)
    (d := { c with lastId := freshId s }) (fun _ _ => rfl) (fun _ => rfl) (fun _ => rfl) (freshId s).toNat l 4 0 0
  replace hrun := hrun.trans (congrArg (fun u => Host.Outcome.next (after bump u)) ((after_andThen ..).trans hbd))
  exact ⟨bd, hrun⟩

end

/-- Settles O50, each event by what it leaves: the record of a launch that ends through `beginRecord`, the dispatch through
the parts of a placement, and the completion of a block through its steps. -/
theorem schedulerCompletes : Obligations.SchedulerCompletes := by
  unfold Obligations.SchedulerCompletes
  intro s hcan ended tail
  refine ⟨?submit, ?clear, ?arbiter, ?reject, ?dispatch, ?complete, ?finish⟩
  case submit =>
    intro cid c addr hc ht
    refine ⟨?_, hostSubmit_refuses hc ht⟩
    intro bs sc id ha hr hd hq hopen
    refine ⟨?_, ?_⟩
    · intro hhold
      obtain ⟨m, hrun, hself, hothers⟩ := hostSubmit_places hc ht ha hr hd hq hopen hhold
      exact ⟨_, hrun, rfl, mLook_mIns_self .., fun k hk => mLook_mIns_ne _ _ hk, hothers, hself⟩
    · intro hhold hnone l
      obtain ⟨bd, hrun⟩ := hostSubmit_ends hc ht ha hr hd hq hhold hnone
      exact ⟨_, hrun, rfl, rfl⟩
  case clear =>
    intro cid c hc
    change execRefusedClear cid 0 s = _
    rw [execRefusedClear, finish_eq, if_pos rfl, after_updCtx hc]
  case arbiter => exact fun id l hl hst hroom hfirst => arbiterEnter_enters hl hst hroom hfirst
  case reject =>
    intro id l c ps hl hc hst hbad h
    have hrun := exec_blockDispatch_rejects ps hl hc hst hbad h
    obtain ⟨bd, hbd⟩ := after_endLaunch (s := s) (u := s) rfl hc id 4 0 0
    rw [rejectLaunch, hbd] at hrun
    exact ⟨_, hrun, rfl, rfl⟩
  case dispatch =>
    intro id l c p es hl hc hwait hok hsaved hright hes
    have hrun := exec_blockDispatch_places hl hc hwait hok hsaved hright hes
    obtain ⟨hmem, ⟨u, hblock⟩, hlaunch, hwarps⟩ := placeBlock_placed id l p s.nextId
      { s with groups := mIns s.groups s.nextId { blocks := [], base := clusterBase (p.cores.headD 0) l.cluster }, nextId := s.nextId + 1 }
    rw [after_bump] at hrun
    refine ⟨_, _, hrun, hblock, rfl, hlaunch l hl, hmem, fun w hw => ?_⟩
    obtain ⟨x, hx, hd⟩ := hwarps w hw
    exact ⟨x, hx, hd.block, hd.num, hd.alloc, hd.live, hd.nstat, hd.args, hd.vregs, hd.record, hd.strand⟩
  case complete =>
    intro id b l c hb hl hc hopen hres hlive hops hengs
    have hrun := exec_blockComplete hb hopen hres hlive hops hengs
    obtain ⟨q, hdone⟩ := completeSteps_completed hcan hb hl
    generalize after (completeSteps id b) s = u at hrun hdone
    have hcu : mLook u.ctxs (oneBlockMore b l q).ctx = some c := by rw [hdone.ctxs]; exact hc
    rw [endIfDone, after_look, hdone.launch] at hrun
    by_cases hlast : (oneBlockMore b l q).doneBlocks = (oneBlockMore b l q).blocksN
    · obtain ⟨bd, hbd⟩ := after_endLaunch hdone.mem hcu b.launch 1 (oneBlockMore b l q).penn.toNat (oneBlockMore b l q).doneBlocks
      replace hrun := hrun.trans (congrArg (fun a => Host.Outcome.next (after bump (after a u))) (if_pos hlast))
      rw [hbd, after_bump] at hrun
      exact ⟨_, q, hrun, hdone.queue, hdone.warps, hdone.blocks, fun h => absurd hlast h, fun _ => ⟨mLook_mIns_self .., rfl⟩⟩
    · replace hrun := hrun.trans (congrArg (fun a => Host.Outcome.next (after bump (after a u))) (if_neg hlast))
      exact ⟨_, q, hrun, hdone.queue, hdone.warps, hdone.blocks, fun _ => ⟨hdone.launch, hdone.mem⟩, fun h => absurd h hlast⟩
  case finish =>
    intro id l hl hst
    obtain ⟨t, hrun, ht, hmem, hself, hothers⟩ := finishRecord_spec hl hst
    refine ⟨t, hrun, ht, hmem.trans ?_, hself, hothers⟩
    rw [statusAct]
    cases l.doneKey <;> rfl

end Sys2Proof.Machine
